-- ==== Sys2Proof/Word.lean ====
section
/-! DEFINITION. The widths the spec gives its fields: bytes, 16-bit and 32-bit words (R172, R175). -/

namespace Sys2Proof

/-- One byte of a block, a frame or record memory. -/
abbrev Byte := BitVec 8

/-- A two-byte field: a sequence, a slot number on the wire, a day number, a 16-bit counter. -/
abbrev Half := BitVec 16

/-- A four-byte field: a serial, a reading, a route clock value, an intake counter. -/
abbrev Word := BitVec 32

end Sys2Proof
end

