-- ==== Sys2Proof/Machine/Bytes.lean ====
section
/-! DEFINITION. Byte order, the check codes and the saturating counts: the small helpers every layout
and every counter of the spec shares. Multi-byte fields go most significant byte first (R172, R175). -/

namespace Sys2Proof.Machine

/-- The byte at an offset, 0 past the end. -/
def byteAt (bs : List Byte) (i : Nat) : Byte := bs.getD i 0

/-- The two-byte field at an offset. -/
def halfAt (bs : List Byte) (i : Nat) : Half := byteAt bs i ++ byteAt bs (i + 1)

/-- The four-byte field at an offset. -/
def wordAt (bs : List Byte) (i : Nat) : Word := halfAt bs i ++ halfAt bs (i + 2)

/-- A two-byte field's bytes. -/
def halfBytes (x : Half) : List Byte := [x.extractLsb' 8 8, x.extractLsb' 0 8]

/-- A four-byte field's bytes. -/
def wordBytes (x : Word) : List Byte :=
  [x.extractLsb' 24 8, x.extractLsb' 16 8, x.extractLsb' 8 8, x.extractLsb' 0 8]

/-- A number as a byte. -/
def natByte (n : Nat) : Byte := BitVec.ofNat 8 n

/-- A number as a two-byte field's bytes. -/
def natHalf (n : Nat) : List Byte := halfBytes (BitVec.ofNat 16 n)

/-- Yes or no, set or clear, as R173 codes them. -/
def boolByte (b : Bool) : Byte := if b then 1 else 0

/-- `n` zero bytes. -/
def zeros (n : Nat) : List Byte := List.replicate n 0

/-- A count raised by 1 that holds at its upper limit. -/
def satInc {w : Nat} (x : BitVec w) : BitVec w := if x = BitVec.allOnes w then x else x + 1

/-- One bit of the CRC-8 with generator 07h, most significant bit first. -/
def crc8Bit (c : Byte) : Byte := if c.msb then (c <<< 1) ^^^ 0x07 else c <<< 1

/-- One byte of the CRC-8. -/
def crc8Byte (c b : Byte) : Byte :=
  crc8Bit (crc8Bit (crc8Bit (crc8Bit (crc8Bit (crc8Bit (crc8Bit (crc8Bit (c ^^^ b))))))))

/-- The check byte of R17: CRC-8, generator x^8+x^2+x+1, initial value 0, no reflection. -/
def crc8 (bs : List Byte) : Byte := bs.foldl crc8Byte 0

/-- One bit of the CRC-16 with generator 1021h, most significant bit first. -/
def crc16Bit (c : Half) : Half := if c.msb then (c <<< 1) ^^^ 0x1021 else c <<< 1

/-- One byte of the CRC-16. -/
def crc16Byte (c : Half) (b : Byte) : Half :=
  crc16Bit (crc16Bit (crc16Bit (crc16Bit (crc16Bit (crc16Bit (crc16Bit (crc16Bit
    (c ^^^ (b ++ (0 : Byte))))))))))

/-- The frame check of the endpoint and depot frames: CRC-16, generator x^16+x^12+x^5+1, initial value
FFFFh, no reflection. -/
def crc16 (bs : List Byte) : Half := bs.foldl crc16Byte 0xFFFF

/-- The bytes with their CRC-8 appended, as a base record, block or route-area copy is written (R17). -/
def withCheck (bs : List Byte) : List Byte := bs ++ [crc8 bs]

/-- Whether the last of `n` bytes is the check byte of those before it (R17). -/
def checkHolds (n : Nat) (bs : List Byte) : Bool := byteAt bs (n - 1) == crc8 (bs.take (n - 1))

/-- Byte by byte, the new byte where the mask says it has arrived and the old one elsewhere: what a write
cut short leaves (R23). -/
def mixBytes {w : Nat} (arrived : BitVec w) : Nat → List Byte → List Byte → List Byte
  | i, n :: new, o :: old => (if arrived.getLsbD i then n else o) :: mixBytes arrived (i + 1) new old
  | _, _, _ => []

end Sys2Proof.Machine
end

