-- ==== Sys2Proof/Syntax.lean ====
section
/-! DEFINITION. The commands: one constructor of `Instr` per row of spec/opcode_table.json, with the
row's operands at the widths and in the raw codes of R172 to R174. A command's parameters are kept as
the block carries them, so that the checks of the command's own rule meet every value a block can hold. -/

namespace Sys2Proof

/-- An optional field of a command block: a presence byte followed by the value bytes (R172). -/
structure Sent (α : Type) where
  presence : Byte
  value : α
  deriving DecidableEq, Repr

/-- The parameters of ROUTE_HEADER in the order of R134 and R173; each field is a presence byte
(00h asks for the default, 01h gives the value) and a value. -/
structure HeaderParams where
  identity : Sent Word
  van : Sent Half
  date : Sent Half
  weightMagnet : Sent Byte
  weightCover : Sent Byte
  weightReverse : Sent Byte
  weightRegress : Sent Byte
  weightLow : Sent Byte
  weightStopped : Sent Byte
  weightRepower : Sent Byte
  weightIdentity : Sent Byte
  hold : Sent Byte
  flag : Sent Byte
  backstep : Sent Half
  lowRatio : Sent Byte
  rollover : Sent Half
  stopDays : Sent Byte
  duplicateWindow : Sent Half
  confirmGap : Sent Half
  tolerance : Sent Byte
  redriveGap : Sent Byte
  redriveLimit : Sent Byte
  verdictTimeout : Sent Byte
  deriving DecidableEq, Repr

/-- The parameters of RECORD_LOAD (R9, R167, R173). -/
structure LoadParams where
  serial : Word
  sequence : Half
  kind : Byte
  dials : Byte
  previous : Word
  previousDay : Half
  rate : Half
  probeOnly : Byte
  powerRef : Sent Byte
  deriving DecidableEq, Repr

/-- The parameters of RECORD_AMEND (R14, R167, R173). The presence byte of `powerRef` is 00h for no
change, 01h to set it and 02h to make it absent; `action` is the amend action code. -/
structure AmendParams where
  serial : Word
  sequence : Sent Half
  dials : Sent Byte
  previous : Sent Word
  previousDay : Sent Half
  rate : Sent Half
  probeOnly : Sent Byte
  kind : Sent Byte
  powerRef : Sent Byte
  action : Byte
  deriving DecidableEq, Repr

/-- What a failing supply catches record memory at (R23, R135): nothing being written, one write cut
short, or the memory's own backup failing as well. A mask's bit i says that byte i of what was being
written had reached memory. -/
inductive Loss where
  /-- No write was under way: every byte stays as last written. -/
  | clean
  /-- The write of the oldest write queue entry to its slot was cut short (R34). -/
  | cutQueueWrite (arrived : BitVec 64)
  /-- The direct write of `image` to extension block `block` was cut short (R35). -/
  | cutBlockWrite (block : Nat) (image : List Byte) (arrived : BitVec 32)
  /-- The route-area write of `contents` to item `item` was cut short (R135). -/
  | cutItemWrite (item : Nat) (contents : List Byte) (arrived : BitVec 256)
  /-- The memory's own backup did not hold: it comes back reading as the listed bytes say, and 0 at
  every other address. -/
  | backupLost (cells : List (Nat × Byte))
  deriving DecidableEq, Repr

/-- One constructor per row of spec/opcode_table.json, in the table's order. -/
inductive Instr where
  /-- ROUTE_HEADER (R134). -/
  | routeHeader (p : HeaderParams)
  /-- ROUTE_OPEN (R138). -/
  | routeOpen
  /-- OPEN_SCAN (R138): the scan that ROUTE_OPEN asked for runs. -/
  | openScan
  /-- ROUTE_CLOSE (R139). -/
  | routeClose
  /-- ROUTE_CLEAR (R140). -/
  | routeClear
  /-- ROUTE_STATUS (R147). -/
  | routeStatus
  /-- RECORD_LOAD (R9). -/
  | recordLoad (p : LoadParams)
  /-- RECORD_LOOKUP (R165): `wanted` asks for the extension contents. -/
  | recordLookup (serial : Word) (wanted : Byte)
  /-- RECORD_AMEND (R14). -/
  | recordAmend (p : AmendParams)
  /-- RECORD_NOTE (R11): the text's length is the block's length byte c, and m = 5 + c. -/
  | recordNote (serial : Word) (text : List Byte)
  /-- RECORD_RETIRE (R22). -/
  | recordRetire (serial : Word)
  /-- RECORD_WALK (R166). -/
  | recordWalk (start : Half) (statuses : Byte) (filter : Byte)
  /-- SEGMENT_DEFINE (R114). -/
  | segmentDefine (segment : Byte) (base : Half) (limit : Half) (dwell : Half)
  /-- SEGMENT_ENTER (R120). -/
  | segmentEnter (segment : Byte)
  /-- SEGMENT_LEAVE (R124). -/
  | segmentLeave
  /-- SEGMENT_STATUS (R129). -/
  | segmentStatus (segment : Byte)
  /-- PLAN_READ (R130). -/
  | planRead
  /-- PLAN_MOVE (R127). -/
  | planMove (segment : Byte) (position : Byte)
  /-- TAMPER_READ (R109). -/
  | tamperRead
  /-- TAMPER_ACK (R107). -/
  | tamperAck (serial : Word)
  /-- CAB_MODE (R112). -/
  | cabMode (mode : Byte) (invert : Byte)
  /-- PORT_MODE (R55). -/
  | portMode (port : Byte) (mode : Byte)
  /-- PORT_RESET (R56). -/
  | portReset (port : Byte)
  /-- RESET_PULSE_END (R56): the 10 ms of the reset pulse under way are over. -/
  | resetPulseEnd
  /-- PORT_STATUS (R58). -/
  | portStatus
  /-- UPLOAD_START (R150). -/
  | uploadStart
  /-- UPLOAD_STOP (R157). -/
  | uploadStop
  /-- UPLOAD_STATUS (R160). -/
  | uploadStatus
  /-- EVENTS_READ (R169). -/
  | eventsRead (clear : Half)
  /-- EVENTS_ENABLE (R170). -/
  | eventsEnable (enable : Half)
  /-- FLUSH (R42). -/
  | flush
  /-- FLUSH_DRAIN_DONE (R42): the entries FLUSH waits for have been written. -/
  | flushDrainDone
  /-- PART_RESET (R146). -/
  | partReset
  /-- BAD_COMMAND_BLOCK (R164): a write selection ends with `block` written after `direction` (R172). -/
  | badCommandBlock (direction : Byte) (block : List Byte)
  /-- COMMAND_COLLISION (R163): a block's selection ends while a command or response is held. -/
  | commandCollision
  /-- RESPONSE_READ (R162): a read selection of `clocks` bytes after the direction byte (R172). -/
  | responseRead (direction : Byte) (clocks : Nat)
  /-- PORT_BYTE (R46): a byte arrives from the front-end of a port. -/
  | portByte (port : Fin 4) (byte : Byte)
  /-- BYTE_GAP_TIMEOUT (R47): 20 ms have passed on a port without a byte. -/
  | byteGapTimeout (port : Fin 4)
  /-- FRAME_TAKE (R54). -/
  | frameTake
  /-- FRAME_MATCH (R63). -/
  | frameMatch
  /-- WRITE_QUEUE_WRITE (R34). -/
  | writeQueueWrite
  /-- ROUTE_CLOCK_TICK (R136): a tenth of a second has passed. -/
  | routeClockTick
  /-- CLOCK_CHECKPOINT (R137). -/
  | clockCheckpoint
  /-- DWELL_COMPARE_EXPIRE (R125). -/
  | dwellCompareExpire
  /-- PULSE_TIMER_EXPIRE (R111). -/
  | pulseTimerExpire
  /-- POWER_WARNING (R145). -/
  | powerWarning
  /-- POWER_UP (R142). -/
  | powerUp
  /-- RECOVERY_SCAN (R143). -/
  | recoveryScan
  /-- DOCK_ATTACH (R148): dock-sense is judged active. -/
  | dockAttach
  /-- DOCK_REMOVAL (R157): dock-sense is judged inactive. -/
  | dockRemoval
  /-- BATCH_FORM (R152). -/
  | batchForm
  /-- OFFER_SENT (R152): the OFFER's last byte has left the pin. -/
  | offerSent
  /-- DEPOT_BYTE (R149): a byte arrives from the station. -/
  | depotByte (byte : Byte)
  /-- DEPOT_BYTE_GAP_TIMEOUT (R149). -/
  | depotByteGapTimeout
  /-- VERDICT_TIMEOUT (R156). -/
  | verdictTimeout
  /-- POWER_LOSS (R23): the supply fails. -/
  | powerLoss (loss : Loss)
  deriving DecidableEq, Repr

end Sys2Proof
end

