-- ==== Sys2Proof/Decode.lean ====
section
/-! DEFINITION. The command block (R164, R172, R173): from the bytes a host writes after the direction
byte to the command they carry, and back. The table of spec/opcode_table.json gives its rows no bits, so a
word spells no row. -/

namespace Sys2Proof

open Machine

/-- The command a word spells by the table's bits. The table gives no row any bits: none. -/
def decodeTableWord (_nbits _w : Nat) : Option Instr := none

/-! ### Fields -/

/-- A presence byte and a value byte at an offset. -/
def sentByteAt (ps : List Byte) (i : Nat) : Sent Byte := ⟨byteAt ps i, byteAt ps (i + 1)⟩
/-- A presence byte and a two-byte value at an offset. -/
def sentHalfAt (ps : List Byte) (i : Nat) : Sent Half := ⟨byteAt ps i, halfAt ps (i + 1)⟩
/-- A presence byte and a four-byte value at an offset. -/
def sentWordAt (ps : List Byte) (i : Nat) : Sent Word := ⟨byteAt ps i, wordAt ps (i + 1)⟩

/-- The bytes of a one-byte optional field. -/
def Sent.byteField (x : Sent Byte) : List Byte := [x.presence, x.value]
/-- The bytes of a two-byte optional field. -/
def Sent.halfField (x : Sent Half) : List Byte := x.presence :: halfBytes x.value
/-- The bytes of a four-byte optional field. -/
def Sent.wordField (x : Sent Word) : List Byte := x.presence :: wordBytes x.value

/-! ### Parameters (R167, R173) -/

/-- The parameters of ROUTE_HEADER: each field's presence byte and value in turn, 55 bytes by their sizes
(log, entry 11). -/
def HeaderParams.ofBytes (ps : List Byte) : HeaderParams where
  identity := sentWordAt ps 0
  van := sentHalfAt ps 5
  date := sentHalfAt ps 8
  weightMagnet := sentByteAt ps 11
  weightCover := sentByteAt ps 13
  weightReverse := sentByteAt ps 15
  weightRegress := sentByteAt ps 17
  weightLow := sentByteAt ps 19
  weightStopped := sentByteAt ps 21
  weightRepower := sentByteAt ps 23
  weightIdentity := sentByteAt ps 25
  hold := sentByteAt ps 27
  flag := sentByteAt ps 29
  backstep := sentHalfAt ps 31
  lowRatio := sentByteAt ps 34
  rollover := sentHalfAt ps 36
  stopDays := sentByteAt ps 39
  duplicateWindow := sentHalfAt ps 41
  confirmGap := sentHalfAt ps 44
  tolerance := sentByteAt ps 47
  redriveGap := sentByteAt ps 49
  redriveLimit := sentByteAt ps 51
  verdictTimeout := sentByteAt ps 53

/-- The parameter bytes of ROUTE_HEADER. -/
def HeaderParams.bytes (p : HeaderParams) : List Byte :=
  p.identity.wordField ++ p.van.halfField ++ p.date.halfField ++
  p.weightMagnet.byteField ++ p.weightCover.byteField ++ p.weightReverse.byteField ++
  p.weightRegress.byteField ++ p.weightLow.byteField ++ p.weightStopped.byteField ++
  p.weightRepower.byteField ++ p.weightIdentity.byteField ++ p.hold.byteField ++ p.flag.byteField ++
  p.backstep.halfField ++ p.lowRatio.byteField ++ p.rollover.halfField ++ p.stopDays.byteField ++
  p.duplicateWindow.halfField ++ p.confirmGap.halfField ++ p.tolerance.byteField ++
  p.redriveGap.byteField ++ p.redriveLimit.byteField ++ p.verdictTimeout.byteField

/-- The parameters of RECORD_LOAD, 19 bytes. -/
def LoadParams.ofBytes (ps : List Byte) : LoadParams where
  serial := wordAt ps 0
  sequence := halfAt ps 4
  kind := byteAt ps 6
  dials := byteAt ps 7
  previous := wordAt ps 8
  previousDay := halfAt ps 12
  rate := halfAt ps 14
  probeOnly := byteAt ps 16
  powerRef := sentByteAt ps 17

/-- The parameter bytes of RECORD_LOAD. -/
def LoadParams.bytes (p : LoadParams) : List Byte :=
  wordBytes p.serial ++ halfBytes p.sequence ++ [p.kind, p.dials] ++ wordBytes p.previous ++
  halfBytes p.previousDay ++ halfBytes p.rate ++ [p.probeOnly] ++ p.powerRef.byteField

/-- The parameters of RECORD_AMEND, 27 bytes. -/
def AmendParams.ofBytes (ps : List Byte) : AmendParams where
  serial := wordAt ps 0
  sequence := sentHalfAt ps 4
  dials := sentByteAt ps 7
  previous := sentWordAt ps 9
  previousDay := sentHalfAt ps 14
  rate := sentHalfAt ps 17
  probeOnly := sentByteAt ps 20
  kind := sentByteAt ps 22
  powerRef := sentByteAt ps 24
  action := byteAt ps 26

/-- The parameter bytes of RECORD_AMEND. -/
def AmendParams.bytes (p : AmendParams) : List Byte :=
  wordBytes p.serial ++ p.sequence.halfField ++ p.dials.byteField ++ p.previous.wordField ++
  p.previousDay.halfField ++ p.rate.halfField ++ p.probeOnly.byteField ++ p.kind.byteField ++
  p.powerRef.byteField ++ [p.action]

/-! ### Blocks (R164, R172) -/

/-- A command whose parameters take a fixed number of bytes. -/
def sized (m : Nat) (ps : List Byte) (i : Instr) : Option Instr := if ps.length = m then some i else none

/-- The command a code and its parameter bytes carry, or none when the code is unknown or the length does
not match (R164, R173). -/
def decodeParams (code : Byte) (ps : List Byte) : Option Instr :=
  if code = 0x10 then sized 55 ps (.routeHeader (.ofBytes ps))
  else if code = 0x11 then sized 0 ps .routeOpen
  else if code = 0x12 then sized 0 ps .routeClose
  else if code = 0x13 then sized 0 ps .routeClear
  else if code = 0x14 then sized 0 ps .routeStatus
  else if code = 0x20 then sized 19 ps (.recordLoad (.ofBytes ps))
  else if code = 0x21 then sized 5 ps (.recordLookup (wordAt ps 0) (byteAt ps 4))
  else if code = 0x22 then sized 27 ps (.recordAmend (.ofBytes ps))
  else if code = 0x23 then
    (if 5 ≤ ps.length then sized (5 + (byteAt ps 4).toNat) ps (.recordNote (wordAt ps 0) (ps.drop 5))
     else none)
  else if code = 0x24 then sized 4 ps (.recordRetire (wordAt ps 0))
  else if code = 0x25 then sized 4 ps (.recordWalk (halfAt ps 0) (byteAt ps 2) (byteAt ps 3))
  else if code = 0x30 then
    sized 7 ps (.segmentDefine (byteAt ps 0) (halfAt ps 1) (halfAt ps 3) (halfAt ps 5))
  else if code = 0x31 then sized 1 ps (.segmentEnter (byteAt ps 0))
  else if code = 0x32 then sized 0 ps .segmentLeave
  else if code = 0x33 then sized 1 ps (.segmentStatus (byteAt ps 0))
  else if code = 0x34 then sized 0 ps .planRead
  else if code = 0x35 then sized 2 ps (.planMove (byteAt ps 0) (byteAt ps 1))
  else if code = 0x40 then sized 0 ps .tamperRead
  else if code = 0x41 then sized 4 ps (.tamperAck (wordAt ps 0))
  else if code = 0x42 then sized 2 ps (.cabMode (byteAt ps 0) (byteAt ps 1))
  else if code = 0x50 then sized 2 ps (.portMode (byteAt ps 0) (byteAt ps 1))
  else if code = 0x51 then sized 1 ps (.portReset (byteAt ps 0))
  else if code = 0x52 then sized 0 ps .portStatus
  else if code = 0x60 then sized 0 ps .uploadStart
  else if code = 0x61 then sized 0 ps .uploadStop
  else if code = 0x62 then sized 0 ps .uploadStatus
  else if code = 0x70 then sized 2 ps (.eventsRead (halfAt ps 0))
  else if code = 0x71 then sized 2 ps (.eventsEnable (halfAt ps 0))
  else if code = 0x72 then sized 0 ps .flush
  else if code = 0x73 then sized 0 ps .partReset
  else none

/-- The command a block carries, or none for a malformed one: shorter than two bytes, a length above 62,
ended before its length was complete, or not fitting its code. Bytes after the declared end are
discarded (R164, R172). -/
def decodeBlock : List Byte → Option Instr
  | code :: m :: rest =>
    if 62 < m.toNat ∨ rest.length < m.toNat then none else decodeParams code (rest.take m.toNat)
  | _ => none

/-- The code and parameter bytes of a command of the command port; none for the rows that no block
carries (R173). -/
def Instr.codeAndParams : Instr → Option (Byte × List Byte)
  | .routeHeader p => some (0x10, p.bytes)
  | .routeOpen => some (0x11, [])
  | .routeClose => some (0x12, [])
  | .routeClear => some (0x13, [])
  | .routeStatus => some (0x14, [])
  | .recordLoad p => some (0x20, p.bytes)
  | .recordLookup serial wanted => some (0x21, wordBytes serial ++ [wanted])
  | .recordAmend p => some (0x22, p.bytes)
  | .recordNote serial text => some (0x23, wordBytes serial ++ natByte text.length :: text)
  | .recordRetire serial => some (0x24, wordBytes serial)
  | .recordWalk start statuses filter => some (0x25, halfBytes start ++ [statuses, filter])
  | .segmentDefine segment base limit dwell =>
    some (0x30, segment :: (halfBytes base ++ halfBytes limit ++ halfBytes dwell))
  | .segmentEnter segment => some (0x31, [segment])
  | .segmentLeave => some (0x32, [])
  | .segmentStatus segment => some (0x33, [segment])
  | .planRead => some (0x34, [])
  | .planMove segment position => some (0x35, [segment, position])
  | .tamperRead => some (0x40, [])
  | .tamperAck serial => some (0x41, wordBytes serial)
  | .cabMode mode invert => some (0x42, [mode, invert])
  | .portMode port mode => some (0x50, [port, mode])
  | .portReset port => some (0x51, [port])
  | .portStatus => some (0x52, [])
  | .uploadStart => some (0x60, [])
  | .uploadStop => some (0x61, [])
  | .uploadStatus => some (0x62, [])
  | .eventsRead clear => some (0x70, halfBytes clear)
  | .eventsEnable enable => some (0x71, halfBytes enable)
  | .flush => some (0x72, [])
  | .partReset => some (0x73, [])
  | .openScan | .resetPulseEnd | .flushDrainDone | .badCommandBlock _ _ | .commandCollision
  | .responseRead _ _ | .portByte _ _ | .byteGapTimeout _ | .frameTake | .frameMatch
  | .writeQueueWrite | .routeClockTick | .clockCheckpoint | .dwellCompareExpire | .pulseTimerExpire
  | .powerWarning | .powerUp | .recoveryScan | .dockAttach | .dockRemoval | .batchForm | .offerSent
  | .depotByte _ | .depotByteGapTimeout | .verdictTimeout | .powerLoss _ => none

/-- The command block a host writes for a command: code, length, parameters (R172). -/
def Instr.block (i : Instr) : Option (List Byte) :=
  i.codeAndParams.map fun x => x.1 :: natByte x.2.length :: x.2

end Sys2Proof
end

