-- ==== Sys2Proof/Machine/Types.lean ====
section
/-! DEFINITION. The sets of names and the small groups of fields the spec's rules speak of: kinds,
statuses, directions, evidence, marks, states of the blocks, and a record's own fields. -/

namespace Sys2Proof.Machine

/-- The utility kinds (R1). -/
inductive Kind where
  | water | gas | electric | heat
  deriving DecidableEq, Repr

/-- The statuses of a record that is not FAULT (R13). -/
inductive LiveStatus where
  | pending | read | held | flagged | missed
  deriving DecidableEq, Repr

/-- The status of a live record as the slot directory copies it: one of the five, or FAULT (R13). -/
inductive Status where
  | live (l : LiveStatus)
  | fault
  deriving DecidableEq, Repr

/-- The direction of a reading (R3). -/
inductive Direction where
  | forward | rollover | reverse | regress
  deriving DecidableEq, Repr

/-- The eight kinds of evidence (R96). -/
inductive EvidenceKind where
  | magnet | cover | reverse | regress | low | stopped | repower | identity
  deriving DecidableEq, Repr

/-- A record's evidence set: each kind present or not (R5, R96). -/
structure Evidence where
  magnet : Bool
  cover : Bool
  reverse : Bool
  regress : Bool
  low : Bool
  stopped : Bool
  repower : Bool
  identity : Bool
  deriving DecidableEq, Repr

/-- The five marks of a record (R6). -/
structure Marks where
  unconfirmed : Bool
  acknowledged : Bool
  intervalLost : Bool
  extensionLost : Bool
  depotRefused : Bool
  deriving DecidableEq, Repr

/-- A segment number (R113). -/
abbrev Seg := Fin 64

/-- A reading with its five companions: the current reading's group (R3), and the hold candidate,
whose six parts are the same (R4; there the time and port are the hold time and hold port). -/
structure Reading where
  value : Word
  delta : Word
  direction : Direction
  time : Word
  port : Fin 4
  byProbe : Bool
  deriving DecidableEq, Repr

/-- The fields of an endpoint record that is not FAULT (R1 to R8). `firstBlock` is the number of the
first extension block, or FFFFh for the end marker (R10, R175). -/
structure Record where
  serial : Word
  sequence : Half
  segment : Option Seg
  kind : Kind
  dials : Byte
  previous : Word
  previousDay : Half
  rate : Half
  probeOnly : Bool
  powerRef : Option Byte
  status : LiveStatus
  current : Option Reading
  candidate : Option Reading
  evidence : Evidence
  score : Byte
  flagTime : Option Word
  marks : Marks
  hearCount : Half
  lastHeard : Option Word
  bestSignal : Option Byte
  batch : Option Byte
  firstBlock : Half
  deriving DecidableEq, Repr

/-- What a slot's 64 bytes hold: a free slot, a FAULT record with its three fields (R18), or a record. -/
inductive Contents where
  | free
  | fault (serial : Word) (segment : Option Seg)
  | live (r : Record)
  deriving DecidableEq, Repr

/-- The two kinds of extension block (R10). -/
inductive BlockKind where
  | note | interval
  deriving DecidableEq, Repr

/-- An extension block's contents as R175 lays them out: a NOTE block's characters, or an INTERVAL
block's values, with the number of the next block or FFFFh. -/
inductive Block where
  | note (next : Half) (text : List Byte)
  | interval (next : Half) (values : List Half)
  deriving DecidableEq, Repr

/-- The port modes (R45). -/
inductive PortMode where
  | off | radio | probe
  deriving DecidableEq, Repr

/-- The cab indicator's modes (R111). -/
inductive CabMode where
  | off | level | pulse
  deriving DecidableEq, Repr

/-- The route states (R132). -/
inductive RouteState where
  | empty | loading | opened | closed
  deriving DecidableEq, Repr

/-- The route scans during which SCANNING holds between steps (R133): the OPEN scan asked for and the
RECOVERY scan to come. Initialisation is whole within POWER_UP. -/
inductive ScanKind where
  | opening | recovery
  deriving DecidableEq, Repr

/-- How the part last started (R142). -/
inductive StartKind where
  | initialised | recovered | reset
  deriving DecidableEq, Repr

/-- The segment states, DISABLED among them (R113, R116). -/
inductive SegState where
  | disabled | unvisited | active | redrive | complete | abandoned
  deriving DecidableEq, Repr

/-- The classes a segment counts its records by (R13, R113). -/
inductive Class where
  | outstanding | done | faulted
  deriving DecidableEq, Repr

/-- The depot link's states (R148). -/
inductive LinkState where
  | detached | attached | sending | awaiting | faulted
  deriving DecidableEq, Repr

/-- The upload engine's states (R150). -/
inductive EngineState where
  | idle | running | stopping
  deriving DecidableEq, Repr

/-- The ten events (R168). -/
inductive Event where
  | newFlag | segmentDone | dwellOver | portOverflow | recordFault
  | poolEmpty | uploadDone | depotFault | collision | scanDone
  deriving DecidableEq, Repr

/-- Who holds a record cache line (R31). -/
inductive Holder where
  | matching | command | upload | scan
  deriving DecidableEq, Repr

/-- The units the record memory arbiter serves, in its round-robin order (R36). -/
inductive Requester where
  | matching | command | upload
  deriving DecidableEq, Repr

/-- Whether the 460 runs: supplied and working, halted after a power warning (R145), or unsupplied. -/
inductive Power where
  | on | halted | off
  deriving DecidableEq, Repr

/-- The stored fields whose codes leave values that no table names (R175, R173). -/
inductive CodeField where
  | kind | status | direction | segment | routeState | segmentState | yesNo | redrive | planLength
  deriving DecidableEq, Repr

end Sys2Proof.Machine
end

