-- ==== Sys2Proof/Config.lean ====
section
/-! DEFINITION. The sizes the spec fixes, and the free values: what the spec leaves open, as constants
with no body, so that nothing can be proved of the value they take. -/

namespace Sys2Proof.Machine.Config

/-- The slots of the record area (R23). -/
def slots : Nat := 8192

/-- The extension blocks (R23). -/
def blocks : Nat := 4096

/-- The serial index entries (R24). -/
def indexEntries : Nat := 16384

/-- Where the extension area starts (R23). -/
def extensionBase : Nat := 0x80000

/-- Where the index area starts (R23). -/
def indexBase : Nat := 0xA0000

/-- Where the route area starts (R23). -/
def routeBase : Nat := 0xC0000

/-- The bytes of record memory (R23). -/
def memoryBytes : Nat := 0x100000

/-- The places of the write queue (R34). -/
def queuePlaces : Nat := 4

/-- The entries of the recent-match buffer (R29). -/
def bufferEntries : Nat := 16

/-- The entries of the tamper queue (R102). -/
def tamperEntries : Nat := 128

/-- The records of a batch (R152). -/
def batchRecords : Nat := 16

/-- FREE VALUE. The index, among a field's meanings, that a byte read from record memory under a good
check stands for when no table of R173 or R175 names its code, or when it lies outside the range its rule
gives (assumption log, entry 4). -/
opaque undefinedCode : CodeField → Byte → Nat

/-- FREE VALUE. It decides the verdict timer's time left in tenths at the n-th report of it: real time runs
between steps and the table has no row for it, so the timer has counted down by any amount since it was
started or last reported (log, entry 5). -/
opaque timeLeft : Nat → Nat

/-- FREE VALUE. Whether, at the n-th moment of a leave walk or a RECORD_WALK at which the matching engine has a
frame in hand or one to take, the engine has come to its next step: it then makes it before the walk goes on, or where
another unit waits for memory too and is first in turn after that one (R36, R122, R166; log, entry 39). -/
opaque engineFirst : Nat → Bool

/-- FREE VALUE. Whether, at the n-th moment of a leave walk or a RECORD_WALK at which the upload engine is in the
middle of forming a batch, or about to form one, it has come to its next record read: it then makes it before the walk
goes on, or where another unit waits for memory too and is first in turn after that one (R36, R152, R166; log, entry
63). -/
opaque uploadFirst : Nat → Bool

/-- FREE VALUE. Whether, at the n-th moment between two values of PORT_STATUS or ROUTE_STATUS at which a row that can
move them stands at the front of the queue, it comes before the next value is read (R58, R147; log, entry 41). -/
opaque roadFirst : Nat → Bool

/-- FREE VALUE. Whether, at the n-th moment between two record reads of a batch that is being formed at which a row
that can meet it stands at the front of the queue, that row has come: it is then served before the upload engine goes
on, or where both wait for memory and the engine is first in turn after its next read (R36, R152, R159; log, entry
57). -/
opaque commandFirst : Nat → Bool

/-- FREE VALUE. Whether, at the n-th allocation of an interval replacement at which a RECORD_NOTE of another record
stands at the front of the queue, that command allocates first (R12, R38; log, entry 58). -/
opaque noteFirst : Nat → Bool

/-- FREE VALUE. Whether, at the n-th moment of a leave walk at which a tenth of the route clock or the end of the dwell
compare stands at the front of the queue, it comes before the walk goes on (R125; log, entry 59). -/
opaque tenthFirst : Nat → Bool

/-- The steps that the matching engine can make with no further byte arriving: one to finish the frame in hand,
and two for each of the eight frames that the holding buffers have room for (R50, R59). -/
def engineSteps : Nat := 17

end Sys2Proof.Machine.Config
end

