-- ==== Sys2Proof/Machine/State.lean ====
section
/-! DEFINITION. The state of the 460 as plain data, block by block as the scope chapter names them, the
queue of commands that wait, the reasons a step can stop, and the state right after reset. -/

namespace Sys2Proof.Machine

/-- Why a step stops with a fault. -/
inductive Fault where
  /-- Raised by POWER_LOSS alone, when its operand names a byte, block or item that record memory does
  not have (R23, R175). Safe: no supply failure can catch a write to such a place. -/
  | outsideRecordMemory
  deriving DecidableEq, Repr

/-- Why a step is refused. -/
inductive Refusal where
  /-- No meaning yet for the command with this mnemonic. No arm of `exec` answers it. Safe. -/
  | notModelled (mnemonic : String)
  deriving DecidableEq, Repr

/-- Record memory: the bytes that differ from what an unlisted address reads as (`Memory.unlisted`),
addresses strictly rising. -/
abbrev Memory := List Host.Cell

/-- An endpoint frame as the matching engine sees it (R49). `kind` is none for an unknown code, `flags`
the flags byte as the endpoint sent it. -/
structure Frame where
  serial : Word
  kind : Option Kind
  reading : Word
  flags : Byte
  powerCycle : Byte
  intervals : List Half
  signal : Byte
  arrival : Word
  port : Fin 4
  byProbe : Bool
  deriving DecidableEq, Repr

/-- A receiver port (R44). `gathered` is empty while the assembler is HUNTING, and otherwise the bytes
of the partly received frame; `pulsing` says that the reset output is active. -/
structure Port where
  mode : PortMode
  gathered : List Byte
  buffer : List Frame
  received : Half
  damaged : Half
  overflowed : Half
  overflowMark : Bool
  pulsing : Bool
  deriving DecidableEq, Repr

/-- A valid entry of the recent-match buffer (R29). -/
structure MatchEntry where
  serial : Word
  slot : Nat
  reading : Option Word
  arrival : Option Word
  deriving DecidableEq, Repr

/-- The frame in hand with the slot its serial was resolved to (R59, R62). `replacing` is set while a
RECORD_NOTE allocates in the middle of the frame's interval replacement: the record's chain then has the blocks
allocated so far (R12, R38; log, entry 58). -/
structure InHand where
  frame : Frame
  slot : Nat
  replacing : Bool
  deriving DecidableEq, Repr

/-- The matching engine (R59, R60) and the ports' arbiter (R54). `buffer` lists the valid recent-match
entries, most recently used first; the others are invalid. -/
structure Matching where
  inHand : Option InHand
  buffer : List MatchEntry
  served : Fin 4
  taken : Word
  duplicates : Word
  strangers : Word
  faultHits : Word
  drops : Word
  deriving DecidableEq, Repr

/-- What a CLEAN or DIRTY line holds (R31). -/
structure Cached where
  slot : Nat
  dirty : Bool
  contents : Contents
  deriving DecidableEq, Repr

/-- A record cache line (R31): INVALID when `body` is none, else CLEAN or DIRTY. -/
structure Line where
  body : Option Cached
  holder : Option Holder
  deriving DecidableEq, Repr

/-- A write queue entry (R34); its image is the 64 bytes that stand for `contents`. -/
structure Queued where
  slot : Nat
  contents : Contents
  deriving DecidableEq, Repr

/-- The record store controller: the cache lines with their order of use (most recent first), the write
queue (oldest first), the unit the arbiter granted last, and the extension free map as the list of the
blocks in use, rising (R31, R34, R36, R38). -/
structure Store where
  lines : Vector Line 8
  recency : List (Fin 8)
  queue : List Queued
  granted : Requester
  usedBlocks : List Nat
  deriving DecidableEq, Repr

/-- An occupied slot's directory entry (R37). The chain lists the block numbers in order, each with its
kind, which the rules that replace INTERVAL blocks without reading them need (log, entry 7). `batched` says
whether the record carries a batch field (R8), which the rules that refuse a record without reading it need
(log, entry 19). -/
structure DirEntry where
  status : Status
  segment : Option Seg
  chain : List (Nat × BlockKind)
  batched : Bool
  deriving DecidableEq, Repr

/-- The slot directory: the occupied slots, rising; every other slot is free (R37). -/
abbrev Directory := List (Nat × DirEntry)

/-- A tamper queue entry (R102). -/
structure TamperEntry where
  slot : Nat
  serial : Word
  score : Byte
  evidence : Evidence
  flagTime : Word
  unconfirmed : Bool
  deriving DecidableEq, Repr

/-- The tamper queue with its counters, and the cab indicator (R102, R111). -/
structure Tamper where
  entries : List TamperEntry
  evictions : Half
  turnedAway : Half
  cabMode : CabMode
  invert : Bool
  pulseRunning : Bool
  deriving DecidableEq, Repr

/-- A segment entry (R113). -/
structure Segment where
  base : Half
  limit : Half
  dwell : Half
  state : SegState
  visited : Bool
  redrive : Nat
  entryTime : Option Word
  overrun : Bool
  members : Nat
  outstanding : Nat
  done : Nat
  faulted : Nat
  deriving DecidableEq, Repr

/-- The segment unit (R113): the entries, the drive plan from its head, the active segment number, the
dwell compare's target when armed (exact, R125), and the segment a leave walk is in progress on (R118). -/
structure Segments where
  entries : Vector Segment 64
  plan : List Seg
  active : Option Seg
  dwellTarget : Option Nat
  leaving : Option Seg
  deriving DecidableEq, Repr

/-- The route header as taken, defaults included (R134). -/
structure Header where
  identity : Word
  van : Half
  date : Half
  weightMagnet : Byte
  weightCover : Byte
  weightReverse : Byte
  weightRegress : Byte
  weightLow : Byte
  weightStopped : Byte
  weightRepower : Byte
  weightIdentity : Byte
  hold : Byte
  flag : Byte
  backstep : Half
  lowRatio : Byte
  rollover : Half
  stopDays : Byte
  duplicateWindow : Half
  confirmGap : Half
  tolerance : Byte
  redriveGap : Byte
  redriveLimit : Byte
  verdictTimeout : Byte
  deriving DecidableEq, Repr

/-- The route controller (R132 to R147). `checkpointsDue` lists, oldest first, the clock values of the moments of
R137 that the running clock has reached and whose checkpoint is not written yet (log, entry 24). -/
structure Route where
  state : RouteState
  scanning : Option ScanKind
  header : Option Header
  clock : Word
  checkpointsDue : List Word
  lastStart : StartKind
  scanOccupied : Half
  scanFailures : Half
  scanCut : Half
  scanDiscarded : Half
  openFailures : Half
  deriving DecidableEq, Repr

/-- The assessment unit's copy of the route's parameters (R82). -/
structure Assessment where
  date : Half
  backstep : Half
  lowRatio : Byte
  rollover : Half
  stopDays : Byte
  deriving DecidableEq, Repr

/-- A selection key: status class, sequence, slot (R151). -/
structure Key where
  status : LiveStatus
  sequence : Half
  slot : Nat
  deriving DecidableEq, Repr

/-- What the survey keeps of a selectable record: its key and its serial (R152). -/
structure Surveyed where
  key : Key
  serial : Word
  deriving DecidableEq, Repr

/-- How far the forming of a batch has got between two record reads (R152). In the survey: whether it is the second
look, from start (R158), the class in hand, the slot from which the class goes on, and the records kept so far, by
key. In the marking: the key of the last record chosen, the records chosen that are still to be marked, and the
upload records packed so far. -/
inductive Forming where
  | surveying (again : Bool) (status : LiveStatus) (next : Nat) (kept : List Surveyed)
  | marking (last : Option Key) (todo : List Surveyed) (packed : List (List Byte))
  deriving DecidableEq, Repr

/-- The depot link and the upload engine (R148 to R150). `forming` is the batch in the middle of whose forming the
engine was when other rows were served, or none (R152; log, entry 57). `timer` is the running verdict timer's time left, in
tenths, when it was last started or reported (log, entry 5), `rx` the bytes the receiver has gathered (empty
while HUNTING), `tx` the OFFER that the link transmits or has transmitted last, `dockSense` whether dock-sense
is judged active. -/
structure Depot where
  link : LinkState
  dockSense : Bool
  engine : EngineState
  batchNumber : Byte
  outstanding : List (Nat × Word)
  cursor : Option Key
  forming : Option Forming
  failures : Nat
  timer : Option Byte
  sent : Half
  accepted : Half
  refused : Half
  timeouts : Half
  damaged : Half
  stale : Half
  rx : List Byte
  tx : List Byte
  deriving DecidableEq, Repr

/-- What a walk counts: made MISSED, made FLAGGED, check failures (R121). -/
structure WalkCounts where
  missed : Nat
  flagged : Nat
  failures : Nat
  deriving DecidableEq, Repr

/-- A leave walk that a tenth of the route clock or the end of the dwell compare has met (R125; log, entry 59): the
segment being left, the slot from which the walk goes on, the counts so far, and the segment that SEGMENT_ENTER is to
enter when the walk is settled. -/
structure Leaving where
  segment : Seg
  next : Nat
  counts : WalkCounts
  entering : Option Seg
  deriving DecidableEq, Repr

/-- The two reports whose values the command unit reads one after another: that of PORT_STATUS over the four ports
(R58), and that of ROUTE_STATUS over the route's values (R147). -/
inductive Report where
  | ports | route
  deriving DecidableEq, Repr

/-- A report that a row has met between two of its values (R58, R147; log, entry 41): the number of the value to be
read next, and the response data read so far. -/
structure Reporting where
  report : Report
  next : Nat
  data : List Byte
  deriving DecidableEq, Repr

/-- The commands that stay EXECUTING from one step to a later one, with what they wait for: FLUSH for a
number of write queue entries to reach memory (R42), PORT_RESET for a port's pulse to end (R56), SEGMENT_LEAVE and
SEGMENT_ENTER for the rest of a leave walk (R124, R125), PORT_STATUS and ROUTE_STATUS for the values still to be read
(R58, R147). -/
inductive Held where
  | flush (waiting : Nat)
  | portReset (port : Fin 4)
  | leaving (walk : Leaving)
  | reporting (report : Reporting)
  deriving DecidableEq, Repr

/-- The command unit's state (R161). -/
inductive UnitState where
  | idle
  | executing (held : Held)
  | responding
  deriving DecidableEq, Repr

/-- The command unit (R161). `dataOut` is the model's own: what the last selection clocked out, byte by
byte; every byte past the list is 00h, as every byte of a write selection is (R172; log, entry 30). -/
structure Command where
  unit : UnitState
  response : List Byte
  collisions : Half
  dataOut : List Byte
  deriving DecidableEq, Repr

/-- The event unit's two sets, bit n for the n-th event of R173 (R168). -/
structure Events where
  pending : BitVec 10
  enabled : BitVec 10
  deriving DecidableEq, Repr

/-- The whole machine. `pending` is the queue of the commands that wait, first in, first out; `draws` is
the model's own, the number of free values drawn so far. -/
structure State where
  pending : List Instr
  power : Power
  mem : Memory
  ports : Vector Port 4
  matching : Matching
  store : Store
  directory : Directory
  tamper : Tamper
  segments : Segments
  route : Route
  assessment : Option Assessment
  depot : Depot
  command : Command
  events : Events
  draws : Nat
  deriving DecidableEq, Repr

/-- A port after power-up (R44). -/
def Port.reset : Port where
  mode := .off
  gathered := []
  buffer := []
  received := 0
  damaged := 0
  overflowed := 0
  overflowMark := false
  pulsing := false

/-- The matching engine after power-up (R54, R59, R60). -/
def Matching.reset : Matching where
  inHand := none
  buffer := []
  served := 3
  taken := 0
  duplicates := 0
  strangers := 0
  faultHits := 0
  drops := 0

/-- The record store controller after power-up (R36, R38, R43). -/
def Store.reset : Store where
  lines := Vector.replicate 8 ⟨none, none⟩
  recency := [0, 1, 2, 3, 4, 5, 6, 7]
  queue := []
  granted := .upload
  usedBlocks := []

/-- The tamper queue and cab indicator after power-up (R102, R111). -/
def Tamper.reset : Tamper where
  entries := []
  evictions := 0
  turnedAway := 0
  cabMode := .off
  invert := false
  pulseRunning := false

/-- A disabled segment entry (R113). Base 1 and limit 0 stand for the disabled window (log, entry 3). -/
def Segment.reset : Segment where
  base := 1
  limit := 0
  dwell := 0
  state := .disabled
  visited := false
  redrive := 0
  entryTime := none
  overrun := false
  members := 0
  outstanding := 0
  done := 0
  faulted := 0

/-- The segment unit after power-up without a valid signature, and on a return to EMPTY (R113). -/
def Segments.reset : Segments where
  entries := Vector.replicate 64 Segment.reset
  plan := []
  active := none
  dwellTarget := none
  leaving := none

/-- The route controller after power-up without a valid signature (R132, R136, R138, R142, R144). -/
def Route.reset : Route where
  state := .empty
  scanning := none
  header := none
  clock := 0
  checkpointsDue := []
  lastStart := .initialised
  scanOccupied := 0
  scanFailures := 0
  scanCut := 0
  scanDiscarded := 0
  openFailures := 0

/-- The depot link and upload engine after power-up with the van not docked (R148, R150). -/
def Depot.reset : Depot where
  link := .detached
  dockSense := false
  engine := .idle
  batchNumber := 0
  outstanding := []
  cursor := none
  forming := none
  failures := 0
  timer := none
  sent := 0
  accepted := 0
  refused := 0
  timeouts := 0
  damaged := 0
  stale := 0
  rx := []
  tx := []

/-- The command unit after power-up (R161). -/
def Command.reset : Command where
  unit := .idle
  response := []
  collisions := 0
  dataOut := []

/-- The event unit after a power-up whose initialisation has ended: SCAN_DONE is pending (R142, R168). -/
def Events.reset : Events where
  pending := 0x200
  enabled := 0

/-- The machine right after reset: a power-up that found no valid route signature and has initialised
record memory (R142), so that memory lists nothing, with the van not docked and no command waiting. -/
def State.reset : State where
  pending := []
  power := .on
  mem := []
  ports := Vector.replicate 4 Port.reset
  matching := Matching.reset
  store := Store.reset
  directory := []
  tamper := Tamper.reset
  segments := Segments.reset
  route := Route.reset
  assessment := none
  depot := Depot.reset
  command := Command.reset
  events := Events.reset
  draws := 0

/-! One named update per block, so that what an operation leaves alone is a lemma (Laws/State.lean). -/

/-- `s` with another command queue. -/
def State.withPending (s : State) (x : List Instr) : State := { s with pending := x }
/-- `s` with another power state. -/
def State.withPower (s : State) (x : Power) : State := { s with power := x }
/-- `s` with other record memory. -/
def State.withMem (s : State) (x : Memory) : State := { s with mem := x }
/-- `s` with other ports. -/
def State.withPorts (s : State) (x : Vector Port 4) : State := { s with ports := x }
/-- `s` with another matching engine. -/
def State.withMatching (s : State) (x : Matching) : State := { s with matching := x }
/-- `s` with another record store controller. -/
def State.withStore (s : State) (x : Store) : State := { s with store := x }
/-- `s` with another slot directory. -/
def State.withDirectory (s : State) (x : Directory) : State := { s with directory := x }
/-- `s` with another tamper queue and cab indicator. -/
def State.withTamper (s : State) (x : Tamper) : State := { s with tamper := x }
/-- `s` with another segment unit. -/
def State.withSegments (s : State) (x : Segments) : State := { s with segments := x }
/-- `s` with another route controller. -/
def State.withRoute (s : State) (x : Route) : State := { s with route := x }
/-- `s` with another assessment copy. -/
def State.withAssessment (s : State) (x : Option Assessment) : State := { s with assessment := x }
/-- `s` with another depot link and upload engine. -/
def State.withDepot (s : State) (x : Depot) : State := { s with depot := x }
/-- `s` with another command unit. -/
def State.withCommand (s : State) (x : Command) : State := { s with command := x }
/-- `s` with another event unit. -/
def State.withEvents (s : State) (x : Events) : State := { s with events := x }
/-- `s` with another count of free values drawn. -/
def State.withDraws (s : State) (x : Nat) : State := { s with draws := x }

end Sys2Proof.Machine
end

