-- ==== Sys2Proof/Machine/Layout.lean ====
section
/-! DEFINITION. The codes of R173 and the layouts of record memory (R175): base records, extension
blocks, index entries and route-area items, each as bytes and back. -/

namespace Sys2Proof.Machine

/-! ### Codes shared by the layouts -/

/-- Utility kind codes. -/
def Kind.code : Kind → Byte
  | .water => 1 | .gas => 2 | .electric => 3 | .heat => 4

/-- The kind a code names, or none for an unknown kind. -/
def Kind.ofCode (b : Byte) : Option Kind :=
  if b = 1 then some .water else if b = 2 then some .gas
  else if b = 3 then some .electric else if b = 4 then some .heat else none

/-- Status codes. -/
def LiveStatus.code : LiveStatus → Byte
  | .pending => 1 | .read => 2 | .held => 3 | .flagged => 4 | .missed => 5

/-- Status codes, FAULT among them. -/
def Status.code : Status → Byte
  | .live l => l.code
  | .fault => 6

/-- Direction codes. -/
def Direction.code : Direction → Byte
  | .forward => 1 | .rollover => 2 | .reverse => 3 | .regress => 4

/-- The direction a four-bit code names, or none. -/
def Direction.ofCode (b : Byte) : Option Direction :=
  if b = 1 then some .forward else if b = 2 then some .rollover
  else if b = 3 then some .reverse else if b = 4 then some .regress else none

/-- Eight yes-or-no values as a byte, the first at bit 0. -/
def packBits (b0 b1 b2 b3 b4 b5 b6 b7 : Bool) : Byte :=
  (BitVec.ofBool b7 ++ BitVec.ofBool b6 ++ BitVec.ofBool b5 ++ BitVec.ofBool b4 ++
    BitVec.ofBool b3 ++ BitVec.ofBool b2 ++ BitVec.ofBool b1 ++ BitVec.ofBool b0 : BitVec 8)

/-- An evidence set as its byte. -/
def Evidence.byte (e : Evidence) : Byte :=
  packBits e.magnet e.cover e.reverse e.regress e.low e.stopped e.repower e.identity

/-- The evidence set a byte stands for. -/
def Evidence.ofByte (b : Byte) : Evidence where
  magnet := b.getLsbD 0
  cover := b.getLsbD 1
  reverse := b.getLsbD 2
  regress := b.getLsbD 3
  low := b.getLsbD 4
  stopped := b.getLsbD 5
  repower := b.getLsbD 6
  identity := b.getLsbD 7

/-- The marks as their byte; bits 5 to 7 are 0. -/
def Marks.byte (m : Marks) : Byte :=
  packBits m.unconfirmed m.acknowledged m.intervalLost m.extensionLost m.depotRefused false false false

/-- The marks a byte stands for. -/
def Marks.ofByte (b : Byte) : Marks where
  unconfirmed := b.getLsbD 0
  acknowledged := b.getLsbD 1
  intervalLost := b.getLsbD 2
  extensionLost := b.getLsbD 3
  depotRefused := b.getLsbD 4

/-- A segment number, or FFh for NONE. -/
def segByte : Option Seg → Byte
  | some n => natByte n.val
  | none => 0xFF

/-- Any number as a segment number or NONE: 0 to 63, then NONE for every other residue of 65. -/
def segOfNat (n : Nat) : Option Seg :=
  if h : n % 65 < 64 then some ⟨n % 65, h⟩ else none

/-- The segment a stored byte names; a code of no table is a free value. -/
def segOfByte (b : Byte) : Option Seg :=
  if h : b.toNat < 64 then some ⟨b.toNat, h⟩
  else if b = 0xFF then none
  else segOfNat (Config.undefinedCode .segment b)

/-- Route state codes. -/
def RouteState.code : RouteState → Byte
  | .empty => 1 | .loading => 2 | .opened => 3 | .closed => 4

/-- The route state a stored byte names; a code of no table is a free value. -/
def RouteState.ofByte (b : Byte) : RouteState :=
  let ofIndex (n : Nat) : RouteState :=
    if n = 1 then .empty else if n = 2 then .loading else if n = 3 then .opened else .closed
  if 1 ≤ b.toNat ∧ b.toNat ≤ 4 then ofIndex b.toNat
  else ofIndex (Config.undefinedCode .routeState b % 4 + 1)

/-- Segment state codes. -/
def SegState.code : SegState → Byte
  | .disabled => 0 | .unvisited => 1 | .active => 2 | .redrive => 3 | .complete => 4 | .abandoned => 5

/-- The segment state a stored byte names; a code of no table is a free value. -/
def SegState.ofByte (b : Byte) : SegState :=
  let ofIndex (n : Nat) : SegState :=
    if n = 0 then .disabled else if n = 1 then .unvisited else if n = 2 then .active
    else if n = 3 then .redrive else if n = 4 then .complete else .abandoned
  if b.toNat ≤ 5 then ofIndex b.toNat
  else ofIndex (Config.undefinedCode .segmentState b % 6)

/-- The kind a stored byte names; a code of no table is a free value. -/
def Kind.ofStored (b : Byte) : Kind :=
  (Kind.ofCode b).getD
    ((Kind.ofCode (natByte (Config.undefinedCode .kind b % 4 + 1))).getD .water)

/-- The direction a stored four-bit code names; a code of no table is a free value. -/
def Direction.ofStored (b : Byte) : Direction :=
  (Direction.ofCode b).getD
    ((Direction.ofCode (natByte (Config.undefinedCode .direction b % 4 + 1))).getD .forward)

/-- The status of a record that is not FAULT a stored byte names; a code of no table is a free value. -/
def LiveStatus.ofStored (b : Byte) : LiveStatus :=
  let ofIndex (n : Nat) : LiveStatus :=
    if n = 1 then .pending else if n = 2 then .read else if n = 3 then .held
    else if n = 4 then .flagged else .missed
  if 1 ≤ b.toNat ∧ b.toNat ≤ 5 then ofIndex b.toNat
  else ofIndex (Config.undefinedCode .status b % 5 + 1)

/-- The end marker of a chain (R10, R175). -/
def endMarker : Half := 0xFFFF

/-- A value's bytes when present, as many zeros when absent (R175). -/
def optByte : Option Byte → Byte
  | some b => b
  | none => 0

/-- A clock value when present, 0 when absent (R175). -/
def optWord : Option Word → Word
  | some w => w
  | none => 0

/-- The value of a reading group, 0 when absent (R175). -/
def optValue (r : Option Reading) : Word := optWord (r.map (·.value))
/-- The delta of a reading group, 0 when absent (R175). -/
def optDelta (r : Option Reading) : Word := optWord (r.map (·.delta))
/-- The time of a reading group, 0 when absent (R175). -/
def optTime (r : Option Reading) : Word := optWord (r.map (·.time))

/-- The direction code of a reading group, 0 when absent (R175). -/
def optDirection : Option Reading → Byte
  | some r => r.direction.code
  | none => 0

/-- The port number and by-probe bit of a reading group in three bits, 0 when absent (R175). -/
def optPort : Option Reading → Byte
  | some r => natByte r.port.val ||| (boolByte r.byProbe <<< 2)
  | none => 0

/-! ### Base records -/

/-- The first 63 bytes of a record's base record (R175). -/
def Record.body (r : Record) : List Byte :=
  wordBytes r.serial ++ halfBytes r.sequence ++
  [segByte r.segment, r.kind.code, r.dials, r.status.code] ++
  wordBytes r.previous ++ halfBytes r.previousDay ++ halfBytes r.rate ++
  [packBits r.powerRef.isSome r.current.isSome r.candidate.isSome r.flagTime.isSome
      r.lastHeard.isSome r.bestSignal.isSome r.batch.isSome r.probeOnly,
    optByte r.powerRef] ++
  wordBytes (optValue r.current) ++ wordBytes (optDelta r.current) ++ wordBytes (optTime r.current) ++
  wordBytes (optValue r.candidate) ++ wordBytes (optDelta r.candidate) ++
  wordBytes (optTime r.candidate) ++
  [optDirection r.current ||| (optDirection r.candidate <<< 4),
    optPort r.current ||| (optPort r.candidate <<< 3),
    r.evidence.byte, r.score, r.marks.byte] ++
  wordBytes (optWord r.flagTime) ++ halfBytes r.hearCount ++ wordBytes (optWord r.lastHeard) ++
  [optByte r.bestSignal, optByte r.batch] ++ halfBytes r.firstBlock

/-- The first 63 bytes of what a slot holds: a free slot is all zeros; a FAULT record has its serial,
its segment, status 06h and the end marker (R175). -/
def Contents.body : Contents → List Byte
  | .free => zeros 63
  | .fault serial segment =>
      wordBytes serial ++ [0, 0, segByte segment, 0, 0, 6] ++ zeros 51 ++ halfBytes endMarker
  | .live r => r.body

/-- The 64-byte image of what a slot holds, its check byte last (R17, R175). -/
def Contents.image (c : Contents) : List Byte := withCheck c.body

/-- A reading group as stored, when its presence bit is set. -/
def readingAt (present : Bool) (value delta time : Word) (direction port : Byte) : Option Reading :=
  if present then
    some ⟨value, delta, Direction.ofStored (direction &&& 0x0F), time,
      Fin.ofNat 4 (port &&& 3).toNat, port.getLsbD 2⟩
  else none

/-- A byte when its presence bit is set. -/
def whenPresent {α : Type} (present : Bool) (x : α) : Option α := if present then some x else none

/-- The record a base record's bytes stand for (R175). A number outside its field's range (dials not 4 to 9,
a reading not below the modulus) is taken as it stands (DESIGN CHOICE: log, entry 45). -/
def Record.ofBody (bs : List Byte) : Record where
  serial := wordAt bs 0
  sequence := halfAt bs 4
  segment := segOfByte (byteAt bs 6)
  kind := Kind.ofStored (byteAt bs 7)
  dials := byteAt bs 8
  previous := wordAt bs 10
  previousDay := halfAt bs 14
  rate := halfAt bs 16
  probeOnly := (byteAt bs 18).getLsbD 7
  powerRef := whenPresent ((byteAt bs 18).getLsbD 0) (byteAt bs 19)
  status := LiveStatus.ofStored (byteAt bs 9)
  current := readingAt ((byteAt bs 18).getLsbD 1) (wordAt bs 20) (wordAt bs 24) (wordAt bs 28)
    (byteAt bs 44) (byteAt bs 45)
  candidate := readingAt ((byteAt bs 18).getLsbD 2) (wordAt bs 32) (wordAt bs 36) (wordAt bs 40)
    (byteAt bs 44 >>> 4) (byteAt bs 45 >>> 3)
  evidence := Evidence.ofByte (byteAt bs 46)
  score := byteAt bs 47
  flagTime := whenPresent ((byteAt bs 18).getLsbD 3) (wordAt bs 49)
  marks := Marks.ofByte (byteAt bs 48)
  hearCount := halfAt bs 53
  lastHeard := whenPresent ((byteAt bs 18).getLsbD 4) (wordAt bs 55)
  bestSignal := whenPresent ((byteAt bs 18).getLsbD 5) (byteAt bs 59)
  batch := whenPresent ((byteAt bs 18).getLsbD 6) (byteAt bs 60)
  firstBlock := halfAt bs 61

/-- What a slot's bytes stand for: free when the serial field is 0 (R23), else the record (R175). -/
def Contents.ofBytes (bs : List Byte) : Contents :=
  if wordAt bs 0 = 0 then .free
  else if byteAt bs 9 = 6 then .fault (wordAt bs 0) (segOfByte (byteAt bs 6))
  else .live (Record.ofBody bs)

/-! ### Extension blocks -/

/-- The number of the next block. -/
def Block.next : Block → Half
  | .note next _ => next
  | .interval next _ => next

/-- The kind of a block. -/
def Block.kind : Block → BlockKind
  | .note _ _ => .note
  | .interval _ _ => .interval

/-- The first 31 bytes of an extension block (R175). -/
def Block.body : Block → List Byte
  | .note next text =>
      [1] ++ halfBytes next ++ [natByte text.length] ++ (text ++ zeros 24).take 24 ++ zeros 3
  | .interval next values =>
      [2] ++ halfBytes next ++ [natByte values.length] ++
        (values.flatMap halfBytes ++ zeros 24).take 24 ++ zeros 3

/-- The 32-byte image of an extension block, its check byte last (R17, R175). -/
def Block.image (b : Block) : List Byte := withCheck b.body

/-- The first `n` two-byte values from an offset. -/
def halvesAt (bs : List Byte) (i : Nat) : Nat → List Half
  | 0 => []
  | n + 1 => halfAt bs i :: halvesAt bs (i + 2) n

/-- Whether a next-block number is one the layout allows: 0 to 4,095, or the end marker (R175). -/
def nextAllowed (n : Half) : Bool := n.toNat < Config.blocks || n == endMarker

/-- The block 32 bytes stand for, or none when it is bad by itself: its check fails, or its kind code,
count or next-block number is not one the layout allows (R19, R175). -/
def Block.ofBytes (bs : List Byte) : Option Block :=
  let next := halfAt bs 1
  let count := (byteAt bs 3).toNat
  if !checkHolds 32 bs || !nextAllowed next then none
  else if byteAt bs 0 = 1 ∧ 1 ≤ count ∧ count ≤ 24 then some (.note next ((bs.drop 4).take count))
  else if byteAt bs 0 = 2 ∧ 1 ≤ count ∧ count ≤ 6 then some (.interval next (halvesAt bs 4 count))
  else none

/-! ### Route-area items -/

/-- The 32 header values in ROUTE_HEADER order (R173). -/
def Header.bytes (h : Header) : List Byte :=
  wordBytes h.identity ++ halfBytes h.van ++ halfBytes h.date ++
  [h.weightMagnet, h.weightCover, h.weightReverse, h.weightRegress, h.weightLow, h.weightStopped,
    h.weightRepower, h.weightIdentity, h.hold, h.flag] ++
  halfBytes h.backstep ++ [h.lowRatio] ++ halfBytes h.rollover ++ [h.stopDays] ++
  halfBytes h.duplicateWindow ++ halfBytes h.confirmGap ++
  [h.tolerance, h.redriveGap, h.redriveLimit, h.verdictTimeout]

/-- The header 32 bytes stand for. A value outside R134's range is taken as it stands (DESIGN CHOICE: log,
entry 45). -/
def Header.ofBytes (bs : List Byte) : Header where
  identity := wordAt bs 0
  van := halfAt bs 4
  date := halfAt bs 6
  weightMagnet := byteAt bs 8
  weightCover := byteAt bs 9
  weightReverse := byteAt bs 10
  weightRegress := byteAt bs 11
  weightLow := byteAt bs 12
  weightStopped := byteAt bs 13
  weightRepower := byteAt bs 14
  weightIdentity := byteAt bs 15
  hold := byteAt bs 16
  flag := byteAt bs 17
  backstep := halfAt bs 18
  lowRatio := byteAt bs 20
  rollover := halfAt bs 21
  stopDays := byteAt bs 23
  duplicateWindow := halfAt bs 24
  confirmGap := halfAt bs 26
  tolerance := byteAt bs 28
  redriveGap := byteAt bs 29
  redriveLimit := byteAt bs 30
  verdictTimeout := byteAt bs 31

/-- The header values, 0 in every byte when no header is present (R173, R175). -/
def headerBytes : Option Header → List Byte
  | some h => h.bytes
  | none => zeros 32

/-- The fixed pattern of the validity signature (R175). -/
def signaturePattern : List Byte := [0x5A, 0xA5, 0x34, 0x36, 0x30, 0x52, 0x41, 0x0F]

/-- The contents of the header item (R175). -/
def headerItem (h : Option Header) : List Byte := boolByte h.isSome :: headerBytes h

/-- The contents of the state block (R175). -/
def stateItem (state : RouteState) (active : Option Seg) : List Byte := [state.code, segByte active]

/-- The contents of the drive plan item (R175). -/
def planItem (plan : List Seg) : List Byte :=
  natByte plan.length :: ((plan.map fun n => natByte n.val) ++ zeros 64).take 64

/-- The contents of a segment's item (R175). -/
def segmentItem (e : Segment) : List Byte :=
  halfBytes e.base ++ halfBytes e.limit ++ halfBytes e.dwell ++
  [e.state.code, boolByte e.visited, natByte e.redrive]

/-- How many bytes item i's contents take (R175). -/
def itemSize (i : Nat) : Nat :=
  if i = 0 then 8 else if i = 1 then 33 else if i = 2 then 2 else if i = 3 then 65
  else if i = 4 then 4 else 9

/-- The items of the route area: five, and one for each segment (R175). -/
def itemCount : Nat := 69

/-- What initialisation writes into item i (R142). -/
def initialItem (i : Nat) : List Byte :=
  if i = 0 then signaturePattern else if i = 1 then headerItem none
  else if i = 2 then stateItem .empty none else if i = 3 then planItem []
  else if i = 4 then wordBytes 0 else segmentItem Segment.reset

/-- A yes-or-no byte as stored; a code of no table is a free value. -/
def yesNoOfStored (b : Byte) : Bool :=
  if b = 0 then false else if b = 1 then true else Config.undefinedCode .yesNo b % 2 == 1

/-- The header an item's contents hold (R175). -/
def headerOfItem (bs : List Byte) : Option Header :=
  if yesNoOfStored (byteAt bs 0) then some (Header.ofBytes (bs.drop 1)) else none

/-- A list's members, each at its first place only. -/
def firstPlaces : List Seg → List Seg
  | [] => []
  | n :: ns => n :: (firstPlaces ns).filter fun k => k != n

/-- The drive plan an item's contents hold; a length above 64 is a free value, and a place that names no
segment, or one that an earlier place names, is passed over (R126, R175; log, entry 4). -/
def planOfItem (bs : List Byte) : List Seg :=
  let length := (byteAt bs 0).toNat
  let length := if length ≤ 64 then length else Config.undefinedCode .planLength (byteAt bs 0) % 65
  firstPlaces (((bs.drop 1).take length).filterMap segOfByte)

/-- The segment entry an item's contents hold, its entry time absent, its overrun mark clear and its
counters 0 (R113, R175); a redrive count above 7 is a free value. -/
def segmentOfItem (bs : List Byte) : Segment where
  base := halfAt bs 0
  limit := halfAt bs 2
  dwell := halfAt bs 4
  state := SegState.ofByte (byteAt bs 6)
  visited := yesNoOfStored (byteAt bs 7)
  redrive :=
    if (byteAt bs 8).toNat ≤ 7 then (byteAt bs 8).toNat
    else Config.undefinedCode .redrive (byteAt bs 8) % 8
  entryTime := none
  overrun := false
  members := 0
  outstanding := 0
  done := 0
  faulted := 0

/-- A copy's bytes: its generation, its contents and its check byte (R175). -/
def copyImage (generation : Byte) (contents : List Byte) : List Byte :=
  withCheck (generation :: contents)

end Sys2Proof.Machine
end

