-- ==== Sys2Proof/Machine/Flags.lean ====
section
/-! DEFINITION. The flags the block computes: events and ATTENTION, the output lines, evidence and its
score, the endpoint's own flags. -/

namespace Sys2Proof.Machine

/-! ### Events (R168, R173) -/

/-- The bit of an event in an event set. -/
def Event.bit : Event → Nat
  | .newFlag => 0 | .segmentDone => 1 | .dwellOver => 2 | .portOverflow => 3 | .recordFault => 4
  | .poolEmpty => 5 | .uploadDone => 6 | .depotFault => 7 | .collision => 8 | .scanDone => 9

/-- The event set that holds one event. -/
def Event.mask (e : Event) : BitVec 10 := 1#10 <<< e.bit

/-- An event joins the pending set, whether or not it is enabled (R168). -/
def State.raise (e : Event) (s : State) : State :=
  s.withEvents { s.events with pending := s.events.pending ||| e.mask }

/-- An event set as two bytes; bits 10 to 15 are 0 (R173). -/
def eventBytes (set : BitVec 10) : List Byte := halfBytes (set.setWidth 16)

/-- ATTENTION is active while some event is pending and enabled, and inactive after a power warning
(R168). -/
def State.attention (s : State) : Bool :=
  s.power == .on && s.events.pending &&& s.events.enabled != 0

/-! ### Output lines -/

/-- READY is active exactly while the command unit is RESPONDING (R161). -/
def State.ready (s : State) : Bool := s.command.unit == .responding

/-- Whether the cab output is active (R111). -/
def State.cabActive (s : State) : Bool :=
  s.power == .on &&
  match s.tamper.cabMode with
  | .off => false
  | .level => !s.tamper.entries.isEmpty
  | .pulse => s.tamper.pulseRunning

/-- Whether the cab pin is driven high: high while active, the levels swapped with invert on (R111). -/
def State.cabPin (s : State) : Bool := s.cabActive != s.tamper.invert

/-! ### Evidence and score (R96, R97) -/

/-- The empty evidence set. -/
def Evidence.empty : Evidence := ⟨false, false, false, false, false, false, false, false⟩

/-- A kind joins an evidence set; one already present leaves it as it was (R96). -/
def Evidence.add (e : Evidence) : EvidenceKind → Evidence
  | .magnet => { e with magnet := true }
  | .cover => { e with cover := true }
  | .reverse => { e with reverse := true }
  | .regress => { e with regress := true }
  | .low => { e with low := true }
  | .stopped => { e with stopped := true }
  | .repower => { e with repower := true }
  | .identity => { e with identity := true }

/-- A kind joins an evidence set when its cause is there. -/
def Evidence.addIf (e : Evidence) (cause : Bool) (k : EvidenceKind) : Evidence :=
  if cause then e.add k else e

/-- A weight counts when its kind is present. -/
def weighed (present : Bool) (weight : Byte) : Nat := if present then weight.toNat else 0

/-- The sum of the route weights of the kinds in an evidence set. -/
def Header.weightSum (h : Header) (e : Evidence) : Nat :=
  weighed e.magnet h.weightMagnet + weighed e.cover h.weightCover +
  weighed e.reverse h.weightReverse + weighed e.regress h.weightRegress +
  weighed e.low h.weightLow + weighed e.stopped h.weightStopped +
  weighed e.repower h.weightRepower + weighed e.identity h.weightIdentity

/-- The score of an evidence set: the lesser of 255 and the sum of the weights (R97). -/
def Header.score (h : Header) (e : Evidence) : Byte := natByte (min 255 (h.weightSum e))

/-! ### The endpoint's own flags (R171) -/

/-- The MAGNET flag of a frame. -/
def Frame.magnet (f : Frame) : Bool := f.flags.getLsbD 0
/-- The COVER flag of a frame. -/
def Frame.cover (f : Frame) : Bool := f.flags.getLsbD 1
/-- The LEAK flag of a frame; it has no effect on any record (R49). -/
def Frame.leak (f : Frame) : Bool := f.flags.getLsbD 2
/-- The LOW BATTERY flag of a frame; it has no effect on any record (R49). -/
def Frame.lowBattery (f : Frame) : Bool := f.flags.getLsbD 3
/-- The REVERSE-FLOW-SEEN flag of a frame; it has no effect on any record (R49). -/
def Frame.reverseFlowSeen (f : Frame) : Bool := f.flags.getLsbD 4

/-- No mark set. -/
def Marks.clear : Marks := ⟨false, false, false, false, false⟩

end Sys2Proof.Machine
end

