-- ==== Sys2Proof/Machine/Memory.lean ====
section
/-! DEFINITION. Record memory, 1 MiB of bytes (R23), as the list of the bytes that differ from what
initialisation leaves (R142), and the route area's items in their two copies (R135). -/

namespace Sys2Proof.Machine

/-- What an address of record memory reads as when nothing lists it: what initialisation writes there
(R142): 0 in every slot and index entry, each route-area item in both copies with generations 0 and 1.
The extension area and the unused part of the route area, which initialisation leaves, read 0 (log,
entry 2). -/
def Memory.unlisted (a : Nat) : Byte :=
  if a < Config.routeBase then 0
  else
    let item := (a - Config.routeBase) / 512
    let offset := (a - Config.routeBase) % 512
    if itemCount ≤ item then 0
    else byteAt (copyImage (natByte (offset / 256)) (initialItem item)) (offset % 256)

/-- The byte at an address. -/
def Memory.read : Memory → Nat → Byte
  | [], a => Memory.unlisted a
  | (k, v) :: m, a => if k = a then v else if a < k then Memory.unlisted a else Memory.read m a

/-- Memory with one byte written, in canonical form. -/
def Memory.write : Memory → Nat → Byte → Memory
  | [], a, b => if b = Memory.unlisted a then [] else [(a, b)]
  | (k, v) :: m, a, b =>
    if k = a then (if b = Memory.unlisted a then m else (a, b) :: m)
    else if a < k then (if b = Memory.unlisted a then (k, v) :: m else (a, b) :: (k, v) :: m)
    else (k, v) :: Memory.write m a b

/-- The canonical form: addresses strictly rising, no byte listed that reads the same unlisted. -/
def Memory.wf : Memory → Bool
  | [] => true
  | [(k, v)] => v != Memory.unlisted k
  | (k, v) :: (k', v') :: m =>
    v != Memory.unlisted k && decide (k < k') && Memory.wf ((k', v') :: m)

/-- The `n` bytes from an address. -/
def Memory.readBytes (m : Memory) (a : Nat) : Nat → List Byte
  | 0 => []
  | n + 1 => Memory.read m a :: Memory.readBytes m (a + 1) n

/-- Memory with bytes written from an address on. -/
def Memory.writeBytes : Memory → Nat → List Byte → Memory
  | m, _, [] => m
  | m, a, b :: bs => Memory.writeBytes (Memory.write m a b) (a + 1) bs

/-- Memory with 0 in every byte from `lo` up to but not including `hi`, a range where 0 is what an
unlisted address reads as. -/
def Memory.clearRange (m : Memory) (lo hi : Nat) : Memory :=
  m.filter fun c => decide (c.1 < lo) || decide (hi ≤ c.1)

/-! ### Slots and blocks -/

/-- Where slot n stands (R23). -/
def slotAddress (n : Nat) : Nat := n * 64

/-- Where extension block n stands (R23). -/
def blockAddress (n : Nat) : Nat := Config.extensionBase + n * 32

/-- Slot n's 64 bytes. -/
def Memory.slotBytes (m : Memory) (n : Nat) : List Byte := m.readBytes (slotAddress n) 64

/-- Block n's 32 bytes. -/
def Memory.blockBytes (m : Memory) (n : Nat) : List Byte := m.readBytes (blockAddress n) 32

/-- The record store controller's write of a base record: its check byte is computed as it writes (R17). -/
def Memory.writeSlot (m : Memory) (n : Nat) (c : Contents) : Memory :=
  m.writeBytes (slotAddress n) c.image

/-- The direct write of an extension block with a fresh check byte (R17, R35). -/
def Memory.writeBlock (m : Memory) (n : Nat) (b : Block) : Memory :=
  m.writeBytes (blockAddress n) b.image

/-- The rewriting of a block's link: its other bytes as they stand, the next-block number new, the check
byte fresh (R19; log, entry 8). -/
def Memory.relinkBlock (m : Memory) (n : Nat) (next : Half) : Memory :=
  let bs := m.blockBytes n
  m.writeBytes (blockAddress n) (withCheck ((bs.take 1 ++ halfBytes next ++ bs.drop 3).take 31))

/-! ### The route area's two copies (R135) -/

/-- Where copy A (false) or B (true) of item i stands (R175). -/
def copyAddress (i : Nat) (b : Bool) : Nat :=
  Config.routeBase + i * 512 + (if b then 256 else 0)

/-- A copy's bytes: generation, contents, check byte. -/
def Memory.copyBytes (m : Memory) (i : Nat) (b : Bool) : List Byte :=
  m.readBytes (copyAddress i b) (itemSize i + 2)

/-- A copy is good when its check byte holds. -/
def Memory.copyGood (m : Memory) (i : Nat) (b : Bool) : Bool :=
  checkHolds (itemSize i + 2) (m.copyBytes i b)

/-- The newer good copy of an item, or none when neither is good: with both good, the one whose
generation is one above the other's, modulo 256, and copy A when they are not one apart. -/
def Memory.newerCopy (m : Memory) (i : Nat) : Option Bool :=
  let genA := byteAt (m.copyBytes i false) 0
  let genB := byteAt (m.copyBytes i true) 0
  match m.copyGood i false, m.copyGood i true with
  | true, true => some (genB == genA + 1)
  | true, false => some false
  | false, true => some true
  | false, false => none

/-- An item's contents as read back, from its newer good copy. -/
def Memory.readItem (m : Memory) (i : Nat) : Option (List Byte) :=
  (m.newerCopy i).map fun b => ((m.copyBytes i b).drop 1).take (itemSize i)

/-- The copy an item's next write goes to, with the generation it carries: the copy that does not hold
the newest generation, one above it (R135). With no good copy, copy A counts as the newest. -/
def Memory.nextCopy (m : Memory) (i : Nat) : Bool × Byte :=
  let newest := (m.newerCopy i).getD false
  (!newest, byteAt (m.copyBytes i newest) 0 + 1)

/-- One write of an item (R135). -/
def Memory.writeItem (m : Memory) (i : Nat) (contents : List Byte) : Memory :=
  m.writeBytes (copyAddress i (m.nextCopy i).1) (copyImage (m.nextCopy i).2 contents)

/-- The write of an item into both copies, so that the second copy written is the newer (R135). -/
def Memory.writeItemTwice (m : Memory) (i : Nat) (contents : List Byte) : Memory :=
  (m.writeItem i contents).writeItem i contents

/-- Memory after initialisation (R142): every slot, index entry and route-area item as an unlisted
address reads; the extension area and the unused route area are left. -/
def Memory.initialise (m : Memory) : Memory :=
  ((m.clearRange 0 Config.extensionBase).clearRange Config.indexBase Config.routeBase).filter fun c =>
    decide (c.1 < Config.routeBase) ||
      let item := (c.1 - Config.routeBase) / 512
      let offset := (c.1 - Config.routeBase) % 256
      decide (itemCount ≤ item) || decide (itemSize item + 2 ≤ offset)

/-- A memory that reads 0 at every address: what initialisation writes other than 0 is listed as 0. -/
def Memory.allZero : Memory :=
  ((List.range itemCount).flatMap fun i =>
    [false, true].flatMap fun b =>
      (List.range (itemSize i + 2)).map fun k => ((copyAddress i b + k, (0 : Byte)) : Host.Cell)).filter
    fun c => c.2 != Memory.unlisted c.1

end Sys2Proof.Machine
end

