-- ==== Sys2Proof/Machine/Index.lean ====
section
/-! DEFINITION. The serial index in record memory: home buckets, lookup, insertion, deletion, clear
(R24 to R28). -/

namespace Sys2Proof.Machine

/-- A serial's home bucket (R24). -/
def homeBucket (serial : Word) : Nat := (serial.toNat * 2718281829 % 4294967296) / 262144

/-- One entry forward, from entry 16,383 to entry 0 (R24). -/
def nextEntry (n : Nat) : Nat := (n + 1) % Config.indexEntries

/-- Where entry n stands (R23). -/
def entryAddress (n : Nat) : Nat := Config.indexBase + n * 8

/-- The serial entry n holds; 0 says that it is EMPTY (R24, R175). -/
def Memory.entrySerial (m : Memory) (n : Nat) : Word := wordAt (m.readBytes (entryAddress n) 4) 0

/-- The slot a LIVE entry n names. -/
def Memory.entrySlot (m : Memory) (n : Nat) : Nat :=
  (halfAt (m.readBytes (entryAddress n + 4) 2) 0).toNat

/-- Entry n written LIVE, or EMPTY with serial 0 and slot 0 (R175). -/
def Memory.writeEntry (m : Memory) (n : Nat) (serial : Word) (slot : Nat) : Memory :=
  m.writeBytes (entryAddress n) (wordBytes serial ++ natHalf slot ++ [0, 0])

/-- The entry a search for a serial ends on: the LIVE entry that holds it, or none when an EMPTY entry is
read first (R25). -/
def Memory.findEntry (m : Memory) (serial : Word) : Nat → Nat → Option Nat
  | 0, _ => none
  | fuel + 1, n =>
    if m.entrySerial n = 0 then none
    else if m.entrySerial n = serial then some n
    else m.findEntry serial fuel (nextEntry n)

/-- How many entries a search for a serial reads: up to and including the one that holds it or is EMPTY (R25).
For serial 0 it is the search for an EMPTY entry. -/
def Memory.searchReads (m : Memory) (serial : Word) : Nat → Nat → Nat
  | 0, _ => 0
  | fuel + 1, n =>
    if m.entrySerial n = 0 ∨ m.entrySerial n = serial then 1 else m.searchReads serial fuel (nextEntry n) + 1

/-- A lookup: the slot of a serial, or absent (R25). -/
def Memory.lookup (m : Memory) (serial : Word) : Option Nat :=
  (m.findEntry serial Config.indexEntries (homeBucket serial)).map m.entrySlot

/-- The accesses of a lookup: each entry it reads (R25, R36). -/
def Memory.lookupAccesses (m : Memory) (serial : Word) : Nat :=
  m.searchReads serial Config.indexEntries (homeBucket serial)

/-- The first EMPTY entry from an entry on (R26). -/
def Memory.findEmpty (m : Memory) : Nat → Nat → Option Nat
  | 0, _ => none
  | fuel + 1, n => if m.entrySerial n = 0 then some n else m.findEmpty fuel (nextEntry n)

/-- An insertion (R26). -/
def Memory.insertSerial (m : Memory) (serial : Word) (slot : Nat) : Memory :=
  match m.findEmpty Config.indexEntries (homeBucket serial) with
  | some n => m.writeEntry n serial slot
  | none => m

/-- The accesses of an insertion: each entry read up to the EMPTY one, and that one's write (R26, R36). -/
def Memory.insertAccesses (m : Memory) (serial : Word) : Nat :=
  m.searchReads 0 Config.indexEntries (homeBucket serial) + 1

/-- How far entry n lies from entry `start`, counting forward around the table. -/
def forwardFrom (start n : Nat) : Nat := (n + Config.indexEntries - start) % Config.indexEntries

/-- Whether the entry at n may fill the hole: the hole lies at or after the entry's home bucket and
before n, counting forward around the table (R27). -/
def mayFill (home hole n : Nat) : Bool := forwardFrom home hole < forwardFrom home n

/-- The closing of the gap: stepping forward from the hole, each LIVE entry that may fill it is copied
into it and made EMPTY, and becomes the new hole; the first EMPTY entry read ends it (R27). -/
def Memory.closeGap (m : Memory) : Nat → Nat → Nat → Memory
  | 0, _, _ => m
  | fuel + 1, hole, n =>
    if m.entrySerial n = 0 then m
    else if mayFill (homeBucket (m.entrySerial n)) hole n then
      ((m.writeEntry hole (m.entrySerial n) (m.entrySlot n)).writeEntry n 0 0).closeGap fuel n
        (nextEntry n)
    else m.closeGap fuel hole (nextEntry n)

/-- The accesses of closing a gap: each entry read up to the EMPTY one that ends it, and the two writes of each
entry that moves into the hole (R27, R36). -/
def Memory.closeAccesses (m : Memory) : Nat → Nat → Nat → Nat
  | 0, _, _ => 0
  | fuel + 1, hole, n =>
    if m.entrySerial n = 0 then 1
    else if mayFill (homeBucket (m.entrySerial n)) hole n then
      ((m.writeEntry hole (m.entrySerial n) (m.entrySlot n)).writeEntry n 0 0).closeAccesses fuel n
        (nextEntry n) + 3
    else m.closeAccesses fuel hole (nextEntry n) + 1

/-- A deletion; that of an absent serial changes nothing (R27). -/
def Memory.deleteSerial (m : Memory) (serial : Word) : Memory :=
  match m.findEntry serial Config.indexEntries (homeBucket serial) with
  | some n => (m.writeEntry n 0 0).closeGap Config.indexEntries n (nextEntry n)
  | none => m

/-- The accesses of a deletion: the search, the write that makes the entry EMPTY, and the closing of the gap
(R27, R36). -/
def Memory.deleteAccesses (m : Memory) (serial : Word) : Nat :=
  m.lookupAccesses serial +
    match m.findEntry serial Config.indexEntries (homeBucket serial) with
    | some n => (m.writeEntry n 0 0).closeAccesses Config.indexEntries n (nextEntry n) + 1
    | none => 0

/-- A clear: every entry EMPTY (R28). -/
def Memory.clearIndex (m : Memory) : Memory := m.clearRange Config.indexBase Config.routeBase

/-- The serial of the LIVE entry that names a slot, searching the first `n` entries (R18). -/
def Memory.serialNaming (m : Memory) (slot : Nat) : Nat → Option Word
  | 0 => none
  | n + 1 =>
    if m.entrySerial n ≠ 0 ∧ m.entrySlot n = slot then some (m.entrySerial n)
    else m.serialNaming slot n

end Sys2Proof.Machine
end

