-- ==== Sys2Proof/Machine/Ops.lean ====
section
/-! DEFINITION. The operations the commands share: the slot directory and the extension pool, the route
area, the segment unit's reports, the tamper queue's reports, the record cache and write queue, a record
becoming FAULT, chains, retirement, and the command unit's answers. -/

namespace Sys2Proof.Machine

/-! ### The slot directory and the extension free map (R37, R38) -/

/-- A slot's entry, or none when the slot is free. -/
def Directory.get : Directory → Nat → Option DirEntry
  | [], _ => none
  | (k, e) :: d, n => if k = n then some e else if n < k then none else Directory.get d n

/-- The directory with a slot occupied by an entry. -/
def Directory.set : Directory → Nat → DirEntry → Directory
  | [], n, x => [(n, x)]
  | (k, e) :: d, n, x =>
    if k = n then (n, x) :: d
    else if n < k then (n, x) :: (k, e) :: d
    else (k, e) :: Directory.set d n x

/-- The directory with a slot free. -/
def Directory.free (d : Directory) (n : Nat) : Directory := d.filter fun c => c.1 != n

/-- The free-slot count: the number of free entries (R9, R37). -/
def Directory.freeSlots (d : Directory) : Nat := Config.slots - d.length

/-- The first number from `n` on that a rising list of numbers does not hold. -/
def firstAbsent : List Nat → Nat → Nat
  | [], n => n
  | k :: ks, n => if k = n then firstAbsent ks (n + 1) else if k < n then firstAbsent ks n else n

/-- The lowest-numbered free slot (R9). -/
def Directory.lowestFree (d : Directory) : Nat := firstAbsent (d.map (·.1)) 0

/-- A number joins a rising list. -/
def insertRising (n : Nat) : List Nat → List Nat
  | [] => [n]
  | k :: ks => if n < k then n :: k :: ks else if n = k then k :: ks else k :: insertRising n ks

/-- The number of free blocks (R38). -/
def State.freeBlocks (s : State) : Nat := Config.blocks - s.store.usedBlocks.length

/-- An allocation: the lowest-numbered free block, or none from an empty pool (R38). -/
def State.lowestFreeBlock (s : State) : Option Nat :=
  if s.freeBlocks = 0 then none else some (firstAbsent s.store.usedBlocks 0)

/-- A block marked in use (R38). -/
def State.useBlock (n : Nat) (s : State) : State :=
  s.withStore { s.store with usedBlocks := insertRising n s.store.usedBlocks }

/-- Blocks marked free (R38). -/
def State.freeChain (chain : List (Nat × BlockKind)) (s : State) : State :=
  s.withStore { s.store with
    usedBlocks := s.store.usedBlocks.filter fun n => !chain.any fun b => b.1 == n }

/-- A slot's chain as the directory lists it (R10). -/
def State.chain (s : State) (slot : Nat) : List (Nat × BlockKind) :=
  ((s.directory.get slot).map (·.chain)).getD []

/-- A slot's directory entry with another chain. -/
def State.setChain (slot : Nat) (chain : List (Nat × BlockKind)) (s : State) : State :=
  match s.directory.get slot with
  | some d => s.withDirectory (s.directory.set slot { d with chain := chain })
  | none => s

/-- The number of a chain's first block, or the end marker (R10). -/
def headOf (chain : List (Nat × BlockKind)) : Half :=
  match chain with
  | [] => endMarker
  | b :: _ => BitVec.ofNat 16 b.1

/-! ### The route header, clock and route area (R134 to R137) -/

/-- A header with every value 0: what the rules read when no header is present, which no rule does in
service. -/
def Header.blank : Header := Header.ofBytes []

/-- The route header's values. -/
def State.params (s : State) : Header := s.route.header.getD Header.blank

/-- SCANNING holds (R133). -/
def State.isScanning (s : State) : Bool := s.route.scanning.isSome

/-- The intake gate is open while the route is OPEN and no route scan runs (R61). -/
def State.gateOpen (s : State) : Bool := s.route.state == .opened && !s.isScanning

/-- The route clock runs while the 460 works, the route is OPEN and SCANNING does not hold (R136). -/
def State.clockRuns (s : State) : Bool := s.power == .on && s.gateOpen

/-- The checkpoint written with the clock's value, which leaves no earlier one due (R137). -/
def State.writeCheckpoint (s : State) : State :=
  (s.withMem (s.mem.writeItem 4 (wordBytes s.route.clock))).withRoute
    { s.route with checkpointsDue := [] }

/-- The clock set, with its checkpoint written (R137). -/
def State.setClock (v : Word) (s : State) : State :=
  (s.withRoute { s.route with clock := v }).writeCheckpoint

/-- The state block written as it stands (R135). -/
def State.writeStateBlock (s : State) : State :=
  s.withMem (s.mem.writeItem 2 (stateItem s.route.state s.segments.active))

/-- A change of route state, written to the route area (R132). -/
def State.enterRouteState (x : RouteState) (s : State) : State :=
  (s.withRoute { s.route with state := x }).writeStateBlock

/-! ### The segment unit (R113 to R119) -/

/-- A segment's entry. -/
def State.segment (s : State) (n : Seg) : Segment := s.segments.entries.get n

/-- A segment's entry changed, and written through when a windowed item, the state, the visited mark or
the redrive count changes (R113). -/
def State.putSegment (n : Seg) (e : Segment) (s : State) : State :=
  let s' := s.withSegments { s.segments with entries := s.segments.entries.set n.val e }
  if segmentItem e = segmentItem (s.segment n) then s'
  else s'.withMem (s.mem.writeItem (5 + n.val) (segmentItem e))

/-- The drive plan changed, and written through (R126). -/
def State.putPlan (plan : List Seg) (s : State) : State :=
  if plan = s.segments.plan then s
  else (s.withSegments { s.segments with plan := plan }).withMem (s.mem.writeItem 3 (planItem plan))

/-- The active segment number changed, and written through (R113). -/
def State.putActive (active : Option Seg) (s : State) : State :=
  if active = s.segments.active then s
  else (s.withSegments { s.segments with active := active }).writeStateBlock

/-- The dwell compare armed with a target, or disarmed (R125). -/
def State.setDwell (target : Option Nat) (s : State) : State :=
  s.withSegments { s.segments with dwellTarget := target }

/-- A plan without a segment; the entries behind it move forward (R126). -/
def planWithout (plan : List Seg) (n : Seg) : List Seg := plan.filter fun k => k != n

/-- A plan with a segment inserted at a position, or at the tail past the end (R126). -/
def planInsert (plan : List Seg) (p : Nat) (n : Seg) : List Seg := plan.take p ++ n :: plan.drop p

/-- A window is enabled when its base is at or below its limit (R113). -/
def Segment.enabled (e : Segment) : Bool := e.base.toNat ≤ e.limit.toNat

/-- Whether an enabled window covers a sequence number (R113). -/
def Segment.covers (e : Segment) (sequence : Half) : Bool :=
  e.enabled && e.base.toNat * 16 ≤ sequence.toNat && sequence.toNat ≤ e.limit.toNat * 16 + 15

/-- The enabled segment whose window contains a sequence number, or NONE (R1). -/
def State.windowOf (s : State) (sequence : Half) : Option Seg :=
  (List.finRange 64).find? fun n => (s.segment n).covers sequence

/-- The segment a record with a sequence number is given: NONE in LOADING, else its window's (R1). -/
def State.assignSegment (s : State) (sequence : Half) : Option Seg :=
  if s.route.state = .opened ∨ s.route.state = .closed then s.windowOf sequence else none

/-- The class a status counts in (R13). -/
def Status.cls : Status → Class
  | .live .pending => .outstanding
  | .live .missed => .outstanding
  | .live .held => .outstanding
  | .live .read => .done
  | .live .flagged => .done
  | .fault => .faulted

/-- A segment's members and one class count changed. -/
def Segment.recount (e : Segment) (c : Class) (f : Nat → Nat) : Segment :=
  match c with
  | .outstanding => { e with members := f e.members, outstanding := f e.outstanding }
  | .done => { e with members := f e.members, done := f e.done }
  | .faulted => { e with members := f e.members, faulted := f e.faulted }

/-- Where a record is counted: its segment and its status. -/
structure Place where
  segment : Option Seg
  status : Status
  deriving DecidableEq, Repr

/-- A slot's place as the directory has it; none for a free slot. -/
def State.place (s : State) (slot : Nat) : Option Place :=
  (s.directory.get slot).map fun d => ⟨d.segment, d.status⟩

/-- The counters with a place's record taken out or put in; a place with segment NONE, or none, changes
no counter (R115). -/
def State.countAt (p : Option Place) (f : Nat → Nat) (s : State) : State :=
  match p with
  | some ⟨some n, status⟩ => s.putSegment n ((s.segment n).recount status.cls f)
  | _ => s

/-- A segment's outstanding count; 0 for NONE. -/
def State.outstandingAt (s : State) : Option Seg → Nat
  | some n => (s.segment n).outstanding
  | none => 0

/-- Completion (R118): the segment becomes COMPLETE and leaves the plan, SEGMENT_DONE is raised, and an
active segment is active no longer. It is not applied to a segment under a leave walk. -/
def State.complete (n : Seg) (s : State) : State :=
  if s.segments.leaving = some n then s
  else if (s.segment n).state = .disabled ∨ (s.segment n).state = .complete then s
  else
    let s1 := (s.putSegment n { s.segment n with state := .complete }).putPlan
      (planWithout s.segments.plan n)
    let s2 := if s1.segments.active = some n then (s1.putActive none).setDwell none else s1
    s2.raise .segmentDone

/-- Reopening (R119): a COMPLETE segment becomes UNVISITED or REDRIVE at the plan's tail in OPEN, and
ABANDONED in CLOSED. -/
def State.reopen (n : Seg) (s : State) : State :=
  if (s.segment n).state = .complete then
    match s.route.state with
    | .opened =>
      (s.putSegment n { s.segment n with
        state := if (s.segment n).visited then .redrive else .unvisited }).putPlan
          (planWithout s.segments.plan n ++ [n])
    | .closed => s.putSegment n { s.segment n with state := .abandoned }
    | _ => s
  else s

/-- The judgement of a segment whose outstanding count was `before`: a count that has reached 0 gives
completion, one that has risen from 0 gives reopening (R115). -/
def State.judge (n : Option Seg) (before : Nat) (s : State) : State :=
  match n with
  | none => s
  | some n =>
    if before ≠ 0 ∧ (s.segment n).outstanding = 0 then s.complete n
    else if before = 0 ∧ (s.segment n).outstanding ≠ 0 then s.reopen n
    else s

/-- A report to the segment unit: a record moves from one place to another, none standing for not live
(R115). Completion and reopening are not judged while a route scan runs. -/
def State.report (old new : Option Place) (s : State) : State :=
  let counted := (s.countAt old (· - 1)).countAt new (· + 1)
  if s.isScanning then counted
  else
    let oldSeg := old.bind (·.segment)
    let newSeg := new.bind (·.segment)
    (counted.judge oldSeg (s.outstandingAt oldSeg)).judge newSeg (s.outstandingAt newSeg)

/-! ### The tamper queue (R102 to R106) -/

/-- One entry ranks above another: by score, highest first, then flag time, then slot (R102). -/
def TamperEntry.ranksAbove (a b : TamperEntry) : Bool :=
  if a.score ≠ b.score then b.score.toNat < a.score.toNat
  else if a.flagTime ≠ b.flagTime then a.flagTime.toNat < b.flagTime.toNat
  else a.slot < b.slot

/-- An entry inserted at its rank; the entries that rank below it move back by one place (R104). -/
def insertRanked (x : TamperEntry) : List TamperEntry → List TamperEntry
  | [] => [x]
  | y :: ys => if x.ranksAbove y then x :: y :: ys else y :: insertRanked x ys

/-- What the queue holds of a record (R102). A FLAGGED record without a flag time, which only memory altered under a
good check byte can hold, ranks and is reported with a flag time of 0 (R5, R110; DESIGN CHOICE: log, entry 52). -/
def Record.tamperEntry (r : Record) (slot : Nat) : TamperEntry :=
  ⟨slot, r.serial, r.score, r.evidence, optWord r.flagTime, r.marks.unconfirmed⟩

/-- Whether the queue has an entry for a slot. -/
def State.listed (s : State) (slot : Nat) : Bool := s.tamper.entries.any fun e => e.slot == slot

/-- An insertion's consequences: NEW_FLAG is raised, and in PULSE mode the pulse timer is started (R104,
R111). -/
def State.inserted (s : State) : State :=
  (s.withTamper { s.tamper with
    pulseRunning := s.tamper.pulseRunning || s.tamper.cabMode == .pulse }).raise .newFlag

/-- A newcomer placed in the queue by its rank; a full queue evicts its last entry or turns the newcomer
away (R104). -/
def State.placeInQueue (x : TamperEntry) (s : State) : State :=
  if s.tamper.entries.length < Config.tamperEntries then
    (s.withTamper { s.tamper with entries := insertRanked x s.tamper.entries }).inserted
  else
    match s.tamper.entries.getLast? with
    | none => s
    | some last =>
      if x.ranksAbove last then
        (s.withTamper { s.tamper with
          entries := insertRanked x s.tamper.entries.dropLast,
          evictions := satInc s.tamper.evictions }).inserted
      else s.withTamper { s.tamper with turnedAway := satInc s.tamper.turnedAway }

/-- A removed report: the slot's entry, if any, leaves the queue (R106). -/
def State.removedReport (slot : Nat) (s : State) : State :=
  s.withTamper { s.tamper with entries := s.tamper.entries.filter fun e => e.slot != slot }

/-- A flagged report (R104). The queue holds no record twice (R102): a record that enters FLAGGED has no
entry, and one that had would give it up. -/
def State.flaggedReport (slot : Nat) (r : Record) (s : State) : State :=
  (s.removedReport slot).placeInQueue (r.tamperEntry slot)

/-- A risen report: a listed record's entry takes the new score and evidence and moves forward; an
unlisted record is a newcomer (R105). -/
def State.risenReport (slot : Nat) (r : Record) (s : State) : State :=
  match s.tamper.entries.find? fun e => e.slot == slot with
  | some e =>
    s.withTamper { s.tamper with
      entries := insertRanked { e with score := r.score, evidence := r.evidence }
        (s.tamper.entries.filter fun e => e.slot != slot) }
  | none => s.placeInQueue (r.tamperEntry slot)

/-! ### The write queue (R34) -/

/-- One entry fewer to wait for, when FLUSH waits (R42). -/
def UnitState.oneWritten : UnitState → UnitState
  | .executing (.flush n) => .executing (.flush (n - 1))
  | u => u

/-- The oldest entry is written to its slot, its check byte computed over the image, and leaves the
queue (R34). -/
def State.writeOldest (s : State) : State :=
  match s.store.queue with
  | [] => s
  | q :: rest =>
    ((s.withMem (s.mem.writeSlot q.slot q.contents)).withStore { s.store with queue := rest }).withCommand
      { s.command with unit := s.command.unit.oneWritten }

/-- An image joins the tail; with four entries waiting it waits for the oldest to be written (R34). -/
def State.enqueue (q : Queued) (s : State) : State :=
  let s' := if s.store.queue.length < Config.queuePlaces then s else s.writeOldest
  s'.withStore { s'.store with queue := s'.store.queue ++ [q] }

/-- The `n` oldest entries are written. -/
def State.drain : Nat → State → State
  | 0, s => s
  | n + 1, s => State.drain n s.writeOldest

/-- The queue is emptied to memory. -/
def State.drainAll (s : State) : State := State.drain s.store.queue.length s

/-! ### The record cache (R31 to R33) -/

/-- A line. -/
def State.line (s : State) (i : Fin 8) : Line := s.store.lines.get i

/-- A line changed. -/
def State.setLine (i : Fin 8) (l : Line) (s : State) : State :=
  s.withStore { s.store with lines := s.store.lines.set i.val l }

/-- The line that holds a slot. -/
def State.lineOf (s : State) (slot : Nat) : Option (Fin 8) :=
  (List.finRange 8).find? fun i => ((s.line i).body.map (·.slot)) == some slot

/-- What the line of a slot holds; free when no line holds the slot. -/
def State.cached (s : State) (slot : Nat) : Contents :=
  match s.lineOf slot with
  | some i => (((s.line i).body).map (·.contents)).getD .free
  | none => .free

/-- The arbiter's name for a unit that holds lines; the route scan is none of its three (R36). -/
def Holder.requester : Holder → Option Requester
  | .matching => some .matching
  | .command => some .command
  | .upload => some .upload
  | .scan => none

/-- Accesses that the arbiter grants to the unit that works, one after another (R36): the unit is the one granted
last, and after each access the oldest entry of the write queue is written, while the queue is not empty (R34). The
route scan's accesses are no grants. Queued images go to slots and the accesses are to the index, to blocks, or to a
slot that no queued image names, so that the writes after a row of accesses may all stand at its end. -/
def State.grants (u : Holder) (accesses : Nat) (s : State) : State :=
  match u.requester with
  | none => s
  | some unit =>
    if accesses = 0 then s
    else (s.withStore { s.store with granted := unit }).drain (min accesses s.store.queue.length)

/-- The three units in the arbiter's round (R36). -/
def Requester.place : Requester → Nat
  | .matching => 0 | .command => 1 | .upload => 2

/-- One unit comes before another, counting round from the unit after the one granted last (R36). -/
def State.beforeInTurn (a b : Requester) (s : State) : Bool :=
  let turn (u : Requester) : Nat := (u.place + 2 - s.store.granted.place) % 3
  decide (turn a < turn b)

/-- A unit that has come to its next piece of work goes before the one that works: not when both wait for memory and
the arbiter has the other first in turn (R36). -/
def State.goesBefore (a b : Requester) (waits other : Bool) (s : State) : Bool :=
  !(waits && other) || s.beforeInTurn a b

/-- One access granted (R34, R36). -/
def State.grant (u : Holder) (s : State) : State := s.grants u 1

/-- A line becomes the most recently used (R31). -/
def touch (i : Fin 8) (order : List (Fin 8)) : List (Fin 8) := i :: order.filter fun k => k != i

/-- A unit takes a line with what it is to hold. -/
def State.hold (u : Holder) (i : Fin 8) (body : Option Cached) (s : State) : State :=
  s.withStore { s.store with
    lines := s.store.lines.set i.val ⟨body, some u⟩, recency := touch i s.store.recency }

/-- The victim: the lowest-numbered INVALID line if there is one, else the least recently used line with
holder none (R32). With every line held, which does not occur, line 0 stands in. -/
def State.victim (s : State) : Fin 8 :=
  ((List.finRange 8).find? fun i => (s.line i).body.isNone && (s.line i).holder.isNone).getD
    ((s.store.recency.reverse.find? fun i => (s.line i).holder.isNone).getD 0)

/-- A DIRTY victim's image is placed in the write queue (R32). -/
def State.evict (i : Fin 8) (s : State) : State :=
  match (s.line i).body with
  | some b => if b.dirty then s.enqueue ⟨b.slot, b.contents⟩ else s
  | none => s

/-- The newest copy of a slot in the write queue, or none (R35). -/
def State.queued (s : State) (slot : Nat) : Option Contents :=
  ((s.store.queue.reverse.find? fun q => q.slot == slot)).map (·.contents)

/-- Taking the line of a slot takes a fill, which reads memory (R32, R35). -/
def State.needsFill (slot : Nat) (s : State) : Bool := (s.lineOf slot).isNone && (s.queued slot).isNone

/-- The record in the held line of a slot changed; the line becomes DIRTY (R33). -/
def State.putContents (slot : Nat) (c : Contents) (s : State) : State :=
  match s.lineOf slot with
  | some i => s.setLine i ⟨some ⟨slot, true, c⟩, (s.line i).holder⟩
  | none => s

/-- A unit lets the line of a slot go (R33). -/
def State.letGo (slot : Nat) (s : State) : State :=
  match s.lineOf slot with
  | some i => s.setLine i ⟨(s.line i).body, none⟩
  | none => s

/-- A retirement drops the line of a slot without writing it back (R21). -/
def State.dropLine (slot : Nat) (s : State) : State :=
  match s.lineOf slot with
  | some i => s.setLine i ⟨none, none⟩
  | none => s

/-- The slot's recent-match entry, if any, is invalidated (R30). -/
def State.forget (slot : Nat) (s : State) : State :=
  s.withMatching { s.matching with buffer := s.matching.buffer.filter fun e => e.slot != slot }

/-- A base record that failed its check becomes FAULT in its held line, with the consequences of R18. -/
def State.becomeFault (slot : Nat) (s : State) : State :=
  match s.directory.get slot with
  | none => s
  | some d =>
    let serial := (s.mem.serialNaming slot Config.indexEntries).getD 0
    ((((((s.putContents slot (.fault serial d.segment)).freeChain d.chain).removedReport slot).forget
      slot).withDirectory (s.directory.set slot ⟨.fault, d.segment, [], false⟩)).report
        (some ⟨d.segment, d.status⟩) (some ⟨d.segment, .fault⟩)).raise .recordFault

/-- A unit takes the line of a slot, filled with the newest copy (R32, R35). The answer says whether the
fill read memory and the base record failed its check, in which case the record is now FAULT (R18). The fill is one
access; that finding the index entry which names the slot counts as none is the model's choice (DESIGN CHOICE: log,
entry 9). -/
def State.takeLine (u : Holder) (slot : Nat) (s : State) : State × Bool :=
  match s.lineOf slot with
  | some i => (s.hold u i (s.line i).body, false)
  | none =>
    let i := s.victim
    let s1 := s.evict i
    match s1.queued slot with
    | some c => (s1.hold u i (some ⟨slot, false, c⟩), false)
    | none =>
      let bs := s1.mem.slotBytes slot
      let s2 := s1.grant u
      if checkHolds 64 bs then (s2.hold u i (some ⟨slot, false, Contents.ofBytes bs⟩), false)
      else ((s2.hold u i (some ⟨slot, false, .free⟩)).becomeFault slot, (s2.directory.get slot).isSome)

/-- A unit takes the line of a slot without a fill, with contents of its own, DIRTY (R32). -/
def State.takeLineFresh (u : Holder) (slot : Nat) (c : Contents) (s : State) : State :=
  match s.lineOf slot with
  | some i => s.hold u i (some ⟨slot, true, c⟩)
  | none => (s.evict s.victim).hold u s.victim (some ⟨slot, true, c⟩)

/-- The slot directory's status copy, segment and batch mirror, and the segment unit's counters, follow a
record (R8, R13, R37, R115). -/
def State.fileRecord (slot : Nat) (r : Record) (s : State) : State :=
  match s.directory.get slot with
  | none => s
  | some d =>
    (s.withDirectory
      (s.directory.set slot { d with
        status := .live r.status, segment := r.segment, batched := r.batch.isSome })).report
        (some ⟨d.segment, d.status⟩) (some ⟨r.segment, .live r.status⟩)

/-- The record in a slot's line becomes `r`: the line, the directory's status copy and segment, and the
segment unit's counters follow in the same step (R13, R33, R37). -/
def State.putRecord (slot : Nat) (r : Record) (s : State) : State :=
  (s.putContents slot (.live r)).fileRecord slot r

/-- The record in a slot's line, as a unit that has changed it reports or packs it. -/
def State.recordNow (s : State) (slot : Nat) (r : Record) : Record :=
  match s.cached slot with
  | .live x => x
  | _ => r

/-! ### Extension chains (R10, R19) -/

/-- What reading a chain's blocks finds: the note's characters, the interval values, how many blocks are
good, and whether a bad one follows them. -/
structure ChainRead where
  note : List Byte
  values : List Half
  kept : Nat
  bad : Bool
  deriving DecidableEq, Repr

/-- The blocks of a chain read in order, up to the first that is bad: its check fails, its layout is not
allowed, or it breaks the form of R10. `position` and `intervals` count the blocks before. -/
def Memory.readChain (m : Memory) : List Nat → Nat → Nat → ChainRead
  | [], _, _ => ⟨[], [], 0, false⟩
  | b :: bs, position, intervals =>
    match Block.ofBytes (m.blockBytes b) with
    | some (.note _ text) =>
      if position = 0 then
        let rest := m.readChain bs 1 intervals
        ⟨text, rest.values, rest.kept + 1, rest.bad⟩
      else ⟨[], [], 0, true⟩
    | some (.interval _ values) =>
      if intervals < 2 then
        let rest := m.readChain bs (position + 1) (intervals + 1)
        ⟨rest.note, values ++ rest.values, rest.kept + 1, rest.bad⟩
      else ⟨[], [], 0, true⟩
    | none => ⟨[], [], 0, true⟩

/-- A block written directly to memory for the unit that holds the record's line (R35). -/
def State.writeBlock (u : Holder) (n : Nat) (b : Block) (s : State) : State :=
  (s.withMem (s.mem.writeBlock n b)).grant u

/-- A block's link rewritten (R19): one access, its write (DESIGN CHOICE: log, entry 9). -/
def State.relink (u : Holder) (n : Nat) (next : Half) (s : State) : State :=
  (s.withMem (s.mem.relinkBlock n next)).grant u

/-- The chain of a slot cut after its first `kept` blocks: the others are freed, the end marker goes into
the base record or the last block kept, and the extension lost mark is set (R19). -/
def State.cutChain (u : Holder) (slot : Nat) (r : Record) (kept : Nat) (s : State) : State :=
  let chain := s.chain slot
  let s1 := (s.freeChain (chain.drop kept)).setChain slot (chain.take kept)
  let s2 := match (chain.take kept).getLast? with
    | some b => s1.relink u b.1 endMarker
    | none => s1
  s2.putRecord slot { r with
    firstBlock := headOf (chain.take kept), marks := { r.marks with extensionLost := true } }

/-- A slot's extension blocks read with their checks verified, a bad block cutting the chain (R17, R19). -/
def State.readExtension (u : Holder) (slot : Nat) (r : Record) (s : State) : State × ChainRead :=
  let chain := s.chain slot
  let found := s.mem.readChain (chain.map (·.1)) 0 0
  let s1 := s.grants u (found.kept + if found.bad then 1 else 0)
  (if found.bad then s1.cutChain u slot r found.kept else s1, found)

/-! ### Commits, flags and retirement (R4, R5, R21, R140, R141) -/

/-- The hold candidate is committed: it becomes the current reading with its companions (R4). -/
def Record.commit (r : Record) : Record :=
  match r.candidate with
  | some c => { r with current := some c, candidate := none }
  | none => r

/-- A HELD record flagged without a second hearing: the candidate committed, the unconfirmed mark and the
flag time set (R99, R121). -/
def Record.flagUnconfirmed (r : Record) (time : Word) : Record :=
  { r.commit with
    status := .flagged, flagTime := some time, marks := { r.marks with unconfirmed := true } }

/-- Retirement of the record in a slot (R21). -/
def State.retire (u : Holder) (slot : Nat) (serial : Word) (s : State) : State :=
  let s1 := s.takeLineFresh u slot .free
  let s2 := ((((s1.withMem (s1.mem.deleteSerial serial)).grants u (s1.mem.deleteAccesses serial)).forget
    slot).freeChain (s1.chain slot)).removedReport slot
  let s3 := (s2.withDirectory (s2.directory.free slot)).report (s1.place slot) none
  (s3.dropLine slot).enqueue ⟨slot, .free⟩

/-- Every segment item and the plan written to the route area as they stand (R140, step 4). -/
def State.writeSegmentArea (s : State) : State :=
  let m := (List.finRange 64).foldl (fun m n => m.writeItem (5 + n.val) (segmentItem (s.segment n))) s.mem
  s.withMem (m.writeItem 3 (planItem s.segments.plan))

/-- Steps 2 to 6 of ROUTE_CLEAR, which a return to EMPTY shares (R140, R141). The clearing of the index is
no grant here: on a return to EMPTY the route controller makes it, which is none of the arbiter's three
units (R36), and the model lets the unit granted last stand (DESIGN CHOICE: log, entry 40). -/
def State.emptyRoute (s : State) : State :=
  let s1 := (((s.withMem s.mem.clearIndex).withMatching { s.matching with buffer := [] }).withDirectory
    []).withStore { s.store with usedBlocks := [] }
  let s2 := s1.withTamper { s1.tamper with entries := [], evictions := 0, turnedAway := 0 }
  let s3 := (s2.withSegments Segments.reset).writeSegmentArea
  let s4 := ((s3.withAssessment none).withRoute { s3.route with header := none }).withMem
    (s3.mem.writeItemTwice 1 (headerItem none))
  (s4.setClock 0).enterRouteState .empty

/-- In CLOSED, with every slot free, the route returns to EMPTY (R141). -/
def State.returnIfBare (s : State) : State :=
  if s.route.state = .closed ∧ s.directory.freeSlots = Config.slots then s.emptyRoute else s

/-! ### Writing back (R42, R43) -/

/-- A DIRTY line's image is queued and the line becomes CLEAN; any other line is passed over (R42). -/
def State.cleanLine (i : Fin 8) (s : State) : State :=
  match (s.line i).body with
  | some b =>
    if b.dirty then
      let s1 := s.enqueue ⟨b.slot, b.contents⟩
      (s1.setLine i ⟨some { b with dirty := false }, none⟩).withStore
        { (s1.setLine i ⟨some { b with dirty := false }, none⟩).store with
          recency := touch i s1.store.recency }
    else s
  | none => s

/-- Lines 0 to 7 are visited in turn (R42). -/
def State.cleanLines (s : State) : State :=
  (List.finRange 8).foldl (fun s i => s.cleanLine i) s

/-- The cache written back and the write queue emptied (R42, R139, R146). -/
def State.writeBack (s : State) : State := s.cleanLines.drainAll

/-! ### The command unit (R161 to R164) -/

/-- The status codes (R164). -/
inductive Answer where
  | ok | badCommand | badParam | notFound | exists_ | full | overlap | wrongState | inBatch | busy
  | faultRecord | hardError
  deriving DecidableEq, Repr

/-- The status codes' values (R164). -/
def Answer.code : Answer → Byte
  | .ok => 0x01 | .badCommand => 0x02 | .badParam => 0x03 | .notFound => 0x04 | .exists_ => 0x05
  | .full => 0x06 | .overlap => 0x07 | .wrongState => 0x08 | .inBatch => 0x09 | .busy => 0x0A
  | .faultRecord => 0x0B | .hardError => 0x0C

/-- The response is placed in the buffer and the unit becomes RESPONDING (R162, R172). -/
def State.respond (a : Answer) (data : List Byte) (s : State) : State :=
  s.withCommand { s.command with
    unit := .responding, response := a.code :: natByte data.length :: data }

/-- A write selection has clocked out 00h throughout (R172). -/
def State.written (s : State) : State := s.withCommand { s.command with dataOut := [] }

/-- A command served in the step that takes its block is answered (R162, R172). -/
def State.reply (a : Answer) (data : List Byte) (s : State) : State := s.written.respond a data

/-- A refusal: a status code other than OK, with no data (R164). -/
def State.refuse (a : Answer) (s : State) : State := s.reply a []

/-- The unit stays EXECUTING with a command that waits (R162). -/
def State.executing (h : Held) (s : State) : State :=
  s.withCommand { s.command with unit := .executing h, dataOut := [] }

/-- A collision: the block is discarded unread, the count rises and COLLISION is raised (R163). -/
def State.collide (s : State) : State :=
  (s.withCommand { s.command with
    collisions := satInc s.command.collisions, dataOut := [] }).raise .collision

/-- A command block taken: ignored while the 460 does not run (R161), a collision unless the unit is IDLE
(R163), and otherwise served, with BUSY for a command not served while SCANNING holds (R164). -/
def State.serve (duringScans : Bool) (work : State → State) (s : State) : State :=
  if s.power ≠ .on then s.written
  else if s.command.unit ≠ .idle then s.collide
  else if s.isScanning && !duringScans then s.refuse .busy
  else work s

end Sys2Proof.Machine
end

