-- ==== Sys2Proof/Machine/Operands.lean ====
section
/-! DEFINITION. The parameters of the commands: presence bytes, codes and ranges as R134, R9, R14, R166,
R172 and R173 check them. -/

namespace Sys2Proof.Machine

/-- The three outcomes of a command. -/
abbrev Result := Host.Outcome State Fault Refusal

/-! ### Presence bytes and codes -/

/-- Whether a byte is a yes or a no (R173). -/
def isYesNo (b : Byte) : Bool := b == 0 || b == 1

/-- The port mode a code names (R173). -/
def PortMode.ofCode (b : Byte) : Option PortMode :=
  if b = 0 then some .off else if b = 1 then some .radio else if b = 2 then some .probe else none

/-- Port mode codes (R173). -/
def PortMode.code : PortMode → Byte
  | .off => 0 | .radio => 1 | .probe => 2

/-- The cab mode a code names (R173). -/
def CabMode.ofCode (b : Byte) : Option CabMode :=
  if b = 0 then some .off else if b = 1 then some .level else if b = 2 then some .pulse else none

/-- Cab mode codes (R173). -/
def CabMode.code : CabMode → Byte
  | .off => 0 | .level => 1 | .pulse => 2

/-- The segment a parameter names, or none above 63. -/
def segOfParam (b : Byte) : Option Seg :=
  if h : b.toNat < 64 then some ⟨b.toNat, h⟩ else none

/-- The port a parameter names, or none above 3. -/
def portOfParam (b : Byte) : Option (Fin 4) :=
  if h : b.toNat < 4 then some ⟨b.toNat, h⟩ else none

/-! ### The route header (R134) -/

/-- Every value of a header in its range, and H not above F (R134). -/
def Header.inRange (h : Header) : Bool :=
  1 ≤ h.hold.toNat && 1 ≤ h.flag.toNat && h.hold.toNat ≤ h.flag.toNat &&
  h.lowRatio.toNat ≤ 63 && 1 ≤ h.rollover.toNat && h.rollover.toNat ≤ 1023 &&
  1 ≤ h.stopDays.toNat && h.duplicateWindow.toNat ≤ 600 &&
  1 ≤ h.confirmGap.toNat && h.confirmGap.toNat ≤ 600 &&
  h.redriveGap.toNat ≤ 63 && h.redriveLimit.toNat ≤ 7 && 5 ≤ h.verdictTimeout.toNat

/-- The assessment unit's copy of a header (R82). -/
def Header.assessment (h : Header) : Assessment :=
  ⟨h.date, h.backstep, h.lowRatio, h.rollover, h.stopDays⟩

/-! ### Records (R9, R14, R20) -/

/-- The register modulus of D dials (R2). -/
def modulus (dials : Byte) : Nat := 10 ^ dials.toNat

/-- Dials lie in 4 to 9 (R2). -/
def dialsInRange (dials : Byte) : Bool := 4 ≤ dials.toNat && dials.toNat ≤ 9

/-- P lies below the modulus and the previous read day not after the route date (R2). -/
def historyInRange (h : Header) (dials : Byte) (previous : Word) (day : Half) : Bool :=
  previous.toNat < modulus dials && day.toNat ≤ h.date.toNat

end Sys2Proof.Machine

namespace Sys2Proof

open Machine

/-! ### The blocks' parameter groups -/

/-- A header field: its value, its default on presence 00h, nothing on any other presence (R134). Value bytes
other than 0 beside presence 00h are not looked at (DESIGN CHOICE: log, entry 46). -/
def Sent.orDefault {α : Type} (x : Sent α) (default : α) : Option α :=
  if x.presence = 0 then some default else if x.presence = 1 then some x.value else none

/-- A header field that must carry a value (R134). -/
def Sent.required {α : Type} (x : Sent α) : Option α :=
  if x.presence = 1 then some x.value else none

/-- An optional field: absent on 00h, present on 01h (R172). Value bytes other than 0 beside presence 00h are
not looked at (DESIGN CHOICE: log, entry 46). -/
def Sent.given {α : Type} (x : Sent α) : Option α :=
  if x.presence = 1 then some x.value else none

/-- Whether a presence byte is 00h or 01h (R172); the value bytes are not looked at (DESIGN CHOICE: log,
entry 46). -/
def Sent.wellCoded {α : Type} (x : Sent α) : Bool := x.presence == 0 || x.presence == 1

/-- The header a ROUTE_HEADER asks for, defaults filled in; none when a required value is missing or a
presence byte is neither 00h nor 01h. -/
def HeaderParams.header (p : HeaderParams) : Option Header := do
  let identity ← p.identity.required
  let van ← p.van.required
  let date ← p.date.required
  let weightMagnet ← p.weightMagnet.orDefault 120
  let weightCover ← p.weightCover.orDefault 90
  let weightReverse ← p.weightReverse.orDefault 60
  let weightRegress ← p.weightRegress.orDefault 100
  let weightLow ← p.weightLow.orDefault 40
  let weightStopped ← p.weightStopped.orDefault 70
  let weightRepower ← p.weightRepower.orDefault 80
  let weightIdentity ← p.weightIdentity.orDefault 50
  let hold ← p.hold.orDefault 60
  let flag ← p.flag.orDefault 150
  let backstep ← p.backstep.orDefault 10
  let lowRatio ← p.lowRatio.orDefault 16
  let rollover ← p.rollover.orDefault 256
  let stopDays ← p.stopDays.orDefault 14
  let duplicateWindow ← p.duplicateWindow.orDefault 50
  let confirmGap ← p.confirmGap.orDefault 20
  let tolerance ← p.tolerance.orDefault 5
  let redriveGap ← p.redriveGap.orDefault 2
  let redriveLimit ← p.redriveLimit.orDefault 2
  let verdictTimeout ← p.verdictTimeout.orDefault 30
  return {
    identity, van, date, weightMagnet, weightCover, weightReverse, weightRegress, weightLow,
    weightStopped, weightRepower, weightIdentity, hold, flag, backstep, lowRatio, rollover, stopDays,
    duplicateWindow, confirmGap, tolerance, redriveGap, redriveLimit, verdictTimeout }

/-- Check 1 of RECORD_LOAD (R9). -/
def LoadParams.inRange (h : Header) (p : LoadParams) : Bool :=
  p.serial != 0 && p.serial != 0xFFFFFFFF && (Kind.ofCode p.kind).isSome && dialsInRange p.dials &&
  historyInRange h p.dials p.previous p.previousDay && isYesNo p.probeOnly && p.powerRef.wellCoded

/-- Every presence byte of an amendment is one R172 allows. -/
def AmendParams.wellCoded (p : AmendParams) : Bool :=
  p.sequence.wellCoded && p.dials.wellCoded && p.previous.wellCoded && p.previousDay.wellCoded &&
  p.rate.wellCoded && p.probeOnly.wellCoded && p.kind.wellCoded &&
  (p.powerRef.presence == 0 || p.powerRef.presence == 1 || p.powerRef.presence == 2)

/-- The parameters of RECORD_LOAD that a full rewrite carries, with the serial the record keeps; none
when one of the seven required fields is absent (R20, R173). -/
def AmendParams.rewrite (p : AmendParams) : Option LoadParams := do
  let sequence ← p.sequence.given
  let dials ← p.dials.given
  let previous ← p.previous.given
  let previousDay ← p.previousDay.given
  let rate ← p.rate.given
  let probeOnly ← p.probeOnly.given
  let kind ← p.kind.given
  return {
    serial := p.serial, sequence, kind, dials, previous, previousDay, rate, probeOnly
    powerRef := if p.powerRef.presence = 1 then p.powerRef else ⟨0, 0⟩ }

end Sys2Proof

namespace Sys2Proof.Machine

/-! ### The records a load and a rewrite build (R9, R20) -/

/-- A record as RECORD_LOAD builds it and a full rewrite builds it afresh: no reading, no evidence, no
hearing, an empty chain (R9, R20). -/
def Record.fresh (p : LoadParams) (kind : Kind) (segment : Option Seg) (status : LiveStatus) : Record where
  serial := p.serial
  sequence := p.sequence
  segment := segment
  kind := kind
  dials := p.dials
  previous := p.previous
  previousDay := p.previousDay
  rate := p.rate
  probeOnly := p.probeOnly == 1
  powerRef := p.powerRef.given
  status := status
  current := none
  candidate := none
  evidence := Evidence.empty
  score := 0
  flagTime := none
  marks := Marks.clear
  hearCount := 0
  lastHeard := none
  bestSignal := none
  batch := none
  firstBlock := endMarker

/-- The three actions of an amendment, apart from a full rewrite, by their codes (R173). -/
inductive AmendAction where
  | nothing | clearEvidence | reRead | fullRewrite
  deriving DecidableEq, Repr

/-- The action a code names; re-read with clear is the same as re-read (R14). -/
def AmendAction.ofCode (b : Byte) : Option AmendAction :=
  if b = 0 then some .nothing else if b = 1 then some .clearEvidence
  else if b = 2 ∨ b = 3 then some .reRead else if b = 4 then some .fullRewrite else none

/-! ### Filters of RECORD_WALK (R166, R173) -/

/-- Whether a status set holds a status: bit n − 1 for status code n. -/
def statusIn (set : Byte) (x : Status) : Bool := set.getLsbD (x.code.toNat - 1)

/-- A status set is non-empty and leaves bits 6 and 7 clear. -/
def statusSetAllowed (set : Byte) : Bool := set != 0 && set.toNat < 64

/-- A segment filter names one segment, any (FEh) or NONE (FFh). -/
def filterAllowed (filter : Byte) : Bool := filter.toNat < 64 || 0xFE ≤ filter.toNat

/-- Whether a segment passes a filter. -/
def passes (filter : Byte) (segment : Option Seg) : Bool := filter == 0xFE || filter == segByte segment

end Sys2Proof.Machine
end

