-- ==== Sys2Proof/Machine/Forming.lean ====
section
/-! DEFINITION. The forming of a batch (R151 to R153, R158, R174): the selection order, the survey, the marking and
packing, and the upload engine's work from one record read to the next. -/

namespace Sys2Proof.Machine

/-! ### Selection (R151) -/

/-- The order of the classes; those after MISSED are not selectable. -/
def classRank : LiveStatus → Nat
  | .flagged => 0 | .read => 1 | .missed => 2 | .pending => 3 | .held => 3

/-- A record is selectable: FLAGGED, READ or MISSED, with no batch field and no depot refused mark. -/
def Record.selectable (r : Record) : Bool :=
  classRank r.status < 3 && r.batch.isNone && !r.marks.depotRefused

/-- A record's selection key. -/
def Record.key (r : Record) (slot : Nat) : Key := ⟨r.status, r.sequence, slot⟩

/-- One key comes before another: by class, then sequence, then slot. -/
def Key.before (a b : Key) : Bool :=
  if classRank a.status ≠ classRank b.status then classRank a.status < classRank b.status
  else if a.sequence ≠ b.sequence then a.sequence.toNat < b.sequence.toNat
  else a.slot < b.slot

/-- A key lies after the cursor; every key lies after start. -/
def Key.after (k : Key) : Option Key → Bool
  | some c => c.before k
  | none => true

/-- A surveyed record placed by its key. -/
def insertByKey (x : Surveyed) : List Surveyed → List Surveyed
  | [] => [x]
  | y :: ys => if x.key.before y.key then x :: y :: ys else y :: insertByKey x ys

/-- The survey's reading of one slot (R152): the line taken and let go; a check failure is passed over. A record that is
read again under another class, since its class changed between two reads of one survey, is kept under both keys and
takes two of the 16 places, on which R152 is silent (DESIGN CHOICE: log, entry 65). -/
def State.surveySlot (cursor : Option Key) (x : List Surveyed × State) (slot : Nat) :
    List Surveyed × State :=
  let taken := x.2.takeLine .upload slot
  let kept :=
    if taken.2 then x.1
    else
      match taken.1.cached slot with
      | .live r =>
        if r.selectable && (r.key slot).after cursor then insertByKey ⟨r.key slot, r.serial⟩ x.1 else x.1
      | _ => x.1
  (kept, taken.1.letGo slot)

/-! ### Packing (R153, R174) -/

/-- An upload record's bytes. -/
def Record.uploadBytes (r : Record) (date : Half) (note : List Byte) (values : List Half) : List Byte :=
  wordBytes r.serial ++ halfBytes r.sequence ++ [r.kind.code, r.status.code] ++ halfBytes date ++
  halfBytes r.hearCount ++
  [r.evidence.byte, r.score, r.marks.byte,
    packBits r.bestSignal.isSome r.powerRef.isSome r.current.isSome
      ((r.current.map (·.byProbe)).getD false) r.current.isSome false false false,
    optByte r.bestSignal, optByte r.powerRef] ++
  wordBytes (optTime r.current) ++
  (match r.current with
    | some c => wordBytes c.value ++ wordBytes c.delta ++ [c.direction.code]
    | none => []) ++
  natByte values.length :: values.flatMap halfBytes ++ natByte note.length :: note

/-- The OFFER frame of a batch, given its packed records. -/
def offerBytes (h : Header) (number : Byte) (records : List (List Byte)) : List Byte :=
  let packed := records.flatten
  let body : List Byte := 0 :: (natHalf (15 + packed.length) ++ [1] ++ wordBytes h.identity ++
    halfBytes h.van ++ [number, natByte records.length] ++ packed)
  0xA6 :: (body ++ halfBytes (crc16 body))

/-! ### Forming a batch (R152) -/

/-- A record marked with the batch number, joined to the outstanding batch, and packed. -/
def State.markAndPack (slot : Nat) (r : Record) (x : List (List Byte) × State) :
    List (List Byte) × State :=
  let s := x.2
  let marked := { r with batch := some s.depot.batchNumber }
  let s1 := s.putRecord slot marked
  let s2 := s1.withDepot { s1.depot with outstanding := s1.depot.outstanding ++ [(slot, r.serial)] }
  let read := s2.readExtension .upload slot marked
  let bytes := (read.1.recordNow slot marked).uploadBytes s.params.date read.2.note read.2.values
  (x.1 ++ [bytes], read.1.letGo slot)

/-- The marking of one chosen record: its line taken again, and the record left out when it is no longer
the one surveyed or no longer selectable. -/
def State.markOne (x : List (List Byte) × State) (k : Surveyed) : List (List Byte) × State :=
  let slot := k.key.slot
  let taken := x.2.takeLine .upload slot
  if taken.2 ∨ (taken.1.directory.get slot).isNone then (x.1, taken.1.letGo slot)
  else
    match taken.1.cached slot with
    | .live r =>
      if r.serial = k.serial ∧ r.selectable then State.markAndPack slot r (x.1, taken.1)
      else (x.1, taken.1.letGo slot)
    | _ => (x.1, taken.1.letGo slot)

/-- The upload is finished (R158): the engine IDLE, UPLOAD_DONE raised, and a CLOSED route with no live
record returned to EMPTY (R141). -/
def State.finishUpload (s : State) : State :=
  let s1 := (s.withDepot { s.depot with engine := .idle }).raise .uploadDone
  s1.returnIfBare

/-- The class that the survey takes after one, or none after the last (R151, R152). -/
def nextClass : LiveStatus → Option LiveStatus
  | .flagged => some .read
  | .read => some .missed
  | .missed | .pending | .held => none

/-- The end of the marking (R152): the cursor at the last key chosen, and the OFFER begun when some record is
outstanding; a partly assembled frame is discarded as the link enters SENDING (R149). -/
def State.beginOffer (last : Option Key) (packed : List (List Byte)) (s : State) : State :=
  let s1 := s.withDepot { s.depot with cursor := last }
  if s1.depot.outstanding.isEmpty then s1
  else
    s1.withDepot { s1.depot with
      link := .sending, rx := [], tx := offerBytes s.params s1.depot.batchNumber packed }

/-- The survey of a class is finished (R152, R158): the next class is surveyed unless 16 records are held; past the
last class the 16 lowest keys are marked, or a survey from start is made, or the upload is finished. -/
def State.endClass (again : Bool) (status : LiveStatus) (kept : List Surveyed) (s : State) :
    Option Forming × State :=
  match if Config.batchRecords ≤ kept.length then none else nextClass status with
  | some c => (some (.surveying again c 0 kept), s)
  | none =>
    if kept.isEmpty then
      if again then (none, s.finishUpload) else (some (.surveying true .flagged 0 []), s)
    else
      let chosen := kept.take Config.batchRecords
      (some (.marking (chosen.getLast?.map (·.key)) chosen []), s)

/-- The next candidate of a class: the lowest occupied slot from one on whose status copy is of the class, as the slot
directory then stands. R152 takes the candidates class by class and each in turn; that those of one class are taken in
ascending slot order is the model's choice (DESIGN CHOICE: log, entry 62). -/
abbrev State.candidate (s : State) (status : LiveStatus) (next : Nat) : Option (Nat × DirEntry) :=
  s.directory.find? fun e => decide (next ≤ e.1) && e.2.status == .live status

/-- The engine's work up to its next record read, that read included (R152): the next candidate of the class in hand
surveyed, or the next record chosen marked; and how far the forming has got then, none when it is over. -/
def State.formRead (s : State) : Forming → Option Forming × State
  | .surveying again status next kept =>
    match s.candidate status next with
    | some e =>
      let x := State.surveySlot (if again then none else s.depot.cursor) (kept, s) e.1
      (some (.surveying again status (e.1 + 1) x.1), x.2)
    | none => s.endClass again status kept
  | .marking last (k :: todo) packed =>
    let x := State.markOne (packed, s) k
    (some (.marking last todo x.1), x.2)
  | .marking last [] packed => (none, s.beginOffer last packed)

/-- A survey before its first record read (R152). -/
def Forming.start : Forming := .surveying false .flagged 0 []

/-- More record reads and ends of classes than the forming of one batch takes: two surveys of three classes, and the
marking. -/
def State.formWork (s : State) : Nat := 6 * (s.directory.length + 1) + Config.batchRecords + 1

/-- The engine's next read takes a fill (R36, R152). -/
def Forming.needs (s : State) : Forming → Bool
  | .surveying _ status next _ => (s.candidate status next).any fun e => s.needsFill e.1
  | .marking _ (k :: _) _ => s.needsFill k.key.slot
  | .marking _ [] _ => false

/-- The depot block holds how far the forming has got. -/
def State.holdForming (w : Forming) (s : State) : State := s.withDepot { s.depot with forming := some w }

/-- The engine may work on a batch: the link idle, no scan excluding it from record memory (R36, R152), and either a
batch being formed (one whose marking has begun is finished by a STOPPING engine too, R157), or none outstanding and
the engine RUNNING. -/
def State.mayForm (s : State) : Bool :=
  s.power == .on && !s.isScanning && s.depot.link == .attached &&
  if s.depot.forming.isSome then s.depot.engine != .idle
  else s.depot.engine == .running && s.depot.outstanding.isEmpty

end Sys2Proof.Machine
end

