-- ==== Sys2Proof/Machine/Assess.lean ====
section
/-! DEFINITION. The assessment unit's judgement of a first reading (R82 to R92), in exact arithmetic. -/

namespace Sys2Proof.Machine

/-- What the unit answers: a direction, a delta, and at most one kind of reading evidence (R91). -/
structure Judgement where
  direction : Direction
  delta : Nat
  evidence : Option EvidenceKind
  deriving DecidableEq, Repr

/-- A copy with every value 0: what is read when the unit holds no copy, which does not occur while
intake is open (R82). -/
def Assessment.blank : Assessment := ⟨0, 0, 0, 0, 0⟩

/-- The elapsed days T (R83): 0 for a previous read day after the route date, which no command stores and only
memory altered under a good check byte can hold (DESIGN CHOICE: log, entry 45). -/
def elapsed (a : Assessment) (r : Record) : Nat := a.date.toNat - r.previousDay.toNat

/-- The LOW test (R90). -/
def isLow (a : Assessment) (r : Record) (delta : Nat) : Bool :=
  elapsed a r ≠ 0 && delta * 1024 < r.rate.toNat * elapsed a r * a.lowRatio.toNat

/-- The STOPPED test on a FORWARD reading (R89). -/
def isStopped (a : Assessment) (r : Record) (delta : Nat) : Bool :=
  delta == 0 && 0 < r.rate.toNat && a.stopDays.toNat ≤ elapsed a r

/-- Rollover plausibility: the rate rule when E and T are above 0, else the half-register rule (R86, R87). -/
def plausible (a : Assessment) (r : Record) (forward : Nat) : Bool :=
  if 0 < r.rate.toNat ∧ 0 < elapsed a r then
    forward * 1024 ≤ r.rate.toNat * elapsed a r * a.rollover.toNat
  else forward * 2 ≤ modulus r.dials

/-- The judgement of a first reading N against a record's history (R84, R85, R88, R91). For a P at or above N + M,
which no command stores and only memory altered under a good check byte can hold, the forward distance is 0
(DESIGN CHOICE: log, entry 45). -/
def assess (a : Assessment) (r : Record) (reading : Nat) : Judgement :=
  let previous := r.previous.toNat
  if previous ≤ reading then
    let delta := reading - previous
    if isStopped a r delta then ⟨.forward, delta, some .stopped⟩
    else if isLow a r delta then ⟨.forward, delta, some .low⟩
    else ⟨.forward, delta, none⟩
  else if previous - reading ≤ a.backstep.toNat then ⟨.reverse, 0, some .reverse⟩
  else
    let forward := reading + modulus r.dials - previous
    if plausible a r forward then
      if isLow a r forward then ⟨.rollover, forward, some .low⟩ else ⟨.rollover, forward, none⟩
    else ⟨.regress, 0, some .regress⟩

end Sys2Proof.Machine
end

