-- ==== Sys2Proof/Machine/Reports.lean ====
section
/-! DEFINITION. The reports whose values are read one after another while frames keep arriving (R58, R147): what
PORT_STATUS and ROUTE_STATUS read, and how a report goes on past the rows that come between two of its values. -/

namespace Sys2Proof.Machine

/-- A port of the machine. -/
def State.port (s : State) (p : Fin 4) : Port := s.ports.get p

/-! ### The values (R58, R147, R173) -/

/-- A port as PORT_STATUS reports it (R58, R173). -/
def Port.statusBytes (x : Port) : List Byte :=
  [x.mode.code, boolByte (x.gathered != []), natByte x.buffer.length] ++ halfBytes x.received ++
  halfBytes x.damaged ++ halfBytes x.overflowed ++ [boolByte x.overflowMark, boolByte x.pulsing]

/-- Scan codes (R173). -/
def scanCode : Option ScanKind → Byte
  | none => 0
  | some .opening => 1
  | some .recovery => 2

/-- Last start codes (R173). -/
def StartKind.code : StartKind → Byte
  | .initialised => 1 | .recovered => 2 | .reset => 3

/-- The values of ROUTE_STATUS in the order of its response (R147, R173). -/
def State.routeValues (s : State) : List (List Byte) :=
  [[s.route.state.code], [boolByte s.isScanning], [scanCode s.route.scanning],
    boolByte s.route.header.isSome :: headerBytes s.route.header, wordBytes s.route.clock,
    natHalf s.directory.freeSlots, natHalf s.freeBlocks, wordBytes s.matching.taken, wordBytes s.matching.drops,
    wordBytes s.matching.strangers, wordBytes s.matching.faultHits, wordBytes s.matching.duplicates,
    [segByte s.segments.active], [s.route.lastStart.code], halfBytes s.route.scanOccupied,
    halfBytes s.route.scanFailures, halfBytes s.route.scanCut, halfBytes s.route.scanDiscarded,
    halfBytes s.route.openFailures]

/-- A report's values as they stand: the four ports, or the route's. -/
def State.values (s : State) : Report → List (List Byte)
  | .ports => s.ports.toList.map Port.statusBytes
  | .route => s.routeValues

/-- How many values a report has. -/
def Report.size : Report → Nat
  | .ports => 4
  | .route => 19

/-- A report's values from the k-th on, by number. -/
def Report.valuesFrom (r : Report) (k : Nat) : List Nat := (List.range r.size).drop k

/-- One value of a report as it stands when it is read. -/
def State.value (s : State) (r : Report) (k : Nat) : List Byte := (s.values r).getD k []

/-! ### Rows between two values -/

/-- The rows that can come between two values of a report: a byte at a port or the gap that gives a frame up, a step
of the matching engine, and a tenth of the route clock (R58, R147). -/
def meetsReport : Instr → Bool
  | .portByte _ _ | .byteGapTimeout _ | .frameTake | .frameMatch | .routeClockTick => true
  | _ => false

/-- Such a row stands at the front of the queue. -/
def State.roadWaits (s : State) : Bool :=
  match s.pending with
  | c :: _ => meetsReport c
  | [] => false

/-- Whether the row that stands at the front of the queue comes before the next value is read: where one can, a free
value says so (R58, R147; log, entry 41). -/
def State.roadMeets (s : State) : Bool × State :=
  if s.roadWaits then (Config.roadFirst s.draws, s.withDraws (s.draws + 1)) else (false, s)

/-- The command that makes a report stays EXECUTING with what it has read (R58, R161). -/
def State.holdReport (w : Reporting) (s : State) : State :=
  s.withCommand { s.command with unit := .executing (.reporting w), response := [] }

/-- The rest of a report: its values read one after another, each as it stands when it is read, and the answer (R58,
R147). Before each a row may come first: the command then stays EXECUTING, and the report goes on when that row has
been served. -/
def State.reportOn (r : Report) : List Nat → List Byte → State → State
  | [], data, s => s.respond .ok data
  | k :: ks, data, s =>
    let y := s.roadMeets
    if y.1 then y.2.holdReport ⟨r, k, data⟩
    else State.reportOn r ks (data ++ y.2.value r k) y.2

/-- A report begun: its first value is read as the command is taken. -/
def State.reportAll (r : Report) (s : State) : State :=
  State.reportOn r (r.valuesFrom 1) (s.value r 0) s.written

/-- The report that a row has met, if there is one, goes on when that row has been served (R58, R147). -/
def State.goOnReport (s : State) : State :=
  match s.command.unit with
  | .executing (.reporting w) => State.reportOn w.report (w.report.valuesFrom w.next) w.data s
  | _ => s

end Sys2Proof.Machine
end

