-- ==== Sys2Proof/Machine/Ports.lean ====
section
/-! DEFINITION. The receiver ports (R44 to R58): assembling and checking endpoint frames, the holding
buffers, and the port commands and events. -/

namespace Sys2Proof.Machine

/-- The start marker of an endpoint or depot frame (R171, R174). -/
def startMarker : Byte := 0xA6

/-- A port changed. -/
def State.setPort (p : Fin 4) (x : Port) (s : State) : State := s.withPorts (s.ports.set p.val x)

/-- A length byte is good when it is an odd number from 17 to 41 (R46). -/
def lengthAllowed (b : Byte) : Bool := b.toNat % 2 == 1 && 17 ≤ b.toNat && b.toNat ≤ 41

/-- A completed frame passes the tests of R48: its frame check, its interval count, its serial. -/
def frameGood (bs : List Byte) : Bool :=
  let n := (byteAt bs 13).toNat
  let len := (byteAt bs 1).toNat
  crc16 ((bs.drop 1).take (len - 4)) == halfAt bs (len - 3) &&
  n ≤ 12 && n == (len - 17) / 2 && wordAt bs 2 != 0 && wordAt bs 2 != 0xFFFFFFFF

/-- The frame a good frame's bytes stand for, stamped with its arrival (R49, R171). -/
def Frame.ofBytes (bs : List Byte) (arrival : Word) (port : Fin 4) (byProbe : Bool) : Frame where
  serial := wordAt bs 2
  kind := Kind.ofCode (byteAt bs 6)
  reading := wordAt bs 7
  flags := byteAt bs 11
  powerCycle := byteAt bs 12
  intervals := halvesAt bs 14 (byteAt bs 13).toNat
  signal := byteAt bs (bs.length - 1)
  arrival := arrival
  port := port
  byProbe := byProbe

/-- A damaged frame: the count rises and the assembler is HUNTING (R48, R52). -/
def Port.damage (x : Port) : Port := { x with gathered := [], damaged := satInc x.damaged }

/-- A good frame is counted, and joins the tail of the holding buffer or, with two frames there, is
overflowed (R48, R51). -/
def Port.accept (x : Port) (f : Frame) : Port :=
  if x.buffer.length < 2 then
    { x with gathered := [], received := satInc x.received, buffer := x.buffer ++ [f] }
  else
    { x with
      gathered := [], received := satInc x.received, overflowed := satInc x.overflowed,
      overflowMark := true }

/-- A port takes a byte of a listening front-end; the answer says whether a good frame overflowed (R46). -/
def Port.take (x : Port) (p : Fin 4) (clock : Word) (b : Byte) : Port × Bool :=
  let bs := x.gathered ++ [b]
  if x.gathered = [] then (if b = startMarker then { x with gathered := [b] } else x, false)
  else if x.gathered.length = 1 then
    (if lengthAllowed b then { x with gathered := bs } else x.damage, false)
  else if bs.length < (byteAt bs 1).toNat then ({ x with gathered := bs }, false)
  else if frameGood bs then
    (x.accept (Frame.ofBytes bs clock p (x.mode == .probe)), decide (2 ≤ x.buffer.length))
  else (x.damage, false)

/-- A byte from a front-end (R45, R46, R49, R51): in OFF and during a reset pulse it is discarded. -/
def State.portByte (p : Fin 4) (b : Byte) (s : State) : State :=
  let x := s.port p
  if x.mode = .off ∨ x.pulsing then s
  else
    let taken := x.take p s.route.clock b
    let s1 := s.setPort p taken.1
    if taken.2 then s1.raise .portOverflow else s1

/-- PORT_BYTE (R45, R46, R49, R51): while the 460 does not run, the byte is discarded. A report that the byte has met
goes on (R58). -/
def execPortByte (p : Fin 4) (b : Byte) (s : State) : Result :=
  if s.power ≠ .on then .next s else .next (s.portByte p b).goOnReport

/-- The gap after a byte has grown too long (R47): an ASSEMBLING port gives its frame up as damaged. -/
def State.byteGap (p : Fin 4) (s : State) : State :=
  let x := s.port p
  if x.gathered = [] ∨ x.pulsing then s else s.setPort p x.damage

/-- BYTE_GAP_TIMEOUT (R47). A report that it has met goes on (R58). -/
def execByteGapTimeout (p : Fin 4) (s : State) : Result :=
  if s.power ≠ .on then .next s else .next (s.byteGap p).goOnReport

/-- PORT_MODE (R55). -/
def execPortMode (port mode : Byte) (s : State) : Result :=
  .next <| s.serve false fun s =>
    match portOfParam port, PortMode.ofCode mode with
    | some p, some m =>
      (s.setPort p { s.port p with gathered := [], buffer := [], mode := m }).reply .ok []
    | _, _ => s.refuse .badParam

/-- PORT_RESET (R56): the pulse begins, and the command stays EXECUTING until it ends. -/
def execPortReset (port : Byte) (s : State) : Result :=
  .next <| s.serve false fun s =>
    match portOfParam port with
    | some p =>
      (s.setPort p { s.port p with
        gathered := [], buffer := [], overflowMark := false, pulsing := true }).executing (.portReset p)
    | none => s.refuse .badParam

/-- RESET_PULSE_END (R56): the port that PORT_RESET waits for resumes its mode, and the command is
answered OK. -/
def execResetPulseEnd (s : State) : Result :=
  match s.power, s.command.unit with
  | .on, .executing (.portReset p) =>
    .next ((s.setPort p { s.port p with pulsing := false }).respond .ok [])
  | _, _ => .next s

/-- PORT_STATUS (R58): the four ports are read one after another, and a frame may complete between. -/
def execPortStatus (s : State) : Result :=
  .next <| s.serve true fun s => s.reportAll .ports

end Sys2Proof.Machine
end

