-- ==== Sys2Proof/Machine/Match.lean ====
section
/-! DEFINITION. The matching engine (R53, R54, R59 to R81): taking a frame, finding its record, and
applying the frame to the record. -/

namespace Sys2Proof.Machine

/-! ### What a frame does to a record -/

/-- The hearing fields brought up to date by a frame (R7, R68). -/
def Record.hear (r : Record) (f : Frame) : Record :=
  { r with
    hearCount := satInc r.hearCount
    lastHeard := some f.arrival
    bestSignal := some (match r.bestSignal with
      | some b => if b.toNat < f.signal.toNat then f.signal else b
      | none => f.signal) }

/-- A frame's reading belongs to the record: its kind is the record's and its reading is below the
modulus (R65). -/
def usable (r : Record) (f : Frame) : Bool :=
  f.kind == some r.kind && f.reading.toNat < modulus r.dials

/-- The pre-checks on a record that the frame may change (R65 to R68). -/
def Record.preCheck (r : Record) (f : Frame) : Record :=
  let repowered := match r.powerRef with
    | some c => c != f.powerCycle
    | none => false
  { r.hear f with
    evidence := (((r.evidence.addIf (!usable r f) .identity).addIf f.magnet .magnet).addIf
      f.cover .cover).addIf repowered .repower
    powerRef := some (r.powerRef.getD f.powerCycle) }

/-- A reading group taken from a frame. -/
def Frame.group (f : Frame) (direction : Direction) (delta : Nat) : Reading :=
  ⟨f.reading, BitVec.ofNat 32 delta, direction, f.arrival, f.port, f.byProbe⟩

/-- A first reading: assessed, its evidence added, and the status decided by the score (R69, R70). -/
def Record.firstReading (h : Header) (a : Assessment) (r : Record) (f : Frame) : Record :=
  let j := assess a r f.reading.toNat
  let evidence := match j.evidence with
    | some k => r.evidence.add k
    | none => r.evidence
  let score := h.score evidence
  let g := f.group j.direction j.delta
  if h.flag.toNat ≤ score.toNat then
    { r with
      evidence := evidence, score := score, status := .flagged, current := some g,
      flagTime := some f.arrival }
  else if h.hold.toNat ≤ score.toNat then
    { r with evidence := evidence, score := score, status := .held, candidate := some g }
  else { r with evidence := evidence, score := score, status := .read, current := some g }

/-- The forward difference of a reading from an earlier one, modulo M (R72, R75). -/
def advance (r : Record) (new old : Word) : Nat :=
  (new.toNat + modulus r.dials - old.toNat % modulus r.dials) % modulus r.dials

/-- The duplicate test of a frame against the record's recent-match entry (R71). -/
def isDuplicate (h : Header) (entry : Option MatchEntry) (f : Frame) : Bool :=
  match entry with
  | some ⟨_, _, some reading, some arrival⟩ =>
    h.duplicateWindow != 0 && reading == f.reading &&
    f.arrival.toNat < arrival.toNat + h.duplicateWindow.toNat
  | _ => false

/-- An agreeing later frame updates C, its companions and the delta (R72, R93). -/
def Record.agree (r : Record) (c : Reading) (f : Frame) : Record :=
  let delta : Word :=
    match c.direction with
    | .forward | .rollover =>
      BitVec.ofNat 32 (min (modulus r.dials - 1) (c.delta.toNat + advance r f.reading c.value))
    | .reverse | .regress => c.delta
  { r with current := some ⟨f.reading, delta, c.direction, f.arrival, f.port, f.byProbe⟩ }

/-- A frame with a usable reading on a READ or FLAGGED record that is no duplicate (R72, R73). A record without a
current reading, which only memory altered under a good check byte can make one of these, has none to compare with:
the reading changes nothing, and the frame still counts as applied (DESIGN CHOICE: log, entry 51). -/
def Record.laterFrame (h : Header) (r : Record) (f : Frame) : Record :=
  match r.current with
  | some c =>
    if advance r f.reading c.value ≤ h.tolerance.toNat then r.agree c f
    else { r with evidence := r.evidence.add .identity }
  | none => r

/-- A frame that confirms a HELD record: the candidate committed and the record FLAGGED, with the frame's
arrival as flag time (R78). R78 has it FLAGGED without the unconfirmed mark, which no HELD record carries (R6); on one
that only memory altered under a good check byte can hold with the mark set, the mark stands (DESIGN CHOICE: log, entry
60). -/
def Record.confirm (r : Record) (f : Frame) : Record :=
  { r.commit with status := .flagged, flagTime := some f.arrival }

/-- A frame with a usable reading on a HELD record (R75 to R77). A HELD record without a candidate, which only
memory altered under a good check byte can hold, has none to compare with: the reading changes nothing, and the
frame still counts as applied (DESIGN CHOICE: log, entry 51). -/
def Record.heldFrame (h : Header) (r : Record) (f : Frame) : Record :=
  match r.candidate with
  | some c =>
    if advance r f.reading c.value ≤ h.tolerance.toNat then
      if f.byProbe || decide (c.time.toNat + h.confirmGap.toNat ≤ f.arrival.toNat) then r.confirm f else r
    else
      { r with
        evidence := r.evidence.add .identity
        candidate := some { c with
          time := if f.arrival.toNat < c.time.toNat then c.time else f.arrival } }
  | none => r

/-- The threshold step: the score of a changed evidence set, and the status it settles (R74, R79). A READ or HELD
record whose score already reaches H or F, outside the bounds of R98, is settled by R79's table even when the frame
changes no evidence, where the rule's last sentences leave its status as it was (DESIGN CHOICE: log, entry 50). -/
def Record.threshold (h : Header) (before : Evidence) (r : Record) (f : Frame) : Record :=
  let score := if r.evidence = before then r.score else h.score r.evidence
  let scored := { r with score := score }
  match r.status with
  | .pending | .missed => scored
  | .read =>
    if h.flag.toNat ≤ score.toNat then { scored with status := .flagged, flagTime := some f.arrival }
    else if h.hold.toNat ≤ score.toNat then
      { scored with
        status := .held
        candidate := r.current.map fun c => { c with
          time := f.arrival, port := f.port, byProbe := f.byProbe } }
    else scored
  | .held => if h.flag.toNat ≤ score.toNat then scored.confirm f else scored
  | .flagged =>
    if r.score.toNat < score.toNat then
      { scored with marks := { r.marks with acknowledged := false } }
    else scored

/-- What a frame's work on a record comes to: the record, whether the frame was a duplicate, and whether
its reading reached the per-status rules without being one (R80, R81). -/
structure Matched where
  record : Record
  duplicate : Bool
  applied : Bool
  deriving DecidableEq, Repr

/-- A frame applied to a record that is not FAULT: pre-checks, per-status rule and threshold step. -/
def Record.matchFrame (h : Header) (a : Assessment) (entry : Option MatchEntry) (r : Record) (f : Frame) :
    Matched :=
  if r.probeOnly && !f.byProbe then ⟨r.hear f, false, false⟩
  else
    let checked := r.preCheck f
    if !usable r f then ⟨checked.threshold h r.evidence f, false, false⟩
    else
      match r.status with
      | .pending | .missed => ⟨(checked.firstReading h a f).threshold h r.evidence f, false, true⟩
      | .read | .flagged =>
        if isDuplicate h entry f then ⟨checked.threshold h r.evidence f, true, false⟩
        else ⟨(checked.laterFrame h f).threshold h r.evidence f, false, true⟩
      | .held => ⟨(checked.heldFrame h f).threshold h r.evidence f, false, true⟩

/-! ### Interval values (R12, R80) -/

/-- The values in blocks of six, each with the number of the block after it. -/
def State.writeIntervals (u : Holder) : List Nat → List Half → State → State
  | [], _, s => s
  | b :: bs, values, s =>
    State.writeIntervals u bs (values.drop 6)
      (s.writeBlock u b (.interval (headOf (bs.map fun n => (n, BlockKind.interval))) (values.take 6)))

/-- The beginning of an interval replacement: the record's INTERVAL blocks freed (R12). -/
def State.freeIntervals (slot : Nat) (s : State) : State :=
  let chain := s.chain slot
  (s.freeChain (chain.filter fun b => b.2 == .interval)).setChain slot (chain.filter fun b => b.2 == .note)

/-- The blocks that so many values fill (R12). -/
def blocksFor (values : List Half) : Nat := (values.length + 5) / 6

/-- One block allocated to the end of a record's chain, in use at once (R12, R38). -/
def State.chainBlock (slot b : Nat) (s : State) : State :=
  (s.useBlock b).setChain slot (s.chain slot ++ [(b, .interval)])

/-- The end of an interval replacement: the blocks allocated filled in the frame's order, and the interval lost mark
set, with POOL_EMPTY, when some values do not fit (R12). The link of a NOTE block before them is rewritten whether or
not the number it holds changes, on which R12 is silent (DESIGN CHOICE: log, entry 61). -/
def State.storeIntervals (u : Holder) (slot : Nat) (values : List Half) (r : Record) (s : State) : State :=
  let chain := s.chain slot
  let intervals := chain.filter fun b => b.2 == .interval
  let s2 := State.writeIntervals u (intervals.map (·.1)) values s
  let s3 := match chain.filter fun b => b.2 == .note with
    | [] => s2
    | n :: _ => s2.relink u n.1 (headOf intervals)
  let short := decide (intervals.length < blocksFor values)
  let s4 := s3.putRecord slot { r with
    firstBlock := headOf chain, marks := { r.marks with intervalLost := short } }
  if short then s4.raise .poolEmpty else s4

/-! ### The recent-match buffer (R29, R81) -/

/-- The valid entry of a serial. -/
def State.matchEntry (s : State) (serial : Word) : Option MatchEntry :=
  s.matching.buffer.find? fun e => e.serial == serial

/-- An entry becomes the most recently used one of its serial; the least recently used entry past the
sixteenth is forgotten (R29). -/
def State.keepEntry (e : MatchEntry) (s : State) : State :=
  s.withMatching { s.matching with
    buffer := (e :: s.matching.buffer.filter fun x => x.serial != e.serial).take Config.bufferEntries }

/-- An index lookup for a frame's serial, which fills a buffer entry when it finds the serial (R29, R62). -/
def State.resolveByIndex (serial : Word) (s : State) : Option Nat × State :=
  let s1 := s.grants .matching (s.mem.lookupAccesses serial)
  match s.mem.lookup serial with
  | some slot => (some slot, s1.keepEntry ⟨serial, slot, none, none⟩)
  | none => (none, s1)

/-- A frame's serial resolved through the buffer, or on a miss through the index (R62). -/
def State.resolve (serial : Word) (s : State) : Option Nat × State :=
  match s.matchEntry serial with
  | some e => (some e.slot, s.keepEntry e)
  | none => s.resolveByIndex serial

/-- The end of a frame's work: the record's entry, if it has one, takes the reading and the later arrival
(R81). -/
def State.noteReading (slot : Nat) (f : Frame) (s : State) : State :=
  s.withMatching { s.matching with
    buffer := s.matching.buffer.map fun e =>
      if e.serial = f.serial ∧ e.slot = slot then
        { e with
          reading := some f.reading
          arrival := some (match e.arrival with
            | some t => if f.arrival.toNat < t.toNat then t else f.arrival
            | none => f.arrival) }
      else e }

/-! ### The engine's steps -/

/-- The port after the one served last whose holding buffer is not empty (R54). -/
def State.nextPort (s : State) : Option (Fin 4) :=
  [s.matching.served + 1, s.matching.served + 2, s.matching.served + 3, s.matching.served].find? fun p =>
    !(s.port p).buffer.isEmpty

/-- A stranger is counted and its frame discarded (R62). -/
def State.countStranger (s : State) : State :=
  s.withMatching { s.matching with inHand := none, strangers := satInc s.matching.strangers }

/-- A frame taken past the gate: its serial is resolved, or it is a stranger (R62). -/
def State.passGate (f : Frame) (s : State) : State :=
  match s.resolve f.serial with
  | (some slot, s1) => s1.withMatching { s1.matching with inHand := some ⟨f, slot, false⟩ }
  | (none, s1) => s1.countStranger

/-- The head frame of a port leaves its buffer, and the port becomes the one served last (R50, R54, R60). -/
def State.takeHead (p : Fin 4) (rest : List Frame) (s : State) : State :=
  (s.setPort p { s.port p with buffer := rest }).withMatching
    { s.matching with served := p, taken := satInc s.matching.taken }

/-- A frame taken by a free engine: the head frame of the port whose turn it is, the intake gate judged and
the serial resolved (R53, R54, R60 to R62). With every holding buffer empty there is none to take. -/
def State.takeFrame (s : State) : State :=
  match s.nextPort with
  | none => s
  | some p =>
    match (s.port p).buffer with
    | [] => s
    | f :: rest =>
      let s1 := s.takeHead p rest
      if s1.gateOpen then s1.passGate f
      else s1.withMatching { s1.matching with drops := satInc s1.matching.drops }

/-- FRAME_TAKE (R53, R54, R60 to R62): with a frame in hand the engine takes none. A report that the step has met goes
on (R58, R147). -/
def execFrameTake (s : State) : Result :=
  if s.power ≠ .on then .next s
  else .next (if s.matching.inHand.isSome then s else s.takeFrame).goOnReport

/-- A fault hit: counted, the buffer keeps no entry for the record, and the frame goes no further (R63). -/
def State.countFaultHit (slot : Nat) (s : State) : State :=
  let s1 := (s.forget slot).letGo slot
  s1.withMatching { s1.matching with inHand := none, faultHits := satInc s1.matching.faultHits }

/-- The tamper queue told of what a frame made of a record: flagged when it entered FLAGGED, risen when
its score rose while FLAGGED (R74, R78, R79, R103). A confirming frame whose pre-checks also added evidence makes one
flagged report, with the score of the whole set: R78 hands the record over before R79 computes that score, and R79
finds nothing left to do for it (DESIGN CHOICE: log, entry 49). -/
def State.reportFrame (slot : Nat) (old new : Record) (s : State) : State :=
  if new.status = .flagged then
    if old.status ≠ .flagged then s.flaggedReport slot new
    else if old.score.toNat < new.score.toNat then s.risenReport slot new
    else s
  else s

/-- The end of a frame's work on a record: the recent-match entry, the line let go, and the engine free (R59, R81). -/
def State.endFrame (f : Frame) (slot : Nat) (applied duplicate : Bool) (s : State) : State :=
  let s1 := (if applied then s.noteReading slot f else s).letGo slot
  s1.withMatching { s1.matching with
    inHand := none
    duplicates := if duplicate then satInc s1.matching.duplicates else s1.matching.duplicates }

/-- A RECORD_NOTE of another record that may allocate stands at the front of the queue, with the command unit free to
take it (R11, R38). One of the record in the slot waits for its line (R33). -/
def State.noteWaits (slot : Nat) (s : State) : Bool :=
  s.command.unit == .idle && !s.isScanning &&
  match s.pending with
  | .recordNote serial text :: _ => text.length ≤ 24 && s.mem.lookup serial != some slot
  | _ => false

/-- Whether a RECORD_NOTE that stands at the front of the queue allocates before the engine does: where one can, a free
value says so (R12, R38; log, entry 58). -/
def State.noteMeets (met : Bool) (slot : Nat) (s : State) : Bool × State :=
  if met && s.noteWaits slot then (Config.noteFirst s.draws, s.withDraws (s.draws + 1)) else (false, s)

/-- The rest of an interval replacement (R12): up to `n` blocks are still allocated, one at a time, each the
lowest-numbered free one, then filled, and the frame's work ends. Before each allocation a RECORD_NOTE may allocate
first, when `met` says that one can meet the frame, which is then held. -/
def State.replaceOn (met : Bool) (f : Frame) (slot : Nat) (r : Record) : Nat → State → State
  | 0, s => (s.storeIntervals .matching slot f.intervals r).endFrame f slot true false
  | n + 1, s =>
    let y := s.noteMeets met slot
    if y.1 then y.2.withMatching { y.2.matching with inHand := some ⟨f, slot, true⟩ }
    else
      match y.2.lowestFreeBlock with
      | some b => State.replaceOn met f slot r n (y.2.chainBlock slot b)
      | none => (y.2.storeIntervals .matching slot f.intervals r).endFrame f slot true false

/-- A frame applied to the record in a slot whose line the engine holds (R64 to R81). -/
def State.applyFrame (met : Bool) (f : Frame) (slot : Nat) (r : Record) (s : State) : State :=
  let m := r.matchFrame s.params (s.assessment.getD Assessment.blank) (s.matchEntry f.serial) f
  let s1 := (s.putRecord slot m.record).reportFrame slot r m.record
  if m.applied && !f.intervals.isEmpty then
    State.replaceOn met f slot m.record (blocksFor f.intervals) (s1.freeIntervals slot)
  else s1.endFrame f slot m.applied m.duplicate

/-- What the engine finds once it holds the line: whether the slot is occupied and carries the frame's
serial (R63). -/
def State.carries (s : State) (slot : Nat) (serial : Word) : Bool :=
  (s.directory.get slot).isSome &&
  match s.cached slot with
  | .free => false
  | .fault x _ => x == serial
  | .live r => r.serial == serial

/-- The frame's work on the record whose line the engine holds, once the serial is the frame's (R63). -/
def State.workFrame (met : Bool) (f : Frame) (slot : Nat) (s : State) : State :=
  match s.cached slot with
  | .live r => s.applyFrame met f slot r
  | _ => s.countFaultHit slot

/-- An interval replacement that a RECORD_NOTE has met goes on, with the blocks that the chain has got; the record is
the one in the line that the engine holds (R12, R33). -/
def State.goOnReplacing (met : Bool) (f : Frame) (slot : Nat) (s : State) : State :=
  let got := (s.chain slot).countP fun b => b.2 == .interval
  match s.carries slot f.serial, s.cached slot with
  | true, .live r => State.replaceOn met f slot r (blocksFor f.intervals - got) s
  | _, _ => s.endFrame f slot false false

/-- The frame in hand worked on: the line taken, the serial checked and resolved again when a retirement
was first, and the frame applied, or counted as a fault hit or stranger (R33, R63). `met` says whether a RECORD_NOTE can
meet its interval replacement (R12). -/
def State.matchOn (met : Bool) (s : State) : State :=
  match s.matching.inHand with
  | none => s
  | some ⟨f, slot, true⟩ => s.goOnReplacing met f slot
  | some ⟨f, slot, false⟩ =>
    let s1 := (s.takeLine .matching slot).1
    if s1.carries slot f.serial then s1.workFrame met f slot
    else
      match (s1.letGo slot).resolveByIndex f.serial with
      | (none, s2) => s2.countStranger
      | (some again, s2) =>
        let s3 := (s2.takeLine .matching again).1
        if s3.carries again f.serial then s3.workFrame met f again
        else (s3.letGo again).countStranger

/-- The frame in hand finished with no RECORD_NOTE in between: beside a command's walk, and where a command has the
frame in hand finished first, the command unit serves no other command (R122, R139, R146, R166). -/
def State.finishFrame (s : State) : State := s.matchOn false

/-- The interval replacement that a RECORD_NOTE has met, if there is one, goes on when the note is served (R12). -/
def State.goOnFrame (s : State) : State :=
  match s.matching.inHand with
  | some ⟨f, slot, true⟩ => s.goOnReplacing false f slot
  | _ => s

/-- What the matching engine does next: it finishes its frame in hand, or with none takes one (R59). -/
def State.engineStep (s : State) : State :=
  if s.matching.inHand.isSome then s.finishFrame else s.takeFrame

/-- The matching engine has a frame in hand or one to take. -/
def State.engineBusy (s : State) : Bool := s.matching.inHand.isSome || s.nextPort.isSome

/-- The engine's next step waits for memory: for the fill of the line of its frame in hand, or for the index, where
the frame that it takes has no recent-match entry (R36, R62). -/
def State.engineNeeds (s : State) : Bool :=
  match s.matching.inHand with
  | some x => s.needsFill x.slot
  | none =>
    match s.nextPort with
    | some p => s.gateOpen && (s.port p).buffer.head?.any fun f => (s.matchEntry f.serial).isNone
    | none => false

/-- FRAME_MATCH (R63 to R81): the engine finishes its frame in hand, but where a RECORD_NOTE allocates first in the
middle of its interval replacement, which then goes on as the note is served (R12, R38; log, entry 58). A report that the
step has met goes on (R58, R147). -/
def execFrameMatch (s : State) : Result :=
  if s.power ≠ .on then .next s else .next (s.matchOn true).goOnReport

end Sys2Proof.Machine
end

