-- ==== Sys2Proof/Machine/Beside.lean ====
section
/-! DEFINITION. The units that work beside a walk of the command unit: the matching engine, which takes and finishes
frames meanwhile (R122, R166), and the upload engine, which goes on forming its batch (R36, R152); and the arbiter's
turn among the three (R36). -/

namespace Sys2Proof.Machine

/-! ### The upload engine's next piece of work (R152) -/

/-- The forming that the upload engine is in the middle of; or the one that it is about to begin, where BATCH_FORM
stands at the front of the queue (log, entry 63). -/
def State.uploadWork (s : State) : Option Forming :=
  if s.mayForm then
    match s.depot.forming, s.pending with
    | some w, _ => some w
    | none, .batchForm :: _ => some Forming.start
    | none, _ => none
  else none

/-- The upload engine's next record read, or end of a class, from `w`: how far the forming has got then. -/
def State.uploadRead (w : Forming) (s : State) : Option Forming × State :=
  (s.withDepot { s.depot with forming := none }).formRead w

/-- The upload engine has a record read to make, or a class to end, after which the forming still goes on. -/
def State.uploadBusy (s : State) : Bool := s.uploadWork.any fun w => (s.uploadRead w).1.isSome

/-- The upload engine's next read waits for memory (R36). -/
def State.uploadNeeds (s : State) : Bool := s.uploadWork.any fun w => w.needs s

/-- The upload engine makes its next record read, and the depot block holds how far the forming has got. The end of the
forming, which takes no access, is left to the next BATCH_FORM (log, entry 63). -/
def State.uploadStep (s : State) : State :=
  match s.uploadWork with
  | none => s
  | some w =>
    match s.uploadRead w with
    | (some w1, s1) => s1.holdForming w1
    | (none, _) => s

/-! ### The moments of a walk (R36, R122, R152, R166) -/

/-- The units that have come to their next piece of work and have not made it yet. -/
structure Come where
  matching : Bool
  upload : Bool
  deriving DecidableEq, Repr

/-- Neither unit has come. -/
def Come.none : Come := ⟨false, false⟩

/-- Whether the matching engine has come to its next step: one that has come stays so, and while the engine has
something to do a free value says so (log, entry 39). -/
def State.engineComes (come : Bool) (s : State) : Bool × State :=
  if come then (true, s)
  else if s.engineBusy then (Config.engineFirst s.draws, s.withDraws (s.draws + 1))
  else (false, s)

/-- Whether the upload engine has come to its next record read, likewise (log, entry 63). -/
def State.uploadComes (come : Bool) (s : State) : Bool × State :=
  if come then (true, s)
  else if s.uploadBusy then (Config.uploadFirst s.draws, s.withDraws (s.draws + 1))
  else (false, s)

/-- The matching engine has come and goes next: no unit that waits for memory as well is before it in turn. `fill` says
whether the walk's next visit waits for memory (R36). -/
def State.engineGoes (fill : Bool) (c : Come) (s : State) : Bool :=
  c.matching && s.goesBefore .matching .command s.engineNeeds fill &&
  s.goesBefore .matching .upload s.engineNeeds (c.upload && s.uploadNeeds)

/-- The upload engine has come and goes next, likewise (R36). -/
def State.uploadGoes (fill : Bool) (c : Come) (s : State) : Bool :=
  c.upload && s.goesBefore .upload .command s.uploadNeeds fill &&
  s.goesBefore .upload .matching s.uploadNeeds (c.matching && s.engineNeeds)

/-- What the two engines do beside a walk of the command unit before that goes on, to the slot that it visits next if
it is about to take a line: free values say which of them has come to its next piece of work, and of the units that
wait for memory the arbiter has the first in turn go (R36). The answer names those that have come and wait behind the
walk. The number bounds their steps. -/
def State.besideOn (next : Option Nat) : Nat → Come → State → Come × State
  | 0, c, s => (c, s)
  | k + 1, c, s =>
    let m := s.engineComes c.matching
    let u := m.2.uploadComes c.upload
    let come : Come := ⟨m.1, u.1⟩
    let fill := next.any fun n => u.2.needsFill n
    if u.2.engineGoes fill come then State.besideOn next k { come with matching := false } u.2.engineStep
    else if u.2.uploadGoes fill come then State.besideOn next k { come with upload := false } u.2.uploadStep
    else (come, u.2)

/-- More steps than the two engines can make with no further byte arriving. -/
def State.besideSteps (s : State) : Nat := Config.engineSteps + s.formWork + 1

/-- The engines' work beside a walk where that reads the directory or is over: neither waits behind the walk, which
wants no access. -/
def State.beside (s : State) : State := (State.besideOn none s.besideSteps Come.none s).2

/-- The units that waited behind a visit make their steps: the command unit was granted last, so that the upload engine
is before the matching engine in turn (R36). -/
def State.served (c : Come) (s : State) : State :=
  let s1 := if c.upload then s.uploadStep else s
  if c.matching then s1.engineStep else s1

/-- A walk's visit of a slot with the two engines beside it: each may go before it, and those that waited for memory
with the command unit first in turn go right after it (R36). -/
def State.visitBeside {α : Type} (slot : Nat) (visit : State × α → State × α) (x : State × α) : State × α :=
  let y := State.besideOn (some slot) x.1.besideSteps Come.none x.1
  let v := visit (y.2, x.2)
  (v.1.served y.1, v.2)

end Sys2Proof.Machine
end

