-- ==== Sys2Proof/Machine/SegmentUnit.lean ====
section
/-! DEFINITION. Segments and the drive plan (R113 to R131): defining windows, entering and leaving, the
dwell compare, the plan commands and the reports. -/

namespace Sys2Proof.Machine

/-! ### Walks (R121, R139) -/

/-- The counts before a walk. -/
def WalkCounts.none : WalkCounts := ⟨0, 0, 0⟩

/-- Two walks' counts together (R139). -/
def WalkCounts.plus (a b : WalkCounts) : WalkCounts :=
  ⟨a.missed + b.missed, a.flagged + b.flagged, a.failures + b.failures⟩

/-- The counts as a response gives them: two bytes each (R173). -/
def WalkCounts.bytes (c : WalkCounts) : List Byte :=
  natHalf c.missed ++ natHalf c.flagged ++ natHalf c.failures

/-- A walk's visit of a slot: its line is taken, a PENDING record becomes MISSED, a HELD one FLAGGED with
the unconfirmed mark and a flagged report, any other stays; a check failure is counted (R121). -/
def State.settleSlot (u : Holder) (slot : Nat) (x : State × WalkCounts) : State × WalkCounts :=
  let taken := x.1.takeLine u slot
  if taken.2 then (taken.1.letGo slot, { x.2 with failures := x.2.failures + 1 })
  else
    match taken.1.cached slot with
    | .live r =>
      match r.status with
      | .pending =>
        ((taken.1.putRecord slot { r with status := .missed }).letGo slot,
          { x.2 with missed := x.2.missed + 1 })
      | .held =>
        let r' := r.flagUnconfirmed taken.1.route.clock
        (((taken.1.putRecord slot r').flaggedReport slot r').letGo slot,
          { x.2 with flagged := x.2.flagged + 1 })
      | _ => (taken.1.letGo slot, x.2)
    | _ => (taken.1.letGo slot, x.2)

/-- The slots of the directory's occupied entries that name a segment, ascending. -/
def State.slotsOf (s : State) (n : Seg) : List Nat :=
  (s.directory.filter fun e => e.2.segment == some n).map (·.1)

/-- The leave walk over a segment's records with no frame matched meanwhile (R121): that of ROUTE_CLOSE, whose gate is
closed, and of the RECOVERY scan, which works alone. Completion is not applied to the segment meanwhile (R118). -/
def State.leaveWalk (u : Holder) (n : Seg) (s : State) : State × WalkCounts :=
  let started := s.withSegments { s.segments with leaving := some n }
  let walked := (s.slotsOf n).foldl (fun x slot => State.settleSlot u slot x) (started, WalkCounts.none)
  (walked.1.withSegments { walked.1.segments with leaving := none }, walked.2)

/-- The settling at a walk's end by the outstanding count (R123). An ACTIVE segment stands nowhere in the plan; one
that the RECOVERY scan takes as ACTIVE by the active number alone may (R131), and its old place is then taken out
first, so that the plan's length and the place of insertion are those of the plan without it (DESIGN CHOICE: log,
entry 54). -/
def State.settleLeft (n : Seg) (s : State) : State :=
  let e := s.segment n
  let without := planWithout s.segments.plan n
  let settled :=
    if e.outstanding = 0 then
      ((s.putSegment n { e with state := .complete }).putPlan without).raise .segmentDone
    else
      let redrive := min 7 (e.redrive + 1)
      if s.params.redriveLimit.toNat < redrive then
        (s.putSegment n { e with redrive := redrive, state := .abandoned }).putPlan without
      else
        (s.putSegment n { e with redrive := redrive, state := .redrive }).putPlan
          (planInsert without (min s.params.redriveGap.toNat without.length) n)
  (settled.putActive none).setDwell none

/-- A segment is left: the walk and its settling (R121 to R123). -/
def State.leave (u : Holder) (n : Seg) (s : State) : State × WalkCounts :=
  let walked := s.leaveWalk u n
  (walked.1.settleLeft n, walked.2)

/-! ### Commands -/

/-- Whether two enabled windows share a sequence number (R114). -/
def windowsOverlap (a b : Segment) : Bool :=
  a.enabled && b.enabled && a.base.toNat ≤ b.limit.toNat && b.base.toNat ≤ a.limit.toNat

/-- The plan with a segment before the first entry of a higher number, or at the tail (R114). -/
def planByNumber (n : Seg) : List Seg → List Seg
  | [] => [n]
  | k :: ks => if n < k then n :: k :: ks else k :: planByNumber n ks

/-- A definition taken: the window and dwell limit stored, the state and plan as R114 gives; the plan holds
no segment twice (R126). -/
def State.define (n : Seg) (base limit dwell : Half) (s : State) : State :=
  let e := s.segment n
  let e' := { e with base := base, limit := limit, dwell := dwell }
  match e.enabled, e'.enabled with
  | false, true =>
    (s.putSegment n { e' with state := .unvisited }).putPlan
      (planByNumber n (planWithout s.segments.plan n))
  | true, false =>
    (s.putSegment n { e' with state := .disabled }).putPlan (planWithout s.segments.plan n)
  | _, _ => s.putSegment n e'

/-- SEGMENT_DEFINE (R114). -/
def execSegmentDefine (segment : Byte) (base limit dwell : Half) (s : State) : Result :=
  .next <| s.serve false fun s =>
    if s.route.state ≠ .loading then s.refuse .wrongState
    else
      match segOfParam segment with
      | none => s.refuse .badParam
      | some n =>
        if 4095 < base.toNat ∨ 4095 < limit.toNat then s.refuse .badParam
        else if (List.finRange 64).any fun k =>
            k != n && windowsOverlap { s.segment n with base := base, limit := limit } (s.segment k) then
          s.refuse .overlap
        else (s.define n base limit dwell).reply .ok []

/-- A segment entered: judged by its state as it stands (R120). -/
def State.enter (n : Seg) (s : State) : State :=
  let e := s.segment n
  match e.state with
  | .unvisited | .redrive | .abandoned =>
    (((s.putSegment n { e with
      state := .active, visited := true, overrun := false,
      entryTime := some s.route.clock }).putPlan (planWithout s.segments.plan n)).putActive
        (some n)).setDwell
          (if 0 < e.dwell.toNat then some (s.route.clock.toNat + e.dwell.toNat) else none)
  | _ => s

/-! ### Leaving, and the clock within a walk (R124, R125) -/

/-- The end of SEGMENT_LEAVE, or of SEGMENT_ENTER where it leaves a segment first: the segment left settled, the other
one entered, and the answer (R120, R123, R124). -/
def State.left (n : Seg) (entering : Option Seg) (x : State × WalkCounts) : State :=
  let s1 := (x.1.withSegments { x.1.segments with leaving := none }).settleLeft n
  match entering with
  | none =>
    s1.reply .ok ([segByte (some n), (s1.segment n).state.code, natByte (s1.segment n).redrive] ++ x.2.bytes)
  | some k =>
    let s2 := s1.enter k
    s2.reply .ok ([(s2.segment k).state.code, segByte (some n), (s1.segment n).state.code] ++ x.2.bytes)

/-- A tenth of the route clock, or the end of the dwell compare, stands at the front of the queue (R125, R136). -/
def State.tenthWaits (s : State) : Bool :=
  match s.pending with
  | .routeClockTick :: _ | .dwellCompareExpire :: _ => true
  | _ => false

/-- Whether the row of time that stands at the front of the queue comes before the walk goes on: a free value says so
(R125; log, entry 59). -/
def State.tenthMeets (s : State) : Bool × State :=
  if s.tenthWaits then (Config.tenthFirst s.draws, s.withDraws (s.draws + 1)) else (false, s)

/-- The command that makes a leave walk stays EXECUTING with the rest of it (R125, R161). -/
def State.holdWalk (w : Leaving) (s : State) : State :=
  s.withCommand { s.command with unit := .executing (.leaving w), response := [], dataOut := [] }

/-- The rest of a leave walk (R121, R122), and the end of the command that makes it. Before each visit and after the
last one a tenth of the route clock or the end of the dwell compare may come first, since a long walk can run past the
target (R125): the command then stays EXECUTING, and the walk goes on when that row has been served. -/
def State.leaveOn (n : Seg) (entering : Option Seg) : List Nat → State × WalkCounts → State
  | [], x =>
    let y := x.1.tenthMeets
    if y.1 then y.2.holdWalk ⟨n, Config.slots, x.2, entering⟩
    else State.left n entering (y.2.beside, x.2)
  | slot :: slots, x =>
    let y := x.1.tenthMeets
    if y.1 then y.2.holdWalk ⟨n, slot, x.2, entering⟩
    else State.leaveOn n entering slots (State.visitBeside slot (State.settleSlot .command slot) (y.2, x.2))

/-- A leave walk begun (R121). -/
def State.leaveFrom (n : Seg) (entering : Option Seg) (s : State) : State :=
  State.leaveOn n entering (s.slotsOf n) (s.withSegments { s.segments with leaving := some n }, WalkCounts.none)

/-- The leave walk that a row of time has met, if there is one, goes on when that row has been served (R125). -/
def State.goOnLeaving (s : State) : State :=
  match s.command.unit with
  | .executing (.leaving w) =>
    State.leaveOn w.segment w.entering ((s.slotsOf w.segment).filter fun slot => decide (w.next ≤ slot)) (s, w.counts)
  | _ => s

/-- SEGMENT_ENTER (R120). With no segment left, R120 gives no counts and R173 gives FFh for the segment and its
state alone; the model sends 0 in the three counts (DESIGN CHOICE: log, entry 42). -/
def execSegmentEnter (segment : Byte) (s : State) : Result :=
  .next <| s.serve false fun s =>
    if s.route.state ≠ .opened then s.refuse .wrongState
    else
      match segOfParam segment with
      | none => s.refuse .badParam
      | some n =>
        if (s.segment n).state = .disabled then s.refuse .badParam
        else if (s.segment n).state = .active then
          s.reply .ok ([SegState.active.code, 0xFF, 0xFF] ++ WalkCounts.none.bytes)
        else
          match s.segments.active with
          | none =>
            let s1 := s.enter n
            s1.reply .ok ([(s1.segment n).state.code, 0xFF, 0xFF] ++ WalkCounts.none.bytes)
          | some left => s.leaveFrom left (some n)

/-- SEGMENT_LEAVE (R124). With no segment active the rule gives the segment and its state as none (FFh) and
says nothing of the redrive count, for which the model sends 0 (DESIGN CHOICE: log, entry 42). -/
def execSegmentLeave (s : State) : Result :=
  .next <| s.serve false fun s =>
    if s.route.state ≠ .opened then s.refuse .wrongState
    else
      match s.segments.active with
      | none => s.reply .ok ([0xFF, 0xFF, 0] ++ WalkCounts.none.bytes)
      | some n => s.leaveFrom n none

/-- An optional clock value with its presence byte (R172). -/
def optWordBytes : Option Word → List Byte
  | some w => 1 :: wordBytes w
  | none => 0 :: zeros 4

/-- A segment's position in the plan, or FFh for none (R173). -/
def planPosition (plan : List Seg) (n : Seg) : Byte :=
  if plan.contains n then natByte (plan.findIdx fun k => k == n) else 0xFF

/-- SEGMENT_STATUS (R129). -/
def execSegmentStatus (segment : Byte) (s : State) : Result :=
  .next <| s.serve false fun s =>
    match segOfParam segment with
    | none => s.refuse .badParam
    | some n =>
      let e := s.segment n
      s.reply .ok (
        halfBytes e.base ++ halfBytes e.limit ++ halfBytes e.dwell ++
        [e.state.code, boolByte e.visited, boolByte (e.state == .complete && !e.visited),
          natByte e.redrive] ++
        optWordBytes e.entryTime ++ [boolByte e.overrun] ++ natHalf e.members ++ natHalf e.outstanding ++
        natHalf e.done ++ natHalf e.faulted ++ [planPosition s.segments.plan n, segByte s.segments.active])

/-- A plan entry as PLAN_READ reports it (R130, R173). -/
def State.planEntryBytes (s : State) (n : Seg) : List Byte :=
  [natByte n.val, (s.segment n).state.code] ++ natHalf (s.segment n).outstanding

/-- PLAN_READ (R130). -/
def execPlanRead (s : State) : Result :=
  .next <| s.serve false fun s =>
    let shown := s.segments.plan.take 16
    s.reply .ok ([natByte s.segments.plan.length, segByte s.segments.active, natByte shown.length] ++
      shown.flatMap s.planEntryBytes)

/-- PLAN_MOVE (R127). -/
def execPlanMove (segment position : Byte) (s : State) : Result :=
  .next <| s.serve false fun s =>
    if s.route.state ≠ .loading ∧ s.route.state ≠ .opened then s.refuse .wrongState
    else
      match segOfParam segment with
      | none => s.refuse .badParam
      | some n =>
        let e := s.segment n
        let plan := planInsert (planWithout s.segments.plan n) position.toNat n
        match e.state with
        | .unvisited | .redrive => (s.putPlan plan).reply .ok [planPosition plan n]
        | .abandoned =>
          ((s.putSegment n { e with state := .redrive, redrive := 0 }).putPlan plan).reply .ok
            [planPosition plan n]
        | _ => s.refuse .wrongState

/-- The dwell compare expires when it is armed and the clock has reached its target (R125). -/
def State.dwellExpired (s : State) : State :=
  match s.segments.dwellTarget with
  | none => s
  | some target =>
    if s.route.clock.toNat < target then s
    else
      let s1 := match s.segments.active with
        | some n => s.putSegment n { s.segment n with overrun := true }
        | none => s
      (s1.raise .dwellOver).setDwell none

/-- DWELL_COMPARE_EXPIRE (R125): the clock has reached the armed target; a leave walk that it has met goes on. -/
def execDwellCompareExpire (s : State) : Result :=
  .next (if s.power ≠ .on then s else s.dwellExpired.goOnLeaving)

end Sys2Proof.Machine
end

