-- ==== Sys2Proof/Machine/RouteCommands.lean ====
section
/-! DEFINITION. The route's life (R132 to R141, R147): header, opening and the OPEN scan, closing,
clearing, the clock, and ROUTE_STATUS. -/

namespace Sys2Proof.Machine

/-! ### The header (R134) -/

/-- A header taken: written to the route area, copied by the assessment unit, the intake counters, the
clock and its checkpoint at 0, the route LOADING. -/
def State.beginRoute (h : Header) (s : State) : State :=
  let s1 := (s.withRoute { s.route with header := some h }).withMem (s.mem.writeItem 1 (headerItem (some h)))
  let s2 := (s1.withAssessment (some h.assessment)).withMatching { s1.matching with
    taken := 0, duplicates := 0, strangers := 0, faultHits := 0, drops := 0 }
  (s2.setClock 0).enterRouteState .loading

/-- ROUTE_HEADER (R134). -/
def execRouteHeader (p : HeaderParams) (s : State) : Result :=
  .next <| s.serve false fun s =>
    if s.route.state ≠ .empty then s.refuse .wrongState
    else
      match p.header with
      | none => s.refuse .badParam
      | some h => if h.inRange then (s.beginRoute h).reply .ok [] else s.refuse .badParam

/-! ### Opening (R117, R138) -/

/-- ROUTE_OPEN (R138): answered OK at once, SCANNING set for the OPEN scan. -/
def execRouteOpen (s : State) : Result :=
  .next <| s.serve false fun s =>
    if s.route.state ≠ .loading then s.refuse .wrongState
    else (s.withRoute { s.route with scanning := some .opening, openFailures := 0 }).reply .ok []

/-- The OPEN scan's visit of an occupied slot: its segment assigned and counted; a check failure is
counted, and the FAULT record keeps segment NONE (R138). -/
def State.openSlot (s : State) (slot : Nat) : State :=
  let taken := s.takeLine .scan slot
  if taken.2 then
    (taken.1.withRoute { taken.1.route with
      openFailures := taken.1.route.openFailures + 1 }).letGo slot
  else
    match taken.1.cached slot with
    | .live r =>
      let segment := taken.1.windowOf r.sequence
      if segment = r.segment then (taken.1.fileRecord slot r).letGo slot
      else (taken.1.putRecord slot { r with segment := segment }).letGo slot
    | _ => taken.1.letGo slot

/-- The settling of one enabled segment when the OPEN scan has filled the counters (R117). -/
def State.openSettle (s : State) (n : Seg) : State :=
  let e := s.segment n
  if e.enabled && e.outstanding == 0 then
    (s.putSegment n { e with state := .complete }).putPlan (planWithout s.segments.plan n)
  else s

/-- The OPEN scan: every occupied slot visited in ascending order, the segments settled, the clock
started at 0, the route OPEN, SCANNING cleared and SCAN_DONE raised (R117, R138). -/
def State.openScan (s : State) : State :=
  let visited := (s.directory.map (·.1)).foldl State.openSlot s
  let settled := (List.finRange 64).foldl State.openSettle visited
  let started := (settled.setClock 0).enterRouteState .opened
  (started.withRoute { started.route with scanning := none }).raise .scanDone

/-- A scan that has been asked for begins once the engine has let go of its frame in hand and the write
queue is empty (R133). -/
def State.scanReady (k : ScanKind) (s : State) : Bool :=
  s.power == .on && s.route.scanning == some k && s.matching.inHand.isNone && s.store.queue.isEmpty

/-- OPEN_SCAN (R138). -/
def execOpenScan (s : State) : Result :=
  if s.scanReady .opening then .next s.openScan else .next s

/-! ### Closing (R128, R139) -/

/-- The settling of one segment at the close: UNVISITED or REDRIVE becomes ABANDONED, or COMPLETE with
SEGMENT_DONE when nothing is outstanding (R128). -/
def State.closeSettle (s : State) (n : Seg) : State :=
  let e := s.segment n
  if e.state = .unvisited ∨ e.state = .redrive then
    if e.outstanding = 0 then (s.putSegment n { e with state := .complete }).raise .segmentDone
    else s.putSegment n { e with state := .abandoned }
  else s

/-- The route-wide pass over every occupied slot (R139, step 2). -/
def State.routePass (s : State) : State × WalkCounts :=
  (s.directory.map (·.1)).foldl (fun x slot => State.settleSlot .command slot x) (s, WalkCounts.none)

/-- The close's work once the gate is closed and the clock stopped: the frame in hand finished, the
active segment left, the route-wide pass, the segments settled, the cache written back, the route CLOSED
(R128, R139). The answer gives the segment left and the counts of both walks; the segment's state in it is
the one its leave gave it in step 1, before step 3 may make REDRIVE ABANDONED (DESIGN CHOICE: log, entry 43).
The gate is closed and no frame is in hand, so no frame is matched during the walks; and no batch is formed beside them
(log, entry 63). -/
def State.closeWork (s : State) : State × Option (Seg × SegState) × WalkCounts :=
  let finished := s.finishFrame
  let left : State × Option (Seg × SegState) × WalkCounts :=
    match finished.segments.active with
    | none => (finished, none, WalkCounts.none)
    | some n =>
      let x := finished.leave .command n
      (x.1, some (n, (x.1.segment n).state), x.2)
  let passed := left.1.routePass
  let settled := ((List.finRange 64).foldl State.closeSettle passed.1).putPlan []
  (settled.writeBack.enterRouteState .closed, left.2.1, left.2.2.plus passed.2)

/-- The segment left and its resulting state as a response gives them (R173). -/
def leftBytes : Option (Seg × SegState) → List Byte
  | some (n, state) => [segByte (some n), state.code]
  | none => [0xFF, 0xFF]

/-- ROUTE_CLOSE (R139). -/
def execRouteClose (s : State) : Result :=
  .next <| s.serve false fun s =>
    if s.route.state ≠ .opened then s.refuse .wrongState
    else
      let x := s.writeCheckpoint.closeWork
      x.1.reply .ok (leftBytes x.2.1 ++ x.2.2.bytes)

/-! ### Clearing (R140) -/

/-- Step 1 of ROUTE_CLEAR for one slot: its line dropped, its slot free and its free-slot image queued, with
the index entry's deletion granted to the command unit (R36). One access stands for the deletion's: the clearing of
the index after the last slot empties the write queue, oldest first, however many they are (R34).
What else a retirement does to the index, the buffer, the pool, the queue and the counters, steps 2 to 4
do for every record at once; the event sets are left as they are. -/
def State.clearSlot (s : State) (slot : Nat) : State :=
  let s1 := (s.takeLineFresh .command slot .free).grant .command
  ((s1.withDirectory (s1.directory.free slot)).dropLine slot).enqueue ⟨slot, .free⟩

/-- ROUTE_CLEAR (R140). The command unit clears the index, one access for each entry's write (R28, R36), and the
write queue empties meanwhile (R34). -/
def execRouteClear (s : State) : Result :=
  .next <| s.serve false fun s =>
    if s.route.state = .opened ∨ s.route.state = .empty then s.refuse .wrongState
    else if s.depot.engine ≠ .idle then s.refuse .inBatch
    else
      let slots := s.directory.map (·.1)
      ((slots.foldl State.clearSlot s).grants .command Config.indexEntries).emptyRoute.reply .ok (natHalf slots.length)

/-! ### The clock (R136, R137) -/

/-- Whether a clock value asks for a checkpoint as the running clock reaches it (R137). -/
def checkpointAt (v : Word) : Bool := v.toNat % 600 == 0 || v == 0xFFFFFFFF

/-- The running clock advances, holding at its maximum; at a moment of R137 the checkpoint of its value falls due. -/
def State.tenthPassed (s : State) : State :=
  let v := satInc s.route.clock
  s.withRoute { s.route with
    clock := v
    checkpointsDue := s.route.checkpointsDue ++
      if v != s.route.clock && checkpointAt v then [v] else [] }

/-- ROUTE_CLOCK_TICK (R136): a tenth passes while the clock runs; a leave walk that it has met goes on (R125), and so
does a report (R147). -/
def execRouteClockTick (s : State) : Result :=
  if s.power ≠ .on then .next s
  else .next (if s.clockRuns then s.tenthPassed.goOnLeaving else s).goOnReport

/-- The oldest checkpoint due written, with the clock's value at its moment (R137). -/
def State.writeDue (s : State) : State :=
  match s.route.checkpointsDue with
  | v :: rest => (s.withMem (s.mem.writeItem 4 (wordBytes v))).withRoute
      { s.route with checkpointsDue := rest }
  | [] => s

/-- CLOCK_CHECKPOINT (R137): the checkpoint that the running clock has come to is written. -/
def execClockCheckpoint (s : State) : Result :=
  .next (if s.clockRuns then s.writeDue else s)

/-! ### ROUTE_STATUS (R147) -/

/-- ROUTE_STATUS (R147): the values are read one after another, so that a frame matched during the command may move
a counter that was read before it. -/
def execRouteStatus (s : State) : Result :=
  .next <| s.serve true fun s => s.reportAll .route

end Sys2Proof.Machine
end

