-- ==== Sys2Proof/Machine/CommandPort.lean ====
section
/-! DEFINITION. The command port (R161 to R164, R168 to R172): collisions, malformed blocks, reading the
response, the event commands, FLUSH, and the write queue's own writing (R34). -/

namespace Sys2Proof.Machine

/-! ### Selections (R162, R163, R172) -/

/-- The direction byte of a write selection. -/
def writeDirection : Byte := 0x5A

/-- The direction byte of a read selection. -/
def readDirection : Byte := 0xA5

/-- The bytes a read selection of `n` clocks receives: the block, then 00h for every further byte. -/
def clockedOut (response : List Byte) (n : Nat) : List Byte := (response ++ zeros n).take n

/-- A read selection's end: a waiting response counts as read, however many bytes were clocked; with none
waiting the host receives 00h throughout and nothing changes (R162). -/
def State.readSelection (clocks : Nat) (s : State) : State :=
  if s.power = .on ∧ s.command.unit = .responding then
    s.withCommand { s.command with
      unit := .idle, response := [], dataOut := clockedOut s.command.response clocks }
  else s.withCommand { s.command with dataOut := zeros clocks }

/-- RESPONSE_READ (R162, R172): with another direction byte the host receives 00h and nothing changes. A
write direction is no read selection. -/
def execResponseRead (direction : Byte) (clocks : Nat) (s : State) : Result :=
  .next <|
    if direction = readDirection then s.readSelection clocks
    else if direction = writeDirection then s
    else s.withCommand { s.command with dataOut := zeros clocks }

/-- BAD_COMMAND_BLOCK (R164, R172): a malformed block is answered BAD_COMMAND, before the check for a
scan, or is a collision; a selection whose direction byte is neither is ignored, with 00h clocked out for
each of its bytes. A well-formed block is no occurrence of this row. -/
def execBadCommandBlock (direction : Byte) (block : List Byte) (s : State) : Result :=
  .next <|
    if direction = readDirection then s.readSelection block.length
    else if direction ≠ writeDirection then s.withCommand { s.command with dataOut := zeros block.length }
    else if (decodeBlock block).isSome then s
    else s.serve true fun s => s.refuse .badCommand

/-- COMMAND_COLLISION (R163): a block taken while the unit holds a command or a response. A halted unit
counts none (R161). -/
def execCommandCollision (s : State) : Result :=
  .next (if s.power = .on ∧ s.command.unit ≠ .idle then s.collide else s)

/-! ### Events (R169, R170) -/

/-- EVENTS_READ (R169): the pending set is reported as it stood, and the named events leave it. -/
def execEventsRead (clear : Half) (s : State) : Result :=
  .next <| s.serve true fun s =>
    (s.withEvents { s.events with pending := s.events.pending &&& ~~~clear.setWidth 10 }).reply .ok
      (eventBytes s.events.pending ++ eventBytes s.events.enabled ++ halfBytes s.command.collisions)

/-- EVENTS_ENABLE (R170): bits 10 to 15 are not read (R173). -/
def execEventsEnable (enable : Half) (s : State) : Result :=
  .next <| s.serve true fun s =>
    (s.withEvents { s.events with enabled := enable.setWidth 10 }).reply .ok
      (eventBytes s.events.pending)

/-! ### Writing back (R34, R42) -/

/-- FLUSH (R42): every DIRTY line's image is queued, and the command waits for the entries that then
stand in the queue. -/
def execFlush (s : State) : Result :=
  .next <| s.serve false fun s =>
    let cleaned := s.cleanLines
    cleaned.executing (.flush cleaned.store.queue.length)

/-- FLUSH_DRAIN_DONE (R42): a FLUSH with no entry left to wait for is answered OK. -/
def execFlushDrainDone (s : State) : Result :=
  match s.power, s.command.unit with
  | .on, .executing (.flush 0) => .next (s.respond .ok [])
  | _, _ => .next s

/-- WRITE_QUEUE_WRITE (R34). -/
def execWriteQueueWrite (s : State) : Result :=
  .next (if s.power = .on then s.writeOldest else s)

end Sys2Proof.Machine
end

