-- ==== Sys2Proof/Machine/RecordCommands.lean ====
section
/-! DEFINITION. The commands on records (R9 to R22, R165 to R167): RECORD_LOAD, RECORD_LOOKUP,
RECORD_AMEND, RECORD_NOTE, RECORD_RETIRE and RECORD_WALK. -/

namespace Sys2Proof.Machine

/-! ### Finding a record for a command -/

/-- What a command that names a record by serial meets (R33, R18). -/
inductive Found where
  /-- The serial is not on the route. -/
  | absent
  /-- The fill's check failed; the record is now FAULT. -/
  | failed (slot : Nat)
  /-- A FAULT record. -/
  | fault (slot : Nat) (segment : Option Seg)
  /-- A record, its line held. -/
  | record (slot : Nat) (r : Record)
  deriving DecidableEq, Repr

/-- A lookup for the command unit (R25). -/
def State.lookupFor (serial : Word) (s : State) : Option Nat × State :=
  ((s.mem.lookup serial), s.grants .command (s.mem.lookupAccesses serial))

/-- The serial's record sought and its line taken by the command unit; a slot that proves free, or to
carry another serial, leaves the serial absent (R33). -/
def State.find (serial : Word) (s : State) : Found × State :=
  match s.lookupFor serial with
  | (none, s1) => (.absent, s1)
  | (some slot, s1) =>
    let taken := s1.takeLine .command slot
    if taken.2 then (.failed slot, taken.1)
    else if (taken.1.directory.get slot).isNone then (.absent, taken.1.letGo slot)
    else
      match taken.1.cached slot with
      | .free => (.absent, taken.1.letGo slot)
      | .fault x segment =>
        if x = serial then (.fault slot segment, taken.1) else (.absent, taken.1.letGo slot)
      | .live r => if r.serial = serial then (.record slot r, taken.1) else (.absent, taken.1.letGo slot)

/-- A command's line let go, and its refusal (R161). -/
def State.refuseHolding (slot : Nat) (a : Answer) (s : State) : State := (s.letGo slot).refuse a

/-- A slot's record carries a batch field (R8), as the slot directory mirrors it (log, entry 19). -/
def State.inBatch (s : State) (slot : Nat) : Bool :=
  ((s.directory.get slot).map (·.batched)).getD false

/-! ### RECORD_LOAD (R9) -/

/-- A load taken: the record built in its line, the slot occupied, the serial inserted, the record
counted. -/
def State.load (p : LoadParams) (kind : Kind) (s : State) : State :=
  let slot := s.directory.lowestFree
  let segment := s.assignSegment p.sequence
  let r := Record.fresh p kind segment .pending
  let s1 := s.takeLineFresh .command slot (.live r)
  let s2 := (s1.withMem (s1.mem.insertSerial p.serial slot)).grants .command
    (s1.mem.insertAccesses p.serial)
  let s3 := (s2.withDirectory (s2.directory.set slot ⟨.live .pending, segment, [], false⟩)).report none
    (some ⟨segment, .live .pending⟩)
  (s3.letGo slot).reply .ok (natHalf slot)

/-- RECORD_LOAD (R9). -/
def execRecordLoad (p : LoadParams) (s : State) : Result :=
  .next <| s.serve false fun s =>
    if s.route.state ≠ .loading ∧ s.route.state ≠ .opened then s.refuse .wrongState
    else
      match Kind.ofCode p.kind with
      | none => s.refuse .badParam
      | some kind =>
        if !p.inRange s.params then s.refuse .badParam
        else
          let looked := s.lookupFor p.serial
          if looked.1.isSome then looked.2.refuse .exists_
          else if looked.2.directory.freeSlots = 0 then looked.2.refuse .full
          else looked.2.load p kind

/-! ### RECORD_LOOKUP (R165) -/

/-- An optional byte with its presence byte (R172). -/
def optByteBytes : Option Byte → List Byte
  | some b => [1, b]
  | none => [0, 0]

/-- A reading group with its presence byte, 16 bytes (R173). -/
def readingBytes : Option Reading → List Byte
  | some r =>
    1 :: (wordBytes r.value ++ wordBytes r.delta ++ [r.direction.code] ++ wordBytes r.time ++
      [natByte r.port.val, boolByte r.byProbe])
  | none => zeros 16

/-- The record of a RECORD_LOOKUP response, 75 bytes (R173). -/
def Record.lookupBytes (r : Record) (slot blocks : Nat) : List Byte :=
  natHalf slot ++ wordBytes r.serial ++ halfBytes r.sequence ++
  [segByte r.segment, r.kind.code, r.dials] ++ wordBytes r.previous ++ halfBytes r.previousDay ++
  halfBytes r.rate ++ [boolByte r.probeOnly] ++ optByteBytes r.powerRef ++ [r.status.code] ++
  readingBytes r.current ++ readingBytes r.candidate ++ [r.evidence.byte, r.score] ++
  optWordBytes r.flagTime ++ [r.marks.byte] ++ halfBytes r.hearCount ++ optWordBytes r.lastHeard ++
  optByteBytes r.bestSignal ++ optByteBytes r.batch ++ [natByte blocks]

/-- A FAULT record's 75 bytes: slot, serial, segment and status, every other byte 0 (R173). -/
def faultLookupBytes (slot : Nat) (serial : Word) (segment : Option Seg) : List Byte :=
  natHalf slot ++ wordBytes serial ++ [0, 0, segByte segment] ++ zeros 13 ++ [6] ++ zeros 52

/-- The extension contents of a RECORD_LOOKUP response (R173). -/
def extensionBytes (note : List Byte) (values : List Half) : List Byte :=
  natByte values.length :: values.flatMap halfBytes ++ natByte note.length :: note

/-- RECORD_LOOKUP (R165). A FAULT record has no extension contents: none are sent as empty ones. -/
def execRecordLookup (serial : Word) (wanted : Byte) (s : State) : Result :=
  .next <| s.serve false fun s =>
    if !isYesNo wanted then s.refuse .badParam
    else
      match s.find serial with
      | (.absent, s1) => s1.refuse .notFound
      | (.failed slot, s1) => s1.refuseHolding slot .hardError
      | (.fault slot segment, s1) =>
        (s1.letGo slot).reply .ok
          (faultLookupBytes slot serial segment ++ (if wanted = 1 then extensionBytes [] [] else []))
      | (.record slot r, s1) =>
        if wanted = 1 then
          let read := s1.readExtension .command slot r
          (read.1.letGo slot).reply .ok
            ((read.1.recordNow slot r).lookupBytes slot (read.1.chain slot).length ++
              extensionBytes read.2.note read.2.values)
        else (s1.letGo slot).reply .ok (r.lookupBytes slot (s1.chain slot).length)

/-! ### RECORD_AMEND (R14 to R16, R20) -/

/-- An evidence clear of a record (R15). -/
def Record.clearEvidence (r : Record) : Record :=
  let cleared := { r with evidence := Evidence.empty, score := 0 }
  match r.status with
  | .held => { cleared.commit with status := .read }
  | .flagged =>
    { cleared with
      status := .read, flagTime := none
      marks := { r.marks with unconfirmed := false, acknowledged := false } }
  | _ => cleared

/-- A re-read of a record (R16). -/
def Record.reRead (r : Record) : Record :=
  { r with
    status := .pending, current := none, candidate := none, flagTime := none
    evidence := Evidence.empty, score := 0
    marks := { r.marks with unconfirmed := false, acknowledged := false } }

/-- The record as it will stand after an amendment's action (R14). -/
def Record.afterAction (r : Record) : AmendAction → Record
  | .clearEvidence => r.clearEvidence
  | .reRead => r.reRead
  | _ => r

/-- The record with an amendment's field changes made, save the sequence's segment (R14). -/
def Record.withChanges (r : Record) (p : AmendParams) : Record :=
  { r with
    sequence := p.sequence.given.getD r.sequence
    dials := p.dials.given.getD r.dials
    previous := p.previous.given.getD r.previous
    previousDay := p.previousDay.given.getD r.previousDay
    rate := p.rate.given.getD r.rate
    probeOnly := (p.probeOnly.given.map (· == 1)).getD r.probeOnly
    powerRef :=
      if p.powerRef.presence = 1 then some p.powerRef.value
      else if p.powerRef.presence = 2 then none else r.powerRef }

/-- Check 5 of an amendment that is not a full rewrite: every field in range, judged on the record as it
will stand (R2, R14, R173). -/
def amendInRange (h : Header) (p : AmendParams) (after : Record) : Bool :=
  let changed := after.withChanges p
  p.wellCoded && p.kind.given.isNone && (p.dials.given.map dialsInRange).getD true &&
  (p.probeOnly.given.map isYesNo).getD true &&
  historyInRange h changed.dials changed.previous changed.previousDay

/-- Check 6: dials may change while there is neither reading nor candidate, P while the status is PENDING
or MISSED (R2, R14). -/
def amendAllowed (p : AmendParams) (after : Record) : Bool :=
  (p.dials.given.isNone || (after.current.isNone && after.candidate.isNone)) &&
  (p.previous.given.isNone || after.status == .pending || after.status == .missed)

/-- An amendment's answer: the resulting status, segment and score (R167). -/
def State.answerAmend (slot : Nat) (r : Record) (s : State) : State :=
  (s.letGo slot).reply .ok [r.status.code, segByte r.segment, r.score]

/-- An amendment taken on a record that is not FAULT: the action first, then the field changes; a changed
sequence reassigns the segment, a FLAGGED record that leaves FLAGGED leaves the queue, and the
recent-match entry is invalidated (R14 to R16). An action that changes the record's class and a changed sequence
together reach the segment unit as one report, from the old segment and class to the new ones, where R115 lists
a status change and a reassignment apart (DESIGN CHOICE: log, entry 48). -/
def State.amend (slot : Nat) (p : AmendParams) (r after : Record) (s : State) : State :=
  let changed := after.withChanges p
  let r' := match p.sequence.given with
    | some _ => { changed with segment := s.assignSegment changed.sequence }
    | none => changed
  let s1 := (s.putRecord slot r').forget slot
  let s2 := if r.status = .flagged ∧ r'.status ≠ .flagged then s1.removedReport slot else s1
  s2.answerAmend slot r'

/-- A full rewrite taken on a FAULT record: its new body, PENDING, or MISSED in CLOSED, built in a line taken
without a fill (R20, R32). -/
def State.rewrite (slot : Nat) (p : LoadParams) (kind : Kind) (s : State) : State :=
  let status := if s.route.state = .closed then LiveStatus.missed else .pending
  let r := Record.fresh p kind (s.assignSegment p.sequence) status
  ((((s.takeLineFresh .command slot (.live r)).setChain slot []).fileRecord slot r).forget
    slot).answerAmend slot r

/-- The checks and work of a full rewrite (R14, R20): it reads no record from memory, so the slot directory
tells whether the slot is occupied, whether its record carries a batch field, and whether it is FAULT (R32;
log, entry 19). -/
def State.fullRewrite (p : AmendParams) (s : State) : State :=
  match s.lookupFor p.serial with
  | (none, s1) => s1.refuse .notFound
  | (some slot, s1) =>
    match s1.directory.get slot with
    | none => s1.refuse .notFound
    | some d =>
      if d.batched then s1.refuse .inBatch
      else if d.status ≠ .fault then s1.refuse .wrongState
      else
        match p.rewrite, p.kind.given.bind Kind.ofCode with
        | some load, some kind =>
          if p.wellCoded && load.inRange s1.params then s1.rewrite slot load kind
          else s1.refuse .badParam
        | _, _ => s1.refuse .badParam

/-- The checks and work of RECORD_AMEND, but for a full rewrite, once the record's line is held (R14). -/
def State.amendFound (p : AmendParams) (found : Found) (s : State) : State :=
  let action := AmendAction.ofCode p.action
  match found with
  | .absent => s.refuse .notFound
  | .failed slot => s.refuseHolding slot .hardError
  | .fault slot _ => s.refuseHolding slot .faultRecord
  | .record slot r =>
    if r.batch.isSome then s.refuseHolding slot .inBatch
    else if action = some .reRead ∧ s.route.state = .closed then s.refuseHolding slot .wrongState
    else
      match action with
      | none => s.refuseHolding slot .badParam
      | some a =>
        let after := r.afterAction a
        if !amendInRange s.params p after then s.refuseHolding slot .badParam
        else if !amendAllowed p after then s.refuseHolding slot .wrongState
        else s.amend slot p r after

/-- RECORD_AMEND (R14). -/
def execRecordAmend (p : AmendParams) (s : State) : Result :=
  .next <| s.serve false fun s =>
    if AmendAction.ofCode p.action = some .fullRewrite then s.fullRewrite p
    else
      let found := s.find p.serial
      found.2.amendFound p found.1

/-! ### RECORD_NOTE (R11) -/

/-- A note's answer: the chain's resulting block count (R167). -/
def State.answerNote (slot : Nat) (s : State) : State :=
  (s.letGo slot).reply .ok [natByte (s.chain slot).length]

/-- The four cases of a note taken, by its length and the record's NOTE block (R11). -/
def State.note (slot : Nat) (text : List Byte) (r : Record) (s : State) : State :=
  let chain := s.chain slot
  match chain with
  | (n, .note) :: rest =>
    if text.isEmpty then
      (((s.freeChain [(n, .note)]).setChain slot rest).putRecord slot
        { r with firstBlock := headOf rest }).answerNote slot
    else (s.writeBlock .command n (.note (headOf rest) text)).answerNote slot
  | _ =>
    if text.isEmpty then s.answerNote slot
    else
      match s.lowestFreeBlock with
      | none => s.refuseHolding slot .full
      | some n =>
        ((((s.useBlock n).writeBlock .command n (.note (headOf chain) text)).setChain slot
          ((n, .note) :: chain)).putRecord slot
            { r with firstBlock := BitVec.ofNat 16 n }).answerNote slot

/-- RECORD_NOTE's search and work (R11). -/
def State.serveNote (serial : Word) (text : List Byte) (s : State) : State :=
  match s.find serial with
  | (.absent, s1) => s1.refuse .notFound
  | (.failed slot, s1) => s1.refuseHolding slot .hardError
  | (.fault slot _, s1) => s1.refuseHolding slot .faultRecord
  | (.record slot r, s1) =>
    if r.batch.isSome then s1.refuseHolding slot .inBatch else s1.note slot text r

/-- RECORD_NOTE (R11). An interval replacement in whose middle it allocates goes on once it is served (R12, R38). A
text of more than 57 characters makes a block longer than R172 allows, which is
answered BAD_COMMAND. -/
def execRecordNote (serial : Word) (text : List Byte) (s : State) : Result :=
  .next <| s.serve true fun s =>
    if 57 < text.length then s.refuse .badCommand
    else if s.isScanning then s.refuse .busy
    else if 24 < text.length then s.refuse .badParam
    else (s.serveNote serial text).goOnFrame

/-! ### RECORD_RETIRE (R22) -/

/-- RECORD_RETIRE (R22): the record is not read from memory; the slot directory tells whether the slot found
is occupied (R33) and whether its record carries a batch field (log, entry 19). -/
def execRecordRetire (serial : Word) (s : State) : Result :=
  .next <| s.serve false fun s =>
    match s.lookupFor serial with
    | (none, s1) => s1.refuse .notFound
    | (some slot, s1) =>
      if (s1.directory.get slot).isNone then s1.refuse .notFound
      else if s1.inBatch slot then s1.refuse .inBatch
      else
        let retired := (s1.retire .command slot serial).returnIfBare
        let emptied := s1.route.state == .closed && retired.route.state == .empty
        retired.reply .ok (natHalf slot ++ [boolByte emptied])

/-! ### RECORD_WALK (R166) -/

/-- A walk's entry for a record, 24 bytes (R173). -/
def Record.walkBytes (r : Record) (slot : Nat) : List Byte :=
  natHalf slot ++ wordBytes r.serial ++ halfBytes r.sequence ++
  [segByte r.segment, r.status.code, r.score, r.evidence.byte, r.marks.byte,
    packBits r.batch.isSome r.current.isSome false false false false false false] ++
  halfBytes r.hearCount ++ wordBytes (optValue r.current) ++ wordBytes (optDelta r.current)

/-- A walk's entry for a FAULT record: slot, serial, segment and status, every other byte 0 (R173). -/
def faultWalkBytes (slot : Nat) (serial : Word) (segment : Option Seg) : List Byte :=
  natHalf slot ++ wordBytes serial ++ [0, 0, segByte segment, 6] ++ zeros 14

/-- What a walk has so far: its entries in reverse, and where it ended when it has. -/
structure Walked where
  entries : List (List Byte)
  failing : Option Nat
  last : Option Nat
  deriving DecidableEq, Repr

/-- The walk's visit of one slot whose directory entry has passed: its line is taken, and let go (R166). -/
def State.walkSlot (set : Byte) (slot : Nat) (w : Walked) (s : State) : Walked × State :=
  let taken := s.takeLine .command slot
  if taken.2 then ({ w with failing := some slot, last := some slot }, taken.1.letGo slot)
  else
    let entry : Option (List Byte) :=
      match taken.1.cached slot with
      | .free => none
      | .fault serial segment =>
        if statusIn set .fault then some (faultWalkBytes slot serial segment) else none
      | .live r => if statusIn set (.live r.status) then some (r.walkBytes slot) else none
    match entry with
    | none => (w, taken.1.letGo slot)
    | some e =>
      ({ w with
        entries := e :: w.entries
        last := if w.entries.length = 7 then some slot else none }, taken.1.letGo slot)

/-- A slot's directory entry has a status copy in the set and a segment that passes the filter (R166). -/
def State.passesWalk (s : State) (set filter : Byte) (slot : Nat) : Bool :=
  (s.directory.get slot).any fun d => statusIn set d.status && passes filter d.segment

/-- The walk comes to one occupied slot (R166): it reads the directory entry, and visits the slot when that
passes. The matching engine, and the upload engine while it forms a batch, may be first before each of the two, so that
a record may change between the reading of its entry and the taking of its line (log, entries 39 and 63). -/
def State.walkOne (set filter : Byte) (slot : Nat) (w : Walked) (s : State) : Walked × State :=
  let read := s.beside
  if read.passesWalk set filter slot then
    let y := State.visitBeside slot (fun x => (x.1.walkSlot set slot x.2).swap) (read, w)
    (y.2, y.1)
  else (w, read)

/-- The walk over the slots, until it holds 8 entries or meets a check failure; frames are matched throughout, and each
fill is granted in turn (R36, R166). -/
def State.walk (set filter : Byte) : List Nat → Walked → State → Walked × State
  | [], w, s => (w, s)
  | slot :: rest, w, s =>
    if w.last.isSome then (w, s)
    else
      let x := s.walkOne set filter slot w
      State.walk set filter rest x.1 x.2

/-- The slots a walk comes to: the occupied ones from the starting slot up (R166). No frame changes which
slots are occupied. -/
def State.walkSlots (s : State) (start : Nat) : List Nat :=
  (s.directory.filter fun e => decide (start ≤ e.1)).map (·.1)

/-- The slot after the last one read, or end past slot 8,191 (R166, R173). -/
def resumeBytes : Option Nat → List Byte
  | some slot => if slot + 1 < Config.slots then natHalf (slot + 1) else halfBytes 0xFFFF
  | none => halfBytes 0xFFFF

/-- RECORD_WALK (R166). -/
def execRecordWalk (start : Half) (statuses filter : Byte) (s : State) : Result :=
  .next <| s.serve false fun s =>
    if Config.slots ≤ start.toNat ∨ !statusSetAllowed statuses ∨ !filterAllowed filter then
      s.refuse .badParam
    else
      let x := s.walk statuses filter (s.walkSlots start.toNat) ⟨[], none, none⟩
      let w := x.1
      let failing := match w.failing with
        | some slot => natHalf slot
        | none => halfBytes 0xFFFF
      x.2.reply (if w.failing.isSome then .hardError else .ok)
        (natByte w.entries.length :: (resumeBytes w.last ++ failing ++ w.entries.reverse.flatten))

end Sys2Proof.Machine
end

