-- ==== Sys2Proof/Machine/Upload.lean ====
section
/-! DEFINITION. The upload engine and the depot link (R148 to R160, R174): the forming of a batch with the rows that
meet it, verdicts, timeouts, docking, and the upload commands. -/

namespace Sys2Proof.Machine

/-! ### Codes (R173) -/

/-- Link state codes. -/
def LinkState.code : LinkState → Byte
  | .detached => 1 | .attached => 2 | .sending => 3 | .awaiting => 4 | .faulted => 5

/-- Engine state codes. -/
def EngineState.code : EngineState → Byte
  | .idle => 1 | .running => 2 | .stopping => 3

/-- The cursor's class, or 00h for start. -/
def cursorClass : Option Key → Byte
  | some k => k.status.code
  | none => 0

/-! ### Forming a batch (R152) -/

/-- The rows that can meet a forming batch in the middle: a command block and the matching engine's steps (R36, R152,
R159), a byte that may end a VERDICT (R154), the removal from the dock (R157), and a warning or loss of the supply
(R145). -/
def interposes (c : Instr) : Bool :=
  c.codeAndParams.isSome ||
  match c with
  | .frameTake | .frameMatch | .dockRemoval | .depotByte _ | .powerWarning | .powerLoss _ => true
  | _ => false

/-- A row that can meet a forming batch waits at the front of the queue. -/
def State.interposed (s : State) : Bool :=
  match s.pending with
  | c :: _ => interposes c
  | [] => false

/-- The unit that serves a row, where it is another one than the upload engine (R36). -/
def rowUnit (c : Instr) : Option Requester :=
  match c with
  | .frameTake | .frameMatch => some .matching
  | c => if c.codeAndParams.isSome then some .command else none

/-- The row's work begins with an access: a search of the index, or a fill (R36). -/
def State.rowNeeds (c : Instr) (s : State) : Bool :=
  match c with
  | .frameTake => s.matching.inHand.isNone && s.engineNeeds
  | .frameMatch => s.matching.inHand.isSome && s.engineNeeds
  | .recordLookup _ _ | .recordAmend _ | .recordNote _ _ | .recordRetire _ | .tamperAck _ => s.command.unit == .idle
  | .recordLoad _ => s.command.unit == .idle && (s.route.state == .loading || s.route.state == .opened)
  | .recordWalk start set filter =>
    s.command.unit == .idle &&
    ((s.walkSlots start.toNat).find? fun slot => s.passesWalk set filter slot).any fun slot => s.needsFill slot
  | _ => false

/-- A row that has come is served before the engine goes on from `w`: not when both wait for memory and the engine is
first in turn (R36). -/
def State.rowGoesFirst (w : Forming) (s : State) : Bool :=
  match s.pending with
  | c :: _ =>
    match rowUnit c with
    | some u => s.goesBefore u .upload (s.rowNeeds c) (w.needs s)
    | none => true
  | [] => false

/-- A row that has come has lost the turn: the engine makes the record read that was its own, and the row, which the
arbiter then has first, is served (R36). -/
def State.readAndYield (w : Forming) (s : State) : State :=
  match s.formRead w with
  | (none, s1) => s1
  | (some w1, s1) => s1.holdForming w1

/-- The forming of a batch from where it has got (R152). Between two record reads, while a row that can meet it stands
at the front of the queue, a free value says whether that row has come, and the arbiter's turn whether it goes first or
after one more read (R36; log, entry 57); the depot block then holds how far the forming has got. -/
def State.formOn : Nat → Forming → State → State
  | 0, w, s => s.holdForming w
  | n + 1, w, s =>
    match s.formRead w with
    | (none, s1) => s1
    | (some w1, s1) =>
      if s1.interposed then
        let s2 := s1.withDraws (s1.draws + 1)
        if Config.commandFirst s1.draws then
          if s1.rowGoesFirst w1 then s2.holdForming w1 else s2.readAndYield w1
        else State.formOn n w1 s2
      else State.formOn n w1 s1

/-- BATCH_FORM (R152, R158): a batch is formed, or its forming goes on where other rows were served between its
record reads. -/
def execBatchForm (s : State) : Result :=
  if s.mayForm then
    .next ((s.withDepot { s.depot with forming := none }).formOn s.formWork (s.depot.forming.getD Forming.start))
  else .next s

/-- OFFER_SENT (R152): the last byte of the OFFER has left the pin. -/
def execOfferSent (s : State) : Result :=
  .next <|
    if s.power = .on ∧ s.depot.link = .sending then
      s.withDepot { s.depot with
        link := .awaiting, timer := some s.params.verdictTimeout, sent := satInc s.depot.sent }
    else s

/-! ### The end of a batch (R155 to R157) -/

/-- A slot still holds the record that was offered from it. -/
def State.stillHolds (slot : Nat) (serial : Word) (s : State) : Bool :=
  (s.directory.get slot).isSome && s.mem.lookup serial == some slot

/-- The engine takes an offered record's line and changes the record; a record that is FAULT, or becomes
FAULT as its line is filled, is not changed. The answer says whether it was. -/
def State.changeOffered (slot : Nat) (f : Record → Record) (s : State) : State × Bool :=
  let taken := s.takeLine .upload slot
  match taken.1.cached slot with
  | .live r => ((taken.1.putRecord slot (f r)).letGo slot, true)
  | _ => (taken.1.letGo slot, false)

/-- A record whose batch was returned (R156). -/
def Record.returned (r : Record) : Record := { r with batch := none }

/-- A record the station has not accepted (R155). -/
def Record.refusedByDepot (r : Record) : Record :=
  { r with batch := none, marks := { r.marks with depotRefused := true } }

/-- One record of a returned batch (R156). -/
def State.returnOne (s : State) (e : Nat × Word) : State :=
  if s.stillHolds e.1 e.2 then (s.changeOffered e.1 Record.returned).1 else s

/-- The outstanding batch returned: batch fields removed, the number raised by 1, the cursor at start, the
verdict timer stopped, a marking under way ended (R156, R157). -/
def State.returnBatch (s : State) : State :=
  let s1 := s.depot.outstanding.foldl State.returnOne s
  s1.withDepot { s1.depot with
    outstanding := [], cursor := none, forming := none, timer := none
    batchNumber := s1.depot.batchNumber + 1 }

/-- One position of a taken verdict (R155). A record not accepted that a command met as bad, and so made FAULT, while
the batch waited is left FAULT and counted neither accepted nor refused, as R155 has it for a fill that fails at the
verdict itself (DESIGN CHOICE: log, entry 56). -/
def State.judgeOne (accepted : Half) (s : State) (e : Nat × (Nat × Word)) : State :=
  if !s.stillHolds e.2.1 e.2.2 then s
  else if accepted.getLsbD e.1 then
    let s1 := s.retire .upload e.2.1 e.2.2
    (s1.withDepot { s1.depot with accepted := satInc s1.depot.accepted }).returnIfBare
  else
    let x := s.changeOffered e.2.1 Record.refusedByDepot
    if x.2 then x.1.withDepot { x.1.depot with refused := satInc x.1.depot.refused } else x.1

/-- A STOPPING engine becomes IDLE once its batch is disposed of (R157). -/
def EngineState.afterBatch : EngineState → EngineState
  | .stopping => .idle
  | e => e

/-- A list's members with their positions from `i` on. -/
def positions {α : Type} : Nat → List α → List (Nat × α)
  | _, [] => []
  | i, x :: xs => (i, x) :: positions (i + 1) xs

/-- A verdict taken (R155). One that comes while the batch is still being marked judges the records marked so far, and
ends the marking (R154; DESIGN CHOICE: log, entry 57). -/
def State.takeVerdict (accepted : Half) (s : State) : State :=
  let s1 := (positions 0 s.depot.outstanding).foldl (State.judgeOne accepted)
    (s.withDepot { s.depot with timer := none })
  s1.withDepot { s1.depot with
    outstanding := [], forming := none, failures := 0, batchNumber := s1.depot.batchNumber + 1
    link := .attached, engine := s1.depot.engine.afterBatch }

/-- A good VERDICT judged against the outstanding batch (R154). -/
def State.verdict (number : Byte) (accepted : Half) (s : State) : State :=
  if !s.depot.outstanding.isEmpty && s.depot.batchNumber == number then s.takeVerdict accepted
  else s.withDepot { s.depot with stale := satInc s.depot.stale }

/-! ### The receiver (R149) -/

/-- The receiver assembles in ATTACHED, AWAITING and FAULTED. -/
def LinkState.receives : LinkState → Bool
  | .attached | .awaiting | .faulted => true
  | .detached | .sending => false

/-- A damaged frame is discarded and counted. -/
def State.damageDepot (s : State) : State :=
  s.withDepot { s.depot with rx := [], damaged := satInc s.depot.damaged }

/-- A frame of eight bytes is a good VERDICT (R149, R174). -/
def verdictGood (bs : List Byte) : Bool :=
  byteAt bs 2 == 2 && crc16 ((bs.drop 1).take 5) == halfAt bs 6

/-- The receiver's bytes with a byte gathered. -/
def State.gatherDepot (bs : List Byte) (s : State) : State := s.withDepot { s.depot with rx := bs }

/-- DEPOT_BYTE (R149, R154): hunting, the length byte, gathering, and the judgement of a whole frame. -/
def execDepotByte (b : Byte) (s : State) : Result :=
  .next <|
    if s.power ≠ .on ∨ !s.depot.link.receives then s
    else
      let bs := s.depot.rx ++ [b]
      if s.depot.rx = [] then (if b = 0xA6 then s.gatherDepot bs else s)
      else if s.depot.rx.length = 1 then (if b = 8 then s.gatherDepot bs else s.damageDepot)
      else if bs.length < 8 then s.gatherDepot bs
      else if verdictGood bs then (s.gatherDepot []).verdict (byteAt bs 3) (halfAt bs 4)
      else s.damageDepot

/-- DEPOT_BYTE_GAP_TIMEOUT (R149): a frame whose next byte is more than 20 ms late is given up. -/
def execDepotByteGapTimeout (s : State) : Result :=
  .next (if s.power = .on ∧ s.depot.rx ≠ [] then s.damageDepot else s)

/-- VERDICT_TIMEOUT (R156). -/
def execVerdictTimeout (s : State) : Result :=
  .next <|
    if s.power ≠ .on ∨ s.depot.timer.isNone ∨ s.depot.outstanding.isEmpty then s
    else
      let s1 := s.returnBatch
      let failures := s1.depot.failures + 1
      let counted := { s1.depot with timeouts := satInc s1.depot.timeouts, failures := failures }
      if 3 ≤ failures then
        (s1.withDepot { counted with link := .faulted, engine := .idle }).raise .depotFault
      else s1.withDepot { counted with link := .attached, engine := s1.depot.engine.afterBatch }

/-! ### Docking (R148, R157) -/

/-- DOCK_ATTACH (R148). -/
def execDockAttach (s : State) : Result :=
  .next <|
    let sensed := s.withDepot { s.depot with dockSense := true }
    if s.power = .on ∧ s.depot.link = .detached then
      sensed.withDepot { sensed.depot with link := .attached }
    else sensed

/-- DOCK_REMOVAL (R157): an outstanding batch is returned without a failure counted, and a survey or a marking under
way ends. -/
def execDockRemoval (s : State) : Result :=
  .next <|
    let sensed := s.withDepot { s.depot with dockSense := false }
    if s.power = .on then
      let s1 := sensed.withDepot { sensed.depot with link := .detached, timer := none, forming := none }
      let s2 := if s1.depot.outstanding.isEmpty then s1 else s1.returnBatch
      s2.withDepot { s2.depot with engine := .idle }
    else sensed

/-! ### Commands (R150, R157, R160) -/

/-- UPLOAD_START (R150). -/
def execUploadStart (s : State) : Result :=
  .next <| s.serve false fun s =>
    if s.route.state ≠ .closed ∨ s.depot.engine ≠ .idle then s.refuse .wrongState
    else
      match s.depot.link with
      | .attached | .faulted =>
        (s.withDepot { s.depot with
          link := .attached, failures := 0, cursor := none, engine := .running }).reply .ok []
      | _ => s.refuse .wrongState

/-- UPLOAD_STOP (R157): with no batch outstanding a survey under way ends; a marking that has begun goes on. -/
def execUploadStop (s : State) : Result :=
  .next <| s.serve false fun s =>
    (match s.depot.engine with
      | .running =>
        if s.depot.outstanding.isEmpty then s.withDepot { s.depot with engine := .idle, forming := none }
        else s.withDepot { s.depot with engine := .stopping }
      | _ => s).reply .ok []

/-- The verdict timer's time left after some real time, a free value from 0 to what was left before
(log, entry 5); a stopped timer stays stopped. -/
def timeLeftNow (n : Nat) : Option Byte → Option Byte
  | some left => some (natByte (Config.timeLeft n % (left.toNat + 1)))
  | none => none

/-- Real time has passed: a running verdict timer has counted down (R150, R152). -/
def State.timePassed (s : State) : State :=
  (s.withDepot { s.depot with timer := timeLeftNow s.draws s.depot.timer }).withDraws (s.draws + 1)

/-- The response data of UPLOAD_STATUS, 53 bytes (R160, R173). -/
def State.uploadStatusBytes (s : State) : List Byte :=
  let d := s.depot
  [d.link.code, boolByte d.dockSense, d.engine.code, d.batchNumber, natByte d.outstanding.length] ++
  (d.outstanding.flatMap (fun e => natHalf e.1) ++ zeros 32).take 32 ++
  [cursorClass d.cursor, natByte d.failures] ++ optByteBytes d.timer ++ halfBytes d.sent ++
  halfBytes d.accepted ++ halfBytes d.refused ++ halfBytes d.timeouts ++ halfBytes d.damaged ++
  halfBytes d.stale

/-- UPLOAD_STATUS (R160): the verdict timer's time left is the one at the report. -/
def execUploadStatus (s : State) : Result :=
  .next <| s.serve true fun s => s.timePassed.reply .ok s.timePassed.uploadStatusBytes

end Sys2Proof.Machine
end

