-- ==== Sys2Proof/WellFormed.lean ====
section
/-! DEFINITION. Well-formedness of commands: what a row's operands must satisfy to be an occurrence of
that row at all. Ranges that a command's own rule checks are not among them. -/

namespace Sys2Proof

open Machine

/-- A list of bytes of record memory, each at an address it has. -/
def cellsInMemory (cells : List (Nat × Byte)) : Bool :=
  cells.all fun c => decide (c.1 < Config.memoryBytes)

/-- What a supply failure catches is a place of record memory, of the size its layout gives (R23, R175). -/
def Loss.wellFormed : Loss → Bool
  | .clean => true
  | .cutQueueWrite _ => true
  | .cutBlockWrite block image _ => decide (block < Config.blocks) && image.length == 32
  | .cutItemWrite item contents _ => decide (item < itemCount) && contents.length == itemSize item
  | .backupLost cells => cellsInMemory cells

/-- A note's text fits the longest block there is (R172), a bad command block is one (R164), a read selection
is no write selection and the other way round (R172), and a supply failure catches a place of memory. -/
def Instr.wellFormed : Instr → Bool
  | .recordNote _ text => decide (text.length ≤ 57)
  | .badCommandBlock direction block =>
    direction != 0xA5 && (direction != 0x5A || (decodeBlock block).isNone)
  | .responseRead direction _ => direction != 0x5A
  | .powerLoss loss => loss.wellFormed
  | _ => true

end Sys2Proof
end

