-- ==== Sys2Proof/Machine/Power.lean ====
section
/-! DEFINITION. Power and restarts (R142 to R146): power-up, initialisation, the RECOVERY scan, the power
warning, PART_RESET and the loss of the supply. -/

namespace Sys2Proof.Machine

/-! ### The route area read back (R135) -/

/-- The route signature is valid: every item has a good copy and the signature holds its pattern. -/
def Memory.signatureValid (m : Memory) : Bool :=
  (List.range itemCount).all (fun i => (m.readItem i).isSome) && m.readItem 0 == some signaturePattern

/-- An item's contents as read back; no bytes without a good copy. -/
def Memory.item (m : Memory) (i : Nat) : List Byte := (m.readItem i).getD []

/-- The route state, active segment number, segment entries, plan, checkpoint and header taken from the
route area, with the assessment unit's copy and the clock (R82, R131, R136, R143). -/
def State.loadRouteArea (s : State) : State :=
  let header := headerOfItem (s.mem.item 1)
  ((s.withRoute { s.route with
      state := RouteState.ofByte (byteAt (s.mem.item 2) 0)
      header := header
      clock := wordAt (s.mem.item 4) 0 }).withAssessment (header.map Header.assessment)).withSegments
    { entries := Vector.ofFn fun n => segmentOfItem (s.mem.item (5 + n.val))
      plan := planOfItem (s.mem.item 3)
      active := segOfByte (byteAt (s.mem.item 2) 1)
      dwellTarget := none
      leaving := none }

/-! ### Power-up (R142) -/

/-- The on-chip state without power or right after it comes: every block at its power-up values, the link
set by dock-sense. Record memory, the level of dock-sense and what waits outside are not on chip. -/
def State.freshChip (power : Power) (s : State) : State :=
  { State.reset with
    pending := s.pending
    power := power
    mem := s.mem
    depot := { Depot.reset with
      dockSense := s.depot.dockSense
      link := if s.depot.dockSense then .attached else .detached }
    command := { Command.reset with dataOut := s.command.dataOut }
    events := ⟨0, 0⟩
    draws := s.draws }

/-- Record memory initialised: the route EMPTY, SCAN_DONE raised (R142). -/
def State.initialised (s : State) : State := (s.withMem s.mem.initialise).raise .scanDone

/-- A start: with a valid signature the route area is read and SCANNING set for the RECOVERY scan, else
record memory is initialised (R142, R146). -/
def State.restart (start : StartKind) (s : State) : State :=
  let fresh := s.freshChip .on
  if s.mem.signatureValid then
    let loaded := fresh.loadRouteArea
    loaded.withRoute { loaded.route with scanning := some .recovery, lastStart := start }
  else fresh.initialised

/-- POWER_UP (R142): from the halt after a power warning, or from no supply. -/
def execPowerUp (s : State) : Result :=
  .next (if s.power = .on then s else s.restart .recovered)

/-- PART_RESET (R146): the frame in hand finished, the upload ended, the cache written back, the
checkpoint written, and every block restarted. It is not answered. -/
def execPartReset (s : State) : Result :=
  .next <| s.serve false fun s =>
    (s.finishFrame.writeBack.writeCheckpoint.restart .reset).written

/-! ### The power warning (R43, R57, R59, R145) -/

/-- A port as the warning leaves it. -/
def Port.warned (x : Port) : Port := { x with gathered := [], buffer := [], pulsing := false }

/-- A line that a unit holds is discarded. -/
def Line.discardHeld (l : Line) : Line := if l.holder.isSome then ⟨none, none⟩ else l

/-- Every unit's work ended as R145 lists it, and the tamper queue lost with its counters (R102). -/
def State.endWork (s : State) : State :=
  (((((((s.withPorts (s.ports.map Port.warned)).withMatching { s.matching with inHand := none }).withStore
    { s.store with lines := s.store.lines.map Line.discardHeld }).withCommand
    { s.command with unit := .idle, response := [] }).withTamper
    { s.tamper with entries := [], evictions := 0, turnedAway := 0, pulseRunning := false }).withRoute
    { s.route with scanning := none }).withSegments { s.segments with leaving := none }).withDepot
    { s.depot with forming := none }

/-- POWER_WARNING (R145): the work ended, the DIRTY lines and the queue drained, the checkpoint written,
and the 460 halted. -/
def execPowerWarning (s : State) : Result :=
  .next (if s.power = .on then s.endWork.writeBack.writeCheckpoint.withPower .halted else s)

/-! ### The loss of the supply (R23, R34, R35, R135) -/

/-- Bytes of a write that was cut short, written from an address on. -/
def Memory.writeCut {w : Nat} (m : Memory) (a : Nat) (arrived : BitVec w) (image : List Byte) : Memory :=
  m.writeBytes a (mixBytes arrived 0 image (m.readBytes a image.length))

/-- Record memory as a failing supply leaves it. A write can be under way only while the 460 works. -/
def State.memAfter (s : State) : Loss → Memory
  | .clean => s.mem
  | .cutQueueWrite arrived =>
    match s.power, s.store.queue with
    | .on, q :: _ => s.mem.writeCut (slotAddress q.slot) arrived q.contents.image
    | _, _ => s.mem
  | .cutBlockWrite block image arrived =>
    if s.power = .on then s.mem.writeCut (blockAddress block) arrived image else s.mem
  | .cutItemWrite item contents arrived =>
    if s.power = .on then
      let next := s.mem.nextCopy item
      s.mem.writeCut (copyAddress item next.1) arrived (copyImage next.2 contents)
    else s.mem
  | .backupLost cells => cells.foldl (fun m c => m.write c.1 c.2) Memory.allZero

/-- POWER_LOSS (R23). An operand that names no place of record memory stops the step. -/
def execPowerLoss (loss : Loss) (s : State) : Result :=
  if loss.wellFormed then .next ((s.withMem (s.memAfter loss)).freshChip .off)
  else .fault .outsideRecordMemory

/-! ### The RECOVERY scan: one slot (R143) -/

/-- The scan as it goes: the machine, the slots that became FAULT in this scan, and the queue's entries to
be. -/
structure Scan where
  state : State
  failed : List Nat
  flagged : List TamperEntry
  deriving DecidableEq, Repr

/-- What the scan reads of a slot: its bytes, and whether its check holds. -/
structure SlotRead where
  bytes : List Byte
  good : Bool
  deriving DecidableEq, Repr

/-- A slot read through a line held by the scan. -/
def State.scanRead (slot : Nat) (s : State) : SlotRead × State :=
  match s.lineOf slot with
  | some i => (⟨(s.cached slot).image, true⟩, s.hold .scan i (s.line i).body)
  | none =>
    let s1 := s.evict s.victim
    match s1.queued slot with
    | some c => (⟨c.image, true⟩, s1.hold .scan s.victim (some ⟨slot, false, c⟩))
    | none =>
      let bs := s1.mem.slotBytes slot
      let good := checkHolds 64 bs
      (⟨bs, good⟩,
        s1.hold .scan s.victim (some ⟨slot, false, if good then Contents.ofBytes bs else .free⟩))

/-- One more in a count of the scan's results. -/
def State.countOccupied (s : State) : State :=
  s.withRoute { s.route with scanOccupied := satInc s.route.scanOccupied }
/-- One more check failure of the scan. -/
def State.countFailure (s : State) : State :=
  s.withRoute { s.route with scanFailures := satInc s.route.scanFailures }
/-- One more block cut by the scan. -/
def State.countCut (s : State) : State :=
  s.withRoute { s.route with scanCut := satInc s.route.scanCut }

/-- A slot written free and counted as discarded. -/
def State.discard (slot : Nat) (s : State) : State :=
  let s1 := (s.dropLine slot).enqueue ⟨slot, .free⟩
  s1.withRoute { s1.route with scanDiscarded := satInc s1.route.scanDiscarded }

/-- A kept record entered: its serial in the index, its directory entry, its counters (R115). -/
def State.enroll (slot : Nat) (serial : Word) (status : Status) (segment : Option Seg) (s : State) :
    State :=
  let s1 := s.withMem (s.mem.insertSerial serial slot)
  (s1.withDirectory (s1.directory.set slot ⟨status, segment, [], false⟩)).report none (some ⟨segment, status⟩)

/-- The segment of a record that is FAULT: NONE in LOADING, else the one named when it is enabled. -/
def State.faultSegment (named : Option Seg) (s : State) : Option Seg :=
  if s.route.state = .loading then none
  else
    match named with
    | some n => if (s.segment n).enabled then some n else none
    | none => none

/-- A record of the scan as it stands after the changes R143 makes to it. -/
def State.recovered (r : Record) (s : State) : Record :=
  let placed := { r with
    batch := none
    segment := if s.route.state = .loading then none else s.windowOf r.sequence }
  if s.route.state = .closed then
    match placed.status with
    | .pending => { placed with status := .missed }
    | .held => placed.flagUnconfirmed s.route.clock
    | _ => placed
  else placed

/-- What a chain walk reaches: the good blocks with their kinds, and whether it ended on a bad one. -/
structure ChainWalk where
  blocks : List (Nat × BlockKind)
  cut : Bool
  deriving DecidableEq, Repr

/-- A chain walked from its links in memory: a block is cut when its number is out of range or already
claimed, when it is bad by itself, or when it breaks the form of R10 (R19, R143). -/
def Memory.walkChain (m : Memory) : Nat → List Nat → Half → Bool → Nat → ChainWalk
  | 0, _, number, _, _ => ⟨[], number != endMarker⟩
  | fuel + 1, claimed, number, first, intervals =>
    if number = endMarker then ⟨[], false⟩
    else if Config.blocks ≤ number.toNat ∨ number.toNat ∈ claimed then ⟨[], true⟩
    else
      match Block.ofBytes (m.blockBytes number.toNat) with
      | none => ⟨[], true⟩
      | some b =>
        let fits := match b.kind with
          | .note => first
          | .interval => decide (intervals < 2)
        if fits then
          let rest := m.walkChain fuel (number.toNat :: claimed) b.next false
            (intervals + if b.kind = .interval then 1 else 0)
          ⟨(number.toNat, b.kind) :: rest.blocks, rest.cut⟩
        else ⟨[], true⟩

/-- The chain of a kept record rebuilt: its blocks marked in use, and a cut made and counted (R19). -/
def State.recoverChain (slot : Nat) (r : Record) (s : State) : State :=
  let walk := s.mem.walkChain 4 s.store.usedBlocks r.firstBlock true 0
  let s1 := (walk.blocks.foldl (fun s b => s.useBlock b.1) s).setChain slot walk.blocks
  if walk.cut then (s1.cutChain .scan slot r walk.blocks.length).countCut else s1

/-- A record whose check holds and whose serial is new: it stands as read, with R143's changes. -/
def Scan.keep (slot : Nat) (contents : Contents) (x : Scan) : Scan :=
  let s := x.state
  match contents with
  | .free => x
  | .fault serial named =>
    let segment := s.faultSegment named
    let s1 := if segment = named then s else s.putContents slot (.fault serial segment)
    { x with state := s1.enroll slot serial .fault segment }
  | .live r =>
    let r' := s.recovered r
    let s1 := if r' = r then s else s.putContents slot (.live r')
    let s2 := (s1.enroll slot r'.serial (.live r'.status) r'.segment).recoverChain slot r'
    { x with
      state := s2
      flagged :=
        if r'.status = .flagged ∧ !r'.marks.acknowledged then insertRanked (r'.tamperEntry slot) x.flagged
        else x.flagged }

/-- A record whose check fails: FAULT, with the serial and segment of its own fields (R143). -/
def Scan.fail (slot : Nat) (bytes : List Byte) (x : Scan) : Scan :=
  let s := x.state
  let segment := s.faultSegment (segOfParam (byteAt bytes 6))
  let s1 := (s.putContents slot (.fault (wordAt bytes 0) segment)).enroll slot (wordAt bytes 0) .fault
    segment
  { x with state := (s1.countFailure).raise .recordFault, failed := slot :: x.failed }

/-- The earlier slot of a swap: written free, its index entry, directory entry and counts removed. -/
def Scan.dismiss (earlier : Nat) (serial : Word) (x : Scan) : Scan :=
  let s := x.state
  let s1 := (s.withMem (s.mem.deleteSerial serial)).withDirectory (s.directory.free earlier)
  { x with
    state := (s1.report (s.place earlier) none).discard earlier
    failed := x.failed.filter fun n => n != earlier }

/-- The scan's treatment of one slot, by the first case of R143 that applies. A slot that is discarded, on an EMPTY
route or for its repeated serial, is counted as discarded and, whatever its check byte shows, not among the check
failures found (R143, R144; DESIGN CHOICE: log, entry 55). -/
def Scan.slot (x : Scan) (slot : Nat) : Scan :=
  let read := x.state.scanRead slot
  let serial := wordAt read.1.bytes 0
  let x1 := { x with state := read.2 }
  let contents := Contents.ofBytes read.1.bytes
  let treated :=
    if serial = 0 ∨ serial = 0xFFFFFFFF then x1
    else
      let counted := { x1 with state := x1.state.countOccupied }
      let settle (y : Scan) : Scan := if read.1.good then y.keep slot contents else y.fail slot read.1.bytes
      if counted.state.route.state = .empty then { counted with state := counted.state.discard slot }
      else
        match counted.state.mem.lookup serial with
        | none => settle counted
        | some earlier =>
          if read.1.good && counted.failed.contains earlier then settle (counted.dismiss earlier serial)
          else { counted with state := counted.state.discard slot }
  { treated with state := treated.state.letGo slot }

/-- The scan's beginning: the route area read, the index, buffer, directory, free map, counters and tamper
queue emptied (R143). -/
def State.beginRecovery (s : State) : State :=
  let s1 := s.loadRouteArea
  let s2 := (((s1.withMem s1.mem.clearIndex).withMatching { s1.matching with buffer := [] }).withDirectory
    []).withStore { s1.store with usedBlocks := [] }
  (s2.withTamper { s2.tamper with entries := [], evictions := 0, turnedAway := 0 }).withRoute
    { s2.route with scanOccupied := 0, scanFailures := 0, scanCut := 0, scanDiscarded := 0 }

/-! ### The RECOVERY scan: its finish (R131, R144) -/

/-- A segment whose state puts it in the plan. -/
def Segment.planned (e : Segment) : Bool := e.state == .unvisited || e.state == .redrive

/-- The plan made to agree with the segment states (R131). -/
def State.agreePlan (s : State) : State :=
  let kept := s.segments.plan.filter fun n => (s.segment n).planned
  s.putPlan (kept ++ (List.finRange 64).filter fun n => (s.segment n).planned && !kept.contains n)

/-- A segment counts as recorded ACTIVE (R131). -/
def State.recordedActive (s : State) (n : Seg) : Bool :=
  let e := s.segment n
  e.state == .active ||
    (s.segments.active == some n &&
      (e.state == .unvisited || e.state == .redrive || e.state == .abandoned))

/-- One segment recorded as ACTIVE left by the scan, the walk's check failures counted (R144). -/
def State.leaveRecorded (s : State) (n : Seg) : State :=
  let x := s.leave .scan n
  (List.replicate x.2.failures ()).foldl (fun s _ => s.countFailure) x.1

/-- The segments recorded as ACTIVE left, in OPEN; no segment is active after recovery (R113, R131). A segment whose
item reads ACTIVE in a route that is not OPEN, on which R131 is silent, is not left: it keeps its state ACTIVE, out of
the plan, with the active number none (DESIGN CHOICE: log, entry 64). -/
def State.leaveActive (s : State) : State :=
  let left :=
    if s.route.state = .opened then
      ((List.finRange 64).filter s.recordedActive).foldl State.leaveRecorded s
    else s
  left.putActive none

/-- One segment whose rebuilt counter disagrees with its state settled (R131). -/
def State.settleRecovered (s : State) (n : Seg) : State :=
  let e := s.segment n
  match e.state with
  | .unvisited | .redrive | .abandoned => if e.outstanding = 0 then s.complete n else s
  | .complete => if e.outstanding ≠ 0 then s.reopen n else s
  | _ => s

/-- The segments settled in OPEN and CLOSED. In LOADING every segment stays as its item reads, which R114 has
as UNVISITED while its window is enabled: a segment whose item reads COMPLETE there, as a supply lost in the
OPEN scan's settling can leave it, stays COMPLETE and out of the plan (DESIGN CHOICE: log, entries 16
and 44). They are taken in ascending segment number, so that several that reopen in OPEN join the plan's tail in that
order, for which R119, R131 and R144 give none (DESIGN CHOICE: log, entry 53). -/
def State.settleAll (s : State) : State :=
  if s.route.state = .opened ∨ s.route.state = .closed then
    (List.finRange 64).foldl State.settleRecovered s
  else s

/-- The RECOVERY scan from its beginning to SCAN_DONE (R143, R144). -/
def State.recover (s : State) : State :=
  let x := (List.range Config.slots).foldl Scan.slot ⟨s.beginRecovery, [], []⟩
  let listed := x.state.withTamper { x.state.tamper with
    entries := x.flagged.take Config.tamperEntries }
  let settled := listed.agreePlan.leaveActive.settleAll
  (settled.withRoute { settled.route with scanning := none }).raise .scanDone

/-- RECOVERY_SCAN (R143, R144). -/
def execRecoveryScan (s : State) : Result :=
  .next (if s.scanReady .recovery then s.recover else s)

end Sys2Proof.Machine
end

