-- ==== Sys2Proof/Machine/TamperCommands.lean ====
section
/-! DEFINITION. The commands on the tamper queue and the cab indicator (R107 to R112). -/

namespace Sys2Proof.Machine

/-- A tamper queue entry as TAMPER_READ reports it, 13 bytes (R109, R173). -/
def TamperEntry.bytes (e : TamperEntry) : List Byte :=
  natHalf e.slot ++ wordBytes e.serial ++ [e.score, e.evidence.byte] ++ wordBytes e.flagTime ++
  [boolByte e.unconfirmed]

/-- TAMPER_READ (R109). -/
def execTamperRead (s : State) : Result :=
  .next <| s.serve false fun s =>
    let shown := s.tamper.entries.take 8
    s.reply .ok (
      [natByte s.tamper.entries.length] ++ halfBytes s.tamper.evictions ++ halfBytes s.tamper.turnedAway ++
      [s.tamper.cabMode.code, boolByte s.tamper.invert, boolByte s.cabActive, natByte shown.length] ++
      shown.flatMap TamperEntry.bytes)

/-- TAMPER_ACK (R107). -/
def execTamperAck (serial : Word) (s : State) : Result :=
  .next <| s.serve false fun s =>
    match s.find serial with
    | (.absent, s1) => s1.refuse .notFound
    | (.failed slot, s1) => s1.refuseHolding slot .hardError
    | (.fault slot _, s1) => s1.refuseHolding slot .faultRecord
    | (.record slot r, s1) =>
      if r.batch.isSome then s1.refuseHolding slot .inBatch
      else if r.status ≠ .flagged then s1.refuseHolding slot .wrongState
      else
        let listed := s1.listed slot
        let s2 :=
          if r.marks.acknowledged then s1
          else (s1.putRecord slot { r with marks := { r.marks with acknowledged := true } }).removedReport slot
        (s2.letGo slot).reply .ok [r.score, boolByte listed]

/-- CAB_MODE (R112): a change of mode stops the pulse timer. -/
def execCabMode (mode invert : Byte) (s : State) : Result :=
  .next <| s.serve false fun s =>
    match CabMode.ofCode mode with
    | none => s.refuse .badParam
    | some m =>
      if !isYesNo invert then s.refuse .badParam
      else
        (s.withTamper { s.tamper with
          cabMode := m, invert := invert == 1
          pulseRunning := s.tamper.pulseRunning && s.tamper.cabMode == m }).reply .ok []

/-- PULSE_TIMER_EXPIRE (R111): a running pulse timer runs out. -/
def execPulseTimerExpire (s : State) : Result :=
  if s.power = .on ∧ s.tamper.pulseRunning then
    .next (s.withTamper { s.tamper with pulseRunning := false })
  else .next s

end Sys2Proof.Machine
end

