-- ==== Sys2Proof/Machine/Dispatch.lean ====
section
/-! DEFINITION. Dispatch: one arm per command, one direct call of its meaning. -/

namespace Sys2Proof.Machine

/-- A command's effect on everything but the queue of waiting commands. -/
def exec (i : Instr) (s : State) : Host.Outcome State Fault Refusal :=
  match i with
  | .routeHeader p => Sys2Proof.Machine.execRouteHeader p s
  | .routeOpen => Sys2Proof.Machine.execRouteOpen s
  | .openScan => Sys2Proof.Machine.execOpenScan s
  | .routeClose => Sys2Proof.Machine.execRouteClose s
  | .routeClear => Sys2Proof.Machine.execRouteClear s
  | .routeStatus => Sys2Proof.Machine.execRouteStatus s
  | .recordLoad p => Sys2Proof.Machine.execRecordLoad p s
  | .recordLookup serial wanted => Sys2Proof.Machine.execRecordLookup serial wanted s
  | .recordAmend p => Sys2Proof.Machine.execRecordAmend p s
  | .recordNote serial text => Sys2Proof.Machine.execRecordNote serial text s
  | .recordRetire serial => Sys2Proof.Machine.execRecordRetire serial s
  | .recordWalk start statuses filter => Sys2Proof.Machine.execRecordWalk start statuses filter s
  | .segmentDefine segment base limit dwell => Sys2Proof.Machine.execSegmentDefine segment base limit dwell s
  | .segmentEnter segment => Sys2Proof.Machine.execSegmentEnter segment s
  | .segmentLeave => Sys2Proof.Machine.execSegmentLeave s
  | .segmentStatus segment => Sys2Proof.Machine.execSegmentStatus segment s
  | .planRead => Sys2Proof.Machine.execPlanRead s
  | .planMove segment position => Sys2Proof.Machine.execPlanMove segment position s
  | .tamperRead => Sys2Proof.Machine.execTamperRead s
  | .tamperAck serial => Sys2Proof.Machine.execTamperAck serial s
  | .cabMode mode invert => Sys2Proof.Machine.execCabMode mode invert s
  | .portMode port mode => Sys2Proof.Machine.execPortMode port mode s
  | .portReset port => Sys2Proof.Machine.execPortReset port s
  | .resetPulseEnd => Sys2Proof.Machine.execResetPulseEnd s
  | .portStatus => Sys2Proof.Machine.execPortStatus s
  | .uploadStart => Sys2Proof.Machine.execUploadStart s
  | .uploadStop => Sys2Proof.Machine.execUploadStop s
  | .uploadStatus => Sys2Proof.Machine.execUploadStatus s
  | .eventsRead clear => Sys2Proof.Machine.execEventsRead clear s
  | .eventsEnable enable => Sys2Proof.Machine.execEventsEnable enable s
  | .flush => Sys2Proof.Machine.execFlush s
  | .flushDrainDone => Sys2Proof.Machine.execFlushDrainDone s
  | .partReset => Sys2Proof.Machine.execPartReset s
  | .badCommandBlock direction block => Sys2Proof.Machine.execBadCommandBlock direction block s
  | .commandCollision => Sys2Proof.Machine.execCommandCollision s
  | .responseRead direction clocks => Sys2Proof.Machine.execResponseRead direction clocks s
  | .portByte port byte => Sys2Proof.Machine.execPortByte port byte s
  | .byteGapTimeout port => Sys2Proof.Machine.execByteGapTimeout port s
  | .frameTake => Sys2Proof.Machine.execFrameTake s
  | .frameMatch => Sys2Proof.Machine.execFrameMatch s
  | .writeQueueWrite => Sys2Proof.Machine.execWriteQueueWrite s
  | .routeClockTick => Sys2Proof.Machine.execRouteClockTick s
  | .clockCheckpoint => Sys2Proof.Machine.execClockCheckpoint s
  | .dwellCompareExpire => Sys2Proof.Machine.execDwellCompareExpire s
  | .pulseTimerExpire => Sys2Proof.Machine.execPulseTimerExpire s
  | .powerWarning => Sys2Proof.Machine.execPowerWarning s
  | .powerUp => Sys2Proof.Machine.execPowerUp s
  | .recoveryScan => Sys2Proof.Machine.execRecoveryScan s
  | .dockAttach => Sys2Proof.Machine.execDockAttach s
  | .dockRemoval => Sys2Proof.Machine.execDockRemoval s
  | .batchForm => Sys2Proof.Machine.execBatchForm s
  | .offerSent => Sys2Proof.Machine.execOfferSent s
  | .depotByte byte => Sys2Proof.Machine.execDepotByte byte s
  | .depotByteGapTimeout => Sys2Proof.Machine.execDepotByteGapTimeout s
  | .verdictTimeout => Sys2Proof.Machine.execVerdictTimeout s
  | .powerLoss loss => Sys2Proof.Machine.execPowerLoss loss s

end Sys2Proof.Machine
end

