-- ==== Sys2Proof/Safety.lean ====
section
/-! DEFINITION. The terms the claims use: when the command unit takes a block, what a response is, the
frame of work on records, and the bounds and orders that every block keeps. -/

namespace Sys2Proof.Machine

/-! ### The command unit -/

/-- The 460 works and its command unit is IDLE, so that a block is taken and not a collision (R162). -/
def State.listening (s : State) : Prop := s.power = .on ∧ s.command.unit = .idle

/-- A block is taken and no scan stands in its way (R164). -/
def State.serving (s : State) : Prop := s.listening ∧ s.route.scanning = none

/-- The response block that waits to be read: status, length, data (R172). -/
def State.answered (s : State) (a : Answer) (data : List Byte) : Prop :=
  s.command.unit = .responding ∧ s.command.response = a.code :: natByte data.length :: data

/-- The commands served while SCANNING holds (R133, R164). -/
def servedInScans : Instr → Bool
  | .routeStatus | .portStatus | .uploadStatus | .eventsRead _ | .eventsEnable _ => true
  | _ => false

/-- The commands that come as a command block (R173). -/
def isBlock (c : Instr) : Bool := c.codeAndParams.isSome

/-- Commands carried out one after another, up to the first that stops. -/
def execAll : List Instr → State → Result
  | [], s => .next s
  | c :: rest, s =>
    match exec c s with
    | .next t => execAll rest t
    | stop => stop

/-- Record memory reads the same at every address but the `n` from `a` on. -/
def Memory.sameBut (m m' : Memory) (a n : Nat) : Prop :=
  ∀ x, x < a ∨ a + n ≤ x → m'.read x = m.read x

/-! ### Frames -/

/-- What work on records, segments, the tamper queue, the write queue and the caches leaves as it is, from `a`
to `t`: the queue of commands, power, the ports, the route controller, the assessment copy, the depot link
and upload engine, the matching engine but for its recent-match buffer, the enable set, the cab indicator's
settings, and the command unit, but that a FLUSH that waits sees entries written. No event is cleared. -/
structure Quiet (a t : State) : Prop where
  pending : t.pending = a.pending
  power : t.power = a.power
  ports : t.ports = a.ports
  route : t.route = a.route
  assessment : t.assessment = a.assessment
  depot : t.depot = a.depot
  draws : t.draws = a.draws
  enabled : t.events.enabled = a.events.enabled
  raised : a.events.pending ||| t.events.pending = t.events.pending
  matching : { t.matching with buffer := a.matching.buffer } = a.matching
  command : { t.command with unit := a.command.unit } = a.command
  responding : t.command.unit = .responding ↔ a.command.unit = .responding
  idle : t.command.unit = .idle ↔ a.command.unit = .idle
  cabMode : t.tamper.cabMode = a.tamper.cabMode
  invert : t.tamper.invert = a.tamper.invert

/-- What the matching engine leaves as it is while it takes and finishes frames (R122, R166): all that work on records
leaves, but the engine itself, the frames at the head of the holding buffers that it takes, and the count of free values
drawn. -/
structure Beside (a t : State) : Prop where
  quiet : Quiet a { t with ports := a.ports, matching := a.matching, draws := a.draws }
  ports : ∀ p, ∃ taken, a.port p = { t.port p with buffer := taken ++ (t.port p).buffer }

/-- What a walk leaves as it is when both engines work beside it (R36, R122, R152, R166): all that the matching engine
leaves, but that the upload engine's forming goes on, with the records that it marks joined to the outstanding batch;
with no forming under way or about to begin, the depot link and upload engine too. -/
structure BesideWalk (a t : State) : Prop where
  beside : Beside a { t with depot := a.depot }
  depot : t.depot = { a.depot with forming := t.depot.forming, outstanding := t.depot.outstanding }
  batch : ∃ marked, t.depot.outstanding = a.depot.outstanding ++ marked
  still : a.uploadWork = none → t.depot = a.depot

/-- The images of the DIRTY lines, in line order. -/
def State.dirtyImages (s : State) : List Queued :=
  (List.finRange 8).filterMap fun i =>
    match (s.line i).body with
    | some b => if b.dirty then some ⟨b.slot, b.contents⟩ else none
    | none => none

/-- The images of the DIRTY lines that no unit holds, in line order. -/
def State.looseImages (s : State) : List Queued :=
  (List.finRange 8).filterMap fun i =>
    match s.line i with
    | ⟨some b, none⟩ => if b.dirty then some ⟨b.slot, b.contents⟩ else none
    | _ => none

/-- The 460 works and waits for its RECOVERY scan: every block at its power-up values, both event sets empty (R168),
with what the route area of memory `m` says of the route and of its segments (R131, R142, R143). -/
structure State.recovering (t : State) (m : Memory) : Prop where
  power : t.power = .on
  mem : t.mem = m
  route : t.route = { Route.reset with
    scanning := some .recovery, lastStart := t.route.lastStart
    state := RouteState.ofByte (byteAt (m.item 2) 0)
    header := headerOfItem (m.item 1), clock := wordAt (m.item 4) 0 }
  segment : ∀ n : Seg, t.segment n = segmentOfItem (m.item (5 + n.val))
  plan : t.segments.plan = planOfItem (m.item 3)
  active : t.segments.active = segOfByte (byteAt (m.item 2) 1)
  idle : t.segments.dwellTarget = none ∧ t.segments.leaving = none
  events : t.events.pending = 0 ∧ t.events.enabled = 0
  command : t.command = { Command.reset with dataOut := t.command.dataOut }
  assessment : t.assessment = t.route.header.map Header.assessment
  ports : t.ports = State.reset.ports
  matching : t.matching = Matching.reset
  store : t.store = Store.reset
  directory : t.directory = []
  tamper : t.tamper = Tamper.reset
  depot : t.depot = { Depot.reset with
    dockSense := t.depot.dockSense, link := if t.depot.dockSense then .attached else .detached }

/-- Record memory `m` has what a change of segment `n`'s entry and of the plan leaves there: the items that
changed hold the new contents, every other item of the route area and every byte outside it reads as before
(R113, R126). -/
def State.writtenThrough (s : State) (m : Memory) (n : Seg) (e : Segment) (plan : List Seg) : Prop :=
  s.mem.wf = true →
    (segmentItem e ≠ segmentItem (s.segment n) → m.readItem (5 + n.val) = some (segmentItem e)) ∧
    (segmentItem e = segmentItem (s.segment n) →
      m.readItem (5 + n.val) = s.mem.readItem (5 + n.val)) ∧
    (plan ≠ s.segments.plan → m.readItem 3 = some (planItem plan)) ∧
    (plan = s.segments.plan → m.readItem 3 = s.mem.readItem 3) ∧
    (∀ j, j < 69 → j ≠ 5 + n.val → j ≠ 3 → m.readItem j = s.mem.readItem j) ∧
    ∀ a, a < Config.routeBase → m.read a = s.mem.read a

/-- `u` is `s` with segment `n` entered at the clock's value, written through (R120): the segment's item and the
plan, then the state block, and no other item of the route area (R113). -/
structure State.entered (s : State) (n : Seg) (u : State) : Prop where
  quiet : Quiet s u
  events : u.events = s.events
  records : u.directory = s.directory ∧ u.store = s.store ∧ u.tamper = s.tamper ∧ u.matching = s.matching
  entry : u.segment n = { s.segment n with
    state := .active, visited := true, overrun := false, entryTime := some s.route.clock }
  others : ∀ k, k ≠ n → u.segment k = s.segment k
  plan : u.segments.plan = s.segments.plan.filter fun k => k ≠ n
  active : u.segments.active = some n
  dwell : u.segments.dwellTarget =
    if 0 < (s.segment n).dwell.toNat then some (s.route.clock.toNat + (s.segment n).dwell.toNat) else none
  mem : s.segments.active ≠ some n → ∃ m, s.writtenThrough m n (u.segment n) u.segments.plan ∧
    u.mem = m.writeItem 2 [s.route.state.code, natByte n.val] ∧
    (s.mem.wf = true → u.mem.readItem 2 = some [s.route.state.code, natByte n.val] ∧
      (∀ j, j < 69 → j ≠ 2 → u.mem.readItem j = m.readItem j) ∧
      ∀ a, a < Config.routeBase → u.mem.read a = s.mem.read a)

/-! ### A leave walk that no row of time meets (R121, R122) -/

/-- The leave walk of SEGMENT_LEAVE and SEGMENT_ENTER, with the matching engine working beside it. -/
def State.drivenWalk (n : Seg) (s : State) : State × WalkCounts :=
  let started := s.withSegments { s.segments with leaving := some n }
  let walked := (s.slotsOf n).foldl (fun x slot => State.visitBeside slot (State.settleSlot .command slot) x)
    (started, WalkCounts.none)
  (walked.1.beside.withSegments { walked.1.beside.segments with leaving := none }, walked.2)

/-! ### A batch formed with nothing between its record reads (R151, R152, R158) -/

/-- The slots whose directory entry has a status copy. -/
def State.slotsWith (s : State) (status : LiveStatus) : List Nat :=
  (s.directory.filter fun e => e.2.status == .live status).map (·.1)

/-- The survey of one class; it is not begun once 16 records are held (R152). -/
def State.surveyClass (cursor : Option Key) (x : List Surveyed × State) (status : LiveStatus) :
    List Surveyed × State :=
  if Config.batchRecords ≤ x.1.length then x
  else (x.2.slotsWith status).foldl (fun x slot => State.surveySlot cursor x slot) x

/-- The survey: up to 16 selectable records with the lowest keys after the cursor (R152). -/
def State.survey (cursor : Option Key) (s : State) : List Surveyed × State :=
  let x := [LiveStatus.flagged, .read, .missed].foldl (fun x c => State.surveyClass cursor x c) ([], s)
  (x.1.take Config.batchRecords, x.2)

/-- The survey after the cursor, and once more from start when nothing lies after it (R151, R158). -/
def State.choose (s : State) : List Surveyed × State :=
  let first := s.survey s.depot.cursor
  if first.1.isEmpty then first.2.survey none else first

/-- The chosen records marked and packed, the cursor at the last one's key, and the OFFER begun when some
record is outstanding (R152). -/
def State.formBatch (chosen : List Surveyed) (s : State) : State :=
  let x := chosen.foldl State.markOne ([], s)
  x.2.beginOffer (chosen.getLast?.map (·.key)) x.1

/-- The batch formed whole: the records chosen are marked and offered; with none, the upload is finished. -/
def State.wholeBatch (s : State) : State :=
  if s.choose.1.isEmpty then s.choose.2.finishUpload else s.choose.2.formBatch s.choose.1

/-! ### The bounds and orders each block keeps -/

/-- A list of numbers in strictly rising order. -/
def Rising (l : List Nat) : Prop := l.Pairwise (· < ·)

/-- Every holding buffer has at most two frames (R50). -/
def PortsOk (ports : Vector Port 4) : Prop := ∀ p : Fin 4, (ports.get p).buffer.length ≤ 2

/-- The recent-match buffer has at most 16 valid entries, no serial in two (R29). -/
structure MatchingOk (x : Matching) : Prop where
  size : x.buffer.length ≤ 16
  serials : (x.buffer.map (·.serial)).Nodup

/-- No slot is in two lines, the order of recent use lists each line once (R31), the write queue has at
most 4 entries (R34), and the blocks in use are listed rising, each a block there is (R38). -/
structure StoreOk (x : Store) : Prop where
  lines : ∀ i j : Fin 8, ∀ a b, (x.lines.get i).body = some a → (x.lines.get j).body = some b →
    a.slot = b.slot → i = j
  recency : x.recency.Perm (List.finRange 8)
  queue : x.queue.length ≤ 4
  blocks : Rising x.usedBlocks
  inPool : ∀ n ∈ x.usedBlocks, n < 4096

/-- The directory lists the occupied slots rising, each a slot there is, with chains of blocks there are (R10,
R37). -/
structure DirectoryOk (d : Directory) : Prop where
  rising : Rising (d.map (·.1))
  inArea : ∀ n ∈ d.map (·.1), n < 8192
  chains : ∀ n x, d.get n = some x → ∀ b ∈ x.chain, b.1 < 4096

/-- The tamper queue has at most 128 entries, one for a slot, none before one that ranks above it (R102). -/
structure TamperOk (x : Tamper) : Prop where
  size : x.entries.length ≤ 128
  slots : (x.entries.map (·.slot)).Nodup
  ordered : x.entries.Pairwise fun a b => b.ranksAbove a = false

/-- Every redrive count is at most 7 (R113), and the plan holds no segment twice (R126). -/
structure SegmentsOk (x : Segments) : Prop where
  redrives : ∀ n : Seg, (x.entries.get n).redrive ≤ 7
  plan : x.plan.Nodup

/-- A batch in the middle of its forming: the link is ATTACHED; none is outstanding while the engine, RUNNING,
surveys; while it marks there is a packed record for each outstanding one, and with those still to be marked they are
at most 16 (R148, R152, R157). -/
def FormingOk (x : Depot) : Prop :=
  match x.forming with
  | none => True
  | some (.surveying _ _ _ _) => x.link = .attached ∧ x.engine = .running ∧ x.outstanding = []
  | some (.marking _ todo packed) => x.link = .attached ∧ x.engine ≠ .idle ∧
      packed.length = x.outstanding.length ∧ x.outstanding.length + todo.length ≤ 16

/-- At most 16 records are outstanding, none while the engine is IDLE; the failure count is at most 3, and
3 only with the engine IDLE (R150, R156); the receiver has gathered fewer than the 8 bytes of a VERDICT
(R149). -/
structure DepotOk (x : Depot) : Prop where
  batch : x.outstanding.length ≤ 16
  idle : x.engine = .idle → x.outstanding = []
  failures : x.failures ≤ 3
  faulted : x.failures = 3 → x.engine = .idle
  receiver : x.rx.length < 8
  forming : FormingOk x

/-- How many bytes each of a report's values has, in their order (R58, R147, R173). -/
def Report.sizes : Report → List Nat
  | .ports => [11, 11, 11, 11]
  | .route => [1, 1, 1, 33, 4, 2, 2, 4, 4, 4, 4, 4, 1, 1, 2, 2, 2, 2, 2]

/-- A response of at most 200 bytes waits exactly while the unit is RESPONDING; else the buffer is empty
(R161, R162). A report in the middle has a value left to read, and has read the whole of each one before it (R58,
R147). -/
structure CommandOk (x : Command) : Prop where
  waiting : x.unit = .responding → 2 ≤ x.response.length ∧ x.response.length ≤ 200
  empty : x.unit ≠ .responding → x.response = []
  reporting : ∀ w, x.unit = .executing (.reporting w) →
    w.next < w.report.size ∧ w.data.length = (w.report.sizes.take w.next).sum

/-- What every step keeps. -/
structure State.Ok (s : State) : Prop where
  mem : s.mem.wf = true
  ports : PortsOk s.ports
  matching : MatchingOk s.matching
  store : StoreOk s.store
  directory : DirectoryOk s.directory
  tamper : TamperOk s.tamper
  segments : SegmentsOk s.segments
  depot : DepotOk s.depot
  command : CommandOk s.command

/-- A record has a hold candidate exactly while it is HELD, and a READ or FLAGGED one has a current reading
(R3, R4). -/
structure Record.Sound (r : Record) : Prop where
  candidate : r.candidate.isSome = true ↔ r.status = .held
  current : r.status = .read ∨ r.status = .flagged → r.current.isSome = true

/-- What a slot holds is sound: a free slot, a FAULT record, or a sound record. -/
def Contents.Sound (c : Contents) : Prop := ∀ r, c = .live r → r.Sound

/-- `c` agrees with the newest copy of a slot outside the cache, given the newest image that the write queue has of
the slot and the slot's bytes in memory (R31, R35): it is that image; with none queued, the bytes are its image, or
read as `c`; and where they fail their check, `c` is free. -/
def Contents.newest (c : Contents) (bytes : List Byte) : Option Contents → Prop
  | some x => x = c
  | none => bytes = c.image ∨ if checkHolds 64 bytes = true then Contents.ofBytes bytes = c else c = .free

/-- `c` agrees with the newest copy of a slot outside the cache (R31). -/
def State.newestIs (s : State) (slot : Nat) (c : Contents) : Prop := c.newest (s.mem.slotBytes slot) (s.queued slot)

/-- Every copy of a record is sound (R4): in the cache lines, in the write queue and in record memory, where
its check byte holds; what waits to be written names a slot there is; and a CLEAN line agrees with the newest copy
outside the cache, so that every change of a record stands in a DIRTY line until it is queued (R31, R33). -/
structure State.Sound (s : State) : Prop where
  lines : ∀ i b, (s.line i).body = some b → b.slot < 8192 → b.contents.Sound
  dirty : ∀ i b, (s.line i).body = some b → b.dirty = true → b.slot < 8192
  queue : ∀ q ∈ s.store.queue, q.slot < 8192 ∧ q.contents.Sound
  stored : ∀ n, n < 8192 → checkHolds 64 (s.mem.slotBytes n) = true →
    (Contents.ofBytes (s.mem.slotBytes n)).Sound
  clean : ∀ i b, (s.line i).body = some b → b.dirty = false → b.slot < 8192 → s.newestIs b.slot b.contents

/-- How many slots the directory lists as segment `n`'s with a status of a class that `c` takes. -/
def Directory.tally (d : Directory) (n : Seg) (c : Class → Bool) : Nat :=
  d.countP fun e => e.2.segment == some n && c e.2.status.cls

/-- Every segment's counters are the numbers of the directory's entries that name it, in all and by class (R113). -/
structure State.Counted (s : State) : Prop where
  members : ∀ n, (s.segment n).members = s.directory.tally n fun _ => true
  outstanding : ∀ n, (s.segment n).outstanding = s.directory.tally n (· == .outstanding)
  done : ∀ n, (s.segment n).done = s.directory.tally n (· == .done)
  faulted : ∀ n, (s.segment n).faulted = s.directory.tally n (· == .faulted)

/-- The serial index finds every LIVE entry it holds: the search for an entry's serial ends on it, so that no
serial stands in two entries (R24, R25). -/
def Memory.IndexSound (m : Memory) : Prop :=
  ∀ n, n < 16384 → m.entrySerial n ≠ 0 →
    m.findEntry (m.entrySerial n) 16384 (homeBucket (m.entrySerial n)) = some n

end Sys2Proof.Machine
end

