-- ==== Sys2Proof/Certificates/Slice0/Obligations.lean ====
section
/-! DEFINITION. The statements for the provers, from the numbered rules of spec/. -/

open Sys2Proof Sys2Proof.Machine

/-! ### The queue and the whole machine -/

/-- A step takes the command at the front of the queue and runs its meaning on the state with the rest. -/
def Obligations.StepRunsTheFrontCommand : Prop :=
  ∀ (s : State) (c : Instr) (rest : List Instr),
    s.pending = c :: rest → step s = exec c (s.withPending rest)

/-- The model's choice (log, entry 10): with no command waiting, a step leaves the state as it is. -/
def Obligations.StepIdlesOnAnEmptyQueue : Prop :=
  ∀ s : State, s.pending = [] → step s = .next s

/-- No command's meaning touches the queue of the commands that wait. -/
def Obligations.CommandsLeaveTheQueueAlone : Prop :=
  ∀ (c : Instr) (s t : State), exec c s = .next t → t.pending = s.pending

/-- Every occurrence of a row is carried out: no command that is one stops the machine. -/
def Obligations.EveryCommandIsCarriedOut : Prop :=
  ∀ (c : Instr) (s : State), c.wellFormed = true → ∃ t, exec c s = .next t

/-- Every step keeps the bounds and orders of every block, and every segment's counters at the numbers of the
directory's entries that name it, in all and by class (R113); and every step but the loss of a supply that damages
memory keeps every copy of a record sound, a hold candidate exactly while HELD (R4), and every CLEAN line at the
newest copy of its slot outside the cache (R31): so a unit's change of a record leaves its line DIRTY until its image
is queued (R33). -/
def Obligations.StepKeepsEveryBound : Prop :=
  ∀ s t : State, s.Ok → step s = .next t → t.Ok ∧ (s.Counted → t.Counted) ∧
    ((∀ loss rest, s.pending = .powerLoss loss :: rest → loss = .clean) → s.Sound → t.Sound)

/-- The bounds and orders hold right after reset, every copy of a record there is sound and no CLEAN line differs from
the newest copy outside the cache (R31), and every segment's counters are the numbers of the directory's entries that
name it (R113). -/
def Obligations.ResetMeetsEveryBound : Prop := State.reset.Ok ∧ State.reset.Sound ∧ State.reset.Counted

/-- R168, R169, R170: an event leaves the pending set only by EVENTS_READ or a restart, and the enable set
changes only by EVENTS_ENABLE or a restart. -/
def Obligations.EventsLeaveOnlyByTheirRules : Prop :=
  ∀ (c : Instr) (s t : State), exec c s = .next t →
    c ≠ .powerUp → c ≠ .partReset → (∀ loss, c ≠ .powerLoss loss) →
    ((∀ clear, c ≠ .eventsRead clear) → s.events.pending ||| t.events.pending = t.events.pending) ∧
    ((∀ enable, c ≠ .eventsEnable enable) → t.events.enabled = s.events.enabled)

/-- R132: the route state changes by no command but those that its table names, the restarts and the loss
of the supply. -/
def Obligations.RouteStateChangesOnlyByItsTable : Prop :=
  ∀ (c : Instr) (s t : State), exec c s = .next t → t.route.state ≠ s.route.state →
    (s.route.state = .empty ∧ t.route.state = .loading ∧ ∃ p, c = .routeHeader p) ∨
    (t.route.state = .opened ∧ c = .openScan) ∨
    (s.route.state = .opened ∧ t.route.state = .closed ∧ c = .routeClose) ∨
    (t.route.state = .empty ∧ c = .routeClear) ∨
    (s.route.state = .closed ∧ t.route.state = .empty ∧
      (c = .batchForm ∨ (∃ serial, c = .recordRetire serial) ∨ ∃ b, c = .depotByte b)) ∨
    c = .powerUp ∨ c = .partReset ∨ c = .recoveryScan ∨ ∃ loss, c = .powerLoss loss

/-- R145, R161: while the 460 is halted or without power, commands that are no block, a power-up and the loss of
the supply apart, change nothing but the level of dock-sense, whose following while the 460 does not work is the
model's choice (log, entry 29, DESIGN CHOICE), and of a selection there is nothing but the zeros
that it clocks out: a list of them for a read selection and for another direction byte, and none listed for a
write selection, whose every byte is 00h (log, entry 30). -/
def Obligations.HaltedDoesNothing : Prop :=
  ∀ s : State, s.power ≠ .on →
    let clocked := fun out : List Byte => { s with command := { s.command with dataOut := out } }
    (∀ c : Instr, c.wellFormed = true → isBlock c = false →
      c ≠ .powerUp → c ≠ .dockAttach → c ≠ .dockRemoval → (∀ loss, c ≠ .powerLoss loss) →
      (∀ direction clocks, c ≠ .responseRead direction clocks) →
      (∀ direction block, c ≠ .badCommandBlock direction block) → exec c s = .next s) ∧
    exec .dockAttach s = .next { s with depot := { s.depot with dockSense := true } } ∧
    exec .dockRemoval s = .next { s with depot := { s.depot with dockSense := false } } ∧
    (∀ c, isBlock c = true → exec c s = .next (clocked [])) ∧
    (∀ block, decodeBlock block = none → exec (.badCommandBlock 0x5A block) s = .next (clocked [])) ∧
    (∀ direction block, direction ≠ 0x5A →
      exec (.badCommandBlock direction block) s =
        .next (clocked (List.replicate block.length 0x00))) ∧
    (∀ direction n, direction ≠ 0x5A →
      exec (.responseRead direction n) s = .next (clocked (List.replicate n 0x00)))

/-- R163: a block taken while a command or a response is held is a collision: the count rises by 1 and holds
at 65,535, COLLISION is raised, and nothing else changes; the write selection clocks out nothing but 00h, so that
no byte is listed (R172; log, entry 30). -/
def Obligations.BlocksCollide : Prop :=
  ∀ (c : Instr) (s : State), isBlock c = true → s.power = .on → s.command.unit ≠ .idle →
    exec c s = .next { s with
      command := { s.command with
        collisions := BitVec.ofNat 16 (min 65535 (s.command.collisions.toNat + 1)), dataOut := [] }
      events := { s.events with pending := s.events.pending ||| 0x100 } }

/-- R133, R164: while SCANNING holds, every block but those of five commands is answered BUSY, with no
data, and nothing else changes (no byte clocked out is listed: log, entry 30). -/
def Obligations.BlocksAreBusyDuringScans : Prop :=
  ∀ (c : Instr) (s : State), isBlock c = true → c.wellFormed = true → servedInScans c = false →
    s.listening → s.route.scanning ≠ none →
    exec c s = .next { s with
      command := { s.command with unit := .responding, response := [0x0A, 0x00], dataOut := [] } }

/-! ### Layouts and record memory -/

/-- R172, R173: the block of a command carries that command, whatever bytes follow its declared end. That
ROUTE_HEADER's block has 55 parameter bytes, where R173's length column says 56, is log, entry 11 (DEDUCED). -/
def Obligations.BlocksDecode : Prop :=
  ∀ (c : Instr) (bs extra : List Byte),
    c.wellFormed = true → c.block = some bs → decodeBlock (bs ++ extra) = some c

/-- R172, R173: a block carries a command only if it begins with that command's own block. That ROUTE_HEADER's
block has 55 parameter bytes, where R173's length column says 56, is log, entry 11 (DEDUCED). -/
def Obligations.DecodedBlocksAreEncoded : Prop :=
  ∀ (c : Instr) (bs : List Byte), decodeBlock bs = some c →
    ∃ own extra, c.block = some own ∧ bs = own ++ extra

/-- R17, R175: a base record's 64 bytes pass the check and stand for the record they were written from: a
record with a serial, a FAULT record with a serial, or a free slot. -/
def Obligations.BaseRecordsReadBack : Prop :=
  ∀ c : Contents, (∀ r, c = .live r → r.serial ≠ 0) → (∀ x n, c = .fault x n → x ≠ 0) →
    c.image.length = 64 ∧ checkHolds 64 c.image = true ∧ Contents.ofBytes c.image = c

/-- R17, R175: an extension block of 1 to 24 characters or 1 to 6 values, with a next-block number that the
layout allows, is 32 bytes that stand for it. -/
def Obligations.ExtensionBlocksReadBack : Prop :=
  ∀ b : Block, nextAllowed b.next = true →
    (∀ next text, b = .note next text → 1 ≤ text.length ∧ text.length ≤ 24) →
    (∀ next values, b = .interval next values → 1 ≤ values.length ∧ values.length ≤ 6) →
    b.image.length = 32 ∧ Block.ofBytes b.image = some b

/-- R135: an item of the route area written once is read back as written, whatever its two copies held, and
every other item is as it was; and while it is written, no byte of the copy that holds its newest generation
changes, so that a write cut short leaves the item's contents of before. With no good copy there is no newest,
and the copy to write is the model's choice (log, entry 33). -/
def Obligations.RouteItemsReadBack : Prop :=
  ∀ (m : Memory) (i : Nat) (contents : List Byte),
    m.wf = true → i < 69 → contents.length = itemSize i →
    (m.writeItem i contents).readItem i = some contents ∧
    (∀ j, j < 69 → j ≠ i → (m.writeItem i contents).readItem j = m.readItem j) ∧
    ∀ (b : Bool) (arrived : BitVec 256), m.newerCopy i = some b →
      (m.writeCut (copyAddress i (m.nextCopy i).1) arrived
        (copyImage (m.nextCopy i).2 contents)).copyBytes i b = m.copyBytes i b

/-- R23: bytes written to record memory are read back, and every other byte reads as before. -/
def Obligations.MemoryReadsWhatWasWritten : Prop :=
  ∀ (m : Memory) (a : Nat) (bs : List Byte), m.wf = true →
    (m.writeBytes a bs).readBytes a bs.length = bs ∧ m.sameBut (m.writeBytes a bs) a bs.length

/-- R175: the CRC-8 and the CRC-16 of the nine characters 123456789 are F4h and 29B1h, and over checked bytes
together with their check bytes each code is 0. -/
def Obligations.CheckCodesLeaveNoResidue : Prop :=
  crc8 [0x31, 0x32, 0x33, 0x34, 0x35, 0x36, 0x37, 0x38, 0x39] = 0xF4 ∧
  crc16 [0x31, 0x32, 0x33, 0x34, 0x35, 0x36, 0x37, 0x38, 0x39] = 0x29B1 ∧
  ∀ bs : List Byte, crc16 (bs ++ halfBytes (crc16 bs)) = 0 ∧ crc8 (withCheck bs) = 0

/-! ### Receiver ports -/

/-- R46: what a port that listens makes of a byte that does not complete a frame: hunting, only a start
marker is kept; the byte after it is judged as the length; further bytes are gathered. Nothing else of the
machine changes, but that a PORT_STATUS or ROUTE_STATUS that the byte has met goes on after it (R58, R147; log, entry
41, DESIGN CHOICE). -/
def Obligations.PortsTakeBytes : Prop :=
  ∀ (p : Fin 4) (b : Byte) (s : State), s.power = .on → (s.port p).mode ≠ .off →
    (s.port p).pulsing = false →
    ((s.port p).gathered = [] → b ≠ 0xA6 → exec (.portByte p b) s = .next s.goOnReport) ∧
    ((s.port p).gathered = [] → b = 0xA6 →
      exec (.portByte p b) s = .next (s.setPort p { s.port p with gathered := [0xA6] }).goOnReport) ∧
    ((s.port p).gathered.length = 1 → b.toNat % 2 = 1 ∧ 17 ≤ b.toNat ∧ b.toNat ≤ 41 →
      exec (.portByte p b) s =
        .next (s.setPort p { s.port p with gathered := (s.port p).gathered ++ [b] }).goOnReport) ∧
    ((s.port p).gathered.length = 1 → ¬(b.toNat % 2 = 1 ∧ 17 ≤ b.toNat ∧ b.toNat ≤ 41) →
      exec (.portByte p b) s = .next (s.setPort p { s.port p with
        gathered := [], damaged := satInc (s.port p).damaged }).goOnReport) ∧
    (2 ≤ (s.port p).gathered.length →
      (s.port p).gathered.length + 1 < (byteAt (s.port p).gathered 1).toNat →
      exec (.portByte p b) s =
        .next (s.setPort p { s.port p with gathered := (s.port p).gathered ++ [b] }).goOnReport)

/-- R46, R48, R49, R51: the bytes of a whole frame, one after another at a listening port that was hunting,
leave it hunting with the frame counted: damaged when it fails a test, and when it is good, received and at
the tail of the holding buffer, or overflowed when two frames wait there. Nothing else changes, but that a PORT_STATUS
or ROUTE_STATUS that the bytes have met goes on among them (R58, R147; log, entry 41, DESIGN CHOICE), which changes the
command unit and the count of free values drawn alone. -/
def Obligations.WholeFramesAreTaken : Prop :=
  ∀ (p : Fin 4) (bs : List Byte) (s : State), s.power = .on → (s.port p).mode ≠ .off →
    (s.port p).pulsing = false → (s.port p).gathered = [] →
    byteAt bs 0 = 0xA6 → bs.length = (byteAt bs 1).toNat → lengthAllowed (byteAt bs 1) = true →
    let leaves := fun u : State => ∃ t, execAll (bs.map (Instr.portByte p)) s = .next t ∧
      t = { u with command := t.command, draws := t.draws } ∧
      ((∀ w, s.command.unit ≠ .executing (.reporting w)) → t = u)
    (frameGood bs = false → leaves (s.setPort p { s.port p with damaged := satInc (s.port p).damaged })) ∧
    (frameGood bs = true → (s.port p).buffer.length < 2 →
      leaves (s.setPort p { s.port p with
        received := satInc (s.port p).received
        buffer := (s.port p).buffer ++
          [Frame.ofBytes bs s.route.clock p (decide ((s.port p).mode = .probe))] })) ∧
    (frameGood bs = true → 2 ≤ (s.port p).buffer.length →
      leaves ((s.setPort p { s.port p with
        received := satInc (s.port p).received
        overflowed := satInc (s.port p).overflowed
        overflowMark := true }).raise .portOverflow))

/-- R45, R47, R56, R149: a port that is OFF, or in a reset pulse, discards every byte; and a frame that stops
arriving partway is given up, at a port and at the depot receiver: its bytes are discarded and it is counted
damaged; and nothing else changes, but that a PORT_STATUS or ROUTE_STATUS that a byte or a gap at a port has met goes on
after it (R58, R147; log, entry 41, DESIGN CHOICE). -/
def Obligations.UnwantedBytesAreDiscarded : Prop :=
  (∀ (p : Fin 4) (b : Byte) (s : State), (s.port p).mode = .off ∨ (s.port p).pulsing = true →
    exec (.portByte p b) s = .next (if s.power = .on then s.goOnReport else s)) ∧
  (∀ (p : Fin 4) (s : State), s.power = .on → (s.port p).gathered = [] ∨ (s.port p).pulsing = true →
    exec (.byteGapTimeout p) s = .next s.goOnReport) ∧
  (∀ (p : Fin 4) (s : State), s.power = .on → (s.port p).gathered ≠ [] → (s.port p).pulsing = false →
    exec (.byteGapTimeout p) s = .next (s.setPort p { s.port p with
      gathered := [], damaged := satInc (s.port p).damaged }).goOnReport) ∧
  (∀ s : State, s.power = .on → s.depot.rx ≠ [] →
    exec .depotByteGapTimeout s = .next (s.withDepot { s.depot with
      rx := [], damaged := satInc s.depot.damaged }))

/-- R55, R56: PORT_MODE and PORT_RESET on a port there is empty its assembler and holding buffer and keep its
counters; PORT_MODE sets the mode and is answered OK; PORT_RESET keeps the mode, clears the overflow mark and
stays EXECUTING for the pulse, whose end resumes the port and answers OK. Nothing else changes. -/
def Obligations.PortCommandsTakeEffect : Prop :=
  ∀ s : State, s.serving →
    (∀ (port mode : Byte) (p : Fin 4) (m : PortMode), port.toNat = p.val → mode = m.code →
      exec (.portMode port mode) s = .next ((s.setPort p { s.port p with
        gathered := [], buffer := [], mode := m }).reply .ok [])) ∧
    (∀ (port : Byte) (p : Fin 4), port.toNat = p.val →
      exec (.portReset port) s = .next ((s.setPort p { s.port p with
        gathered := [], buffer := [], overflowMark := false, pulsing := true }).executing
          (.portReset p)) ∧
      execAll [.portReset port, .resetPulseEnd] s = .next ((s.setPort p { s.port p with
        gathered := [], buffer := [], overflowMark := false, pulsing := false }).reply .ok []))

/-! ### The matching engine -/

/-- R53, R54, R60, R61: a free engine takes the head frame of the first port, in the order that begins after
the port served last, whose buffer is not empty; that port becomes the one served last and the taken count
rises. With the intake gate closed the frame is dropped and counted, and nothing else changes, but that a PORT_STATUS or
ROUTE_STATUS that the step has met goes on after it (R58, R147; log, entry 41, DESIGN CHOICE). -/
def Obligations.FramesAreTakenRoundRobin : Prop :=
  ∀ (s : State) (k : Fin 4) (f : Frame) (rest : List Frame),
    s.power = .on → s.matching.inHand = none →
    (∀ j : Fin 4, j < k → (s.port (s.matching.served + 1 + j)).buffer = []) →
    (s.port (s.matching.served + 1 + k)).buffer = f :: rest →
    let p := s.matching.served + 1 + k
    let taken := (s.setPort p { s.port p with buffer := rest }).withMatching { s.matching with
      served := p, taken := satInc s.matching.taken }
    (s.gateOpen = false → exec .frameTake s = .next (taken.withMatching { taken.matching with
      drops := satInc s.matching.drops }).goOnReport) ∧
    (s.gateOpen = true → exec .frameTake s = .next (taken.passGate f).goOnReport)

/-- R62, R29: a frame past the gate is resolved through the recent-match buffer, on a miss through the index, and
is a stranger, counted, when the index does not have its serial. A hit makes the entry the most recently used; a
serial found in the index fills an entry, without reading or arrival time, as the most recently used, and with 16
entries valid the least recently used one is forgotten; the other entries keep their order, and a stranger leaves
the buffer as it was. Of the machine only the matching engine changes on a hit; a miss is, besides, the accesses of
one index lookup, granted to the matching engine, after each of which the oldest queued image is written (R34,
R36). -/
def Obligations.SerialsAreResolved : Prop :=
  ∀ (s t : State) (f : Frame), s.matching.inHand = none → s.passGate f = t →
    t = { (if s.matchEntry f.serial = none then s.grants .matching (s.mem.lookupAccesses f.serial) else s) with
      matching := t.matching } ∧
    (∀ e, s.matchEntry f.serial = some e → t.matching = { s.matching with
      inHand := some ⟨f, e.slot, false⟩
      buffer := (e :: s.matching.buffer.filter fun x => x.serial != f.serial).take 16 }) ∧
    (s.matchEntry f.serial = none → ∀ slot, s.mem.lookup f.serial = some slot →
      t.matching = { s.matching with
        inHand := some ⟨f, slot, false⟩
        buffer := ⟨f.serial, slot, none, none⟩ :: s.matching.buffer.take 15 } ∧
      t.matchEntry f.serial = some ⟨f.serial, slot, none, none⟩) ∧
    (s.matchEntry f.serial = none → s.mem.lookup f.serial = none →
      t.matching = { s.matching with strangers := satInc s.matching.strangers })

/-- R64 to R68, R7: what a frame may change of a record, and what it never does: it takes no evidence away,
keeps the record's identity, history, segment, batch and chain, keeps a power reference once set, and brings
the hearing fields up to date. A probe-only record that a radio frame reaches is heard and nothing else. Any
other frame brings MAGNET and COVER by its flags and REPOWER by a power-cycle counter that is not the
reference, which it sets where there is none; one whose reading cannot be the record's brings IDENTITY, is no
duplicate and goes no further than the threshold step. -/
def Obligations.FramesKeepARecordsIdentity : Prop :=
  ∀ (h : Header) (a : Assessment) (e : Option MatchEntry) (r : Record) (f : Frame),
    let m := r.matchFrame h a e f
    let r' := m.record
    let bit := fun (present : Bool) (x : Byte) => if present then x else 0
    let added := r.evidence.byte ||| bit f.magnet 0x01 ||| bit f.cover 0x02 |||
      bit (match r.powerRef with | some c => c != f.powerCycle | none => false) 0x40
    r' = { r with
      powerRef := r'.powerRef, status := r'.status, current := r'.current, candidate := r'.candidate
      evidence := r'.evidence, score := r'.score, flagTime := r'.flagTime
      marks := { r.marks with acknowledged := r'.marks.acknowledged }
      hearCount := satInc r.hearCount, lastHeard := some f.arrival, bestSignal := r'.bestSignal } ∧
    r'.evidence.byte ||| r.evidence.byte = r'.evidence.byte ∧
    (∀ c, r.powerRef = some c → r'.powerRef = some c) ∧
    (∃ b, r'.bestSignal = some b ∧ b.toNat = max f.signal.toNat (optByte r.bestSignal).toNat) ∧
    (r.probeOnly = true → f.byProbe = false → m.duplicate = false ∧ m.applied = false ∧
      r' = { r with
        hearCount := satInc r.hearCount, lastHeard := some f.arrival, bestSignal := r'.bestSignal }) ∧
    (r.probeOnly = false ∨ f.byProbe = true →
      r'.powerRef = some (r.powerRef.getD f.powerCycle) ∧
      r'.evidence.byte &&& 0x43 = added &&& 0x43 ∧
      (f.kind ≠ some r.kind ∨ modulus r.dials ≤ f.reading.toNat →
        m.duplicate = false ∧ m.applied = false ∧ r'.evidence.byte = added ||| 0x80 ∧
        r'.score = (if r'.evidence = r.evidence then r.score else h.score r'.evidence) ∧
        (r.status = .pending ∨ r.status = .missed →
          r'.status = r.status ∧ r'.current = r.current ∧ r'.candidate = r.candidate)))

/-- R70, R72 to R79: the moves a frame can make between statuses: a record never leaves FLAGGED, never goes
back to PENDING or MISSED, and HELD is left for FLAGGED alone. The threshold step (R74, R79): the score is
computed anew when the evidence has changed; a READ record whose score has reached F is FLAGGED at the frame's
arrival, and one whose score has reached H but not F is HELD with its reading as candidate; a FLAGGED record
whose score has risen loses its acknowledged mark. That a READ record's status is settled by its score though the
frame changed no evidence, outside the bounds of R98, is the model's choice (log, entry 50, DESIGN CHOICE). -/
def Obligations.FramesMoveStatusesForward : Prop :=
  ∀ (h : Header) (a : Assessment) (e : Option MatchEntry) (r : Record) (f : Frame),
    let r' := (r.matchFrame h a e f).record
    (r.status = .flagged → r'.status = .flagged) ∧
    (r.status = .held → r'.status = .held ∨ r'.status = .flagged) ∧
    (r.status = .read → r'.status = .read ∨ r'.status = .held ∨ r'.status = .flagged) ∧
    (r'.status = .pending → r.status = .pending) ∧ (r'.status = .missed → r.status = .missed) ∧
    (r.probeOnly = false ∨ f.byProbe = true →
      (r.status ≠ .pending → r.status ≠ .missed →
        r'.score = if r'.evidence = r.evidence then r.score else h.score r'.evidence) ∧
      (r.status = .read →
        (h.flag.toNat ≤ r'.score.toNat → r'.status = .flagged ∧ r'.flagTime = some f.arrival ∧
          r'.candidate = r.candidate) ∧
        (r'.score.toNat < h.flag.toNat → h.hold.toNat ≤ r'.score.toNat →
          r'.status = .held ∧ r'.flagTime = r.flagTime ∧
          r'.candidate = r'.current.map fun c => { c with
            time := f.arrival, port := f.port, byProbe := f.byProbe }) ∧
        (r'.score.toNat < h.flag.toNat → r'.score.toNat < h.hold.toNat →
          r'.status = .read ∧ r'.flagTime = r.flagTime ∧ r'.candidate = r.candidate)) ∧
      (r.status = .flagged → r'.flagTime = r.flagTime ∧ r'.marks = { r.marks with
        acknowledged := r.marks.acknowledged && decide (r'.score.toNat ≤ r.score.toNat) }))

/-- R69, R70, R91: a first reading is assessed; the kind of evidence it shows joins the evidence that the record
had and that the pre-checks added; the score is computed from the whole set, and the status, with what it takes,
decided by the score against H and F. -/
def Obligations.FirstReadingsAreDecidedByScore : Prop :=
  ∀ (h : Header) (a : Assessment) (e : Option MatchEntry) (r : Record) (f : Frame),
    (r.status = .pending ∨ r.status = .missed) → (r.probeOnly = false ∨ f.byProbe = true) →
    f.kind = some r.kind → f.reading.toNat < modulus r.dials →
    let r' := (r.matchFrame h a e f).record
    let j := assess a r f.reading.toNat
    let g : Reading := ⟨f.reading, BitVec.ofNat 32 j.delta, j.direction, f.arrival, f.port, f.byProbe⟩
    let bit := fun (present : Bool) (x : Byte) => if present then x else 0
    let checked := r.evidence.byte ||| bit f.magnet 0x01 ||| bit f.cover 0x02 |||
      bit (match r.powerRef with | some c => c != f.powerCycle | none => false) 0x40
    let shown : Byte := match j.evidence with
      | some .reverse => 0x04 | some .regress => 0x08 | some .low => 0x10 | some .stopped => 0x20 | _ => 0
    r'.evidence.byte = checked ||| shown ∧ r'.score = h.score r'.evidence ∧
    (h.flag.toNat ≤ r'.score.toNat →
      r'.status = .flagged ∧ r'.current = some g ∧ r'.flagTime = some f.arrival) ∧
    (r'.score.toNat < h.flag.toNat → h.hold.toNat ≤ r'.score.toNat →
      r'.status = .held ∧ r'.candidate = some g ∧ r'.current = r.current) ∧
    (r'.score.toNat < h.flag.toNat → r'.score.toNat < h.hold.toNat →
      r'.status = .read ∧ r'.current = some g ∧ r'.flagTime = r.flagTime)

/-- R75, R76, R78: an agreeing frame confirms a HELD record, by probe at once and by radio when the confirm
gap has passed: the candidate is committed with its own companions and the record is FLAGGED at the frame's
arrival. Before the gap is over the hold stands as it was, unless the evidence that the frame's flags and power-cycle
counter bring takes the score to F: that commits the candidate and flags the record (R79). A disagreeing frame (R77)
brings IDENTITY and moves the hold time to its arrival, never backward; the candidate's other parts stand, unless
the score reaches F, likewise. A frame whose reading cannot be the record's (R65) compares none: it brings IDENTITY,
and the hold stands as it was or, with the score at F, is committed and flagged in the same way. That a record HELD
with a stored score at F already, outside the bounds of R98, is committed and flagged at a frame that changes no
evidence is the model's choice (log, entry 50, DESIGN CHOICE). R78 and R79 have the record FLAGGED without the
unconfirmed mark: the clause that the mark stays as it was when a frame commits the candidate is the model's choice for
a HELD record that carries it, as one can only from record memory altered under a good check byte (log, entry 60,
DESIGN CHOICE); with the mark clear, as the rules have it in a HELD record, it says that the mark is clear. -/
def Obligations.AgreeingFramesConfirmHolds : Prop :=
  ∀ (h : Header) (a : Assessment) (e : Option MatchEntry) (r : Record) (f : Frame) (c : Reading),
    r.status = .held → r.candidate = some c → (r.probeOnly = false ∨ f.byProbe = true) →
    let usable := f.kind = some r.kind ∧ f.reading.toNat < modulus r.dials
    let apart := (f.reading.toNat + modulus r.dials - c.value.toNat % modulus r.dials) % modulus r.dials
    let m := r.matchFrame h a e f
    let r' := m.record
    let moved := { c with time := if f.arrival.toNat < c.time.toNat then c.time else f.arrival }
    let bit := fun (present : Bool) (x : Byte) => if present then x else 0
    let checked := r.evidence.byte ||| bit f.magnet 0x01 ||| bit f.cover 0x02 |||
      bit (match r.powerRef with | some x => x != f.powerCycle | none => false) 0x40
    let stands := fun candidate : Reading =>
      r'.status = .held ∧ r'.candidate = some candidate ∧ r'.current = r.current ∧ r'.flagTime = r.flagTime
    let confirmed := fun candidate : Reading => r'.status = .flagged ∧ r'.current = some candidate ∧
      r'.candidate = none ∧ r'.flagTime = some f.arrival ∧ r'.marks.unconfirmed = r.marks.unconfirmed
    r'.score = (if r'.evidence = r.evidence then r.score else h.score r'.evidence) ∧
    (usable → apart ≤ h.tolerance.toNat → r'.evidence.byte = checked ∧ m.applied = true ∧
      (f.byProbe = true ∨ c.time.toNat + h.confirmGap.toNat ≤ f.arrival.toNat → confirmed c) ∧
      (f.byProbe = false → f.arrival.toNat < c.time.toNat + h.confirmGap.toNat →
        (r'.score.toNat < h.flag.toNat → stands c) ∧ (h.flag.toNat ≤ r'.score.toNat → confirmed c))) ∧
    (usable → h.tolerance.toNat < apart → r'.evidence.byte = checked ||| 0x80 ∧ m.applied = true ∧
      (r'.score.toNat < h.flag.toNat → stands moved) ∧ (h.flag.toNat ≤ r'.score.toNat → confirmed moved)) ∧
    (¬usable → r'.evidence.byte = checked ||| 0x80 ∧ m.applied = false ∧ m.duplicate = false ∧
      (r'.score.toNat < h.flag.toNat → stands c) ∧ (h.flag.toNat ≤ r'.score.toNat → confirmed c))

/-- R71, R79: a duplicate of a READ or FLAGGED record's last frame compares no reading: current reading and
candidate stand unless the pre-checks' evidence moves the status. R72, R73: any other frame with a usable
reading is compared with the current one; within the tolerance it becomes the current reading, with its own
time and port, and a FORWARD or ROLLOVER delta rises by the difference, held at M − 1; beyond it the current
reading stands and IDENTITY is added. -/
def Obligations.DuplicatesCompareNothing : Prop :=
  ∀ (h : Header) (a : Assessment) (r : Record) (f : Frame) (e : Option MatchEntry),
    (r.status = .read ∨ r.status = .flagged) → (r.probeOnly = false ∨ f.byProbe = true) →
    f.kind = some r.kind → f.reading.toNat < modulus r.dials →
    let m := r.matchFrame h a e f
    let repeats := ∃ x t, e = some x ∧ x.reading = some f.reading ∧ x.arrival = some t ∧
      f.arrival.toNat < t.toNat + h.duplicateWindow.toNat ∧ h.duplicateWindow ≠ 0
    (repeats → m.duplicate = true ∧ m.applied = false ∧ m.record.current = r.current ∧
      (m.record.status = r.status → m.record.candidate = r.candidate)) ∧
    (¬repeats → ∀ c, r.current = some c →
      let M := modulus r.dials
      let apart := (f.reading.toNat + M - c.value.toNat % M) % M
      m.duplicate = false ∧ m.applied = true ∧
      (apart ≤ h.tolerance.toNat → m.record.evidence.identity = r.evidence.identity ∧
        m.record.current = some { c with
          value := f.reading, time := f.arrival, port := f.port, byProbe := f.byProbe
          delta := if c.direction = .forward ∨ c.direction = .rollover then
            BitVec.ofNat 32 (min (M - 1) (c.delta.toNat + apart)) else c.delta }) ∧
      (h.tolerance.toNat < apart →
        m.record.evidence.identity = true ∧ m.record.current = r.current))

/-- R97: the score is the lesser of 255 and the sum of the weights of the kinds present, and adding a kind
never lowers it. -/
def Obligations.ScoreIsTheSaturatedSum : Prop :=
  ∀ (h : Header) (e : Evidence) (k : EvidenceKind),
    (h.score e).toNat = min 255
      ((if e.magnet then h.weightMagnet.toNat else 0) + (if e.cover then h.weightCover.toNat else 0) +
       (if e.reverse then h.weightReverse.toNat else 0) +
       (if e.regress then h.weightRegress.toNat else 0) + (if e.low then h.weightLow.toNat else 0) +
       (if e.stopped then h.weightStopped.toNat else 0) +
       (if e.repower then h.weightRepower.toNat else 0) +
       (if e.identity then h.weightIdentity.toNat else 0)) ∧
    (h.score e).toNat ≤ (h.score (e.add k)).toNat

/-- R84, R89, R90: a reading at or above the previous one is FORWARD by their difference; it is STOPPED when
the difference is 0, E is above 0 and T is at least S, and else LOW when T is above 0 and the difference times
1,024 is below E times T times L. R85 to R88, R90: a reading below the previous one is REVERSE within the
backstep limit, else ROLLOVER when the forward distance is plausible by the rate rule or the half-register
rule, else REGRESS. A ROLLOVER delta lies in 1 to M − B − 1 and may be LOW; the other two have delta 0. That T is 0
(R83) where the previous read day lies after the route date is the model's choice (log, entry 45, DESIGN CHOICE). -/
def Obligations.ReadingsAreAssessed : Prop :=
  (∀ (a : Assessment) (r : Record) (reading : Nat), r.previous.toNat ≤ reading →
    let delta := reading - r.previous.toNat
    let days := a.date.toNat - r.previousDay.toNat
    (assess a r reading).direction = .forward ∧ (assess a r reading).delta = delta ∧
    (delta = 0 → 0 < r.rate.toNat → a.stopDays.toNat ≤ days →
      (assess a r reading).evidence = some .stopped) ∧
    (¬(delta = 0 ∧ 0 < r.rate.toNat ∧ a.stopDays.toNat ≤ days) →
      days ≠ 0 → delta * 1024 < r.rate.toNat * days * a.lowRatio.toNat →
      (assess a r reading).evidence = some .low) ∧
    (¬(delta = 0 ∧ 0 < r.rate.toNat ∧ a.stopDays.toNat ≤ days) →
      (days = 0 ∨ r.rate.toNat * days * a.lowRatio.toNat ≤ delta * 1024) →
      (assess a r reading).evidence = none)) ∧
  (∀ (a : Assessment) (r : Record) (reading : Nat),
    reading < r.previous.toNat → r.previous.toNat < modulus r.dials →
    let back := r.previous.toNat - reading
    let forward := reading + modulus r.dials - r.previous.toNat
    let days := a.date.toNat - r.previousDay.toNat
    let fits := if 0 < r.rate.toNat ∧ 0 < days then
      forward * 1024 ≤ r.rate.toNat * days * a.rollover.toNat else forward * 2 ≤ modulus r.dials
    (back ≤ a.backstep.toNat → assess a r reading = ⟨.reverse, 0, some .reverse⟩) ∧
    (a.backstep.toNat < back → fits →
      assess a r reading = ⟨.rollover, forward,
        if days ≠ 0 ∧ forward * 1024 < r.rate.toNat * days * a.lowRatio.toNat then some .low else none⟩ ∧
      1 ≤ forward ∧ forward ≤ modulus r.dials - a.backstep.toNat - 1) ∧
    (a.backstep.toNat < back → ¬fits → assess a r reading = ⟨.regress, 0, some .regress⟩))

/-! ### The route's life -/

/-- R134: a header in range begins a route: it is written to the route area with the clock's checkpoint and
the state LOADING, the assessment unit takes its copy, the intake counters and the clock become 0, and the
answer is OK. Nothing else changes, and the other items of the route area keep their contents. -/
def Obligations.HeadersBeginRoutes : Prop :=
  ∀ (s : State) (p : HeaderParams) (h : Header), s.serving → s.route.state = .empty →
    p.header = some h → h.inRange = true →
    let m := ((s.mem.writeItem 1 (headerItem (some h))).writeItem 4 [0, 0, 0, 0]).writeItem 2
      (stateItem .loading s.segments.active)
    exec (.routeHeader p) s = .next { s with
      mem := m
      route := { s.route with state := .loading, header := some h, clock := 0, checkpointsDue := [] }
      assessment := some ⟨h.date, h.backstep, h.lowRatio, h.rollover, h.stopDays⟩
      matching := { s.matching with taken := 0, duplicates := 0, strangers := 0, faultHits := 0, drops := 0 }
      command := { s.command with unit := .responding, response := [0x01, 0x00], dataOut := [] } } ∧
    (s.mem.wf = true → m.readItem 1 = some (0x01 :: h.bytes) ∧
      m.readItem 2 = some [0x02, segByte s.segments.active] ∧ m.readItem 4 = some [0, 0, 0, 0] ∧
      ∀ j, j < 69 → j ≠ 1 → j ≠ 2 → j ≠ 4 → m.readItem j = s.mem.readItem j)

/-! ### Reports -/

/-- R58, R109, R129, R130, R147, R160: the reporting commands answer OK with their data, in the layouts of
R173, and change nothing else. The four ports of PORT_STATUS and the values of ROUTE_STATUS are read one after another:
before each but the first, a byte at a port, a gap, a step of the matching engine or a tenth of the route clock that
stands at the front of the queue may come first, which is a free value (log, entry 41, DESIGN CHOICE): the command then
stays EXECUTING with what it has read, and the report goes on when that row has been served, so that it is exact value
by value; with no such row there the values describe one instant. For UPLOAD_STATUS real time has passed: a running verdict timer
has counted down to a time left that is free (log, entry 5), never above the one before, and that is the one
reported. The first three are answered during scans too. -/
def Obligations.ReportsOnlyReport : Prop :=
  let port := fun x : Port => [x.mode.code, boolByte (decide (x.gathered ≠ [])), natByte x.buffer.length] ++
    halfBytes x.received ++ halfBytes x.damaged ++ halfBytes x.overflowed ++ [boolByte x.overflowMark, boolByte x.pulsing]
  let header := fun h : Header => wordBytes h.identity ++ halfBytes h.van ++ halfBytes h.date ++
    [h.weightMagnet, h.weightCover, h.weightReverse, h.weightRegress, h.weightLow, h.weightStopped,
      h.weightRepower, h.weightIdentity, h.hold, h.flag] ++ halfBytes h.backstep ++ [h.lowRatio] ++
    halfBytes h.rollover ++ [h.stopDays] ++ halfBytes h.duplicateWindow ++ halfBytes h.confirmGap ++
    [h.tolerance, h.redriveGap, h.redriveLimit, h.verdictTimeout]
  let values := fun (s : State) (r : Report) => match r with
    | .ports => [port (s.port 0), port (s.port 1), port (s.port 2), port (s.port 3)]
    | .route => [[s.route.state.code], [boolByte s.route.scanning.isSome],
        [(match s.route.scanning with | none => 0 | some .opening => 1 | some .recovery => 2)],
        boolByte s.route.header.isSome ::
          (match s.route.header with | some h => header h | none => List.replicate 32 0),
        wordBytes s.route.clock, natHalf (8192 - s.directory.length), natHalf (4096 - s.store.usedBlocks.length),
        wordBytes s.matching.taken, wordBytes s.matching.drops, wordBytes s.matching.strangers,
        wordBytes s.matching.faultHits, wordBytes s.matching.duplicates, [segByte s.segments.active],
        [(match s.route.lastStart with | .initialised => 1 | .recovered => 2 | .reset => 3)],
        halfBytes s.route.scanOccupied, halfBytes s.route.scanFailures, halfBytes s.route.scanCut,
        halfBytes s.route.scanDiscarded, halfBytes s.route.openFailures]
  let size := fun r : Report => match r with | .ports => 4 | .route => 19
  let moves := fun c : Instr => (∃ p b, c = .portByte p b) ∨ (∃ p, c = .byteGapTimeout p) ∨ c = .frameTake ∨
    c = .frameMatch ∨ c = .routeClockTick
  let met := fun s : State => ∃ c rest, s.pending = c :: rest ∧ moves c
  let rest := fun (r : Report) (k : Nat) => (List.range (size r)).drop k
  (∀ (s : State) (r : Report) (c : Instr), c = (match r with | .ports => .portStatus | .route => .routeStatus) →
    s.listening →
    exec c s = .next (State.reportOn r (rest r 1) ((values s r).getD 0 [])
      { s with command := { s.command with dataOut := [] } }) ∧
    (¬met s → exec c s = .next (s.reply .ok (values s r).flatten)) ∧
    (values s r).length = size r ∧ (values s r).flatten.length = match r with | .ports => 44 | .route => 76) ∧
  (∀ (s : State) (r : Report) (k : Nat) (ks : List Nat) (data : List Byte),
    let drew := { s with draws := s.draws + 1 }
    State.reportOn r [] data s = s.respond .ok data ∧
    (¬met s → State.reportOn r (k :: ks) data s = State.reportOn r ks (data ++ (values s r).getD k []) s) ∧
    (met s → State.reportOn r (k :: ks) data s = if Config.roadFirst s.draws = true
      then { drew with command := { s.command with unit := .executing (.reporting ⟨r, k, data⟩), response := [] } }
      else State.reportOn r ks (data ++ (values s r).getD k []) drew)) ∧
  (∀ (s : State) (r : Report) (ks : List Nat) (data : List Byte),
    let t := State.reportOn r ks data s
    t = { s with command := t.command, draws := t.draws } ∧
    (t.command.unit = .responding ∨ met s ∧ ∃ w, t.command.unit = .executing (.reporting w))) ∧
  (∀ s : State, ((∀ w, s.command.unit ≠ .executing (.reporting w)) → s.goOnReport = s) ∧
    ∀ w, s.command.unit = .executing (.reporting w) →
      s.goOnReport = State.reportOn w.report (rest w.report w.next) w.data s) ∧
  (∀ s : State, s.listening →
    (∃ left, (s.depot.timer = none → left = none) ∧
      (∀ was, s.depot.timer = some was → ∃ now, left = some now ∧ now.toNat ≤ was.toNat) ∧
      let t := { s with depot := { s.depot with timer := left }, draws := s.draws + 1 }
      let slots := s.depot.outstanding.flatMap fun e => natHalf e.1
      let data := [s.depot.link.code, boolByte s.depot.dockSense, s.depot.engine.code, s.depot.batchNumber,
          natByte s.depot.outstanding.length] ++ (slots ++ List.replicate 32 0).take 32 ++
        [(match s.depot.cursor with | some k => k.status.code | none => 0), natByte s.depot.failures] ++
        (match left with | some now => [1, now] | none => [0, 0]) ++ halfBytes s.depot.sent ++
        halfBytes s.depot.accepted ++ halfBytes s.depot.refused ++ halfBytes s.depot.timeouts ++
        halfBytes s.depot.damaged ++ halfBytes s.depot.stale
      exec .uploadStatus s = .next (t.reply .ok data) ∧ data.length = 53)) ∧
  (∀ s : State, s.serving →
    exec .planRead s = .next (s.reply .ok ([natByte s.segments.plan.length, segByte s.segments.active,
      natByte (min 16 s.segments.plan.length)] ++ (s.segments.plan.take 16).flatMap fun n =>
        [natByte n.val, (s.segment n).state.code] ++ natHalf (s.segment n).outstanding)) ∧
    exec .tamperRead s = .next (s.reply .ok ([natByte s.tamper.entries.length] ++
      halfBytes s.tamper.evictions ++ halfBytes s.tamper.turnedAway ++
      [s.tamper.cabMode.code, boolByte s.tamper.invert, boolByte s.cabActive,
        natByte (min 8 s.tamper.entries.length)] ++
      (s.tamper.entries.take 8).flatMap fun e => natHalf e.slot ++ wordBytes e.serial ++
        [e.score, e.evidence.byte] ++ wordBytes e.flagTime ++ [boolByte e.unconfirmed])) ∧
    (∀ (b : Byte) (n : Seg), b.toNat = n.val →
      exec (.segmentStatus b) s = .next (s.reply .ok (
        halfBytes (s.segment n).base ++ halfBytes (s.segment n).limit ++ halfBytes (s.segment n).dwell ++
        [(s.segment n).state.code, boolByte (s.segment n).visited,
          boolByte (decide ((s.segment n).state = .complete ∧ (s.segment n).visited = false)),
          natByte (s.segment n).redrive] ++
        optWordBytes (s.segment n).entryTime ++ [boolByte (s.segment n).overrun] ++
        natHalf (s.segment n).members ++ natHalf (s.segment n).outstanding ++
        natHalf (s.segment n).done ++ natHalf (s.segment n).faulted ++
        [planPosition s.segments.plan n, segByte s.segments.active]))) ∧
    (∀ b : Byte, 64 ≤ b.toNat → exec (.segmentStatus b) s = .next (s.reply .badParam [])))

/-! ### Events and the command port -/

/-- R170: the enable set given replaces the present one, ATTENTION is active exactly when the pending set
then has an event of it, the answer is OK with the pending set, and the pending set is as it was. R169 for
comparison: EVENTS_READ reports the pending set as it stood, the enable set and the collision count, and takes
the events named out of the pending set. -/
def Obligations.EventCommandsTakeEffect : Prop :=
  ∀ s : State, s.listening →
    (∀ enable : Half, let t := { s with
        events := { s.events with enabled := enable.setWidth 10 }
        command := { s.command with
          unit := .responding, dataOut := []
          response := [0x01, 0x02] ++ halfBytes (s.events.pending.setWidth 16) } }
      exec (.eventsEnable enable) s = .next t ∧
      (t.attention = true ↔ ∃ i, i < 10 ∧ s.events.pending.getLsbD i = true ∧ enable.getLsbD i = true)) ∧
    (∀ clear : Half, let t := { s with
        events := { s.events with pending := s.events.pending &&& ~~~(clear.setWidth 10) }
        command := { s.command with
          unit := .responding, dataOut := []
          response := [0x01, 0x06] ++ halfBytes (s.events.pending.setWidth 16) ++
            halfBytes (s.events.enabled.setWidth 16) ++ halfBytes s.command.collisions } }
      exec (.eventsRead clear) s = .next t)

/-- R162, R163, R164, R172: a read selection takes the response, padded with zeros past its end, and leaves
the unit IDLE; with none waiting, or another direction byte, the host receives zeros; a malformed block is
answered BAD_COMMAND, during scans too; a block taken while a command or response is held is counted, and
raises COLLISION. Nothing else changes; a write selection clocks out nothing but 00h, and no byte of it is
listed (log, entry 30). -/
def Obligations.SelectionsTakeEffect : Prop :=
  ∀ s : State, s.power = .on →
    (∀ n, s.command.unit = .responding → exec (.responseRead 0xA5 n) s = .next { s with
      command := { s.command with
        unit := .idle, response := []
        dataOut := s.command.response.take n ++
          List.replicate (n - s.command.response.length) 0x00 } }) ∧
    (∀ n, s.command.unit ≠ .responding → exec (.responseRead 0xA5 n) s = .next { s with
      command := { s.command with dataOut := List.replicate n 0x00 } }) ∧
    (∀ direction n, direction ≠ 0xA5 → direction ≠ 0x5A →
      exec (.responseRead direction n) s = .next { s with
        command := { s.command with dataOut := List.replicate n 0x00 } }) ∧
    (∀ block, decodeBlock block = none → s.command.unit = .idle →
      exec (.badCommandBlock 0x5A block) s = .next { s with
        command := { s.command with unit := .responding, response := [0x02, 0x00], dataOut := [] } }) ∧
    (∀ direction block, direction ≠ 0xA5 → direction ≠ 0x5A →
      exec (.badCommandBlock direction block) s = .next { s with
        command := { s.command with dataOut := List.replicate block.length 0x00 } }) ∧
    (s.command.unit ≠ .idle → exec .commandCollision s = .next { s with
      command := { s.command with
        collisions := BitVec.ofNat 16 (min 65535 (s.command.collisions.toNat + 1)), dataOut := [] }
      events := { s.events with pending := s.events.pending ||| 0x100 } })

/-! ### The cab indicator, the route clock and the timers -/

/-- R112: CAB_MODE is BUSY while a route scan runs and BAD_PARAM for an unknown mode; otherwise it sets the
mode and invert and is answered OK, a change of mode stops the pulse timer, and the output follows the new
mode: inactive in OFF, active in LEVEL if the queue holds an entry, and active in PULSE only while a
pulse that already ran in PULSE mode runs on. Nothing else changes. -/
def Obligations.CabModeIsSet : Prop :=
  ∀ (s : State) (mode invert : Byte), s.listening →
    (s.route.scanning ≠ none → exec (.cabMode mode invert) s = .next (s.reply .busy [])) ∧
    (s.route.scanning = none → 2 < mode.toNat →
      exec (.cabMode mode invert) s = .next (s.reply .badParam [])) ∧
    (∀ m inv, s.route.scanning = none → mode = m.code → invert = boolByte inv →
      let t := { s with tamper := { s.tamper with
        cabMode := m, invert := inv
        pulseRunning := s.tamper.pulseRunning && decide (m = s.tamper.cabMode) } }.reply .ok []
      exec (.cabMode mode invert) s = .next t ∧
      t.cabActive = (match m with
        | .off => false
        | .level => decide (s.tamper.entries ≠ [])
        | .pulse => s.tamper.pulseRunning && decide (s.tamper.cabMode = .pulse)) ∧
      t.cabPin = (t.cabActive != inv))

/-- R111, R125, R136, R137: the running clock rises by a tenth and holds at its maximum, and as it reaches a
multiple of 600 or the maximum a checkpoint with that value falls due; the checkpoint due longest is written, with
the clock's value at its moment; the dwell compare expires once when the clock has reached its target; a running
pulse ends. Nothing else changes, and a clock that does not run, no checkpoint due and a target not reached
change nothing; but a leave walk that the tenth or the expiry has met goes on after it, from the slot that it had come
to (log, entry 59, DESIGN CHOICE), so that the compare expires within a long walk. That a checkpoint stays due until
CLOCK_CHECKPOINT writes it is the model's choice (log, entry 24, DESIGN CHOICE), and that the compare also expires at a
clock above its target is log, entry 25 (DEDUCED). A ROUTE_STATUS or PORT_STATUS that a tenth has met goes on after it
(R147; log, entry 41, DESIGN CHOICE). -/
def Obligations.ClockAndTimersRun : Prop :=
  ∀ s : State, s.power = .on →
    let alone := ∀ w, s.command.unit ≠ .executing (.leaving w)
    let resumed := fun (w : Leaving) (t : State) => State.leaveOn w.segment w.entering
      (((s.directory.filter fun e => e.2.segment = some w.segment).map (·.1)).filter fun k => w.next ≤ k) (t, w.counts)
    (s.route.state = .opened → s.route.scanning = none →
      let v : Word := BitVec.ofNat 32 (min 4294967295 (s.route.clock.toNat + 1))
      let ticked := { s with route := { s.route with
        clock := v
        checkpointsDue := s.route.checkpointsDue ++
          if v ≠ s.route.clock ∧ (v.toNat % 600 = 0 ∨ v.toNat = 4294967295) then [v] else [] } }
      (alone → exec .routeClockTick s = .next ticked.goOnReport) ∧
      (∀ w, s.command.unit = .executing (.leaving w) → exec .routeClockTick s = .next (resumed w ticked)) ∧
      (∀ v rest, s.route.checkpointsDue = v :: rest → exec .clockCheckpoint s = .next { s with
        mem := s.mem.writeItem 4 (wordBytes v)
        route := { s.route with checkpointsDue := rest } }) ∧
      (s.route.checkpointsDue = [] → exec .clockCheckpoint s = .next s)) ∧
    (s.route.state ≠ .opened ∨ s.route.scanning ≠ none → exec .routeClockTick s = .next s.goOnReport ∧
      exec .clockCheckpoint s = .next s) ∧
    (∀ target n, s.segments.dwellTarget = some target → s.segments.active = some n →
      let expired := { s with
        segments := { s.segments with
          entries := s.segments.entries.set n.val { s.segment n with overrun := true }
          dwellTarget := none }
        events := { s.events with pending := s.events.pending ||| 0x4 } }
      (target ≤ s.route.clock.toNat → (alone → exec .dwellCompareExpire s = .next expired) ∧
        ∀ w, s.command.unit = .executing (.leaving w) →
          exec .dwellCompareExpire s = .next (resumed w expired)) ∧
      (s.route.clock.toNat < target → (alone → exec .dwellCompareExpire s = .next s) ∧
        ∀ w, s.command.unit = .executing (.leaving w) → exec .dwellCompareExpire s = .next (resumed w s))) ∧
    (s.tamper.pulseRunning = true → exec .pulseTimerExpire s = .next { s with
      tamper := { s.tamper with pulseRunning := false } })

/-! ### The depot link and the upload -/

/-- R148, R150, R152, R157: UPLOAD_START runs the engine from a CLOSED route with the link ATTACHED or
FAULTED, the failure count at 0 and the cursor at start; UPLOAD_STOP ends it and a survey under way, or leaves it
STOPPING while a batch is outstanding, one whose marking has begun among them; docking attaches a DETACHED link;
removal detaches it and ends the engine and a survey or marking under way, with the outstanding batch, or the records
marked so far, returned record by record, each losing its batch field (R156); an OFFER sent starts the verdict
timer. Nothing else changes; that a removal keeps a partly received depot frame is log, entry 22 (DEDUCED). -/
def Obligations.UploadsStartAndStop : Prop :=
  (∀ s : State, s.serving → s.route.state = .closed → s.depot.engine = .idle →
    (s.depot.link = .attached ∨ s.depot.link = .faulted) →
    exec .uploadStart s = .next ({ s with depot := { s.depot with
      link := .attached, failures := 0, cursor := none, engine := .running } }.reply .ok [])) ∧
  (∀ s : State, s.serving →
    (s.depot.engine = .running → s.depot.outstanding = [] → exec .uploadStop s =
      .next ({ s with depot := { s.depot with engine := .idle, forming := none } }.reply .ok [])) ∧
    (s.depot.engine = .running → s.depot.outstanding ≠ [] → exec .uploadStop s =
      .next ({ s with depot := { s.depot with engine := .stopping } }.reply .ok [])) ∧
    (s.depot.engine ≠ .running → exec .uploadStop s = .next (s.reply .ok []))) ∧
  (∀ s : State, s.power = .on →
    (s.depot.link = .detached → exec .dockAttach s = .next { s with
      depot := { s.depot with dockSense := true, link := .attached } }) ∧
    (s.depot.link ≠ .detached → exec .dockAttach s = .next { s with
      depot := { s.depot with dockSense := true } }) ∧
    (s.depot.outstanding = [] → exec .dockRemoval s = .next { s with depot := { s.depot with
      dockSense := false, link := .detached, timer := none, engine := .idle, forming := none } }) ∧
    (s.depot.outstanding ≠ [] → let u := s.depot.outstanding.foldl State.returnOne s
      Quiet s u ∧ exec .dockRemoval s = .next { u with depot := { s.depot with
        dockSense := false, link := .detached, timer := none, engine := .idle, outstanding := []
        forming := none, cursor := none, batchNumber := s.depot.batchNumber + 1 } }) ∧
    (s.depot.link = .sending → exec .offerSent s = .next { s with depot := { s.depot with
      link := .awaiting, timer := some s.params.verdictTimeout
      sent := BitVec.ofNat 16 (min 65535 (s.depot.sent.toNat + 1)) } }))

/-! ### Segments and the drive plan -/

/-- R114, R127, R113: a definition taken stores the window and dwell limit and, as it enables or disables the
segment, makes it UNVISITED in the plan before the first higher number, or DISABLED and out of the plan;
PLAN_MOVE places an UNVISITED or REDRIVE segment at its position of the plan without it, and re-admits an
ABANDONED one with a redrive count of 0. What changes of the segment and the plan is written through, and
nothing else changes. -/
def Obligations.WindowsAndPlanAreSet : Prop :=
  ∀ (s : State) (b : Byte) (n : Seg), s.serving → b.toNat = n.val →
    (∀ base limit dwell : Half, s.route.state = .loading → base.toNat ≤ 4095 → limit.toNat ≤ 4095 →
      (∀ k : Seg, k ≠ n → base.toNat ≤ limit.toNat → (s.segment k).enabled = true →
        limit.toNat < (s.segment k).base.toNat ∨ (s.segment k).limit.toNat < base.toNat) →
      let was := (s.segment n).enabled
      let is := decide (base.toNat ≤ limit.toNat)
      let without := s.segments.plan.filter fun k => k ≠ n
      let e := { s.segment n with
        base := base, limit := limit, dwell := dwell
        state := if was = is then (s.segment n).state else if is then .unvisited else .disabled }
      let plan := if was = is then s.segments.plan
        else if is then without.takeWhile (fun k => decide (k ≤ n)) ++
          n :: without.dropWhile (fun k => decide (k ≤ n))
        else without
      ∃ m, exec (.segmentDefine b base limit dwell) s = .next ({ s with
          mem := m, segments := { s.segments with
            entries := s.segments.entries.set n.val e, plan := plan } }.reply .ok []) ∧
        s.writtenThrough m n e plan) ∧
    (∀ p : Byte, s.route.state = .loading ∨ s.route.state = .opened →
      (s.segment n).state = .unvisited ∨ (s.segment n).state = .redrive ∨
        (s.segment n).state = .abandoned →
      let e := if (s.segment n).state = .abandoned then
        { s.segment n with state := .redrive, redrive := 0 } else s.segment n
      let without := s.segments.plan.filter fun k => k ≠ n
      let plan := without.take p.toNat ++ n :: without.drop p.toNat
      ∃ m, exec (.planMove b p) s = .next ({ s with
          mem := m, segments := { s.segments with
            entries := s.segments.entries.set n.val e, plan := plan } }.reply .ok
              [natByte (min p.toNat without.length)]) ∧
        s.writtenThrough m n e plan)

/-- R120: SEGMENT_ENTER with no segment active makes an UNVISITED, REDRIVE or ABANDONED segment ACTIVE: out of
the plan, visited, its overrun mark clear, its entry time the clock's value, and the dwell compare armed with
the entry time and the dwell limit, or disarmed for a limit of 0; the segment's item, the plan and the state block
are written through, and no other item (R113). A COMPLETE segment stays so. With another
segment active, that one is left first, the engines working beside its walk (R122; log, entries 39 and 63), and
whenever that walk ends, as it may after a row of time that has met it (R125; log, entry 59), the other one is entered.
A segment already ACTIVE stands. With no segment left the answer's three counts are 0, which is the model's choice
(log, entry 42, DESIGN CHOICE). -/
def Obligations.SegmentsAreEntered : Prop :=
  ∀ (s : State) (b : Byte) (n : Seg), s.serving → b.toNat = n.val → s.route.state = .opened →
    (s.segments.active = none →
      (s.segment n).state = .unvisited ∨ (s.segment n).state = .redrive ∨
        (s.segment n).state = .abandoned →
      ∃ u, s.entered n u ∧ exec (.segmentEnter b) s =
        .next (u.reply .ok [0x02, 0xFF, 0xFF, 0, 0, 0, 0, 0, 0])) ∧
    (s.segments.active = none → (s.segment n).state = .complete →
      exec (.segmentEnter b) s = .next (s.reply .ok [0x04, 0xFF, 0xFF, 0, 0, 0, 0, 0, 0])) ∧
    ((s.segment n).state = .active →
      exec (.segmentEnter b) s = .next (s.reply .ok [0x02, 0xFF, 0xFF, 0, 0, 0, 0, 0, 0])) ∧
    (∀ left, s.segments.active = some left → left ≠ n →
      (s.segment n).state ≠ .active → (s.segment n).state ≠ .disabled →
      exec (.segmentEnter b) s = .next (State.leaveOn left (some n)
        ((s.directory.filter fun e => e.2.segment = some left).map (·.1))
        ({ s with segments := { s.segments with leaving := some left } }, ⟨0, 0, 0⟩)) ∧
      (s.pending.head? ≠ some .routeClockTick → s.pending.head? ≠ some .dwellCompareExpire →
        BesideWalk s (s.drivenWalk left).1 ∧
        exec (.segmentEnter b) s = .next (State.left left (some n) (s.drivenWalk left))) ∧
      ∀ walked : State × WalkCounts,
        let x := State.settleLeft left { walked.1 with segments := { walked.1.segments with leaving := none } }
        let data := [natByte left.val, (x.segment left).state.code] ++ natHalf walked.2.missed ++
          natHalf walked.2.flagged ++ natHalf walked.2.failures
        x.segments.active = none ∧
        ((x.segment n).state = .unvisited ∨ (x.segment n).state = .redrive ∨ (x.segment n).state = .abandoned →
          ∃ u, x.entered n u ∧ State.left left (some n) walked = u.reply .ok (0x02 :: data)) ∧
        ((x.segment n).state = .complete → State.left left (some n) walked = x.reply .ok (0x04 :: data)))

/-- R121: what the leave walk makes of a record whose line it has taken without a check failure: PENDING
becomes MISSED; HELD is committed and FLAGGED, unconfirmed, at the clock's value, and reported, so that the
tamper queue places its entry (R104), with NEW_FLAG where there is room; any other record, a FAULT record among
them, stands. A fill that fails its check counts as a check failure, and nothing is made MISSED or FLAGGED: the
record is then FAULT (R18), as the taking of its line has left it. Each visit lets its line go. R115: the change
of class is reported to the segment unit, with the completion and SEGMENT_DONE that the report brings. -/
def Obligations.WalksSettleRecords : Prop :=
  (∀ (s : State) (u : Holder) (slot : Nat) (w : WalkCounts),
    let y := s.takeLine u slot
    let v := State.settleSlot u slot (s, w)
    (y.2 = true → v = (y.1.letGo slot, { w with failures := w.failures + 1 }) ∧
      ∀ d, s.directory.get slot = some d → v.1.directory.get slot = some ⟨.fault, d.segment, [], false⟩ ∧
        ∃ serial, v.1.cached slot = .fault serial d.segment) ∧
    (∀ serial segment, y.2 = false → y.1.cached slot = .fault serial segment → v = (y.1.letGo slot, w))) ∧
  ∀ (s : State) (u : Holder) (slot : Nat) (w : WalkCounts) (r : Record) (d : DirEntry),
    let s1 := (s.takeLine u slot).1
    let t := (State.settleSlot u slot (s, w)).1
    let w' := (State.settleSlot u slot (s, w)).2
    let x : TamperEntry := ⟨slot, r.serial, r.score, r.evidence, s.route.clock, true⟩
    let told := fun status : LiveStatus =>
      let v := s1.report (some ⟨d.segment, d.status⟩) (some ⟨r.segment, .live status⟩)
      t.segments = v.segments ∧ t.events.pending.getLsbD 1 = v.events.pending.getLsbD 1
    (s.takeLine u slot).2 = false → s1.cached slot = .live r → s1.directory.get slot = some d →
    Quiet s t ∧
    (r.status = .pending → w' = { w with missed := w.missed + 1 } ∧ t.tamper = s1.tamper ∧
      t.cached slot = .live { r with status := .missed } ∧
      t.directory.get slot = some ⟨.live .missed, r.segment, d.chain, r.batch.isSome⟩ ∧ told .missed) ∧
    (r.status = .held → told .flagged ∧ w' = { w with flagged := w.flagged + 1 } ∧
      t.cached slot = .live { r with
        current := if r.candidate.isSome then r.candidate else r.current, candidate := none
        status := .flagged, flagTime := some s.route.clock
        marks := { r.marks with unconfirmed := true } } ∧
      t.directory.get slot =
        some ⟨.live .flagged, r.segment, d.chain, r.batch.isSome⟩ ∧
      t.tamper = ((s1.removedReport slot).placeInQueue x).tamper ∧
      (s1.tamper.entries.length < 128 → x ∈ t.tamper.entries ∧ t.events.pending.getLsbD 0 = true)) ∧
    (r.status ≠ .pending → r.status ≠ .held → w' = w ∧ t.cached slot = .live r ∧
      t.directory = s1.directory ∧ t.mem = s1.mem ∧ t.tamper = s1.tamper ∧ t.segments = s1.segments ∧
      t.events = s1.events)

/-- R123, R124: when the walk is over, the segment with nothing outstanding is COMPLETE and SEGMENT_DONE is
raised; else its redrive count rises by 1, holding at 7, and beyond the redrive limit it is ABANDONED, else it
is REDRIVE in the plan at the lesser of the redrive gap and the plan's length. No segment is active, the dwell
compare is disarmed, and the answer gives the segment left, its state, its redrive count and the walk's
counts; the left segment's item, the plan and the state block are written through and no other item, and the records,
the cache, the tamper queue and the memory below stand as the walk left them (R113, R126). With no frame in hand and
none waiting, and no batch in the middle of its forming or about to be formed, the walk is its visits in slot order;
else the engines work beside it (R122; log, entries 39 and 63).
Before each visit and after the last, a tenth of the clock or the end of the dwell compare that stands at the front of
the queue may come first, which is a free value: the command then stays EXECUTING, with the segment still ACTIVE (R121,
R125; log, entry 59, DESIGN CHOICE). With no segment active SEGMENT_LEAVE changes nothing, and its answer's
redrive count of 0 is the model's choice (log, entry 42). R115, R118, R119: a report moves a record between the
counters; a count of outstanding records that reaches 0 completes the segment, unless a walk is on it, and one
that rises from 0 reopens a COMPLETE one; while a scan runs it only counts; what changes of a segment, the plan
and the active number is written through. -/
def Obligations.SegmentsAreLeft : Prop :=
  (∀ s : State, s.serving → s.route.state = .opened →
    (s.segments.active = none → exec .segmentLeave s =
      .next (s.reply .ok [0xFF, 0xFF, 0, 0, 0, 0, 0, 0, 0])) ∧
    (∀ n, s.segments.active = some n →
      let slots := (s.directory.filter fun e => e.2.segment = some n).map (·.1)
      let begun := ({ s with segments := { s.segments with leaving := some n } }, (⟨0, 0, 0⟩ : WalkCounts))
      let visits := slots.foldl (fun x slot => State.settleSlot .command slot x) begun
      let w := s.drivenWalk n
      exec .segmentLeave s = .next (State.leaveOn n none slots begun) ∧
      (s.pending.head? ≠ some .routeClockTick → s.pending.head? ≠ some .dwellCompareExpire →
        exec .segmentLeave s = .next (State.left n none w)) ∧
      (s.matching.inHand = none → (∀ p, (s.port p).buffer = []) → s.depot.forming = none →
        s.pending.head? ≠ some .batchForm → w = ({ visits.1 with
          segments := { visits.1.segments with leaving := none } }, visits.2)) ∧
      BesideWalk s w.1 ∧ w.1.segments.active = some n ∧ (s.Ok → w.1.mem.wf = true))) ∧
  (∀ (s : State) (n : Seg) (entering : Option Seg) (slots : List Nat) (counts : WalkCounts),
    let waits := s.pending.head? = some .routeClockTick ∨ s.pending.head? = some .dwellCompareExpire
    let drew := { s with draws := s.draws + 1 }
    let t := State.leaveOn n entering slots (s, counts)
    let goesOn := fun u : State => match slots with
      | [] => State.left n entering (u.beside, counts)
      | slot :: rest =>
        State.leaveOn n entering rest (State.visitBeside slot (State.settleSlot .command slot) (u, counts))
    (¬waits → t = goesOn s) ∧
    (waits → t = if Config.tenthFirst s.draws = true then { drew with command := { s.command with
        unit := .executing (.leaving ⟨n, slots.head?.getD 8192, counts, entering⟩), response := [], dataOut := [] } }
      else goesOn drew) ∧
    t.pending = s.pending ∧
    (s.segments.active = some n → s.segments.leaving = some n → t.command.unit = .responding ∨
      waits ∧ t.segments.active = some n ∧ t.segments.leaving = some n ∧
        ∃ next met, t.command.unit = .executing (.leaving ⟨n, next, met, entering⟩))) ∧
  (∀ (walked : State × WalkCounts) (n : Seg), walked.1.segments.active = some n →
    walked.1.route.state = .opened →
    let y := { walked.1 with segments := { walked.1.segments with leaving := none } }
    let e := y.segment n
    let without := y.segments.plan.filter fun k => k ≠ n
    let redrive := min 7 (e.redrive + 1)
    ∃ u, Quiet y u ∧
      u.segments.active = none ∧ u.segments.dwellTarget = none ∧
      (∀ k, k ≠ n → u.segment k = y.segment k) ∧
      u.directory = y.directory ∧ u.store = y.store ∧ u.tamper = y.tamper ∧
      u.matching = y.matching ∧
      (∃ m, y.writtenThrough m n (u.segment n) u.segments.plan ∧ u.mem = m.writeItem 2 [0x03, 0xFF] ∧
        (y.mem.wf = true → u.mem.readItem 2 = some [0x03, 0xFF] ∧
          (∀ j, j < 69 → j ≠ 2 → u.mem.readItem j = m.readItem j) ∧
          ∀ a, a < Config.routeBase → u.mem.read a = y.mem.read a)) ∧
      (e.outstanding = 0 → u.segment n = { e with state := .complete } ∧ u.segments.plan = without ∧
        u.events.pending = y.events.pending ||| 0x2) ∧
      (e.outstanding ≠ 0 → u.events = y.events ∧
        (y.params.redriveLimit.toNat < redrive →
          u.segment n = { e with redrive := redrive, state := .abandoned } ∧
          u.segments.plan = without) ∧
        (redrive ≤ y.params.redriveLimit.toNat →
          u.segment n = { e with redrive := redrive, state := .redrive } ∧
          u.segments.plan = without.take (min y.params.redriveGap.toNat without.length) ++
            n :: without.drop (min y.params.redriveGap.toNat without.length))) ∧
      State.left n none walked = u.reply .ok
        ([natByte n.val, (u.segment n).state.code, natByte (u.segment n).redrive] ++
          natHalf walked.2.missed ++ natHalf walked.2.flagged ++ natHalf walked.2.failures)) ∧
  (∀ (s : State) (old new : Option Place),
    let t := s.report old new
    let here := fun (p : Option Place) (n : Seg) (c : Machine.Class → Bool) =>
      if p.any (fun q => q.segment = some n ∧ c q.status.cls) then 1 else 0
    let moved := fun (n : Seg) (c : Machine.Class → Bool) (count : Nat) => count - here old n c + here new n c
    (∀ n, (t.segment n).members = moved n (fun _ => true) (s.segment n).members ∧
      (t.segment n).outstanding = moved n (· = .outstanding) (s.segment n).outstanding ∧
      (t.segment n).done = moved n (· = .done) (s.segment n).done ∧
      (t.segment n).faulted = moved n (· = .faulted) (s.segment n).faulted) ∧
    (s.mem.wf = true →
      (∀ n : Seg, t.mem.readItem (5 + n.val) =
        if segmentItem (t.segment n) = segmentItem (s.segment n) then s.mem.readItem (5 + n.val)
        else some (segmentItem (t.segment n))) ∧
      t.mem.readItem 3 = (if t.segments.plan = s.segments.plan then s.mem.readItem 3
        else some (planItem t.segments.plan)) ∧
      t.mem.readItem 2 = (if t.segments.active = s.segments.active then s.mem.readItem 2
        else some [s.route.state.code, 0xFF]) ∧
      t.mem.readItem 1 = s.mem.readItem 1 ∧ t.mem.readItem 4 = s.mem.readItem 4 ∧
      ∀ a, a < Config.routeBase → t.mem.read a = s.mem.read a) ∧
    (s.route.scanning ≠ none → t.events = s.events ∧ t.segments.plan = s.segments.plan ∧
      t.segments.active = s.segments.active ∧ ∀ n, (t.segment n).state = (s.segment n).state) ∧
    (s.route.scanning = none → ∀ n,
      let e := s.segment n
      let e' := t.segment n
      (e.outstanding ≠ 0 → e'.outstanding = 0 → s.segments.leaving ≠ some n → e.state ≠ .disabled →
        e.state ≠ .complete → e'.state = .complete ∧ n ∉ t.segments.plan ∧
          t.segments.active ≠ some n ∧ t.events.pending.getLsbD 1 = true) ∧
      (e.outstanding = 0 → e'.outstanding ≠ 0 → e.state = .complete →
        (s.route.state = .opened → e'.state = (if e.visited then .redrive else .unvisited) ∧
          t.segments.plan.getLast? = some n) ∧
        (s.route.state = .closed → e'.state = .abandoned)) ∧
      ((e.outstanding = 0 ↔ e'.outstanding = 0) →
        e'.state = e.state ∧ (n ∈ t.segments.plan ↔ n ∈ s.segments.plan))))

/-! ### The record store -/

/-- R32, R35: the victim is the lowest-numbered INVALID line, or else the least recently used line that no
unit holds; a DIRTY victim's image first joins the tail of the write queue, for which a full queue's oldest
entry is written; and the line a unit takes holds the newest copy of the slot: what a line already held, else
the newest image in the write queue, else what memory holds, if its check byte holds: a read of memory is one
access, after which the oldest queued image is written (R34, R36), and the search of the index for the serial of a
record that fails its check is none, which is the model's count (log, entry 9, DESIGN CHOICE). R18: a fill whose check
fails makes the record FAULT, with the serial of the index entry that names the slot; its blocks are free, its
tamper queue entry and recent-match entry are gone, the directory and the segment unit have it as FAULT, and
RECORD_FAULT is raised. -/
def Obligations.LinesHoldTheNewestCopy : Prop :=
  ∀ (s : State) (u : Holder) (slot : Nat), s.Ok →
    let v := s.victim
    let s1 := s.evict v
    let granted := s1.grants u 1
    let t := (s.takeLine u slot).1
    (∀ i : Fin 8, (s.line i).body = none → (s.line i).holder = none →
      (s.line v).body = none ∧ (s.line v).holder = none ∧ v ≤ i) ∧
    ((∀ i : Fin 8, (s.line i).body ≠ none ∨ (s.line i).holder ≠ none) →
      ∀ before i after, s.store.recency = before ++ i :: after → (s.line i).holder = none →
        (∀ j ∈ after, (s.line j).holder ≠ none) → v = i) ∧
    ((∀ b, (s.line v).body = some b → b.dirty = false) → s1 = s) ∧
    (∀ b, (s.line v).body = some b → b.dirty = true →
      (s.store.queue.length < 4 → s1 = { s with store := { s.store with
        queue := s.store.queue ++ [⟨b.slot, b.contents⟩] } }) ∧
      (∀ q rest, s.store.queue = q :: rest → rest.length = 3 →
        s1.mem = s.mem.writeSlot q.slot q.contents ∧
        s1.store.queue = rest ++ [⟨b.slot, b.contents⟩])) ∧
    (∀ i, s.lineOf slot = some i →
      t.cached slot = s.cached slot ∧ (t.line i).holder = some u ∧ t.mem = s.mem ∧
      t.store.queue = s.store.queue) ∧
    (s.lineOf slot = none →
      (t.line v).holder = some u ∧
      (∀ c, s1.queued slot = some c →
        t.cached slot = c ∧ t.mem = s1.mem ∧ t.store.queue = s1.store.queue ∧ t.directory = s.directory) ∧
      (s1.queued slot = none → checkHolds 64 (s1.mem.slotBytes slot) = true →
        t.cached slot = Contents.ofBytes (s1.mem.slotBytes slot) ∧ t.mem = granted.mem ∧
        t.store.queue = granted.store.queue ∧ t.store.granted = granted.store.granted ∧
        t.directory = s.directory) ∧
      (∀ d, s1.queued slot = none → checkHolds 64 (s1.mem.slotBytes slot) = false →
        s.directory.get slot = some d →
        let told := s1.report (some ⟨d.segment, d.status⟩) (some ⟨d.segment, .fault⟩)
        (∃ serial, t.cached slot = .fault serial d.segment) ∧
        (∀ n, n < 16384 → granted.mem.entrySerial n ≠ 0 → granted.mem.entrySlot n = slot →
          (∀ k, k < 16384 → granted.mem.entrySerial k ≠ 0 → granted.mem.entrySlot k = slot → k = n) →
          t.cached slot = .fault (granted.mem.entrySerial n) d.segment) ∧
        t.directory.get slot = some ⟨.fault, d.segment, [], false⟩ ∧
        (∀ k, k ≠ slot → t.directory.get k = s.directory.get k) ∧
        (∀ k, k ∈ t.store.usedBlocks ↔ k ∈ s.store.usedBlocks ∧ ∀ b ∈ d.chain, b.1 ≠ k) ∧
        t.tamper = { s.tamper with entries := s.tamper.entries.filter fun e => e.slot != slot } ∧
        t.matching = { s.matching with buffer := s.matching.buffer.filter fun e => e.slot != slot } ∧
        t.segments = told.segments ∧ t.events.pending = told.events.pending ||| 0x10 ∧ Quiet s t ∧
        t.store.queue = granted.store.queue ∧
        ∀ x, x < Config.routeBase → t.mem.read x = granted.mem.read x))

/-- R34, R42: FLUSH places the image of every DIRTY line at the tail of the write queue, in line order, makes
each line CLEAN and free, and waits for the entries then queued; entries are written strictly oldest first,
none lost; each is written to its slot with its check byte, and the wait shortens by it; with none left to
wait for, FLUSH is answered OK. After each access that the arbiter grants, one entry is written while the queue is
not empty, whichever unit it is granted to; the scan's accesses are no grants (R36). That FLUSH_DRAIN_DONE answers
even with nothing to write is log, entry 26 (DEDUCED), and that of the writes in idle time one is made at each
WRITE_QUEUE_WRITE, and one when room is needed, is the model's choice (log, entry 9, DESIGN CHOICE). -/
def Obligations.FlushWritesBack : Prop :=
  (∀ s : State, s.serving → ∃ (t : State) (written : List Queued), exec .flush s = .next t ∧
    t = { s with
      mem := written.foldl (fun m q => m.writeSlot q.slot q.contents) s.mem
      store := t.store
      command := { s.command with unit := .executing (.flush t.store.queue.length), dataOut := [] } } ∧
    t.store = { s.store with
      lines := t.store.lines, recency := t.store.recency, queue := t.store.queue } ∧
    written ++ t.store.queue = s.store.queue ++ s.dirtyImages ∧
    ∀ i : Fin 8, t.line i = (match (s.line i).body with
      | some b => if b.dirty then ⟨some { b with dirty := false }, none⟩ else s.line i
      | none => s.line i)) ∧
  (∀ (s : State) (q : Queued) (rest : List Queued), s.power = .on → s.store.queue = q :: rest →
    exec .writeQueueWrite s = .next { s with
      mem := s.mem.writeBytes (slotAddress q.slot) q.contents.image
      store := { s.store with queue := rest }
      command := { s.command with unit := (match s.command.unit with
        | .executing (.flush n) => .executing (.flush (n - 1))
        | other => other) } } ∧
    (s.mem.wf = true → let m := s.mem.writeBytes (slotAddress q.slot) q.contents.image
      m.slotBytes q.slot = q.contents.image ∧ checkHolds 64 (m.slotBytes q.slot) = true ∧
      s.mem.sameBut m (slotAddress q.slot) 64)) ∧
  (∀ s : State, s.power = .on → s.command.unit = .executing (.flush 0) →
    exec .flushDrainDone s = .next { s with
      command := { s.command with unit := .responding, response := [0x01, 0x00] } }) ∧
  (∀ (s : State) (n : Nat),
    let granted := fun unit : Requester => { s with
      mem := (s.store.queue.take n).foldl (fun m q => m.writeSlot q.slot q.contents) s.mem
      store := { s.store with granted := unit, queue := s.store.queue.drop n }
      command := { s.command with unit := (match s.command.unit with
        | .executing (.flush k) => .executing (.flush (k - min n s.store.queue.length))
        | other => other) } }
    s.grants .scan n = s ∧ (∀ u, s.grants u 0 = s) ∧
    (0 < n → s.grants .matching n = granted .matching ∧ s.grants .command n = granted .command ∧
      s.grants .upload n = granted .upload))

/-! ### Records -/

/-- R9, R1, R37: a load in range, of a serial the index does not have, takes the lowest-numbered free slot:
the record stands PENDING in its line with the segment its sequence has, the directory marks the slot
occupied, in OPEN its segment counts it, and the answer is OK with the slot. Where the index has room, the
serial is found there afterwards, and so is every serial found before. Below the index area memory changes only by
entries of the write queue, of which the accesses of the lookup and of the insertion write one each (R34). -/
def Obligations.LoadsTakeTheLowestFreeSlot : Prop :=
  ∀ (s : State) (p : LoadParams) (kind : Kind), s.serving → s.Ok →
    s.route.state = .loading ∨ s.route.state = .opened → Kind.ofCode p.kind = some kind →
    p.inRange s.params = true → s.mem.lookup p.serial = none → s.directory.freeSlots ≠ 0 →
    let segment := if s.route.state = .opened then s.windowOf p.sequence else none
    let r := Record.fresh p kind segment .pending
    ∃ (slot : Nat) (u : State),
      exec (.recordLoad p) s = .next (u.reply .ok (natHalf slot)) ∧ Quiet s u ∧
      slot < 8192 ∧ s.directory.get slot = none ∧ (∀ k, k < slot → s.directory.get k ≠ none) ∧
      u.directory.get slot = some ⟨.live .pending, segment, [], false⟩ ∧
      (∀ k, k ≠ slot → u.directory.get k = s.directory.get k) ∧
      u.directory.freeSlots = s.directory.freeSlots - 1 ∧
      u.cached slot = .live r ∧ u.store.usedBlocks = s.store.usedBlocks ∧
      u.tamper = s.tamper ∧ u.matching = s.matching ∧
      (∀ n, segment = some n → (u.segment n).members = (s.segment n).members + 1 ∧
        (u.segment n).outstanding = (s.segment n).outstanding + 1) ∧
      (∀ n, segment ≠ some n → u.segment n = s.segment n) ∧
      u.segments = (s.report none (some ⟨segment, .live .pending⟩)).segments ∧
      let built := (s.grants .command (s.mem.lookupAccesses p.serial)).takeLineFresh .command slot (.live r)
      let m := built.mem
      u.store.queue = built.store.queue.drop (m.insertAccesses p.serial) ∧
      (∀ x, x < Config.indexBase → u.mem.read x = ((built.store.queue.take (m.insertAccesses p.serial)).foldl
        (fun m q => m.writeSlot q.slot q.contents) m).read x) ∧
      (m.lookup p.serial = none → (∃ n, n < 16384 ∧ m.entrySerial n = 0) →
        (∀ q ∈ built.store.queue, q.slot < 8192) →
        u.mem.lookup p.serial = some slot ∧
        ∀ x found, m.lookup x = some found → u.mem.lookup x = some found)

/-- R21, R22, R27, R115, R141: a retirement frees the record's slot, its blocks and its directory entry, reports it
out of its segment's counters, drops its line and its entries of the recent-match buffer and the tamper queue, deletes
its serial from the index, and queues the free-slot image as the newest copy; every other block, entry and counter
stands, and below the index area memory changes only by the entries that the write queue gives up for room or writes
after the deletion's accesses (R34), which are the entries that the search reads, the entry's write, the entries
stepped over and the one that ends the gap, and two writes for each entry moved (R36). RECORD_RETIRE of a record that
is not in a batch retires it, and is answered OK with the slot, and with whether the last record of a CLOSED route has
taken the route back to EMPTY. A deletion leaves the serial absent and every other one found where it was. That the
batch field is read in the directory is log, entry 19 (DEDUCED); that the free-slot image still stands in the queue
after the return to EMPTY is log, entry 40 (DESIGN CHOICE), where R141 says that it may; the window of a disabled
segment on the EMPTY route is log, entry 3 (DESIGN CHOICE). -/
def Obligations.RetirementsFreeTheSlot : Prop :=
  (∀ (s : State) (u : Holder) (serial : Word) (slot : Nat) (d : DirEntry), s.Ok →
    s.directory.get slot = some d →
    let t := s.retire u slot serial
    let told := s.report (some ⟨d.segment, d.status⟩) none
    t.directory = s.directory.filter (fun e => e.1 != slot) ∧
    t.directory.freeSlots = s.directory.freeSlots + 1 ∧
    t.lineOf slot = none ∧ t.queued slot = some .free ∧
    (∀ k, k ∈ t.store.usedBlocks ↔ k ∈ s.store.usedBlocks ∧ ∀ b ∈ d.chain, b.1 ≠ k) ∧
    t.tamper = { s.tamper with entries := s.tamper.entries.filter fun e => e.slot != slot } ∧
    t.matching = { s.matching with buffer := s.matching.buffer.filter fun e => e.slot != slot } ∧
    t.segments = told.segments ∧ t.events = told.events ∧ Quiet s t ∧
    (∀ n, let here := fun c : Machine.Class → Bool => if d.segment = some n ∧ c d.status.cls then 1 else 0
      (t.segment n).members = (s.segment n).members - here (fun _ => true) ∧
      (t.segment n).outstanding = (s.segment n).outstanding - here (· = .outstanding) ∧
      (t.segment n).done = (s.segment n).done - here (· = .done) ∧
      (t.segment n).faulted = (s.segment n).faulted - here (· = .faulted)) ∧
    (∃ written images : List Queued, images.length ≤ 1 ∧
      (∀ q ∈ images, ∃ i, (s.line i).body = some ⟨q.slot, true, q.contents⟩) ∧
      written ++ t.store.queue = s.store.queue ++ images ++ [⟨slot, .free⟩] ∧
      ∀ x, x < Config.indexBase → t.mem.read x =
        (written.foldl (fun m q => m.writeSlot q.slot q.contents) s.mem).read x) ∧
    (let held := s.takeLineFresh u slot .free;
      (u ≠ .scan → t.store.queue = held.store.queue.drop (held.mem.deleteAccesses serial) ++ [⟨slot, .free⟩]) ∧
      (s.Sound → ∀ x, t.mem.lookup x = (held.mem.deleteSerial serial).lookup x))) ∧
  (∀ (s : State) (serial : Word) (slot : Nat) (d : DirEntry), s.serving → s.Ok →
    s.mem.lookup serial = some slot → s.directory.get slot = some d → s.inBatch slot = false →
    let t := (s.grants .command (s.mem.lookupAccesses serial)).retire .command slot serial
    let last := s.route.state = .closed ∧ s.directory.length = 1
    (¬last → exec (.recordRetire serial) s = .next (t.reply .ok (natHalf slot ++ [0x00]))) ∧
    (last → ∃ u : State, exec (.recordRetire serial) s = .next (u.reply .ok (natHalf slot ++ [0x01])) ∧
      u = t.emptyRoute ∧ u.directory = [] ∧ u.store.usedBlocks = [] ∧
      u.lineOf slot = none ∧ u.queued slot = some .free ∧
      u.tamper = { s.tamper with entries := [], evictions := 0, turnedAway := 0 } ∧
      u.matching = { s.matching with buffer := [] } ∧
      u.route = { s.route with
        state := .empty, header := none, clock := 0, checkpointsDue := [] } ∧
      u.assessment = none ∧ u.segments = Segments.reset ∧ ∀ x, u.mem.lookup x = none)) ∧
  (∀ (m : Memory) (serial : Word), m.wf = true → m.IndexSound →
    (∃ n, n < 16384 ∧ m.entrySerial n = 0) →
    let m' := m.deleteSerial serial
    m'.lookup serial = none ∧ (∀ x, x ≠ serial → m'.lookup x = m.lookup x) ∧ m'.IndexSound ∧
    m.sameBut m' Config.indexBase 131072) ∧
  (∀ (m : Memory) (serial : Word) (slot : Nat), m.wf = true → m.IndexSound → m.lookup serial = none →
    (m.insertSerial serial slot).IndexSound) ∧
  (∀ m : Memory, m.wf = true → m.clearIndex.IndexSound) ∧
  ∀ (m : Memory) (serial : Word) (k : Nat), m.wf = true → k < 16384 →
    let seen := fun j : Nat => m.entrySerial ((homeBucket serial + j) % 16384)
    (seen k = 0 ∨ seen k = serial → (∀ j, j < k → seen j ≠ 0 ∧ seen j ≠ serial) →
      m.lookupAccesses serial = k + 1) ∧
    (seen k = 0 → (∀ j, j < k → seen j ≠ 0) → m.insertAccesses serial = k + 2) ∧
    (seen 0 = serial → 0 < k → seen k = 0 → (∀ j, j < k → seen j ≠ 0) →
      k + 2 ≤ m.deleteAccesses serial ∧ m.deleteAccesses serial ≤ 3 * k)

/-- R14, R15, R16, R20, R167: an amendment that passes its checks makes the action first and then the field changes,
reassigns the segment of a changed sequence, updates the directory, forgets the recent-match entry, removes a tamper
queue entry of a record that leaves FLAGGED, reports the change of class and segment to the segment unit (R115; one
report also where both change: log, entry 48, DESIGN CHOICE), and answers OK with the resulting status, segment and
score; a full rewrite gives a FAULT record its new body in a line taken without a fill (R32), PENDING, or MISSED in
CLOSED, with an empty chain, and is WRONG_STATE for any other record, the directory telling which it is (log, entry
19); its one row of accesses is the lookup's, each with its write (R34). The last clauses say what an evidence clear
(R15) and a re-read (R16) make of a record. -/
def Obligations.AmendmentsTakeEffect : Prop :=
  (∀ (s s1 : State) (p : AmendParams) (slot : Nat) (d : DirEntry), s.serving → s.Ok →
    s1.directory.get slot = some d →
    (∀ (r : Record) (a : AmendAction), s.find p.serial = (.record slot r, s1) → r.batch = none →
      AmendAction.ofCode p.action = some a → a ≠ .fullRewrite →
      ¬(a = .reRead ∧ s.route.state = .closed) →
      amendInRange s.params p (r.afterAction a) = true → amendAllowed p (r.afterAction a) = true →
      let changed := (r.afterAction a).withChanges p
      let r' := if p.sequence.presence = 1 then
        { changed with segment := s1.assignSegment p.sequence.value } else changed
      let v := s1.report (some ⟨d.segment, d.status⟩) (some ⟨r'.segment, .live r'.status⟩)
      ∃ u : State, exec (.recordAmend p) s =
          .next (u.reply .ok [r'.status.code, segByte r'.segment, r'.score]) ∧
        Quiet s u ∧ u.cached slot = .live r' ∧
        u.directory.get slot = some ⟨.live r'.status, r'.segment, d.chain, false⟩ ∧
        (∀ k, k ≠ slot → u.directory.get k = s1.directory.get k) ∧
        u.matching.buffer = s1.matching.buffer.filter (fun e => e.slot != slot) ∧
        u.tamper.entries = (if r.status = .flagged ∧ r'.status ≠ .flagged then
          s1.tamper.entries.filter (fun e => e.slot != slot) else s1.tamper.entries) ∧
        u.segments = v.segments ∧ u.events = v.events ∧
        u.store.queue = s1.store.queue ∧ u.store.usedBlocks = s1.store.usedBlocks ∧
        ∀ x, x < Config.routeBase → u.mem.read x = s1.mem.read x)) ∧
  (∀ (s : State) (p : AmendParams) (slot : Nat) (d : DirEntry), s.serving → s.Ok →
    s.mem.lookup p.serial = some slot → s.directory.get slot = some d → d.batched = false → p.action = 4 →
    let looked := s.grants .command (s.mem.lookupAccesses p.serial)
    (d.status ≠ .fault → ∃ u, Quiet s u ∧ u.mem = looked.mem ∧ u.store = looked.store ∧
      u.directory = s.directory ∧
      exec (.recordAmend p) s = .next (u.reply .wrongState [])) ∧
    (∀ (load : LoadParams) (kind : Kind), d.status = .fault → p.wellCoded = true →
      p.rewrite = some load → Kind.ofCode load.kind = some kind → load.inRange s.params = true →
      let r := Record.fresh load kind (s.assignSegment load.sequence)
        (if s.route.state = .closed then .missed else .pending)
      let s1 := looked.takeLineFresh .command slot (.live r)
      let v := s.report (some ⟨d.segment, d.status⟩) (some ⟨r.segment, .live r.status⟩)
      ∃ u : State, exec (.recordAmend p) s =
          .next (u.reply .ok [r.status.code, segByte r.segment, 0]) ∧
        u.segments = v.segments ∧ u.events = v.events ∧
        Quiet s u ∧ u.cached slot = .live r ∧
        u.directory.get slot = some ⟨.live r.status, r.segment, [], false⟩ ∧
        (∀ k, k ≠ slot → u.directory.get k = s.directory.get k) ∧
        u.matching.buffer = s.matching.buffer.filter (fun e => e.slot != slot) ∧
        u.tamper.entries = s.tamper.entries ∧ u.store.queue = s1.store.queue ∧
        u.store.usedBlocks = s.store.usedBlocks ∧
        ∀ x, x < Config.routeBase → u.mem.read x = s1.mem.read x)) ∧
  (∀ r : Record,
    let cleared := { r with evidence := Evidence.empty, score := 0 }
    (r.status = .held → r.afterAction .clearEvidence = { cleared with
      status := .read, current := if r.candidate.isSome then r.candidate else r.current
      candidate := none }) ∧
    (r.status = .flagged → r.afterAction .clearEvidence = { cleared with
      status := .read, flagTime := none
      marks := { r.marks with unconfirmed := false, acknowledged := false } }) ∧
    (r.status ≠ .held → r.status ≠ .flagged → r.afterAction .clearEvidence = cleared) ∧
    r.afterAction .reRead = { cleared with
      status := .pending, current := none, candidate := none, flagTime := none
      marks := { r.marks with unconfirmed := false, acknowledged := false } } ∧
    r.afterAction .nothing = r)

/-- R11, R10, R38: a note on a record that has one is rewritten in place; on one that has none it takes the
lowest-numbered free block, at the head of the chain; an empty text removes the block there is; and with no
block free the command is FULL. The answer is OK with the chain's block count, and the bytes written to the
extension area are the block's; its write is one access, after which the oldest queued image is written (R34, R36),
and the command accesses memory no more. An interval replacement of another record that the command has met, which the
engine holds, goes on when the note is served, with the blocks that are then free (R12; log, entry 58, DESIGN CHOICE);
with none held nothing else happens. -/
def Obligations.NotesAreKept : Prop :=
  (∀ t : State, (∀ f k, t.matching.inHand ≠ some ⟨f, k, true⟩) → t.goOnFrame = t) ∧
  (∀ (t : State) (f : Frame) (k : Nat) (x : Record), t.matching.inHand = some ⟨f, k, true⟩ →
    t.directory.get k ≠ none → t.cached k = .live x → x.serial = f.serial →
    t.goOnFrame = State.replaceOn false f k x
      ((f.intervals.length + 5) / 6 - (t.chain k).countP fun b => b.2 = .interval) t) ∧
  ∀ (s s1 : State) (serial : Word) (text : List Byte) (slot : Nat) (r : Record) (d : DirEntry),
    s.serving → s.Ok → text.length ≤ 24 → s.find serial = (.record slot r, s1) → r.batch = none →
    s1.directory.get slot = some d →
    let wrote := fun (n : Nat) (next : List (Nat × BlockKind)) => State.grants .command 1 { s1 with
      mem := s1.mem.writeBytes (blockAddress n) (Block.note (headOf next) text).image }
    (∀ n rest, d.chain = (n, .note) :: rest →
      (text ≠ [] → ∃ u : State, exec (.recordNote serial text) s =
          .next (u.reply .ok [natByte d.chain.length]).goOnFrame ∧ Quiet s u ∧
        u.cached slot = .live r ∧ u.directory = s1.directory ∧
        u.mem = (wrote n rest).mem ∧ u.store.queue = (wrote n rest).store.queue) ∧
      (text = [] → ∃ u : State, exec (.recordNote serial text) s =
          .next (u.reply .ok [natByte rest.length]).goOnFrame ∧ Quiet s u ∧
        u.chain slot = rest ∧ n ∉ u.store.usedBlocks ∧
        u.cached slot = .live { r with firstBlock := headOf rest } ∧ u.store.queue = s1.store.queue ∧
        ∀ x, x < Config.routeBase → u.mem.read x = s1.mem.read x)) ∧
    ((∀ n rest, d.chain ≠ (n, .note) :: rest) →
      (text = [] → ∃ u : State, exec (.recordNote serial text) s =
          .next (u.reply .ok [natByte d.chain.length]).goOnFrame ∧ Quiet s u ∧
        u.cached slot = .live r ∧ u.directory = s1.directory ∧ u.mem = s1.mem) ∧
      (text ≠ [] → s1.store.usedBlocks.length < 4096 →
        ∃ (n : Nat) (u : State), exec (.recordNote serial text) s =
          .next (u.reply .ok [natByte (d.chain.length + 1)]).goOnFrame ∧ Quiet s u ∧
        n ∉ s1.store.usedBlocks ∧ (∀ k, k < n → k ∈ s1.store.usedBlocks) ∧
        (∀ k, k ∈ u.store.usedBlocks ↔ k = n ∨ k ∈ s1.store.usedBlocks) ∧
        u.chain slot = (n, .note) :: d.chain ∧
        u.cached slot = .live { r with firstBlock := BitVec.ofNat 16 n } ∧
        u.store.queue = (wrote n d.chain).store.queue ∧
        ∀ x, x < Config.routeBase → u.mem.read x = (wrote n d.chain).mem.read x) ∧
      (text ≠ [] → 4096 ≤ s1.store.usedBlocks.length → ∃ u : State,
        exec (.recordNote serial text) s = .next (u.reply .full []).goOnFrame ∧ Quiet s u ∧
        u.cached slot = .live r ∧ u.directory = s1.directory ∧ u.mem = s1.mem))

/-- R18, R19, R165, R166: RECORD_LOOKUP answers OK with the record's 75 bytes as its line holds it, and the good
blocks' contents when they are wanted, the chain cut before a bad block with the extension lost mark set (the
link before it rewritten over its other bytes as they stand: log, entry 8), each block read, and the link's
rewriting, an access with its write from the queue (R34, R36), where that the rewriting is one access is the model's
count (log, entry 9, DESIGN CHOICE); a FAULT record's with its three
fields, and empty extension contents when they are wanted (log, entry 13); an unknown serial is NOT_FOUND.
RECORD_WALK comes, from its starting slot up, to the occupied slots, until it holds 8 entries or a fill's check
fails; it visits those whose status copy is then in the set and whose segment passes; a record whose status in its
line is in the set is an entry of 24 bytes, and the answer holds the entries in slot order, the failing slot and
the slot after the last one read, or the end; past a check failure at slot 8,191 that too is the end (log, entry
27, DEDUCED). Frames are matched throughout, and a batch in the middle of its forming, or the one that BATCH_FORM at the
front of the queue is about to form, goes on: before it reads a directory entry, and again before it takes a line, the
matching engine may have come to its next step (log, entry 39, DESIGN CHOICE) and the upload engine to its next record
read (log, entry 63, DESIGN CHOICE), which are free values, and each then goes first, unless it waits for memory and
another unit that waits is before it in turn, counting round from the unit granted last; one that still waits as the
walk takes its line goes right after that visit, the upload engine first, since the command unit was granted last
(R36). With nothing to match and nothing to form they do nothing. The end of a forming, which takes no access, is left
to the next BATCH_FORM (log, entry 63). -/
def Obligations.LookupsAndWalksReport : Prop :=
  (∀ (s : State) (serial : Word), s.serving → s.mem.lookup serial = none →
    let looked := s.grants .command (s.mem.lookupAccesses serial)
    ∃ u, Quiet s u ∧ u.mem = looked.mem ∧ u.store = looked.store ∧
      exec (.recordLookup serial 0) s = .next (u.reply .notFound []) ∧
      exec (.recordLookup serial 1) s = .next (u.reply .notFound [])) ∧
  (∀ (s s1 : State) (serial : Word) (slot : Nat) (r : Record), s.serving →
    s.find serial = (.record slot r, s1) →
    let bytes := r.lookupBytes slot (s1.chain slot).length
    let read := s1.mem.readChain ((s1.chain slot).map (·.1)) 0 0
    bytes.length = 75 ∧
    (∃ u, Quiet s u ∧ u.mem = s1.mem ∧ u.directory = s1.directory ∧ u.cached slot = .live r ∧
      exec (.recordLookup serial 0) s = .next (u.reply .ok bytes)) ∧
    (read.bad = false → let granted := s1.grants .command read.kept;
      ∃ u, Quiet s u ∧ u.mem = granted.mem ∧ u.store.queue = granted.store.queue ∧
      u.directory = s1.directory ∧ u.cached slot = .live r ∧
      exec (.recordLookup serial 1) s = .next (u.reply .ok (bytes ++
        natByte read.values.length :: (read.values.flatMap halfBytes ++
          natByte read.note.length :: read.note)))) ∧
    (read.bad = true →
      let kept := (s1.chain slot).take read.kept
      let cut := { r with firstBlock := headOf kept, marks := { r.marks with extensionLost := true } }
      let granted := s1.grants .command (read.kept + 1)
      let relinked := match kept.getLast? with
        | some b => State.grants .command 1 { granted with mem := granted.mem.relinkBlock b.1 0xFFFF }
        | none => granted
      ∃ u, Quiet s u ∧ u.cached slot = .live cut ∧ u.chain slot = kept ∧
        (∀ k, k ∈ u.store.usedBlocks ↔
          k ∈ s1.store.usedBlocks ∧ ∀ b ∈ (s1.chain slot).drop read.kept, b.1 ≠ k) ∧
        u.store.queue = relinked.store.queue ∧
        (∀ x, x < Config.routeBase → u.mem.read x = relinked.mem.read x) ∧
        exec (.recordLookup serial 1) s = .next (u.reply .ok (cut.lookupBytes slot kept.length ++
          natByte read.values.length :: (read.values.flatMap halfBytes ++
            natByte read.note.length :: read.note))))) ∧
  (∀ (s s1 : State) (serial : Word) (slot : Nat) (segment : Option Seg), s.serving →
    s.find serial = (.fault slot segment, s1) →
    let bytes := natHalf slot ++ wordBytes serial ++ [0, 0, segByte segment] ++ List.replicate 13 0 ++
      [0x06] ++ List.replicate 52 0
    ∃ u, Quiet s u ∧ u.mem = s1.mem ∧ u.directory = s1.directory ∧
      exec (.recordLookup serial 0) s = .next (u.reply .ok bytes) ∧
      exec (.recordLookup serial 1) s = .next (u.reply .ok (bytes ++ [0, 0]))) ∧
  (∀ (s : State) (start : Half) (statuses filter : Byte), s.serving → s.Ok → start.toNat < 8192 →
    statuses ≠ 0 → statuses.toNat < 64 → filter.toNat < 64 ∨ 254 ≤ filter.toNat →
    let slots := s.walkSlots start.toNat
    let x := s.walk statuses filter slots ⟨[], none, none⟩
    let w := x.1
    Rising slots ∧ (∀ k, k ∈ slots ↔ start.toNat ≤ k ∧ s.directory.get k ≠ none) ∧
    BesideWalk s x.2 ∧ w.entries.length ≤ 8 ∧ (∀ e ∈ w.entries, e.length = 24) ∧
    (w.last = none ↔ w.entries.length < 8 ∧ w.failing = none) ∧
    exec (.recordWalk start statuses filter) s =
      .next (x.2.reply (if w.failing = none then .ok else .hardError) (natByte w.entries.length ::
        ((match w.last with
          | some k => if k < 8191 then natHalf (k + 1) else [0xFF, 0xFF]
          | none => [0xFF, 0xFF]) ++
        (match w.failing with | some k => natHalf k | none => [0xFF, 0xFF]) ++
        w.entries.reverse.flatten)))) ∧
  (∀ (s : State) (set filter : Byte) (slot : Nat) (rest : List Nat) (w : Walked),
    let read := s.beside
    let seen := ∃ d, read.directory.get slot = some d ∧ statusIn set d.status = true ∧
      passes filter d.segment = true
    let before := State.besideOn (some slot) (17 + read.formWork + 1) ⟨false, false⟩ read
    let visited := before.2.walkSlot set slot w
    let uploaded := if before.1.upload = true then visited.2.uploadStep else visited.2
    let after := if before.1.matching = true then uploaded.engineStep else uploaded
    BesideWalk s read ∧ read = (State.besideOn none (17 + s.formWork + 1) ⟨false, false⟩ s).2 ∧
    (s.matching.inHand = none → (∀ p, (s.port p).buffer = []) → s.uploadWork = none →
      read = s ∧ before.2 = s ∧ after = visited.2) ∧
    s.walk set filter [] w = (w, s) ∧
    (w.last ≠ none → s.walk set filter (slot :: rest) w = (w, s)) ∧
    (w.last = none → ¬seen → s.walk set filter (slot :: rest) w = read.walk set filter rest w) ∧
    (w.last = none → seen → s.walk set filter (slot :: rest) w = after.walk set filter rest visited.1)) ∧
  (∀ (s : State) (next : Option Nat) (k : Nat) (c : Come),
    let matchingDraws := c.matching = false ∧ s.engineBusy = true
    let s1 := if matchingDraws then { s with draws := s.draws + 1 } else s
    let matchingCome := c.matching = true ∨ matchingDraws ∧ Config.engineFirst s.draws = true
    let uploadDraws := c.upload = false ∧ s1.uploadBusy = true
    let s2 := if uploadDraws then { s1 with draws := s1.draws + 1 } else s1
    let uploadCome := c.upload = true ∨ uploadDraws ∧ Config.uploadFirst s1.draws = true
    let waits := fun u : Requester => match u with
      | .matching => matchingCome ∧ s2.engineNeeds = true
      | .command => ∃ slot, next = some slot ∧ s2.needsFill slot = true
      | .upload => uploadCome ∧ s2.uploadNeeds = true
    let order := match s2.store.granted with
      | .matching => [Requester.command, .upload, .matching]
      | .command => [Requester.upload, .matching, .command]
      | .upload => [Requester.matching, .command, .upload]
    let goes := fun u : Requester => ¬waits u ∨ ∃ before later, order = before ++ u :: later ∧ ∀ v ∈ before, ¬waits v
    let t := State.besideOn next (k + 1) c s
    (matchingCome → goes .matching →
      t = State.besideOn next k ⟨false, decide uploadCome⟩ s2.engineStep) ∧
    (uploadCome → ¬(matchingCome ∧ goes .matching) → goes .upload →
      t = State.besideOn next k ⟨decide matchingCome, false⟩ s2.uploadStep) ∧
    (¬(matchingCome ∧ goes .matching) → ¬(uploadCome ∧ goes .upload) →
      t = (⟨decide matchingCome, decide uploadCome⟩, s2)) ∧
    (∀ slot, s.needsFill slot = true ↔ s.lineOf slot = none ∧ s.queued slot = none)) ∧
  (∀ s : State,
    let may := s.power = .on ∧ s.route.scanning = none ∧ s.depot.link = .attached
    (∀ w, s.uploadWork = some w ↔ may ∧
      (s.depot.forming = some w ∧ s.depot.engine ≠ .idle ∨
        s.depot.forming = none ∧ s.depot.engine = .running ∧ s.depot.outstanding = [] ∧
          s.pending.head? = some .batchForm ∧ w = .surveying false .flagged 0 [])) ∧
    (s.uploadWork = none → s.uploadBusy = false ∧ s.uploadNeeds = false ∧ s.uploadStep = s) ∧
    (∀ w, s.uploadWork = some w → s.uploadNeeds = w.needs s ∧
      let x := State.formRead { s with depot := { s.depot with forming := none } } w
      (∀ w', x.1 = some w' → s.uploadBusy = true ∧
        s.uploadStep = { x.2 with depot := { x.2.depot with forming := some w' } }) ∧
      (x.1 = none → s.uploadBusy = false ∧ s.uploadStep = s))) ∧
  (∀ (s : State) (set : Byte) (slot : Nat) (w : Walked),
    let y := s.takeLine .command slot
    let v := s.walkSlot set slot w
    let joined := fun entry : List Byte => { w with
      entries := entry :: w.entries, last := if w.entries.length = 7 then some slot else none }
    v.2 = y.1.letGo slot ∧
    (y.2 = true → v.1 = { w with failing := some slot, last := some slot }) ∧
    (∀ r, y.2 = false → y.1.cached slot = .live r →
      v.1 = if statusIn set (.live r.status) then joined (r.walkBytes slot) else w) ∧
    (∀ serial segment, y.2 = false → y.1.cached slot = .fault serial segment →
      v.1 = if statusIn set .fault then joined (natHalf slot ++ wordBytes serial ++
        [0, 0, segByte segment, 0x06] ++ List.replicate 14 0) else w)) ∧
  (∀ (r : Record) (slot blocks : Nat),
    let optional := fun b : Option Byte => match b with | some x => [1, x] | none => [0, 0]
    let time := fun t : Option Word => match t with | some x => 1 :: wordBytes x | none => List.replicate 5 0
    let group := fun g : Option Reading => match g with
      | some c => 1 :: (wordBytes c.value ++ wordBytes c.delta ++ [(match c.direction with
          | .forward => 1 | .rollover => 2 | .reverse => 3 | .regress => 4)] ++ wordBytes c.time ++
          [natByte c.port.val, if c.byProbe then 1 else 0])
      | none => List.replicate 16 0
    r.lookupBytes slot blocks = natHalf slot ++ wordBytes r.serial ++ halfBytes r.sequence ++
      [(match r.segment with | some n => natByte n.val | none => 0xFF), r.kind.code, r.dials] ++
      wordBytes r.previous ++ halfBytes r.previousDay ++ halfBytes r.rate ++
      [if r.probeOnly then 1 else 0] ++ optional r.powerRef ++ [r.status.code] ++ group r.current ++
      group r.candidate ++ [r.evidence.byte, r.score] ++ time r.flagTime ++ [r.marks.byte] ++
      halfBytes r.hearCount ++ time r.lastHeard ++ optional r.bestSignal ++ optional r.batch ++
      [natByte blocks]) ∧
  (∀ (r : Record) (slot : Nat), r.walkBytes slot = natHalf slot ++ wordBytes r.serial ++
    halfBytes r.sequence ++ [segByte r.segment, r.status.code, r.score, r.evidence.byte, r.marks.byte,
      (if r.batch.isSome then 1 else 0) ||| (if r.current.isSome then 2 else 0)] ++
    halfBytes r.hearCount ++ (match r.current with
      | some c => wordBytes c.value ++ wordBytes c.delta
      | none => List.replicate 8 0))

/-! ### The tamper queue -/

/-- R104, R102, R111: a newcomer finds its place by its rank in a queue with room, or in a full one whose
last entry it ranks above, which is evicted and counted; an insertion raises NEW_FLAG and, in PULSE mode,
starts the pulse timer; a newcomer below the last entry of a full queue is turned away and counted. An
ordered queue stays ordered. R105: of a record whose score has risen, the entry takes the new score and
evidence and its new place, with no event and nothing else changed; one not listed is a newcomer with its old
flag time (for a record altered to have none, 0: log, entry 52, DESIGN CHOICE). -/
def Obligations.NewcomersArePlacedByRank : Prop :=
  ∀ (s : State) (x : TamperEntry),
    let t := s.placeInQueue x
    let ordered := fun l : List TamperEntry => l.Pairwise fun a b => b.ranksAbove a = false
    let inserted := fun (l : List TamperEntry) (evictions : Half) => { s with
      tamper := { s.tamper with
        entries := l, evictions := evictions
        pulseRunning := s.tamper.pulseRunning || decide (s.tamper.cabMode = .pulse) }
      events := { s.events with pending := s.events.pending ||| 0x1 } }
    (s.tamper.entries.length < 128 →
      t = inserted t.tamper.entries s.tamper.evictions ∧
      t.tamper.entries.Perm (x :: s.tamper.entries) ∧
      (ordered s.tamper.entries → ordered t.tamper.entries)) ∧
    (∀ rest last, s.tamper.entries = rest ++ [last] → rest.length = 127 → x.ranksAbove last = true →
      t = inserted t.tamper.entries (satInc s.tamper.evictions) ∧
      t.tamper.entries.Perm (x :: rest) ∧
      (ordered s.tamper.entries → ordered t.tamper.entries)) ∧
    (∀ rest last, s.tamper.entries = rest ++ [last] → rest.length = 127 → x.ranksAbove last = false →
      t = { s with tamper := { s.tamper with turnedAway := satInc s.tamper.turnedAway } }) ∧
    (∀ r : Record, (∀ e ∈ s.tamper.entries, e.slot ≠ x.slot) → s.risenReport x.slot r = s.placeInQueue
      ⟨x.slot, r.serial, r.score, r.evidence, r.flagTime.getD 0, r.marks.unconfirmed⟩) ∧
    (∀ r : Record, x ∈ s.tamper.entries → (s.tamper.entries.map (·.slot)).Nodup →
      let u := s.risenReport x.slot r
      u = { s with tamper := { s.tamper with entries := u.tamper.entries } } ∧
      u.tamper.entries.Perm ({ x with score := r.score, evidence := r.evidence } ::
        s.tamper.entries.filter fun e => e.slot ≠ x.slot) ∧
      (ordered s.tamper.entries → ordered u.tamper.entries))

/-- R107, R106: TAMPER_ACK of a FLAGGED record that is not in a batch sets its acknowledged mark and takes its
entry out of the queue, and is answered OK with the record's score and whether it was listed; one already
acknowledged is left as it was; a record that is not FLAGGED is WRONG_STATE. -/
def Obligations.AcknowledgementsLeaveTheQueue : Prop :=
  ∀ (s s1 : State) (serial : Word) (slot : Nat) (r : Record) (d : DirEntry), s.serving → s.Ok →
    s.find serial = (.record slot r, s1) → r.batch = none → s1.directory.get slot = some d →
    let listed := s1.tamper.entries.any fun e => e.slot == slot
    (r.status = .flagged → r.marks.acknowledged = false → ∃ u : State,
      exec (.tamperAck serial) s = .next (u.reply .ok [r.score, boolByte listed]) ∧ Quiet s u ∧
      u.cached slot = .live { r with marks := { r.marks with acknowledged := true } } ∧
      u.tamper = { s1.tamper with entries := s1.tamper.entries.filter fun e => e.slot != slot } ∧
      u.directory.get slot = some ⟨.live .flagged, r.segment, d.chain, false⟩ ∧
      (∀ k, k ≠ slot → u.directory.get k = s1.directory.get k) ∧
      u.store.queue = s1.store.queue ∧ u.store.usedBlocks = s1.store.usedBlocks ∧
      ∀ x, x < Config.routeBase → u.mem.read x = s1.mem.read x) ∧
    (r.status = .flagged → r.marks.acknowledged = true → exec (.tamperAck serial) s =
      .next ((s1.letGo slot).reply .ok [r.score, boolByte listed])) ∧
    (r.status ≠ .flagged → exec (.tamperAck serial) s =
      .next ((s1.letGo slot).reply .wrongState []))

/-! ### Frames applied -/

/-- R12, R33, R63 to R81: FRAME_MATCH finishes the frame in hand, at the slot it was resolved to while that is
occupied and carries the frame's serial. When a retirement was first, with or without a load after it, the serial is
resolved again through the index, the new slot joins the recent-match buffer and the frame is finished there, or is a
stranger when the serial is absent. On the record found, the line then
holds what the frame makes of the record (R64 to R79); new interval values take the place of the INTERVAL blocks,
in the lowest-numbered free blocks, six to a block in the frame's order, and set or clear the interval lost mark,
with POOL_EMPTY when some do not fit, a NOTE block before them linked anew over its other bytes as they stand
(log, entry 8); the directory's status follows, the segment unit is told of the change of class, with the
completion and SEGMENT_DONE or the reopening it brings (R115, R118, R119), the tamper queue is told of a flag or
a rise (in one report where a confirming frame also added evidence: log, entry 49, DESIGN CHOICE), the record's
recent-match entry takes the reading and the later arrival (R81; an entry that is gone is not filled again: log,
entry 14), and the engine is free, with a duplicate counted. A FAULT record is a fault hit, counted, that keeps
no buffer entry. Each block written or linked anew is an access, with its write from the queue (R34, R36); that the
linking anew is one access is the model's count (log, entry 9, DESIGN CHOICE), and that it is made whether or not the
number changes is log, entry 61 (DESIGN CHOICE). Before each allocation a RECORD_NOTE of another record at the front of
the queue may allocate first (R12, R38), which is a free value: the frame is then held, and goes on, with the lowest
blocks then free, as the note is served or at the next FRAME_MATCH (log, entry 58, DESIGN CHOICE). A PORT_STATUS or
ROUTE_STATUS that the step has met goes on after it (R58, R147; log, entry 41, DESIGN CHOICE). -/
def Obligations.FramesAreApplied : Prop :=
  (∀ (met : Bool) (f : Frame) (slot : Nat) (r : Record) (n : Nat) (s : State),
    let meets := met = true ∧ s.noteWaits slot = true
    let drew := { s with draws := s.draws + 1 }
    let goesOn := fun u : State => match u.lowestFreeBlock with
      | some b => State.replaceOn met f slot r n (u.chainBlock slot b)
      | none => State.replaceOn met f slot r 0 u
    (s.noteWaits slot = true ↔ ∃ serial text rest, s.pending = .recordNote serial text :: rest ∧ text.length ≤ 24 ∧
      s.command.unit = .idle ∧ s.route.scanning = none ∧ s.mem.lookup serial ≠ some slot) ∧
    (¬meets → State.replaceOn met f slot r (n + 1) s = goesOn s) ∧
    (meets → State.replaceOn met f slot r (n + 1) s = if Config.noteFirst s.draws = true
      then { drew with matching := { s.matching with inHand := some ⟨f, slot, true⟩ } } else goesOn drew) ∧
    (∀ b, (s.chainBlock slot b).store.queue = s.store.queue ∧ (s.chainBlock slot b).mem = s.mem ∧
      (∀ k, k ∈ (s.chainBlock slot b).store.usedBlocks ↔ k = b ∨ k ∈ s.store.usedBlocks) ∧
      (s.directory.get slot ≠ none → (s.chainBlock slot b).chain slot = s.chain slot ++ [(b, .interval)]))) ∧
  (∀ (s : State) (f : Frame) (slot : Nat) (r : Record), s.power = .on →
    s.matching.inHand = some ⟨f, slot, true⟩ → s.directory.get slot ≠ none → s.cached slot = .live r →
    r.serial = f.serial → exec .frameMatch s = .next (State.replaceOn true f slot r
      ((f.intervals.length + 5) / 6 - (s.chain slot).countP fun b => b.2 = .interval) s).goOnReport) ∧
  ∀ (s : State) (f : Frame) (slot : Nat), s.power = .on → s.Ok →
    s.matching.inHand = some ⟨f, slot, false⟩ →
    let found := (s.takeLine .matching slot).1
    let lost := found.directory.get slot = none ∨ found.cached slot = .free ∨
      (∃ r, found.cached slot = .live r ∧ r.serial ≠ f.serial) ∨
      ∃ serial segment, found.cached slot = .fault serial segment ∧ serial ≠ f.serial
    let sought := (found.letGo slot).grants .matching (found.mem.lookupAccesses f.serial)
    (lost → found.mem.lookup f.serial = none →
      ∃ t : State, exec .frameMatch s = .next t.goOnReport ∧
        t.matching = { s.matching with
          inHand := none, strangers := satInc s.matching.strangers, buffer := found.matching.buffer } ∧
        Quiet s { t with matching := { s.matching with buffer := t.matching.buffer } }) ∧
    ∀ (slot' : Nat) (s1 : State), slot' = slot ∧ s1 = found ∨
      lost ∧ found.mem.lookup f.serial = some slot' ∧
        s1 = (State.takeLine .matching slot' { sought with matching := { sought.matching with
          buffer := (⟨f.serial, slot', none, none⟩ ::
            found.matching.buffer.filter fun e => e.serial != f.serial).take 16 } }).1 →
    (∀ d r, s1.directory.get slot' = some d → s1.cached slot' = .live r → r.serial = f.serial →
      let m := r.matchFrame s.params (s.assessment.getD Assessment.blank) (s1.matchEntry f.serial) f
      let stored := m.applied = true ∧ f.intervals ≠ []
      let wanted := (f.intervals.length + 5) / 6
      let free := s1.freeChain (d.chain.filter fun b => b.2 = .interval)
      let notes := d.chain.filter fun b => b.2 = .note
      let before := ((s1.putRecord slot' m.record).reportFrame slot' r m.record).freeIntervals slot'
      let intervals := fun l : List Nat => l.map fun n => (n, BlockKind.interval)
      (stored → exec .frameMatch s =
        .next (State.replaceOn true f slot' m.record wanted before).goOnReport) ∧
      (¬stored ∨ before.noteWaits slot' = false → ∃ (blocks : List Nat) (t : State),
        let written := State.writeIntervals .matching blocks f.intervals s1
        let linked := match notes with
          | [] => written
          | n :: _ => State.grants .matching 1 { written with
            mem := written.mem.relinkBlock n.1 (headOf (intervals blocks)) }
        (stored → blocks.length = min wanted free.freeBlocks) ∧
        (∀ k n, stored → blocks[k]? = some n → n ∉ free.store.usedBlocks ∧
          (∀ j, j < n → j ∈ free.store.usedBlocks ∨ j ∈ blocks.take k) ∧
          ((∀ q ∈ s1.store.queue, q.slot < 8192) → written.mem.blockBytes n = (Block.interval
            (headOf (intervals (blocks.drop (k + 1)))) ((f.intervals.drop (6 * k)).take 6)).image)) ∧
        exec .frameMatch s = .next t.goOnReport ∧
        (¬stored → t.cached slot' = .live m.record ∧ t.chain slot' = d.chain ∧
          t.store.usedBlocks = s1.store.usedBlocks ∧ t.store.queue = s1.store.queue ∧
          ∀ x, x < Config.routeBase → t.mem.read x = s1.mem.read x) ∧
        (stored →
          t.cached slot' = .live { m.record with
            firstBlock := headOf (notes ++ intervals blocks)
            marks := { m.record.marks with intervalLost := decide (blocks.length < wanted) } } ∧
          t.chain slot' = notes ++ intervals blocks ∧
          (∀ k, k ∈ t.store.usedBlocks ↔ k ∈ blocks ∨ k ∈ free.store.usedBlocks) ∧
          t.store.queue = linked.store.queue ∧
          (∀ x, x < Config.routeBase → t.mem.read x = linked.mem.read x) ∧
          (blocks.length < wanted → t.events.pending.getLsbD 5 = true)) ∧
        t.directory.get slot' = some ⟨.live m.record.status, r.segment, t.chain slot', r.batch.isSome⟩ ∧
        (∀ k, k ≠ slot' → t.directory.get k = s1.directory.get k) ∧
        (let v := s1.report (some ⟨d.segment, d.status⟩) (some ⟨r.segment, .live m.record.status⟩);
          t.segments = v.segments ∧ t.events.pending.getLsbD 1 = v.events.pending.getLsbD 1) ∧
        (m.record.status = .flagged → r.status ≠ .flagged →
          t.tamper = (s1.flaggedReport slot' m.record).tamper) ∧
        (m.record.status = .flagged → r.status = .flagged →
          r.score.toNat < m.record.score.toNat → t.tamper = (s1.risenReport slot' m.record).tamper) ∧
        (m.record.status ≠ .flagged ∨ r.status = .flagged ∧ m.record.score.toNat ≤ r.score.toNat →
          t.tamper = s1.tamper) ∧
        t.matching = { s.matching with
          inHand := none
          buffer := if m.applied then s1.matching.buffer.map (fun e =>
            if e.serial = f.serial ∧ e.slot = slot' then { e with
              reading := some f.reading
              arrival := some (match e.arrival with
                | some x => if f.arrival.toNat < x.toNat then x else f.arrival
                | none => f.arrival) }
            else e) else s1.matching.buffer
          duplicates := if m.duplicate then satInc s.matching.duplicates
            else s.matching.duplicates } ∧
        Quiet s { t with matching := { s.matching with buffer := t.matching.buffer } })) ∧
    (∀ d segment, s1.directory.get slot' = some d → s1.cached slot' = .fault f.serial segment →
      ∃ t : State, exec .frameMatch s = .next t.goOnReport ∧
        t.matching = { s.matching with
          inHand := none, faultHits := satInc s.matching.faultHits
          buffer := s1.matching.buffer.filter fun e => e.slot != slot' } ∧
        Quiet s { t with matching := { s.matching with buffer := t.matching.buffer } })

/-! ### Opening, closing and clearing -/

/-- R133, R138, R117: ROUTE_OPEN is answered OK at once and sets SCANNING. The OPEN scan, once no frame is in
hand and the write queue is empty, visits the occupied slots in ascending order. A record takes the segment whose
window holds its sequence and is counted there in the class of its status; a check failure is counted, and the
FAULT record in no segment. Then every enabled segment with nothing outstanding is COMPLETE and out of the plan,
and every other segment stands as it is, in its place; what changes of a segment and the plan is written through. Of
the events the visits raise RECORD_FAULT alone, and the settling none: no SEGMENT_DONE. The scan ends with the clock
and its checkpoint at 0, the route OPEN in the route area, SCANNING clear and SCAN_DONE raised. -/
def Obligations.RoutesOpen : Prop :=
  (∀ s : State, s.serving → s.route.state = .loading → exec .routeOpen s = .next ({ s with
    route := { s.route with scanning := some .opening, openFailures := 0 } }.reply .ok [])) ∧
  (∀ s : State, s.Ok → s.power = .on → s.route.scanning = some .opening → s.matching.inHand = none →
    s.store.queue = [] →
    let visited := (s.directory.map (·.1)).foldl State.openSlot s
    let bare := fun n => (visited.segment n).enabled = true ∧ (visited.segment n).outstanding = 0
    visited.directory.map (·.1) = s.directory.map (·.1) ∧ visited.segments.plan = s.segments.plan ∧
    (∀ n, ∃ members outstanding done faulted, visited.segment n = { s.segment n with
      members := members, outstanding := outstanding, done := done, faulted := faulted }) ∧
    ∃ t : State, exec .openScan s = .next t ∧
      t.route = { s.route with
        state := .opened, scanning := none, clock := 0, checkpointsDue := []
        openFailures := visited.route.openFailures } ∧
      t.directory = visited.directory ∧ t.store = visited.store ∧ t.tamper = visited.tamper ∧
      t.segments.plan = s.segments.plan.filter (fun n => ¬bare n) ∧
      (∀ n, (bare n → t.segment n = { visited.segment n with state := .complete }) ∧
        (¬bare n → t.segment n = visited.segment n)) ∧
      Quiet s { t with route := s.route } ∧ t.events.pending.getLsbD 9 = true ∧
      t.events.pending = visited.events.pending ||| 0x200 ∧
      (∀ i, i ≠ 4 → visited.events.pending.getLsbD i = s.events.pending.getLsbD i) ∧
      (t.segments.plan = visited.segments.plan → t.mem.readItem 3 = visited.mem.readItem 3) ∧
      (t.segments.plan ≠ visited.segments.plan → t.mem.readItem 3 = some (planItem t.segments.plan)) ∧
      (∀ n : Seg, t.mem.readItem (5 + n.val) =
        if segmentItem (t.segment n) = segmentItem (visited.segment n) then visited.mem.readItem (5 + n.val)
        else some (segmentItem (t.segment n))) ∧
      (∀ a, a < Config.routeBase → t.mem.read a = visited.mem.read a) ∧
      t.mem.readItem 2 = some [0x03, segByte t.segments.active] ∧
      t.mem.readItem 4 = some [0, 0, 0, 0] ∧ t.segments.active = s.segments.active ∧
      ∀ n, (t.segment n).base = (s.segment n).base ∧ (t.segment n).limit = (s.segment n).limit ∧
        (t.segment n).dwell = (s.segment n).dwell ∧ (t.segment n).visited = (s.segment n).visited ∧
        (t.segment n).redrive = (s.segment n).redrive ∧
        ((t.segment n).enabled = true → (t.segment n).outstanding = 0 →
          (t.segment n).state = .complete ∧ n ∉ t.segments.plan)) ∧
  (∀ (s : State) (slot : Nat) (d : DirEntry), s.route.scanning = some .opening →
    s.directory.get slot = some d →
    let y := s.takeLine .scan slot
    let t := State.openSlot s slot
    (y.2 = true → t.route = { s.route with openFailures := s.route.openFailures + 1 } ∧
      (∃ serial, t.cached slot = .fault serial d.segment) ∧
      t.directory.get slot = some ⟨.fault, d.segment, [], false⟩ ∧
      (d.segment = none → t.segments = s.segments)) ∧
    (∀ r, y.2 = false → y.1.cached slot = .live r →
      let place := s.windowOf r.sequence
      t.cached slot = .live { r with segment := place } ∧
      t.directory.get slot = some ⟨.live r.status, place, d.chain, r.batch.isSome⟩ ∧
      t.route = s.route ∧ t.segments.plan = s.segments.plan ∧
      (∀ n, d.segment ≠ some n → place = some n →
        t.segment n = (s.segment n).recount (Status.live r.status).cls (· + 1)) ∧
      (∀ n, d.segment ≠ some n → place ≠ some n → t.segment n = s.segment n)))

/-- R128, R139: ROUTE_CLOSE writes the checkpoint, finishes the frame in hand and leaves the active segment. Its
route-wide pass then visits every occupied slot in ascending order, as the leave walk does (R121), so that at its
turn each slot's record is PENDING or HELD no longer. Every UNVISITED or REDRIVE segment becomes ABANDONED, or
COMPLETE with nothing outstanding, the cache is written back, every image that was queued and then every DIRTY
line's reaching its slot with its check byte, and the answer is OK with the segment left, the state its leave gave it
(log, entry 43), and the counts of both walks. The route is CLOSED with its clock as it stood, and the checkpoint
with it; no segment is active, UNVISITED or REDRIVE, the plan is empty, and what the third step changed of states and
plan is in the route area; no line is DIRTY and the write queue is empty. It completes for every route that is OPEN;
in any other state it is WRONG_STATE, and nothing else changes. -/
def Obligations.RoutesClose : Prop :=
  (∀ s : State, s.serving → s.route.state ≠ .opened → exec .routeClose s = .next (s.reply .wrongState [])) ∧
  ∀ s : State, s.serving → s.Ok → s.route.state = .opened →
    let f := s.writeCheckpoint.finishFrame
    let x : State × List Byte × WalkCounts := match f.segments.active with
      | none => (f, [0xFF, 0xFF], ⟨0, 0, 0⟩)
      | some n => ((f.leave .command n).1,
          [natByte n.val, ((f.leave .command n).1.segment n).state.code],
          (f.leave .command n).2)
    let slots := x.1.directory.map (·.1)
    let pass := fun visits : List Nat =>
      visits.foldl (fun y slot => State.settleSlot .command slot y) (x.1, (⟨0, 0, 0⟩ : WalkCounts))
    let p := pass slots
    (∀ before slot rest r, slots = before ++ slot :: rest →
      (pass (before ++ [slot])).1.cached slot = .live r → r.status ≠ .pending ∧ r.status ≠ .held) ∧
    ∃ u : State,
      exec .routeClose s = .next (u.reply .ok (x.2.1 ++ natHalf (x.2.2.missed + p.2.missed) ++
        natHalf (x.2.2.flagged + p.2.flagged) ++ natHalf (x.2.2.failures + p.2.failures))) ∧
      u.directory = p.1.directory ∧ u.tamper = p.1.tamper ∧ u.store.usedBlocks = p.1.store.usedBlocks ∧
      (∀ n, u.segment n = if (p.1.segment n).state = .unvisited ∨ (p.1.segment n).state = .redrive then
          { p.1.segment n with
            state := if (p.1.segment n).outstanding = 0 then .complete else .abandoned }
        else p.1.segment n) ∧
      u.route = { s.route with state := .closed, checkpointsDue := [] } ∧
      u.matching.inHand = none ∧ u.segments.active = none ∧ u.segments.plan = [] ∧
      (∀ n, (u.segment n).state ≠ .unvisited ∧ (u.segment n).state ≠ .redrive) ∧
      u.store.queue = [] ∧ (∀ i b, (u.line i).body = some b → b.dirty = false) ∧
      (let images := p.1.store.queue ++ p.1.dirtyImages;
        (∀ x, x < Config.routeBase →
          u.mem.read x = (images.foldl (fun m q => m.writeSlot q.slot q.contents) p.1.mem).read x) ∧
        ∀ before q later, images = before ++ q :: later → (∀ k ∈ later, k.slot ≠ q.slot) → q.slot < 8192 →
          u.mem.slotBytes q.slot = q.contents.image) ∧
      u.mem.readItem 2 = some [0x04, 0xFF] ∧
      (s.Sound → u.mem.readItem 4 = some (wordBytes s.route.clock) ∧
        u.mem.readItem 3 = (if p.1.segments.plan = [] then p.1.mem.readItem 3 else some (planItem [])) ∧
        ∀ n : Seg, u.mem.readItem (5 + n.val) =
          if segmentItem (u.segment n) = segmentItem (p.1.segment n) then p.1.mem.readItem (5 + n.val)
          else some (segmentItem (u.segment n))) ∧
      u.ports = s.ports ∧ u.depot = s.depot ∧ u.assessment = s.assessment ∧
      u.command = s.command ∧ u.events.enabled = s.events.enabled

/-- R140: ROUTE_CLEAR in LOADING or CLOSED with the engine IDLE retires every record and takes the route to
EMPTY: every slot and block is free, no serial is in the index, the recent-match buffer, the tamper queue and its
counters, the segments, the plan, the header and the clock are cleared, the write queue has emptied after
the accesses that clear the index (R34, R36), every slot that was occupied is the free slot in memory, and the answer
is OK with the number of records. The ports, the intake counters, the event sets, the cab indicator and the depot
link are as they were. The window and dwell limit of a disabled
segment, in the state and in the route area, are the model's choice (log, entry 3, DESIGN CHOICE). -/
def Obligations.ClearingLeavesNothing : Prop :=
  ∀ s : State, s.serving → s.Ok → s.route.state = .loading ∨ s.route.state = .closed →
    s.depot.engine = .idle →
    ∃ u : State, exec .routeClear s = .next (u.reply .ok (natHalf s.directory.length)) ∧
      u.directory = [] ∧ u.store.usedBlocks = [] ∧ (∀ serial, u.mem.lookup serial = none) ∧
      u.matching = { s.matching with buffer := [] } ∧
      u.tamper = { s.tamper with entries := [], evictions := 0, turnedAway := 0 } ∧
      u.segments = Segments.reset ∧ u.assessment = none ∧
      u.route = { s.route with state := .empty, header := none, clock := 0, checkpointsDue := [] } ∧
      u.events = s.events ∧ u.ports = s.ports ∧ u.depot = s.depot ∧ u.power = s.power ∧
      u.store.queue = [] ∧ (∀ slot d, s.directory.get slot = some d → u.lineOf slot = none ∧
        u.mem.slotBytes slot = Contents.free.image) ∧
      u.mem.readItem 2 = some [0x01, 0xFF] ∧ u.mem.readItem 3 = some (planItem []) ∧
      u.mem.readItem 4 = some [0, 0, 0, 0] ∧ u.mem.readItem 1 = some (0x00 :: List.replicate 32 0) ∧
      (∀ n : Seg, u.mem.readItem (5 + n.val) = some (segmentItem Segment.reset))

/-! ### Batches -/

/-- R151, R152, R153, R157, R158, R174: a RUNNING engine with no batch outstanding and the link ATTACHED surveys the
classes FLAGGED, READ and MISSED as the directory stands, none begun once 16 records are held, and keeps the 16
selectable records with the lowest keys after the cursor, or from start when none lies after it. With none the upload
is finished: IDLE, UPLOAD_DONE raised, and a CLOSED route without a live record EMPTY. Else each record chosen that
still has its serial and is selectable takes the batch field, joins the outstanding batch and is packed with its
extension as far as it is good; another is left out; the cursor is the last key chosen, and the OFFER of the packed
records is on the link, or with none it stays ATTACHED, for the engine to form again at its next BATCH_FORM (log,
entry 21). Between two record reads a command, a step of the matching engine, a depot byte, a removal from the dock or
a warning or loss of the supply that waits may be served first (R36, R159): whether it has come is a free value (log,
entry 57, DESIGN CHOICE), and where both it and the upload engine wait for memory the arbiter's turn decides, counting
round from the unit after the one granted last, so that a row that has lost the turn is served after one more read
(R36); the forming, held meanwhile, goes on at the next BATCH_FORM, a marking in a STOPPING engine too. The candidates
of one class are surveyed in slot order, which is the model's choice (log, entry 62, DESIGN CHOICE), and so is that a
record read again under another class is kept under both keys (log, entry 65, DESIGN CHOICE). That these are
the conditions of a batch, the route state not among them, is log, entry 21 (DEDUCED). -/
def Obligations.BatchesAreFormed : Prop :=
  let ordered := fun l : List Surveyed => l.Pairwise fun a b => b.key.before a.key = false
  let selectable := fun r : Record => (r.status = .flagged ∨ r.status = .read ∨ r.status = .missed) ∧
    r.batch = none ∧ r.marks.depotRefused = false
  let met := fun s : State => ∃ c rest, s.pending = c :: rest ∧ interposes c = true
  let offered := fun (s : State) (last : Option Key) (y : List (List Byte) × State) =>
    let body : List Byte := [0x00] ++ natHalf (15 + y.1.flatten.length) ++ [0x01] ++ wordBytes s.params.identity ++
      halfBytes s.params.van ++ [s.depot.batchNumber, natByte y.1.length] ++ y.1.flatten
    { s.depot with
      forming := none, cursor := last, outstanding := y.2.depot.outstanding
      link := if y.1 = [] then .attached else .sending
      rx := if y.1 = [] then s.depot.rx else []
      tx := if y.1 = [] then s.depot.tx else [0xA6] ++ body ++ halfBytes (crc16 body) }
  (∀ (s : State) (cursor : Option Key) (kept : List Surveyed) (slot : Nat),
    let y := s.takeLine .upload slot
    let v := State.surveySlot cursor (kept, s) slot
    v.2 = y.1.letGo slot ∧ (y.2 = true → v.1 = kept) ∧
    (∀ r, y.2 = false → y.1.cached slot = .live r →
      let k : Key := ⟨r.status, r.sequence, slot⟩
      let fits := selectable r ∧ ∀ c, cursor = some c → c.before k = true
      (fits → v.1.Perm (⟨k, r.serial⟩ :: kept) ∧ (ordered kept → ordered v.1)) ∧
      (¬fits → v.1 = kept))) ∧
  (∀ (s : State) (cursor : Option Key), s.survey cursor =
    let y := [LiveStatus.flagged, .read, .missed].foldl (fun y status =>
      if 16 ≤ y.1.length then y
      else ((y.2.directory.filter fun e => e.2.status = .live status).map (·.1)).foldl
        (State.surveySlot cursor) y) ([], s)
    (y.1.take 16, y.2)) ∧
  (∀ (s : State) (packed : List (List Byte)) (k : Surveyed),
    let slot := k.key.slot
    let y := s.takeLine .upload slot
    let v := State.markOne (packed, s) k
    (∀ r d, y.2 = false → y.1.directory.get slot = some d → y.1.cached slot = .live r →
      r.serial = k.serial → selectable r →
      let marked := { r with batch := some s.depot.batchNumber }
      let read := (y.1.putRecord slot marked).mem.readChain (d.chain.map (·.1)) 0 0
      let chain := if read.bad then d.chain.take read.kept else d.chain
      let sent := if read.bad then { marked with
        firstBlock := headOf chain, marks := { r.marks with extensionLost := true } } else marked
      v.1 = packed ++ [sent.uploadBytes s.params.date read.note read.values] ∧
      v.2.cached slot = .live sent ∧
      v.2.directory.get slot = some ⟨.live r.status, r.segment, chain, true⟩ ∧
      v.2.depot = { s.depot with outstanding := s.depot.outstanding ++ [(slot, r.serial)] } ∧
      Quiet s { v.2 with depot := s.depot }) ∧
    (y.2 = true ∨ y.1.directory.get slot = none ∨
      (∀ r, y.1.cached slot = .live r → r.serial ≠ k.serial ∨ ¬selectable r) →
      v = (packed, y.1.letGo slot))) ∧
  (∀ (r : Record) (date : Half) (note : List Byte) (values : List Half),
    let optional := fun (present : Bool) (bit : Byte) => if present then bit else 0
    r.uploadBytes date note values = wordBytes r.serial ++ halfBytes r.sequence ++
      [r.kind.code, r.status.code] ++ halfBytes date ++ halfBytes r.hearCount ++
      [r.evidence.byte, r.score, r.marks.byte,
        optional r.bestSignal.isSome 1 ||| optional r.powerRef.isSome 2 |||
          optional r.current.isSome 0x14 ||| optional (r.current.any (·.byProbe)) 8,
        r.bestSignal.getD 0, r.powerRef.getD 0] ++
      (match r.current with
        | some c => wordBytes c.time ++ wordBytes c.value ++ wordBytes c.delta ++ [c.direction.code]
        | none => [0, 0, 0, 0]) ++
      [natByte values.length] ++ values.flatMap halfBytes ++ [natByte note.length] ++ note) ∧
  (∀ (s : State) (again : Bool) (status : LiveStatus) (next : Nat) (kept : List Surveyed), s.Ok →
    let w := s.formRead (.surveying again status next kept)
    (∀ slot d, s.directory.get slot = some d → next ≤ slot → d.status = .live status →
      (∀ k x, s.directory.get k = some x → next ≤ k → x.status = .live status → slot ≤ k) →
      let v := State.surveySlot (if again then none else s.depot.cursor) (kept, s) slot
      w = (some (.surveying again status (slot + 1) v.1), v.2)) ∧
    ((∀ k x, s.directory.get k = some x → next ≤ k → x.status ≠ .live status) →
      (kept.length < 16 → status = .flagged → w = (some (.surveying again .read 0 kept), s)) ∧
      (kept.length < 16 → status = .read → w = (some (.surveying again .missed 0 kept), s)) ∧
      (16 ≤ kept.length ∨ status = .missed → kept ≠ [] →
        w = (some (.marking ((kept.take 16).getLast?.map (·.key)) (kept.take 16) []), s)) ∧
      (status = .missed → kept = [] → again = false → w = (some (.surveying true .flagged 0 []), s)) ∧
      (status = .missed → kept = [] → again = true → w = (none, s.finishUpload)))) ∧
  (∀ (s : State) (last : Option Key) (k : Surveyed) (todo : List Surveyed) (packed : List (List Byte)),
    let y := State.markOne (packed, s) k
    s.formRead (.marking last (k :: todo) packed) = (some (.marking last todo y.1), y.2)) ∧
  (∀ c, interposes c = true ↔ isBlock c = true ∨ c = .frameTake ∨ c = .frameMatch ∨ c = .dockRemoval ∨
    (∃ b, c = .depotByte b) ∨ c = .powerWarning ∨ ∃ loss, c = .powerLoss loss) ∧
  (∀ (n : Nat) (w : Forming) (s t : State),
    (s.formRead w = (none, t) → s.formOn (n + 1) w = t) ∧
    (∀ w', s.formRead w = (some w', t) → t.pending = s.pending ∧ (¬met s → s.formOn (n + 1) w = t.formOn n w') ∧
      (met s →
        let drew := { t with draws := t.draws + 1 }
        let held := fun (u : State) (x : Forming) => { u with depot := { u.depot with forming := some x } }
        s.formOn (n + 1) w =
          if Config.commandFirst t.draws = true then
            if t.rowGoesFirst w' = true then held drew w'
            else match drew.formRead w' with
              | (some w'', u) => held u w''
              | (none, u) => u
          else drew.formOn n w'))) ∧
  (∀ (s : State) (w : Forming) (c : Instr) (rest : List Instr), s.pending = c :: rest →
    let both := s.rowNeeds c = true ∧ w.needs s = true
    (c = .frameTake ∨ c = .frameMatch → (s.rowGoesFirst w = true ↔ ¬both ∨ s.store.granted = .upload)) ∧
    (isBlock c = true → (s.rowGoesFirst w = true ↔ ¬both ∨ s.store.granted ≠ .command)) ∧
    (c ≠ .frameTake → c ≠ .frameMatch → isBlock c = false → s.rowGoesFirst w = true) ∧
    (∀ k todo last packed, w = .marking last (k :: todo) packed →
      (w.needs s = true ↔ s.lineOf k.key.slot = none ∧ s.queued k.key.slot = none)) ∧
    (∀ again status next kept, w = .surveying again status next kept →
      (w.needs s = true ↔ ∃ e, s.candidate status next = some e ∧ s.lineOf e.1 = none ∧ s.queued e.1 = none))) ∧
  (∀ s : State, s.Ok →
    let may := s.power = .on ∧ s.route.scanning = none ∧ s.depot.link = .attached ∧
      (s.depot.forming = none → s.depot.engine = .running ∧ s.depot.outstanding = []) ∧
      (s.depot.forming ≠ none → s.depot.engine ≠ .idle)
    (¬may → exec .batchForm s = .next s) ∧
    (may → ∃ t : State, t = { s with depot := { s.depot with forming := none } }.formOn s.formWork
        (s.depot.forming.getD (.surveying false .flagged 0 [])) ∧
      exec .batchForm s = .next t ∧ t.pending = s.pending ∧ t.ports = s.ports ∧ (t.depot.forming ≠ none → met s)) ∧
    (may → ¬met s → ∀ last todo packed, s.depot.forming = some (.marking last todo packed) →
      let y := todo.foldl State.markOne (packed, { s with depot := { s.depot with forming := none } })
      ∃ t : State, exec .batchForm s = .next t ∧ t = { y.2 with depot := t.depot } ∧
        t.depot = offered s last y ∧ y.1.length = t.depot.outstanding.length ∧
        Quiet s { t with depot := s.depot })) ∧
  ∀ s : State, s.Ok → s.power = .on → s.route.scanning = none → s.depot.engine = .running →
    s.depot.outstanding = [] → s.depot.link = .attached → s.depot.forming = none → ¬met s →
    let x := s.choose
    let first := s.survey s.depot.cursor
    (first.1 ≠ [] → x = first) ∧ (first.1 = [] → x = first.2.survey none) ∧
    x.1.length ≤ 16 ∧ (x.1.Pairwise fun a b => b.key.before a.key = false) ∧ Quiet s x.2 ∧
    (x.1 = [] → ∃ t : State, exec .batchForm s = .next t ∧
      t.depot = { s.depot with engine := .idle } ∧ t.events.pending.getLsbD 6 = true ∧
      (s.route.state = .closed → t.directory = [] → t.route.state = .empty) ∧
      (s.route.state ≠ .closed ∨ t.directory ≠ [] → t.route = s.route)) ∧
    (x.1 ≠ [] →
      let y := x.1.foldl State.markOne ([], x.2)
      ∃ t : State, exec .batchForm s = .next t ∧ t = { y.2 with depot := t.depot } ∧
      y.1.length = t.depot.outstanding.length ∧
      t.depot.outstanding.Sublist (x.1.map fun k => (k.key.slot, k.serial)) ∧
      t.depot = offered s (x.1.getLast?.map (·.key)) y ∧
      Quiet s { t with depot := s.depot })

/-- R149, R154, R155: the depot receiver takes the eight bytes of a good VERDICT, one after another. When it
is for the outstanding batch, each position of the batch is judged in turn by its bit of the accepted set, and
the batch is disposed of: none outstanding, no failures, the next batch number, the link ATTACHED, the timer
stopped, a STOPPING engine IDLE, and its marking, if the verdict came during that, over with the records marked so
far (log, entry 57, DESIGN CHOICE); any other is counted stale and changes nothing else. A frame with another
length, one whose CRC does not hold, and one of eight bytes whose CRC holds but whose kind is not 02h is counted
damaged, and changes nothing else. A slot that no longer holds the record, by directory and index, is
passed over (log, entry 21). -/
def Obligations.VerdictsAreTaken : Prop :=
  ∀ (s : State) (number : Byte) (accepted : Half), s.power = .on → s.depot.rx = [] →
    s.depot.link = .attached ∨ s.depot.link = .awaiting ∨ s.depot.link = .faulted →
    let frame (check : Half) : List Byte :=
      [0xA6, 0x08, 0x02, number] ++ halfBytes accepted ++ halfBytes check
    let good := crc16 ([0x08, 0x02, number] ++ halfBytes accepted)
    (s.depot.outstanding ≠ [] → s.depot.batchNumber = number →
      let judged := (positions 0 s.depot.outstanding).foldl (State.judgeOne accepted)
        { s with depot := { s.depot with timer := none } }
      ∃ t : State, execAll ((frame good).map Instr.depotByte) s = .next t ∧
        t = { judged with depot := t.depot } ∧
        t.depot.accepted = judged.depot.accepted ∧ t.depot.refused = judged.depot.refused ∧
        t.depot = { s.depot with
          outstanding := [], forming := none, failures := 0, batchNumber := number + 1, link := .attached
          timer := none, accepted := t.depot.accepted, refused := t.depot.refused
          engine := if s.depot.engine = .stopping then .idle else s.depot.engine } ∧
        t.ports = s.ports ∧ t.power = s.power ∧ t.draws = s.draws ∧
        t.events.enabled = s.events.enabled) ∧
    (s.depot.outstanding = [] ∨ s.depot.batchNumber ≠ number →
      execAll ((frame good).map Instr.depotByte) s = .next { s with depot := { s.depot with
        stale := satInc s.depot.stale } }) ∧
    (∀ check, check ≠ good → execAll ((frame check).map Instr.depotByte) s = .next { s with
      depot := { s.depot with damaged := satInc s.depot.damaged } }) ∧
    (∀ kind : Byte, kind ≠ 2 →
      let body := [0x08, kind, number] ++ halfBytes accepted
      execAll (([0xA6] ++ body ++ halfBytes (crc16 body)).map Instr.depotByte) s = .next { s with
        depot := { s.depot with damaged := satInc s.depot.damaged } }) ∧
    (∀ b : Byte, b ≠ 8 → execAll [.depotByte 0xA6, .depotByte b] s = .next { s with
      depot := { s.depot with damaged := satInc s.depot.damaged } }) ∧
    (∀ b : Byte, b ≠ 0xA6 → exec (.depotByte b) s = .next s)

/-- R155, R156: one position of a verdict taken: an accepted record is retired, as RECORD_RETIRE does it (R21), and
counted, and the last one of a CLOSED route takes the route back to EMPTY (R141); one not accepted loses its batch
field, gains the depot refused mark and is counted, unless its fill fails its check: it is FAULT then (R18), and
counted neither way. A verdict's last byte judges the positions of the outstanding batch in turn, and ends a marking
under way (log, entry 57, DESIGN CHOICE). One record of a returned batch loses its batch field, and gains no mark. A
verdict timeout returns the batch record by record, with every counter and state as R156 gives it: the third failure
in a row faults the link and raises DEPOT_FAULT. That the free-slot image of the last record still stands in the queue
after the return to EMPTY is log, entry 40 (DESIGN CHOICE), where R141 says that it may. That a slot that no longer
holds the record, by directory and index, is passed over is log, entry 21 (DEDUCED). -/
def Obligations.BatchesAreDisposedOf : Prop :=
  (∀ (s : State) (accepted : Half) (i slot : Nat) (serial : Word) (d : DirEntry), s.Ok →
    let t := State.judgeOne accepted s (i, slot, serial)
    (s.directory.get slot = none ∨ s.mem.lookup serial ≠ some slot → t = s) ∧
    (s.directory.get slot = some d → s.mem.lookup serial = some slot → accepted.getLsbD i = true →
      (let u := { s.retire .upload slot serial with
        depot := { s.depot with accepted := satInc s.depot.accepted } };
        t = if s.route.state = .closed ∧ s.directory.length = 1 then u.emptyRoute else u) ∧
      t.directory = s.directory.filter (fun e => e.1 != slot) ∧ t.lineOf slot = none ∧
      t.queued slot = some .free ∧ (∀ e ∈ t.tamper.entries, e.slot ≠ slot) ∧
      t.depot = { s.depot with accepted := satInc s.depot.accepted }) ∧
    (∀ r, s.directory.get slot = some d → s.mem.lookup serial = some slot →
      accepted.getLsbD i = false → (s.takeLine .upload slot).1.cached slot = .live r →
      t.cached slot = .live { r with
        batch := none, marks := { r.marks with depotRefused := true } } ∧
      t.directory.get slot = some ⟨.live r.status, r.segment, d.chain, false⟩ ∧
      t.depot = { s.depot with refused := satInc s.depot.refused } ∧
      Quiet s { t with depot := s.depot }) ∧
    (s.directory.get slot = some d → s.mem.lookup serial = some slot → accepted.getLsbD i = false →
      (s.takeLine .upload slot).2 = true → t.depot = s.depot ∧
      t.directory.get slot = some ⟨.fault, d.segment, [], false⟩ ∧
      ∃ x, t.cached slot = .fault x d.segment)) ∧
  (∀ (s : State) (accepted : Half), s.power = .on → s.depot.outstanding ≠ [] →
    s.depot.link = .attached ∨ s.depot.link = .awaiting ∨ s.depot.link = .faulted →
    let body := [0x08, 0x02, s.depot.batchNumber] ++ halfBytes accepted
    let check := halfBytes (crc16 body)
    s.depot.rx = [0xA6] ++ body ++ check.take 1 →
    let judged := (positions 0 s.depot.outstanding).foldl (State.judgeOne accepted)
      { s with depot := { s.depot with timer := none, rx := [] } }
    exec (.depotByte (byteAt check 1)) s = .next { judged with depot := { judged.depot with
      outstanding := [], forming := none, failures := 0, batchNumber := s.depot.batchNumber + 1
      link := .attached
      engine := if s.depot.engine = .stopping then .idle else s.depot.engine } }) ∧
  (∀ (s : State) (slot : Nat) (serial : Word) (d : DirEntry),
    let t := State.returnOne s (slot, serial)
    (s.directory.get slot = none ∨ s.mem.lookup serial ≠ some slot → t = s) ∧
    (∀ r, s.directory.get slot = some d → s.mem.lookup serial = some slot →
      (s.takeLine .upload slot).1.cached slot = .live r →
      t.cached slot = .live { r with batch := none } ∧
      t.directory.get slot = some ⟨.live r.status, r.segment, d.chain, false⟩ ∧ Quiet s t)) ∧
  (∀ s : State, s.power = .on → s.depot.timer ≠ none → s.depot.outstanding ≠ [] →
    let u := s.depot.outstanding.foldl State.returnOne s
    Quiet s u ∧
      let d := { s.depot with
        outstanding := [], forming := none, cursor := none, timer := none
        batchNumber := s.depot.batchNumber + 1
        timeouts := satInc s.depot.timeouts, failures := s.depot.failures + 1 }
      (s.depot.failures < 2 → exec .verdictTimeout s = .next { u with depot := { d with
        link := .attached
        engine := if s.depot.engine = .stopping then .idle else s.depot.engine } }) ∧
      (2 ≤ s.depot.failures → exec .verdictTimeout s = .next { u with
        depot := { d with link := .faulted, engine := .idle }
        events := { u.events with pending := u.events.pending ||| 0x80 } }))

/-! ### Power and restarts -/

/-- R43, R102, R131, R142, R145, R146, R168, R23: a power warning writes the queue and the DIRTY lines that no unit
holds to memory, writes the checkpoint, ends all work, loses the tamper queue and halts the 460. A power-up from the
halt or from no supply reads a route area with a valid signature and sets SCANNING for the RECOVERY scan, or else
initialises record memory: every slot free, the index empty, both copies of every item good, no header, the route
EMPTY with no segment active, every segment DISABLED, the plan empty, the checkpoint 0, and the extension area as it
was; a part reset does the same to a working 460, with its work finished and written back first, and is not answered.
Either start leaves both event sets empty (R168), but for the SCAN_DONE of an initialisation, and with a valid
signature has the segment unit as the route area has it (R131). A loss of the supply leaves record memory as the loss
left it, and on chip, in every block, the values that power brings (what a response last clocked out is the host's,
log, entry 30); one said to catch a place that memory does not have stops the model (log, entry 23, DESIGN CHOICE).
What a warning leaves on chip while the 460 is halted is log, entry 34 (DEDUCED); route state, header and clock read
before the scan, entry 28 (DEDUCED); the level of dock-sense kept throughout, entry 29, the disabled windows of the
EMPTY route, entry 3, and the cache lines' order of use, entry 35 (DESIGN CHOICES). -/
def Obligations.SupplyEventsTakeEffect : Prop :=
  (∀ s : State, s.power = .on → ∃ t : State, exec .powerWarning s = .next t ∧
    t.power = .halted ∧
    t.mem = ((s.store.queue ++ s.looseImages).foldl (fun m q => m.writeSlot q.slot q.contents)
      s.mem).writeItem 4 (wordBytes s.route.clock) ∧
    t.store.queue = [] ∧ t.matching = { s.matching with inHand := none } ∧
    t.command = { s.command with unit := .idle, response := [] } ∧
    t.tamper = { s.tamper with entries := [], evictions := 0, turnedAway := 0, pulseRunning := false } ∧
    t.route = { s.route with scanning := none, checkpointsDue := [] } ∧
    t.directory = s.directory ∧ t.depot = { s.depot with forming := none } ∧ t.events = s.events ∧
    t.cabActive = false ∧ t.attention = false ∧
    ∀ p, (t.port p).gathered = [] ∧ (t.port p).buffer = [] ∧ (t.port p).pulsing = false) ∧
  (∀ s : State, s.power ≠ .on →
    ((s.mem.signatureValid = true → ∃ t : State, exec .powerUp s = .next t ∧ t.recovering s.mem ∧
      t.route.lastStart = .recovered ∧ t.pending = s.pending ∧ t.command.dataOut = s.command.dataOut ∧
      t.depot.dockSense = s.depot.dockSense ∧ t.draws = s.draws) ∧
    (s.mem.signatureValid = false → exec .powerUp s = .next { State.reset with
      pending := s.pending, mem := s.mem.initialise, draws := s.draws
      command := { State.reset.command with dataOut := s.command.dataOut }
      depot := { State.reset.depot with
        dockSense := s.depot.dockSense
        link := if s.depot.dockSense then .attached else .detached } }))) ∧
  (∀ s : State, s.serving → ∃ t : State, exec .partReset s = .next t ∧ t.power = .on ∧
    t.command = State.reset.command ∧
    t.pending = s.pending ∧ t.depot.dockSense = s.depot.dockSense ∧
    (let m := s.finishFrame.writeBack.writeCheckpoint.mem;
      (m.signatureValid = true → t.recovering m ∧ t.route.lastStart = .reset) ∧
      (m.signatureValid = false → t = { State.reset with
        pending := s.pending, mem := m.initialise, draws := s.draws
        depot := { State.reset.depot with
          dockSense := s.depot.dockSense
          link := if s.depot.dockSense then .attached else .detached } }))) ∧
  (∀ (s : State) (loss : Loss),
    (loss.wellFormed = true → ∃ t : State, exec (.powerLoss loss) s = .next t ∧ t.power = .off ∧
      t.mem = s.memAfter loss ∧ (loss = .clean → t.mem = s.mem) ∧
      t = { State.reset with
        power := .off, mem := t.mem, pending := s.pending, draws := s.draws
        events := { pending := 0, enabled := 0 }
        command := { State.reset.command with dataOut := s.command.dataOut }
        depot := { State.reset.depot with
          dockSense := s.depot.dockSense
          link := if s.depot.dockSense then .attached else .detached } }) ∧
    (loss.wellFormed = false → exec (.powerLoss loss) s = .fault .outsideRecordMemory)) ∧
  (∀ m : Memory, m.wf = true →
    let m' := m.initialise
    m'.wf = true ∧ m'.signatureValid = true ∧ (∀ serial, m'.lookup serial = none) ∧
    (∀ slot, slot < 8192 → checkHolds 64 (m'.slotBytes slot) = true ∧
      Contents.ofBytes (m'.slotBytes slot) = .free) ∧
    (∀ i copy, i < 69 → m'.copyGood i copy = true) ∧
    m'.readItem 1 = some (0x00 :: List.replicate 32 0) ∧ m'.readItem 2 = some [0x01, 0xFF] ∧
    m'.readItem 3 = some (0x00 :: List.replicate 64 0) ∧ m'.readItem 4 = some [0, 0, 0, 0] ∧
    (∀ n : Seg, m'.readItem (5 + n.val) = some (segmentItem Segment.reset)) ∧
    ∀ a, 0x80000 ≤ a → a < 0xA0000 → m'.read a = m.read a)

/-- R110, R131, R143, R144: the RECOVERY scan, once no frame is in hand and the write queue is empty, takes
header, clock and route state from the route area, clears the index, directory, free map, counters and tamper
queue, and treats slots 0 to 8,191 in order. A slot with no serial is free; on an EMPTY route, and for a serial
seen in an earlier slot, it is discarded, unless that one failed its check and this one holds: then they change
places, the earlier slot's newest copy is the free slot, out of directory and counts, and the index has the serial
at this slot, treated as any other (the write queue naming slots there are). A record whose check fails becomes
FAULT; a FAULT record stands with its segment; any other stands with no batch field and the segment of its window,
settled on a CLOSED route, its serial in the index, its counters moved and its chain as far as it is good. The
tamper queue has the unacknowledged FLAGGED records, the first 128; the plan lists the UNVISITED and REDRIVE
segments, the segments of an OPEN or CLOSED route agree with their counts, and every count is the number of the
directory's entries that it counts (R113). SCANNING is clear and SCAN_DONE raised, NEW_FLAG by a leave in OPEN alone,
SEGMENT_DONE in OPEN and CLOSED alone, RECORD_FAULT, and no other event; ports, upload engine and cab
settings are as they were. The count of occupied slots, a block claimed twice and the segment of a stored FAULT
record are log, entries 15, 17 and 18 (DEDUCED), the flag time of a FLAGGED record that memory holds without one
entry 52 (DESIGN CHOICE); that no SEGMENT_DONE comes of a recovery in LOADING, where R131 completes a segment with
nothing outstanding and names no route state, is entry 16 (DEDUCED); a code that no table names is a free value (entry
4). -/
def Obligations.RoutesAreRecovered : Prop :=
  (∀ (x : Scan) (slot : Nat), x.state.Ok → slot < 8192 → x.state.route.scanning ≠ none →
    (∀ k ∈ x.failed, k < slot) →
    let read := x.state.scanRead slot
    let bytes := read.1.bytes
    let serial := wordAt bytes 0
    let y := x.slot slot
    let s := read.2
    let t := y.state
    let listed := serial ≠ 0 ∧ serial ≠ 0xFFFFFFFF
    let new := listed ∧ s.route.state ≠ .empty ∧ s.mem.lookup serial = none
    let swapped := fun earlier : Nat => listed ∧ s.route.state ≠ .empty ∧
      s.mem.lookup serial = some earlier ∧ read.1.good = true ∧ earlier ∈ x.failed ∧
      ∀ q ∈ s.store.queue, q.slot < 8192
    let kept := new ∨ ∃ earlier, swapped earlier
    let stands := fun (place : Place) (chain : List (Nat × BlockKind)) =>
      t.directory.get slot = some ⟨place.status, place.segment, chain, false⟩ ∧
      (new → t.segments = (s.report none (some place)).segments) ∧
      (∀ earlier, swapped earlier →
        t.segments = ((s.report (s.place earlier) none).report none (some place)).segments)
    let discarded := fun k : Nat => t.queued k = some .free ∧ t.lineOf k = none ∧
      t.directory.get k = none ∧ t.route.scanDiscarded = satInc s.route.scanDiscarded
    (¬listed → y = { x with state := s.letGo slot }) ∧
    (listed → t.route.scanOccupied = satInc s.route.scanOccupied) ∧
    (listed → s.route.state = .empty → s.directory.get slot = none →
      discarded slot ∧ t.segments = s.segments) ∧
    (∀ earlier, listed → s.route.state ≠ .empty → s.mem.lookup serial = some earlier →
      ¬(read.1.good = true ∧ earlier ∈ x.failed) → s.directory.get slot = none → discarded slot ∧
        t.segments = s.segments ∧ y.failed = x.failed ∧ y.flagged = x.flagged ∧
        t.mem = (s.discard slot).mem) ∧
    (∀ earlier, swapped earlier → discarded earlier ∧ y.failed = x.failed.filter (· ≠ earlier) ∧
      (s.mem.IndexSound → (∃ n, n < 16384 ∧ s.mem.entrySerial n = 0) → t.mem.lookup serial = some slot ∧
        ∀ z found, z ≠ serial → s.mem.lookup z = some found → t.mem.lookup z = some found)) ∧
    (new → (∃ n, n < 16384 ∧ s.mem.entrySerial n = 0) → t.mem.lookup serial = some slot ∧
      ∀ z found, s.mem.lookup z = some found → t.mem.lookup z = some found) ∧
    (new → read.1.good = true → y.failed = x.failed) ∧
    (let named := segOfParam (byteAt bytes 6);
      let segment := if s.route.state = .loading then none
        else named.filter fun n => (s.segment n).enabled;
      (new → read.1.good = false → t.cached slot = .fault serial segment ∧ stands ⟨segment, .fault⟩ [] ∧
        t.events.pending.getLsbD 4 = true ∧ t.route.scanFailures = satInc s.route.scanFailures ∧
        y.failed = slot :: x.failed ∧ y.flagged = x.flagged)) ∧
    (∀ named, kept → read.1.good = true → Contents.ofBytes bytes = .fault serial named →
      let segment := if s.route.state = .loading then none
        else named.filter fun n => (s.segment n).enabled
      t.cached slot = .fault serial segment ∧ stands ⟨segment, .fault⟩ [] ∧ y.flagged = x.flagged) ∧
    (∀ r, kept → read.1.good = true → Contents.ofBytes bytes = .live r →
      let placed := { r with
        batch := none, segment := if s.route.state = .loading then none else s.windowOf r.sequence }
      let settled := if s.route.state ≠ .closed then placed
        else if r.status = .pending then { placed with status := .missed }
        else if r.status = .held then { placed with
          status := .flagged, flagTime := some s.route.clock
          current := if r.candidate.isSome then r.candidate else r.current, candidate := none
          marks := { r.marks with unconfirmed := true } }
        else placed
      let walk := s.mem.walkChain 4 s.store.usedBlocks r.firstBlock true 0
      t.cached slot = .live (if walk.cut then { settled with
        firstBlock := headOf walk.blocks, marks := { settled.marks with extensionLost := true } }
        else settled) ∧
      stands ⟨settled.segment, .live settled.status⟩ walk.blocks ∧
      (∀ k, k ∈ t.store.usedBlocks ↔ k ∈ s.store.usedBlocks ∨ ∃ b ∈ walk.blocks, b.1 = k) ∧
      t.route.scanCut = (if walk.cut then satInc s.route.scanCut else s.route.scanCut) ∧
      (settled.status = .flagged → settled.marks.acknowledged = false →
        y.flagged.Perm (settled.tamperEntry slot :: x.flagged)) ∧
      (settled.status ≠ .flagged ∨ settled.marks.acknowledged = true → y.flagged = x.flagged))) ∧
  ∀ s : State, s.Ok → s.power = .on → s.route.scanning = some .recovery → s.matching.inHand = none →
    s.store.queue = [] →
    let x := (List.range 8192).foldl Scan.slot ⟨s.beginRecovery, [], []⟩
    let r := x.state
    s.beginRecovery.directory = [] ∧ s.beginRecovery.store.usedBlocks = [] ∧
    (∀ serial, s.beginRecovery.mem.lookup serial = none) ∧
    ∃ t : State, exec .recoveryScan s = .next t ∧ t.Ok ∧
      t.directory.map (·.1) = r.directory.map (·.1) ∧
      (t.route.state ≠ .opened → t.directory = r.directory ∧ t.store = r.store ∧
        t.tamper.entries = x.flagged.take 128 ∧ t.route.scanFailures = r.route.scanFailures) ∧
      t.Counted ∧ t.route.scanOccupied = r.route.scanOccupied ∧ t.route.scanCut = r.route.scanCut ∧
      t.route.scanDiscarded = r.route.scanDiscarded ∧
      (∀ n, n ∈ t.segments.plan ↔ (t.segment n).state = .unvisited ∨ (t.segment n).state = .redrive) ∧
      (t.route.state = .opened ∨ t.route.state = .closed → ∀ n,
        ((t.segment n).state = .complete → (t.segment n).outstanding = 0) ∧
        ((t.segment n).state = .unvisited ∨ (t.segment n).state = .redrive ∨
          (t.segment n).state = .abandoned → (t.segment n).outstanding ≠ 0)) ∧
      t.route.scanning = none ∧ t.events.pending.getLsbD 9 = true ∧
      (∀ i, i ≠ 0 → i ≠ 1 → i ≠ 4 → i ≠ 9 → t.events.pending.getLsbD i = s.events.pending.getLsbD i) ∧
      (t.route.state ≠ .opened → t.events.pending.getLsbD 0 = s.events.pending.getLsbD 0) ∧
      (t.route.state ≠ .opened → t.route.state ≠ .closed →
        t.events.pending.getLsbD 1 = s.events.pending.getLsbD 1) ∧
      t.route.header = headerOfItem (s.mem.item 1) ∧ t.route.clock = wordAt (s.mem.item 4) 0 ∧
      t.route.state = RouteState.ofByte (byteAt (s.mem.item 2) 0) ∧
      t.assessment = t.route.header.map Header.assessment ∧
      t.route.lastStart = s.route.lastStart ∧ t.route.openFailures = s.route.openFailures ∧
      t.segments.active = none ∧ t.tamper.entries.length ≤ 128 ∧
      (t.route.state = .empty → t.directory = []) ∧
      t.ports = s.ports ∧ t.depot = s.depot ∧ t.power = .on ∧ t.pending = s.pending ∧
      t.tamper.cabMode = s.tamper.cabMode ∧ t.tamper.invert = s.tamper.invert ∧
      t.events.enabled = s.events.enabled
end

