-- ==== Sys2Proof/Laws/Memory.lean ====
section
/-! SUPPORT. What the operations over record memory do: a read after a write, and the canonical form that
every one of them keeps. -/

namespace Sys2Proof.Machine

/-! ### The canonical form -/

/-- The canonical form in two halves: addresses strictly rising, and no byte listed that reads the same
unlisted. -/
theorem Memory.wf_iff (m : Memory) : m.wf = true ↔
    m.Pairwise (fun a b => a.1 < b.1) ∧ ∀ c ∈ m, c.2 ≠ Memory.unlisted c.1 := by
  fun_induction Memory.wf m with
  | case1 => simp
  | case2 k v => simp
  | case3 k v k' v' m ih =>
    simp only [Bool.and_eq_true, ih, List.pairwise_cons, List.mem_cons, bne_iff_ne, decide_eq_true_eq]
    constructor
    · rintro ⟨⟨hv, hk⟩, ⟨h1, h2⟩, h3⟩
      refine ⟨⟨?_, h1, h2⟩, ?_⟩
      · rintro c (rfl | hc)
        · exact hk
        · exact Nat.lt_trans hk (h1 c hc)
      · rintro c (rfl | hc)
        · exact hv
        · exact h3 c hc
    · rintro ⟨⟨h1, h2, h3⟩, h4⟩
      exact ⟨⟨h4 _ (Or.inl rfl), h1 _ (Or.inl rfl)⟩, ⟨h2, h3⟩, fun c hc => h4 c (Or.inr hc)⟩

/-- The empty list is in canonical form. -/
@[simp] theorem Memory.wf_nil : Memory.wf [] = true := rfl

/-- Leaving entries out keeps the canonical form. -/
theorem Memory.wf_filter {m : Memory} (h : m.wf = true) (p : Host.Cell → Bool) :
    Memory.wf (m.filter p) = true := by
  rw [Memory.wf_iff] at *
  exact ⟨h.1.filter _, fun c hc => h.2 c (List.mem_of_mem_filter hc)⟩

/-- What a write lists: an entry of before at another address, or the byte written. -/
theorem Memory.mem_write {m : Memory} {a : Nat} {b : Byte} {c : Host.Cell} (h : c ∈ m.write a b) :
    (c ∈ m) ∨ (c = (a, b) ∧ b ≠ Memory.unlisted a) := by
  fun_induction Memory.write m a b <;> grind

/-- A write keeps the canonical form. -/
theorem Memory.wf_write {m : Memory} (h : m.wf = true) (a : Nat) (b : Byte) :
    (m.write a b).wf = true := by
  rw [Memory.wf_iff] at *
  obtain ⟨h1, h2⟩ := h
  refine ⟨?_, fun c hc => ?_⟩
  · clear h2
    fun_induction Memory.write m a b with
    | case1 => simp
    | case2 => simp
    | case3 => simp only [List.pairwise_cons] at *; grind
    | case4 => simp only [List.pairwise_cons] at *; grind
    | case5 => simp only [List.pairwise_cons] at *; grind
    | case6 => simp only [List.pairwise_cons] at *; grind
    | case7 m' a b k v hk hlt ih =>
      rw [List.pairwise_cons] at h1 ⊢
      refine ⟨fun c hc => ?_, ih h1.2⟩
      rcases Memory.mem_write hc with hc | ⟨rfl, _⟩
      · exact h1.1 c hc
      · simp; omega
  · rcases Memory.mem_write hc with hc | ⟨rfl, hb⟩
    · exact h2 c hc
    · exact hb

/-- Writing bytes keeps the canonical form. -/
theorem Memory.wf_writeBytes {m : Memory} (h : m.wf = true) (a : Nat) (bs : List Byte) :
    (m.writeBytes a bs).wf = true := by
  induction bs generalizing m a with
  | nil => exact h
  | cons b bs ih => exact ih (Memory.wf_write h a b) (a + 1)

theorem Memory.wf_clearRange {m : Memory} (h : m.wf = true) (lo hi : Nat) :
    (m.clearRange lo hi).wf = true := Memory.wf_filter h _

theorem Memory.wf_writeSlot {m : Memory} (h : m.wf = true) (n : Nat) (c : Contents) :
    (m.writeSlot n c).wf = true := Memory.wf_writeBytes h _ _

theorem Memory.wf_writeBlock {m : Memory} (h : m.wf = true) (n : Nat) (b : Block) :
    (m.writeBlock n b).wf = true := Memory.wf_writeBytes h _ _

theorem Memory.wf_relinkBlock {m : Memory} (h : m.wf = true) (n : Nat) (next : Half) :
    (m.relinkBlock n next).wf = true := Memory.wf_writeBytes h _ _

theorem Memory.wf_writeItem {m : Memory} (h : m.wf = true) (i : Nat) (bs : List Byte) :
    (m.writeItem i bs).wf = true := Memory.wf_writeBytes h _ _

theorem Memory.wf_writeItemTwice {m : Memory} (h : m.wf = true) (i : Nat) (bs : List Byte) :
    (m.writeItemTwice i bs).wf = true := Memory.wf_writeItem (Memory.wf_writeItem h i bs) i bs

theorem Memory.wf_writeEntry {m : Memory} (h : m.wf = true) (n : Nat) (serial : Word) (slot : Nat) :
    (m.writeEntry n serial slot).wf = true := Memory.wf_writeBytes h _ _

theorem Memory.wf_insertSerial {m : Memory} (h : m.wf = true) (serial : Word) (slot : Nat) :
    (m.insertSerial serial slot).wf = true := by
  unfold Memory.insertSerial
  split
  · exact Memory.wf_writeEntry h _ _ _
  · exact h

theorem Memory.wf_closeGap {m : Memory} (h : m.wf = true) (fuel hole n : Nat) :
    (m.closeGap fuel hole n).wf = true := by
  induction fuel generalizing m hole n with
  | zero => exact h
  | succ fuel ih =>
    unfold Memory.closeGap
    split
    · exact h
    · split
      · exact ih (Memory.wf_writeEntry (Memory.wf_writeEntry h _ _ _) _ _ _) _ _
      · exact ih h _ _

theorem Memory.wf_deleteSerial {m : Memory} (h : m.wf = true) (serial : Word) :
    (m.deleteSerial serial).wf = true := by
  unfold Memory.deleteSerial
  split
  · exact Memory.wf_closeGap (Memory.wf_writeEntry h _ _ _) _ _ _
  · exact h

theorem Memory.wf_clearIndex {m : Memory} (h : m.wf = true) : m.clearIndex.wf = true :=
  Memory.wf_clearRange h _ _

theorem Memory.wf_initialise {m : Memory} (h : m.wf = true) : m.initialise.wf = true :=
  Memory.wf_filter (Memory.wf_clearRange (Memory.wf_clearRange h _ _) _ _) _

/-! ### A read after a write -/

/-- An address below every listed one reads as unlisted. -/
theorem Memory.read_below {m : Memory} {a : Nat} (h : ∀ c ∈ m, a < c.1) :
    m.read a = Memory.unlisted a := by
  cases m with
  | nil => rfl
  | cons c m =>
    have := h c (by simp)
    simp [Memory.read, Nat.ne_of_gt this, this]

/-- A read after a write: the byte written at its address, and every other address as before. -/
theorem Memory.read_write {m : Memory} (h : m.wf = true) (a : Nat) (b : Byte) (x : Nat) :
    (m.write a b).read x = if x = a then b else m.read x := by
  have h' := ((Memory.wf_iff m).1 h).1
  clear h
  induction m with
  | nil => by_cases hb : b = Memory.unlisted a <;> by_cases hx : x = a <;>
      simp [Memory.write, Memory.read, hb, hx]; exact fun h => absurd h.symm hx
  | cons c m ih =>
    obtain ⟨k, v⟩ := c
    rw [List.pairwise_cons] at h'
    have hlow : ∀ y, y ≤ k → Memory.read m y = Memory.unlisted y := fun y hy =>
      Memory.read_below fun c hc => Nat.lt_of_le_of_lt hy (h'.1 c hc)
    have ih := ih h'.2
    rw [Memory.write]
    split_ifs <;> grind [Memory.read]

/-- A read after bytes were written from an address on. -/
theorem Memory.read_writeBytes {m : Memory} (h : m.wf = true) (a : Nat) (bs : List Byte) (x : Nat) :
    (m.writeBytes a bs).read x = if a ≤ x ∧ x < a + bs.length then byteAt bs (x - a) else m.read x := by
  induction bs generalizing m a with
  | nil => simp [Memory.writeBytes]
  | cons b bs ih =>
    rw [Memory.writeBytes, ih (Memory.wf_write h a b), Memory.read_write h]
    by_cases hx : x = a
    · subst hx; simp [byteAt]
    · simp only [hx, if_false, List.length_cons]
      by_cases hr : a + 1 ≤ x ∧ x < a + 1 + bs.length
      · rw [if_pos hr, if_pos (by omega)]
        obtain ⟨k, rfl⟩ : ∃ k, x = a + 1 + k := ⟨x - (a + 1), by omega⟩
        have h1 : a + 1 + k - (a + 1) = k := by omega
        have h2 : a + 1 + k - a = k + 1 := by omega
        simp [byteAt, h1, h2]
      · rw [if_neg hr, if_neg (by omega)]

/-- Bytes read are the bytes at their addresses. -/
theorem Memory.readBytes_getD (m : Memory) (a n i : Nat) :
    byteAt (m.readBytes a n) i = if i < n then m.read (a + i) else 0 := by
  induction n generalizing a i with
  | zero => simp [Memory.readBytes, byteAt]
  | succ n ih =>
    cases i with
    | zero => simp [Memory.readBytes, byteAt]
    | succ i =>
      have := ih (a + 1) i
      simp only [byteAt, Memory.readBytes, List.getD_cons_succ] at *
      rw [this, Nat.add_right_comm]
      simp [Nat.add_assoc]

@[simp] theorem Memory.readBytes_length (m : Memory) (a n : Nat) : (m.readBytes a n).length = n := by
  induction n generalizing a with
  | zero => rfl
  | succ n ih => simp [Memory.readBytes, ih]

/-- Two lists of one length with the same bytes are equal. -/
theorem eq_of_byteAt {xs ys : List Byte} (hl : xs.length = ys.length)
    (h : ∀ i, i < xs.length → byteAt xs i = byteAt ys i) : xs = ys := by
  apply List.ext_getElem hl
  intro i h1 h2
  have := h i h1
  simpa [byteAt, List.getD_eq_getElem?_getD, List.getElem?_eq_getElem h1, List.getElem?_eq_getElem h2]
    using this

/-- Bytes written are read back. -/
theorem Memory.readBytes_writeBytes {m : Memory} (h : m.wf = true) (a : Nat) (bs : List Byte) :
    (m.writeBytes a bs).readBytes a bs.length = bs := by
  refine eq_of_byteAt (by simp) fun i hi => ?_
  rw [Memory.readBytes_length] at hi
  rw [Memory.readBytes_getD, if_pos hi, Memory.read_writeBytes h, if_pos (by omega)]
  simp

/-- Bytes read apart from what was written are as before. -/
theorem Memory.readBytes_writeBytes_apart {m : Memory} (h : m.wf = true) (a : Nat) (bs : List Byte)
    (x n : Nat) (hx : x + n ≤ a ∨ a + bs.length ≤ x) :
    (m.writeBytes a bs).readBytes x n = m.readBytes x n := by
  refine eq_of_byteAt (by simp) fun i hi => ?_
  rw [Memory.readBytes_length] at hi
  rw [Memory.readBytes_getD, Memory.readBytes_getD, if_pos hi, if_pos hi, Memory.read_writeBytes h,
    if_neg (by omega)]

/-- What memory reads after a range is cleared. -/
theorem Memory.read_clearRange {m : Memory} (hm : m.wf = true) (lo hi x : Nat) :
    (m.clearRange lo hi).read x = if lo ≤ x ∧ x < hi then Memory.unlisted x else m.read x := by
  have h := ((Memory.wf_iff m).1 hm).1
  clear hm
  induction m with
  | nil => show Memory.unlisted x = _; split <;> rfl
  | cons c m ih =>
    rw [List.pairwise_cons] at h
    have ih := ih h.2
    have hb : ∀ l : Memory, (∀ d ∈ l, c.1 < d.1) → x ≤ c.1 → l.read x = Memory.unlisted x :=
      fun l hl hx => Memory.read_below fun d hd => Nat.lt_of_le_of_lt hx (hl d hd)
    have hf : ∀ d ∈ Memory.clearRange m lo hi, c.1 < d.1 := fun d hd =>
      h.1 d (List.mem_of_mem_filter hd)
    unfold Memory.clearRange at ih hf ⊢
    rw [List.filter_cons]
    split
    · rename_i hk
      simp only [Bool.or_eq_true, decide_eq_true_eq] at hk
      simp only [Memory.read]
      split
      · rw [if_neg (by omega)]
      · split
        · split <;> rfl
        · exact ih
    · rename_i hk
      simp only [Bool.or_eq_true, decide_eq_true_eq, not_or] at hk
      rw [ih]
      simp only [Memory.read]
      split
      · rfl
      · rw [if_neg (by omega)]
        split
        · exact hb m h.1 (by omega)
        · rfl

end Sys2Proof.Machine
end

