-- ==== Sys2Proof/Laws/State.lean ====
section
/-! SUPPORT. What each named update of a block does: it sets its own field and leaves every other one; and
two updates of one block are the later one. -/

namespace Sys2Proof.Machine

section Pending
variable (s : State) (x y : List Instr)
@[simp] theorem State.withPending_pending : (s.withPending x).pending = x := rfl
@[simp] theorem State.withPending_power : (s.withPending x).power = s.power := rfl
@[simp] theorem State.withPending_mem : (s.withPending x).mem = s.mem := rfl
@[simp] theorem State.withPending_ports : (s.withPending x).ports = s.ports := rfl
@[simp] theorem State.withPending_matching : (s.withPending x).matching = s.matching := rfl
@[simp] theorem State.withPending_store : (s.withPending x).store = s.store := rfl
@[simp] theorem State.withPending_directory : (s.withPending x).directory = s.directory := rfl
@[simp] theorem State.withPending_tamper : (s.withPending x).tamper = s.tamper := rfl
@[simp] theorem State.withPending_segments : (s.withPending x).segments = s.segments := rfl
@[simp] theorem State.withPending_route : (s.withPending x).route = s.route := rfl
@[simp] theorem State.withPending_assessment : (s.withPending x).assessment = s.assessment := rfl
@[simp] theorem State.withPending_depot : (s.withPending x).depot = s.depot := rfl
@[simp] theorem State.withPending_command : (s.withPending x).command = s.command := rfl
@[simp] theorem State.withPending_events : (s.withPending x).events = s.events := rfl
@[simp] theorem State.withPending_draws : (s.withPending x).draws = s.draws := rfl
@[simp] theorem State.withPending_twice : (s.withPending x).withPending y = s.withPending y := rfl
end Pending

section Power
variable (s : State) (x y : Power)
@[simp] theorem State.withPower_pending : (s.withPower x).pending = s.pending := rfl
@[simp] theorem State.withPower_power : (s.withPower x).power = x := rfl
@[simp] theorem State.withPower_mem : (s.withPower x).mem = s.mem := rfl
@[simp] theorem State.withPower_ports : (s.withPower x).ports = s.ports := rfl
@[simp] theorem State.withPower_matching : (s.withPower x).matching = s.matching := rfl
@[simp] theorem State.withPower_store : (s.withPower x).store = s.store := rfl
@[simp] theorem State.withPower_directory : (s.withPower x).directory = s.directory := rfl
@[simp] theorem State.withPower_tamper : (s.withPower x).tamper = s.tamper := rfl
@[simp] theorem State.withPower_segments : (s.withPower x).segments = s.segments := rfl
@[simp] theorem State.withPower_route : (s.withPower x).route = s.route := rfl
@[simp] theorem State.withPower_assessment : (s.withPower x).assessment = s.assessment := rfl
@[simp] theorem State.withPower_depot : (s.withPower x).depot = s.depot := rfl
@[simp] theorem State.withPower_command : (s.withPower x).command = s.command := rfl
@[simp] theorem State.withPower_events : (s.withPower x).events = s.events := rfl
@[simp] theorem State.withPower_draws : (s.withPower x).draws = s.draws := rfl
@[simp] theorem State.withPower_twice : (s.withPower x).withPower y = s.withPower y := rfl
end Power

section Mem
variable (s : State) (x y : Memory)
@[simp] theorem State.withMem_pending : (s.withMem x).pending = s.pending := rfl
@[simp] theorem State.withMem_power : (s.withMem x).power = s.power := rfl
@[simp] theorem State.withMem_mem : (s.withMem x).mem = x := rfl
@[simp] theorem State.withMem_ports : (s.withMem x).ports = s.ports := rfl
@[simp] theorem State.withMem_matching : (s.withMem x).matching = s.matching := rfl
@[simp] theorem State.withMem_store : (s.withMem x).store = s.store := rfl
@[simp] theorem State.withMem_directory : (s.withMem x).directory = s.directory := rfl
@[simp] theorem State.withMem_tamper : (s.withMem x).tamper = s.tamper := rfl
@[simp] theorem State.withMem_segments : (s.withMem x).segments = s.segments := rfl
@[simp] theorem State.withMem_route : (s.withMem x).route = s.route := rfl
@[simp] theorem State.withMem_assessment : (s.withMem x).assessment = s.assessment := rfl
@[simp] theorem State.withMem_depot : (s.withMem x).depot = s.depot := rfl
@[simp] theorem State.withMem_command : (s.withMem x).command = s.command := rfl
@[simp] theorem State.withMem_events : (s.withMem x).events = s.events := rfl
@[simp] theorem State.withMem_draws : (s.withMem x).draws = s.draws := rfl
@[simp] theorem State.withMem_twice : (s.withMem x).withMem y = s.withMem y := rfl
end Mem

section Ports
variable (s : State) (x y : Vector Port 4)
@[simp] theorem State.withPorts_pending : (s.withPorts x).pending = s.pending := rfl
@[simp] theorem State.withPorts_power : (s.withPorts x).power = s.power := rfl
@[simp] theorem State.withPorts_mem : (s.withPorts x).mem = s.mem := rfl
@[simp] theorem State.withPorts_ports : (s.withPorts x).ports = x := rfl
@[simp] theorem State.withPorts_matching : (s.withPorts x).matching = s.matching := rfl
@[simp] theorem State.withPorts_store : (s.withPorts x).store = s.store := rfl
@[simp] theorem State.withPorts_directory : (s.withPorts x).directory = s.directory := rfl
@[simp] theorem State.withPorts_tamper : (s.withPorts x).tamper = s.tamper := rfl
@[simp] theorem State.withPorts_segments : (s.withPorts x).segments = s.segments := rfl
@[simp] theorem State.withPorts_route : (s.withPorts x).route = s.route := rfl
@[simp] theorem State.withPorts_assessment : (s.withPorts x).assessment = s.assessment := rfl
@[simp] theorem State.withPorts_depot : (s.withPorts x).depot = s.depot := rfl
@[simp] theorem State.withPorts_command : (s.withPorts x).command = s.command := rfl
@[simp] theorem State.withPorts_events : (s.withPorts x).events = s.events := rfl
@[simp] theorem State.withPorts_draws : (s.withPorts x).draws = s.draws := rfl
@[simp] theorem State.withPorts_twice : (s.withPorts x).withPorts y = s.withPorts y := rfl
end Ports

section Matching
variable (s : State) (x y : Matching)
@[simp] theorem State.withMatching_pending : (s.withMatching x).pending = s.pending := rfl
@[simp] theorem State.withMatching_power : (s.withMatching x).power = s.power := rfl
@[simp] theorem State.withMatching_mem : (s.withMatching x).mem = s.mem := rfl
@[simp] theorem State.withMatching_ports : (s.withMatching x).ports = s.ports := rfl
@[simp] theorem State.withMatching_matching : (s.withMatching x).matching = x := rfl
@[simp] theorem State.withMatching_store : (s.withMatching x).store = s.store := rfl
@[simp] theorem State.withMatching_directory : (s.withMatching x).directory = s.directory := rfl
@[simp] theorem State.withMatching_tamper : (s.withMatching x).tamper = s.tamper := rfl
@[simp] theorem State.withMatching_segments : (s.withMatching x).segments = s.segments := rfl
@[simp] theorem State.withMatching_route : (s.withMatching x).route = s.route := rfl
@[simp] theorem State.withMatching_assessment : (s.withMatching x).assessment = s.assessment := rfl
@[simp] theorem State.withMatching_depot : (s.withMatching x).depot = s.depot := rfl
@[simp] theorem State.withMatching_command : (s.withMatching x).command = s.command := rfl
@[simp] theorem State.withMatching_events : (s.withMatching x).events = s.events := rfl
@[simp] theorem State.withMatching_draws : (s.withMatching x).draws = s.draws := rfl
@[simp] theorem State.withMatching_twice : (s.withMatching x).withMatching y = s.withMatching y := rfl
end Matching

section Store
variable (s : State) (x y : Store)
@[simp] theorem State.withStore_pending : (s.withStore x).pending = s.pending := rfl
@[simp] theorem State.withStore_power : (s.withStore x).power = s.power := rfl
@[simp] theorem State.withStore_mem : (s.withStore x).mem = s.mem := rfl
@[simp] theorem State.withStore_ports : (s.withStore x).ports = s.ports := rfl
@[simp] theorem State.withStore_matching : (s.withStore x).matching = s.matching := rfl
@[simp] theorem State.withStore_store : (s.withStore x).store = x := rfl
@[simp] theorem State.withStore_directory : (s.withStore x).directory = s.directory := rfl
@[simp] theorem State.withStore_tamper : (s.withStore x).tamper = s.tamper := rfl
@[simp] theorem State.withStore_segments : (s.withStore x).segments = s.segments := rfl
@[simp] theorem State.withStore_route : (s.withStore x).route = s.route := rfl
@[simp] theorem State.withStore_assessment : (s.withStore x).assessment = s.assessment := rfl
@[simp] theorem State.withStore_depot : (s.withStore x).depot = s.depot := rfl
@[simp] theorem State.withStore_command : (s.withStore x).command = s.command := rfl
@[simp] theorem State.withStore_events : (s.withStore x).events = s.events := rfl
@[simp] theorem State.withStore_draws : (s.withStore x).draws = s.draws := rfl
@[simp] theorem State.withStore_twice : (s.withStore x).withStore y = s.withStore y := rfl
end Store

section Directory
variable (s : State) (x y : Directory)
@[simp] theorem State.withDirectory_pending : (s.withDirectory x).pending = s.pending := rfl
@[simp] theorem State.withDirectory_power : (s.withDirectory x).power = s.power := rfl
@[simp] theorem State.withDirectory_mem : (s.withDirectory x).mem = s.mem := rfl
@[simp] theorem State.withDirectory_ports : (s.withDirectory x).ports = s.ports := rfl
@[simp] theorem State.withDirectory_matching : (s.withDirectory x).matching = s.matching := rfl
@[simp] theorem State.withDirectory_store : (s.withDirectory x).store = s.store := rfl
@[simp] theorem State.withDirectory_directory : (s.withDirectory x).directory = x := rfl
@[simp] theorem State.withDirectory_tamper : (s.withDirectory x).tamper = s.tamper := rfl
@[simp] theorem State.withDirectory_segments : (s.withDirectory x).segments = s.segments := rfl
@[simp] theorem State.withDirectory_route : (s.withDirectory x).route = s.route := rfl
@[simp] theorem State.withDirectory_assessment : (s.withDirectory x).assessment = s.assessment := rfl
@[simp] theorem State.withDirectory_depot : (s.withDirectory x).depot = s.depot := rfl
@[simp] theorem State.withDirectory_command : (s.withDirectory x).command = s.command := rfl
@[simp] theorem State.withDirectory_events : (s.withDirectory x).events = s.events := rfl
@[simp] theorem State.withDirectory_draws : (s.withDirectory x).draws = s.draws := rfl
@[simp] theorem State.withDirectory_twice : (s.withDirectory x).withDirectory y = s.withDirectory y := rfl
end Directory

section Tamper
variable (s : State) (x y : Tamper)
@[simp] theorem State.withTamper_pending : (s.withTamper x).pending = s.pending := rfl
@[simp] theorem State.withTamper_power : (s.withTamper x).power = s.power := rfl
@[simp] theorem State.withTamper_mem : (s.withTamper x).mem = s.mem := rfl
@[simp] theorem State.withTamper_ports : (s.withTamper x).ports = s.ports := rfl
@[simp] theorem State.withTamper_matching : (s.withTamper x).matching = s.matching := rfl
@[simp] theorem State.withTamper_store : (s.withTamper x).store = s.store := rfl
@[simp] theorem State.withTamper_directory : (s.withTamper x).directory = s.directory := rfl
@[simp] theorem State.withTamper_tamper : (s.withTamper x).tamper = x := rfl
@[simp] theorem State.withTamper_segments : (s.withTamper x).segments = s.segments := rfl
@[simp] theorem State.withTamper_route : (s.withTamper x).route = s.route := rfl
@[simp] theorem State.withTamper_assessment : (s.withTamper x).assessment = s.assessment := rfl
@[simp] theorem State.withTamper_depot : (s.withTamper x).depot = s.depot := rfl
@[simp] theorem State.withTamper_command : (s.withTamper x).command = s.command := rfl
@[simp] theorem State.withTamper_events : (s.withTamper x).events = s.events := rfl
@[simp] theorem State.withTamper_draws : (s.withTamper x).draws = s.draws := rfl
@[simp] theorem State.withTamper_twice : (s.withTamper x).withTamper y = s.withTamper y := rfl
end Tamper

section Segments
variable (s : State) (x y : Segments)
@[simp] theorem State.withSegments_pending : (s.withSegments x).pending = s.pending := rfl
@[simp] theorem State.withSegments_power : (s.withSegments x).power = s.power := rfl
@[simp] theorem State.withSegments_mem : (s.withSegments x).mem = s.mem := rfl
@[simp] theorem State.withSegments_ports : (s.withSegments x).ports = s.ports := rfl
@[simp] theorem State.withSegments_matching : (s.withSegments x).matching = s.matching := rfl
@[simp] theorem State.withSegments_store : (s.withSegments x).store = s.store := rfl
@[simp] theorem State.withSegments_directory : (s.withSegments x).directory = s.directory := rfl
@[simp] theorem State.withSegments_tamper : (s.withSegments x).tamper = s.tamper := rfl
@[simp] theorem State.withSegments_segments : (s.withSegments x).segments = x := rfl
@[simp] theorem State.withSegments_route : (s.withSegments x).route = s.route := rfl
@[simp] theorem State.withSegments_assessment : (s.withSegments x).assessment = s.assessment := rfl
@[simp] theorem State.withSegments_depot : (s.withSegments x).depot = s.depot := rfl
@[simp] theorem State.withSegments_command : (s.withSegments x).command = s.command := rfl
@[simp] theorem State.withSegments_events : (s.withSegments x).events = s.events := rfl
@[simp] theorem State.withSegments_draws : (s.withSegments x).draws = s.draws := rfl
@[simp] theorem State.withSegments_twice : (s.withSegments x).withSegments y = s.withSegments y := rfl
end Segments

section Route
variable (s : State) (x y : Route)
@[simp] theorem State.withRoute_pending : (s.withRoute x).pending = s.pending := rfl
@[simp] theorem State.withRoute_power : (s.withRoute x).power = s.power := rfl
@[simp] theorem State.withRoute_mem : (s.withRoute x).mem = s.mem := rfl
@[simp] theorem State.withRoute_ports : (s.withRoute x).ports = s.ports := rfl
@[simp] theorem State.withRoute_matching : (s.withRoute x).matching = s.matching := rfl
@[simp] theorem State.withRoute_store : (s.withRoute x).store = s.store := rfl
@[simp] theorem State.withRoute_directory : (s.withRoute x).directory = s.directory := rfl
@[simp] theorem State.withRoute_tamper : (s.withRoute x).tamper = s.tamper := rfl
@[simp] theorem State.withRoute_segments : (s.withRoute x).segments = s.segments := rfl
@[simp] theorem State.withRoute_route : (s.withRoute x).route = x := rfl
@[simp] theorem State.withRoute_assessment : (s.withRoute x).assessment = s.assessment := rfl
@[simp] theorem State.withRoute_depot : (s.withRoute x).depot = s.depot := rfl
@[simp] theorem State.withRoute_command : (s.withRoute x).command = s.command := rfl
@[simp] theorem State.withRoute_events : (s.withRoute x).events = s.events := rfl
@[simp] theorem State.withRoute_draws : (s.withRoute x).draws = s.draws := rfl
@[simp] theorem State.withRoute_twice : (s.withRoute x).withRoute y = s.withRoute y := rfl
end Route

section Assessment
variable (s : State) (x y : Option Assessment)
@[simp] theorem State.withAssessment_pending : (s.withAssessment x).pending = s.pending := rfl
@[simp] theorem State.withAssessment_power : (s.withAssessment x).power = s.power := rfl
@[simp] theorem State.withAssessment_mem : (s.withAssessment x).mem = s.mem := rfl
@[simp] theorem State.withAssessment_ports : (s.withAssessment x).ports = s.ports := rfl
@[simp] theorem State.withAssessment_matching : (s.withAssessment x).matching = s.matching := rfl
@[simp] theorem State.withAssessment_store : (s.withAssessment x).store = s.store := rfl
@[simp] theorem State.withAssessment_directory : (s.withAssessment x).directory = s.directory := rfl
@[simp] theorem State.withAssessment_tamper : (s.withAssessment x).tamper = s.tamper := rfl
@[simp] theorem State.withAssessment_segments : (s.withAssessment x).segments = s.segments := rfl
@[simp] theorem State.withAssessment_route : (s.withAssessment x).route = s.route := rfl
@[simp] theorem State.withAssessment_assessment : (s.withAssessment x).assessment = x := rfl
@[simp] theorem State.withAssessment_depot : (s.withAssessment x).depot = s.depot := rfl
@[simp] theorem State.withAssessment_command : (s.withAssessment x).command = s.command := rfl
@[simp] theorem State.withAssessment_events : (s.withAssessment x).events = s.events := rfl
@[simp] theorem State.withAssessment_draws : (s.withAssessment x).draws = s.draws := rfl
@[simp] theorem State.withAssessment_twice : (s.withAssessment x).withAssessment y = s.withAssessment y := rfl
end Assessment

section Depot
variable (s : State) (x y : Depot)
@[simp] theorem State.withDepot_pending : (s.withDepot x).pending = s.pending := rfl
@[simp] theorem State.withDepot_power : (s.withDepot x).power = s.power := rfl
@[simp] theorem State.withDepot_mem : (s.withDepot x).mem = s.mem := rfl
@[simp] theorem State.withDepot_ports : (s.withDepot x).ports = s.ports := rfl
@[simp] theorem State.withDepot_matching : (s.withDepot x).matching = s.matching := rfl
@[simp] theorem State.withDepot_store : (s.withDepot x).store = s.store := rfl
@[simp] theorem State.withDepot_directory : (s.withDepot x).directory = s.directory := rfl
@[simp] theorem State.withDepot_tamper : (s.withDepot x).tamper = s.tamper := rfl
@[simp] theorem State.withDepot_segments : (s.withDepot x).segments = s.segments := rfl
@[simp] theorem State.withDepot_route : (s.withDepot x).route = s.route := rfl
@[simp] theorem State.withDepot_assessment : (s.withDepot x).assessment = s.assessment := rfl
@[simp] theorem State.withDepot_depot : (s.withDepot x).depot = x := rfl
@[simp] theorem State.withDepot_command : (s.withDepot x).command = s.command := rfl
@[simp] theorem State.withDepot_events : (s.withDepot x).events = s.events := rfl
@[simp] theorem State.withDepot_draws : (s.withDepot x).draws = s.draws := rfl
@[simp] theorem State.withDepot_twice : (s.withDepot x).withDepot y = s.withDepot y := rfl
end Depot

section Command
variable (s : State) (x y : Command)
@[simp] theorem State.withCommand_pending : (s.withCommand x).pending = s.pending := rfl
@[simp] theorem State.withCommand_power : (s.withCommand x).power = s.power := rfl
@[simp] theorem State.withCommand_mem : (s.withCommand x).mem = s.mem := rfl
@[simp] theorem State.withCommand_ports : (s.withCommand x).ports = s.ports := rfl
@[simp] theorem State.withCommand_matching : (s.withCommand x).matching = s.matching := rfl
@[simp] theorem State.withCommand_store : (s.withCommand x).store = s.store := rfl
@[simp] theorem State.withCommand_directory : (s.withCommand x).directory = s.directory := rfl
@[simp] theorem State.withCommand_tamper : (s.withCommand x).tamper = s.tamper := rfl
@[simp] theorem State.withCommand_segments : (s.withCommand x).segments = s.segments := rfl
@[simp] theorem State.withCommand_route : (s.withCommand x).route = s.route := rfl
@[simp] theorem State.withCommand_assessment : (s.withCommand x).assessment = s.assessment := rfl
@[simp] theorem State.withCommand_depot : (s.withCommand x).depot = s.depot := rfl
@[simp] theorem State.withCommand_command : (s.withCommand x).command = x := rfl
@[simp] theorem State.withCommand_events : (s.withCommand x).events = s.events := rfl
@[simp] theorem State.withCommand_draws : (s.withCommand x).draws = s.draws := rfl
@[simp] theorem State.withCommand_twice : (s.withCommand x).withCommand y = s.withCommand y := rfl
end Command

section Events
variable (s : State) (x y : Events)
@[simp] theorem State.withEvents_pending : (s.withEvents x).pending = s.pending := rfl
@[simp] theorem State.withEvents_power : (s.withEvents x).power = s.power := rfl
@[simp] theorem State.withEvents_mem : (s.withEvents x).mem = s.mem := rfl
@[simp] theorem State.withEvents_ports : (s.withEvents x).ports = s.ports := rfl
@[simp] theorem State.withEvents_matching : (s.withEvents x).matching = s.matching := rfl
@[simp] theorem State.withEvents_store : (s.withEvents x).store = s.store := rfl
@[simp] theorem State.withEvents_directory : (s.withEvents x).directory = s.directory := rfl
@[simp] theorem State.withEvents_tamper : (s.withEvents x).tamper = s.tamper := rfl
@[simp] theorem State.withEvents_segments : (s.withEvents x).segments = s.segments := rfl
@[simp] theorem State.withEvents_route : (s.withEvents x).route = s.route := rfl
@[simp] theorem State.withEvents_assessment : (s.withEvents x).assessment = s.assessment := rfl
@[simp] theorem State.withEvents_depot : (s.withEvents x).depot = s.depot := rfl
@[simp] theorem State.withEvents_command : (s.withEvents x).command = s.command := rfl
@[simp] theorem State.withEvents_events : (s.withEvents x).events = x := rfl
@[simp] theorem State.withEvents_draws : (s.withEvents x).draws = s.draws := rfl
@[simp] theorem State.withEvents_twice : (s.withEvents x).withEvents y = s.withEvents y := rfl
end Events

section Draws
variable (s : State) (x y : Nat)
@[simp] theorem State.withDraws_pending : (s.withDraws x).pending = s.pending := rfl
@[simp] theorem State.withDraws_power : (s.withDraws x).power = s.power := rfl
@[simp] theorem State.withDraws_mem : (s.withDraws x).mem = s.mem := rfl
@[simp] theorem State.withDraws_ports : (s.withDraws x).ports = s.ports := rfl
@[simp] theorem State.withDraws_matching : (s.withDraws x).matching = s.matching := rfl
@[simp] theorem State.withDraws_store : (s.withDraws x).store = s.store := rfl
@[simp] theorem State.withDraws_directory : (s.withDraws x).directory = s.directory := rfl
@[simp] theorem State.withDraws_tamper : (s.withDraws x).tamper = s.tamper := rfl
@[simp] theorem State.withDraws_segments : (s.withDraws x).segments = s.segments := rfl
@[simp] theorem State.withDraws_route : (s.withDraws x).route = s.route := rfl
@[simp] theorem State.withDraws_assessment : (s.withDraws x).assessment = s.assessment := rfl
@[simp] theorem State.withDraws_depot : (s.withDraws x).depot = s.depot := rfl
@[simp] theorem State.withDraws_command : (s.withDraws x).command = s.command := rfl
@[simp] theorem State.withDraws_events : (s.withDraws x).events = s.events := rfl
@[simp] theorem State.withDraws_draws : (s.withDraws x).draws = x := rfl
@[simp] theorem State.withDraws_twice : (s.withDraws x).withDraws y = s.withDraws y := rfl
end Draws

end Sys2Proof.Machine
end

