-- ==== Sys2Proof/Laws/Basics.lean ====
section
/-! SUPPORT. Rising lists, the slot directory and the lowest free number: what the directory's and the free
map's operations do, and that they keep the lists rising. -/

namespace Sys2Proof.Machine

/-! ### The directory -/

/-- The slots a directory lists after one is occupied: those of before and that one. -/
theorem Directory.mem_set {d : Directory} {n k : Nat} {x : DirEntry} :
    k ∈ (d.set n x).map (·.1) ↔ k = n ∨ k ∈ d.map (·.1) := by
  induction d with
  | nil => simp [Directory.set]
  | cons c d ih =>
    obtain ⟨a, e⟩ := c
    rw [Directory.set]
    split_ifs <;> grind

/-- Occupying a slot keeps the directory rising. -/
theorem Directory.rising_set {d : Directory} (h : Rising (d.map (·.1))) (n : Nat) (x : DirEntry) :
    Rising ((d.set n x).map (·.1)) := by
  unfold Rising at *
  induction d with
  | nil => simp [Directory.set]
  | cons c d ih =>
    obtain ⟨a, e⟩ := c
    rw [List.map_cons, List.pairwise_cons] at h
    rw [Directory.set]
    split_ifs with h1 h2
    · subst h1; simpa using h
    · rw [List.map_cons, List.pairwise_cons, List.map_cons, List.pairwise_cons]
      refine ⟨?_, h⟩
      intro k hk
      rcases List.mem_cons.1 hk with rfl | hk
      · exact h2
      · exact Nat.lt_trans h2 (h.1 k hk)
    · rw [List.map_cons, List.pairwise_cons]
      refine ⟨fun k hk => ?_, ih h.2⟩
      rcases Directory.mem_set.1 hk with rfl | hk
      · show a < k; omega
      · exact h.1 k hk

/-- A slot's entry after one is occupied. -/
theorem Directory.get_set {d : Directory} (h : Rising (d.map (·.1))) (n k : Nat) (x : DirEntry) :
    (d.set n x).get k = if k = n then some x else d.get k := by
  unfold Rising at *
  induction d with
  | nil =>
    by_cases hk : k = n
    · simp [Directory.set, Directory.get, hk]
    · simp [Directory.set, Directory.get, hk, Ne.symm hk]
  | cons c d ih =>
    obtain ⟨a, e⟩ := c
    rw [List.map_cons, List.pairwise_cons] at h
    have ih := ih h.2
    rw [Directory.set]
    split_ifs <;> grind [Directory.get]

/-- An entry is listed for the slots that have one. -/
theorem Directory.get_isSome {d : Directory} (h : Rising (d.map (·.1))) (n : Nat) :
    (d.get n).isSome = true ↔ n ∈ d.map (·.1) := by
  unfold Rising at *
  induction d with
  | nil => simp [Directory.get]
  | cons c d ih =>
    obtain ⟨a, e⟩ := c
    rw [List.map_cons, List.pairwise_cons] at h
    have ih := ih h.2
    rw [Directory.get, List.map_cons, List.mem_cons]
    split_ifs with h1 h2
    · simp [h1]
    · simp only [Option.isSome_none, Bool.false_eq_true, false_iff, not_or]
      exact ⟨fun h => h1 h.symm, fun hn => absurd (h.1 n hn) (by show ¬ a < n; omega)⟩
    · rw [ih]; simp [Ne.symm h1]

/-- Freeing a slot keeps the directory rising. -/
theorem Directory.rising_free {d : Directory} (h : Rising (d.map (·.1))) (n : Nat) :
    Rising ((d.free n).map (·.1)) := by
  unfold Rising Directory.free at *
  rw [List.pairwise_map] at *
  exact h.filter _

/-- An entry that a slot has after one is freed it had before. -/
theorem Directory.get_free {d : Directory} (h : Rising (d.map (·.1))) {n k : Nat} {x : DirEntry}
    (hx : (d.free n).get k = some x) : d.get k = some x := by
  unfold Rising Directory.free at *
  induction d with
  | nil => simp [Directory.get] at hx
  | cons c d ih =>
    obtain ⟨a, e⟩ := c
    rw [List.map_cons, List.pairwise_cons] at h
    have ih := ih h.2
    have hf : ∀ k ∈ (d.filter fun e => e.1 != n).map (·.1), a < k := fun k hk => by
      obtain ⟨y, hy, rfl⟩ := List.mem_map.1 hk
      exact h.1 _ (List.mem_map_of_mem (List.mem_of_mem_filter hy))
    have key : ∀ d : Directory, (∀ k ∈ d.map (·.1), a < k) → ∀ k, k ≤ a → d.get k = none := by
      intro d hd k hk
      cases d with
      | nil => rfl
      | cons c d =>
        obtain ⟨b, y⟩ := c
        have := hd b (by simp)
        rw [Directory.get, if_neg (by omega), if_pos (by omega)]
    rw [List.filter_cons] at hx
    split_ifs at hx with ha
    · rw [Directory.get] at hx ⊢
      split_ifs at hx ⊢ with h1 h2
      · exact hx
      · exact ih hx
    · rw [Directory.get]
      by_cases hk : k ≤ a
      · rw [key _ hf k hk] at hx; cases hx
      · rw [if_neg (by omega), if_neg (by omega)]; exact ih hx

/-- The slots a directory lists after one is freed. -/
theorem Directory.mem_free {d : Directory} {n k : Nat} :
    k ∈ (d.free n).map (·.1) ↔ k ≠ n ∧ k ∈ d.map (·.1) := by
  simp [Directory.free]; grind

/-! ### The lowest free number (R9, R38) -/

/-- The lowest absent number lies at most as far on as the list is long. -/
theorem firstAbsent_le (l : List Nat) (n : Nat) : firstAbsent l n ≤ n + l.length := by
  induction l generalizing n with
  | nil => simp [firstAbsent]
  | cons k ks ih =>
    rw [firstAbsent]
    have := ih n
    have := ih (n + 1)
    split_ifs <;> simp <;> omega

/-- In a rising list, the lowest absent number is absent, and every number from the start up to it is
present. -/
theorem firstAbsent_spec (l : List Nat) (h : Rising l) (n : Nat) :
    n ≤ firstAbsent l n ∧ firstAbsent l n ∉ l ∧ ∀ k, n ≤ k → k < firstAbsent l n → k ∈ l := by
  unfold Rising at h
  induction l generalizing n with
  | nil => simp [firstAbsent]
  | cons a l ih =>
    rw [List.pairwise_cons] at h
    have i1 := ih h.2 (n + 1)
    have i0 := ih h.2 n
    rw [firstAbsent]
    split_ifs with h1 h2
    · subst h1
      refine ⟨by omega, ?_, fun k hk hlt => ?_⟩
      · simp only [List.mem_cons, not_or]
        exact ⟨by omega, i1.2.1⟩
      · by_cases hka : k = a
        · simp [hka]
        · exact List.mem_cons_of_mem _ (i1.2.2 k (by omega) hlt)
    · refine ⟨i0.1, ?_, fun k hk hlt => List.mem_cons_of_mem _ (i0.2.2 k hk hlt)⟩
      simp only [List.mem_cons, not_or]
      exact ⟨by omega, i0.2.1⟩
    · refine ⟨Nat.le_refl _, ?_, fun k hk hlt => absurd hlt (by omega)⟩
      simp only [List.mem_cons, not_or]
      exact ⟨fun h => h1 h.symm, fun hn => absurd (h.1 n hn) (by omega)⟩

/-! ### Rising lists -/

theorem mem_insertRising {n k : Nat} {l : List Nat} : k ∈ insertRising n l ↔ k = n ∨ k ∈ l := by
  induction l with
  | nil => simp [insertRising]
  | cons a l ih =>
    rw [insertRising]
    split_ifs <;> grind

theorem rising_insertRising {l : List Nat} (h : Rising l) (n : Nat) : Rising (insertRising n l) := by
  unfold Rising at *
  induction l with
  | nil => simp [insertRising]
  | cons a l ih =>
    have h' := List.pairwise_cons.1 h
    rw [insertRising]
    split_ifs with h1 h2
    · refine List.pairwise_cons.2 ⟨fun k hk => ?_, h⟩
      rcases List.mem_cons.1 hk with rfl | hk
      · exact h1
      · exact Nat.lt_trans h1 (h'.1 k hk)
    · exact h
    · refine List.pairwise_cons.2 ⟨fun k hk => ?_, ih h'.2⟩
      rcases mem_insertRising.1 hk with rfl | hk
      · omega
      · exact h'.1 k hk

theorem rising_filter {l : List Nat} (h : Rising l) (p : Nat → Bool) : Rising (l.filter p) :=
  List.Pairwise.filter p h

end Sys2Proof.Machine
end

