-- ==== Sys2Proof/Laws/Ok.lean ====
section
/-! SUPPORT. The shared operations of Ops.lean keep the bounds and orders of `State.Ok`. -/

namespace Sys2Proof.Machine

variable {s : State}

/-- Both branches of a choice. -/
theorem State.ok_ite {c : Prop} [Decidable c] {a b : State} (ha : a.Ok) (hb : b.Ok) :
    (if c then a else b).Ok := by split_ifs <;> assumption

/-! ### Updates of one block -/

theorem State.Ok.withPending (h : s.Ok) (x : List Instr) : (s.withPending x).Ok :=
  ⟨h.mem, h.ports, h.matching, h.store, h.directory, h.tamper, h.segments, h.depot, h.command⟩
theorem State.Ok.withPower (h : s.Ok) (x : Power) : (s.withPower x).Ok :=
  ⟨h.mem, h.ports, h.matching, h.store, h.directory, h.tamper, h.segments, h.depot, h.command⟩
theorem State.Ok.withRoute (h : s.Ok) (x : Route) : (s.withRoute x).Ok :=
  ⟨h.mem, h.ports, h.matching, h.store, h.directory, h.tamper, h.segments, h.depot, h.command⟩
theorem State.Ok.withAssessment (h : s.Ok) (x : Option Assessment) : (s.withAssessment x).Ok :=
  ⟨h.mem, h.ports, h.matching, h.store, h.directory, h.tamper, h.segments, h.depot, h.command⟩
theorem State.Ok.withEvents (h : s.Ok) (x : Events) : (s.withEvents x).Ok :=
  ⟨h.mem, h.ports, h.matching, h.store, h.directory, h.tamper, h.segments, h.depot, h.command⟩
theorem State.Ok.withDraws (h : s.Ok) (x : Nat) : (s.withDraws x).Ok :=
  ⟨h.mem, h.ports, h.matching, h.store, h.directory, h.tamper, h.segments, h.depot, h.command⟩
theorem State.Ok.withMem (h : s.Ok) {x : Memory} (hx : x.wf = true) : (s.withMem x).Ok :=
  ⟨hx, h.ports, h.matching, h.store, h.directory, h.tamper, h.segments, h.depot, h.command⟩
theorem State.Ok.withPorts (h : s.Ok) {x : Vector Port 4} (hx : PortsOk x) : (s.withPorts x).Ok :=
  ⟨h.mem, hx, h.matching, h.store, h.directory, h.tamper, h.segments, h.depot, h.command⟩
theorem State.Ok.withMatching (h : s.Ok) {x : Matching} (hx : MatchingOk x) : (s.withMatching x).Ok :=
  ⟨h.mem, h.ports, hx, h.store, h.directory, h.tamper, h.segments, h.depot, h.command⟩
theorem State.Ok.withStore (h : s.Ok) {x : Store} (hx : StoreOk x) : (s.withStore x).Ok :=
  ⟨h.mem, h.ports, h.matching, hx, h.directory, h.tamper, h.segments, h.depot, h.command⟩
theorem State.Ok.withDirectory (h : s.Ok) {x : Directory} (hx : DirectoryOk x) :
    (s.withDirectory x).Ok :=
  ⟨h.mem, h.ports, h.matching, h.store, hx, h.tamper, h.segments, h.depot, h.command⟩
theorem State.Ok.withTamper (h : s.Ok) {x : Tamper} (hx : TamperOk x) : (s.withTamper x).Ok :=
  ⟨h.mem, h.ports, h.matching, h.store, h.directory, hx, h.segments, h.depot, h.command⟩
theorem State.Ok.withSegments (h : s.Ok) {x : Segments} (hx : SegmentsOk x) : (s.withSegments x).Ok :=
  ⟨h.mem, h.ports, h.matching, h.store, h.directory, h.tamper, hx, h.depot, h.command⟩
theorem State.Ok.withDepot (h : s.Ok) {x : Depot} (hx : DepotOk x) : (s.withDepot x).Ok :=
  ⟨h.mem, h.ports, h.matching, h.store, h.directory, h.tamper, h.segments, hx, h.command⟩
theorem State.Ok.withCommand (h : s.Ok) {x : Command} (hx : CommandOk x) : (s.withCommand x).Ok :=
  ⟨h.mem, h.ports, h.matching, h.store, h.directory, h.tamper, h.segments, h.depot, hx⟩

theorem State.Ok.raise (h : s.Ok) (e : Event) : (s.raise e).Ok := h.withEvents _

/-! ### The route area -/

theorem State.Ok.writeCheckpoint (h : s.Ok) : s.writeCheckpoint.Ok :=
  (h.withMem (Memory.wf_writeItem h.mem _ _)).withRoute _

theorem State.Ok.setClock (h : s.Ok) (v : Word) : (s.setClock v).Ok := (h.withRoute _).writeCheckpoint

theorem State.Ok.writeStateBlock (h : s.Ok) : s.writeStateBlock.Ok :=
  h.withMem (Memory.wf_writeItem h.mem _ _)

theorem State.Ok.enterRouteState (h : s.Ok) (x : RouteState) : (s.enterRouteState x).Ok :=
  (h.withRoute _).writeStateBlock

/-! ### Segments -/

theorem SegmentsOk.set {x : Segments} (h : SegmentsOk x) (n : Seg) {e : Segment} (he : e.redrive ≤ 7) :
    SegmentsOk { x with entries := x.entries.set n.val e } := by
  refine ⟨fun k => ?_, h.plan⟩
  have hk := h.redrives k
  simp only [Vector.get_eq_getElem] at *
  rw [Vector.getElem_set]
  split_ifs <;> assumption

theorem State.Ok.putSegment (h : s.Ok) (n : Seg) {e : Segment} (he : e.redrive ≤ 7) :
    (s.putSegment n e).Ok := by
  have h' := h.withSegments (h.segments.set n he)
  unfold State.putSegment
  split_ifs
  · exact h'
  · exact h'.withMem (Memory.wf_writeItem h.mem _ _)

theorem State.Ok.putPlan (h : s.Ok) {plan : List Seg} (hp : plan.Nodup) : (s.putPlan plan).Ok := by
  unfold State.putPlan
  split_ifs
  · exact h
  · exact (h.withSegments (x := { s.segments with plan := plan }) ⟨h.segments.redrives, hp⟩).withMem
      (Memory.wf_writeItem h.mem _ _)

theorem not_mem_planWithout (plan : List Seg) (n : Seg) : n ∉ planWithout plan n := by
  simp [planWithout]

/-- The plan without a segment has none twice. -/
theorem State.Ok.nodup_without (h : s.Ok) (n : Seg) : (planWithout s.segments.plan n).Nodup :=
  h.segments.plan.filter _

/-- The plan with a segment at its tail, or at a position, has none twice. -/
theorem State.Ok.nodup_append (h : s.Ok) (n : Seg) :
    (planWithout s.segments.plan n ++ [n]).Nodup := by
  simp only [List.nodup_append, h.nodup_without n, List.nodup_cons, List.not_mem_nil, not_false_eq_true,
    List.nodup_nil, true_and, List.mem_singleton, forall_eq, and_true]
  exact fun a ha he => not_mem_planWithout _ _ (he ▸ ha)

theorem State.Ok.nodup_insert (h : s.Ok) (p : Nat) (n : Seg) :
    (planInsert (planWithout s.segments.plan n) p n).Nodup := by
  have hp : (planInsert (planWithout s.segments.plan n) p n).Perm
      (n :: planWithout s.segments.plan n) := by
    unfold planInsert
    exact List.perm_middle.trans (by rw [List.take_append_drop])
  exact hp.nodup_iff.2 (List.nodup_cons.2 ⟨not_mem_planWithout _ _, h.nodup_without n⟩)

theorem State.Ok.putActive (h : s.Ok) (a : Option Seg) : (s.putActive a).Ok := by
  unfold State.putActive
  split_ifs
  · exact h
  · exact (h.withSegments (x := { s.segments with active := a })
      ⟨h.segments.redrives, h.segments.plan⟩).writeStateBlock

theorem State.Ok.setDwell (h : s.Ok) (t : Option Nat) : (s.setDwell t).Ok :=
  h.withSegments (x := { s.segments with dwellTarget := t }) ⟨h.segments.redrives, h.segments.plan⟩

theorem State.Ok.redrive (h : s.Ok) (n : Seg) : (s.segment n).redrive ≤ 7 := h.segments.redrives n

theorem Segment.recount_redrive (e : Segment) (c : Class) (f : Nat → Nat) :
    (e.recount c f).redrive = e.redrive := by cases c <;> rfl

theorem State.Ok.countAt (h : s.Ok) (p : Option Place) (f : Nat → Nat) : (s.countAt p f).Ok := by
  unfold State.countAt
  split
  · exact h.putSegment _ (by rw [Segment.recount_redrive]; exact h.redrive _)
  · exact h

theorem State.Ok.complete (h : s.Ok) (n : Seg) : (s.complete n).Ok := by
  have h1 := (h.putSegment n (e := { s.segment n with state := .complete }) (h.redrive n)).putPlan
    (h.nodup_without n)
  exact State.ok_ite h (State.ok_ite h ((State.ok_ite ((h1.putActive _).setDwell _) h1).raise _))

theorem State.Ok.reopen (h : s.Ok) (n : Seg) : (s.reopen n).Ok := by
  refine State.ok_ite ?_ h
  split
  · exact (h.putSegment n (e := { s.segment n with
      state := if (s.segment n).visited then .redrive else .unvisited }) (h.redrive n)).putPlan
        (h.nodup_append n)
  · exact h.putSegment n (e := { s.segment n with state := .abandoned }) (h.redrive n)
  · exact h

theorem State.Ok.judge (h : s.Ok) (n : Option Seg) (before : Nat) : (s.judge n before).Ok := by
  unfold State.judge
  split
  · exact h
  · split_ifs
    · exact h.complete _
    · exact h.reopen _
    · exact h

theorem State.Ok.report (h : s.Ok) (old new : Option Place) : (s.report old new).Ok := by
  have h1 := (h.countAt old (· - 1)).countAt new (· + 1)
  unfold State.report
  simp only
  split_ifs
  · exact h1
  · exact (h1.judge _ _).judge _ _

/-! ### The tamper queue -/

/-- The order of the queue in numbers: score, highest first, then flag time, then slot (R102). -/
theorem TamperEntry.ranksAbove_iff (a b : TamperEntry) : a.ranksAbove b = true ↔
    b.score.toNat < a.score.toNat ∨ (b.score.toNat = a.score.toNat ∧
      (a.flagTime.toNat < b.flagTime.toNat ∨
        (a.flagTime.toNat = b.flagTime.toNat ∧ a.slot < b.slot))) := by
  unfold TamperEntry.ranksAbove
  simp only [ne_eq, ← BitVec.toNat_inj]
  split_ifs <;> simp only [decide_eq_true_eq] <;> omega

/-- Ranking above is asymmetric. -/
theorem TamperEntry.not_above_of_above {a b : TamperEntry} (h : a.ranksAbove b = true) :
    b.ranksAbove a = false := by
  rw [← Bool.not_eq_true, TamperEntry.ranksAbove_iff] at *
  omega

/-- What does not rank above an entry does not rank above one that this entry does not rank below. -/
theorem TamperEntry.not_above_trans {a b c : TamperEntry} (h1 : b.ranksAbove a = false)
    (h2 : c.ranksAbove b = false) : c.ranksAbove a = false := by
  rw [← Bool.not_eq_true, TamperEntry.ranksAbove_iff] at *
  omega

theorem mem_insertRanked {x y : TamperEntry} {l : List TamperEntry} :
    y ∈ insertRanked x l ↔ y = x ∨ y ∈ l := by
  induction l with
  | nil => simp [insertRanked]
  | cons a l ih => rw [insertRanked]; split_ifs <;> grind

theorem insertRanked_perm (x : TamperEntry) (l : List TamperEntry) :
    (insertRanked x l).Perm (x :: l) := by
  induction l with
  | nil => rfl
  | cons a l ih =>
    rw [insertRanked]
    split_ifs
    · rfl
    · exact (ih.cons a).trans (List.Perm.swap x a l)

/-- Inserting an entry for a slot that has none keeps one entry a slot. -/
theorem insertRanked_slots {x : TamperEntry} {l : List TamperEntry} (h : (l.map (·.slot)).Nodup)
    (hx : ∀ e ∈ l, e.slot ≠ x.slot) : ((insertRanked x l).map (·.slot)).Nodup := by
  refine ((insertRanked_perm x l).map _).nodup_iff.2 ?_
  rw [List.map_cons, List.nodup_cons]
  refine ⟨fun hm => ?_, h⟩
  obtain ⟨e, he, hs⟩ := List.mem_map.1 hm
  exact hx e he hs

theorem insertRanked_length (x : TamperEntry) (l : List TamperEntry) :
    (insertRanked x l).length = l.length + 1 := by
  induction l with
  | nil => rfl
  | cons a l ih => rw [insertRanked]; split_ifs <;> simp [ih]

/-- Inserting at the rank keeps the order. -/
theorem insertRanked_ordered {x : TamperEntry} {l : List TamperEntry}
    (h : l.Pairwise fun a b => b.ranksAbove a = false) :
    (insertRanked x l).Pairwise fun a b => b.ranksAbove a = false := by
  induction l with
  | nil => simp [insertRanked]
  | cons a l ih =>
    have h' := List.pairwise_cons.1 h
    rw [insertRanked]
    split_ifs with hx
    · refine List.pairwise_cons.2 ⟨fun y hy => ?_, h⟩
      rcases List.mem_cons.1 hy with rfl | hy
      · exact TamperEntry.not_above_of_above hx
      · exact TamperEntry.not_above_trans (TamperEntry.not_above_of_above hx) (h'.1 y hy)
    · refine List.pairwise_cons.2 ⟨fun y hy => ?_, ih h'.2⟩
      rcases mem_insertRanked.1 hy with rfl | hy
      · simpa using hx
      · exact h'.1 y hy

theorem TamperOk.filter {x : Tamper} (h : TamperOk x) (p : TamperEntry → Bool) :
    TamperOk { x with entries := x.entries.filter p } :=
  ⟨Nat.le_trans (List.length_filter_le _ _) h.size, h.slots.sublist (List.filter_sublist.map _),
    h.ordered.filter _⟩

theorem State.Ok.inserted (h : s.Ok) : s.inserted.Ok :=
  (h.withTamper (x := { s.tamper with
    pulseRunning := s.tamper.pulseRunning || s.tamper.cabMode == .pulse })
    ⟨h.tamper.size, h.tamper.slots, h.tamper.ordered⟩).raise _

theorem State.Ok.placeInQueue (h : s.Ok) {x : TamperEntry}
    (hx : ∀ e ∈ s.tamper.entries, e.slot ≠ x.slot) : (s.placeInQueue x).Ok := by
  unfold State.placeInQueue
  split_ifs with hlen
  · refine State.Ok.inserted (h.withTamper ⟨?_, insertRanked_slots h.tamper.slots hx,
      insertRanked_ordered h.tamper.ordered⟩)
    simp only [insertRanked_length]
    exact hlen
  · split
    · exact h
    · split_ifs
      · refine State.Ok.inserted (h.withTamper ⟨?_, insertRanked_slots
          (h.tamper.slots.sublist ((List.dropLast_sublist _).map _))
          (fun e he => hx e (List.mem_of_mem_dropLast he)), insertRanked_ordered ?_⟩)
        · have := h.tamper.size
          simp only [insertRanked_length, List.length_dropLast]
          omega
        · exact h.tamper.ordered.sublist (List.dropLast_sublist _)
      · exact h.withTamper ⟨h.tamper.size, h.tamper.slots, h.tamper.ordered⟩

theorem State.Ok.removedReport (h : s.Ok) (slot : Nat) : (s.removedReport slot).Ok :=
  h.withTamper (h.tamper.filter _)

/-- The entries but those of a slot are of other slots. -/
theorem not_slot_of_mem_filter {l : List TamperEntry} {slot : Nat} {e : TamperEntry}
    (he : e ∈ l.filter fun e => e.slot != slot) : e.slot ≠ slot := by simpa using (List.mem_filter.1 he).2

theorem State.Ok.flaggedReport (h : s.Ok) (slot : Nat) (r : Record) : (s.flaggedReport slot r).Ok :=
  (h.removedReport slot).placeInQueue fun _ he => not_slot_of_mem_filter he

theorem State.Ok.risenReport (h : s.Ok) (slot : Nat) (r : Record) : (s.risenReport slot r).Ok := by
  unfold State.risenReport
  split
  next e he =>
    have hs : e.slot = slot := by simpa using List.find?_some he
    refine h.withTamper ⟨?_, insertRanked_slots (h.tamper.filter _).slots
      (fun x hx => by rw [show TamperEntry.slot _ = e.slot from rfl, hs]; exact not_slot_of_mem_filter hx),
      insertRanked_ordered (h.tamper.filter _).ordered⟩
    have hlt : (s.tamper.entries.filter fun e => e.slot != slot).length < s.tamper.entries.length := by
      apply List.length_filter_lt_length_iff_exists.2
      exact ⟨e, List.mem_of_find?_eq_some he, by have := List.find?_some he; simpa using this⟩
    have := h.tamper.size
    simp only [insertRanked_length]
    omega
  next hn =>
    exact h.placeInQueue fun e he => by
      simpa [Record.tamperEntry] using List.find?_eq_none.1 hn e he

end Sys2Proof.Machine
end

