-- ==== Sys2Proof/Laws/OkStore.lean ====
section
/-! SUPPORT. The operations on the record cache, the write queue, records and chains keep the bounds and
orders of `State.Ok`. -/

namespace Sys2Proof.Machine

variable {s : State}

/-! ### The write queue -/

theorem UnitState.oneWritten_responding (u : UnitState) :
    u.oneWritten = .responding ↔ u = .responding := by
  unfold UnitState.oneWritten; split <;> simp_all

theorem UnitState.oneWritten_reporting (u : UnitState) (w : Reporting) :
    u.oneWritten = .executing (.reporting w) ↔ u = .executing (.reporting w) := by
  unfold UnitState.oneWritten; split <;> simp_all

theorem CommandOk.oneWritten {x : Command} (h : CommandOk x) :
    CommandOk { x with unit := x.unit.oneWritten } where
  waiting hu := h.waiting ((UnitState.oneWritten_responding _).1 hu)
  empty hu := h.empty fun e => hu ((UnitState.oneWritten_responding _).2 e)
  reporting w hu := h.reporting w ((UnitState.oneWritten_reporting _ w).1 hu)

theorem State.Ok.writeOldest (h : s.Ok) : s.writeOldest.Ok := by
  unfold State.writeOldest
  split
  · exact h
  next q rest hq =>
    refine ((h.withMem (Memory.wf_writeSlot h.mem _ _)).withStore
      (x := { s.store with queue := rest }) ?_).withCommand (h.command.oneWritten)
    have := h.store.queue
    rw [hq, List.length_cons] at this
    exact ⟨h.store.lines, h.store.recency, by show rest.length ≤ 4; omega, h.store.blocks, h.store.inPool⟩

/-- Writing the oldest entry changes only memory, the queue and what FLUSH waits for. -/
theorem State.writeOldest_frame (s : State) : ∃ m q u, s.writeOldest =
    { s with mem := m, store := { s.store with queue := q }, command := { s.command with unit := u } } := by
  unfold State.writeOldest
  split
  · exact ⟨s.mem, s.store.queue, s.command.unit, rfl⟩
  · exact ⟨_, _, _, rfl⟩

theorem State.writeOldest_queue (s : State) : s.writeOldest.store.queue = s.store.queue.tail := by
  unfold State.writeOldest
  split <;> simp_all

/-- Draining `n` entries writes the oldest `n` to their slots, oldest first, and takes them out of the queue; of
the rest only what FLUSH waits for changes (R34, R42). -/
theorem State.drain_eq (n : Nat) (s : State) : State.drain n s = { s with
    mem := (s.store.queue.take n).foldl (fun m q => m.writeSlot q.slot q.contents) s.mem
    store := { s.store with queue := s.store.queue.drop n }
    command := { s.command with
      unit := (s.store.queue.take n).foldl (fun v _ => v.oneWritten) s.command.unit } } := by
  induction n generalizing s with
  | zero => rfl
  | succ n ih =>
    rw [State.drain, ih]
    cases hq : s.store.queue with
    | nil => simp [State.writeOldest, hq]
    | cons q rest => simp [State.writeOldest, hq]

/-- What accesses granted to a unit do: the unit is the one granted last, and for each of them the oldest entry
then in the write queue is written (R34, R36). -/
theorem State.grants_eq {u : Holder} {unit : Requester} (hu : u.requester = some unit) {n : Nat} (hn : n ≠ 0)
    (s : State) : s.grants u n = { s with
      mem := (s.store.queue.take n).foldl (fun m q => m.writeSlot q.slot q.contents) s.mem
      store := { s.store with granted := unit, queue := s.store.queue.drop n }
      command := { s.command with
        unit := (s.store.queue.take n).foldl (fun v _ => v.oneWritten) s.command.unit } } := by
  unfold State.grants
  rw [hu]
  dsimp only
  rw [if_neg hn, State.drain_eq]
  simp only [State.withStore_store, State.withStore_mem, State.withStore_command]
  rcases Nat.le_total n s.store.queue.length with h | h
  · rw [Nat.min_eq_left h]; rfl
  · rw [Nat.min_eq_right h, List.take_of_length_le (Nat.le_refl _), List.drop_of_length_le (Nat.le_refl _),
      List.take_of_length_le h, List.drop_of_length_le h]; rfl

/-- Accesses granted change only memory, the unit granted last, the queue and what FLUSH waits for. -/
theorem State.grants_frame (u : Holder) (n : Nat) (s : State) : ∃ m g q v, s.grants u n = { s with
    mem := m, store := { s.store with granted := g, queue := q }, command := { s.command with unit := v } } := by
  unfold State.grants
  split
  · exact ⟨s.mem, s.store.granted, s.store.queue, s.command.unit, rfl⟩
  · split_ifs
    · exact ⟨s.mem, s.store.granted, s.store.queue, s.command.unit, rfl⟩
    · rw [State.drain_eq]; exact ⟨_, _, _, _, rfl⟩

@[simp] theorem State.grants_directory (u : Holder) (n : Nat) (s : State) :
    (s.grants u n).directory = s.directory := by obtain ⟨m, g, q, v, e⟩ := State.grants_frame u n s; rw [e]
@[simp] theorem State.grants_segments (u : Holder) (n : Nat) (s : State) :
    (s.grants u n).segments = s.segments := by obtain ⟨m, g, q, v, e⟩ := State.grants_frame u n s; rw [e]
@[simp] theorem State.grants_matching (u : Holder) (n : Nat) (s : State) :
    (s.grants u n).matching = s.matching := by obtain ⟨m, g, q, v, e⟩ := State.grants_frame u n s; rw [e]
@[simp] theorem State.grants_tamper (u : Holder) (n : Nat) (s : State) :
    (s.grants u n).tamper = s.tamper := by obtain ⟨m, g, q, v, e⟩ := State.grants_frame u n s; rw [e]
@[simp] theorem State.grants_events (u : Holder) (n : Nat) (s : State) :
    (s.grants u n).events = s.events := by obtain ⟨m, g, q, v, e⟩ := State.grants_frame u n s; rw [e]
@[simp] theorem State.grants_route (u : Holder) (n : Nat) (s : State) :
    (s.grants u n).route = s.route := by obtain ⟨m, g, q, v, e⟩ := State.grants_frame u n s; rw [e]
@[simp] theorem State.grants_depot (u : Holder) (n : Nat) (s : State) :
    (s.grants u n).depot = s.depot := by obtain ⟨m, g, q, v, e⟩ := State.grants_frame u n s; rw [e]
@[simp] theorem State.grants_ports (u : Holder) (n : Nat) (s : State) :
    (s.grants u n).ports = s.ports := by obtain ⟨m, g, q, v, e⟩ := State.grants_frame u n s; rw [e]
@[simp] theorem State.grants_assessment (u : Holder) (n : Nat) (s : State) :
    (s.grants u n).assessment = s.assessment := by obtain ⟨m, g, q, v, e⟩ := State.grants_frame u n s; rw [e]
@[simp] theorem State.grants_power (u : Holder) (n : Nat) (s : State) :
    (s.grants u n).power = s.power := by obtain ⟨m, g, q, v, e⟩ := State.grants_frame u n s; rw [e]
@[simp] theorem State.grants_lines (u : Holder) (n : Nat) (s : State) :
    (s.grants u n).store.lines = s.store.lines := by
  obtain ⟨m, g, q, v, e⟩ := State.grants_frame u n s; rw [e]
@[simp] theorem State.grants_usedBlocks (u : Holder) (n : Nat) (s : State) :
    (s.grants u n).store.usedBlocks = s.store.usedBlocks := by
  obtain ⟨m, g, q, v, e⟩ := State.grants_frame u n s; rw [e]

/-- Queueing an image changes only memory, the queue and what FLUSH waits for. -/
theorem State.enqueue_frame (q : Queued) (s : State) : ∃ m p u, s.enqueue q =
    { s with mem := m, store := { s.store with queue := p }, command := { s.command with unit := u } } := by
  unfold State.enqueue
  obtain ⟨m, p, u, hw⟩ := State.writeOldest_frame s
  split_ifs
  · exact ⟨s.mem, _, s.command.unit, rfl⟩
  · rw [hw]; exact ⟨m, _, u, rfl⟩

theorem State.enqueue_lines (q : Queued) (s : State) : (s.enqueue q).store.lines = s.store.lines := by
  obtain ⟨m, p, u, h⟩ := State.enqueue_frame q s; rw [h]

theorem State.Ok.enqueue (h : s.Ok) (q : Queued) : (s.enqueue q).Ok := by
  unfold State.enqueue
  have key : ∀ t : State, t.Ok → t.store.queue.length < 4 →
      (t.withStore { t.store with queue := t.store.queue ++ [q] }).Ok := fun t ht hl =>
    ht.withStore ⟨ht.store.lines, ht.store.recency,
      (by simp only [List.length_append, List.length_singleton]; omega), ht.store.blocks, ht.store.inPool⟩
  dsimp only
  split_ifs with hl
  · exact key s h hl
  · refine key _ h.writeOldest ?_
    have := h.store.queue
    have hl : ¬ s.store.queue.length < 4 := hl
    rw [State.writeOldest_queue, List.length_tail]
    omega

theorem State.Ok.drain (h : s.Ok) (n : Nat) : (State.drain n s).Ok := by
  induction n generalizing s with
  | zero => exact h
  | succ n ih => exact ih h.writeOldest

theorem State.Ok.drainAll (h : s.Ok) : s.drainAll.Ok := h.drain _

/-! ### The lines -/

/-- No other line holds the slot of a body that a line takes. -/
def State.fits (s : State) (i : Fin 8) (body : Option Cached) : Prop :=
  ∀ b, body = some b → ∀ j c, (s.line j).body = some c → c.slot = b.slot → j = i

theorem lines_set {lines : Vector Line 8} {i : Fin 8} {l : Line}
    (h : ∀ i j : Fin 8, ∀ a b, (lines.get i).body = some a → (lines.get j).body = some b →
      a.slot = b.slot → i = j)
    (hl : ∀ b, l.body = some b → ∀ j c, (lines.get j).body = some c → c.slot = b.slot → j = i) :
    ∀ j k : Fin 8, ∀ a b, ((lines.set i.val l).get j).body = some a →
      ((lines.set i.val l).get k).body = some b → a.slot = b.slot → j = k := by
  intro j k a b ha hb hab
  simp only [Vector.get_eq_getElem] at *
  rw [Vector.getElem_set] at ha hb
  split_ifs at ha hb with h1 h2 h2
  · exact Fin.ext (h1.symm.trans h2)
  · have := hl a ha k b hb hab.symm
    exact absurd (congrArg Fin.val this.symm) h2
  · have := hl b hb j a ha hab
    exact absurd (congrArg Fin.val this.symm) h1
  · exact h j k a b ha hb hab

theorem touch_perm {i : Fin 8} {order : List (Fin 8)} (h : order.Perm (List.finRange 8)) :
    (touch i order).Perm (List.finRange 8) := by
  have hn : order.Nodup := h.nodup_iff.2 (List.nodup_finRange 8)
  have hi : i ∈ order := h.mem_iff.2 (List.mem_finRange i)
  refine List.Perm.trans ?_ h
  unfold touch
  have : (order.filter fun k => k != i) = order.erase i := by
    rw [hn.erase_eq_filter]
  rw [this]
  exact (List.perm_cons_erase hi).symm

theorem State.Ok.setLine (h : s.Ok) (i : Fin 8) {l : Line} (hl : s.fits i l.body) :
    (s.setLine i l).Ok :=
  h.withStore ⟨lines_set h.store.lines hl, h.store.recency, h.store.queue, h.store.blocks, h.store.inPool⟩

theorem State.Ok.hold (h : s.Ok) (u : Holder) (i : Fin 8) {body : Option Cached} (hl : s.fits i body) :
    (s.hold u i body).Ok :=
  h.withStore ⟨lines_set h.store.lines hl, touch_perm h.store.recency, h.store.queue, h.store.blocks,
    h.store.inPool⟩

/-- The line found for a slot holds it. -/
theorem State.lineOf_some {slot : Nat} {i : Fin 8} (h : s.lineOf slot = some i) :
    ∃ b, (s.line i).body = some b ∧ b.slot = slot := by
  have := List.find?_some h
  revert this
  cases (s.line i).body with
  | none => simp
  | some b => simp

/-- With no line found for a slot, none holds it. -/
theorem State.lineOf_none {slot : Nat} (h : s.lineOf slot = none) (i : Fin 8) (b : Cached)
    (hb : (s.line i).body = some b) : b.slot ≠ slot := by
  have := List.find?_eq_none.1 h i (List.mem_finRange i)
  rw [hb] at this
  simpa using this

theorem State.lineOf_congr {t : State} (h : t.store.lines = s.store.lines) (slot : Nat) :
    t.lineOf slot = s.lineOf slot := by
  unfold State.lineOf State.line; rw [h]

theorem State.fits_own (h : s.Ok) {i : Fin 8} {b : Cached} (hb : (s.line i).body = some b) (c : Cached)
    (hc : c.slot = b.slot) : s.fits i (some c) := by
  rintro x hx j y hy hxy
  cases hx
  exact h.store.lines j i y b hy hb (hxy.trans hc)

theorem State.fits_none (i : Fin 8) : s.fits i none := fun _ h => nomatch h

theorem State.fits_fresh {t : State} {slot : Nat} (hs : s.lineOf slot = none)
    (ht : t.store.lines = s.store.lines) (i : Fin 8) (d : Bool) (c : Contents) :
    t.fits i (some ⟨slot, d, c⟩) := by
  rintro x hx j y hy hxy
  cases hx
  exact absurd hxy (State.lineOf_none ((State.lineOf_congr ht slot).trans hs) j y hy)

theorem State.Ok.putContents (h : s.Ok) (slot : Nat) (c : Contents) : (s.putContents slot c).Ok := by
  unfold State.putContents
  split
  next i hi =>
    obtain ⟨b, hb, hs⟩ := State.lineOf_some hi
    exact h.setLine i (State.fits_own h hb _ hs.symm)
  · exact h

theorem State.Ok.letGo (h : s.Ok) (slot : Nat) : (s.letGo slot).Ok := by
  unfold State.letGo
  split
  next i hi =>
    obtain ⟨b, hb, hs⟩ := State.lineOf_some hi
    refine h.setLine i ?_
    rw [show (Line.body ⟨(s.line i).body, none⟩) = some b from hb]
    exact State.fits_own h hb _ rfl
  · exact h

theorem State.Ok.dropLine (h : s.Ok) (slot : Nat) : (s.dropLine slot).Ok := by
  unfold State.dropLine
  split
  · exact h.setLine _ (State.fits_none _)
  · exact h

theorem State.Ok.grants (h : s.Ok) (u : Holder) (n : Nat) : (s.grants u n).Ok := by
  unfold State.grants
  split
  · exact h
  next unit _ =>
    exact State.ok_ite h (State.Ok.drain (h.withStore (x := { s.store with granted := unit })
      ⟨h.store.lines, h.store.recency, h.store.queue, h.store.blocks, h.store.inPool⟩) _)

theorem State.Ok.grant (h : s.Ok) (u : Holder) : (s.grant u).Ok := h.grants u 1

theorem State.grant_lines (u : Holder) (s : State) : (s.grant u).store.lines = s.store.lines :=
  State.grants_lines u 1 s

theorem State.evict_lines (i : Fin 8) (s : State) : (s.evict i).store.lines = s.store.lines := by
  unfold State.evict
  split
  · split_ifs
    · exact State.enqueue_lines _ _
    · rfl
  · rfl

theorem State.Ok.evict (h : s.Ok) (i : Fin 8) : (s.evict i).Ok := by
  unfold State.evict
  split
  · exact State.ok_ite (h.enqueue _) h
  · exact h

/-! ### The directory and the free map -/

theorem DirectoryOk.set {d : Directory} (h : DirectoryOk d) {n : Nat} (hn : n < 8192) {x : DirEntry}
    (hx : ∀ b ∈ x.chain, b.1 < 4096) : DirectoryOk (d.set n x) where
  rising := Directory.rising_set h.rising n x
  inArea k hk := by
    rcases Directory.mem_set.1 hk with rfl | hk
    · exact hn
    · exact h.inArea k hk
  chains k y hy := by
    rw [Directory.get_set h.rising] at hy
    split_ifs at hy with hk
    · cases hy; exact hx
    · exact h.chains k y hy

theorem DirectoryOk.free {d : Directory} (h : DirectoryOk d) (n : Nat) : DirectoryOk (d.free n) where
  rising := Directory.rising_free h.rising n
  inArea k hk := h.inArea k (Directory.mem_free.1 hk).2
  chains k y hy := h.chains k y (Directory.get_free h.rising hy)

/-- An occupied slot is one of the record area. -/
theorem DirectoryOk.inArea_of_get {d : Directory} (h : DirectoryOk d) {n : Nat} {e : DirEntry}
    (he : d.get n = some e) : n < 8192 :=
  h.inArea n ((Directory.get_isSome h.rising n).1 (by rw [he]; rfl))

theorem DirectoryOk.nil : DirectoryOk [] := ⟨List.Pairwise.nil, by simp, by simp [Directory.get]⟩

/-- A slot's chain is of blocks there are. -/
theorem State.Ok.chain_lt (h : s.Ok) (slot : Nat) : ∀ b ∈ s.chain slot, b.1 < 4096 := by
  unfold State.chain
  cases hd : s.directory.get slot with
  | none => simp
  | some d => exact h.directory.chains slot d hd

theorem State.Ok.setChain (h : s.Ok) (slot : Nat) {chain : List (Nat × BlockKind)}
    (hc : ∀ b ∈ chain, b.1 < 4096) : (s.setChain slot chain).Ok := by
  unfold State.setChain
  split
  next d hd => exact h.withDirectory (h.directory.set (h.directory.inArea_of_get hd) hc)
  · exact h

theorem State.Ok.useBlock (h : s.Ok) {n : Nat} (hn : n < 4096) : (s.useBlock n).Ok := by
  refine h.withStore ⟨h.store.lines, h.store.recency, h.store.queue, rising_insertRising h.store.blocks n,
    fun k hk => ?_⟩
  rcases mem_insertRising.1 hk with rfl | hk
  · exact hn
  · exact h.store.inPool k hk

theorem State.Ok.freeChain (h : s.Ok) (chain : List (Nat × BlockKind)) : (s.freeChain chain).Ok :=
  h.withStore ⟨h.store.lines, h.store.recency, h.store.queue, rising_filter h.store.blocks _,
    fun k hk => h.store.inPool k (List.mem_of_mem_filter hk)⟩

theorem State.lowestFreeBlock_lt (s : State) {n : Nat} (h : s.lowestFreeBlock = some n) : n < 4096 := by
  unfold State.lowestFreeBlock State.freeBlocks Config.blocks at h
  split_ifs at h with hz
  have := firstAbsent_le s.store.usedBlocks 0
  cases h
  omega

theorem State.Ok.forget (h : s.Ok) (slot : Nat) : (s.forget slot).Ok :=
  h.withMatching ⟨Nat.le_trans (List.length_filter_le _ _) h.matching.size,
    h.matching.serials.sublist (List.filter_sublist.map _)⟩

/-! ### Taking a line -/

theorem State.Ok.becomeFault (h : s.Ok) (slot : Nat) : (s.becomeFault slot).Ok := by
  unfold State.becomeFault
  split
  · exact h
  next d hd =>
    have h1 := (((h.putContents slot (.fault ((s.mem.serialNaming slot Config.indexEntries).getD 0)
      d.segment)).freeChain d.chain).removedReport slot).forget slot
    exact ((h1.withDirectory (h.directory.set (h.directory.inArea_of_get hd) (by simp))).report _ _).raise _

theorem State.Ok.takeLine (h : s.Ok) (u : Holder) (slot : Nat) : (s.takeLine u slot).1.Ok := by
  unfold State.takeLine
  split
  next i hi =>
    obtain ⟨b, hb, hs⟩ := State.lineOf_some hi
    refine h.hold u i ?_
    rw [hb]
    exact State.fits_own h hb _ rfl
  next hn =>
    have he := h.evict s.victim
    have hl := State.evict_lines s.victim s
    dsimp only
    split
    · exact he.hold u _ (State.fits_fresh hn hl _ _ _)
    · have hg := he.grant u
      have hl' := (State.grant_lines u (s.evict s.victim)).trans hl
      split_ifs
      · exact hg.hold u _ (State.fits_fresh hn hl' _ _ _)
      · exact (hg.hold u _ (State.fits_fresh hn hl' _ _ _)).becomeFault _

theorem State.Ok.takeLineFresh (h : s.Ok) (u : Holder) (slot : Nat) (c : Contents) :
    (s.takeLineFresh u slot c).Ok := by
  unfold State.takeLineFresh
  split
  next i hi =>
    obtain ⟨b, hb, hs⟩ := State.lineOf_some hi
    exact h.hold u i (State.fits_own h hb _ hs.symm)
  next hn => exact (h.evict _).hold u _ (State.fits_fresh hn (State.evict_lines _ _) _ _ _)

theorem State.Ok.fileRecord (h : s.Ok) (slot : Nat) (r : Record) : (s.fileRecord slot r).Ok := by
  unfold State.fileRecord
  split
  · exact h
  next d hd =>
    refine State.Ok.report (h.withDirectory (h.directory.set (h.directory.inArea_of_get hd) ?_)) _ _
    exact h.directory.chains slot d hd

theorem State.Ok.putRecord (h : s.Ok) (slot : Nat) (r : Record) : (s.putRecord slot r).Ok :=
  (h.putContents _ _).fileRecord _ _

/-! ### Chains -/

theorem State.Ok.writeBlock (h : s.Ok) (u : Holder) (n : Nat) (b : Block) : (s.writeBlock u n b).Ok :=
  (h.withMem (Memory.wf_writeBlock h.mem n b)).grant u

theorem State.Ok.relink (h : s.Ok) (u : Holder) (n : Nat) (next : Half) : (s.relink u n next).Ok :=
  (h.withMem (Memory.wf_relinkBlock h.mem n next)).grant u

theorem State.Ok.cutChain (h : s.Ok) (u : Holder) (slot : Nat) (r : Record) (kept : Nat) :
    (s.cutChain u slot r kept).Ok := by
  unfold State.cutChain
  have h1 := (h.freeChain ((s.chain slot).drop kept)).setChain slot
    (chain := (s.chain slot).take kept) fun b hb => h.chain_lt slot b (List.mem_of_mem_take hb)
  dsimp only
  split
  · exact (h1.relink _ _ _).putRecord _ _
  · exact h1.putRecord _ _

theorem State.Ok.readExtension (h : s.Ok) (u : Holder) (slot : Nat) (r : Record) :
    (s.readExtension u slot r).1.Ok := by
  have h1 := h.grants u
  exact State.ok_ite ((h1 _).cutChain _ _ _ _) (h1 _)

/-! ### Retirement, the return to EMPTY, writing back -/

theorem State.Ok.retire (h : s.Ok) (u : Holder) (slot : Nat) (serial : Word) :
    (s.retire u slot serial).Ok := by
  have h1 := h.takeLineFresh u slot .free
  have h2 := ((((h1.withMem (Memory.wf_deleteSerial h1.mem serial)).grants u
    ((s.takeLineFresh u slot .free).mem.deleteAccesses serial)).forget slot).freeChain
    ((s.takeLineFresh u slot .free).chain slot)).removedReport slot
  exact (((h2.withDirectory (h2.directory.free slot)).report _ _).dropLine slot).enqueue _

theorem State.Ok.writeSegmentArea (h : s.Ok) : s.writeSegmentArea.Ok := by
  refine h.withMem (Memory.wf_writeItem ?_ _ _)
  have key : ∀ (l : List Seg) (m : Memory), m.wf = true →
      (l.foldl (fun m n => m.writeItem (5 + n.val) (segmentItem (s.segment n))) m).wf = true := by
    intro l
    induction l with
    | nil => exact fun m hm => hm
    | cons n l ih => exact fun m hm => ih _ (Memory.wf_writeItem hm _ _)
  exact key _ _ h.mem

theorem SegmentsOk.reset : SegmentsOk Segments.reset := ⟨by decide, by decide⟩

theorem State.Ok.emptyRoute (h : s.Ok) : s.emptyRoute.Ok := by
  have h1 := (((h.withMem (Memory.wf_clearIndex h.mem)).withMatching
    (x := { s.matching with buffer := [] }) ⟨by simp, by simp⟩).withDirectory DirectoryOk.nil).withStore
    (x := { s.store with usedBlocks := [] })
    ⟨h.store.lines, h.store.recency, h.store.queue, List.Pairwise.nil, by simp⟩
  have h2 := h1.withTamper (x := { s.tamper with entries := [], evictions := 0, turnedAway := 0 })
    ⟨by simp, by simp, by simp⟩
  have h3 := (h2.withSegments SegmentsOk.reset).writeSegmentArea
  exact ((((h3.withAssessment none).withRoute _).withMem (Memory.wf_writeItemTwice h3.mem _ _)).setClock
    0).enterRouteState _

theorem State.Ok.returnIfBare (h : s.Ok) : s.returnIfBare.Ok := State.ok_ite h.emptyRoute h

theorem State.Ok.cleanLine (h : s.Ok) (i : Fin 8) : (s.cleanLine i).Ok := by
  unfold State.cleanLine
  split
  next b hb =>
    refine State.ok_ite ?_ h
    have hf : (s.enqueue ⟨b.slot, b.contents⟩).fits i (some { b with dirty := false }) := by
      have : ((s.enqueue ⟨b.slot, b.contents⟩).line i).body = some b := by
        unfold State.line; rw [State.enqueue_lines]; exact hb
      exact State.fits_own (h.enqueue _) this _ rfl
    have h1 := (h.enqueue ⟨b.slot, b.contents⟩).setLine i
      (l := ⟨some { b with dirty := false }, none⟩) hf
    exact h1.withStore ⟨h1.store.lines, touch_perm (h.enqueue ⟨b.slot, b.contents⟩).store.recency,
      h1.store.queue, h1.store.blocks, h1.store.inPool⟩
  · exact h

theorem State.ok_foldl {α : Type} {f : State → α → State} (hf : ∀ s x, s.Ok → (f s x).Ok) (l : List α)
    (h : s.Ok) : (l.foldl f s).Ok := by
  induction l generalizing s with
  | nil => exact h
  | cons x l ih => exact ih (hf s x h)

theorem State.Ok.cleanLines (h : s.Ok) : s.cleanLines.Ok :=
  State.ok_foldl (fun _ i h => h.cleanLine i) _ h

theorem State.Ok.writeBack (h : s.Ok) : s.writeBack.Ok := h.cleanLines.drainAll

/-! ### Answers -/

theorem State.Ok.written (h : s.Ok) : s.written.Ok :=
  h.withCommand ⟨h.command.waiting, h.command.empty, h.command.reporting⟩

theorem State.Ok.respond (h : s.Ok) (a : Answer) {data : List Byte} (hd : data.length ≤ 198) :
    (s.respond a data).Ok :=
  h.withCommand ⟨fun _ => by simp only [List.length_cons]; omega, fun hu => absurd rfl hu,
    fun _ hu => nomatch hu⟩

theorem State.Ok.reply (h : s.Ok) (a : Answer) {data : List Byte} (hd : data.length ≤ 198) :
    (s.reply a data).Ok := h.written.respond a hd

theorem State.Ok.refuse (h : s.Ok) (a : Answer) : (s.refuse a).Ok := h.reply a (by simp)

theorem State.Ok.collide (h : s.Ok) : s.collide.Ok :=
  (h.withCommand (x := { s.command with collisions := satInc s.command.collisions, dataOut := [] })
    ⟨h.command.waiting, h.command.empty, h.command.reporting⟩).raise _

/-- A command taken keeps the bounds when its work does on a state whose unit is IDLE. -/
theorem State.Ok.serve (h : s.Ok) (during : Bool) {work : State → State}
    (hw : s.command.unit = .idle → (work s).Ok) : (s.serve during work).Ok := by
  unfold State.serve
  split_ifs with h1 h2
  · exact h.written
  · exact h.collide
  · exact h.refuse _
  · exact hw (by simpa using h2)

end Sys2Proof.Machine
end

