-- ==== Sys2Proof/Laws/Pauses.lean ====
section
/-! SUPPORT. What every part of an interval replacement, of the engines' work beside a walk, of a leave walk or of a
report keeps, the whole of it keeps, wherever other rows meet it (R12, R36, R58, R122, R125, R147). -/

namespace Sys2Proof.Machine

variable {P : State → Prop} {s : State}

/-! ### An interval replacement (R12) -/

theorem State.noteMeets_keeps (hd : ∀ s n, P s → P (s.withDraws n)) (h : P s) (met : Bool) (slot : Nat) :
    P (s.noteMeets met slot).2 := by
  unfold State.noteMeets
  split_ifs
  · exact hd _ _ h
  · exact h

/-- An interval replacement draws values, is held, allocates blocks that there are, and ends. -/
theorem State.replaceOn_keeps {f : Frame} {slot : Nat} {r : Record} (hd : ∀ s n, P s → P (s.withDraws n))
    (hp : ∀ s, P s → P (s.withMatching { s.matching with inHand := some ⟨f, slot, true⟩ }))
    (hb : ∀ s b, s.lowestFreeBlock = some b → P s → P (s.chainBlock slot b))
    (he : ∀ s, P s → P ((s.storeIntervals .matching slot f.intervals r).endFrame f slot true false))
    (h : P s) (met : Bool) (n : Nat) : P (State.replaceOn met f slot r n s) := by
  induction n generalizing s with
  | zero => exact he _ h
  | succ n ih =>
    have h1 := State.noteMeets_keeps hd h met slot
    rw [State.replaceOn]
    dsimp only
    split_ifs
    · exact hp _ h1
    · split
      next b e => exact ih (hb _ _ e h1)
      · exact he _ h1

/-- A RECORD_NOTE waits no more or less for an allocation. -/
@[simp] theorem State.chainBlock_noteWaits (slot b k : Nat) : (s.chainBlock k b).noteWaits slot = s.noteWaits slot := by
  unfold State.chainBlock State.useBlock State.setChain
  split <;> rfl

theorem State.noteMeets_none {met : Bool} {slot : Nat} (h : met = false ∨ s.noteWaits slot = false) :
    s.noteMeets met slot = (false, s) := by
  unfold State.noteMeets
  rcases h with h | h <;> simp [h]

/-- With no RECORD_NOTE in between, an interval replacement allocates its blocks one after another, each the lowest free
one, as long as there is one, and ends. -/
theorem State.replaceOn_whole {met : Bool} {slot : Nat} (f : Frame) (r : Record)
    (n : Nat) (h : met = false ∨ s.noteWaits slot = false) :
    ∃ blocks : List Nat,
      let chained := fun l : List Nat => l.foldl (fun s b => State.chainBlock slot b s) s
      State.replaceOn met f slot r n s =
        ((chained blocks).storeIntervals .matching slot f.intervals r).endFrame f slot true false ∧
      (∀ k b, blocks[k]? = some b → (chained (blocks.take k)).lowestFreeBlock = some b) ∧
      (blocks.length = n ∨ blocks.length < n ∧ (chained blocks).lowestFreeBlock = none) := by
  induction n generalizing s with
  | zero => exact ⟨[], rfl, fun k b e => by simp at e, .inl rfl⟩
  | succ n ih =>
    rw [State.replaceOn, State.noteMeets_none h]
    cases e : s.lowestFreeBlock with
    | none =>
      refine ⟨[], ?_, fun k b e => by simp at e, .inr ⟨Nat.succ_pos _, e⟩⟩
      simp only [Bool.false_eq_true, if_false, List.foldl_nil]
    | some b =>
      obtain ⟨blocks, h1, h2, h3⟩ := ih (s := s.chainBlock slot b) (h.imp id fun h => by simpa using h)
      refine ⟨b :: blocks, ?_, ?_, ?_⟩
      · simp only [Bool.false_eq_true, if_false, List.foldl_cons]
        exact h1
      · rintro (_ | k) c hc
        · cases hc; exact e
        · exact h2 k c hc
      · simpa using h3

/-! ### The engines beside a walk (R36, R122, R152, R166) -/

/-- What drawing a value, a step of the matching engine and a record read of the upload engine keep. -/
structure KeptBeside (P : State → Prop) : Prop where
  draws : ∀ s n, P s → P (s.withDraws n)
  engine : ∀ s, P s → P s.engineStep
  upload : ∀ s, P s → P s.uploadStep

theorem KeptBeside.engineComes (hb : KeptBeside P) (h : P s) (come : Bool) : P (s.engineComes come).2 := by
  unfold State.engineComes
  split_ifs
  · exact h
  · exact hb.draws _ _ h
  · exact h

theorem KeptBeside.uploadComes (hb : KeptBeside P) (h : P s) (come : Bool) : P (s.uploadComes come).2 := by
  unfold State.uploadComes
  split_ifs
  · exact h
  · exact hb.draws _ _ h
  · exact h

/-- The engines beside a walk draw values and make their steps. -/
theorem KeptBeside.besideOn (hb : KeptBeside P) (h : P s) (next : Option Nat) (k : Nat) (c : Come) :
    P (State.besideOn next k c s).2 := by
  induction k generalizing s c with
  | zero => exact h
  | succ k ih =>
    have h1 := hb.uploadComes (hb.engineComes h c.matching) c.upload
    rw [State.besideOn]
    dsimp only
    split_ifs
    · exact ih (hb.engine _ h1) _
    · exact ih (hb.upload _ h1) _
    · exact h1

theorem KeptBeside.beside (hb : KeptBeside P) (h : P s) : P s.beside := hb.besideOn h _ _ _

theorem KeptBeside.served (hb : KeptBeside P) (h : P s) (c : Come) : P (s.served c) := by
  unfold State.served
  dsimp only
  split_ifs
  · exact hb.engine _ (hb.upload _ h)
  · exact hb.engine _ h
  · exact hb.upload _ h
  · exact h

/-- A visit with the engines beside it is their work, the visit, and the steps of those that waited behind it. -/
theorem KeptBeside.visitBeside (hb : KeptBeside P) {α : Type} {slot : Nat} {visit : State × α → State × α}
    {x : State × α} (hv : ∀ x, P x.1 → P (visit x).1) (h : P x.1) : P (State.visitBeside slot visit x).1 :=
  hb.served (hv (_, x.2) (hb.besideOn h (some slot) _ _)) _

/-- What surveying a slot, marking a record and holding the forming keep, a record read after which the forming still
goes on keeps (R152). -/
theorem State.formRead_keeps (hs : ∀ c (x : List Surveyed × State) k, P x.2 → P (State.surveySlot c x k).2)
    (hm : ∀ (x : List (List Byte) × State) k, P x.2 → P (State.markOne x k).2) {w w1 : Forming} {t : State} (h : P s)
    (hr : s.formRead w = (some w1, t)) : P t := by
  unfold State.formRead at hr
  split at hr
  next again status next kept =>
    split at hr
    next e _ => cases hr; exact hs (if again = true then none else s.depot.cursor) (kept, s) e.1 h
    · unfold State.endClass at hr
      dsimp only at hr
      split at hr
      · cases hr; exact h
      · split_ifs at hr <;> cases hr <;> exact h
  · cases hr; exact hm _ _ h
  · cases hr

/-- What they keep, a record read of the upload engine beside a walk keeps (R152). -/
theorem State.uploadStep_keeps (hd : ∀ s x, P s → P (s.withDepot x))
    (hs : ∀ c (x : List Surveyed × State) k, P x.2 → P (State.surveySlot c x k).2)
    (hm : ∀ (x : List (List Byte) × State) k, P x.2 → P (State.markOne x k).2) (h : P s) : P s.uploadStep := by
  unfold State.uploadStep
  split
  · exact h
  · split
    next hr => exact hd _ _ (State.formRead_keeps hs hm (hd _ _ h) hr)
    · exact h

/-! ### A leave walk (R121, R125) -/

theorem State.tenthMeets_keeps (hd : ∀ s n, P s → P (s.withDraws n)) (h : P s) : P s.tenthMeets.2 := by
  unfold State.tenthMeets
  split_ifs
  · exact hd _ _ h
  · exact h

/-- What a leave walk comes to: it is held by a row of time, or it is over and the segment left; and what drawing values,
the engines' steps and the visits keep, the walk keeps. -/
theorem KeptBeside.leaveOn_cases (hb : KeptBeside P) {n : Seg} {entering : Option Seg} (slots : List Nat)
    {x : State × WalkCounts}
    (hv : ∀ slot ∈ slots, ∀ x, P x.1 → P (State.settleSlot .command slot x).1) (h : P x.1) :
    (∃ y next counts, P y ∧ State.leaveOn n entering slots x = y.holdWalk ⟨n, next, counts, entering⟩) ∨
    ∃ y, P y.1 ∧ State.leaveOn n entering slots x = State.left n entering y := by
  induction slots generalizing x with
  | nil =>
    have h1 := State.tenthMeets_keeps hb.draws h
    rw [State.leaveOn]
    split_ifs
    · exact .inl ⟨_, _, _, h1, rfl⟩
    · exact .inr ⟨(_, x.2), hb.beside h1, rfl⟩
  | cons slot slots ih =>
    have h1 := State.tenthMeets_keeps hb.draws h
    rw [State.leaveOn]
    split_ifs
    · exact .inl ⟨_, _, _, h1, rfl⟩
    · exact ih (fun k hk => hv k (List.mem_cons_of_mem _ hk))
        (hb.visitBeside (hv slot (List.mem_cons_self ..)) h1)

theorem KeptBeside.leaveOn (hb : KeptBeside P) {n : Seg} {entering : Option Seg}
    (hh : ∀ s w, P s → P (s.holdWalk w)) (hl : ∀ x, P x.1 → P (State.left n entering x)) (slots : List Nat)
    {x : State × WalkCounts} (hv : ∀ slot ∈ slots, ∀ x, P x.1 → P (State.settleSlot .command slot x).1) (h : P x.1) :
    P (State.leaveOn n entering slots x) := by
  obtain ⟨y, next, counts, hy, e⟩ | ⟨y, hy, e⟩ := hb.leaveOn_cases (n := n) (entering := entering) slots hv h
  · rw [e]; exact hh _ _ hy
  · rw [e]; exact hl _ hy

/-- A leave walk that goes on, or nothing. -/
theorem KeptBeside.goOnLeaving (hb : KeptBeside P) (hh : ∀ s w, P s → P (s.holdWalk w))
    (hl : ∀ n entering x, P x.1 → P (State.left n entering x))
    (hv : ∀ n, ∀ slot ∈ s.slotsOf n, ∀ x, P x.1 → P (State.settleSlot .command slot x).1) (h : P s) :
    P s.goOnLeaving := by
  unfold State.goOnLeaving
  split
  · exact hb.leaveOn hh (hl _ _) _ (fun slot hs => hv _ slot (List.mem_of_mem_filter hs)) h
  · exact h

/-! ### A report (R58, R147) -/

theorem State.roadMeets_keeps (hd : ∀ s n, P s → P (s.withDraws n)) (h : P s) : P s.roadMeets.2 := by
  unfold State.roadMeets
  split_ifs
  · exact hd _ _ h
  · exact h

/-- A report draws values and changes the command unit. -/
theorem State.reportOn_keeps (hd : ∀ s n, P s → P (s.withDraws n)) (hc : ∀ s x, P s → P (s.withCommand x)) (h : P s)
    (r : Report) (ks : List Nat) (data : List Byte) : P (State.reportOn r ks data s) := by
  induction ks generalizing s data with
  | nil => exact hc _ _ h
  | cons k ks ih =>
    have h1 := State.roadMeets_keeps hd h
    rw [State.reportOn]
    split_ifs
    · exact hc _ _ h1
    · exact ih h1 _

/-- With no such row at the front of the queue, a report is all its values at once (R58, R147). -/
theorem State.reportOn_whole (h : s.roadWaits = false) (r : Report) (ks : List Nat) (data : List Byte) :
    State.reportOn r ks data s = s.respond .ok (data ++ (ks.map (s.value r)).flatten) := by
  induction ks generalizing data with
  | nil => rw [State.reportOn, List.map_nil, List.flatten_nil, List.append_nil]
  | cons k ks ih =>
    rw [State.reportOn]
    simp only [State.roadMeets, h, Bool.false_eq_true, if_false]
    rw [ih, List.map_cons, List.flatten_cons, List.append_assoc]

theorem State.reportAll_keeps (hd : ∀ s n, P s → P (s.withDraws n)) (hc : ∀ s x, P s → P (s.withCommand x)) (h : P s)
    (r : Report) : P (s.reportAll r) := State.reportOn_keeps hd hc (hc _ _ h) _ _ _

/-- A report that goes on, or nothing. -/
theorem State.goOnReport_keeps (hd : ∀ s n, P s → P (s.withDraws n)) (hc : ∀ s x, P s → P (s.withCommand x)) (h : P s) :
    P s.goOnReport := by
  unfold State.goOnReport
  split
  · exact State.reportOn_keeps hd hc h _ _ _
  · exact h

end Sys2Proof.Machine
end

