-- ==== Sys2Proof/Laws/Quiet.lean ====
section
/-! SUPPORT. What the shared work on records, segments, the tamper queue and the caches never touches: the
queue of commands, power, the ports, the route controller, the depot link, the enable set; it clears no
event, moves no intake counter, and leaves a response as it is. -/

namespace Sys2Proof.Machine

variable {a s : State}

theorem Quiet.refl (s : State) : Quiet s s where
  pending := rfl
  power := rfl
  ports := rfl
  route := rfl
  assessment := rfl
  depot := rfl
  draws := rfl
  enabled := rfl
  raised := BitVec.or_self
  matching := rfl
  command := rfl
  responding := Iff.rfl
  idle := Iff.rfl
  cabMode := rfl
  invert := rfl

theorem Quiet.ite {c : Prop} [Decidable c] {x y : State} (hx : Quiet a x) (hy : Quiet a y) :
    Quiet a (if c then x else y) := by split_ifs <;> assumption

/-! ### Updates of one block -/

theorem Quiet.withMem (h : Quiet a s) (x : Memory) : Quiet a (s.withMem x) :=
  ⟨h.1, h.2, h.3, h.4, h.5, h.6, h.7, h.8, h.9, h.10, h.11, h.12, h.13, h.14, h.15⟩
theorem Quiet.withStore (h : Quiet a s) (x : Store) : Quiet a (s.withStore x) :=
  ⟨h.1, h.2, h.3, h.4, h.5, h.6, h.7, h.8, h.9, h.10, h.11, h.12, h.13, h.14, h.15⟩
theorem Quiet.withDirectory (h : Quiet a s) (x : Directory) : Quiet a (s.withDirectory x) :=
  ⟨h.1, h.2, h.3, h.4, h.5, h.6, h.7, h.8, h.9, h.10, h.11, h.12, h.13, h.14, h.15⟩
theorem Quiet.withSegments (h : Quiet a s) (x : Segments) : Quiet a (s.withSegments x) :=
  ⟨h.1, h.2, h.3, h.4, h.5, h.6, h.7, h.8, h.9, h.10, h.11, h.12, h.13, h.14, h.15⟩
theorem Quiet.withTamper (h : Quiet a s) {x : Tamper} (h1 : x.cabMode = s.tamper.cabMode)
    (h2 : x.invert = s.tamper.invert) : Quiet a (s.withTamper x) :=
  ⟨h.1, h.2, h.3, h.4, h.5, h.6, h.7, h.8, h.9, h.10, h.11, h.12, h.13, h1.trans h.14, h2.trans h.15⟩
theorem Quiet.withBuffer (h : Quiet a s) (x : List MatchEntry) :
    Quiet a (s.withMatching { s.matching with buffer := x }) :=
  ⟨h.1, h.2, h.3, h.4, h.5, h.6, h.7, h.8, h.9, h.10, h.11, h.12, h.13, h.14, h.15⟩

theorem Quiet.raise (h : Quiet a s) (e : Event) : Quiet a (s.raise e) :=
  ⟨h.1, h.2, h.3, h.4, h.5, h.6, h.7, h.8, by
    show a.events.pending ||| (s.events.pending ||| e.mask) = s.events.pending ||| e.mask
    rw [← BitVec.or_assoc, h.raised], h.10, h.11, h.12, h.13, h.14, h.15⟩

theorem Quiet.writeStateBlock (h : Quiet a s) : Quiet a s.writeStateBlock := h.withMem _

/-! ### Segments -/

theorem Quiet.putSegment (h : Quiet a s) (n : Seg) (e : Segment) : Quiet a (s.putSegment n e) :=
  Quiet.ite (h.withSegments _) ((h.withSegments _).withMem _)

theorem Quiet.putPlan (h : Quiet a s) (plan : List Seg) : Quiet a (s.putPlan plan) :=
  Quiet.ite h ((h.withSegments _).withMem _)

theorem Quiet.putActive (h : Quiet a s) (x : Option Seg) : Quiet a (s.putActive x) :=
  Quiet.ite h (h.withSegments _).writeStateBlock

theorem Quiet.setDwell (h : Quiet a s) (t : Option Nat) : Quiet a (s.setDwell t) := h.withSegments _

theorem Quiet.countAt (h : Quiet a s) (p : Option Place) (f : Nat → Nat) : Quiet a (s.countAt p f) := by
  unfold State.countAt
  split
  · exact h.putSegment _ _
  · exact h

theorem Quiet.complete (h : Quiet a s) (n : Seg) : Quiet a (s.complete n) := by
  have h1 := (h.putSegment n { s.segment n with state := .complete }).putPlan
    (planWithout s.segments.plan n)
  exact Quiet.ite h (Quiet.ite h ((Quiet.ite ((h1.putActive _).setDwell _) h1).raise _))

theorem Quiet.reopen (h : Quiet a s) (n : Seg) : Quiet a (s.reopen n) := by
  refine Quiet.ite ?_ h
  split
  · exact (h.putSegment _ _).putPlan _
  · exact h.putSegment _ _
  · exact h

theorem Quiet.judge (h : Quiet a s) (n : Option Seg) (before : Nat) : Quiet a (s.judge n before) := by
  unfold State.judge
  split
  · exact h
  · exact Quiet.ite (h.complete _) (Quiet.ite (h.reopen _) h)

theorem Quiet.report (h : Quiet a s) (old new : Option Place) : Quiet a (s.report old new) := by
  have h1 := (h.countAt old (· - 1)).countAt new (· + 1)
  exact Quiet.ite h1 ((h1.judge _ _).judge _ _)

/-! ### The tamper queue -/

theorem Quiet.inserted (h : Quiet a s) : Quiet a s.inserted :=
  (h.withTamper (x := { s.tamper with
    pulseRunning := s.tamper.pulseRunning || s.tamper.cabMode == .pulse }) rfl rfl).raise _

theorem Quiet.placeInQueue (h : Quiet a s) (x : TamperEntry) : Quiet a (s.placeInQueue x) := by
  unfold State.placeInQueue
  split
  · exact Quiet.inserted (h.withTamper rfl rfl)
  · split
    · exact h
    · split
      · exact Quiet.inserted (h.withTamper rfl rfl)
      · exact h.withTamper rfl rfl

theorem Quiet.removedReport (h : Quiet a s) (slot : Nat) : Quiet a (s.removedReport slot) :=
  h.withTamper rfl rfl

theorem Quiet.flaggedReport (h : Quiet a s) (slot : Nat) (r : Record) :
    Quiet a (s.flaggedReport slot r) := (h.removedReport slot).placeInQueue _

theorem Quiet.risenReport (h : Quiet a s) (slot : Nat) (r : Record) : Quiet a (s.risenReport slot r) := by
  unfold State.risenReport
  split
  · exact h.withTamper rfl rfl
  · exact h.placeInQueue _

/-! ### The write queue and the lines -/

theorem UnitState.oneWritten_idle (u : UnitState) : u.oneWritten = .idle ↔ u = .idle := by
  unfold UnitState.oneWritten; split <;> simp_all

theorem Quiet.writeOldest (h : Quiet a s) : Quiet a s.writeOldest := by
  unfold State.writeOldest
  split
  · exact h
  · exact ⟨h.1, h.2, h.3, h.4, h.5, h.6, h.7, h.8, h.9, h.10, h.11,
      (UnitState.oneWritten_responding _).trans h.12, (UnitState.oneWritten_idle _).trans h.13, h.14, h.15⟩

theorem Quiet.enqueue (h : Quiet a s) (q : Queued) : Quiet a (s.enqueue q) := by
  unfold State.enqueue
  dsimp only
  split
  · exact h.withStore _
  · exact h.writeOldest.withStore _

theorem Quiet.drain (h : Quiet a s) (n : Nat) : Quiet a (State.drain n s) := by
  induction n generalizing s with
  | zero => exact h
  | succ n ih => exact ih h.writeOldest

theorem Quiet.setLine (h : Quiet a s) (i : Fin 8) (l : Line) : Quiet a (s.setLine i l) := h.withStore _

theorem Quiet.hold (h : Quiet a s) (u : Holder) (i : Fin 8) (b : Option Cached) :
    Quiet a (s.hold u i b) := h.withStore _

theorem Quiet.putContents (h : Quiet a s) (slot : Nat) (c : Contents) : Quiet a (s.putContents slot c) := by
  unfold State.putContents
  split
  · exact h.setLine _ _
  · exact h

theorem Quiet.letGo (h : Quiet a s) (slot : Nat) : Quiet a (s.letGo slot) := by
  unfold State.letGo
  split
  · exact h.setLine _ _
  · exact h

theorem Quiet.dropLine (h : Quiet a s) (slot : Nat) : Quiet a (s.dropLine slot) := by
  unfold State.dropLine
  split
  · exact h.setLine _ _
  · exact h

theorem Quiet.grants (h : Quiet a s) (u : Holder) (n : Nat) : Quiet a (s.grants u n) := by
  unfold State.grants
  split
  · exact h
  · exact Quiet.ite h (Quiet.drain (h.withStore _) _)

theorem Quiet.grant (h : Quiet a s) (u : Holder) : Quiet a (s.grant u) := h.grants u 1

theorem Quiet.evict (h : Quiet a s) (i : Fin 8) : Quiet a (s.evict i) := by
  unfold State.evict
  split
  · exact Quiet.ite (h.enqueue _) h
  · exact h

theorem Quiet.setChain (h : Quiet a s) (slot : Nat) (chain : List (Nat × BlockKind)) :
    Quiet a (s.setChain slot chain) := by
  unfold State.setChain
  split
  · exact h.withDirectory _
  · exact h

theorem Quiet.useBlock (h : Quiet a s) (n : Nat) : Quiet a (s.useBlock n) := h.withStore _

theorem Quiet.freeChain (h : Quiet a s) (chain : List (Nat × BlockKind)) : Quiet a (s.freeChain chain) :=
  h.withStore _

theorem Quiet.forget (h : Quiet a s) (slot : Nat) : Quiet a (s.forget slot) := h.withBuffer _

theorem Quiet.becomeFault (h : Quiet a s) (slot : Nat) : Quiet a (s.becomeFault slot) := by
  unfold State.becomeFault
  split
  · exact h
  · exact ((Quiet.withDirectory ((((h.putContents _ _).freeChain _).removedReport _).forget _) _).report
      _ _).raise _

theorem Quiet.takeLine (h : Quiet a s) (u : Holder) (slot : Nat) : Quiet a (s.takeLine u slot).1 := by
  unfold State.takeLine
  split
  · exact h.hold _ _ _
  · dsimp only
    split
    · exact (h.evict _).hold _ _ _
    · split
      · exact ((h.evict _).grant _).hold _ _ _
      · exact (((h.evict _).grant _).hold _ _ _).becomeFault _

theorem Quiet.takeLineFresh (h : Quiet a s) (u : Holder) (slot : Nat) (c : Contents) :
    Quiet a (s.takeLineFresh u slot c) := by
  unfold State.takeLineFresh
  split
  · exact h.hold _ _ _
  · exact (h.evict _).hold _ _ _

/-! ### Records -/

theorem Quiet.fileRecord (h : Quiet a s) (slot : Nat) (r : Record) : Quiet a (s.fileRecord slot r) := by
  unfold State.fileRecord
  split
  · exact h
  · exact (h.withDirectory _).report _ _

theorem Quiet.putRecord (h : Quiet a s) (slot : Nat) (r : Record) : Quiet a (s.putRecord slot r) :=
  (h.putContents _ _).fileRecord _ _

theorem Quiet.writeBlock (h : Quiet a s) (u : Holder) (n : Nat) (b : Block) :
    Quiet a (s.writeBlock u n b) := (h.withMem _).grant u

theorem Quiet.relink (h : Quiet a s) (u : Holder) (n : Nat) (next : Half) :
    Quiet a (s.relink u n next) := (h.withMem _).grant u

theorem Quiet.cutChain (h : Quiet a s) (u : Holder) (slot : Nat) (r : Record) (kept : Nat) :
    Quiet a (s.cutChain u slot r kept) := by
  unfold State.cutChain
  dsimp only
  split
  · exact (((h.freeChain _).setChain _ _).relink _ _ _).putRecord _ _
  · exact ((h.freeChain _).setChain _ _).putRecord _ _

theorem Quiet.readExtension (h : Quiet a s) (u : Holder) (slot : Nat) (r : Record) :
    Quiet a (s.readExtension u slot r).1 := by
  have h1 := h.grants u
  exact Quiet.ite ((h1 _).cutChain _ _ _ _) (h1 _)

theorem Quiet.retire (h : Quiet a s) (u : Holder) (slot : Nat) (serial : Word) :
    Quiet a (s.retire u slot serial) := by
  have h2 := ((((h.takeLineFresh u slot .free).withMem
    ((s.takeLineFresh u slot .free).mem.deleteSerial serial)).grants u
      ((s.takeLineFresh u slot .free).mem.deleteAccesses serial)).forget slot).freeChain
      ((s.takeLineFresh u slot .free).chain slot)
  exact ((((h2.removedReport slot).withDirectory _).report _ _).dropLine slot).enqueue _

theorem Quiet.foldl {α : Type} {f : State → α → State} (hf : ∀ s x, Quiet a s → Quiet a (f s x))
    (l : List α) (h : Quiet a s) : Quiet a (l.foldl f s) := by
  induction l generalizing s with
  | nil => exact h
  | cons x l ih => exact ih (hf s x h)

theorem Quiet.foldl_fst {α β : Type} {f : State × β → α → State × β}
    (hf : ∀ x y, Quiet a x.1 → Quiet a (f x y).1) (l : List α) {x : State × β} (h : Quiet a x.1) :
    Quiet a (l.foldl f x).1 := by
  induction l generalizing x with
  | nil => exact h
  | cons y l ih => exact ih (hf x y h)

theorem Quiet.foldl_snd {α β : Type} {f : β × State → α → β × State}
    (hf : ∀ x y, Quiet a x.2 → Quiet a (f x y).2) (l : List α) {x : β × State} (h : Quiet a x.2) :
    Quiet a (l.foldl f x).2 := by
  induction l generalizing x with
  | nil => exact h
  | cons y l ih => exact ih (hf x y h)

theorem Quiet.cleanLine (h : Quiet a s) (i : Fin 8) : Quiet a (s.cleanLine i) := by
  unfold State.cleanLine
  split
  · exact Quiet.ite (((h.enqueue _).setLine _ _).withStore _) h
  · exact h

theorem Quiet.cleanLines (h : Quiet a s) : Quiet a s.cleanLines :=
  Quiet.foldl (fun _ i h => h.cleanLine i) _ h

theorem Quiet.writeBack (h : Quiet a s) : Quiet a s.writeBack := h.cleanLines.drain _

/-! ### Walks, and a command's search -/

theorem Quiet.settleSlot (u : Holder) (slot : Nat) {x : State × WalkCounts} (h : Quiet a x.1) :
    Quiet a (State.settleSlot u slot x).1 := by
  have h1 := h.takeLine u slot
  unfold State.settleSlot
  dsimp only
  split
  · exact h1.letGo _
  · split
    · split
      · exact (h1.putRecord _ _).letGo _
      · exact ((h1.putRecord _ _).flaggedReport _ _).letGo _
      · exact h1.letGo _
    · exact h1.letGo _

theorem Quiet.leaveWalk (h : Quiet a s) (u : Holder) (n : Seg) : Quiet a (s.leaveWalk u n).1 :=
  (Quiet.foldl_fst (fun _ slot hx => Quiet.settleSlot u slot hx) (s.slotsOf n)
    (x := (s.withSegments { s.segments with leaving := some n }, WalkCounts.none))
    (h.withSegments _)).withSegments _

theorem Quiet.settleLeft (h : Quiet a s) (n : Seg) : Quiet a (s.settleLeft n) :=
  Quiet.setDwell (Quiet.putActive (Quiet.ite (((h.putSegment _ _).putPlan _).raise _)
    (Quiet.ite ((h.putSegment _ _).putPlan _) ((h.putSegment _ _).putPlan _))) _) _

theorem Quiet.leave (h : Quiet a s) (u : Holder) (n : Seg) : Quiet a (s.leave u n).1 :=
  (h.leaveWalk u n).settleLeft n

theorem Quiet.enter (h : Quiet a s) (n : Seg) : Quiet a (s.enter n) := by
  have key : ∀ e p x y, Quiet a ((((s.putSegment n e).putPlan p).putActive x).setDwell y) :=
    fun e p x y => (((h.putSegment n e).putPlan p).putActive x).setDwell y
  unfold State.enter
  dsimp only
  split
  · exact key _ _ _ _
  · exact key _ _ _ _
  · exact key _ _ _ _
  · exact h

theorem Quiet.define (h : Quiet a s) (n : Seg) (base limit dwell : Half) :
    Quiet a (s.define n base limit dwell) := by
  unfold State.define
  dsimp only
  split
  · exact (h.putSegment _ _).putPlan _
  · exact (h.putSegment _ _).putPlan _
  · exact h.putSegment _ _

theorem Quiet.find (h : Quiet a s) (serial : Word) : Quiet a (s.find serial).2 := by
  have hl : Quiet a (s.lookupFor serial).2 := h.grants .command _
  unfold State.find
  split
  next s1 he => rw [he] at hl; exact hl
  next slot s1 he =>
    rw [he] at hl
    have ht := Quiet.takeLine hl .command slot
    dsimp only
    split_ifs
    · exact ht
    · exact ht.letGo _
    · split
      · exact ht.letGo _
      · split_ifs
        · exact ht
        · exact ht.letGo _
      · split_ifs
        · exact ht
        · exact ht.letGo _

theorem Quiet.walkSlot (h : Quiet a s) (set : Byte) (slot : Nat) (w : Walked) :
    Quiet a (s.walkSlot set slot w).2 := by
  have h1 := (h.takeLine .command slot).letGo slot
  unfold State.walkSlot
  dsimp only
  split
  · exact h1
  · split <;> exact h1

/-! ### A frame's work -/

theorem Quiet.keepEntry (h : Quiet a s) (e : MatchEntry) : Quiet a (s.keepEntry e) := h.withBuffer _

theorem Quiet.resolveByIndex (h : Quiet a s) (serial : Word) : Quiet a (s.resolveByIndex serial).2 := by
  unfold State.resolveByIndex
  dsimp only
  split
  · exact (h.grants _ _).keepEntry _
  · exact h.grants .matching _

theorem Quiet.resolve (h : Quiet a s) (serial : Word) : Quiet a (s.resolve serial).2 := by
  unfold State.resolve
  split
  · exact h.keepEntry _
  · exact h.resolveByIndex _

theorem Quiet.noteReading (h : Quiet a s) (slot : Nat) (f : Frame) : Quiet a (s.noteReading slot f) :=
  h.withBuffer _

theorem Quiet.reportFrame (h : Quiet a s) (slot : Nat) (old new : Record) :
    Quiet a (s.reportFrame slot old new) :=
  Quiet.ite (Quiet.ite (h.flaggedReport _ _) (Quiet.ite (h.risenReport _ _) h)) h

theorem Quiet.writeIntervals (h : Quiet a s) (u : Holder) (bs : List Nat) (values : List Half) :
    Quiet a (State.writeIntervals u bs values s) := by
  induction bs generalizing s values with
  | nil => exact h
  | cons b bs ih => exact ih (h.writeBlock _ _ _) _

theorem Quiet.freeIntervals (h : Quiet a s) (slot : Nat) : Quiet a (s.freeIntervals slot) :=
  (h.freeChain _).setChain _ _

theorem Quiet.chainBlock (h : Quiet a s) (slot b : Nat) : Quiet a (s.chainBlock slot b) :=
  (h.useBlock _).setChain _ _

theorem Quiet.storeIntervals (h : Quiet a s) (u : Holder) (slot : Nat) (values : List Half)
    (r : Record) : Quiet a (s.storeIntervals u slot values r) := by
  have h2 := h.writeIntervals u (((s.chain slot).filter fun b => b.2 == .interval).map (·.1)) values
  unfold State.storeIntervals
  dsimp only
  have h3 : ∀ x, Quiet a x → ∀ r', Quiet a (x.putRecord slot r') := fun _ hx r' => hx.putRecord slot r'
  split_ifs
  · refine Quiet.raise (h3 _ ?_ _) _
    split
    · exact h2
    · exact h2.relink _ _ _
  · refine h3 _ ?_ _
    split
    · exact h2
    · exact h2.relink _ _ _

/-! ### The matching engine beside a walk -/

theorem Quiet.trans {t : State} (h : Quiet a s) (q : Quiet s t) : Quiet a t where
  pending := q.pending.trans h.pending
  power := q.power.trans h.power
  ports := q.ports.trans h.ports
  route := q.route.trans h.route
  assessment := q.assessment.trans h.assessment
  depot := q.depot.trans h.depot
  draws := q.draws.trans h.draws
  enabled := q.enabled.trans h.enabled
  raised := by rw [← q.raised, ← BitVec.or_assoc, h.raised]
  matching := by rw [← h.matching, ← q.matching]
  command := by rw [← h.command, ← q.command]
  responding := q.responding.trans h.responding
  idle := q.idle.trans h.idle
  cabMode := q.cabMode.trans h.cabMode
  invert := q.invert.trans h.invert

/-- What work on records leaves alone, it leaves alone with other ports, matching engine and draws too. -/
theorem Quiet.set_beside {t : State} (q : Quiet s t) (ports : Vector Port 4) (matching : Matching)
    (draws : Nat) : Quiet { s with ports := ports, matching := matching, draws := draws }
      { t with ports := ports, matching := matching, draws := draws } :=
  ⟨q.pending, q.power, rfl, q.route, q.assessment, q.depot, rfl, q.enabled, q.raised, rfl, q.command,
    q.responding, q.idle, q.cabMode, q.invert⟩

theorem Beside.refl (s : State) : Beside s s := ⟨Quiet.refl s, fun _ => ⟨[], rfl⟩⟩

/-- Work on records goes on beside the engine. -/
theorem Beside.quiet_step {t : State} (h : Beside a s) (q : Quiet s t) : Beside a t where
  quiet := h.quiet.trans (q.set_beside _ _ _)
  ports p := by
    have : t.port p = s.port p := by unfold State.port; rw [q.ports]
    rw [this]; exact h.ports p

theorem Beside.ite {c : Prop} [Decidable c] {x y : State} (hx : Beside a x) (hy : Beside a y) :
    Beside a (if c then x else y) := by split <;> assumption

theorem Beside.withMatching (h : Beside a s) (x : Matching) : Beside a (s.withMatching x) :=
  ⟨h.quiet, h.ports⟩

theorem Beside.withDraws (h : Beside a s) (x : Nat) : Beside a (s.withDraws x) := ⟨h.quiet, h.ports⟩

theorem Beside.passGate (h : Beside a s) (f : Frame) : Beside a (s.passGate f) := by
  have hr := h.quiet_step ((Quiet.refl s).resolve f.serial)
  unfold State.passGate
  split
  next he => rw [he] at hr; exact hr.withMatching _
  next he => rw [he] at hr; exact Beside.withMatching hr _

theorem Beside.takeHead (h : Beside a s) {p : Fin 4} {f : Frame} {rest : List Frame}
    (hb : (s.port p).buffer = f :: rest) : Beside a (s.takeHead p rest) := by
  refine ⟨h.quiet, fun q => ?_⟩
  obtain ⟨taken, ht⟩ := h.ports q
  unfold State.takeHead State.setPort State.port at *
  simp only [State.withMatching, State.withPorts, Vector.get_eq_getElem] at *
  rw [Vector.getElem_set]
  split_ifs with hq
  · have hq : p = q := Fin.ext hq
    subst hq
    exact ⟨taken ++ [f], by rw [ht]; simp [hb]⟩
  · exact ⟨taken, ht⟩

theorem Beside.takeFrame (h : Beside a s) : Beside a s.takeFrame := by
  unfold State.takeFrame
  split
  · exact h
  next p _ =>
    split
    · exact h
    next f rest hb =>
      have h1 := h.takeHead hb
      exact (h1.passGate f).ite (h1.withMatching _)

theorem Beside.endFrame (h : Beside a s) (f : Frame) (slot : Nat) (applied duplicate : Bool) :
    Beside a (s.endFrame f slot applied duplicate) :=
  (h.quiet_step ((Quiet.ite ((Quiet.refl s).noteReading slot f) (Quiet.refl s)).letGo slot)).withMatching _

theorem Beside.replaceOn (h : Beside a s) (met : Bool) (f : Frame) (slot : Nat) (r : Record) (n : Nat) :
    Beside a (State.replaceOn met f slot r n s) :=
  State.replaceOn_keeps (fun _ n h => h.withDraws n) (fun _ h => h.withMatching _)
    (fun _ b _ h => h.quiet_step ((Quiet.refl _).chainBlock slot b))
    (fun _ h => (h.quiet_step ((Quiet.refl _).storeIntervals .matching slot f.intervals r)).endFrame f slot true false)
    h met n

theorem Beside.applyFrame (h : Beside a s) (met : Bool) (f : Frame) (slot : Nat) (r : Record) :
    Beside a (s.applyFrame met f slot r) := by
  unfold State.applyFrame
  dsimp only
  generalize r.matchFrame s.params (s.assessment.getD Assessment.blank) (s.matchEntry f.serial) f = m
  have h1 := ((Quiet.refl s).putRecord slot m.record).reportFrame slot r m.record
  exact Beside.ite ((h.quiet_step (h1.freeIntervals slot)).replaceOn _ _ _ _ _) ((h.quiet_step h1).endFrame _ _ _ _)

theorem Beside.workFrame (h : Beside a s) (met : Bool) (f : Frame) (slot : Nat) : Beside a (s.workFrame met f slot) := by
  unfold State.workFrame
  split
  · exact h.applyFrame _ _ _ _
  · exact (h.quiet_step (((Quiet.refl s).forget slot).letGo slot)).withMatching _

theorem Beside.goOnReplacing (h : Beside a s) (met : Bool) (f : Frame) (slot : Nat) :
    Beside a (s.goOnReplacing met f slot) := by
  unfold State.goOnReplacing
  dsimp only
  split
  · exact h.replaceOn _ _ _ _ _
  · exact h.endFrame _ _ _ _

theorem Beside.matchOn (h : Beside a s) (met : Bool) : Beside a (s.matchOn met) := by
  unfold State.matchOn
  split
  · exact h
  · exact h.goOnReplacing _ _ _
  next f slot _ =>
    have h1 := h.quiet_step ((Quiet.refl s).takeLine .matching slot)
    refine Beside.ite (h1.workFrame _ _ _) ?_
    have h2 := h1.quiet_step (((Quiet.refl _).letGo slot).resolveByIndex f.serial)
    split
    next hr => rw [hr] at h2; exact Beside.withMatching h2 _
    next hr =>
      rw [hr] at h2
      have h3 := Beside.quiet_step h2 ((Quiet.refl _).takeLine .matching (by assumption))
      exact (h3.workFrame _ _ _).ite ((h3.quiet_step ((Quiet.refl _).letGo _)).withMatching _)

theorem Beside.finishFrame (h : Beside a s) : Beside a s.finishFrame := h.matchOn false

theorem Beside.goOnFrame (h : Beside a s) : Beside a s.goOnFrame := by
  unfold State.goOnFrame
  split
  · exact h.goOnReplacing _ _ _
  · exact h

theorem Beside.engineStep (h : Beside a s) : Beside a s.engineStep := h.finishFrame.ite h.takeFrame

theorem Beside.settleSlot (u : Holder) (slot : Nat) {x : State × WalkCounts} (h : Beside a x.1) :
    Beside a (State.settleSlot u slot x).1 := h.quiet_step (Quiet.settleSlot u slot (Quiet.refl _))

end Sys2Proof.Machine
end

