-- ==== Sys2Proof/Laws/Beside.lean ====
section
/-! SUPPORT. What the upload engine's forming and the two engines beside a walk leave alone (R36, R122, R152, R166). -/

namespace Sys2Proof.Machine

variable {a s t : State}

/-! ### The forming -/

theorem Quiet.surveySlot (cursor : Option Key) {x : List Surveyed × State} (h : Quiet a x.2) (slot : Nat) :
    Quiet a (State.surveySlot cursor x slot).2 := (h.takeLine .upload slot).letGo slot

/-- The marking of one record leaves it out, or packs it and adds it to the outstanding batch; of the depot block it
changes nothing else (R152). -/
theorem State.markOne_cases (packed : List (List Byte)) (s : State) (k : Surveyed) :
    ((State.markOne (packed, s) k).1 = packed ∧ (State.markOne (packed, s) k).2.depot = s.depot) ∨
    ∃ bytes e, (State.markOne (packed, s) k).1 = packed ++ [bytes] ∧ (State.markOne (packed, s) k).2.depot =
      { s.depot with outstanding := s.depot.outstanding ++ [e] } := by
  have ht := (Quiet.refl s).takeLine .upload k.key.slot
  have hg := (ht.letGo k.key.slot).depot
  unfold State.markOne
  dsimp only
  split
  · exact .inl ⟨rfl, hg⟩
  · split
    next r _ =>
      split
      · refine .inr ⟨_, (k.key.slot, r.serial), rfl, ?_⟩
        unfold State.markAndPack
        dsimp only
        have h1 := (ht.putRecord k.key.slot
          { r with batch := some (s.takeLine .upload k.key.slot).1.depot.batchNumber }).depot
        rw [((Quiet.readExtension (Quiet.refl _) _ _ _).letGo _).depot, State.withDepot_depot, h1]
      · exact .inl ⟨rfl, hg⟩
    · exact .inl ⟨rfl, hg⟩

/-- What work on records leaves alone, it leaves alone with another depot block too. -/
theorem Quiet.set_depot (q : Quiet s t) (x : Depot) : Quiet { s with depot := x } { t with depot := x } :=
  ⟨q.pending, q.power, q.ports, q.route, q.assessment, rfl, q.draws, q.enabled, q.raised, q.matching, q.command,
    q.responding, q.idle, q.cabMode, q.invert⟩

/-- Giving a record its batch field and packing it is work on records but for the depot block. -/
theorem State.markAndPack_quiet (h : Quiet a s) (slot : Nat) (r : Record) (packed : List (List Byte)) (x : Depot) :
    Quiet { a with depot := x } { (State.markAndPack slot r (packed, s)).2 with depot := x } := by
  have h1 := h.putRecord slot { r with batch := some s.depot.batchNumber }
  unfold State.markAndPack
  dsimp only
  generalize s.putRecord slot { r with batch := some s.depot.batchNumber } = u at h1 ⊢
  generalize { u.depot with outstanding := u.depot.outstanding ++ [(slot, r.serial)] } = d
  have h2 := (((Quiet.refl (u.withDepot d)).readExtension .upload slot
    { r with batch := some s.depot.batchNumber }).letGo slot).set_depot x
  exact (h1.set_depot x).trans h2

/-- The marking of one record is work on records but for the depot block. -/
theorem State.markOne_quiet (packed : List (List Byte)) (s : State) (k : Surveyed) :
    Quiet s { (State.markOne (packed, s) k).2 with depot := s.depot } := by
  have ht := (Quiet.refl s).takeLine .upload k.key.slot
  unfold State.markOne
  dsimp only
  generalize s.takeLine .upload k.key.slot = y at ht ⊢
  have hg := (ht.letGo k.key.slot).set_depot s.depot
  split_ifs
  · exact hg
  · split
    next r _ =>
      split_ifs
      · exact State.markAndPack_quiet ht _ _ _ s.depot
      · exact hg
    · exact hg

/-- A record read, or the end of a class, after which the forming still goes on, is work on records but that a record
marked joins the outstanding batch (R152). -/
theorem State.formRead_quiet {w w1 : Forming} (h : s.formRead w = (some w1, t)) :
    Quiet s { t with depot := s.depot } ∧
      ∃ marked, t.depot = { s.depot with outstanding := s.depot.outstanding ++ marked } := by
  have same : ∀ u : State, Quiet s u → Quiet s { u with depot := s.depot } ∧
      ∃ marked, u.depot = { s.depot with outstanding := s.depot.outstanding ++ marked } := fun u q =>
    ⟨q.set_depot s.depot, [], by rw [q.depot, List.append_nil]⟩
  unfold State.formRead at h
  split at h
  next again status next kept =>
    split at h
    next e _ =>
      cases h
      exact same _ (Quiet.surveySlot (if again = true then none else s.depot.cursor) (x := (kept, s)) (Quiet.refl s) e.1)
    · unfold State.endClass at h
      dsimp only at h
      split at h
      · cases h; exact same s (Quiet.refl s)
      · split_ifs at h <;> cases h <;> exact same s (Quiet.refl s)
  next last k todo packed =>
    cases h
    refine ⟨State.markOne_quiet packed s k, ?_⟩
    rcases State.markOne_cases packed s k with ⟨_, e⟩ | ⟨_, x, _, e⟩
    · exact ⟨[], by rw [e, List.append_nil]⟩
    · exact ⟨[x], e⟩
  · cases h

/-! ### The matching engine's work, one piece after another -/

theorem Beside.trans (h : Beside a s) (q : Beside s t) : Beside a t where
  quiet := h.quiet.trans (q.quiet.set_beside a.ports a.matching a.draws)
  ports p := by
    obtain ⟨x, hx⟩ := h.ports p
    obtain ⟨y, hy⟩ := q.ports p
    refine ⟨x ++ y, ?_⟩
    rw [hx, hy, List.append_assoc]

/-- What the matching engine leaves alone, it leaves alone with another depot block too. -/
theorem Beside.set_depot (h : Beside s t) (x : Depot) : Beside { s with depot := x } { t with depot := x } :=
  ⟨h.quiet.set_depot x, h.ports⟩

/-! ### Both engines beside a walk -/

theorem BesideWalk.refl (s : State) : BesideWalk s s :=
  ⟨Beside.refl s, rfl, ⟨[], (List.append_nil _).symm⟩, fun _ => rfl⟩

/-- The matching engine's work goes on beside the upload engine. -/
theorem BesideWalk.beside_step (h : BesideWalk a s) (q : Beside s t) : BesideWalk a t := by
  have e : t.depot = s.depot := q.quiet.depot
  exact ⟨h.beside.trans (q.set_depot a.depot), e ▸ h.depot, e ▸ h.batch, fun hn => e.trans (h.still hn)⟩

/-- Work on records goes on beside both engines. -/
theorem BesideWalk.quiet_step (h : BesideWalk a s) (q : Quiet s t) : BesideWalk a t :=
  h.beside_step ((Beside.refl s).quiet_step q)

/-- While the depot block stands, the upload engine has the same forming under way or about to begin. -/
theorem BesideWalk.uploadWork (h : BesideWalk a s) (hd : s.depot = a.depot) : s.uploadWork = a.uploadWork := by
  have h1 : s.power = a.power := h.beside.quiet.power
  have h2 : s.route = a.route := h.beside.quiet.route
  have h3 : s.pending = a.pending := h.beside.quiet.pending
  unfold State.uploadWork State.mayForm State.isScanning
  rw [h1, h2, h3, hd]

theorem BesideWalk.uploadStep (h : BesideWalk a s) : BesideWalk a s.uploadStep := by
  cases e : s.uploadWork with
  | none => unfold State.uploadStep; rw [e]; exact h
  | some w =>
    unfold State.uploadStep
    rw [e]
    dsimp only
    split
    next w1 t hr =>
      obtain ⟨q, marked, hm⟩ := State.formRead_quiet hr
      have q1 : Quiet { s with depot := a.depot } { t with depot := a.depot } := q.set_depot a.depot
      have hm : t.depot = { s.depot with forming := none, outstanding := s.depot.outstanding ++ marked } := hm
      obtain ⟨before, hb⟩ := h.batch
      refine ⟨h.beside.quiet_step q1, ?_, ⟨before ++ marked, ?_⟩, fun hn => ?_⟩
      · show { t.depot with forming := some w1 } = { a.depot with
          forming := some w1, outstanding := t.depot.outstanding }
        rw [hm, h.depot]
      · show t.depot.outstanding = _
        rw [hm, ← List.append_assoc, ← hb]
      · have := h.uploadWork (h.still hn)
        rw [e, hn] at this
        cases this
    · exact h

/-- Both engines' work beside a walk. -/
theorem BesideWalk.kept (a : State) : KeptBeside (BesideWalk a) where
  draws _ n h := h.beside_step ((Beside.refl _).withDraws n)
  engine _ h := h.beside_step (Beside.refl _).engineStep
  upload _ h := h.uploadStep

theorem BesideWalk.settleSlot (u : Holder) (slot : Nat) {x : State × WalkCounts} (h : BesideWalk a x.1) :
    BesideWalk a (State.settleSlot u slot x).1 := h.quiet_step (Quiet.settleSlot u slot (Quiet.refl _))

/-- Coming to one slot of a record walk is work beside both engines. -/
theorem BesideWalk.walkOne (h : BesideWalk a s) (set filter : Byte) (slot : Nat) (w : Walked) :
    BesideWalk a (s.walkOne set filter slot w).2 := by
  have h1 := (BesideWalk.kept a).beside h
  unfold State.walkOne
  dsimp only
  split
  · exact (BesideWalk.kept a).visitBeside (slot := slot) (x := (s.beside, w))
      (visit := fun x => (x.1.walkSlot set slot x.2).swap)
      (fun x hx => hx.quiet_step ((Quiet.refl _).walkSlot set slot x.2)) h1
  · exact h1

/-- A record walk is work beside both engines. -/
theorem BesideWalk.walk (h : BesideWalk a s) (set filter : Byte) (slots : List Nat) (w : Walked) :
    BesideWalk a (s.walk set filter slots w).2 := by
  induction slots generalizing s w with
  | nil => exact h
  | cons slot rest ih =>
    rw [State.walk]
    split
    · exact h
    · exact ih (h.walkOne set filter slot w) _

end Sys2Proof.Machine
end

