-- ==== Sys2Proof/Laws/OkForming.lean ====
section
/-! SUPPORT. The upload engine's forming of a batch, from one record read to the next, keeps the bounds and orders of
`State.Ok`. -/

namespace Sys2Proof.Machine

variable {a s : State}

theorem FormingOk.none {x : Depot} (h : x.forming = Option.none) : FormingOk x := by
  unfold FormingOk; rw [h]; trivial

/-! ### The survey and the marking -/

theorem State.Ok.surveySlot (cursor : Option Key) {x : List Surveyed × State} (h : x.2.Ok) (slot : Nat) :
    (State.surveySlot cursor x slot).2.Ok := (h.takeLine .upload slot).letGo slot

/-- The depot's bounds with another outstanding batch, while the engine is not IDLE and no forming is held. -/
theorem DepotOk.withBatch {x : Depot} (h : DepotOk x) (he : x.engine ≠ .idle) (hf : x.forming = none)
    {batch : List (Nat × Word)} (hb : batch.length ≤ 16) : DepotOk { x with outstanding := batch } :=
  ⟨hb, fun h => absurd h he, h.failures, h.faulted, h.receiver, FormingOk.none hf⟩

theorem State.Ok.markOne {x : List (List Byte) × State} (h : x.2.Ok) (he : x.2.depot.engine ≠ .idle)
    (hf : x.2.depot.forming = none) (hn : x.2.depot.outstanding.length < 16) (k : Surveyed) :
    (State.markOne x k).2.Ok := by
  have ht := h.takeLine .upload k.key.slot
  unfold State.markOne
  dsimp only
  split
  · exact ht.letGo _
  · split
    next r _ =>
      split
      · unfold State.markAndPack
        dsimp only
        have h1 := ht.putRecord k.key.slot
          { r with batch := some (x.2.takeLine .upload k.key.slot).1.depot.batchNumber }
        have hd := (((Quiet.refl x.2).takeLine .upload k.key.slot).putRecord k.key.slot
          { r with batch := some (x.2.takeLine .upload k.key.slot).1.depot.batchNumber }).depot
        refine ((h1.withDepot (h1.depot.withBatch ?_ ?_ ?_)).readExtension _ _ _).letGo _
        · rw [hd]; exact he
        · rw [hd]; exact hf
        · rw [hd, List.length_append, List.length_singleton]; omega
      · exact ht.letGo _
    · exact ht.letGo _

/-! ### The forming of a batch -/

theorem State.Ok.beginOffer (h : s.Ok) (hf : s.depot.forming = none) (last : Option Key)
    (packed : List (List Byte)) : (s.beginOffer last packed).Ok := by
  have h1 := h.withDepot (x := { s.depot with cursor := last })
    ⟨h.depot.batch, h.depot.idle, h.depot.failures, h.depot.faulted, h.depot.receiver, FormingOk.none hf⟩
  unfold State.beginOffer
  dsimp only
  split
  · exact h1
  · exact h1.withDepot ⟨h1.depot.batch, h1.depot.idle, h1.depot.failures, h1.depot.faulted,
      (by show ([] : List Byte).length < 8; simp), FormingOk.none hf⟩

theorem State.Ok.finishUpload (h : s.Ok) (hb : s.depot.outstanding = []) (hf : s.depot.forming = none) :
    s.finishUpload.Ok :=
  State.Ok.returnIfBare ((h.withDepot (x := { s.depot with engine := .idle })
    ⟨h.depot.batch, fun _ => hb, h.depot.failures, fun _ => rfl, h.depot.receiver, FormingOk.none hf⟩).raise _)

/-- The forming has got to `w` in a state that keeps the bounds, and so does the state that holds it. -/
structure State.Midway (w : Forming) (s : State) : Prop where
  ok : s.Ok
  forming : s.depot.forming = none
  held : FormingOk { s.depot with forming := some w }

theorem State.Midway.hold {w : Forming} (h : s.Midway w) :
    (s.withDepot { s.depot with forming := some w }).Ok :=
  h.ok.withDepot ⟨h.ok.depot.batch, h.ok.depot.idle, h.ok.depot.failures, h.ok.depot.faulted, h.ok.depot.receiver,
    h.held⟩

theorem State.Midway.drew {w : Forming} (h : s.Midway w) (n : Nat) : (s.withDraws n).Midway w :=
  ⟨h.ok.withDraws n, h.forming, h.held⟩

/-- One record read, or the end of a class or of the marking: the bounds stand, and so does the forming (R152). -/
theorem State.Midway.formRead {w : Forming} (h : s.Midway w) :
    (s.formRead w).2.Ok ∧ ∀ w1, (s.formRead w).1 = some w1 → (s.formRead w).2.Midway w1 := by
  have survey : ∀ again status next kept (t : State), Quiet s t → t.Ok →
      FormingOk { s.depot with forming := some (.surveying again status next kept) } →
      ∀ a' c' n' k', t.Midway (.surveying a' c' n' k') := fun _ _ _ _ t hq ht hw _ _ _ _ =>
    ⟨ht, hq.depot ▸ h.forming, by rw [hq.depot]; exact hw⟩
  unfold State.formRead
  split
  next again status next kept =>
    have hw := h.held
    split
    next e _ =>
      have ho := State.Ok.surveySlot (if again = true then none else s.depot.cursor) (x := (kept, s)) h.ok e.1
      have hq := Quiet.surveySlot (if again = true then none else s.depot.cursor) (x := (kept, s)) (Quiet.refl s) e.1
      refine ⟨ho, fun w1 hw1 => ?_⟩
      cases hw1
      exact survey _ _ _ _ _ hq ho hw _ _ _ _
    · unfold State.endClass
      dsimp only
      split
      · refine ⟨h.ok, fun w1 hw1 => ?_⟩
        cases hw1
        exact survey _ _ _ _ s (Quiet.refl s) h.ok hw _ _ _ _
      · split
        · split
          · exact ⟨h.ok.finishUpload hw.2.2 h.forming, fun w1 hw1 => nomatch hw1⟩
          · refine ⟨h.ok, fun w1 hw1 => ?_⟩
            cases hw1
            exact survey _ _ _ _ s (Quiet.refl s) h.ok hw _ _ _ _
        · refine ⟨h.ok, fun w1 hw1 => ?_⟩
          cases hw1
          have ho : s.depot.outstanding = [] := hw.2.2
          have he : s.depot.engine = .running := hw.2.1
          refine ⟨h.ok, h.forming, hw.1, ?_, ?_, ?_⟩
          · show s.depot.engine ≠ _; rw [he]; simp
          · show ([] : List (List Byte)).length = s.depot.outstanding.length; rw [ho]; rfl
          · show s.depot.outstanding.length + (kept.take Config.batchRecords).length ≤ 16
            rw [ho]; simp [Config.batchRecords]
  next last k todo packed =>
    obtain ⟨hl, he, hp, hn⟩ := h.held
    have hn : s.depot.outstanding.length + (todo.length + 1) ≤ 16 := hn
    have hp : packed.length = s.depot.outstanding.length := hp
    have ho := State.Ok.markOne (x := (packed, s)) h.ok he h.forming (by show s.depot.outstanding.length < 16; omega) k
    refine ⟨ho, fun w1 hw1 => ?_⟩
    cases hw1
    rcases State.markOne_cases packed s k with ⟨h1, h2⟩ | ⟨bytes, e, h1, h2⟩
    · exact ⟨ho, by rw [h2]; exact h.forming, by
        show FormingOk { (State.markOne (packed, s) k).2.depot with
          forming := some (.marking last todo (State.markOne (packed, s) k).1) }
        rw [h1, h2]
        exact ⟨hl, he, hp, by show s.depot.outstanding.length + todo.length ≤ 16; omega⟩⟩
    · exact ⟨ho, by rw [h2]; exact h.forming, by
        show FormingOk { (State.markOne (packed, s) k).2.depot with
          forming := some (.marking last todo (State.markOne (packed, s) k).1) }
        rw [h1, h2]
        refine ⟨hl, he, ?_, ?_⟩
        · show (packed ++ [bytes]).length = (s.depot.outstanding ++ [e]).length
          rw [List.length_append, List.length_append, hp]; rfl
        · show (s.depot.outstanding ++ [e]).length + todo.length ≤ 16
          rw [List.length_append, List.length_singleton]; omega⟩
  next last packed => exact ⟨h.ok.beginOffer h.forming _ _, fun w1 hw1 => nomatch hw1⟩

/-- When the engine works on a batch, and how far that has got. -/
theorem State.Ok.midway (h : s.Ok) (hm : s.mayForm = true) :
    (s.withDepot { s.depot with forming := none }).Midway
      (s.depot.forming.getD Forming.start) := by
  simp only [State.mayForm, Bool.and_eq_true, beq_iff_eq] at hm
  refine ⟨h.withDepot ⟨h.depot.batch, h.depot.idle, h.depot.failures, h.depot.faulted, h.depot.receiver,
    FormingOk.none rfl⟩, rfl, ?_⟩
  have hf := h.depot.forming
  cases e : s.depot.forming with
  | none =>
    rw [e] at hm
    have hm2 : (s.depot.engine == .running && s.depot.outstanding.isEmpty) = true := hm.2
    rw [Bool.and_eq_true, beq_iff_eq, List.isEmpty_iff] at hm2
    exact ⟨hm.1.2, hm2.1, hm2.2⟩
  | some w =>
    unfold FormingOk at hf
    rw [e] at hf
    exact hf

/-- What the upload engine has to work on beside a walk is the forming it has got to, or a survey not begun. -/
theorem State.uploadWork_some {w : Forming} (h : s.uploadWork = some w) :
    s.mayForm = true ∧ w = s.depot.forming.getD Forming.start := by
  unfold State.uploadWork at h
  split_ifs at h with hm
  refine ⟨hm, ?_⟩
  cases e : s.depot.forming with
  | some w1 => rw [e] at h; simpa using h.symm
  | none =>
    rw [e] at h
    split at h
    next h1 => cases h1
    · simpa using h.symm
    · cases h

/-- A record read of the upload engine beside a walk. -/
theorem State.Ok.uploadStep (h : s.Ok) : s.uploadStep.Ok := by
  cases e : s.uploadWork with
  | none => unfold State.uploadStep; rw [e]; exact h
  | some w =>
    obtain ⟨hm, rfl⟩ := State.uploadWork_some e
    unfold State.uploadStep State.uploadRead
    rw [e]
    dsimp only
    have h1 := (h.midway hm).formRead
    split
    next hr => rw [hr] at h1; exact (h1.2 _ rfl).hold
    · exact h

end Sys2Proof.Machine
end

