-- ==== Sys2Proof/Laws/OkCommands.lean ====
section
/-! SUPPORT. Reports, the engines beside a walk, and the meanings of the commands on ports, frames and segments keep the bounds and orders of `State.Ok`. -/

namespace Sys2Proof.Machine

variable {s : State}

/-- An outcome's next state, if it has one, keeps the bounds. -/
def resultOk (r : Result) : Prop := ∀ t, r = .next t → t.Ok

theorem resultOk_next {t : State} (h : t.Ok) : resultOk (.next t) := by
  intro u hu; cases hu; exact h

theorem resultOk_ite {c : Prop} [Decidable c] {a b : Result} (ha : resultOk a) (hb : resultOk b) :
    resultOk (if c then a else b) := by split_ifs <;> assumption

/-! ### Lengths of fields -/

@[simp] theorem halfBytes_length (x : Half) : (halfBytes x).length = 2 := rfl
@[simp] theorem natHalf_length (n : Nat) : (natHalf n).length = 2 := rfl
@[simp] theorem wordBytes_length (x : Word) : (wordBytes x).length = 4 := rfl
@[simp] theorem zeros_length (n : Nat) : (zeros n).length = n := by simp [zeros]
@[simp] theorem eventBytes_length (x : BitVec 10) : (eventBytes x).length = 2 := rfl
@[simp] theorem WalkCounts.bytes_length (x : WalkCounts) : x.bytes.length = 6 := rfl
@[simp] theorem Header.bytes_length (x : Header) : x.bytes.length = 32 := rfl
@[simp] theorem headerBytes_length (x : Option Header) : (headerBytes x).length = 32 := by
  cases x <;> simp [headerBytes]
@[simp] theorem optWordBytes_length (x : Option Word) : (optWordBytes x).length = 5 := by
  cases x <;> simp [optWordBytes]
@[simp] theorem optByteBytes_length (x : Option Byte) : (optByteBytes x).length = 2 := by
  cases x <;> rfl
@[simp] theorem readingBytes_length (x : Option Reading) : (readingBytes x).length = 16 := by
  cases x <;> simp [readingBytes]
@[simp] theorem TamperEntry.bytes_length (x : TamperEntry) : x.bytes.length = 13 := by
  simp [TamperEntry.bytes]
@[simp] theorem Port.statusBytes_length (x : Port) : x.statusBytes.length = 11 := by
  simp [Port.statusBytes]
@[simp] theorem Record.lookupBytes_length (r : Record) (slot blocks : Nat) :
    (r.lookupBytes slot blocks).length = 75 := by
  delta Record.lookupBytes
  repeat rw [List.length_append]
  rw [halfBytes_length, natHalf_length, wordBytes_length, wordBytes_length, halfBytes_length,
    halfBytes_length, optByteBytes_length, readingBytes_length, readingBytes_length, optWordBytes_length,
    halfBytes_length, optWordBytes_length, optByteBytes_length, optByteBytes_length]
  rfl
@[simp] theorem faultLookupBytes_length (slot : Nat) (serial : Word) (segment : Option Seg) :
    (faultLookupBytes slot serial segment).length = 75 := by
  simp only [faultLookupBytes, List.length_append, natHalf_length, wordBytes_length, zeros_length,
    List.length_cons, List.length_nil]
@[simp] theorem Record.walkBytes_length (r : Record) (slot : Nat) : (r.walkBytes slot).length = 24 := by
  simp [Record.walkBytes]
@[simp] theorem faultWalkBytes_length (slot : Nat) (serial : Word) (segment : Option Seg) :
    (faultWalkBytes slot serial segment).length = 24 := by
  simp only [faultWalkBytes, List.length_append, natHalf_length, wordBytes_length, zeros_length,
    List.length_cons, List.length_nil]
@[simp] theorem resumeBytes_length (x : Option Nat) : (resumeBytes x).length = 2 := by
  cases x <;> simp [resumeBytes]; split_ifs <;> rfl

theorem flatMap_length {α : Type} {f : α → List Byte} {n : Nat} (h : ∀ x, (f x).length = n) (l : List α) :
    (l.flatMap f).length = l.length * n := by
  induction l with
  | nil => simp
  | cons x l ih => simp [ih, h, Nat.succ_mul, Nat.add_comm]

theorem extensionBytes_length (note : List Byte) (values : List Half) :
    (extensionBytes note values).length = 2 + note.length + 2 * values.length := by
  simp only [extensionBytes, List.cons_append, List.length_cons, List.length_append]
  rw [flatMap_length halfBytes_length]
  omega

/-! ### Blocks and chains read -/

@[simp] theorem halvesAt_length (bs : List Byte) (i n : Nat) : (halvesAt bs i n).length = n := by
  induction n generalizing i with
  | zero => rfl
  | succ n ih => simp [halvesAt, ih]

/-- A good block holds at most 24 characters or 6 values (R175). -/
theorem Block.ofBytes_size {bs : List Byte} {b : Block} (h : Block.ofBytes bs = some b) :
    match b with
    | .note _ text => text.length ≤ 24
    | .interval _ values => values.length ≤ 6 := by
  unfold Block.ofBytes at h
  dsimp only at h
  split_ifs at h with h1 h2 h3
  · cases h; simp; omega
  · cases h; simp; omega

/-- What a chain read gives is at most 24 characters and the values of at most two blocks (R10). -/
theorem Memory.readChain_size (m : Memory) (bs : List Nat) (position intervals : Nat) :
    (m.readChain bs position intervals).note.length ≤ 24 ∧
    (0 < position → (m.readChain bs position intervals).note = []) ∧
    (m.readChain bs position intervals).values.length ≤ 6 * (2 - intervals) := by
  induction bs generalizing position intervals with
  | nil => simp [Memory.readChain]
  | cons b bs ih =>
    rw [Memory.readChain]
    split
    next next text hb =>
      have := Block.ofBytes_size hb
      have i1 := ih 1 intervals
      split_ifs with hp
      · exact ⟨this, fun h => by omega, i1.2.2⟩
      · simp
    next next values hb =>
      have := Block.ofBytes_size hb
      have i1 := ih (position + 1) (intervals + 1)
      split_ifs with hp
      · refine ⟨i1.1, fun _ => i1.2.1 (by omega), ?_⟩
        simp only [List.length_append]
        have := i1.2.2
        simp only at *
        omega
      · simp
    · simp

theorem State.readExtension_size (u : Holder) (slot : Nat) (r : Record) (s : State) :
    (s.readExtension u slot r).2.note.length ≤ 24 ∧ (s.readExtension u slot r).2.values.length ≤ 12 := by
  have := Memory.readChain_size s.mem ((s.chain slot).map (·.1)) 0 0
  exact ⟨this.1, this.2.2⟩

/-! ### Reports (R58, R147) -/

/-- A report has as many values as its row of R173 names, each of its size. -/
theorem State.values_sizes (s : State) (r : Report) : (s.values r).map List.length = r.sizes := by
  cases r with
  | ports =>
    show (s.ports.toList.map Port.statusBytes).map List.length = List.replicate 4 11
    rw [List.map_map]
    refine List.eq_replicate_iff.2 ⟨by simp, fun n hn => ?_⟩
    obtain ⟨x, _, rfl⟩ := List.mem_map.1 hn
    exact x.statusBytes_length
  | route => simp [State.values, State.routeValues, Report.sizes]

theorem Report.sizes_length (r : Report) : r.sizes.length = r.size := by cases r <;> rfl

theorem Report.sizes_sum (r : Report) : r.sizes.sum ≤ 198 := by cases r <;> decide

/-- The values read before the next one and that one have the bytes of the values up to it. -/
theorem State.value_length (s : State) {r : Report} {k : Nat} (h : k < r.size) :
    (r.sizes.take k).sum + (s.value r k).length = (r.sizes.take (k + 1)).sum := by
  have hk : k < r.sizes.length := by rw [r.sizes_length]; exact h
  have hv : (s.value r k).length = r.sizes[k] := by
    have h1 : k < (s.values r).length := by
      rw [← List.length_map (f := List.length), s.values_sizes]; exact hk
    unfold State.value
    simp only [← s.values_sizes r, List.getElem_map, List.getD_eq_getElem _ _ h1]
  rw [List.take_add_one, List.getElem?_eq_getElem hk, hv, List.sum_append]
  simp

theorem Report.valuesFrom_cons {r : Report} {k : Nat} (h : k < r.size) :
    r.valuesFrom k = k :: r.valuesFrom (k + 1) := by
  unfold Report.valuesFrom
  rw [List.drop_eq_getElem_cons (by simpa using h), List.getElem_range]

theorem Report.valuesFrom_nil {r : Report} {k : Nat} (h : r.size ≤ k) : r.valuesFrom k = [] :=
  List.drop_eq_nil_of_le (by simpa using h)

/-- A report that has read the whole of each value before the next keeps the bounds to its end. -/
theorem State.Ok.reportOn (h : s.Ok) (r : Report) (n : Nat) {k : Nat} {data : List Byte} (hn : r.size ≤ k + n)
    (hd : data.length = (r.sizes.take k).sum) : (State.reportOn r (r.valuesFrom k) data s).Ok := by
  induction n generalizing s k data with
  | zero =>
    rw [Report.valuesFrom_nil (by omega)]
    refine h.respond _ ?_
    rw [hd, List.take_of_length_le (by rw [r.sizes_length]; omega)]
    exact r.sizes_sum
  | succ n ih =>
    rcases Nat.lt_or_ge k r.size with hk | hk
    · rw [Report.valuesFrom_cons hk, State.reportOn]
      have h1 := State.roadMeets_keeps (P := State.Ok) (fun _ n h => h.withDraws n) h
      split_ifs
      · refine h1.withCommand ⟨(fun e => nomatch e), fun _ => rfl, fun w e => ?_⟩
        cases e
        exact ⟨hk, hd⟩
      · refine ih h1 (by omega) ?_
        rw [List.length_append, hd]
        exact State.value_length _ hk
    · rw [Report.valuesFrom_nil hk]
      refine h.respond _ ?_
      rw [hd, List.take_of_length_le (by rw [r.sizes_length]; omega)]
      exact r.sizes_sum

theorem State.Ok.reportAll (h : s.Ok) (r : Report) : (s.reportAll r).Ok := by
  have h0 : 0 < r.size := by cases r <;> decide
  refine h.written.reportOn r r.size (by omega) ?_
  rw [← State.value_length s h0]
  simp

theorem State.Ok.goOnReport (h : s.Ok) : s.goOnReport.Ok := by
  unfold State.goOnReport
  split
  next w e => exact h.reportOn w.report w.report.size (by omega) (h.command.reporting w e).2
  · exact h

/-! ### The ports -/

theorem PortsOk.set {ports : Vector Port 4} (h : PortsOk ports) (p : Fin 4) {x : Port}
    (hx : x.buffer.length ≤ 2) : PortsOk (ports.set p.val x) := by
  intro k
  have hk := h k
  simp only [Vector.get_eq_getElem] at *
  rw [Vector.getElem_set]
  split_ifs <;> assumption

theorem State.Ok.setPort (h : s.Ok) (p : Fin 4) {x : Port} (hx : x.buffer.length ≤ 2) :
    (s.setPort p x).Ok := h.withPorts (h.ports.set p hx)

theorem State.Ok.port (h : s.Ok) (p : Fin 4) : (s.port p).buffer.length ≤ 2 := h.ports p

theorem Port.take_buffer {x : Port} (h : x.buffer.length ≤ 2) (p : Fin 4) (clock : Word) (b : Byte) :
    (x.take p clock b).1.buffer.length ≤ 2 := by
  unfold Port.take
  dsimp only
  split_ifs <;> try exact h
  unfold Port.accept
  split_ifs
  · simp only [List.length_append, List.length_singleton]; omega
  · exact h

theorem execPortByte_ok (h : s.Ok) (p : Fin 4) (b : Byte) : resultOk (execPortByte p b s) := by
  refine resultOk_ite (resultOk_next h) (resultOk_next (State.Ok.goOnReport ?_))
  have h1 := h.setPort p (Port.take_buffer (h.port p) p s.route.clock b)
  exact State.ok_ite h (State.ok_ite (h1.raise _) h1)

theorem execByteGapTimeout_ok (h : s.Ok) (p : Fin 4) : resultOk (execByteGapTimeout p s) :=
  resultOk_ite (resultOk_next h)
    (resultOk_next (State.ok_ite h (h.setPort p (x := (s.port p).damage) (h.port p))).goOnReport)

theorem execPortMode_ok (h : s.Ok) (port mode : Byte) : resultOk (execPortMode port mode s) := by
  refine resultOk_next (h.serve _ fun _ => ?_)
  split
  · exact (h.setPort _ (by simp)).reply _ (by simp)
  · exact h.refuse _

theorem State.Ok.executing (h : s.Ok) (hu : s.command.unit ≠ .responding) {x : Held}
    (hx : ∀ w, x ≠ .reporting w) : (s.executing x).Ok :=
  h.withCommand ⟨(fun e => nomatch e), (fun _ => h.command.empty hu),
    fun w e => absurd (by cases e; rfl) (hx w)⟩

theorem execPortReset_ok (h : s.Ok) (port : Byte) : resultOk (execPortReset port s) := by
  refine resultOk_next (h.serve _ fun hu => ?_)
  split
  · refine (h.setPort _ (by simp)).executing ?_ fun _ e => nomatch e
    show s.command.unit ≠ _
    rw [hu]; simp
  · exact h.refuse _

theorem execResetPulseEnd_ok (h : s.Ok) : resultOk (execResetPulseEnd s) := by
  unfold execResetPulseEnd
  split
  next p _ _ => exact resultOk_next ((h.setPort p (x := { s.port p with pulsing := false }) (h.port p)).respond _
    (by simp))
  · exact resultOk_next h

theorem execPortStatus_ok (h : s.Ok) : resultOk (execPortStatus s) :=
  resultOk_next (h.serve _ fun _ => h.reportAll .ports)

/-! ### Frames -/

theorem State.Ok.keepEntry (h : s.Ok) (e : MatchEntry) : (s.keepEntry e).Ok := by
  refine h.withMatching ⟨by simp [Config.bufferEntries], ?_⟩
  simp only [List.map_take]
  refine (List.take_sublist _ _).nodup ?_
  rw [List.map_cons, List.nodup_cons]
  refine ⟨?_, h.matching.serials.sublist (List.filter_sublist.map _)⟩
  simp

theorem State.Ok.resolveByIndex (h : s.Ok) (serial : Word) : (s.resolveByIndex serial).2.Ok := by
  unfold State.resolveByIndex
  dsimp only
  split
  · exact (h.grants _ _).keepEntry _
  · exact h.grants .matching _

theorem State.Ok.resolve (h : s.Ok) (serial : Word) : (s.resolve serial).2.Ok := by
  unfold State.resolve
  split
  · exact h.keepEntry _
  · exact h.resolveByIndex _

theorem State.Ok.noteReading (h : s.Ok) (slot : Nat) (f : Frame) : (s.noteReading slot f).Ok := by
  refine h.withMatching ⟨by simpa using h.matching.size, ?_⟩
  rw [List.map_map]
  rw [show s.matching.buffer.map _ = s.matching.buffer.map (·.serial) from
    List.map_congr_left fun e _ => by simp only [Function.comp]; split_ifs <;> rfl]
  exact h.matching.serials

theorem State.Ok.sameBuffer (h : s.Ok) {x : Matching} (hx : x.buffer = s.matching.buffer) :
    (s.withMatching x).Ok := h.withMatching ⟨hx ▸ h.matching.size, hx ▸ h.matching.serials⟩

theorem State.Ok.countStranger (h : s.Ok) : s.countStranger.Ok := h.sameBuffer rfl

theorem State.Ok.passGate (h : s.Ok) (f : Frame) : (s.passGate f).Ok := by
  have := h.resolve f.serial
  unfold State.passGate
  split
  next hr => rw [hr] at this; exact State.Ok.sameBuffer this rfl
  next hr => rw [hr] at this; exact State.Ok.countStranger this

theorem State.Ok.takeHead (h : s.Ok) {p : Fin 4} {f : Frame} {rest : List Frame}
    (hb : (s.port p).buffer = f :: rest) : (s.takeHead p rest).Ok := by
  have hl : rest.length ≤ 2 := by have := h.port p; rw [hb, List.length_cons] at this; omega
  exact (h.setPort p (x := { s.port p with buffer := rest }) hl).sameBuffer rfl

theorem State.Ok.takeFrame (h : s.Ok) : s.takeFrame.Ok := by
  unfold State.takeFrame
  split
  · exact h
  next p _ =>
    split
    · exact h
    next f rest hb =>
      have h1 := h.takeHead hb
      exact State.ok_ite (h1.passGate f) (h1.sameBuffer rfl)

theorem execFrameTake_ok (h : s.Ok) : resultOk (execFrameTake s) :=
  resultOk_ite (resultOk_next h) (resultOk_next (State.ok_ite h h.takeFrame).goOnReport)

theorem State.Ok.countFaultHit (h : s.Ok) (slot : Nat) : (s.countFaultHit slot).Ok :=
  ((h.forget slot).letGo slot).sameBuffer rfl

theorem State.Ok.reportFrame (h : s.Ok) (slot : Nat) (old new : Record) :
    (s.reportFrame slot old new).Ok :=
  State.ok_ite (State.ok_ite (h.flaggedReport _ _) (State.ok_ite (h.risenReport _ _) h)) h

theorem State.Ok.writeIntervals (h : s.Ok) (u : Holder) (bs : List Nat) (values : List Half) :
    (State.writeIntervals u bs values s).Ok := by
  induction bs generalizing s values with
  | nil => exact h
  | cons b bs ih => exact ih (h.writeBlock _ _ _) _

theorem State.Ok.freeIntervals (h : s.Ok) (slot : Nat) : (s.freeIntervals slot).Ok :=
  (h.freeChain _).setChain slot fun b hb => h.chain_lt slot b (List.mem_of_mem_filter hb)

theorem State.Ok.chainBlock (h : s.Ok) (slot : Nat) {b : Nat} (hb : s.lowestFreeBlock = some b) :
    (s.chainBlock slot b).Ok :=
  (h.useBlock (s.lowestFreeBlock_lt hb)).setChain slot fun x hx => by
    rcases List.mem_append.1 hx with hx | hx
    · exact h.chain_lt slot x hx
    · rw [List.mem_singleton.1 hx]; exact s.lowestFreeBlock_lt hb

theorem State.Ok.storeIntervals (h : s.Ok) (u : Holder) (slot : Nat) (values : List Half) (r : Record) :
    (s.storeIntervals u slot values r).Ok := by
  have h2 := h.writeIntervals u (((s.chain slot).filter fun b => b.2 == .interval).map (·.1)) values
  unfold State.storeIntervals
  dsimp only
  have h3 : ∀ x : State, x.Ok → ∀ c : Prop, ∀ [Decidable c], (if c then x.raise .poolEmpty else x).Ok :=
    fun x hx c _ => State.ok_ite (hx.raise _) hx
  refine h3 _ (State.Ok.putRecord ?_ _ _) _
  split
  · exact h2
  · exact h2.relink _ _ _

theorem State.Ok.endFrame (h : s.Ok) (f : Frame) (slot : Nat) (applied duplicate : Bool) :
    (s.endFrame f slot applied duplicate).Ok :=
  ((State.ok_ite (h.noteReading slot f) h).letGo slot).sameBuffer rfl

theorem State.Ok.replaceOn (h : s.Ok) (met : Bool) (f : Frame) (slot : Nat) (r : Record) (n : Nat) :
    (State.replaceOn met f slot r n s).Ok :=
  State.replaceOn_keeps (fun _ _ h => h.withDraws _) (fun _ h => h.sameBuffer rfl)
    (fun _ _ hb h => h.chainBlock slot hb) (fun _ h => (h.storeIntervals _ _ _ _).endFrame _ _ _ _) h met n

theorem State.Ok.applyFrame (h : s.Ok) (met : Bool) (f : Frame) (slot : Nat) (r : Record) :
    (s.applyFrame met f slot r).Ok := by
  unfold State.applyFrame
  dsimp only
  generalize r.matchFrame s.params (s.assessment.getD Assessment.blank) (s.matchEntry f.serial) f = m
  have h1 := (h.putRecord slot m.record).reportFrame slot r m.record
  exact State.ok_ite ((h1.freeIntervals slot).replaceOn _ _ _ _ _) (h1.endFrame _ _ _ _)

theorem State.Ok.workFrame (h : s.Ok) (met : Bool) (f : Frame) (slot : Nat) : (s.workFrame met f slot).Ok := by
  unfold State.workFrame
  split
  · exact h.applyFrame _ _ _ _
  · exact h.countFaultHit _

theorem State.Ok.goOnReplacing (h : s.Ok) (met : Bool) (f : Frame) (slot : Nat) :
    (s.goOnReplacing met f slot).Ok := by
  unfold State.goOnReplacing
  dsimp only
  split
  · exact h.replaceOn _ _ _ _ _
  · exact h.endFrame _ _ _ _

theorem State.Ok.matchOn (h : s.Ok) (met : Bool) : (s.matchOn met).Ok := by
  unfold State.matchOn
  split
  · exact h
  · exact h.goOnReplacing _ _ _
  next f slot _ =>
    have h1 := h.takeLine .matching slot
    refine State.ok_ite (h1.workFrame _ _ _) ?_
    have h2 := (h1.letGo slot).resolveByIndex f.serial
    split
    next hr => rw [hr] at h2; exact State.Ok.countStranger h2
    next hr =>
      rw [hr] at h2
      have h3 := State.Ok.takeLine h2 .matching (by assumption)
      exact State.ok_ite (h3.workFrame _ _ _) (h3.letGo _).countStranger

theorem State.Ok.finishFrame (h : s.Ok) : s.finishFrame.Ok := h.matchOn false

theorem State.Ok.goOnFrame (h : s.Ok) : s.goOnFrame.Ok := by
  unfold State.goOnFrame
  split
  · exact h.goOnReplacing _ _ _
  · exact h

theorem execFrameMatch_ok (h : s.Ok) : resultOk (execFrameMatch s) :=
  resultOk_ite (resultOk_next h) (resultOk_next (h.matchOn true).goOnReport)

/-! ### Segments -/

theorem State.Ok.settleSlot (u : Holder) (slot : Nat) {x : State × WalkCounts} (h : x.1.Ok) :
    (State.settleSlot u slot x).1.Ok := by
  have h1 := h.takeLine u slot
  unfold State.settleSlot
  dsimp only
  split_ifs
  · exact h1.letGo _
  · split
    · split
      · exact (h1.putRecord _ _).letGo _
      · exact ((h1.putRecord _ _).flaggedReport _ _).letGo _
      · exact h1.letGo _
    · exact h1.letGo _

theorem State.ok_foldl_fst {α β : Type} {f : State × β → α → State × β}
    (hf : ∀ x a, x.1.Ok → (f x a).1.Ok) (l : List α) {x : State × β} (h : x.1.Ok) :
    (l.foldl f x).1.Ok := by
  induction l generalizing x with
  | nil => exact h
  | cons a l ih => exact ih (hf x a h)

theorem State.Ok.engineStep (h : s.Ok) : s.engineStep.Ok := State.ok_ite h.finishFrame h.takeFrame

/-- The engines' work beside a walk. -/
theorem State.Ok.kept : KeptBeside State.Ok where
  draws _ _ h := h.withDraws _
  engine _ h := h.engineStep
  upload _ h := h.uploadStep

theorem State.Ok.beside (h : s.Ok) : s.beside.Ok := State.Ok.kept.beside h

theorem State.Ok.visitBeside {α : Type} (slot : Nat) {visit : State × α → State × α} {x : State × α}
    (hv : ∀ x, x.1.Ok → (visit x).1.Ok) (h : x.1.Ok) : (State.visitBeside slot visit x).1.Ok :=
  State.Ok.kept.visitBeside hv h

theorem State.Ok.leaving (h : s.Ok) (n : Option Seg) :
    (s.withSegments { s.segments with leaving := n }).Ok :=
  h.withSegments ⟨h.segments.redrives, h.segments.plan⟩

theorem State.Ok.leaveWalk (h : s.Ok) (u : Holder) (n : Seg) : (s.leaveWalk u n).1.Ok :=
  (State.ok_foldl_fst (fun _ slot h => State.Ok.settleSlot u slot h) (s.slotsOf n) (x := (_, WalkCounts.none))
    (h.leaving _)).leaving _

theorem State.Ok.settleLeft (h : s.Ok) (n : Seg) : (s.settleLeft n).Ok := by
  have hr : min 7 ((s.segment n).redrive + 1) ≤ 7 := Nat.min_le_left _ _
  refine State.Ok.setDwell (State.Ok.putActive (State.ok_ite ?_ (State.ok_ite ?_ ?_)) _) _
  · exact ((h.putSegment n (e := { s.segment n with state := .complete }) (h.redrive n)).putPlan
      (h.nodup_without n)).raise _
  · exact (h.putSegment n hr).putPlan (h.nodup_without n)
  · exact (h.putSegment n hr).putPlan (h.nodup_insert _ n)

theorem State.Ok.leave (h : s.Ok) (u : Holder) (n : Seg) : (s.leave u n).1.Ok := (h.leaveWalk u n).settleLeft n

theorem planByNumber_perm (n : Seg) (plan : List Seg) : (planByNumber n plan).Perm (n :: plan) := by
  induction plan with
  | nil => rfl
  | cons k ks ih =>
    rw [planByNumber]
    split_ifs
    · rfl
    · exact (ih.cons k).trans (List.Perm.swap n k ks)

theorem State.Ok.define (h : s.Ok) (n : Seg) (base limit dwell : Half) :
    (s.define n base limit dwell).Ok := by
  unfold State.define
  dsimp only
  have hr := h.redrive n
  split
  · exact State.Ok.putPlan (State.Ok.putSegment h n (by exact hr)) ((planByNumber_perm _ _).nodup_iff.2
      (List.nodup_cons.2 ⟨not_mem_planWithout _ _, h.nodup_without n⟩))
  · exact State.Ok.putPlan (State.Ok.putSegment h n (by exact hr)) (h.nodup_without n)
  · exact State.Ok.putSegment h n (by exact hr)

theorem execSegmentDefine_ok (h : s.Ok) (segment : Byte) (base limit dwell : Half) :
    resultOk (execSegmentDefine segment base limit dwell s) := by
  refine resultOk_next (h.serve _ fun _ => State.ok_ite (h.refuse _) ?_)
  split
  · exact h.refuse _
  · exact State.ok_ite (h.refuse _) (State.ok_ite (h.refuse _) ((h.define _ _ _ _).reply _ (by simp)))

theorem State.Ok.enter (h : s.Ok) (n : Seg) : (s.enter n).Ok := by
  have hr := h.redrive n
  have key := ((((h.putSegment n (e := { s.segment n with
    state := .active, visited := true, overrun := false, entryTime := some s.route.clock }) hr).putPlan
      (h.nodup_without n)).putActive (some n)).setDwell
        (if 0 < (s.segment n).dwell.toNat then
          some (s.route.clock.toNat + (s.segment n).dwell.toNat) else none))
  unfold State.enter
  dsimp only
  split
  · exact key
  · exact key
  · exact key
  · exact h

theorem State.Ok.left (n : Seg) (entering : Option Seg) {x : State × WalkCounts} (h : x.1.Ok) :
    (State.left n entering x).Ok := by
  have h1 := (h.leaving none).settleLeft n
  unfold State.left
  dsimp only
  split
  · exact h1.reply _ (by simp [WalkCounts.bytes])
  · exact (h1.enter _).reply _ (by simp [WalkCounts.bytes])

theorem State.Ok.holdWalk (h : s.Ok) (w : Leaving) : (s.holdWalk w).Ok :=
  h.withCommand ⟨(fun e => nomatch e), fun _ => rfl, fun _ e => nomatch e⟩

theorem State.Ok.leaveFrom (h : s.Ok) (n : Seg) (entering : Option Seg) : (s.leaveFrom n entering).Ok :=
  State.Ok.kept.leaveOn
    (fun _ _ h => h.holdWalk _) (fun _ h => State.Ok.left _ _ h) _
    (fun slot _ _ h => State.Ok.settleSlot .command slot h) (h.leaving _)

theorem State.Ok.goOnLeaving (h : s.Ok) : s.goOnLeaving.Ok :=
  State.Ok.kept.goOnLeaving
    (fun _ _ h => h.holdWalk _) (fun _ _ _ h => State.Ok.left _ _ h)
    (fun _ slot _ _ h => State.Ok.settleSlot .command slot h) h

theorem execSegmentEnter_ok (h : s.Ok) (segment : Byte) : resultOk (execSegmentEnter segment s) := by
  refine resultOk_next (h.serve _ fun _ => State.ok_ite (h.refuse _) ?_)
  split
  · exact h.refuse _
  · refine State.ok_ite (h.refuse _) (State.ok_ite (h.reply _ (by simp [WalkCounts.bytes])) ?_)
    split
    · exact (h.enter _).reply _ (by simp [WalkCounts.bytes])
    · exact h.leaveFrom _ _

theorem execSegmentLeave_ok (h : s.Ok) : resultOk (execSegmentLeave s) := by
  refine resultOk_next (h.serve _ fun _ => State.ok_ite (h.refuse _) ?_)
  split
  · exact h.reply _ (by simp [WalkCounts.bytes])
  · exact h.leaveFrom _ _

theorem execSegmentStatus_ok (h : s.Ok) (segment : Byte) : resultOk (execSegmentStatus segment s) := by
  refine resultOk_next (h.serve _ fun _ => ?_)
  split
  · exact h.refuse _
  · exact h.reply _ (by simp)

theorem execPlanRead_ok (h : s.Ok) : resultOk (execPlanRead s) := by
  refine resultOk_next (h.serve _ fun _ => h.reply _ ?_)
  simp only [List.length_append, List.length_cons, List.length_nil]
  rw [flatMap_length (n := 4) fun n => rfl, List.length_take]
  omega

theorem execPlanMove_ok (h : s.Ok) (segment position : Byte) :
    resultOk (execPlanMove segment position s) := by
  refine resultOk_next (h.serve _ fun _ => State.ok_ite (h.refuse _) ?_)
  split
  · exact h.refuse _
  · dsimp only
    split
    · exact (h.putPlan (h.nodup_insert _ _)).reply _ (by simp)
    · exact (h.putPlan (h.nodup_insert _ _)).reply _ (by simp)
    · exact ((h.putSegment _ (by simp)).putPlan (h.nodup_insert _ _)).reply _ (by simp)
    · exact h.refuse _

theorem State.Ok.dwellExpired (h : s.Ok) : s.dwellExpired.Ok := by
  unfold State.dwellExpired
  split
  · exact h
  · refine State.ok_ite h ?_
    split
    next n _ => exact ((h.putSegment n (e := { s.segment n with overrun := true }) (h.redrive n)).raise _).setDwell _
    · exact (h.raise _).setDwell _

theorem execDwellCompareExpire_ok (h : s.Ok) : resultOk (execDwellCompareExpire s) :=
  resultOk_next (State.ok_ite h h.dwellExpired.goOnLeaving)

end Sys2Proof.Machine
end

