-- ==== Sys2Proof/Laws/OkRecords.lean ====
section
/-! SUPPORT. The meanings of the record, tamper queue, route and command port commands keep the bounds and
orders of `State.Ok`. -/

namespace Sys2Proof.Machine

variable {s : State}

/-! ### Records -/

theorem State.Ok.lookupFor (h : s.Ok) (serial : Word) : (s.lookupFor serial).2.Ok :=
  h.grants .command _

theorem State.Ok.find (h : s.Ok) (serial : Word) : (s.find serial).2.Ok := by
  have hl := h.lookupFor serial
  unfold State.find
  split
  next s1 he => rw [he] at hl; exact hl
  next slot s1 he =>
    rw [he] at hl
    have ht := State.Ok.takeLine hl .command slot
    dsimp only
    split_ifs
    · exact ht
    · exact ht.letGo _
    · split
      · exact ht.letGo _
      · split_ifs
        · exact ht
        · exact ht.letGo _
      · split_ifs
        · exact ht
        · exact ht.letGo _

theorem State.Ok.refuseHolding (h : s.Ok) (slot : Nat) (a : Answer) : (s.refuseHolding slot a).Ok :=
  (h.letGo slot).refuse a

theorem State.takeLineFresh_directory (u : Holder) (slot : Nat) (c : Contents) (s : State) :
    (s.takeLineFresh u slot c).directory = s.directory := by
  unfold State.takeLineFresh
  split
  · rfl
  · show (s.evict s.victim).directory = _
    unfold State.evict
    split
    · split_ifs
      · obtain ⟨m, p, w, hf⟩ := State.enqueue_frame ⟨(by assumption : Cached).slot, (by assumption : Cached).contents⟩ s
        rw [hf]
      · rfl
    · rfl

theorem Directory.lowestFree_lt {d : Directory} (h : d.freeSlots ≠ 0) : d.lowestFree < 8192 := by
  have := firstAbsent_le (d.map (·.1)) 0
  unfold Directory.freeSlots Config.slots at h
  unfold Directory.lowestFree
  rw [List.length_map] at this
  omega

theorem State.Ok.load (h : s.Ok) (p : LoadParams) (kind : Kind) (hf : s.directory.freeSlots ≠ 0) :
    (s.load p kind).Ok := by
  have h1 := h.takeLineFresh .command s.directory.lowestFree
    (.live (Record.fresh p kind (s.assignSegment p.sequence) .pending))
  have h2 := (h1.withMem (Memory.wf_insertSerial h1.mem p.serial s.directory.lowestFree)).grants .command
    ((s.takeLineFresh .command s.directory.lowestFree (.live (Record.fresh p kind
      (s.assignSegment p.sequence) .pending))).mem.insertAccesses p.serial)
  have h3 := (h2.withDirectory (h2.directory.set (Directory.lowestFree_lt hf)
    (x := ⟨.live .pending, s.assignSegment p.sequence, [], false⟩) (by simp))).report none
      (some ⟨s.assignSegment p.sequence, .live .pending⟩)
  exact (h3.letGo _).reply _ (by simp)

theorem execRecordLoad_ok (h : s.Ok) (p : LoadParams) : resultOk (execRecordLoad p s) := by
  refine resultOk_next (h.serve _ fun _ => State.ok_ite (h.refuse _) ?_)
  split
  · exact h.refuse _
  · have hl := h.lookupFor p.serial
    dsimp only
    split_ifs with h1 h2 h3
    · exact h.refuse _
    · exact hl.refuse _
    · exact hl.refuse _
    · exact hl.load _ _ h3

theorem execRecordLookup_ok (h : s.Ok) (serial : Word) (wanted : Byte) :
    resultOk (execRecordLookup serial wanted s) := by
  refine resultOk_next (h.serve _ fun _ => State.ok_ite (h.refuse _) ?_)
  have hf := h.find serial
  split
  next he => rw [he] at hf; exact State.Ok.refuse hf _
  next he => rw [he] at hf; exact State.Ok.refuseHolding hf _ _
  next he =>
    rw [he] at hf
    refine State.Ok.reply (State.Ok.letGo hf _) _ ?_
    rw [List.length_append, faultLookupBytes_length]
    split_ifs
    · rw [extensionBytes_length]; simp
    · simp
  next slot r s1 he =>
    rw [he] at hf
    dsimp only
    split_ifs
    · have hr := State.Ok.readExtension hf .command slot r
      refine State.Ok.reply (State.Ok.letGo hr _) _ ?_
      have := State.readExtension_size .command slot r s1
      rw [List.length_append, Record.lookupBytes_length, extensionBytes_length]
      omega
    · exact State.Ok.reply (State.Ok.letGo hf _) _ (by rw [Record.lookupBytes_length]; omega)

theorem State.Ok.answerAmend (h : s.Ok) (slot : Nat) (r : Record) : (s.answerAmend slot r).Ok :=
  (h.letGo slot).reply _ (by simp)

theorem State.Ok.amend (h : s.Ok) (slot : Nat) (p : AmendParams) (r after : Record) :
    (s.amend slot p r after).Ok := by
  unfold State.amend
  dsimp only
  exact State.Ok.answerAmend (State.ok_ite (((h.putRecord _ _).forget _).removedReport _)
    ((h.putRecord _ _).forget _)) _ _

theorem State.Ok.rewrite (h : s.Ok) (slot : Nat) (p : LoadParams) (kind : Kind) :
    (s.rewrite slot p kind).Ok := by
  unfold State.rewrite
  exact ((((h.takeLineFresh _ _ _).setChain _ (by simp)).fileRecord _ _).forget _).answerAmend _ _

theorem State.Ok.fullRewrite (h : s.Ok) (p : AmendParams) : (s.fullRewrite p).Ok := by
  have h1 := h.lookupFor p.serial
  unfold State.fullRewrite
  split
  next he => rw [he] at h1; exact State.Ok.refuse h1 _
  next slot s1 he =>
    rw [he] at h1
    split
    · exact State.Ok.refuse h1 _
    · refine State.ok_ite (State.Ok.refuse h1 _) (State.ok_ite (State.Ok.refuse h1 _) ?_)
      split
      · exact State.ok_ite (State.Ok.rewrite h1 _ _ _) (State.Ok.refuse h1 _)
      · exact State.Ok.refuse h1 _

theorem State.Ok.amendFound (h : s.Ok) (p : AmendParams) (found : Found) : (s.amendFound p found).Ok := by
  unfold State.amendFound
  dsimp only
  split
  · exact h.refuse _
  · exact h.refuseHolding _ _
  · exact h.refuseHolding _ _
  · refine State.ok_ite (h.refuseHolding _ _) (State.ok_ite (h.refuseHolding _ _) ?_)
    split
    · exact h.refuseHolding _ _
    · exact State.ok_ite (h.refuseHolding _ _) (State.ok_ite (h.refuseHolding _ _) (h.amend _ _ _ _))

theorem execRecordAmend_ok (h : s.Ok) (p : AmendParams) : resultOk (execRecordAmend p s) :=
  resultOk_next (h.serve _ fun _ => State.ok_ite (h.fullRewrite _) ((h.find _).amendFound _ _))

theorem State.Ok.answerNote (h : s.Ok) (slot : Nat) : (s.answerNote slot).Ok :=
  (h.letGo slot).reply _ (by simp)

theorem State.Ok.note (h : s.Ok) (slot : Nat) (text : List Byte) (r : Record) :
    (s.note slot text r).Ok := by
  unfold State.note
  dsimp only
  split
  next n rest hc =>
    split_ifs
    · exact (((h.freeChain _).setChain _ fun b hb =>
        h.chain_lt slot b (hc ▸ List.mem_cons_of_mem _ hb)).putRecord _ _).answerNote _
    · exact (h.writeBlock _ _ _).answerNote _
  · split_ifs
    · exact h.answerNote _
    · split
      · exact h.refuseHolding _ _
      next n hn =>
        exact ((((h.useBlock (s.lowestFreeBlock_lt hn)).writeBlock _ _ _).setChain _ fun b hb => by
          rcases List.mem_cons.1 hb with rfl | hb
          · exact s.lowestFreeBlock_lt hn
          · exact h.chain_lt slot b hb).putRecord _ _).answerNote _

theorem State.Ok.serveNote (h : s.Ok) (serial : Word) (text : List Byte) : (s.serveNote serial text).Ok := by
  have hf := h.find serial
  unfold State.serveNote
  split
  next he => rw [he] at hf; exact State.Ok.refuse hf _
  next he => rw [he] at hf; exact State.Ok.refuseHolding hf _ _
  next he => rw [he] at hf; exact State.Ok.refuseHolding hf _ _
  next he =>
    rw [he] at hf
    exact State.ok_ite (State.Ok.refuseHolding hf _ _) (State.Ok.note hf _ _ _)

theorem execRecordNote_ok (h : s.Ok) (serial : Word) (text : List Byte) :
    resultOk (execRecordNote serial text s) :=
  resultOk_next (h.serve _ fun _ => State.ok_ite (h.refuse _) (State.ok_ite (h.refuse _)
    (State.ok_ite (h.refuse _) (h.serveNote _ _).goOnFrame)))

theorem execRecordRetire_ok (h : s.Ok) (serial : Word) : resultOk (execRecordRetire serial s) := by
  refine resultOk_next (h.serve _ fun _ => ?_)
  have hl := h.lookupFor serial
  split
  next he => rw [he] at hl; exact State.Ok.refuse hl _
  next he =>
    rw [he] at hl
    exact State.ok_ite (State.Ok.refuse hl _) <| State.ok_ite (State.Ok.refuse hl _)
      (State.Ok.reply (State.Ok.returnIfBare (State.Ok.retire hl _ _ _)) _ (by simp))

/-! ### RECORD_WALK -/

theorem State.Ok.walkSlot (h : s.Ok) (set : Byte) (slot : Nat) (w : Walked) :
    (s.walkSlot set slot w).2.Ok := by
  have h1 := (h.takeLine .command slot).letGo slot
  unfold State.walkSlot
  dsimp only
  split
  · exact h1
  · split <;> exact h1

theorem State.Ok.walkOne (h : s.Ok) (set filter : Byte) (slot : Nat) (w : Walked) :
    (s.walkOne set filter slot w).2.Ok := by
  unfold State.walkOne
  dsimp only
  split
  · exact State.Ok.visitBeside slot (x := (s.beside, w)) (visit := fun x => (x.1.walkSlot set slot x.2).swap)
      (fun x hx => hx.walkSlot set slot x.2) h.beside
  · exact h.beside

theorem State.Ok.walk (h : s.Ok) (set filter : Byte) (slots : List Nat) (w : Walked) :
    (s.walk set filter slots w).2.Ok := by
  induction slots generalizing s w with
  | nil => exact h
  | cons slot rest ih =>
    rw [State.walk]
    split_ifs
    · exact h
    · exact ih (h.walkOne set filter slot w) _

/-- What a walk has: entries of 24 bytes, at most 8 of them, and an end once it has 8. -/
structure WalkedOk (w : Walked) : Prop where
  sizes : ∀ e ∈ w.entries, e.length = 24
  count : w.entries.length ≤ 8
  ended : w.entries.length = 8 → w.last.isSome = true

theorem WalkedOk.walkSlot {w : Walked} (h : WalkedOk w) (hl : w.last.isSome = false) (set : Byte)
    (slot : Nat) (s : State) : WalkedOk (s.walkSlot set slot w).1 := by
  have hc : w.entries.length < 8 := by
    refine Nat.lt_of_le_of_ne h.count fun he => ?_
    rw [h.ended he] at hl
    cases hl
  have add : ∀ e : List Byte, e.length = 24 → WalkedOk
      { w with entries := e :: w.entries, last := if w.entries.length = 7 then some slot else none } := by
    intro e he
    refine ⟨fun x hx => ?_, by simp only [List.length_cons]; omega, fun hx => ?_⟩
    · rcases List.mem_cons.1 hx with rfl | hx
      · exact he
      · exact h.sizes x hx
    · simp only [List.length_cons] at hx
      have : w.entries.length = 7 := by omega
      simp [this]
  unfold State.walkSlot
  dsimp only
  split
  · exact ⟨h.sizes, h.count, fun _ => rfl⟩
  · split
    · exact h
    next e he =>
      refine add e ?_
      split at he
      · cases he
      · split_ifs at he; cases he; simp
      · split_ifs at he; cases he; simp

theorem WalkedOk.walkOne {w : Walked} (h : WalkedOk w) (hl : w.last.isSome = false) (set filter : Byte)
    (slot : Nat) (s : State) : WalkedOk (s.walkOne set filter slot w).1 := by
  unfold State.walkOne
  dsimp only
  split
  · exact h.walkSlot hl set slot _
  · exact h

theorem WalkedOk.walk {w : Walked} (h : WalkedOk w) (set filter : Byte) (slots : List Nat) (s : State) :
    WalkedOk (s.walk set filter slots w).1 := by
  induction slots generalizing s w with
  | nil => exact h
  | cons slot rest ih =>
    rw [State.walk]
    split_ifs with hl
    · exact h
    · exact ih (h.walkOne (by simpa using hl) set filter slot s) _

theorem flatten_length {n : Nat} (l : List (List Byte)) (h : ∀ e ∈ l, e.length = n) :
    l.flatten.length = l.length * n := by
  induction l with
  | nil => simp
  | cons x l ih =>
    simp only [List.flatten_cons, List.length_append, List.length_cons, h x (by simp),
      ih fun e he => h e (by simp [he])]
    rw [Nat.succ_mul]; omega

theorem execRecordWalk_ok (h : s.Ok) (start : Half) (statuses filter : Byte) :
    resultOk (execRecordWalk start statuses filter s) := by
  refine resultOk_next (h.serve _ fun _ => State.ok_ite (h.refuse _) ?_)
  have hw : WalkedOk ⟨[], none, none⟩ := ⟨by simp, by simp, by simp⟩
  have hx := hw.walk statuses filter (s.walkSlots start.toNat) s
  refine State.Ok.reply (h.walk _ _ _ _) _ ?_
  rw [List.length_cons, List.length_append, List.length_append,
    flatten_length (n := 24) _ fun e he => hx.sizes e (List.mem_reverse.1 he), List.length_reverse,
    resumeBytes_length]
  have := hx.count
  split <;> simp <;> omega

/-! ### The tamper queue -/

theorem execTamperRead_ok (h : s.Ok) : resultOk (execTamperRead s) := by
  refine resultOk_next (h.serve _ fun _ => h.reply _ ?_)
  simp only [List.length_append, List.length_cons, List.length_nil, halfBytes_length]
  rw [flatMap_length TamperEntry.bytes_length, List.length_take]
  omega

theorem execTamperAck_ok (h : s.Ok) (serial : Word) : resultOk (execTamperAck serial s) := by
  refine resultOk_next (h.serve _ fun _ => ?_)
  have hf := h.find serial
  split
  next he => rw [he] at hf; exact State.Ok.refuse hf _
  next he => rw [he] at hf; exact State.Ok.refuseHolding hf _ _
  next he => rw [he] at hf; exact State.Ok.refuseHolding hf _ _
  next he =>
    rw [he] at hf
    dsimp only
    split_ifs
    · exact State.Ok.refuseHolding hf _ _
    · exact State.Ok.refuseHolding hf _ _
    · exact State.Ok.reply (State.Ok.letGo hf _) _ (by simp)
    · exact State.Ok.reply (State.Ok.letGo (State.Ok.removedReport (State.Ok.putRecord hf _ _) _) _) _
        (by simp)

theorem execCabMode_ok (h : s.Ok) (mode invert : Byte) : resultOk (execCabMode mode invert s) := by
  refine resultOk_next (h.serve _ fun _ => ?_)
  split
  · exact h.refuse _
  next m _ =>
    refine State.ok_ite (h.refuse _) (State.Ok.reply (h.withTamper (x := { s.tamper with
      cabMode := m, invert := invert == 1
      pulseRunning := s.tamper.pulseRunning && s.tamper.cabMode == m })
      ⟨h.tamper.size, h.tamper.slots, h.tamper.ordered⟩) _ (by simp))

theorem execPulseTimerExpire_ok (h : s.Ok) : resultOk (execPulseTimerExpire s) :=
  resultOk_ite (resultOk_next (h.withTamper (x := { s.tamper with pulseRunning := false })
    ⟨h.tamper.size, h.tamper.slots, h.tamper.ordered⟩)) (resultOk_next h)

/-! ### The route -/

theorem State.Ok.beginRoute (h : s.Ok) (x : Header) : (s.beginRoute x).Ok := by
  have h1 := (h.withRoute { s.route with header := some x }).withMem
    (Memory.wf_writeItem h.mem 1 (headerItem (some x)))
  exact ((State.Ok.sameBuffer (h1.withAssessment (some x.assessment)) (x := { s.matching with
    taken := 0, duplicates := 0, strangers := 0, faultHits := 0, drops := 0 }) rfl).setClock
      0).enterRouteState .loading

theorem execRouteHeader_ok (h : s.Ok) (p : HeaderParams) : resultOk (execRouteHeader p s) := by
  refine resultOk_next (h.serve _ fun _ => State.ok_ite (h.refuse _) ?_)
  split
  · exact h.refuse _
  · exact State.ok_ite ((h.beginRoute _).reply _ (by simp)) (h.refuse _)

theorem execRouteOpen_ok (h : s.Ok) : resultOk (execRouteOpen s) :=
  resultOk_next (h.serve _ fun _ => State.ok_ite (h.refuse _) ((h.withRoute _).reply _ (by simp)))

theorem State.Ok.openSlot (h : s.Ok) (slot : Nat) : (s.openSlot slot).Ok := by
  have h1 := h.takeLine .scan slot
  unfold State.openSlot
  dsimp only
  split_ifs
  · exact (h1.withRoute _).letGo _
  · split
    · split_ifs
      · exact (h1.fileRecord _ _).letGo _
      · exact (h1.putRecord _ _).letGo _
    · exact h1.letGo _

theorem State.Ok.openSettle (h : s.Ok) (n : Seg) : (s.openSettle n).Ok := by
  unfold State.openSettle
  dsimp only
  split_ifs
  · exact State.Ok.putPlan (State.Ok.putSegment h n (by exact h.redrive n)) (h.nodup_without n)
  · exact h

theorem State.Ok.openScan (h : s.Ok) : s.openScan.Ok := by
  have h1 := State.ok_foldl (fun _ slot h => State.Ok.openSlot h slot) (s.directory.map (·.1)) h
  have h2 := State.ok_foldl (fun _ n h => State.Ok.openSettle h n) (List.finRange 64) h1
  exact (((h2.setClock 0).enterRouteState .opened).withRoute _).raise _

theorem execOpenScan_ok (h : s.Ok) : resultOk (execOpenScan s) :=
  resultOk_ite (resultOk_next h.openScan) (resultOk_next h)

theorem State.Ok.closeSettle (h : s.Ok) (n : Seg) : (s.closeSettle n).Ok := by
  unfold State.closeSettle
  dsimp only
  split_ifs
  · exact State.Ok.raise (State.Ok.putSegment h n (by exact h.redrive n)) _
  · exact State.Ok.putSegment h n (by exact h.redrive n)
  · exact h

theorem State.Ok.routePass (h : s.Ok) : s.routePass.1.Ok :=
  State.ok_foldl_fst (fun _ slot hx => State.Ok.settleSlot .command slot hx) _
    (x := (s, WalkCounts.none)) h

theorem State.Ok.closeWork (h : s.Ok) : s.closeWork.1.Ok := by
  unfold State.closeWork
  dsimp only
  have h1 := h.finishFrame
  split
  · exact ((State.ok_foldl (fun _ n h => State.Ok.closeSettle h n) _
      h1.routePass).putPlan List.nodup_nil).writeBack.enterRouteState _
  next n _ => exact ((State.ok_foldl (fun _ n h => State.Ok.closeSettle h n) _
      (h1.leave .command n).routePass).putPlan List.nodup_nil).writeBack.enterRouteState _

theorem leftBytes_length (x : Option (Seg × SegState)) : (leftBytes x).length = 2 := by
  cases x <;> rfl

theorem execRouteClose_ok (h : s.Ok) : resultOk (execRouteClose s) :=
  resultOk_next (h.serve _ fun _ => State.ok_ite (h.refuse _) (h.writeCheckpoint.closeWork.reply _
    (by simp [leftBytes_length])))

theorem State.Ok.clearSlot (h : s.Ok) (slot : Nat) : (s.clearSlot slot).Ok := by
  have h1 := (h.takeLineFresh .command slot .free).grant .command
  exact ((h1.withDirectory (h1.directory.free slot)).dropLine slot).enqueue _

theorem execRouteClear_ok (h : s.Ok) : resultOk (execRouteClear s) :=
  resultOk_next (h.serve _ fun _ => State.ok_ite (h.refuse _) (State.ok_ite (h.refuse _)
    (((State.ok_foldl (fun _ slot h => State.Ok.clearSlot h slot) _ h).grants _ _).emptyRoute.reply _ (by simp))))

theorem execRouteClockTick_ok (h : s.Ok) : resultOk (execRouteClockTick s) :=
  resultOk_ite (resultOk_next h) (resultOk_next (State.Ok.goOnReport
    (State.ok_ite (State.Ok.goOnLeaving (s := s.tenthPassed) (h.withRoute _)) h)))

theorem State.Ok.writeDue (h : s.Ok) : s.writeDue.Ok := by
  unfold State.writeDue
  split
  · exact (h.withMem (Memory.wf_writeItem h.mem _ _)).withRoute _
  · exact h

theorem execClockCheckpoint_ok (h : s.Ok) : resultOk (execClockCheckpoint s) :=
  resultOk_next (State.ok_ite h.writeDue h)

theorem execRouteStatus_ok (h : s.Ok) : resultOk (execRouteStatus s) :=
  resultOk_next (h.serve _ fun _ => h.reportAll .route)

/-! ### The command port -/

theorem State.Ok.readSelection (h : s.Ok) (clocks : Nat) : (s.readSelection clocks).Ok :=
  State.ok_ite
    (h.withCommand (x := { s.command with
      unit := .idle, response := [], dataOut := clockedOut s.command.response clocks })
      ⟨(fun e => nomatch e), fun _ => rfl, fun _ e => nomatch e⟩)
    (h.withCommand (x := { s.command with dataOut := zeros clocks })
      ⟨h.command.waiting, h.command.empty, h.command.reporting⟩)

theorem execResponseRead_ok (h : s.Ok) (direction : Byte) (clocks : Nat) :
    resultOk (execResponseRead direction clocks s) :=
  resultOk_next (State.ok_ite (h.readSelection _) (State.ok_ite h
    (h.withCommand (x := { s.command with dataOut := zeros clocks })
      ⟨h.command.waiting, h.command.empty, h.command.reporting⟩)))

theorem execBadCommandBlock_ok (h : s.Ok) (direction : Byte) (block : List Byte) :
    resultOk (execBadCommandBlock direction block s) :=
  resultOk_next (State.ok_ite (h.readSelection _) (State.ok_ite
    (h.withCommand (x := { s.command with dataOut := zeros block.length })
      ⟨h.command.waiting, h.command.empty, h.command.reporting⟩)
    (State.ok_ite h (h.serve _ fun _ => h.refuse _))))

theorem execCommandCollision_ok (h : s.Ok) : resultOk (execCommandCollision s) :=
  resultOk_next (State.ok_ite h.collide h)

theorem execEventsRead_ok (h : s.Ok) (clear : Half) : resultOk (execEventsRead clear s) :=
  resultOk_next (h.serve _ fun _ => (h.withEvents _).reply _ (by simp))

theorem execEventsEnable_ok (h : s.Ok) (enable : Half) : resultOk (execEventsEnable enable s) :=
  resultOk_next (h.serve _ fun _ => (h.withEvents _).reply _ (by simp))

/-- Writing back leaves the unit RESPONDING or not, as it was. -/
theorem State.enqueue_unit (q : Queued) (s : State) :
    (s.enqueue q).command.unit = .responding ↔ s.command.unit = .responding := by
  unfold State.enqueue
  dsimp only
  split_ifs
  · rfl
  · show s.writeOldest.command.unit = _ ↔ _
    unfold State.writeOldest
    split
    · rfl
    · exact UnitState.oneWritten_responding _

theorem State.cleanLines_unit (s : State) :
    s.cleanLines.command.unit = .responding ↔ s.command.unit = .responding := by
  have one : ∀ (i : Fin 8) (s : State),
      (s.cleanLine i).command.unit = .responding ↔ s.command.unit = .responding := by
    intro i s
    unfold State.cleanLine
    split
    next b _ =>
      split_ifs
      · exact State.enqueue_unit ⟨b.slot, b.contents⟩ s
      · rfl
    · rfl
  unfold State.cleanLines
  generalize List.finRange 8 = l
  induction l generalizing s with
  | nil => rfl
  | cons i l ih => exact (ih _).trans (one i s)

theorem execFlush_ok (h : s.Ok) : resultOk (execFlush s) :=
  resultOk_next (h.serve _ fun hu => h.cleanLines.executing
    (fun e => by rw [State.cleanLines_unit, hu] at e; cases e) fun _ e => nomatch e)

theorem execFlushDrainDone_ok (h : s.Ok) : resultOk (execFlushDrainDone s) := by
  unfold execFlushDrainDone
  split
  · exact resultOk_next (h.respond _ (by simp))
  · exact resultOk_next h

theorem execWriteQueueWrite_ok (h : s.Ok) : resultOk (execWriteQueueWrite s) :=
  resultOk_next (State.ok_ite h.writeOldest h)

end Sys2Proof.Machine
end

