-- ==== Sys2Proof/Laws/OkUpload.lean ====
section
/-! SUPPORT. The meanings of the upload commands and events keep the bounds and orders of `State.Ok`, and
what the survey and the marking leave alone. -/

namespace Sys2Proof.Machine

variable {a s : State}

/-! ### The survey -/

theorem State.ok_foldl_snd {α β : Type} {f : β × State → α → β × State}
    (hf : ∀ x y, x.2.Ok → (f x y).2.Ok) (l : List α) {x : β × State} (h : x.2.Ok) :
    (l.foldl f x).2.Ok := by
  induction l generalizing x with
  | nil => exact h
  | cons y l ih => exact ih (hf x y h)

theorem State.Ok.surveyClass (cursor : Option Key) {x : List Surveyed × State} (h : x.2.Ok)
    (c : LiveStatus) : (State.surveyClass cursor x c).2.Ok := by
  unfold State.surveyClass
  split
  · exact h
  · exact State.ok_foldl_snd (fun x slot hx => State.Ok.surveySlot cursor hx slot) _ h

theorem Quiet.surveyClass (cursor : Option Key) {x : List Surveyed × State} (h : Quiet a x.2)
    (c : LiveStatus) : Quiet a (State.surveyClass cursor x c).2 := by
  unfold State.surveyClass
  split
  · exact h
  · exact Quiet.foldl_snd (fun x slot hx => Quiet.surveySlot cursor hx slot) _ h

theorem State.Ok.survey (h : s.Ok) (cursor : Option Key) : (s.survey cursor).2.Ok :=
  State.ok_foldl_snd (fun _ c hx => State.Ok.surveyClass cursor hx c) _ (x := ([], s)) h

theorem Quiet.survey (h : Quiet a s) (cursor : Option Key) : Quiet a (s.survey cursor).2 :=
  Quiet.foldl_snd (fun _ c hx => Quiet.surveyClass cursor hx c) _ (x := ([], s)) h

theorem State.Ok.choose (h : s.Ok) : s.choose.2.Ok := by
  unfold State.choose
  dsimp only
  split
  · exact (h.survey _).survey _
  · exact h.survey _

theorem Quiet.choose (h : Quiet a s) : Quiet a s.choose.2 := by
  unfold State.choose
  dsimp only
  split
  · exact (h.survey _).survey _
  · exact h.survey _

/-- At most 16 records are chosen (R152). -/
theorem State.choose_length (s : State) : s.choose.1.length ≤ 16 := by
  have one : ∀ (s : State) c, (s.survey c).1.length ≤ 16 := fun s c => by
    simp [State.survey, Config.batchRecords]
  unfold State.choose
  dsimp only
  split <;> exact one _ _

/-! ### The marking -/

/-! ### The forming of a batch -/

/-- What every part of the forming keeps, the forming keeps: surveying a slot, finishing the upload, marking a record,
beginning the OFFER, and noting how far it has got. -/
theorem State.formOn_keeps {P : State → Prop} (hd : ∀ s x, P s → P (s.withDepot x))
    (hn : ∀ s n, P s → P (s.withDraws n)) (hs : ∀ c (x : List Surveyed × State) k, P x.2 → P (State.surveySlot c x k).2)
    (hf : ∀ s : State, P s → P s.finishUpload)
    (hm : ∀ (x : List (List Byte) × State) k, P x.2 → P (State.markOne x k).2)
    {w : Forming} (h : P s) (n : Nat) : P (s.formOn n w) := by
  have one : ∀ (s : State) w, P s → P (s.formRead w).2 := by
    intro s w h
    unfold State.formRead
    split
    next again _ _ kept =>
      split
      next e _ => exact hs (if again = true then none else s.depot.cursor) (kept, s) e.1 h
      · unfold State.endClass
        dsimp only
        split
        · exact h
        · split
          · split
            · exact hf s h
            · exact h
          · exact h
    · exact hm _ _ h
    · unfold State.beginOffer
      dsimp only
      split
      · exact hd _ _ h
      · exact hd _ _ (hd _ _ h)
  induction n generalizing s w with
  | zero => exact hd _ _ h
  | succ n ih =>
    have h1 := one s w h
    rw [State.formOn]
    split
    next hr => rw [hr] at h1; exact h1
    next w1 s1 hr =>
      rw [hr] at h1
      dsimp only
      split
      · split
        · split
          · exact hd _ _ (hn _ _ h1)
          · have h2 := one _ w1 (hn _ (s1.draws + 1) h1)
            unfold State.readAndYield
            split
            next h3 => rw [h3] at h2; exact h2
            next h3 => rw [h3] at h2; exact hd _ _ h2
        · exact ih (hn _ _ h1)
      · exact ih h1

theorem State.Midway.readAndYield {w : Forming} (h : s.Midway w) : (s.readAndYield w).Ok := by
  have h1 := h.formRead
  unfold State.readAndYield
  split
  next hr => rw [hr] at h1; exact h1.1
  next w1 _ hr => rw [hr] at h1; exact (h1.2 w1 rfl).hold

theorem State.Midway.formOn {w : Forming} (h : s.Midway w) (n : Nat) : (s.formOn n w).Ok := by
  induction n generalizing s w with
  | zero => exact h.hold
  | succ n ih =>
    have h1 := h.formRead
    rw [State.formOn]
    split
    next hr => rw [hr] at h1; exact h1.1
    next w1 s1 hr =>
      rw [hr] at h1
      have h2 := h1.2 w1 rfl
      dsimp only
      split
      · split
        · split
          · exact (h2.drew _).hold
          · exact (h2.drew _).readAndYield
        · exact ih (h2.drew _)
      · exact ih h2

theorem execBatchForm_ok (h : s.Ok) : resultOk (execBatchForm s) := by
  unfold execBatchForm
  split
  next hm => exact resultOk_next ((h.midway hm).formOn _)
  · exact resultOk_next h

/-! ### Small changes of the depot block -/

theorem State.Ok.sameDepot (h : s.Ok) {x : Depot} (h1 : x.outstanding = s.depot.outstanding)
    (h2 : x.engine = s.depot.engine) (h3 : x.failures = s.depot.failures) (h4 : x.rx = s.depot.rx)
    (h5 : FormingOk x) : (s.withDepot x).Ok :=
  h.withDepot ⟨h1 ▸ h.depot.batch, fun e => h1 ▸ h.depot.idle (h2 ▸ e), h3 ▸ h.depot.failures,
    fun e => h2 ▸ h.depot.faulted (h3 ▸ e), h4 ▸ h.depot.receiver, h5⟩

/-- A batch is in the middle of its forming only with the link ATTACHED and the engine not IDLE. -/
theorem DepotOk.forming_none {x : Depot} (h : DepotOk x) (hx : x.link ≠ .attached ∨ x.engine = .idle) :
    x.forming = none := by
  have hf := h.forming
  unfold FormingOk at hf
  split at hf
  next e => exact e
  · rcases hx with hx | hx
    · exact absurd hf.1 hx
    · exact absurd (hx.symm.trans hf.2.1) (by simp)
  · rcases hx with hx | hx
    · exact absurd hf.1 hx
    · exact absurd hx hf.2.1

theorem execOfferSent_ok (h : s.Ok) : resultOk (execOfferSent s) := by
  unfold execOfferSent
  refine resultOk_next ?_
  dsimp only
  split
  next hc =>
    exact h.sameDepot rfl rfl rfl rfl (FormingOk.none (h.depot.forming_none (.inl (by rw [hc.2]; simp))))
  · exact h

/-! ### The end of a batch -/

theorem State.Ok.changeOffered (h : s.Ok) (slot : Nat) (f : Record → Record) :
    (s.changeOffered slot f).1.Ok := by
  have h1 := h.takeLine .upload slot
  unfold State.changeOffered
  dsimp only
  split
  · exact (h1.putRecord _ _).letGo _
  · exact h1.letGo _

theorem Quiet.changeOffered (h : Quiet a s) (slot : Nat) (f : Record → Record) :
    Quiet a (s.changeOffered slot f).1 := by
  have h1 := h.takeLine .upload slot
  unfold State.changeOffered
  dsimp only
  split
  · exact (h1.putRecord _ _).letGo _
  · exact h1.letGo _

theorem Quiet.returnAll (h : Quiet a s) (l : List (Nat × Word)) :
    Quiet a (l.foldl State.returnOne s) :=
  Quiet.foldl (fun _ e h => Quiet.ite (h.changeOffered e.1 Record.returned) h) l h

theorem State.Ok.returnAll (h : s.Ok) (l : List (Nat × Word)) : (l.foldl State.returnOne s).Ok :=
  State.ok_foldl (fun _ e h => State.ok_ite (h.changeOffered e.1 Record.returned) h) l h

theorem State.Ok.returnBatch (h : s.Ok) : s.returnBatch.Ok := by
  have h1 := h.returnAll s.depot.outstanding
  exact h1.withDepot ⟨by simp, fun _ => rfl, h1.depot.failures, h1.depot.faulted, h1.depot.receiver,
    FormingOk.none rfl⟩

/-- A returned batch leaves the depot block as it was but for the batch and its forming, its number, the cursor and
the timer (R156). -/
theorem State.returnBatch_depot (s : State) : s.returnBatch.depot = { s.depot with
    outstanding := [], cursor := none, forming := none, timer := none, batchNumber := s.depot.batchNumber + 1 } := by
  have := ((Quiet.refl s).returnAll s.depot.outstanding).depot
  unfold State.returnBatch
  simp only [State.withDepot_depot, this]

theorem execVerdictTimeout_ok (h : s.Ok) : resultOk (execVerdictTimeout s) := by
  unfold execVerdictTimeout
  refine resultOk_next ?_
  dsimp only
  split
  · exact h
  next hc =>
    have hb : s.depot.outstanding ≠ [] := by
      intro hb; apply hc; simp [hb]
    have he : s.depot.engine ≠ .idle := fun e => hb (h.depot.idle e)
    have hf : s.depot.failures ≠ 3 := fun e => he (h.depot.faulted e)
    have hf' := h.depot.failures
    have h1 := h.returnBatch
    have hd := s.returnBatch_depot
    have ho : s.returnBatch.depot.outstanding = [] := by rw [hd]
    have hn : s.returnBatch.depot.forming = none := by rw [hd]
    have hfs : s.returnBatch.depot.failures = s.depot.failures := by rw [hd]
    split
    · refine State.Ok.raise ?_ _
      refine h1.withDepot ⟨h1.depot.batch, fun _ => ho, ?_, fun _ => rfl, h1.depot.receiver, FormingOk.none hn⟩
      show s.returnBatch.depot.failures + 1 ≤ 3
      omega
    next hlt =>
      refine h1.withDepot ⟨h1.depot.batch, fun _ => ho, ?_, fun e => ?_, h1.depot.receiver, FormingOk.none hn⟩
      · show s.returnBatch.depot.failures + 1 ≤ 3
        omega
      · exact absurd (Nat.le_of_eq e.symm) hlt

theorem State.emptyRoute_depot (s : State) : s.emptyRoute.depot = s.depot := by
  simp [State.emptyRoute, State.enterRouteState, State.writeStateBlock, State.setClock,
    State.writeCheckpoint, State.writeSegmentArea]

theorem State.returnIfBare_depot (s : State) : s.returnIfBare.depot = s.depot := by
  unfold State.returnIfBare; split
  · exact s.emptyRoute_depot
  · rfl

theorem State.Ok.judgeOne (h : s.Ok) (accepted : Half) (e : Nat × (Nat × Word)) :
    (State.judgeOne accepted s e).Ok := by
  have h1 := h.retire .upload e.2.1 e.2.2
  have h2 := h.changeOffered e.2.1 Record.refusedByDepot
  exact State.ok_ite h (State.ok_ite (State.Ok.returnIfBare (h1.sameDepot rfl rfl rfl rfl h1.depot.forming))
    (State.ok_ite (h2.sameDepot rfl rfl rfl rfl h2.depot.forming) h2))

/-- Judging a position changes, of the depot block, only the two counts of records. -/
theorem State.judgeOne_depot (accepted : Half) (s : State) (e : Nat × (Nat × Word)) :
    { (State.judgeOne accepted s e).depot with accepted := s.depot.accepted, refused := s.depot.refused } =
      s.depot := by
  have h1 := ((Quiet.refl s).retire .upload e.2.1 e.2.2).depot
  have h2 := ((Quiet.refl s).changeOffered e.2.1 Record.refusedByDepot).depot
  unfold State.judgeOne
  dsimp only
  split
  · rfl
  · split
    · rw [State.returnIfBare_depot, State.withDepot_depot, h1]
    · split
      · rw [State.withDepot_depot, h2]
      · rw [h2]

theorem State.judgeAll_depot (accepted : Half) (l : List (Nat × (Nat × Word))) (s : State) :
    { (l.foldl (State.judgeOne accepted) s).depot with
      accepted := s.depot.accepted, refused := s.depot.refused } = s.depot := by
  induction l generalizing s with
  | nil => rfl
  | cons e l ih =>
    have h1 := ih (State.judgeOne accepted s e)
    have h2 := State.judgeOne_depot accepted s e
    rw [List.foldl_cons]
    generalize (l.foldl (State.judgeOne accepted) (State.judgeOne accepted s e)).depot = d at *
    rw [← h1] at h2
    exact h2

theorem State.Ok.takeVerdict (h : s.Ok) (accepted : Half) : (s.takeVerdict accepted).Ok := by
  have h1 := State.ok_foldl (fun _ e h => State.Ok.judgeOne h accepted e)
    (positions 0 s.depot.outstanding)
    (State.Ok.sameDepot h (x := { s.depot with timer := none }) rfl rfl rfl rfl h.depot.forming)
  exact h1.withDepot ⟨by simp, fun _ => rfl, by simp, (fun e => nomatch e), h1.depot.receiver,
    FormingOk.none rfl⟩

theorem State.Ok.gatherDepot (h : s.Ok) {bs : List Byte} (hb : bs.length < 8) : (s.gatherDepot bs).Ok :=
  h.withDepot ⟨h.depot.batch, h.depot.idle, h.depot.failures, h.depot.faulted, hb, h.depot.forming⟩

theorem State.Ok.damageDepot (h : s.Ok) : s.damageDepot.Ok :=
  h.withDepot ⟨h.depot.batch, h.depot.idle, h.depot.failures, h.depot.faulted, by simp, h.depot.forming⟩

theorem execDepotByte_ok (h : s.Ok) (b : Byte) : resultOk (execDepotByte b s) := by
  unfold execDepotByte
  refine resultOk_next ?_
  dsimp only
  split
  · exact h
  · split
    next hr => exact State.ok_ite (h.gatherDepot (by simp [hr])) h
    · split
      next hr => exact State.ok_ite (h.gatherDepot (by simp [hr])) h.damageDepot
      · split
        next hl => exact h.gatherDepot hl
        · split
          · exact State.ok_ite ((h.gatherDepot (by simp)).takeVerdict _)
              ((h.gatherDepot (bs := []) (by simp)).sameDepot rfl rfl rfl rfl h.depot.forming)
          · exact h.damageDepot

theorem execDepotByteGapTimeout_ok (h : s.Ok) : resultOk (execDepotByteGapTimeout s) :=
  resultOk_next (State.ok_ite h.damageDepot h)

/-! ### Docking and commands -/

theorem execDockAttach_ok (h : s.Ok) : resultOk (execDockAttach s) := by
  have h1 := h.sameDepot (x := { s.depot with dockSense := true }) rfl rfl rfl rfl h.depot.forming
  unfold execDockAttach
  refine resultOk_next ?_
  dsimp only
  split
  next hc =>
    exact h1.sameDepot rfl rfl rfl rfl (FormingOk.none (h.depot.forming_none (.inl (by rw [hc.2]; simp))))
  · exact h1

theorem execDockRemoval_ok (h : s.Ok) : resultOk (execDockRemoval s) := by
  have h1 := h.sameDepot (x := { s.depot with dockSense := false }) rfl rfl rfl rfl h.depot.forming
  have h2 := State.Ok.sameDepot h1 (x := { s.depot with
    dockSense := false, link := .detached, timer := none, forming := none }) rfl rfl rfl rfl (FormingOk.none rfl)
  unfold execDockRemoval
  refine resultOk_next (State.ok_ite ?_ h1)
  dsimp only
  split
  next hb =>
    exact State.Ok.withDepot h2 ⟨h2.depot.batch, fun _ => List.isEmpty_iff.1 hb, h2.depot.failures,
      fun _ => rfl, h2.depot.receiver, FormingOk.none rfl⟩
  · have h3 := State.Ok.returnBatch h2
    refine State.Ok.withDepot h3 ⟨h3.depot.batch, fun _ => rfl, h3.depot.failures, fun _ => rfl,
      h3.depot.receiver, FormingOk.none rfl⟩

theorem execUploadStart_ok (h : s.Ok) : resultOk (execUploadStart s) := by
  refine resultOk_next (h.serve _ fun _ => ?_)
  dsimp only
  split
  · exact h.refuse _
  next hc =>
    have he : s.depot.engine = .idle := by
      by_contra hn; exact hc (Or.inr hn)
    have ho := h.depot.idle he
    have key : DepotOk { s.depot with
        link := .attached, failures := 0, cursor := none, engine := .running } :=
      ⟨h.depot.batch, fun _ => ho, Nat.zero_le _, (fun e => nomatch e), h.depot.receiver,
        FormingOk.none (h.depot.forming_none (.inr he))⟩
    split
    · exact State.Ok.reply (h.withDepot key) _ (by simp)
    · exact State.Ok.reply (h.withDepot key) _ (by simp)
    · exact h.refuse _

theorem execUploadStop_ok (h : s.Ok) : resultOk (execUploadStop s) := by
  refine resultOk_next (h.serve _ fun _ => State.Ok.reply ?_ _ (by simp))
  split
  next he =>
    have hn : s.depot.failures ≠ 3 := fun e => by have := h.depot.faulted e; rw [he] at this; cases this
    split
    next hb =>
      exact h.withDepot ⟨h.depot.batch, fun _ => List.isEmpty_iff.1 hb, h.depot.failures, fun _ => rfl,
        h.depot.receiver, FormingOk.none rfl⟩
    next hb =>
      refine h.withDepot ⟨h.depot.batch, (fun e => nomatch e), h.depot.failures, fun e => absurd e hn,
        h.depot.receiver, ?_⟩
      have hf := h.depot.forming
      unfold FormingOk at hf ⊢
      dsimp only
      split at hf
      · trivial
      · exact absurd (List.isEmpty_iff.2 hf.2.2) hb
      · exact ⟨hf.1, by simp, hf.2.2⟩
  · exact h

theorem uploadStatusBytes_length (s : State) : s.uploadStatusBytes.length = 53 := by
  simp only [State.uploadStatusBytes, List.length_append, List.length_cons, List.length_nil,
    List.length_take, zeros_length, optByteBytes_length, halfBytes_length]
  omega

theorem State.Ok.timePassed (h : s.Ok) : s.timePassed.Ok :=
  (h.withDepot (x := { s.depot with timer := timeLeftNow s.draws s.depot.timer })
    ⟨h.depot.batch, h.depot.idle, h.depot.failures, h.depot.faulted, h.depot.receiver, h.depot.forming⟩).withDraws _

/-- A report finds a running timer with no more time left than before. -/
theorem timeLeftNow_le (n : Nat) (was : Byte) :
    ∃ now, timeLeftNow n (some was) = some now ∧ now.toNat ≤ was.toNat := by
  refine ⟨_, rfl, ?_⟩
  have h1 : Config.timeLeft n % (was.toNat + 1) < was.toNat + 1 := Nat.mod_lt _ (by omega)
  have h2 := was.isLt
  simp only [natByte, BitVec.toNat_ofNat]
  omega

theorem execUploadStatus_ok (h : s.Ok) : resultOk (execUploadStatus s) :=
  resultOk_next (h.serve _ fun _ => h.timePassed.reply _ (by rw [uploadStatusBytes_length]; omega))

end Sys2Proof.Machine
end

