-- ==== Sys2Proof/Laws/OkPower.lean ====
section
/-! SUPPORT. Restarts, power events and the RECOVERY scan keep the bounds and orders of `State.Ok`. -/

namespace Sys2Proof.Machine

variable {s : State}

/-! ### Memory -/

theorem itemSize_le (i : Nat) : itemSize i ≤ 65 := by unfold itemSize; split_ifs <;> omega

/-- The memory that reads 0 everywhere is in canonical form. -/
theorem Memory.wf_allZero : Memory.allZero.wf = true := by
  rw [Memory.wf_iff]
  unfold Memory.allZero
  refine ⟨List.Pairwise.filter _ (List.pairwise_flatMap.2 ⟨fun i _ =>
    List.pairwise_flatMap.2 ⟨fun b _ => ?_, ?_⟩, ?_⟩), fun c hc => ?_⟩
  · rw [List.pairwise_map]
    exact List.pairwise_lt_range.imp fun h => Nat.add_lt_add_left h _
  · have := itemSize_le i
    simp only [List.pairwise_cons, List.mem_map, List.mem_range, copyAddress]
    simp
    omega
  · refine List.pairwise_lt_range.imp fun {i j} hij x hx y hy => ?_
    have := itemSize_le i
    simp only [List.mem_flatMap, List.mem_map, List.mem_range, copyAddress] at hx hy
    obtain ⟨b, -, k, hk, rfl⟩ := hx
    obtain ⟨b', -, k', -, rfl⟩ := hy
    cases b <;> cases b' <;> simp <;> omega
  · simpa using List.of_mem_filter hc

theorem Memory.wf_writeCut {w : Nat} {m : Memory} (h : m.wf = true) (a : Nat) (arrived : BitVec w)
    (image : List Byte) : (m.writeCut a arrived image).wf = true := Memory.wf_writeBytes h _ _

theorem State.memAfter_wf (h : s.mem.wf = true) (loss : Loss) : (s.memAfter loss).wf = true := by
  cases loss with
  | clean => exact h
  | cutQueueWrite arrived =>
    show (match s.power, s.store.queue with
      | .on, q :: _ => s.mem.writeCut (slotAddress q.slot) arrived q.contents.image
      | _, _ => s.mem).wf = true
    split
    · exact Memory.wf_writeCut h _ _ _
    · exact h
  | cutBlockWrite block image arrived =>
    unfold State.memAfter
    split_ifs
    · exact Memory.wf_writeCut h _ _ _
    · exact h
  | cutItemWrite item contents arrived =>
    unfold State.memAfter
    split_ifs
    · exact Memory.wf_writeCut h _ _ _
    · exact h
  | backupLost cells =>
    have key : ∀ (l : List (Nat × Byte)) (m : Memory), m.wf = true →
        (l.foldl (fun m c => m.write c.1 c.2) m).wf = true := by
      intro l
      induction l with
      | nil => exact fun m hm => hm
      | cons c l ih => exact fun m hm => ih _ (Memory.wf_write hm _ _)
    exact key cells _ Memory.wf_allZero

/-! ### Restarts -/

/-- The state right after reset keeps every bound and order. -/
theorem State.reset_ok : State.reset.Ok where
  mem := rfl
  ports := by unfold PortsOk; decide
  matching := ⟨by decide, by decide⟩
  store := ⟨by
    intro i j a b ha
    have : ∀ i, (Store.reset.lines.get i).body = none := by decide
    exact absurd ((this i).symm.trans ha) (by simp), by decide, by decide, List.Pairwise.nil, by decide⟩
  directory := DirectoryOk.nil
  tamper := ⟨by decide, List.nodup_nil, List.Pairwise.nil⟩
  segments := SegmentsOk.reset
  depot := ⟨by decide, fun _ => rfl, by decide, fun _ => rfl, by decide, FormingOk.none rfl⟩
  command := ⟨(fun e => nomatch e), fun _ => rfl, fun _ e => nomatch e⟩

theorem State.Ok.freshChip (h : s.Ok) (power : Power) : (s.freshChip power).Ok where
  mem := h.mem
  ports := State.reset_ok.ports
  matching := State.reset_ok.matching
  store := State.reset_ok.store
  directory := State.reset_ok.directory
  tamper := State.reset_ok.tamper
  segments := State.reset_ok.segments
  depot := ⟨Nat.zero_le _, fun _ => rfl, Nat.zero_le _, fun _ => rfl, Nat.zero_lt_succ _,
    FormingOk.none rfl⟩
  command := ⟨(fun e => nomatch e), fun _ => rfl, fun _ e => nomatch e⟩

theorem segmentOfItem_redrive (bs : List Byte) : (segmentOfItem bs).redrive ≤ 7 := by
  unfold segmentOfItem
  dsimp only
  split_ifs <;> omega

theorem firstPlaces_nodup (l : List Seg) : (firstPlaces l).Nodup := by
  induction l with
  | nil => exact List.nodup_nil
  | cons n ns ih =>
    rw [firstPlaces, List.nodup_cons]
    exact ⟨by simp, ih.filter _⟩

theorem State.Ok.loadRouteArea (h : s.Ok) : s.loadRouteArea.Ok := by
  refine State.Ok.withSegments ((h.withRoute _).withAssessment _) ⟨fun n => ?_, firstPlaces_nodup _⟩
  simp only [Vector.get_eq_getElem, Vector.getElem_ofFn]
  exact segmentOfItem_redrive _

theorem State.Ok.restart (h : s.Ok) (start : StartKind) : (s.restart start).Ok :=
  State.ok_ite ((h.freshChip .on).loadRouteArea.withRoute _)
    (((h.freshChip .on).withMem (Memory.wf_initialise h.mem)).raise _)

theorem execPowerUp_ok (h : s.Ok) : resultOk (execPowerUp s) :=
  resultOk_next (State.ok_ite h (h.restart _))

theorem execPartReset_ok (h : s.Ok) : resultOk (execPartReset s) :=
  resultOk_next (h.serve _ fun _ => ((h.finishFrame.writeBack.writeCheckpoint).restart _).written)

theorem State.Ok.endWork (h : s.Ok) : s.endWork.Ok := by
  have h1 : (s.withPorts (s.ports.map Port.warned)).Ok := h.withPorts fun p => by
    simp [Vector.get_eq_getElem, Port.warned]
  have h2 := State.Ok.sameBuffer h1 (x := { s.matching with inHand := none }) rfl
  have h3 := h2.withStore (x := { s.store with lines := s.store.lines.map Line.discardHeld })
    ⟨by
      intro i j a b ha hb hab
      have key : ∀ (k : Fin 8) c, ((s.store.lines.map Line.discardHeld).get k).body = some c →
          (s.store.lines.get k).body = some c := by
        intro k c hc
        simp only [Vector.get_eq_getElem, Vector.getElem_map, Line.discardHeld] at hc ⊢
        split_ifs at hc
        · exact hc
      exact h.store.lines i j a b (key i a ha) (key j b hb) hab,
    h.store.recency, h.store.queue, h.store.blocks, h.store.inPool⟩
  have h4 := h3.withCommand (x := { s.command with unit := .idle, response := [] })
    ⟨(fun e => nomatch e), fun _ => rfl, fun _ e => nomatch e⟩
  have h5 := h4.withTamper (x := { s.tamper with entries := [], evictions := 0, turnedAway := 0, pulseRunning := false })
    ⟨Nat.zero_le _, List.nodup_nil, List.Pairwise.nil⟩
  have h6 := State.Ok.leaving (h5.withRoute { s.route with scanning := none }) none
  exact h6.withDepot ⟨h.depot.batch, h.depot.idle, h.depot.failures, h.depot.faulted, h.depot.receiver,
    FormingOk.none rfl⟩

theorem execPowerWarning_ok (h : s.Ok) : resultOk (execPowerWarning s) :=
  resultOk_next (State.ok_ite (h.endWork.writeBack.writeCheckpoint.withPower _) h)

theorem execPowerLoss_ok (h : s.Ok) (loss : Loss) : resultOk (execPowerLoss loss s) := by
  unfold execPowerLoss
  split_ifs
  · exact resultOk_next (State.Ok.freshChip (h.withMem (State.memAfter_wf h.mem loss)) _)
  · intro t ht; cases ht

/-! ### The RECOVERY scan -/

theorem State.Ok.scanRead (h : s.Ok) (slot : Nat) : (s.scanRead slot).2.Ok := by
  unfold State.scanRead
  split
  next i hi =>
    obtain ⟨b, hb, hs⟩ := State.lineOf_some hi
    refine h.hold _ i ?_
    rw [hb]
    exact State.fits_own h hb _ rfl
  next hn =>
    have he := h.evict s.victim
    have hl := State.evict_lines s.victim s
    dsimp only
    split
    · exact he.hold _ _ (State.fits_fresh hn hl _ _ _)
    · exact he.hold _ _ (State.fits_fresh hn hl _ _ _)

theorem State.Ok.discard (h : s.Ok) (slot : Nat) : (s.discard slot).Ok :=
  ((h.dropLine slot).enqueue _).withRoute _

theorem State.Ok.enroll (h : s.Ok) {slot : Nat} (hs : slot < 8192) (serial : Word) (status : Status)
    (segment : Option Seg) : (s.enroll slot serial status segment).Ok :=
  State.Ok.report ((h.withMem (Memory.wf_insertSerial h.mem serial slot)).withDirectory
    (h.directory.set hs (by simp))) _ _

/-- Every block that a chain walk reaches is a block there is. -/
theorem Memory.walkChain_lt (m : Memory) (fuel : Nat) (claimed : List Nat) (number : Half) (first : Bool)
    (intervals : Nat) : ∀ b ∈ (m.walkChain fuel claimed number first intervals).blocks, b.1 < 4096 := by
  induction fuel generalizing claimed number first intervals with
  | zero => simp [Memory.walkChain]
  | succ fuel ih =>
    unfold Memory.walkChain
    split
    · simp
    · split
      · simp
      next hr =>
        split
        · simp
        · dsimp only
          have hn : number.toNat < 4096 := by simp only [Config.blocks] at hr; omega
          have step : ∀ rest : ChainWalk, (∀ b ∈ rest.blocks, b.1 < 4096) → ∀ k,
              ∀ b ∈ (number.toNat, k) :: rest.blocks, b.1 < 4096 := fun rest hrest k b hb => by
            rcases List.mem_cons.1 hb with rfl | hb
            · exact hn
            · exact hrest b hb
          split
          · split
            · exact step _ (ih _ _ _ _) _
            · intro b hb; cases hb
          · split
            · exact step _ (ih _ _ _ _) _
            · intro b hb; cases hb

theorem State.Ok.useBlocks (l : List (Nat × BlockKind)) (hl : ∀ b ∈ l, b.1 < 4096) (h : s.Ok) :
    (l.foldl (fun s b => s.useBlock b.1) s).Ok := by
  induction l generalizing s with
  | nil => exact h
  | cons b l ih =>
    exact ih (fun c hc => hl c (List.mem_cons_of_mem _ hc)) (h.useBlock (hl b (List.mem_cons_self ..)))

theorem State.Ok.recoverChain (h : s.Ok) (slot : Nat) (r : Record) : (s.recoverChain slot r).Ok := by
  have h1 := (h.useBlocks _ (s.mem.walkChain_lt 4 s.store.usedBlocks r.firstBlock true 0)).setChain slot
    (s.mem.walkChain_lt 4 s.store.usedBlocks r.firstBlock true 0)
  exact State.ok_ite ((h1.cutChain _ _ _ _).withRoute _) h1

/-- What holds of the scan when it has read the slots below `n`: the machine's bounds, and of the queue's
entries to be, their order and that each is of a slot of its own, below `n`. -/
structure Scan.Ok (x : Scan) (n : Nat) : Prop where
  state : x.state.Ok
  ordered : x.flagged.Pairwise fun a b => b.ranksAbove a = false
  slots : (x.flagged.map (·.slot)).Nodup
  below : ∀ e ∈ x.flagged, e.slot < n

variable {n : Nat}

theorem Scan.Ok.withState {x : Scan} (h : x.Ok n) {t : State} (ht : t.Ok) :
    Scan.Ok { x with state := t } n := ⟨ht, h.ordered, h.slots, h.below⟩

theorem Scan.Ok.next {x : Scan} (h : x.Ok n) : x.Ok (n + 1) :=
  ⟨h.state, h.ordered, h.slots, fun e he => Nat.lt_succ_of_lt (h.below e he)⟩

theorem Scan.Ok.letGo {x : Scan} (h : x.Ok n) (slot : Nat) :
    Scan.Ok { x with state := x.state.letGo slot } n := h.withState (h.state.letGo slot)

theorem Scan.ok_ite {c : Prop} [Decidable c] {a b : Scan} (ha : a.Ok n) (hb : b.Ok n) :
    (if c then a else b).Ok n := by split_ifs <;> assumption

theorem Scan.Ok.keep {x : Scan} {slot : Nat} (h : x.Ok slot) (hs : slot < 8192) (c : Contents) :
    (x.keep slot c).Ok (slot + 1) := by
  unfold Scan.keep
  dsimp only
  split
  · exact h.next
  · exact h.next.withState ((State.ok_ite h.state (h.state.putContents _ _)).enroll hs _ _ _)
  · refine ⟨((State.ok_ite h.state (h.state.putContents _ _)).enroll hs _ _ _).recoverChain _ _,
      ?_, ?_, ?_⟩
    · dsimp only; split_ifs
      · exact insertRanked_ordered h.ordered
      · exact h.ordered
    · dsimp only; split_ifs
      · exact insertRanked_slots h.slots fun e he => Nat.ne_of_lt (h.below e he)
      · exact h.slots
    · dsimp only; split_ifs
      · intro e he
        rcases mem_insertRanked.1 he with rfl | he
        · exact Nat.lt_succ_self slot
        · exact h.next.below e he
      · exact h.next.below

theorem Scan.Ok.fail {x : Scan} (h : x.Ok n) {slot : Nat} (hs : slot < 8192) (bs : List Byte) :
    (x.fail slot bs).Ok n :=
  ⟨(((h.state.putContents _ _).enroll hs _ _ _).withRoute _).raise _, h.ordered, h.slots, h.below⟩

theorem Scan.Ok.dismiss {x : Scan} (h : x.Ok n) (earlier : Nat) (serial : Word) :
    (x.dismiss earlier serial).Ok n :=
  ⟨(((h.state.withMem (Memory.wf_deleteSerial h.state.mem serial)).withDirectory
    (h.state.directory.free earlier)).report _ _).discard _, h.ordered, h.slots, h.below⟩

theorem Scan.Ok.slot {x : Scan} {slot : Nat} (h : x.Ok slot) (hs : slot < 8192) :
    (x.slot slot).Ok (slot + 1) := by
  have h0 := h.state.scanRead slot
  unfold Scan.slot
  dsimp only
  generalize x.state.scanRead slot = read at h0 ⊢
  have h1 : Scan.Ok { x with state := read.2 } slot := h.withState h0
  have h2 : Scan.Ok { x with state := read.2.countOccupied } slot :=
    h.withState (State.Ok.withRoute h0 _)
  have settle : ∀ y : Scan, y.Ok slot → (if read.1.good = true then
      y.keep slot (Contents.ofBytes read.1.bytes) else y.fail slot read.1.bytes).Ok (slot + 1) := by
    intro y hy
    split_ifs
    · exact hy.keep hs _
    · exact (hy.fail hs _).next
  have h3 := (h2.withState (h2.state.discard slot)).next
  refine Scan.Ok.letGo ?_ slot
  refine Scan.ok_ite h1.next (Scan.ok_ite h3 ?_)
  split
  · exact settle _ h2
  next earlier _ => exact Scan.ok_ite (settle _ (h2.dismiss earlier _)) h3

/-- The scan of the first `n` slots. -/
theorem Scan.Ok.range {x : Scan} (h : x.Ok 0) (n : Nat) (hn : n ≤ 8192) :
    ((List.range n).foldl Scan.slot x).Ok n := by
  induction n with
  | zero => exact h
  | succ n ih =>
    rw [List.range_succ, List.foldl_append]
    exact (ih (by omega)).slot (by omega)

theorem State.Ok.beginRecovery (h : s.Ok) : s.beginRecovery.Ok := by
  have h1 := h.loadRouteArea
  have h2 := h1.withMem (Memory.wf_clearIndex h1.mem)
  have h3 := State.Ok.withMatching h2 (x := { s.loadRouteArea.matching with buffer := [] })
    ⟨Nat.zero_le _, List.nodup_nil⟩
  have h4 := State.Ok.withStore (h3.withDirectory DirectoryOk.nil)
    (x := { s.loadRouteArea.store with usedBlocks := [] })
    ⟨h1.store.lines, h1.store.recency, h1.store.queue, List.Pairwise.nil, by simp⟩
  exact (State.Ok.withTamper h4 (x := { s.loadRouteArea.tamper with
    entries := [], evictions := 0, turnedAway := 0 }) ⟨Nat.zero_le _, List.nodup_nil, List.Pairwise.nil⟩).withRoute _

theorem State.Ok.agreePlan (h : s.Ok) : s.agreePlan.Ok := by
  refine h.putPlan ?_
  simp only [List.nodup_append, h.segments.plan.filter, (List.nodup_finRange 64).filter, true_and]
  rintro a ha b hb rfl
  have := (List.mem_filter.1 hb).2
  simp only [Bool.and_eq_true, Bool.not_eq_true', List.contains_eq_mem, decide_eq_false_iff_not] at this
  exact this.2 ha

theorem State.Ok.leaveRecorded (h : s.Ok) (n : Seg) : (s.leaveRecorded n).Ok :=
  State.ok_foldl (fun _ _ h => h.withRoute _) _ (h.leave .scan n)

theorem State.Ok.leaveActive (h : s.Ok) : s.leaveActive.Ok :=
  State.Ok.putActive (State.ok_ite (State.ok_foldl (fun _ n h => State.Ok.leaveRecorded h n) _ h) h) _

theorem State.Ok.settleRecovered (h : s.Ok) (n : Seg) : (s.settleRecovered n).Ok := by
  unfold State.settleRecovered
  dsimp only
  split
  · exact State.ok_ite (h.complete n) h
  · exact State.ok_ite (h.complete n) h
  · exact State.ok_ite (h.complete n) h
  · exact State.ok_ite (h.reopen n) h
  · exact h

theorem State.Ok.settleAll (h : s.Ok) : s.settleAll.Ok :=
  State.ok_ite (State.ok_foldl (fun _ n h => State.Ok.settleRecovered h n) _ h) h

theorem State.Ok.recover (h : s.Ok) : s.recover.Ok := by
  have h1 : Scan.Ok ((List.range Config.slots).foldl Scan.slot ⟨s.beginRecovery, [], []⟩) Config.slots :=
    Scan.Ok.range (x := ⟨s.beginRecovery, [], []⟩)
      ⟨h.beginRecovery, List.Pairwise.nil, List.nodup_nil, by simp⟩ _ (Nat.le_refl _)
  unfold State.recover
  generalize (List.range Config.slots).foldl Scan.slot ⟨s.beginRecovery, [], []⟩ = x at h1 ⊢
  have h2 := h1.state.withTamper (x := { x.state.tamper with
    entries := x.flagged.take Config.tamperEntries })
    ⟨List.length_take_le _ _, h1.slots.sublist ((List.take_sublist _ _).map _),
      h1.ordered.sublist (List.take_sublist _ _)⟩
  exact ((State.Ok.settleAll (State.Ok.leaveActive h2.agreePlan)).withRoute _).raise _

theorem execRecoveryScan_ok (h : s.Ok) : resultOk (execRecoveryScan s) :=
  resultOk_next (State.ok_ite h.recover h)

end Sys2Proof.Machine
end

