-- ==== Sys2Proof/Laws/Counted.lean ====
section
/-! SUPPORT. The segment counters follow the slot directory (R113, R115): every operation and command of the
460 keeps each segment's members and class counts equal to the numbers of the directory's entries that name it. -/

namespace Sys2Proof.Machine

/-! ### Counts in all (`none`) and by class -/

/-- A segment's members, or its count of one class. -/
def Segment.count (e : Segment) : Option Class → Nat
  | none => e.members
  | some .outstanding => e.outstanding
  | some .done => e.done
  | some .faulted => e.faulted

/-- Whether a place counts in a segment's members, or in one of its class counts. -/
def Place.counts (p : Place) (n : Seg) (k : Option Class) : Bool :=
  p.segment == some n && (k.all fun c => p.status.cls == c)

/-- What a place adds to a count: 1 or 0; nothing where there is none. -/
def weight (p : Option Place) (n : Seg) (k : Option Class) : Nat :=
  if p.any fun p => p.counts n k then 1 else 0

/-- Where a directory entry is counted. -/
def DirEntry.place (d : DirEntry) : Place := ⟨d.segment, d.status⟩

/-- How many of the directory's entries a count takes in. -/
def Directory.count (d : Directory) (n : Seg) (k : Option Class) : Nat :=
  d.countP fun e => e.2.place.counts n k

/-- The directory rises and lists slots below `b` alone, and every segment's counters are the counts of its
entries. -/
def Level (b : Nat) (d : Directory) (entries : Vector Segment 64) : Prop :=
  (Rising (d.map (·.1)) ∧ ∀ n ∈ d.map (·.1), n < b) ∧
    ∀ (n : Seg) (k : Option Class), (entries.get n).count k = d.count n k

theorem Directory.count_none (d : Directory) (n : Seg) : d.count n none = d.tally n fun _ => true := by
  simp [Directory.count, Directory.tally, Place.counts, DirEntry.place]

theorem Directory.count_some (d : Directory) (n : Seg) (c : Class) :
    d.count n (some c) = d.tally n (· == c) := by
  simp [Directory.count, Directory.tally, Place.counts, DirEntry.place]

theorem level_iff (s : State) (b : Nat) : Level b s.directory s.segments.entries ↔
    (Rising (s.directory.map (·.1)) ∧ ∀ n ∈ s.directory.map (·.1), n < b) ∧ s.Counted := by
  refine and_congr_right fun _ => ⟨fun h => ?_, fun h n k => ?_⟩
  · exact ⟨fun n => (h n none).trans (s.directory.count_none n),
      fun n => (h n (some .outstanding)).trans (s.directory.count_some n _),
      fun n => (h n (some .done)).trans (s.directory.count_some n _),
      fun n => (h n (some .faulted)).trans (s.directory.count_some n _)⟩
  · rcases k with _ | k
    · exact (h.members n).trans (s.directory.count_none n).symm
    · rw [Directory.count_some]
      cases k
      · exact h.outstanding n
      · exact h.done n
      · exact h.faulted n

/-! ### The directory's counts -/

/-- Occupying a slot: the entry's place is counted in, and the place of the entry before it out. -/
theorem Directory.count_set {d : Directory} (h : Rising (d.map (·.1))) (slot : Nat) (x : DirEntry)
    (n : Seg) (k : Option Class) :
    (d.set slot x).count n k + weight ((d.get slot).map DirEntry.place) n k =
      d.count n k + weight (some x.place) n k := by
  unfold Rising at h
  induction d with
  | nil => simp [Directory.set, Directory.get, Directory.count, weight, List.countP_cons]
  | cons c d ih =>
    obtain ⟨a, e⟩ := c
    rw [List.map_cons, List.pairwise_cons] at h
    have ih := ih h.2
    unfold Directory.count at *
    rw [Directory.set, Directory.get]
    split_ifs <;> simp only [List.countP_cons, weight, Option.map_some, Option.map_none, Option.any_some,
      Option.any_none, Bool.false_eq_true, if_false] at * <;> omega

/-- An occupied slot's place is counted. -/
theorem Directory.weight_le {d : Directory} (slot : Nat) (n : Seg) (k : Option Class) :
    weight ((d.get slot).map DirEntry.place) n k ≤ d.count n k := by
  induction d with
  | nil => simp [Directory.get, weight]
  | cons c d ih =>
    obtain ⟨a, e⟩ := c
    unfold Directory.count at *
    rw [Directory.get]
    split_ifs <;> simp only [List.countP_cons, weight, Option.map_some, Option.map_none, Option.any_some,
      Option.any_none, Bool.false_eq_true, if_false] at * <;> omega

/-- Freeing a slot: its place is counted out. -/
theorem Directory.count_free {d : Directory} (h : Rising (d.map (·.1))) (slot : Nat) (n : Seg)
    (k : Option Class) :
    (d.free slot).count n k + weight ((d.get slot).map DirEntry.place) n k = d.count n k := by
  unfold Rising at h
  induction d with
  | nil => simp [Directory.free, Directory.get, Directory.count, weight]
  | cons c d ih =>
    obtain ⟨a, e⟩ := c
    rw [List.map_cons, List.pairwise_cons] at h
    have ih := ih h.2
    have gone : ∀ m, m ≤ a → d.filter (fun c => c.1 != m) = d := fun m hm =>
      List.filter_eq_self.2 fun c hc => by
        have := h.1 c.1 (List.mem_map_of_mem hc)
        simp only [bne_iff_ne, ne_eq]; show ¬ _ = _; have : a < c.1 := this; omega
    unfold Directory.count Directory.free at *
    rw [Directory.get]
    split_ifs with h1 h2
    · subst h1
      rw [List.filter_cons_of_neg (by simp), gone a (Nat.le_refl a)]
      simp [weight, List.countP_cons]
    · rw [List.filter_cons_of_pos (by simp [h1]), gone slot (Nat.le_of_lt h2)]
      simp [weight]
    · rw [List.filter_cons_of_pos (by simp [h1]), List.countP_cons, List.countP_cons]
      omega

/-- The lowest free slot is not listed (R9). -/
theorem Directory.get_lowestFree {d : Directory} (h : Rising (d.map (·.1))) : d.get d.lowestFree = none := by
  have h1 := (firstAbsent_spec _ h 0).2.1
  rw [← Directory.get_isSome h, Bool.not_eq_true, Option.isSome_eq_false_iff, Option.isNone_iff_eq_none] at h1
  exact h1

/-! ### What keeps the counters level -/

/-- `s` comes from `a` with the counters kept level. -/
def Keeps (a s : State) : Prop :=
  ∀ b, Level b a.directory a.segments.entries → Level b s.directory s.segments.entries

variable {a s : State}

theorem Keeps.refl (s : State) : Keeps s s := fun _ => id

theorem Keeps.trans {t : State} (h : Keeps a s) (q : Keeps s t) : Keeps a t := fun b ha => q b (h b ha)

theorem Keeps.ite {c : Prop} [Decidable c] {x y : State} (hx : Keeps a x) (hy : Keeps a y) :
    Keeps a (if c then x else y) := by split_ifs <;> assumption

theorem Keeps.withSegments (h : Keeps a s) {x : Segments} (hx : x.entries = s.segments.entries) :
    Keeps a (s.withSegments x) := fun b ha => by
  show Level b s.directory x.entries
  rw [hx]; exact h b ha

theorem Keeps.putSegment (h : Keeps a s) (n : Seg) {e : Segment}
    (he : ∀ k, e.count k = (s.segment n).count k) : Keeps a (s.putSegment n e) := by
  have key : Keeps a (s.withSegments { s.segments with entries := s.segments.entries.set n.val e }) := by
    refine fun b ha => ⟨(h b ha).1, fun m k => ?_⟩
    refine Eq.trans ?_ ((h b ha).2 m k)
    show ((s.segments.entries.set n.val e).get m).count k = _
    rw [Vector.get_eq_getElem, Vector.getElem_set]
    split_ifs with hm
    · rw [he k]; unfold State.segment; rw [Vector.get_eq_getElem, Vector.get_eq_getElem]; simp only [hm]
    · rw [Vector.get_eq_getElem]
  exact Keeps.ite key key

/-! ### Reports (R115) -/

theorem State.putSegment_entries (s : State) (n : Seg) (e : Segment) :
    (s.putSegment n e).segments.entries = s.segments.entries.set n.val e := by
  unfold State.putSegment; split_ifs <;> rfl

theorem State.putSegment_directory (s : State) (n : Seg) (e : Segment) :
    (s.putSegment n e).directory = s.directory := by
  unfold State.putSegment; split_ifs <;> rfl

theorem State.countAt_directory (s : State) (p : Option Place) (f : Nat → Nat) :
    (s.countAt p f).directory = s.directory := by
  unfold State.countAt
  split
  · exact s.putSegment_directory _ _
  · rfl

theorem Segment.recount_count (e : Segment) (c : Class) (f : Nat → Nat) (k : Option Class) :
    (e.recount c f).count k = if (k.all fun x => c == x) then f (e.count k) else e.count k := by
  cases c <;> match k with
    | none => rfl
    | some .outstanding => rfl
    | some .done => rfl
    | some .faulted => rfl

/-- A place counted in or out: the function is applied to the counts the place counts in. -/
theorem State.countAt_count (s : State) (p : Option Place) (f : Nat → Nat) (n : Seg) (k : Option Class) :
    ((s.countAt p f).segment n).count k =
      if p.any fun p => p.counts n k then f ((s.segment n).count k) else (s.segment n).count k := by
  unfold State.countAt
  split
  next m status =>
    have : (s.putSegment m ((s.segment m).recount status.cls f)).segment n =
        if m = n then (s.segment m).recount status.cls f else s.segment n := by
      unfold State.segment
      rw [State.putSegment_entries, Vector.get_eq_getElem, Vector.getElem_set, Vector.get_eq_getElem]
      simp only [Fin.ext_iff]
      rfl
    rw [this]
    by_cases hm : m = n
    · subst hm
      simp [Segment.recount_count, Place.counts]
    · simp [hm, Place.counts]
  next hp =>
    have : (p.any fun p => p.counts n k) = false := by
      match p, hp with
      | none, _ => rfl
      | some ⟨none, status⟩, _ => rfl
      | some ⟨some m, status⟩, hp => exact absurd rfl (hp m status)
    rw [this]; rfl

theorem Keeps.putPlan (h : Keeps a s) (plan : List Seg) : Keeps a (s.putPlan plan) :=
  Keeps.ite h (h.withSegments (by exact rfl))

theorem Keeps.putActive (h : Keeps a s) (x : Option Seg) : Keeps a (s.putActive x) :=
  Keeps.ite h (h.withSegments (by exact rfl))

theorem Keeps.setDwell (h : Keeps a s) (t : Option Nat) : Keeps a (s.setDwell t) := h.withSegments rfl

theorem Keeps.complete (h : Keeps a s) (n : Seg) : Keeps a (s.complete n) := by
  have h1 := (h.putSegment n (e := { s.segment n with state := .complete }) (fun _ => rfl)).putPlan
    (planWithout s.segments.plan n)
  exact Keeps.ite h (Keeps.ite h (Keeps.ite ((h1.putActive _).setDwell _) h1))

theorem Keeps.reopen (h : Keeps a s) (n : Seg) : Keeps a (s.reopen n) := by
  refine Keeps.ite ?_ h
  split
  · exact (h.putSegment _ (by exact fun _ => rfl)).putPlan _
  · exact h.putSegment _ (by exact fun _ => rfl)
  · exact h

theorem Keeps.judge (h : Keeps a s) (n : Option Seg) (before : Nat) : Keeps a (s.judge n before) := by
  unfold State.judge
  split
  · exact h
  · exact Keeps.ite (h.complete _) (Keeps.ite (h.reopen _) h)

/-- A report of a place counted out and another in, after a change of the directory that does the same. -/
theorem level_report {t : State} {b c : Nat} {d : Directory} {old new : Option Place}
    (h : Level b d t.segments.entries)
    (hr : Rising (t.directory.map (·.1)) ∧ ∀ n ∈ t.directory.map (·.1), n < c)
    (hd : ∀ n k, weight old n k ≤ d.count n k ∧
      t.directory.count n k + weight old n k = d.count n k + weight new n k) :
    Level c (t.report old new).directory (t.report old new).segments.entries := by
  have h1 : Level c ((t.countAt old (· - 1)).countAt new (· + 1)).directory
      ((t.countAt old (· - 1)).countAt new (· + 1)).segments.entries := by
    refine ⟨by rw [State.countAt_directory, State.countAt_directory]; exact hr, fun n k => ?_⟩
    show (((t.countAt old (· - 1)).countAt new (· + 1)).segment n).count k = _
    rw [State.countAt_directory, State.countAt_directory, State.countAt_count, State.countAt_count]
    obtain ⟨c1, c2⟩ := hd n k
    have e1 : (t.segment n).count k = d.count n k := h.2 n k
    rw [e1]
    unfold weight at c1 c2
    split_ifs at * <;> omega
  have h2 : ∀ x : State, Keeps x x := Keeps.refl
  unfold State.report
  dsimp only
  split
  · exact h1
  · exact (((h2 _).judge _ _).judge _ _) c h1

/-- An occupied slot gets another entry, and its record moves from place to place. -/
theorem Keeps.refiled (h : Keeps a s) {t : State} {slot : Nat} {d x : DirEntry}
    (hg : s.directory.get slot = some d) (hd : t.directory = s.directory.set slot x)
    (he : t.segments.entries = s.segments.entries) : Keeps a (t.report (some d.place) (some x.place)) := by
  intro b ha
  obtain ⟨⟨hr, hb⟩, hc⟩ := h b ha
  refine level_report (b := b) (d := s.directory) ⟨⟨hr, hb⟩, by rw [he]; exact hc⟩ ?_ fun n k => ?_
  · rw [hd]
    refine ⟨Directory.rising_set hr slot x, fun n hn => ?_⟩
    rcases Directory.mem_set.1 hn with rfl | hn
    · exact hb _ ((Directory.get_isSome hr _).1 (by rw [hg]; rfl))
    · exact hb n hn
  · rw [hd]
    have h1 := Directory.count_set hr slot x n k
    have h2 := Directory.weight_le (d := s.directory) slot n k
    rw [hg] at h1 h2
    exact ⟨h2, h1⟩

/-- A free slot is occupied, and its record counted. -/
theorem level_occupied {t : State} {b c slot : Nat} {d : Directory} {x : DirEntry}
    (h : Level b d t.segments.entries) (hg : d.get slot = none) (hd : t.directory = d.set slot x)
    (hb : b ≤ c) (hs : slot < c) :
    Level c (t.report none (some x.place)).directory (t.report none (some x.place)).segments.entries := by
  refine level_report h ?_ fun n k => ?_
  · rw [hd]
    refine ⟨Directory.rising_set h.1.1 slot x, fun n hn => ?_⟩
    rcases Directory.mem_set.1 hn with rfl | hn
    · exact hs
    · exact Nat.lt_of_lt_of_le (h.1.2 n hn) hb
  · rw [hd]
    have h1 := Directory.count_set h.1.1 slot x n k
    rw [hg] at h1
    exact ⟨Nat.zero_le _, h1⟩

/-- A slot is freed, and its record counted out. -/
theorem Keeps.freed (h : Keeps a s) {t : State} {slot : Nat} (hd : t.directory = s.directory.free slot)
    (he : t.segments.entries = s.segments.entries) : Keeps a (t.report (s.place slot) none) := by
  intro b ha
  obtain ⟨⟨hr, hb⟩, hc⟩ := h b ha
  refine level_report (b := b) (d := s.directory) ⟨⟨hr, hb⟩, by rw [he]; exact hc⟩ ?_ fun n k => ?_
  · rw [hd]
    exact ⟨Directory.rising_free hr slot, fun n hn => hb n (Directory.mem_free.1 hn).2⟩
  · rw [hd]
    exact ⟨Directory.weight_le slot n k, Directory.count_free hr slot n k⟩

/-- An entry changed in its chain alone is counted as before. -/
theorem Keeps.setChain (h : Keeps a s) (slot : Nat) (chain : List (Nat × BlockKind)) :
    Keeps a (s.setChain slot chain) := by
  unfold State.setChain
  split
  next d hg =>
    intro b ha
    obtain ⟨⟨hr, hb⟩, hc⟩ := h b ha
    refine ⟨⟨Directory.rising_set hr slot _, fun n hn => ?_⟩, fun n k => (hc n k).trans ?_⟩
    · rcases Directory.mem_set.1 hn with rfl | hn
      · exact hb _ ((Directory.get_isSome hr _).1 (by rw [hg]; rfl))
      · exact hb n hn
    · have h1 := Directory.count_set hr slot { d with chain := chain } n k
      rw [hg] at h1
      exact (Nat.add_right_cancel (h1.trans rfl)).symm
  · exact h

/-- No record and no count: the counters are level. -/
theorem level_reset (b : Nat) : Level b [] Segments.reset.entries := by
  refine ⟨⟨List.Pairwise.nil, fun n hn => (List.not_mem_nil hn).elim⟩, fun n k => ?_⟩
  have : Segments.reset.entries.get n = Segment.reset := by
    show (Vector.replicate 64 Segment.reset).get n = _
    rw [Vector.get_eq_getElem, Vector.getElem_replicate]
  rw [this]
  rcases k with _ | _ | _ | _ <;> rfl

/-! ### Updates of one block -/

theorem Keeps.withMem (h : Keeps a s) (x : Memory) : Keeps a (s.withMem x) := h
theorem Keeps.withStore (h : Keeps a s) (x : Store) : Keeps a (s.withStore x) := h
theorem Keeps.withTamper (h : Keeps a s) (x : Tamper) : Keeps a (s.withTamper x) := h
theorem Keeps.withMatching (h : Keeps a s) (x : Matching) : Keeps a (s.withMatching x) := h
theorem Keeps.withPorts (h : Keeps a s) (x : Vector Port 4) : Keeps a (s.withPorts x) := h
theorem Keeps.withPower (h : Keeps a s) (x : Power) : Keeps a (s.withPower x) := h
theorem Keeps.withRoute (h : Keeps a s) (x : Route) : Keeps a (s.withRoute x) := h
theorem Keeps.withAssessment (h : Keeps a s) (x : Option Assessment) : Keeps a (s.withAssessment x) := h
theorem Keeps.withDepot (h : Keeps a s) (x : Depot) : Keeps a (s.withDepot x) := h
theorem Keeps.withCommand (h : Keeps a s) (x : Command) : Keeps a (s.withCommand x) := h
theorem Keeps.withDraws (h : Keeps a s) (x : Nat) : Keeps a (s.withDraws x) := h
theorem Keeps.raise (h : Keeps a s) (e : Event) : Keeps a (s.raise e) := h

/-! ### The tamper queue -/

theorem Keeps.inserted (h : Keeps a s) : Keeps a s.inserted :=
  h

theorem Keeps.placeInQueue (h : Keeps a s) (x : TamperEntry) : Keeps a (s.placeInQueue x) := by
  unfold State.placeInQueue
  split
  · exact Keeps.inserted (h.withTamper _)
  · split
    · exact h
    · split
      · exact Keeps.inserted (h.withTamper _)
      · exact h.withTamper _

theorem Keeps.removedReport (h : Keeps a s) (slot : Nat) : Keeps a (s.removedReport slot) :=
  h.withTamper _

theorem Keeps.flaggedReport (h : Keeps a s) (slot : Nat) (r : Record) :
    Keeps a (s.flaggedReport slot r) := (h.removedReport slot).placeInQueue _

theorem Keeps.risenReport (h : Keeps a s) (slot : Nat) (r : Record) : Keeps a (s.risenReport slot r) := by
  unfold State.risenReport
  split
  · exact h.withTamper _
  · exact h.placeInQueue _

/-! ### The write queue and the lines -/

theorem Keeps.writeOldest (h : Keeps a s) : Keeps a s.writeOldest := by
  unfold State.writeOldest
  split
  · exact h
  · exact h

theorem Keeps.enqueue (h : Keeps a s) (q : Queued) : Keeps a (s.enqueue q) := by
  unfold State.enqueue
  dsimp only
  split
  · exact h.withStore _
  · exact h.writeOldest.withStore _

theorem Keeps.drain (h : Keeps a s) (n : Nat) : Keeps a (State.drain n s) := by
  induction n generalizing s with
  | zero => exact h
  | succ n ih => exact ih h.writeOldest

theorem Keeps.setLine (h : Keeps a s) (i : Fin 8) (l : Line) : Keeps a (s.setLine i l) := h.withStore _

theorem Keeps.hold (h : Keeps a s) (u : Holder) (i : Fin 8) (b : Option Cached) :
    Keeps a (s.hold u i b) := h.withStore _

theorem Keeps.putContents (h : Keeps a s) (slot : Nat) (c : Contents) : Keeps a (s.putContents slot c) := by
  unfold State.putContents
  split
  · exact h.setLine _ _
  · exact h

theorem State.putContents_segments (s : State) (slot : Nat) (c : Contents) :
    (s.putContents slot c).segments.entries = s.segments.entries := by
  unfold State.putContents; split <;> rfl

theorem Keeps.letGo (h : Keeps a s) (slot : Nat) : Keeps a (s.letGo slot) := by
  unfold State.letGo
  split
  · exact h.setLine _ _
  · exact h

theorem Keeps.dropLine (h : Keeps a s) (slot : Nat) : Keeps a (s.dropLine slot) := by
  unfold State.dropLine
  split
  · exact h.setLine _ _
  · exact h

theorem Keeps.grants (h : Keeps a s) (u : Holder) (n : Nat) : Keeps a (s.grants u n) := by
  unfold State.grants
  split
  · exact h
  · exact Keeps.ite h (Keeps.drain (h.withStore _) _)

theorem Keeps.grant (h : Keeps a s) (u : Holder) : Keeps a (s.grant u) := h.grants u 1

theorem Keeps.evict (h : Keeps a s) (i : Fin 8) : Keeps a (s.evict i) := by
  unfold State.evict
  split
  · exact Keeps.ite (h.enqueue _) h
  · exact h

theorem Keeps.useBlock (h : Keeps a s) (n : Nat) : Keeps a (s.useBlock n) := h.withStore _

theorem Keeps.freeChain (h : Keeps a s) (chain : List (Nat × BlockKind)) : Keeps a (s.freeChain chain) :=
  h.withStore _

theorem Keeps.forget (h : Keeps a s) (slot : Nat) : Keeps a (s.forget slot) := h

theorem Keeps.becomeFault (h : Keeps a s) (slot : Nat) : Keeps a (s.becomeFault slot) := by
  unfold State.becomeFault
  split
  · exact h
  next d hg =>
    dsimp only
    generalize (s.mem.serialNaming slot Config.indexEntries).getD 0 = serial
    exact Keeps.raise (h.refiled (t := ((((s.putContents slot (.fault serial d.segment)).freeChain
      d.chain).removedReport slot).forget slot).withDirectory
        (s.directory.set slot ⟨.fault, d.segment, [], false⟩)) hg rfl (by simp only [State.withDirectory_segments, State.forget, State.withMatching_segments,
        State.removedReport, State.withTamper_segments, State.freeChain, State.withStore_segments,
        State.putContents_segments])) .recordFault

theorem Keeps.takeLine (h : Keeps a s) (u : Holder) (slot : Nat) : Keeps a (s.takeLine u slot).1 := by
  unfold State.takeLine
  split
  · exact h.hold _ _ _
  · dsimp only
    split
    · exact (h.evict _).hold _ _ _
    · split
      · exact ((h.evict _).grant _).hold _ _ _
      · exact (((h.evict _).grant _).hold _ _ _).becomeFault _

theorem Keeps.takeLineFresh (h : Keeps a s) (u : Holder) (slot : Nat) (c : Contents) :
    Keeps a (s.takeLineFresh u slot c) := by
  unfold State.takeLineFresh
  split
  · exact h.hold _ _ _
  · exact (h.evict _).hold _ _ _

/-! ### Records -/

theorem Keeps.fileRecord (h : Keeps a s) (slot : Nat) (r : Record) : Keeps a (s.fileRecord slot r) := by
  unfold State.fileRecord
  split
  · exact h
  next d hg =>
    exact h.refiled (d := d) (x := { d with
      status := .live r.status, segment := r.segment, batched := r.batch.isSome }) hg rfl rfl

theorem Keeps.putRecord (h : Keeps a s) (slot : Nat) (r : Record) : Keeps a (s.putRecord slot r) :=
  (h.putContents _ _).fileRecord _ _

theorem Keeps.writeBlock (h : Keeps a s) (u : Holder) (n : Nat) (b : Block) :
    Keeps a (s.writeBlock u n b) := (h.withMem _).grant u

theorem Keeps.relink (h : Keeps a s) (u : Holder) (n : Nat) (next : Half) :
    Keeps a (s.relink u n next) := (h.withMem _).grant u

theorem Keeps.cutChain (h : Keeps a s) (u : Holder) (slot : Nat) (r : Record) (kept : Nat) :
    Keeps a (s.cutChain u slot r kept) := by
  unfold State.cutChain
  dsimp only
  split
  · exact (((h.freeChain _).setChain _ _).relink _ _ _).putRecord _ _
  · exact ((h.freeChain _).setChain _ _).putRecord _ _

theorem Keeps.readExtension (h : Keeps a s) (u : Holder) (slot : Nat) (r : Record) :
    Keeps a (s.readExtension u slot r).1 := by
  have h1 := h.grants u
  exact Keeps.ite ((h1 _).cutChain _ _ _ _) (h1 _)

theorem Keeps.retire (h : Keeps a s) (u : Holder) (slot : Nat) (serial : Word) :
    Keeps a (s.retire u slot serial) := by
  have h1 := h.takeLineFresh u slot .free
  unfold State.retire
  dsimp only
  generalize s.takeLineFresh u slot .free = x at h1 ⊢
  have h2 := h1.freed (t := (((((x.withMem (x.mem.deleteSerial serial)).grants u
    (x.mem.deleteAccesses serial)).forget slot).freeChain (x.chain slot)).removedReport slot).withDirectory
      (x.directory.free slot)) (slot := slot) rfl
    (congrArg Segments.entries (State.grants_segments u _ (x.withMem (x.mem.deleteSerial serial))))
  refine Keeps.enqueue (Keeps.dropLine ?_ slot) _
  rw [show (((((x.withMem (x.mem.deleteSerial serial)).grants u (x.mem.deleteAccesses serial)).forget
    slot).freeChain (x.chain slot)).removedReport slot).directory = x.directory from
      State.grants_directory u _ (x.withMem (x.mem.deleteSerial serial))]
  exact h2

theorem Keeps.foldl {α : Type} {f : State → α → State} (hf : ∀ s x, Keeps a s → Keeps a (f s x))
    (l : List α) (h : Keeps a s) : Keeps a (l.foldl f s) := by
  induction l generalizing s with
  | nil => exact h
  | cons x l ih => exact ih (hf s x h)

theorem Keeps.foldl_fst {α β : Type} {f : State × β → α → State × β}
    (hf : ∀ x y, Keeps a x.1 → Keeps a (f x y).1) (l : List α) {x : State × β} (h : Keeps a x.1) :
    Keeps a (l.foldl f x).1 := by
  induction l generalizing x with
  | nil => exact h
  | cons y l ih => exact ih (hf x y h)

theorem Keeps.foldl_snd {α β : Type} {f : β × State → α → β × State}
    (hf : ∀ x y, Keeps a x.2 → Keeps a (f x y).2) (l : List α) {x : β × State} (h : Keeps a x.2) :
    Keeps a (l.foldl f x).2 := by
  induction l generalizing x with
  | nil => exact h
  | cons y l ih => exact ih (hf x y h)

theorem Keeps.cleanLine (h : Keeps a s) (i : Fin 8) : Keeps a (s.cleanLine i) := by
  unfold State.cleanLine
  split
  · exact Keeps.ite (((h.enqueue _).setLine _ _).withStore _) h
  · exact h

theorem Keeps.cleanLines (h : Keeps a s) : Keeps a s.cleanLines :=
  Keeps.foldl (fun _ i h => h.cleanLine i) _ h

theorem Keeps.writeBack (h : Keeps a s) : Keeps a s.writeBack := h.cleanLines.drain _

/-! ### Walks, and a command's search -/

theorem Keeps.settleSlot (u : Holder) (slot : Nat) {x : State × WalkCounts} (h : Keeps a x.1) :
    Keeps a (State.settleSlot u slot x).1 := by
  have h1 := h.takeLine u slot
  unfold State.settleSlot
  dsimp only
  split
  · exact h1.letGo _
  · split
    · split
      · dsimp only
        exact (h1.putRecord _ _).letGo _
      · dsimp only
        exact ((h1.putRecord _ _).flaggedReport _ _).letGo _
      · exact h1.letGo _
    · exact h1.letGo _

theorem Keeps.settleLeft (h : Keeps a s) (n : Seg) : Keeps a (s.settleLeft n) := by
  have put : ∀ x k plan, Keeps a ((s.putSegment n { s.segment n with redrive := k, state := x }).putPlan plan) :=
    fun x k plan => (h.putSegment n (by exact fun _ => rfl)).putPlan plan
  have done : ∀ plan, Keeps a ((s.putSegment n { s.segment n with state := .complete }).putPlan plan) :=
    fun plan => (h.putSegment n (by exact fun _ => rfl)).putPlan plan
  unfold State.settleLeft
  dsimp only
  split_ifs
  · exact (((done _).raise _).putActive _).setDwell _
  · exact ((put _ _ _).putActive _).setDwell _
  · exact ((put _ _ _).putActive _).setDwell _

theorem Keeps.enter (h : Keeps a s) (n : Seg) : Keeps a (s.enter n) := by
  have key : ∀ e p x y, (∀ k, e.count k = (s.segment n).count k) →
      Keeps a ((((s.putSegment n e).putPlan p).putActive x).setDwell y) :=
    fun e p x y he => (((h.putSegment n he).putPlan p).putActive x).setDwell y
  unfold State.enter
  dsimp only
  split
  · exact key _ _ _ _ fun _ => rfl
  · exact key _ _ _ _ fun _ => rfl
  · exact key _ _ _ _ fun _ => rfl
  · exact h

theorem Keeps.define (h : Keeps a s) (n : Seg) (base limit dwell : Half) :
    Keeps a (s.define n base limit dwell) := by
  have put : ∀ x, Keeps a (s.putSegment n { s.segment n with
      base := base, limit := limit, dwell := dwell, state := x }) := fun x => h.putSegment n fun _ => rfl
  unfold State.define
  dsimp only
  split
  · exact (put _).putPlan _
  · exact (put _).putPlan _
  · exact put _

theorem Keeps.find (h : Keeps a s) (serial : Word) : Keeps a (s.find serial).2 := by
  have hl : Keeps a (s.lookupFor serial).2 := h.grants .command _
  unfold State.find
  split
  next s1 he => rw [he] at hl; exact hl
  next slot s1 he =>
    rw [he] at hl
    have ht := Keeps.takeLine hl .command slot
    dsimp only
    split_ifs
    · exact ht
    · exact ht.letGo _
    · split
      · exact ht.letGo _
      · split_ifs
        · exact ht
        · exact ht.letGo _
      · split_ifs
        · exact ht
        · exact ht.letGo _

theorem Keeps.walkSlot (h : Keeps a s) (set : Byte) (slot : Nat) (w : Walked) :
    Keeps a (s.walkSlot set slot w).2 := by
  have h1 := (h.takeLine .command slot).letGo slot
  unfold State.walkSlot
  dsimp only
  split
  · exact h1
  · split <;> exact h1

/-! ### A frame's work -/

theorem Keeps.keepEntry (h : Keeps a s) (e : MatchEntry) : Keeps a (s.keepEntry e) := h

theorem Keeps.resolveByIndex (h : Keeps a s) (serial : Word) : Keeps a (s.resolveByIndex serial).2 := by
  unfold State.resolveByIndex
  dsimp only
  split
  · exact (h.grants _ _).keepEntry _
  · exact h.grants .matching _

theorem Keeps.resolve (h : Keeps a s) (serial : Word) : Keeps a (s.resolve serial).2 := by
  unfold State.resolve
  split
  · exact h.keepEntry _
  · exact h.resolveByIndex _

theorem Keeps.noteReading (h : Keeps a s) (slot : Nat) (f : Frame) : Keeps a (s.noteReading slot f) :=
  h

theorem Keeps.reportFrame (h : Keeps a s) (slot : Nat) (old new : Record) :
    Keeps a (s.reportFrame slot old new) :=
  Keeps.ite (Keeps.ite (h.flaggedReport _ _) (Keeps.ite (h.risenReport _ _) h)) h

theorem Keeps.writeIntervals (h : Keeps a s) (u : Holder) (bs : List Nat) (values : List Half) :
    Keeps a (State.writeIntervals u bs values s) := by
  induction bs generalizing s values with
  | nil => exact h
  | cons b bs ih => exact ih (h.writeBlock _ _ _) _

theorem Keeps.freeIntervals (h : Keeps a s) (slot : Nat) : Keeps a (s.freeIntervals slot) :=
  (h.freeChain _).setChain _ _

theorem Keeps.chainBlock (h : Keeps a s) (slot b : Nat) : Keeps a (s.chainBlock slot b) :=
  (h.useBlock _).setChain _ _

theorem Keeps.storeIntervals (h : Keeps a s) (u : Holder) (slot : Nat) (values : List Half)
    (r : Record) : Keeps a (s.storeIntervals u slot values r) := by
  have h2 := h.writeIntervals u (((s.chain slot).filter fun b => b.2 == .interval).map (·.1)) values
  unfold State.storeIntervals
  dsimp only
  split_ifs
  · refine Keeps.raise (Keeps.putRecord ?_ _ _) _
    split
    · exact h2
    · exact h2.relink _ _ _
  · refine Keeps.putRecord ?_ _ _
    split
    · exact h2
    · exact h2.relink _ _ _

/-! ### The matching engine -/

theorem Keeps.passGate (h : Keeps a s) (f : Frame) : Keeps a (s.passGate f) := by
  have hr := h.resolve f.serial
  unfold State.passGate
  split
  next he => rw [he] at hr; exact hr.withMatching _
  next he => rw [he] at hr; exact Keeps.withMatching hr _

theorem Keeps.takeHead (h : Keeps a s) (p : Fin 4) (rest : List Frame) :
    Keeps a (s.takeHead p rest) := h

theorem Keeps.takeFrame (h : Keeps a s) : Keeps a s.takeFrame := by
  unfold State.takeFrame
  split
  · exact h
  next p _ =>
    split
    · exact h
    next f rest hb =>
      have h1 := h.takeHead p rest
      exact (h1.passGate f).ite (h1.withMatching _)

theorem Keeps.endFrame (h : Keeps a s) (f : Frame) (slot : Nat) (applied duplicate : Bool) :
    Keeps a (s.endFrame f slot applied duplicate) :=
  ((Keeps.ite (h.noteReading slot f) h).letGo slot).withMatching _

theorem Keeps.replaceOn (h : Keeps a s) (met : Bool) (f : Frame) (slot : Nat) (r : Record) (n : Nat) :
    Keeps a (State.replaceOn met f slot r n s) :=
  State.replaceOn_keeps (fun _ n h => h.withDraws n) (fun _ h => h.withMatching _)
    (fun _ b _ h => h.chainBlock slot b)
    (fun _ h => (h.storeIntervals .matching slot f.intervals r).endFrame f slot true false) h met n

theorem Keeps.applyFrame (h : Keeps a s) (met : Bool) (f : Frame) (slot : Nat) (r : Record) :
    Keeps a (s.applyFrame met f slot r) := by
  unfold State.applyFrame
  dsimp only
  generalize r.matchFrame s.params (s.assessment.getD Assessment.blank) (s.matchEntry f.serial) f = m
  have h1 := (h.putRecord slot m.record).reportFrame slot r m.record
  exact Keeps.ite ((h1.freeIntervals slot).replaceOn _ _ _ _ _) (h1.endFrame _ _ _ _)

theorem Keeps.workFrame (h : Keeps a s) (met : Bool) (f : Frame) (slot : Nat) : Keeps a (s.workFrame met f slot) := by
  unfold State.workFrame
  split
  · exact h.applyFrame _ _ _ _
  · exact ((h.forget slot).letGo slot).withMatching _

theorem Keeps.goOnReplacing (h : Keeps a s) (met : Bool) (f : Frame) (slot : Nat) :
    Keeps a (s.goOnReplacing met f slot) := by
  unfold State.goOnReplacing
  dsimp only
  split
  · exact h.replaceOn _ _ _ _ _
  · exact h.endFrame _ _ _ _

theorem Keeps.matchOn (h : Keeps a s) (met : Bool) : Keeps a (s.matchOn met) := by
  unfold State.matchOn
  split
  · exact h
  · exact h.goOnReplacing _ _ _
  next f slot _ =>
    have h1 := h.takeLine .matching slot
    refine Keeps.ite (h1.workFrame _ _ _) ?_
    have h2 := h1.trans (((Keeps.refl _).letGo slot).resolveByIndex f.serial)
    split
    next hr => rw [hr] at h2; exact Keeps.withMatching h2 _
    next hr =>
      rw [hr] at h2
      have h3 := Keeps.trans h2 ((Keeps.refl _).takeLine .matching (by assumption))
      exact (h3.workFrame _ _ _).ite ((h3.letGo _).withMatching _)

theorem Keeps.finishFrame (h : Keeps a s) : Keeps a s.finishFrame := h.matchOn false

theorem Keeps.goOnFrame (h : Keeps a s) : Keeps a s.goOnFrame := by
  unfold State.goOnFrame
  split
  · exact h.goOnReplacing _ _ _
  · exact h

theorem Keeps.engineStep (h : Keeps a s) : Keeps a s.engineStep := h.finishFrame.ite h.takeFrame

/-! ### The upload engine, and both engines beside a walk -/

theorem Keeps.surveySlot (cursor : Option Key) {x : List Surveyed × State} (h : Keeps a x.2) (slot : Nat) :
    Keeps a (State.surveySlot cursor x slot).2 := (h.takeLine .upload slot).letGo slot

theorem Keeps.markAndPack {x : List (List Byte) × State} (h : Keeps a x.2) (slot : Nat) (r : Record) :
    Keeps a (State.markAndPack slot r x).2 := by
  unfold State.markAndPack
  dsimp only
  exact (((h.putRecord _ _).withDepot _).readExtension _ _ _).letGo _

theorem Keeps.markOne {x : List (List Byte) × State} (h : Keeps a x.2) (k : Surveyed) :
    Keeps a (State.markOne x k).2 := by
  have h1 := h.takeLine .upload k.key.slot
  have hg := h1.letGo k.key.slot
  unfold State.markOne
  dsimp only
  split
  · exact hg
  · split
    · split
      · exact Keeps.markAndPack (x := (x.1, (x.2.takeLine .upload k.key.slot).1)) h1 _ _
      · exact hg
    · exact hg

/-- The engines' work beside a walk. -/
theorem Keeps.kept (a : State) : KeptBeside (Keeps a) where
  draws _ _ h := h.withDraws _
  engine _ h := h.engineStep
  upload _ h := State.uploadStep_keeps (fun _ _ h => h.withDepot _) (fun c _ k h => Keeps.surveySlot c h k)
    (fun _ k h => Keeps.markOne h k) h

theorem Keeps.beside (h : Keeps a s) : Keeps a s.beside := (Keeps.kept a).beside h

theorem Keeps.visitBeside {α : Type} (slot : Nat) {visit : State × α → State × α} {x : State × α}
    (hv : ∀ x, Keeps a x.1 → Keeps a (visit x).1) (h : Keeps a x.1) : Keeps a (State.visitBeside slot visit x).1 :=
  (Keeps.kept a).visitBeside hv h

theorem Keeps.leaveWalk (h : Keeps a s) (u : Holder) (n : Seg) : Keeps a (s.leaveWalk u n).1 :=
  (Keeps.foldl_fst (fun _ slot hx => Keeps.settleSlot u slot hx) (s.slotsOf n) (x := (_, WalkCounts.none))
    (h.withSegments (x := { s.segments with leaving := some n }) rfl)).withSegments rfl

theorem Keeps.leave (h : Keeps a s) (u : Holder) (n : Seg) : Keeps a (s.leave u n).1 :=
  (h.leaveWalk u n).settleLeft n

theorem Keeps.walkOne (h : Keeps a s) (set filter : Byte) (slot : Nat) (w : Walked) :
    Keeps a (s.walkOne set filter slot w).2 := by
  have h1 := h.beside
  unfold State.walkOne
  dsimp only
  split
  · exact Keeps.visitBeside slot (x := (s.beside, w)) (visit := fun x => (x.1.walkSlot set slot x.2).swap)
      (fun x hx => hx.walkSlot set slot x.2) h1
  · exact h1

theorem Keeps.walk (h : Keeps a s) (set filter : Byte) (slots : List Nat) (w : Walked) :
    Keeps a (s.walk set filter slots w).2 := by
  induction slots generalizing s w with
  | nil => exact h
  | cons slot rest ih =>
    rw [State.walk]
    split
    · exact h
    · exact ih (h.walkOne set filter slot w) _

end Sys2Proof.Machine
end

