-- ==== Sys2Proof/Laws/CountedSteps.lean ====
section
/-! SUPPORT. Every command of the 460 keeps the segment counters level with the slot directory (R113, R115). -/

namespace Sys2Proof.Machine

variable {a s : State}

theorem Keeps.changeOffered (h : Keeps a s) (slot : Nat) (f : Record → Record) :
    Keeps a (s.changeOffered slot f).1 := by
  have h1 := h.takeLine .upload slot
  unfold State.changeOffered
  dsimp only
  split
  · exact (h1.putRecord _ _).letGo _
  · exact h1.letGo _

theorem Keeps.returnAll (h : Keeps a s) (l : List (Nat × Word)) :
    Keeps a (l.foldl State.returnOne s) :=
  Keeps.foldl (fun _ e h => Keeps.ite (h.changeOffered e.1 Record.returned) h) l h

theorem Keeps.written (h : Keeps a s) : Keeps a s.written := h.withCommand _

theorem Keeps.respond (h : Keeps a s) (x : Answer) (data : List Byte) :
    Keeps a (s.respond x data) := h.withCommand _

theorem Keeps.reply (h : Keeps a s) (x : Answer) (data : List Byte) : Keeps a (s.reply x data) :=
  h.written.respond x data

theorem Keeps.refuse (h : Keeps a s) (x : Answer) : Keeps a (s.refuse x) := h.reply x []

theorem Keeps.executing (h : Keeps a s) (x : Held) : Keeps a (s.executing x) := h.withCommand _

theorem Keeps.collide (h : Keeps a s) : Keeps a s.collide := (h.withCommand _).raise _

theorem Keeps.refuseHolding (h : Keeps a s) (slot : Nat) (x : Answer) :
    Keeps a (s.refuseHolding slot x) := (h.letGo slot).refuse x

theorem Keeps.serve (h : Keeps a s) (during : Bool) {work : State → State}
    (hw : Keeps a (work s)) : Keeps a (s.serve during work) := by
  unfold State.serve
  split_ifs
  · exact h.written
  · exact h.collide
  · exact h.refuse _
  · exact hw

/-! ### The route controller's operations -/

theorem Keeps.writeCheckpoint (h : Keeps a s) : Keeps a s.writeCheckpoint :=
  (h.withMem _).withRoute _

theorem Keeps.setClock (h : Keeps a s) (v : Word) : Keeps a (s.setClock v) :=
  Keeps.writeCheckpoint (h.withRoute _)

theorem Keeps.writeDue (h : Keeps a s) : Keeps a s.writeDue := by
  unfold State.writeDue
  split
  · exact (h.withMem _).withRoute _
  · exact h

theorem Keeps.enterRouteState (h : Keeps a s) (x : RouteState) :
    Keeps a (s.enterRouteState x) := Keeps.withMem (h.withRoute _) _

theorem Keeps.emptyRoute (a s : State) : Keeps a s.emptyRoute := fun b _ => level_reset b

theorem Keeps.returnIfBare (h : Keeps a s) : Keeps a s.returnIfBare := (Keeps.emptyRoute a s).ite h

/-! ### The commands -/

/-- Some bound on the directory's slots makes the counters level. -/
def State.Levels (s : State) : Prop := ∃ b, Level b s.directory s.segments.entries

/-- Every next state of a result has level counters, where the state before has. -/
def keepsResult (a : State) (r : Result) : Prop := ∀ t, r = .next t → a.Levels → t.Levels

theorem State.Levels.keeps {t : State} (h : s.Levels) (q : Keeps s t) : t.Levels := h.imp q

theorem State.Levels.ite {c : Prop} [Decidable c] {x y : State} (hx : x.Levels) (hy : y.Levels) :
    (if c then x else y).Levels := by split_ifs <;> assumption

theorem State.Levels.refuse (h : s.Levels) (x : Answer) : (s.refuse x).Levels := h.keeps ((Keeps.refl s).refuse x)

theorem State.Levels.serve (h : s.Levels) (during : Bool) {work : State → State} (hw : (work s).Levels) :
    (s.serve during work).Levels :=
  State.Levels.ite (h.keeps (Keeps.refl s).written) (State.Levels.ite (h.keeps (Keeps.refl s).collide)
    (State.Levels.ite (h.refuse _) hw))

theorem keeps_next {t : State} (h : Keeps a t) : keepsResult a (.next t) := by
  rintro u hu ⟨b, hb⟩; cases hu; exact ⟨b, h b hb⟩

theorem keeps_ite {c : Prop} [Decidable c] {x y : Result} (hx : keepsResult a x)
    (hy : keepsResult a y) : keepsResult a (if c then x else y) := by split_ifs <;> assumption

theorem execRouteHeader_keeps (p : HeaderParams) (s : State) :
    keepsResult s (execRouteHeader p s) := by
  refine keeps_next ((Keeps.refl s).serve _ (Keeps.ite ((Keeps.refl s).refuse _) ?_))
  split
  · exact (Keeps.refl s).refuse _
  next x _ =>
    refine Keeps.ite (Keeps.reply ?_ _ _) ((Keeps.refl s).refuse _)
    exact Keeps.enterRouteState (Keeps.setClock (((((Keeps.refl s).withRoute _).withMem
      _).withAssessment _).withMatching _) _) _

theorem execRouteOpen_keeps (s : State) : keepsResult s (execRouteOpen s) :=
  keeps_next ((Keeps.refl s).serve _ (Keeps.ite ((Keeps.refl s).refuse _)
    (((Keeps.refl s).withRoute _).reply _ _)))

theorem Keeps.openSlot (h : Keeps a s) (slot : Nat) : Keeps a (s.openSlot slot) := by
  have h1 := h.takeLine .scan slot
  unfold State.openSlot
  dsimp only
  split_ifs
  · exact Keeps.trans (h1.withRoute _) ((Keeps.refl _).letGo _)
  · split
    · split_ifs
      · exact h1.trans (((Keeps.refl _).fileRecord _ _).letGo _)
      · exact h1.trans (((Keeps.refl _).putRecord _ _).letGo _)
    · exact h1.letGo _

theorem Keeps.openSettle (h : Keeps a s) (n : Seg) : Keeps a (s.openSettle n) :=
  Keeps.ite ((h.putSegment _ (by exact fun _ => rfl)).putPlan _) h

theorem execOpenScan_keeps (s : State) : keepsResult s (execOpenScan s) := by
  have h1 := Keeps.foldl (fun _ slot h => Keeps.openSlot h slot) (s.directory.map (·.1))
    (Keeps.refl s)
  have h2 := Keeps.foldl (fun s n h => Keeps.trans h ((Keeps.refl s).openSettle n))
    (List.finRange 64) h1
  exact keeps_ite (keeps_next (Keeps.raise (Keeps.withRoute (Keeps.enterRouteState
    (h2.setClock 0) .opened) _) _)) (keeps_next (Keeps.refl s))

theorem Keeps.closeSettle (h : Keeps a s) (n : Seg) : Keeps a (s.closeSettle n) :=
  Keeps.ite (Keeps.ite ((h.putSegment _ (by exact fun _ => rfl)).raise _)
    (h.putSegment _ (by exact fun _ => rfl))) h

theorem Keeps.routePass (h : Keeps a s) : Keeps a s.routePass.1 :=
  Keeps.foldl_fst (fun _ slot hx => Keeps.settleSlot .command slot hx) _ (x := (s, WalkCounts.none)) h

/-- What ROUTE_CLOSE does after the frame in hand is finished and before the route is CLOSED. -/
theorem Keeps.closed (h : Keeps a s) :
    Keeps a (((List.finRange 64).foldl State.closeSettle s).putPlan []).writeBack :=
  ((Keeps.foldl (fun _ n h => Keeps.closeSettle h n) _ h).putPlan _).writeBack

theorem Keeps.closeWork (h : Keeps a s) : Keeps a s.closeWork.1 := by
  have h1 := h.finishFrame
  unfold State.closeWork
  dsimp only
  split
  · exact h1.routePass.closed.enterRouteState _
  · exact (h1.leave .command _).routePass.closed.enterRouteState _

theorem execRouteClose_keeps (s : State) : keepsResult s (execRouteClose s) :=
  keeps_next ((Keeps.refl s).serve _ (Keeps.ite ((Keeps.refl s).refuse _)
    ((Keeps.refl s).writeCheckpoint.closeWork.reply _ _)))

theorem execRouteClear_keeps (s : State) : keepsResult s (execRouteClear s) :=
  keeps_next ((Keeps.refl s).serve _ (Keeps.ite ((Keeps.refl s).refuse _)
    (Keeps.ite ((Keeps.refl s).refuse _) ((Keeps.emptyRoute s _).reply _ _))))

theorem Keeps.reportAll (h : Keeps a s) (r : Report) : Keeps a (s.reportAll r) :=
  State.reportAll_keeps (fun _ _ h => h.withDraws _) (fun _ _ h => h.withCommand _) h r

theorem Keeps.goOnReport (h : Keeps a s) : Keeps a s.goOnReport :=
  State.goOnReport_keeps (fun _ _ h => h.withDraws _) (fun _ _ h => h.withCommand _) h

theorem execRouteStatus_keeps (s : State) : keepsResult s (execRouteStatus s) :=
  keeps_next ((Keeps.refl s).serve _ ((Keeps.refl s).reportAll .route))

theorem Keeps.lookupFor (h : Keeps a s) (serial : Word) : Keeps a (s.lookupFor serial).2 := h.grants .command _

/-- A record loaded takes the lowest free slot and is counted. -/
theorem State.Levels.load (h : s.Levels) (p : LoadParams) (kind : Kind) : (s.load p kind).Levels := by
  obtain ⟨b, hb⟩ := h
  have h1 := (Keeps.refl s).takeLineFresh .command s.directory.lowestFree
    (.live (Record.fresh p kind (s.assignSegment p.sequence) .pending)) b hb
  have hd := State.takeLineFresh_directory .command s.directory.lowestFree
    (.live (Record.fresh p kind (s.assignSegment p.sequence) .pending)) s
  unfold State.load
  dsimp only
  generalize s.takeLineFresh .command s.directory.lowestFree _ = x at h1 hd ⊢
  refine ⟨max b (s.directory.lowestFree + 1), Keeps.reply (Keeps.letGo (Keeps.refl _) _) _ _ _
    (level_occupied (b := b) (d := s.directory)
      (x := ⟨.live .pending, s.assignSegment p.sequence, [], false⟩) (slot := s.directory.lowestFree)
      ?_ (Directory.get_lowestFree hb.1.1) ?_ (Nat.le_max_left _ _) (Nat.le_max_right _ _))⟩
  · rw [← hd]; simpa using h1
  · rw [← hd]; simp

theorem execRecordLoad_keeps (p : LoadParams) (s : State) : keepsResult s (execRecordLoad p s) := by
  intro t ht hs
  unfold execRecordLoad at ht
  rw [Host.Outcome.next.injEq] at ht
  rw [← ht]
  have h1 := hs.keeps ((Keeps.refl s).lookupFor p.serial)
  refine hs.serve _ (State.Levels.ite (hs.refuse _) ?_)
  split
  · exact hs.refuse _
  · exact State.Levels.ite (hs.refuse _) (State.Levels.ite (h1.refuse _)
      (State.Levels.ite (h1.refuse _) (h1.load p _)))

theorem execRecordLookup_keeps (serial : Word) (wanted : Byte) (s : State) :
    keepsResult s (execRecordLookup serial wanted s) := by
  refine keeps_next ((Keeps.refl s).serve _ (Keeps.ite ((Keeps.refl s).refuse _) ?_))
  have hf : Keeps s (s.find serial).2 := (Keeps.refl s).find _
  split
  next he => rw [he] at hf; exact Keeps.refuse hf _
  next he => rw [he] at hf; exact Keeps.refuseHolding hf _ _
  next he => rw [he] at hf; exact Keeps.reply (hf.letGo _) _ _
  next he =>
    rw [he] at hf
    dsimp only
    split
    · exact Keeps.reply (hf.trans (((Keeps.refl _).readExtension _ _ _).letGo _)) _ _
    · exact Keeps.reply (hf.letGo _) _ _

theorem Keeps.answerAmend (h : Keeps a s) (slot : Nat) (r : Record) :
    Keeps a (s.answerAmend slot r) := (h.letGo _).reply _ _

theorem Keeps.amend (h : Keeps a s) (slot : Nat) (p : AmendParams) (r after : Record) :
    Keeps a (s.amend slot p r after) := by
  unfold State.amend
  dsimp only
  split
  · exact (h.trans (Keeps.ite ((((Keeps.refl s).putRecord _ _).forget _).removedReport _)
      (((Keeps.refl s).putRecord _ _).forget _))).answerAmend _ _
  · exact (h.trans (Keeps.ite ((((Keeps.refl s).putRecord _ _).forget _).removedReport _)
      (((Keeps.refl s).putRecord _ _).forget _))).answerAmend _ _

theorem Keeps.amendFound (h : Keeps a s) (p : AmendParams) (found : Found) :
    Keeps a (s.amendFound p found) := by
  unfold State.amendFound
  dsimp only
  split
  · exact h.refuse _
  · exact h.refuseHolding _ _
  · exact h.refuseHolding _ _
  · refine Keeps.ite (h.refuseHolding _ _) (Keeps.ite (h.refuseHolding _ _) ?_)
    split
    · exact h.refuseHolding _ _
    · exact Keeps.ite (h.refuseHolding _ _) (Keeps.ite (h.refuseHolding _ _) (h.amend _ _ _ _))

theorem Keeps.rewrite (h : Keeps a s) (slot : Nat) (p : LoadParams) (kind : Kind) :
    Keeps a (s.rewrite slot p kind) :=
  (h.trans (((((Keeps.refl s).takeLineFresh _ _ _).setChain _ _).fileRecord _ _).forget _)).answerAmend _ _

theorem Keeps.fullRewrite (h : Keeps a s) (p : AmendParams) : Keeps a (s.fullRewrite p) := by
  have h1 := h.lookupFor p.serial
  unfold State.fullRewrite
  split
  next he => rw [he] at h1; exact Keeps.refuse h1 _
  next slot s1 he =>
    rw [he] at h1
    split
    · exact Keeps.refuse h1 _
    · refine Keeps.ite (Keeps.refuse h1 _) (Keeps.ite (Keeps.refuse h1 _) ?_)
      split
      · exact Keeps.ite (Keeps.rewrite h1 _ _ _) (Keeps.refuse h1 _)
      · exact Keeps.refuse h1 _

theorem execRecordAmend_keeps (p : AmendParams) (s : State) : keepsResult s (execRecordAmend p s) :=
  keeps_next ((Keeps.refl s).serve _ (Keeps.ite (Keeps.fullRewrite (Keeps.refl s) p)
    (Keeps.amendFound ((Keeps.refl s).find _) p _)))

theorem Keeps.answerNote (h : Keeps a s) (slot : Nat) : Keeps a (s.answerNote slot) :=
  (h.letGo _).reply _ _

theorem Keeps.note (h : Keeps a s) (slot : Nat) (text : List Byte) (r : Record) :
    Keeps a (s.note slot text r) := by
  have q := Keeps.refl s
  unfold State.note
  dsimp only
  split
  · exact Keeps.ite ((h.trans (((q.freeChain _).setChain _ _).putRecord _ _)).answerNote _)
      ((h.trans (q.writeBlock _ _ _)).answerNote _)
  · refine Keeps.ite (h.answerNote _) ?_
    split
    · exact h.refuseHolding _ _
    · exact (h.trans ((((q.useBlock _).writeBlock _ _ _).setChain _ _).putRecord _ _)).answerNote _

theorem Keeps.serveNote {a s : State} (h : Keeps a s) (serial : Word) (text : List Byte) :
    Keeps a (s.serveNote serial text) := by
  have hf : Keeps a (s.find serial).2 := h.find _
  unfold State.serveNote
  split
  next he => rw [he] at hf; exact Keeps.refuse hf _
  next he => rw [he] at hf; exact Keeps.refuseHolding hf _ _
  next he => rw [he] at hf; exact Keeps.refuseHolding hf _ _
  next he => rw [he] at hf; exact Keeps.ite (Keeps.refuseHolding hf _ _) (Keeps.note hf _ _ _)

theorem execRecordNote_keeps (serial : Word) (text : List Byte) (s : State) :
    keepsResult s (execRecordNote serial text s) := by
  have h := Keeps.refl s
  exact keeps_next (h.serve _ (Keeps.ite (h.refuse _) (Keeps.ite (h.refuse _)
    (Keeps.ite (h.refuse _) (h.serveNote serial text).goOnFrame))))

theorem execRecordRetire_keeps (serial : Word) (s : State) :
    keepsResult s (execRecordRetire serial s) := by
  have h := Keeps.refl s
  refine keeps_next (h.serve _ ?_)
  have hf : Keeps s (s.lookupFor serial).2 := h.lookupFor _
  split
  next he => rw [he] at hf; exact Keeps.refuse hf _
  next he =>
    rw [he] at hf
    exact Keeps.ite (Keeps.refuse hf _) (Keeps.ite (Keeps.refuse hf _)
      (Keeps.reply (Keeps.returnIfBare (Keeps.trans hf ((Keeps.refl _).retire _ _ _))) _ _))

theorem execRecordWalk_keeps (start : Half) (statuses filter : Byte) (s : State) :
    keepsResult s (execRecordWalk start statuses filter s) :=
  keeps_next ((Keeps.refl s).serve _ (Keeps.ite ((Keeps.refl s).refuse _)
    (((Keeps.refl s).walk _ _ _ _).reply _ _)))

theorem execSegmentDefine_keeps (segment : Byte) (base limit dwell : Half) (s : State) :
    keepsResult s (execSegmentDefine segment base limit dwell s) := by
  have h := Keeps.refl s
  refine keeps_next (h.serve _ (Keeps.ite (h.refuse _) ?_))
  split
  · exact h.refuse _
  · exact Keeps.ite (h.refuse _) (Keeps.ite (h.refuse _)
      ((h.define _ _ _ _).reply _ _))

theorem Keeps.left {a : State} (n : Seg) (entering : Option Seg) {x : State × WalkCounts} (h : Keeps a x.1) :
    Keeps a (State.left n entering x) := by
  have h1 := (h.withSegments (x := { x.1.segments with leaving := none }) rfl).settleLeft n
  unfold State.left
  dsimp only
  split
  · exact h1.reply _ _
  · exact (h1.enter _).reply _ _

theorem Keeps.leaveFrom {a s : State} (h : Keeps a s) (n : Seg) (entering : Option Seg) :
    Keeps a (s.leaveFrom n entering) :=
  (Keeps.kept a).leaveOn (fun _ _ h => h.withCommand _)
    (fun _ h => Keeps.left _ _ h) _ (fun slot _ _ h => Keeps.settleSlot .command slot h) (h.withSegments rfl)

theorem Keeps.goOnLeaving {a s : State} (h : Keeps a s) : Keeps a s.goOnLeaving :=
  (Keeps.kept a).goOnLeaving (fun _ _ h => h.withCommand _)
    (fun _ _ _ h => Keeps.left _ _ h) (fun _ slot _ _ h => Keeps.settleSlot .command slot h) h

theorem execSegmentEnter_keeps (segment : Byte) (s : State) :
    keepsResult s (execSegmentEnter segment s) := by
  have h := Keeps.refl s
  refine keeps_next (h.serve _ (Keeps.ite (h.refuse _) ?_))
  split
  · exact h.refuse _
  · refine Keeps.ite (h.refuse _) (Keeps.ite (h.reply _ _) ?_)
    split
    · exact (h.enter _).reply _ _
    · exact h.leaveFrom _ _

theorem execSegmentLeave_keeps (s : State) : keepsResult s (execSegmentLeave s) := by
  have h := Keeps.refl s
  refine keeps_next (h.serve _ (Keeps.ite (h.refuse _) ?_))
  split
  · exact h.reply _ _
  · exact h.leaveFrom _ _

theorem execSegmentStatus_keeps (segment : Byte) (s : State) :
    keepsResult s (execSegmentStatus segment s) := by
  refine keeps_next ((Keeps.refl s).serve _ ?_)
  split
  · exact (Keeps.refl s).refuse _
  · exact (Keeps.refl s).reply _ _

theorem execPlanRead_keeps (s : State) : keepsResult s (execPlanRead s) :=
  keeps_next ((Keeps.refl s).serve _ ((Keeps.refl s).reply _ _))

theorem execPlanMove_keeps (segment position : Byte) (s : State) :
    keepsResult s (execPlanMove segment position s) := by
  have h := Keeps.refl s
  refine keeps_next (h.serve _ (Keeps.ite (h.refuse _) ?_))
  split
  · exact h.refuse _
  · dsimp only
    split
    · exact (h.putPlan _).reply _ _
    · exact (h.putPlan _).reply _ _
    · exact (h.trans (((Keeps.refl s).putSegment _ (by exact fun _ => rfl)).putPlan _)).reply _ _
    · exact h.refuse _

theorem execTamperRead_keeps (s : State) : keepsResult s (execTamperRead s) :=
  keeps_next ((Keeps.refl s).serve _ ((Keeps.refl s).reply _ _))

theorem execTamperAck_keeps (serial : Word) (s : State) :
    keepsResult s (execTamperAck serial s) := by
  have h := Keeps.refl s
  refine keeps_next (h.serve _ ?_)
  have hf : Keeps s (s.find serial).2 := h.find _
  split
  next he => rw [he] at hf; exact Keeps.refuse hf _
  next he => rw [he] at hf; exact Keeps.refuseHolding hf _ _
  next he => rw [he] at hf; exact Keeps.refuseHolding hf _ _
  next he =>
    rw [he] at hf
    exact Keeps.ite (Keeps.refuseHolding hf _ _) (Keeps.ite (Keeps.refuseHolding hf _ _)
      (Keeps.reply (Keeps.trans hf (Keeps.letGo (Keeps.ite (Keeps.refl _)
        (((Keeps.refl _).putRecord _ _).removedReport _)) _)) _ _))

theorem execCabMode_keeps (mode invert : Byte) (s : State) :
    keepsResult s (execCabMode mode invert s) := by
  refine keeps_next ((Keeps.refl s).serve _ ?_)
  split
  · exact (Keeps.refl s).refuse _
  · exact Keeps.ite ((Keeps.refl s).refuse _) (((Keeps.refl s).withTamper _).reply _ _)

theorem execPortMode_keeps (port mode : Byte) (s : State) :
    keepsResult s (execPortMode port mode s) := by
  refine keeps_next ((Keeps.refl s).serve _ ?_)
  split
  · exact ((Keeps.refl s).withPorts _).reply _ _
  · exact (Keeps.refl s).refuse _

theorem execPortReset_keeps (port : Byte) (s : State) : keepsResult s (execPortReset port s) := by
  refine keeps_next ((Keeps.refl s).serve _ ?_)
  split
  · exact ((Keeps.refl s).withPorts _).executing _
  · exact (Keeps.refl s).refuse _

theorem execResetPulseEnd_keeps (s : State) : keepsResult s (execResetPulseEnd s) := by
  unfold execResetPulseEnd
  split
  · exact keeps_next (((Keeps.refl s).withPorts _).respond _ _)
  · exact keeps_next (Keeps.refl s)

theorem execPortStatus_keeps (s : State) : keepsResult s (execPortStatus s) :=
  keeps_next ((Keeps.refl s).serve _ ((Keeps.refl s).reportAll .ports))

theorem Keeps.withEvents (h : Keeps a s) (x : Events) : Keeps a (s.withEvents x) := h

theorem execEventsRead_keeps (clear : Half) (s : State) : keepsResult s (execEventsRead clear s) :=
  keeps_next ((Keeps.refl s).serve _ (((Keeps.refl s).withEvents _).reply _ _))

theorem execEventsEnable_keeps (enable : Half) (s : State) : keepsResult s (execEventsEnable enable s) :=
  keeps_next ((Keeps.refl s).serve _ (((Keeps.refl s).withEvents _).reply _ _))

theorem execUploadStart_keeps (s : State) : keepsResult s (execUploadStart s) := by
  have h := Keeps.refl s
  refine keeps_next (h.serve _ (Keeps.ite (h.refuse _) ?_))
  split
  · exact (h.withDepot _).reply _ _
  · exact (h.withDepot _).reply _ _
  · exact h.refuse _

theorem execUploadStop_keeps (s : State) : keepsResult s (execUploadStop s) := by
  refine keeps_next ((Keeps.refl s).serve _ (Keeps.reply ?_ _ _))
  split
  · exact Keeps.ite ((Keeps.refl s).withDepot _) ((Keeps.refl s).withDepot _)
  · exact Keeps.refl s

theorem execUploadStatus_keeps (s : State) : keepsResult s (execUploadStatus s) :=
  keeps_next ((Keeps.refl s).serve _ ((((Keeps.refl s).withDepot _).withDraws _).reply _ _))

theorem execFlush_keeps (s : State) : keepsResult s (execFlush s) :=
  keeps_next ((Keeps.refl s).serve _ (((Keeps.refl s).cleanLines).executing _))

theorem execFlushDrainDone_keeps (s : State) : keepsResult s (execFlushDrainDone s) := by
  unfold execFlushDrainDone
  split
  · exact keeps_next ((Keeps.refl s).respond _ _)
  · exact keeps_next (Keeps.refl s)

theorem Keeps.readSelection (h : Keeps a s) (clocks : Nat) : Keeps a (s.readSelection clocks) :=
  (h.withCommand _).ite (h.withCommand _)

theorem execBadCommandBlock_keeps (direction : Byte) (block : List Byte) (s : State) :
    keepsResult s (execBadCommandBlock direction block s) :=
  have h := Keeps.refl s
  keeps_next (Keeps.ite (h.readSelection _) (Keeps.ite (h.withCommand _)
    (Keeps.ite h (h.serve _ (h.refuse _)))))

theorem execCommandCollision_keeps (s : State) : keepsResult s (execCommandCollision s) :=
  keeps_next (Keeps.ite (Keeps.refl s).collide (Keeps.refl s))

theorem execResponseRead_keeps (direction : Byte) (clocks : Nat) (s : State) :
    keepsResult s (execResponseRead direction clocks s) :=
  have h := Keeps.refl s
  keeps_next (Keeps.ite (h.readSelection _) (Keeps.ite h (h.withCommand _)))

theorem execPortByte_keeps (p : Fin 4) (x : Byte) (s : State) :
    keepsResult s (execPortByte p x s) :=
  have h := (Keeps.refl s).withPorts
  keeps_ite (keeps_next (Keeps.refl s))
    (keeps_next (Keeps.ite (Keeps.refl s) (Keeps.ite ((h _).raise _) (h _))).goOnReport)

theorem execByteGapTimeout_keeps (p : Fin 4) (s : State) : keepsResult s (execByteGapTimeout p s) :=
  keeps_ite (keeps_next (Keeps.refl s)) (keeps_next (Keeps.ite (Keeps.refl s) ((Keeps.refl s).withPorts _)).goOnReport)

theorem execFrameTake_keeps (s : State) : keepsResult s (execFrameTake s) :=
  keeps_ite (keeps_next (Keeps.refl s)) (keeps_next (Keeps.ite (Keeps.refl s) (Keeps.refl s).takeFrame).goOnReport)

theorem execFrameMatch_keeps (s : State) : keepsResult s (execFrameMatch s) :=
  keeps_ite (keeps_next (Keeps.refl s)) (keeps_next ((Keeps.refl s).matchOn true).goOnReport)

theorem execWriteQueueWrite_keeps (s : State) : keepsResult s (execWriteQueueWrite s) :=
  keeps_next (Keeps.ite ((Keeps.refl s).writeOldest) (Keeps.refl s))

theorem execRouteClockTick_keeps (s : State) : keepsResult s (execRouteClockTick s) :=
  keeps_ite (keeps_next (Keeps.refl s)) (keeps_next (Keeps.ite (Keeps.goOnLeaving (s := s.tenthPassed)
    ((Keeps.refl s).withRoute _)) (Keeps.refl s)).goOnReport)

theorem execClockCheckpoint_keeps (s : State) : keepsResult s (execClockCheckpoint s) :=
  keeps_next (Keeps.ite (Keeps.refl s).writeDue (Keeps.refl s))

theorem Keeps.dwellExpired {a s : State} (h : Keeps a s) : Keeps a s.dwellExpired := by
  unfold State.dwellExpired
  split
  · exact h
  · refine Keeps.ite h ?_
    dsimp only
    split
    · exact ((h.putSegment _ (by exact fun _ => rfl)).raise _).setDwell _
    · exact (h.raise _).setDwell _

theorem execDwellCompareExpire_keeps (s : State) : keepsResult s (execDwellCompareExpire s) :=
  keeps_next (Keeps.ite (Keeps.refl s) (Keeps.refl s).dwellExpired.goOnLeaving)

theorem execPulseTimerExpire_keeps (s : State) : keepsResult s (execPulseTimerExpire s) :=
  keeps_ite (keeps_next ((Keeps.refl s).withTamper _)) (keeps_next (Keeps.refl s))

theorem execPowerWarning_keeps (s : State) : keepsResult s (execPowerWarning s) := by
  have h : Keeps s s.endWork :=
    ((((((Keeps.refl s).withPorts _).withMatching _).withStore _).withCommand _).withTamper _).withRoute
      _ |>.withSegments rfl |>.withDepot { s.depot with forming := none }
  exact keeps_next (Keeps.ite ((h.writeBack).writeCheckpoint.withPower _)
    (Keeps.refl s))

theorem execDockAttach_keeps (s : State) : keepsResult s (execDockAttach s) :=
  have h := (Keeps.refl s).withDepot { s.depot with dockSense := true }
  keeps_next (Keeps.ite (h.withDepot _) h)

theorem Keeps.finishUpload (h : Keeps a s) : Keeps a s.finishUpload :=
  Keeps.returnIfBare ((h.withDepot _).raise _)

theorem Keeps.returnBatch (h : Keeps a s) : Keeps a s.returnBatch :=
  (h.returnAll _).withDepot _

theorem execDockRemoval_keeps (s : State) : keepsResult s (execDockRemoval s) := by
  have h := (Keeps.refl s).withDepot
  exact keeps_next (Keeps.ite (Keeps.withDepot (Keeps.ite (Keeps.withDepot (h _) _)
    (Keeps.returnBatch (Keeps.withDepot (h _) _))) _) (h _))

theorem execBatchForm_keeps (s : State) : keepsResult s (execBatchForm s) :=
  keeps_ite (keeps_next (State.formOn_keeps (P := Keeps s) (fun _ x h => h.withDepot x)
    (fun _ n h => h.withDraws n) (fun c _ k h => Keeps.surveySlot c h k) (fun _ h => h.finishUpload)
    (fun _ k h => Keeps.markOne h k) ((Keeps.refl s).withDepot _) _)) (keeps_next (Keeps.refl s))

theorem execOfferSent_keeps (s : State) : keepsResult s (execOfferSent s) :=
  keeps_next (Keeps.ite ((Keeps.refl s).withDepot _) (Keeps.refl s))

theorem Keeps.judgeOne (h : Keeps a s) (accepted : Half) (e : Nat × (Nat × Word)) :
    Keeps a (State.judgeOne accepted s e) := by
  have h1 := h.retire .upload e.2.1 e.2.2
  have h2 := h.changeOffered e.2.1 Record.refusedByDepot
  exact Keeps.ite h (Keeps.ite (Keeps.returnIfBare (h1.withDepot _))
    (Keeps.ite (h2.withDepot _) h2))

theorem Keeps.takeVerdict (h : Keeps a s) (accepted : Half) :
    Keeps a (s.takeVerdict accepted) :=
  (Keeps.foldl (fun _ e h => Keeps.judgeOne h accepted e) _ (h.withDepot _)).withDepot _

theorem execDepotByte_keeps (x : Byte) (s : State) : keepsResult s (execDepotByte x s) := by
  have h := Keeps.refl s
  refine keeps_next ?_
  dsimp only
  split
  · exact h
  · split
    · exact Keeps.ite (h.withDepot _) h
    · split
      · exact Keeps.ite (h.withDepot _) (h.withDepot _)
      · split
        · exact h.withDepot _
        · split
          · exact Keeps.ite ((h.withDepot _).takeVerdict _) ((h.withDepot _).withDepot _)
          · exact h.withDepot _

theorem execDepotByteGapTimeout_keeps (s : State) : keepsResult s (execDepotByteGapTimeout s) :=
  keeps_next (Keeps.ite ((Keeps.refl s).withDepot _) (Keeps.refl s))

theorem execVerdictTimeout_keeps (s : State) : keepsResult s (execVerdictTimeout s) := by
  have h := Keeps.refl s
  exact keeps_next (Keeps.ite h (Keeps.ite ((h.returnBatch.withDepot _).raise _)
    (h.returnBatch.withDepot _)))

/-! ### Restarts and the RECOVERY scan -/

/-- With no record, counters of 0 are level. -/
theorem level_empty {entries : Vector Segment 64} (b : Nat)
    (h : ∀ (n : Seg) (k : Option Class), (entries.get n).count k = 0) : Level b [] entries :=
  ⟨⟨List.Pairwise.nil, fun _ hn => (List.not_mem_nil hn).elim⟩, fun n k => (h n k).trans rfl⟩

/-- The segments as the route area gives them count nothing (R113). -/
theorem State.loadRouteArea_count (s : State) (n : Seg) (k : Option Class) :
    (s.loadRouteArea.segments.entries.get n).count k = 0 := by
  have : s.loadRouteArea.segments.entries.get n = segmentOfItem (s.mem.item (5 + n.val)) := by
    show (Vector.ofFn fun n : Seg => segmentOfItem (s.mem.item (5 + n.val))).get n = _
    rw [Vector.get_eq_getElem, Vector.getElem_ofFn]
  rw [this]
  rcases k with _ | _ | _ | _ <;> rfl

theorem State.freshChip_levels (s : State) (power : Power) : (s.freshChip power).Levels := ⟨0, level_reset 0⟩

theorem Keeps.initialised (h : Keeps a s) : Keeps a s.initialised := h

theorem State.Levels.loadRouteArea (hd : s.directory = []) : s.loadRouteArea.Levels := by
  have hs : s.loadRouteArea.directory = [] := by
    simp only [State.loadRouteArea, State.withSegments_directory, State.withAssessment_directory,
      State.withRoute_directory, hd]
  exact ⟨0, by rw [hs]; exact level_empty 0 s.loadRouteArea_count⟩

theorem State.Levels.restart (s : State) (start : StartKind) : (s.restart start).Levels :=
  State.Levels.ite ((State.Levels.loadRouteArea rfl).keeps ((Keeps.refl _).withRoute _))
    ((s.freshChip_levels .on).keeps (Keeps.refl _).initialised)

theorem execPowerUp_keeps (s : State) : keepsResult s (execPowerUp s) := by
  intro t ht hs
  unfold execPowerUp at ht
  rw [Host.Outcome.next.injEq] at ht
  rw [← ht]
  split
  · exact hs
  · exact State.Levels.restart s _

theorem execPowerLoss_keeps (loss : Loss) (s : State) : keepsResult s (execPowerLoss loss s) :=
  keeps_ite (keeps_next fun b _ => level_reset b) (fun _ h => nomatch h)

theorem execPartReset_keeps (s : State) : keepsResult s (execPartReset s) := by
  intro t ht hs
  unfold execPartReset at ht
  rw [Host.Outcome.next.injEq] at ht
  rw [← ht]
  exact hs.serve _ ((State.Levels.restart _ _).keeps ((Keeps.refl _).written))

theorem Keeps.scanRead (h : Keeps a s) (slot : Nat) : Keeps a (s.scanRead slot).2 := by
  unfold State.scanRead
  split
  · exact h.hold _ _ _
  · dsimp only
    split
    · exact (h.evict _).hold _ _ _
    · exact (h.evict _).hold _ _ _

theorem Keeps.discard (h : Keeps a s) (slot : Nat) : Keeps a (s.discard slot) :=
  Keeps.withRoute (h.trans (((Keeps.refl s).dropLine slot).enqueue _)) _

/-- The scan's bound: the counters level, and no slot listed from `n` on. -/
def Scan.Level (n : Nat) (x : Scan) : Prop :=
  Machine.Level n x.state.directory x.state.segments.entries

theorem Scan.Level.keeps {n : Nat} {x y : Scan} (h : x.Level n) (q : Keeps x.state y.state) : y.Level n := q n h

/-- A kept record is entered in the directory and counted. -/
theorem level_enroll {n slot : Nat} (h : Level n s.directory s.segments.entries) (hs : n ≤ slot)
    (serial : Word) (status : Status) (segment : Option Seg) :
    Level (slot + 1) (s.enroll slot serial status segment).directory
      (s.enroll slot serial status segment).segments.entries := by
  refine level_occupied (b := n) (d := s.directory) (x := ⟨status, segment, [], false⟩) (slot := slot) h ?_ rfl
    (by omega) (Nat.lt_succ_self slot)
  rw [← Option.isNone_iff_eq_none, ← Option.isSome_eq_false_iff, ← Bool.not_eq_true,
    Directory.get_isSome h.1.1]
  exact fun hm => absurd (h.1.2 slot hm) (by omega)

theorem level_mono {n m : Nat} {d : Directory} {e : Vector Segment 64} (h : Level n d e) (hm : n ≤ m) :
    Level m d e := ⟨⟨h.1.1, fun k hk => Nat.lt_of_lt_of_le (h.1.2 k hk) hm⟩, h.2⟩

theorem Keeps.recoverChain (h : Keeps a s) (slot : Nat) (r : Record) :
    Keeps a (s.recoverChain slot r) := by
  have q := fun n c => (Keeps.foldl (fun (s : State) (x : Nat × BlockKind) (h : Keeps _ s) => h.useBlock x.1)
    (s.mem.walkChain 4 s.store.usedBlocks r.firstBlock true 0).blocks (Keeps.refl s)).setChain n c
  exact Keeps.ite (Keeps.withRoute (h.trans ((q _ _).cutChain _ _ _ _)) _)
    (h.trans (q _ _))

theorem Scan.Level.keep {x : Scan} {slot : Nat} (h : x.Level slot) (c : Contents) :
    (x.keep slot c).Level (slot + 1) := by
  have put : ∀ (p : Prop) [Decidable p] c, Keeps x.state (if p then x.state else x.state.putContents slot c) :=
    fun p _ c => (Keeps.refl _).ite ((Keeps.refl _).putContents _ _)
  unfold Scan.keep
  dsimp only
  split
  · exact level_mono h (Nat.le_succ _)
  · exact level_enroll (put _ _ _ h) (Nat.le_refl _) _ _ _
  · exact (Keeps.refl _).recoverChain _ _ _ (level_enroll (put _ _ _ h) (Nat.le_refl _) _ _ _)

theorem Scan.Level.fail {x : Scan} {slot : Nat} (h : x.Level slot) (bs : List Byte) :
    (x.fail slot bs).Level (slot + 1) :=
  level_enroll ((Keeps.refl x.state).putContents _ _ _ h) (Nat.le_refl _) _ _ _

theorem Keeps.dismiss (x : Scan) (earlier : Nat) (serial : Word) :
    Keeps x.state (x.dismiss earlier serial).state :=
  Keeps.discard ((Keeps.refl x.state).freed (slot := earlier) (t := ((x.state.withMem
    (x.state.mem.deleteSerial serial)).withDirectory (x.state.directory.free earlier))) rfl rfl) _

theorem Scan.Level.ite {n : Nat} {c : Prop} [Decidable c] {x y : Scan} (hx : x.Level n) (hy : y.Level n) :
    (if c then x else y).Level n := by split_ifs <;> assumption

theorem Scan.Level.slot {x : Scan} {slot : Nat} (h : x.Level slot) : (x.slot slot).Level (slot + 1) := by
  have h0 : Keeps x.state (x.state.scanRead slot).2 := (Keeps.refl x.state).scanRead slot
  unfold Scan.slot
  dsimp only
  generalize x.state.scanRead slot = read at h0 ⊢
  have h1 : Scan.Level slot ⟨read.2, x.failed, x.flagged⟩ := h.keeps h0
  have h2 : Scan.Level slot ⟨read.2.countOccupied, x.failed, x.flagged⟩ := h1
  have h3 : Scan.Level (slot + 1) ⟨read.2.countOccupied.discard slot, x.failed, x.flagged⟩ :=
    level_mono ((Keeps.refl read.2.countOccupied).discard slot _ h2) (Nat.le_succ _)
  have settle : ∀ y : Scan, y.Level slot → (if read.1.good = true then
      y.keep slot (Contents.ofBytes read.1.bytes) else y.fail slot read.1.bytes).Level (slot + 1) := by
    intro y hy
    split_ifs
    · exact hy.keep _
    · exact hy.fail _
  refine (Keeps.refl _).letGo slot _ (Scan.Level.ite (x := ⟨read.2, x.failed, x.flagged⟩)
    (level_mono h1 (Nat.le_succ _)) (Scan.Level.ite h3 ?_))
  split
  · exact settle _ h2
  next earlier _ => exact Scan.Level.ite (settle _ (h2.keeps (Keeps.dismiss _ earlier _))) h3

/-- The scan of the first `n` slots. -/
theorem Scan.Level.range {x : Scan} (h : x.Level 0) (n : Nat) : ((List.range n).foldl Scan.slot x).Level n := by
  induction n with
  | zero => exact h
  | succ n ih =>
    rw [List.range_succ, List.foldl_append]
    exact ih.slot

/-- The scan begins with no record and no count. -/
theorem State.beginRecovery_level (s : State) : Scan.Level 0 ⟨s.beginRecovery, [], []⟩ :=
  level_empty 0 s.loadRouteArea_count

theorem Keeps.leaveRecorded (h : Keeps a s) (n : Seg) : Keeps a (s.leaveRecorded n) :=
  Keeps.foldl (fun _ _ h => Keeps.withRoute h _) _
    (h.leave .scan n)

theorem Keeps.leaveActive (h : Keeps a s) : Keeps a s.leaveActive :=
  Keeps.trans (Keeps.ite (Keeps.foldl (fun _ n h => Keeps.leaveRecorded h n) _ h) h)
    ((Keeps.refl _).putActive _)

theorem Keeps.settleRecovered (h : Keeps a s) (n : Seg) : Keeps a (s.settleRecovered n) := by
  unfold State.settleRecovered
  dsimp only
  split
  · exact Keeps.ite (h.complete n) h
  · exact Keeps.ite (h.complete n) h
  · exact Keeps.ite (h.complete n) h
  · exact Keeps.ite (h.reopen n) h
  · exact h

theorem Keeps.settleAll (h : Keeps a s) : Keeps a s.settleAll :=
  Keeps.ite (Keeps.foldl (fun _ n h => Keeps.settleRecovered h n) _ h) h

theorem Keeps.agreePlan (h : Keeps a s) : Keeps a s.agreePlan := h.putPlan _

/-- The end of the scan: the segments settled, SCANNING cleared, SCAN_DONE raised. -/
theorem Keeps.settleScan (h : Keeps a s) :
    Keeps a ((s.agreePlan.leaveActive.settleAll.withRoute
      { s.agreePlan.leaveActive.settleAll.route with scanning := none }).raise .scanDone) := by
  have h1 : Keeps a s.agreePlan := h.agreePlan
  have h2 := h1.leaveActive
  generalize s.agreePlan.leaveActive = x at h2 ⊢
  have h3 : Keeps a x.settleAll := h2.settleAll
  generalize x.settleAll = y at h3 ⊢
  exact (h3.withRoute { y.route with scanning := none }).raise _

/-- The RECOVERY scan leaves the counters level whatever they were before (R143). -/
theorem State.Levels.recover (s : State) : s.recover.Levels := by
  have h1 := s.beginRecovery_level.range Config.slots
  unfold State.recover
  generalize (List.range Config.slots).foldl Scan.slot ⟨s.beginRecovery, [], []⟩ = x at h1 ⊢
  exact ⟨_, (((Keeps.refl x.state).withTamper
    { x.state.tamper with entries := x.flagged.take Config.tamperEntries }).settleScan) _ h1⟩

theorem execRecoveryScan_keeps (s : State) : keepsResult s (execRecoveryScan s) := by
  intro t ht hs
  unfold execRecoveryScan at ht
  rw [Host.Outcome.next.injEq] at ht
  rw [← ht]
  split
  · exact State.Levels.recover s
  · exact hs

end Sys2Proof.Machine
end

