-- ==== Sys2Proof/Laws/Forming.lean ====
section
/-! SUPPORT. A batch that nothing meets between its record reads is formed as the survey and the marking are written
out in Safety.lean (R152, R158). -/

namespace Sys2Proof.Machine

variable {s t : State}

/-! ### What taking a line makes of the slot directory -/

theorem State.putPlan_directory (s : State) (plan : List Seg) : (s.putPlan plan).directory = s.directory := by
  unfold State.putPlan; split_ifs <;> rfl

theorem State.complete_directory (s : State) (n : Seg) : (s.complete n).directory = s.directory := by
  have h : ∀ x : State, (x.putActive none).directory = x.directory := fun x => by
    unfold State.putActive; split_ifs <;> rfl
  unfold State.complete
  dsimp only
  split_ifs
  · rfl
  · rfl
  · exact (h _).trans ((State.putPlan_directory _ _).trans (State.putSegment_directory _ _ _))
  · exact (State.putPlan_directory _ _).trans (State.putSegment_directory _ _ _)

theorem State.reopen_directory (s : State) (n : Seg) : (s.reopen n).directory = s.directory := by
  unfold State.reopen
  split
  · split
    · exact (State.putPlan_directory _ _).trans (State.putSegment_directory _ _ _)
    · exact State.putSegment_directory _ _ _
    · rfl
  · rfl

theorem State.judge_directory (s : State) (n : Option Seg) (before : Nat) :
    (s.judge n before).directory = s.directory := by
  unfold State.judge
  split
  · rfl
  · split_ifs
    · exact State.complete_directory _ _
    · exact State.reopen_directory _ _
    · rfl

theorem State.report_directory (s : State) (old new : Option Place) :
    (s.report old new).directory = s.directory := by
  unfold State.report
  dsimp only
  split
  · rw [State.countAt_directory, State.countAt_directory]
  · rw [State.judge_directory, State.judge_directory, State.countAt_directory, State.countAt_directory]

/-- Surveying a slot leaves the directory, or makes the slot's entry another one (R18). -/
theorem State.surveySlot_directory (cursor : Option Key) (x : List Surveyed × State) (slot : Nat) :
    (State.surveySlot cursor x slot).2.directory = x.2.directory ∨
    ∃ d e, x.2.directory.get slot = some d ∧
      (State.surveySlot cursor x slot).2.directory = x.2.directory.set slot e := by
  have hl : ∀ y : State, (y.letGo slot).directory = y.directory := fun y => by
    unfold State.letGo; split <;> rfl
  have he : (x.2.evict x.2.victim).directory = x.2.directory := by
    unfold State.evict
    split
    next b _ =>
      split_ifs
      · obtain ⟨m, p, w, hf⟩ := State.enqueue_frame ⟨b.slot, b.contents⟩ x.2
        rw [hf]
      · rfl
    · rfl
  show ((x.2.takeLine .upload slot).1.letGo slot).directory = _ ∨ ∃ d e, _ ∧
    ((x.2.takeLine .upload slot).1.letGo slot).directory = _
  rw [hl]
  unfold State.takeLine
  split
  · exact .inl rfl
  · dsimp only
    split
    · exact .inl he
    · have hg : ((x.2.evict x.2.victim).grant .upload).directory = x.2.directory :=
        (State.grants_directory _ _ _).trans he
      split_ifs
      · exact .inl hg
      · unfold State.becomeFault
        split
        · exact .inl hg
        next d hd =>
          have hd : ((x.2.evict x.2.victim).grant .upload).directory.get slot = some d := hd
          rw [hg] at hd
          refine .inr ⟨d, ⟨.fault, d.segment, [], false⟩, hd, ?_⟩
          show (State.report _ _ _).directory = _
          rw [State.report_directory, State.withDirectory_directory]
          show Directory.set ((x.2.evict x.2.victim).grant .upload).directory slot _ = _
          rw [hg]

theorem Directory.set_keys {d : Directory} {n : Nat} {x y : DirEntry} (h : d.get n = some y) :
    (d.set n x).map (·.1) = d.map (·.1) := by
  induction d with
  | nil => cases h
  | cons e d ih =>
    obtain ⟨k, e⟩ := e
    rw [Directory.get] at h
    rw [Directory.set]
    split_ifs at h ⊢ with hk
    · simp [hk]
    · simp [ih h]

theorem Directory.set_length {d : Directory} {n : Nat} {x y : DirEntry} (h : d.get n = some y) :
    (d.set n x).length = d.length := by
  simpa using congrArg List.length (Directory.set_keys (x := x) h)

/-- The entries past a slot are those they were when the slot's own entry changes. -/
theorem Directory.filter_set (d : Directory) (n : Nat) (x : DirEntry) (p : DirEntry → Bool) :
    ((d.set n x).filter fun e => decide (n + 1 ≤ e.1) && p e.2) =
      d.filter fun e => decide (n + 1 ≤ e.1) && p e.2 := by
  induction d with
  | nil => simp [Directory.set]
  | cons e d ih =>
    obtain ⟨k, e⟩ := e
    rw [Directory.set]
    split_ifs with h1 h2
    · subst h1; simp
    · simp
    · rw [List.filter_cons, List.filter_cons, ih]

/-- In a rising list the entries past the first that a search from `n` finds are the others that it finds. -/
theorem Directory.filter_past {d : Directory} (hr : Rising (d.map (·.1))) {n : Nat} {p : DirEntry → Bool}
    {e : Nat × DirEntry} {l : List (Nat × DirEntry)}
    (h : (d.filter fun e => decide (n ≤ e.1) && p e.2) = e :: l) :
    (d.filter fun x => decide (e.1 + 1 ≤ x.1) && p x.2) = l := by
  have hp : (e :: l).Pairwise fun a b => a.1 < b.1 := by
    rw [← h]
    exact List.Pairwise.filter _ (List.pairwise_map.1 hr)
  have he : n ≤ e.1 := by
    have : e ∈ d.filter fun e => decide (n ≤ e.1) && p e.2 := by rw [h]; exact List.mem_cons_self ..
    have := (List.mem_filter.1 this).2
    rw [Bool.and_eq_true] at this
    exact of_decide_eq_true this.1
  have : (d.filter fun x => decide (e.1 + 1 ≤ x.1) && p x.2) =
      (d.filter fun x => decide (n ≤ x.1) && p x.2).filter fun x => decide (e.1 + 1 ≤ x.1) := by
    rw [List.filter_filter]
    refine List.filter_congr fun x _ => ?_
    by_cases hx : e.1 + 1 ≤ x.1
    · simp [hx, show n ≤ x.1 by omega]
    · simp [hx]
  rw [this, h, List.filter_cons, if_neg (by simp)]
  refine List.filter_eq_self.2 fun x hx => ?_
  exact decide_eq_true ((List.pairwise_cons.1 hp).1 x hx)

/-! ### The survey -/

/-- `t` is `s` with slots surveyed: the rows that wait, the depot block and the directory's size as they were, its
slots rising. -/
structure Surveyable (s t : State) : Prop where
  pending : t.pending = s.pending
  depot : t.depot = s.depot
  size : t.directory.length = s.directory.length
  rising : Rising (t.directory.map (·.1))

theorem Surveyable.interposed (h : Surveyable s t) : t.interposed = s.interposed := by
  unfold State.interposed; rw [h.pending]

theorem Surveyable.trans {u : State} (h : Surveyable s t) (k : Surveyable t u) : Surveyable s u :=
  ⟨k.pending.trans h.pending, k.depot.trans h.depot, k.size.trans h.size, k.rising⟩

theorem Surveyable.surveySlot (hr : Rising (s.directory.map (·.1))) (cursor : Option Key) (kept : List Surveyed)
    (slot : Nat) : Surveyable s (State.surveySlot cursor (kept, s) slot).2 := by
  have hq := Quiet.surveySlot cursor (x := (kept, s)) (Quiet.refl s) slot
  refine ⟨hq.pending, hq.depot, ?_, ?_⟩
  · rcases State.surveySlot_directory cursor (kept, s) slot with h | ⟨d, e, hd, h⟩
    · rw [h]
    · rw [h]; exact Directory.set_length hd
  · rcases State.surveySlot_directory cursor (kept, s) slot with h | ⟨d, e, hd, h⟩
    · rw [h]; exact hr
    · rw [h]; exact Directory.rising_set hr slot e

/-- One read of a forming that nothing meets. -/
theorem State.formOn_read (hi : s.interposed = false) {w w1 : Forming} (h : s.formRead w = (some w1, t))
    (hp : t.pending = s.pending) (n : Nat) : s.formOn (n + 1) w = t.formOn n w1 := by
  have ht : t.interposed = false := by unfold State.interposed at hi ⊢; rw [hp]; exact hi
  rw [State.formOn, h]
  dsimp only
  rw [if_neg (by rw [ht]; simp)]

/-- The survey of one class from a slot on, up to where it finds no more. -/
theorem State.formOn_class (again : Bool) (c : LiveStatus) (l : List (Nat × DirEntry)) :
    ∀ (s : State) (n : Nat) (kept : List Surveyed), Rising (s.directory.map (·.1)) → s.interposed = false →
    (s.directory.filter fun e => decide (n ≤ e.1) && e.2.status == .live c) = l →
    ∃ x n', x = (l.map (·.1)).foldl (State.surveySlot (if again then none else s.depot.cursor)) (kept, s) ∧
      Surveyable s x.2 ∧ (x.2.directory.find? fun e => decide (n' ≤ e.1) && e.2.status == .live c) = none ∧
      ∀ k, s.formOn (l.length + k) (.surveying again c n kept) = x.2.formOn k (.surveying again c n' x.1) := by
  induction l with
  | nil =>
    intro s n kept hr _ hl
    refine ⟨(kept, s), n, rfl, ⟨rfl, rfl, rfl, hr⟩, ?_, fun k => by rw [List.length_nil, Nat.zero_add]⟩
    rw [List.find?_eq_none]
    exact fun e he => List.filter_eq_nil_iff.1 hl e he
  | cons e l ih =>
    intro s n kept hr hi hl
    have hf : (s.directory.find? fun e => decide (n ≤ e.1) && e.2.status == .live c) = some e := by
      rw [← List.head?_filter, hl]; rfl
    have hs := Surveyable.surveySlot hr (if again then none else s.depot.cursor) kept e.1
    have h1 : s.formRead (.surveying again c n kept) =
        (some (.surveying again c (e.1 + 1)
          (State.surveySlot (if again then none else s.depot.cursor) (kept, s) e.1).1),
          (State.surveySlot (if again then none else s.depot.cursor) (kept, s) e.1).2) := by
      unfold State.formRead
      simp only [hf]
    have h2 := Directory.filter_past (p := fun e => e.status == .live c) hr hl
    have h3 : ((State.surveySlot (if again then none else s.depot.cursor) (kept, s) e.1).2.directory.filter
        fun x => decide (e.1 + 1 ≤ x.1) && x.2.status == .live c) = l := by
      rcases State.surveySlot_directory (if again then none else s.depot.cursor) (kept, s) e.1 with h | ⟨d, y, -, h⟩
      · rw [h]; exact h2
      · rw [h]; exact (Directory.filter_set s.directory e.1 y fun e => e.status == .live c).trans h2
    obtain ⟨x, n', hx, hq, hn, hk⟩ := ih _ (e.1 + 1)
      (State.surveySlot (if again then none else s.depot.cursor) (kept, s) e.1).1 hs.rising
      (hs.interposed.trans hi) h3
    refine ⟨x, n', ?_, hs.trans hq, hn, fun k => ?_⟩
    · rw [hx, hs.depot]; rfl
    · rw [List.length_cons, Nat.add_right_comm, State.formOn_read hi h1 hs.pending]
      exact hk k

/-- What the forming goes on to when a survey is finished. -/
def State.endSurvey (again : Bool) (kept : List Surveyed) (k : Nat) (s : State) : State :=
  if kept.isEmpty then
    if again then s.finishUpload else s.formOn k (.surveying true .flagged 0 [])
  else s.formOn k (.marking ((kept.take Config.batchRecords).getLast?.map (·.key)) (kept.take Config.batchRecords) [])

theorem State.slotsWith_eq (s : State) (c : LiveStatus) : s.slotsWith c =
    (s.directory.filter fun e => decide (0 ≤ e.1) && e.2.status == .live c).map (·.1) := by
  simp [State.slotsWith]

/-- A class surveyed, and then the next one or the end of the survey. -/
theorem State.formOn_surveyClass (again : Bool) (c : LiveStatus) (s : State) (kept : List Surveyed)
    (hr : Rising (s.directory.map (·.1))) (hi : s.interposed = false) :
    ∃ x used, x = (s.slotsWith c).foldl (State.surveySlot (if again then none else s.depot.cursor)) (kept, s) ∧
      Surveyable s x.2 ∧ used ≤ s.directory.length + 1 ∧
      ∀ k, s.formOn (used + k) (.surveying again c 0 kept) =
        match if Config.batchRecords ≤ x.1.length then none else nextClass c with
        | some c' => x.2.formOn k (.surveying again c' 0 x.1)
        | none => x.2.endSurvey again x.1 k := by
  obtain ⟨x, n', hx, hq, hn, hk⟩ := State.formOn_class again c _ s 0 kept hr hi rfl
  refine ⟨x, (s.directory.filter fun e => decide (0 ≤ e.1) && e.2.status == .live c).length + 1, ?_, hq,
    Nat.succ_le_succ (List.length_filter_le _ _), fun k => ?_⟩
  · rw [State.slotsWith_eq]; exact hx
  have h1 : x.2.formRead (.surveying again c n' x.1) = x.2.endClass again c x.1 := by
    unfold State.formRead
    simp only [hn]
  have hx2 : x.2.interposed = false := hq.interposed.trans hi
  rw [Nat.add_assoc, hk, Nat.add_comm 1 k]
  unfold State.endClass at h1
  generalize (if Config.batchRecords ≤ x.1.length then none else nextClass c) = next at h1 ⊢
  cases next with
  | some c' => exact State.formOn_read hx2 h1 rfl k
  | none =>
    dsimp only at h1 ⊢
    unfold State.endSurvey
    split_ifs at h1 ⊢
    · rw [State.formOn, h1]
    · exact State.formOn_read hx2 h1 rfl k
    · exact State.formOn_read hx2 h1 rfl k

/-- A whole survey (R152). -/
theorem State.formOn_survey (again : Bool) (s : State) (hr : Rising (s.directory.map (·.1)))
    (hi : s.interposed = false) :
    ∃ y used, y = [LiveStatus.flagged, .read, .missed].foldl
        (State.surveyClass (if again then none else s.depot.cursor)) (([] : List Surveyed), s) ∧
      Surveyable s y.2 ∧ used ≤ 3 * (s.directory.length + 1) ∧
      ∀ k, s.formOn (used + k) (.surveying again .flagged 0 []) = y.2.endSurvey again y.1 k := by
  obtain ⟨x1, u1, hx1, q1, l1, h1⟩ := State.formOn_surveyClass again .flagged s [] hr hi
  have full : ∀ (x : List Surveyed × State) c cursor, Config.batchRecords ≤ x.1.length →
      State.surveyClass cursor x c = x := fun x c cursor h => by unfold State.surveyClass; rw [if_pos h]
  have open_ : ∀ (x : List Surveyed × State) c cursor, ¬Config.batchRecords ≤ x.1.length →
      State.surveyClass cursor x c = (x.2.slotsWith c).foldl (State.surveySlot cursor) (x.1, x.2) :=
    fun x c cursor h => by unfold State.surveyClass; rw [if_neg h]
  have e1 : State.surveyClass (if again then none else s.depot.cursor) (([] : List Surveyed), s) .flagged = x1 := by
    rw [open_ _ _ _ (by simp [Config.batchRecords])]; exact hx1.symm
  rw [List.foldl_cons, List.foldl_cons, List.foldl_cons, List.foldl_nil, e1]
  by_cases c1 : Config.batchRecords ≤ x1.1.length
  · refine ⟨x1, u1, ?_, q1, by omega, fun k => ?_⟩
    · rw [full x1 _ _ c1, full x1 _ _ c1]
    · rw [h1 k, if_pos c1]
  obtain ⟨x2, u2, hx2, q2, l2, h2⟩ := State.formOn_surveyClass again .read x1.2 x1.1 q1.rising
    (q1.interposed.trans hi)
  have e2 : State.surveyClass (if again then none else s.depot.cursor) x1 .read = x2 := by
    rw [open_ _ _ _ c1, ← q1.depot]; exact hx2.symm
  rw [e2]
  have q2' := q1.trans q2
  have s2 := q1.size
  by_cases c2 : Config.batchRecords ≤ x2.1.length
  · refine ⟨x2, u1 + u2, ?_, q2', by omega, fun k => ?_⟩
    · rw [full x2 _ _ c2]
    · rw [Nat.add_assoc, h1, if_neg c1]; exact (h2 k).trans (by rw [if_pos c2])
  obtain ⟨x3, u3, hx3, q3, l3, h3⟩ := State.formOn_surveyClass again .missed x2.2 x2.1 q2'.rising
    (q2'.interposed.trans hi)
  have e3 : State.surveyClass (if again then none else s.depot.cursor) x2 .missed = x3 := by
    rw [open_ _ _ _ c2, ← q2'.depot]; exact hx3.symm
  have s3 := q2'.size
  refine ⟨x3, u1 + u2 + u3, e3.symm, q2'.trans q3, by omega, fun k => ?_⟩
  rw [show u1 + u2 + u3 + k = u1 + (u2 + (u3 + k)) by omega, h1, if_neg c1]
  refine (h2 _).trans ?_
  rw [if_neg c2]
  refine (h3 k).trans ?_
  split
  next c' hc => split_ifs at hc; cases hc
  · rfl

/-! ### The marking -/

theorem State.markOne_pending (packed : List (List Byte)) (s : State) (k : Surveyed) :
    (State.markOne (packed, s) k).2.pending = s.pending := by
  have ht := (Quiet.refl s).takeLine .upload k.key.slot
  have hg := (ht.letGo k.key.slot).pending
  unfold State.markOne
  dsimp only
  split
  · exact hg
  · split
    next r _ =>
      split
      · unfold State.markAndPack
        dsimp only
        have h1 := (ht.putRecord k.key.slot
          { r with batch := some (s.takeLine .upload k.key.slot).1.depot.batchNumber }).pending
        rw [((Quiet.readExtension (Quiet.refl _) _ _ _).letGo _).pending]
        exact h1
      · exact hg
    · exact hg

/-- The whole marking. -/
theorem State.formOn_marking (last : Option Key) (todo : List Surveyed) :
    ∀ (packed : List (List Byte)) (s : State), s.interposed = false → ∀ k,
      s.formOn (todo.length + 1 + k) (.marking last todo packed) =
        (todo.foldl State.markOne (packed, s)).2.beginOffer last (todo.foldl State.markOne (packed, s)).1 := by
  induction todo with
  | nil =>
    intro packed s _ k
    rw [List.length_nil, Nat.zero_add, Nat.add_comm, State.formOn]
    rfl
  | cons x todo ih =>
    intro packed s hi k
    have hp := State.markOne_pending packed s x
    have h1 : s.formRead (.marking last (x :: todo) packed) =
        (some (.marking last todo (State.markOne (packed, s) x).1), (State.markOne (packed, s) x).2) := rfl
    rw [List.length_cons, show todo.length + 1 + 1 + k = (todo.length + 1 + k) + 1 by omega,
      State.formOn_read hi h1 hp, ih _ _ (by unfold State.interposed at hi ⊢; rw [hp]; exact hi)]
    rfl

/-! ### The whole batch -/

/-- A batch that nothing meets between its record reads is formed whole (R152, R158). -/
theorem State.formOn_whole (s : State) (hr : Rising (s.directory.map (·.1))) (hi : s.interposed = false) :
    s.formOn s.formWork Forming.start = s.wholeBatch := by
  obtain ⟨y, u, hy, q, l, h⟩ := State.formOn_survey false s hr hi
  have mark : ∀ (kept : List Surveyed) (t : State), t.interposed = false → kept.isEmpty = false → ∀ k, 17 ≤ k →
      t.formOn k (.marking ((kept.take Config.batchRecords).getLast?.map (·.key))
        (kept.take Config.batchRecords) []) = t.formBatch (kept.take Config.batchRecords) := by
    intro kept t ht _ k hk
    have hl : (kept.take Config.batchRecords).length ≤ 16 := by simp [Config.batchRecords]
    obtain ⟨k', rfl⟩ := Nat.exists_eq_add_of_le (show (kept.take Config.batchRecords).length + 1 ≤ k by omega)
    rw [State.formOn_marking _ _ [] t ht]
    rfl
  have taken : ∀ l : List Surveyed, (l.take Config.batchRecords).isEmpty = l.isEmpty := fun l => by
    cases l <;> simp [Config.batchRecords]
  have hw : s.formWork = u + (6 * (s.directory.length + 1) + 17 - u) := by
    simp only [State.formWork, Config.batchRecords]; omega
  have hs : s.survey s.depot.cursor = (y.1.take Config.batchRecords, y.2) := by
    unfold State.survey; dsimp only; rw [show y = _ from hy]; rfl
  rw [hw, show Forming.start = .surveying false .flagged 0 [] from rfl, h]
  unfold State.endSurvey State.wholeBatch
  cases hk : y.1.isEmpty with
  | false =>
    have hc : s.choose = (y.1.take Config.batchRecords, y.2) := by
      unfold State.choose; rw [hs]; simp only [taken, hk, Bool.false_eq_true, if_false]
    simp only [hc, taken, hk, Bool.false_eq_true, if_false]
    exact mark _ _ (q.interposed.trans hi) hk _ (by omega)
  | true =>
    obtain ⟨z, v, hz, p, m, g⟩ := State.formOn_survey true y.2 q.rising (q.interposed.trans hi)
    have hc : s.choose = (z.1.take Config.batchRecords, z.2) := by
      unfold State.choose; rw [hs]; simp only [taken, hk, if_true]
      unfold State.survey; dsimp only; rw [show z = _ from hz]; rfl
    have hsz := q.size
    simp only [hc, taken, if_true, Bool.false_eq_true, if_false]
    rw [show 6 * (s.directory.length + 1) + 17 - u = v + (6 * (s.directory.length + 1) + 17 - u - v) by omega, g]
    unfold State.endSurvey
    cases hk2 : z.1.isEmpty with
    | true => simp
    | false =>
      simp only [Bool.false_eq_true, if_false]
      exact mark _ _ (p.interposed.trans (q.interposed.trans hi)) hk2 _ (by omega)

/-! ### A batch met in the middle -/

/-- The record reads and ends of classes that a forming still takes at most, where the directory has `len` entries and
`ahead` of them lie at the next slot or above. -/
def Forming.left (len ahead : Nat) : Forming → Nat
  | .surveying again status _ _ =>
    ahead + 1 + (match status with | .flagged => 2 | .read => 1 | _ => 0) * (len + 1) +
      (if again then 0 else 3 * (len + 1)) + 17
  | .marking _ todo _ => todo.length + 1

/-- How many of the directory's entries a survey in hand has still ahead of it. -/
def State.ahead (s : State) : Forming → Nat
  | .surveying _ _ next _ => (s.directory.filter fun e => decide (next ≤ e.1)).length
  | .marking _ _ _ => 0

theorem State.ahead_le (s : State) (w : Forming) : s.ahead w ≤ s.directory.length := by
  cases w with
  | surveying _ _ next _ => exact List.length_filter_le _ _
  | marking _ _ _ => exact Nat.zero_le _

/-- The directory's entries from a slot on are fewer past an entry of it than from that entry on. -/
theorem Directory.ahead_lt {d : Directory} {n : Nat} {e : Nat × DirEntry} (he : e ∈ d) (hn : n ≤ e.1) :
    (d.filter fun x => decide (e.1 + 1 ≤ x.1)).length < (d.filter fun x => decide (n ≤ x.1)).length := by
  simp only [← List.countP_eq_length_filter]
  induction d with
  | nil => exact nomatch he
  | cons x d ih =>
    have mono : ∀ l : Directory, (l.countP fun x => decide (e.1 + 1 ≤ x.1)) ≤ l.countP fun x => decide (n ≤ x.1) :=
      fun l => List.countP_mono_left fun y _ hy => by simp only [decide_eq_true_eq] at hy ⊢; omega
    rw [List.countP_cons, List.countP_cons]
    rcases List.mem_cons.1 he with rfl | he
    · have := mono d
      simp only [hn, decide_true, if_true]
      rw [if_neg (by simp)]
      omega
    · have := ih he
      split_ifs with h1 h2 <;> simp only [decide_eq_true_eq] at * <;> omega

theorem State.surveySlot_slots (cursor : Option Key) (x : List Surveyed × State) (slot : Nat) :
    (State.surveySlot cursor x slot).2.directory.map (·.1) = x.2.directory.map (·.1) := by
  rcases State.surveySlot_directory cursor x slot with h | ⟨d, e, hd, h⟩
  · rw [h]
  · rw [h]; exact Directory.set_keys hd

/-- Each record read and each end of a class leaves less to do. -/
theorem State.formRead_left {w w1 : Forming} (h : s.formRead w = (some w1, t)) :
    Forming.left t.directory.length (t.ahead w1) w1 < Forming.left s.directory.length (s.ahead w) w := by
  unfold State.formRead at h
  split at h
  next again status next kept =>
    split at h
    next e he =>
      dsimp only at h
      cases h
      have hs := State.surveySlot_slots (if again = true then none else s.depot.cursor) (kept, s) e.1
      have hm := List.mem_of_find?_eq_some he
      have hn := List.find?_some he
      rw [Bool.and_eq_true, decide_eq_true_eq] at hn
      have hl := congrArg List.length hs
      rw [List.length_map, List.length_map] at hl
      have ha := Directory.ahead_lt hm hn.1
      have hc := congrArg (fun l : List Nat => (l.filter fun n => decide (e.1 + 1 ≤ n)).length) hs
      simp only [List.filter_map, List.length_map] at hc
      simp only [Forming.left, State.ahead]
      rw [hl]
      have : (List.filter (fun x => decide (e.1 + 1 ≤ x.1))
          (State.surveySlot (if again = true then none else s.depot.cursor) (kept, s) e.1).2.directory).length =
          (List.filter (fun x => decide (e.1 + 1 ≤ x.1)) s.directory).length := hc
      rw [this]
      show _ < _
      dsimp only at *
      omega
    · have key : ∀ (n : Nat) k, (s.ahead (.surveying again .flagged n k)) ≤ s.directory.length :=
        fun _ _ => s.ahead_le _
      unfold State.endClass at h
      dsimp only at h
      have hb := fun w => s.ahead_le w
      split at h
      next c hc =>
        cases h
        have hx := hb (.surveying again c 0 kept)
        simp only [Forming.left]
        split_ifs at hc
        cases status <;> simp only [nextClass, Option.some.injEq, reduceCtorEq] at hc <;> subst hc <;>
          simp only <;> split_ifs <;> omega
      · split_ifs at h with h1 h2 <;> cases h
        · have hx := hb (.surveying true .flagged 0 [])
          simp only [Forming.left, h2]
          simp only [Bool.false_eq_true, if_false, if_true]
          split <;> omega
        · have hl : (kept.take Config.batchRecords).length ≤ 16 := by simp [Config.batchRecords]
          simp only [Forming.left]
          omega
  next last k todo packed =>
    dsimp only at h
    cases h
    simp [Forming.left]
  · cases h

/-- A forming that has got anywhere within the bounds is over, or a row that can meet it waits at the front. -/
theorem State.Midway.held_interposed {w : Forming} (h : s.Midway w) :
    ∀ n, Forming.left s.directory.length (s.ahead w) w ≤ n →
      (s.formOn n w).depot.forming = none ∨ s.interposed = true := by
  have formRead_depot : ∀ {s t : State} {w : Forming}, s.Midway w → s.formRead w = (none, t) →
      t.depot.forming = none := by
    intro s t w hw hr
    unfold State.formRead at hr
    split at hr
    · split at hr
      · cases hr
      · unfold State.endClass at hr
        dsimp only at hr
        split at hr
        · cases hr
        · split_ifs at hr <;> cases hr
          unfold State.finishUpload State.returnIfBare
          dsimp only
          split_ifs
          · exact hw.forming
          · exact hw.forming
    · cases hr
    · cases hr
      unfold State.beginOffer
      dsimp only
      split_ifs
      · exact hw.forming
      · exact hw.forming
  intro n
  induction n generalizing s w with
  | zero =>
    intro hn
    exfalso
    cases w <;> simp only [Forming.left] at hn <;> omega
  | succ n ih =>
    intro hn
    have h1 := h.formRead
    rw [State.formOn]
    split
    next t hr => exact .inl (formRead_depot h hr)
    next w1 t hr =>
      rw [hr] at h1
      have h2 := h1.2 w1 rfl
      have hl := State.formRead_left hr
      dsimp only
      have hp : t.pending = s.pending := by
        unfold State.formRead at hr
        split at hr
        next again status next kept =>
          split at hr
          next e _ =>
            cases hr
            exact (Quiet.surveySlot (if again = true then none else s.depot.cursor) (x := (kept, s)) (Quiet.refl s) e.1).pending
          · unfold State.endClass at hr
            dsimp only at hr
            split at hr
            · cases hr; rfl
            · split_ifs at hr <;> cases hr <;> rfl
        · cases hr
          exact State.markOne_pending _ _ _
        · cases hr
      have hi : t.interposed = s.interposed := by unfold State.interposed; rw [hp]
      split
      next ht => exact .inr (hi ▸ ht)
      · rw [← hi]; exact ih h2 (by omega)

/-- A forming within the bounds that goes on is over, or a row that can meet it waits at the front. -/
theorem State.Ok.batch_held (h : s.Ok) (hm : s.mayForm = true) :
    ((s.withDepot { s.depot with forming := none }).formOn s.formWork
      (s.depot.forming.getD Forming.start)).depot.forming = none ∨ s.interposed = true := by
  refine (h.midway hm).held_interposed _ ?_
  have ha := State.ahead_le (s.withDepot { s.depot with forming := none })
    (s.depot.forming.getD Forming.start)
  have hd : (s.withDepot { s.depot with forming := none }).directory = s.directory := rfl
  rw [hd] at ha ⊢
  have hf := h.depot.forming
  revert ha
  generalize (s.withDepot { s.depot with forming := none }).ahead _ = k
  intro ha
  unfold State.formWork
  cases e : s.depot.forming with
  | none =>
    simp only [Option.getD_none, Forming.start, Forming.left, Config.batchRecords, Bool.false_eq_true, if_false]
    omega
  | some w =>
    unfold FormingOk at hf
    rw [e] at hf
    rw [Option.getD_some]
    cases w with
    | surveying again status next kept =>
      simp only [Forming.left, Config.batchRecords]
      split_ifs <;> split <;> omega
    | marking last todo packed =>
      have := hf.2.2.2
      simp only [Forming.left, Config.batchRecords]
      omega

end Sys2Proof.Machine
end

