-- ==== Sys2Proof/Laws/Layout.lean ====
section
/-! SUPPORT. The layouts read back: parameters of command blocks, base records, extension blocks, and the
two copies of a route-area item. -/

namespace Sys2Proof.Machine

open Sys2Proof

/-- A two-byte field is its two bytes joined. -/
theorem halfBytes_join (x : Half) : (x.extractLsb' 8 8 ++ x.extractLsb' 0 8 : BitVec 16) = x := by
  ext i hi
  simp only [BitVec.getElem_append, BitVec.getElem_extractLsb']
  split
  · simp [BitVec.getLsbD_eq_getElem hi]
  · rw [show 8 + (i - 8) = i by omega, BitVec.getLsbD_eq_getElem hi]

/-- A four-byte field is its four bytes joined. -/
theorem wordBytes_join (x : Word) : ((x.extractLsb' 24 8 ++ x.extractLsb' 16 8 : BitVec 16) ++ (x.extractLsb' 8 8 ++ x.extractLsb' 0 8 : BitVec 16) : BitVec 32) = x := by
  ext i hi
  simp only [BitVec.getElem_append, BitVec.getElem_extractLsb']
  split
  · split
    · simp [BitVec.getLsbD_eq_getElem hi]
    · rw [show 8 + (i - 8) = i by omega, BitVec.getLsbD_eq_getElem hi]
  · split
    · rw [show 16 + (i - 16) = i by omega, BitVec.getLsbD_eq_getElem hi]
    · rw [show 24 + (i - 16 - 8) = i by omega, BitVec.getLsbD_eq_getElem hi]

theorem decodeParams_header (ps : List Byte) : decodeParams 0x10 ps = sized 55 ps (.routeHeader (.ofBytes ps)) := rfl
/-- The parameters of RECORD_LOAD read back. -/
theorem LoadParams.ofBytes_bytes (p : LoadParams) : LoadParams.ofBytes p.bytes = p := by
  obtain ⟨a, b, c, d, e, f, g, h, ⟨i, j⟩⟩ := p
  simp only [LoadParams.ofBytes, LoadParams.bytes, Sent.byteField, wordBytes, halfBytes, wordAt, halfAt, byteAt, sentByteAt, List.cons_append, List.nil_append, List.getD_cons_succ, List.getD_cons_zero, wordBytes_join, halfBytes_join]
/-- The 55 parameter bytes of ROUTE_HEADER, one by one. -/
theorem HeaderParams.bytes_list (p : HeaderParams) : p.bytes = [p.identity.presence, p.identity.value.extractLsb' 24 8, p.identity.value.extractLsb' 16 8, p.identity.value.extractLsb' 8 8, p.identity.value.extractLsb' 0 8, p.van.presence, p.van.value.extractLsb' 8 8, p.van.value.extractLsb' 0 8, p.date.presence, p.date.value.extractLsb' 8 8, p.date.value.extractLsb' 0 8, p.weightMagnet.presence, p.weightMagnet.value, p.weightCover.presence, p.weightCover.value, p.weightReverse.presence, p.weightReverse.value, p.weightRegress.presence, p.weightRegress.value, p.weightLow.presence, p.weightLow.value, p.weightStopped.presence, p.weightStopped.value, p.weightRepower.presence, p.weightRepower.value, p.weightIdentity.presence, p.weightIdentity.value, p.hold.presence, p.hold.value, p.flag.presence, p.flag.value, p.backstep.presence, p.backstep.value.extractLsb' 8 8, p.backstep.value.extractLsb' 0 8, p.lowRatio.presence, p.lowRatio.value, p.rollover.presence, p.rollover.value.extractLsb' 8 8, p.rollover.value.extractLsb' 0 8, p.stopDays.presence, p.stopDays.value, p.duplicateWindow.presence, p.duplicateWindow.value.extractLsb' 8 8, p.duplicateWindow.value.extractLsb' 0 8, p.confirmGap.presence, p.confirmGap.value.extractLsb' 8 8, p.confirmGap.value.extractLsb' 0 8, p.tolerance.presence, p.tolerance.value, p.redriveGap.presence, p.redriveGap.value, p.redriveLimit.presence, p.redriveLimit.value, p.verdictTimeout.presence, p.verdictTimeout.value] := by
  unfold HeaderParams.bytes Sent.byteField Sent.halfField Sent.wordField wordBytes halfBytes
  simp only [List.append_assoc]
  simp only [List.cons_append]
  simp only [List.nil_append]
/-- What 55 parameter bytes of ROUTE_HEADER stand for, one by one. -/
theorem HeaderParams.ofBytes_list (b0 b1 b2 b3 b4 b5 b6 b7 b8 b9 b10 b11 b12 b13 b14 b15 b16 b17 b18 b19 b20 b21 b22 b23 b24 b25 b26 b27 b28 b29 b30 b31 b32 b33 b34 b35 b36 b37 b38 b39 b40 b41 b42 b43 b44 b45 b46 b47 b48 b49 b50 b51 b52 b53 b54 : Byte) : HeaderParams.ofBytes [b0, b1, b2, b3, b4, b5, b6, b7, b8, b9, b10, b11, b12, b13, b14, b15, b16, b17, b18, b19, b20, b21, b22, b23, b24, b25, b26, b27, b28, b29, b30, b31, b32, b33, b34, b35, b36, b37, b38, b39, b40, b41, b42, b43, b44, b45, b46, b47, b48, b49, b50, b51, b52, b53, b54] = {
    identity := ⟨b0, ((b1 ++ b2 : BitVec 16) ++ (b3 ++ b4 : BitVec 16) : BitVec 32)⟩,
    van := ⟨b5, (b6 ++ b7 : BitVec 16)⟩,
    date := ⟨b8, (b9 ++ b10 : BitVec 16)⟩,
    weightMagnet := ⟨b11, b12⟩,
    weightCover := ⟨b13, b14⟩,
    weightReverse := ⟨b15, b16⟩,
    weightRegress := ⟨b17, b18⟩,
    weightLow := ⟨b19, b20⟩,
    weightStopped := ⟨b21, b22⟩,
    weightRepower := ⟨b23, b24⟩,
    weightIdentity := ⟨b25, b26⟩,
    hold := ⟨b27, b28⟩,
    flag := ⟨b29, b30⟩,
    backstep := ⟨b31, (b32 ++ b33 : BitVec 16)⟩,
    lowRatio := ⟨b34, b35⟩,
    rollover := ⟨b36, (b37 ++ b38 : BitVec 16)⟩,
    stopDays := ⟨b39, b40⟩,
    duplicateWindow := ⟨b41, (b42 ++ b43 : BitVec 16)⟩,
    confirmGap := ⟨b44, (b45 ++ b46 : BitVec 16)⟩,
    tolerance := ⟨b47, b48⟩,
    redriveGap := ⟨b49, b50⟩,
    redriveLimit := ⟨b51, b52⟩,
    verdictTimeout := ⟨b53, b54⟩ } := rfl
/-- The parameters of ROUTE_HEADER read back. -/
theorem HeaderParams.ofBytes_bytes (p : HeaderParams) : HeaderParams.ofBytes p.bytes = p := by
  rw [HeaderParams.bytes_list, HeaderParams.ofBytes_list]; simp only [wordBytes_join, halfBytes_join]
theorem HeaderParams.bytes_length (p : HeaderParams) : p.bytes.length = 55 := by rw [HeaderParams.bytes_list]; rfl
/-- The parameters of RECORD_AMEND read back. -/
theorem AmendParams.ofBytes_bytes (p : AmendParams) : AmendParams.ofBytes p.bytes = p := by
  cases p
  simp only [AmendParams.ofBytes, AmendParams.bytes, Sent.byteField, Sent.halfField, Sent.wordField, wordBytes, halfBytes, wordAt, halfAt, byteAt, sentByteAt, sentHalfAt, sentWordAt, List.cons_append, List.nil_append, List.getD_cons_succ, List.getD_cons_zero, wordBytes_join, halfBytes_join]

/-- A block with its own length is decoded from its parameters, whatever follows it. -/
theorem decodeBlock_own (code : Byte) (ps extra : List Byte) (h : ps.length ≤ 62) :
    decodeBlock ((code :: natByte ps.length :: ps) ++ extra) = decodeParams code ps := by
  have : (natByte ps.length).toNat = ps.length := by simp [natByte]; omega
  simp only [List.cons_append, decodeBlock, this]
  rw [if_neg (by simp; omega), List.take_left']
  rfl

/-- The parameters of RECORD_NOTE read back. -/
theorem decodeParams_note (serial : Word) (text : List Byte) (h : text.length ≤ 57) :
  decodeParams 0x23 (wordBytes serial ++ natByte text.length :: text) = some (.recordNote serial text) := by
  have : (natByte text.length).toNat = text.length := by simp [natByte]; omega
  have h5 : (wordBytes serial ++ natByte text.length :: text).length = 5 + text.length := by simp [wordBytes]; omega
  have h4 : byteAt (wordBytes serial ++ natByte text.length :: text) 4 = natByte text.length := rfl
  have hd : (wordBytes serial ++ natByte text.length :: text).drop 5 = text := rfl
  have hw : wordAt (wordBytes serial ++ natByte text.length :: text) 0 = serial := wordBytes_join serial
  rw [show decodeParams 0x23 (wordBytes serial ++ natByte text.length :: text) = (if 5 ≤ (wordBytes serial ++ natByte text.length :: text).length then sized (5 + (byteAt (wordBytes serial ++ natByte text.length :: text) 4).toNat) (wordBytes serial ++ natByte text.length :: text) (.recordNote (wordAt (wordBytes serial ++ natByte text.length :: text) 0) ((wordBytes serial ++ natByte text.length :: text).drop 5)) else none) from rfl, h4, hd, hw, h5, if_pos (by omega), sized, this, if_pos h5]

/-- What a slot holds takes 63 bytes before its check byte. -/
theorem Contents.body_length (c : Contents) : c.body.length = 63 := by
  cases c with
  | free => rfl
  | fault x n => simp [Contents.body, wordBytes, halfBytes, zeros]
  | live r => 
    unfold Contents.body Record.body
    simp [wordBytes, halfBytes]

/-- A check byte just written holds. -/
theorem checkHolds_withCheck (bs : List Byte) (n : Nat) (h : bs.length = n) : checkHolds (n + 1) (withCheck bs) = true := by
  subst h
  simp [checkHolds, withCheck, byteAt]

/-- A base record's image is 64 bytes whose check holds. -/
theorem Contents.image_checked (c : Contents) : c.image.length = 64 ∧ checkHolds 64 c.image = true := by
  refine ⟨?_, checkHolds_withCheck _ 63 (Contents.body_length c)⟩
  simp [Contents.image, withCheck, Contents.body_length]

theorem segOfByte_segByte (n : Option Seg) : segOfByte (segByte n) = n := by
  cases n with
  | none => simp [segByte, segOfByte]
  | some n =>
    revert n
    decide
theorem Kind.ofStored_code (k : Kind) : Kind.ofStored k.code = k := by cases k <;> rfl
theorem LiveStatus.ofStored_code (k : LiveStatus) : LiveStatus.ofStored k.code = k := by cases k <;> rfl
theorem Evidence.ofByte_byte (e : Evidence) : Evidence.ofByte e.byte = e := by
  obtain ⟨a, b, c, d, e, f, g, h⟩ := e
  revert a b c d e f g h; decide
theorem Marks.ofByte_byte (e : Marks) : Marks.ofByte e.byte = e := by
  obtain ⟨a, b, c, d, e⟩ := e
  revert a b c d e; decide
/-- Eight bits packed are read back. -/
theorem packBits_bits : ∀ b0 b1 b2 b3 b4 b5 b6 b7, (packBits b0 b1 b2 b3 b4 b5 b6 b7).getLsbD 0 = b0 ∧ (packBits b0 b1 b2 b3 b4 b5 b6 b7).getLsbD 1 = b1 ∧ (packBits b0 b1 b2 b3 b4 b5 b6 b7).getLsbD 2 = b2
 ∧ (packBits b0 b1 b2 b3 b4 b5 b6 b7).getLsbD 3 = b3 ∧ (packBits b0 b1 b2 b3 b4 b5 b6 b7).getLsbD 4 = b4
 ∧ (packBits b0 b1 b2 b3 b4 b5 b6 b7).getLsbD 5 = b5 ∧ (packBits b0 b1 b2 b3 b4 b5 b6 b7).getLsbD 6 = b6
 ∧ (packBits b0 b1 b2 b3 b4 b5 b6 b7).getLsbD 7 = b7 := by decide
theorem Direction.ofStored_both : ∀ d c : Direction, Direction.ofStored ((d.code ||| (c.code <<< 4)) &&& 0x0F) = d ∧ Direction.ofStored (((d.code ||| (c.code <<< 4)) >>> 4) &&& 0x0F) = c := by
  intro d c; cases d <;> cases c <;> exact ⟨rfl, rfl⟩
theorem Direction.ofStored_one (d : Direction) : Direction.ofStored ((d.code ||| ((0:Byte) <<< 4)) &&& 0x0F) = d ∧ Direction.ofStored ((((0:Byte) ||| (d.code <<< 4)) >>> 4) &&& 0x0F) = d := by
  cases d <;> exact ⟨rfl, rfl⟩
theorem ports_ofStored_both : ∀ (p q : Fin 4) (a b : Bool), 
   let x : Byte := (natByte p.val ||| (boolByte a <<< 2)) ||| ((natByte q.val ||| (boolByte b <<< 2)) <<< 3)
   Fin.ofNat 4 (x &&& 3).toNat = p ∧ x.getLsbD 2 = a ∧ Fin.ofNat 4 ((x >>> 3) &&& 3).toNat = q ∧ (x >>> 3).getLsbD 2 = b := by decide
theorem ports_ofStored_one : ∀ (p : Fin 4) (a : Bool), 
   let x : Byte := (natByte p.val ||| (boolByte a <<< 2)) ||| ((0:Byte) <<< 3)
   let y : Byte := (0:Byte) ||| ((natByte p.val ||| (boolByte a <<< 2)) <<< 3)
   Fin.ofNat 4 (x &&& 3).toNat = p ∧ x.getLsbD 2 = a ∧ Fin.ofNat 4 ((y >>> 3) &&& 3).toNat = p ∧ (y >>> 3).getLsbD 2 = a := by decide

/-- The two reading groups of a base record read back. -/
theorem readingAt_both (cur cand : Option Reading) : 
  readingAt cur.isSome (optValue cur) (optDelta cur) (optTime cur) (optDirection cur ||| (optDirection cand <<< 4)) (optPort cur ||| (optPort cand <<< 3)) = cur ∧
  readingAt cand.isSome (optValue cand) (optDelta cand) (optTime cand) ((optDirection cur ||| (optDirection cand <<< 4)) >>> 4) ((optPort cur ||| (optPort cand <<< 3)) >>> 3) = cand := by
  cases cur with
  | none => cases cand with
    | none => exact ⟨rfl, rfl⟩
    | some c =>
      refine ⟨rfl, ?_⟩
      have h1 := (ports_ofStored_one c.port c.byProbe).2.2
      simp only [readingAt, Option.isSome, optValue, optDelta, optTime, optDirection, optPort, (Direction.ofStored_one c.direction).2, optWord, Option.map, if_true, h1.1, h1.2]
  | some d => cases cand with
    | none =>
      refine ⟨?_, rfl⟩
      have h1 := (ports_ofStored_one d.port d.byProbe)
      simp only [readingAt, Option.isSome, optValue, optDelta, optTime, optDirection, optPort, (Direction.ofStored_one d.direction).1, optWord, Option.map, if_true, h1.1, h1.2]
    | some c =>
      have h1 := (ports_ofStored_both d.port c.port d.byProbe c.byProbe)
      constructor
      · simp only [readingAt, Option.isSome, optValue, optDelta, optTime, optDirection, optPort, (Direction.ofStored_both d.direction c.direction).1, optWord, Option.map, if_true, h1.1, h1.2.1]
      · simp only [readingAt, Option.isSome, optValue, optDelta, optTime, optDirection, optPort, (Direction.ofStored_both d.direction c.direction).2, optWord, Option.map, if_true, h1.2.2.1, h1.2.2.2]

theorem wordAt_of_parts (x : Word) (l : List Byte) (i : Nat)
   (h0 : byteAt l i = x.extractLsb' 24 8) (h1 : byteAt l (i+1) = x.extractLsb' 16 8) (h2 : byteAt l (i+2) = x.extractLsb' 8 8) (h3 : byteAt l (i+3) = x.extractLsb' 0 8) : wordAt l i = x := by
  unfold wordAt halfAt
  rw [h0, h1, h2, show i + 2 + 1 = i + 3 from rfl, h3]; exact wordBytes_join x

/-- A record is read back from its base record, whatever follows it. -/
theorem Record.ofBody_body (r : Record) (tail : List Byte) : Record.ofBody (r.body ++ tail) = r := by
  have hp := packBits_bits r.powerRef.isSome r.current.isSome r.candidate.isSome r.flagTime.isSome r.lastHeard.isSome r.bestSignal.isSome r.batch.isSome r.probeOnly
  have hr := readingAt_both r.current r.candidate
  have hb : ∃ l, l = r.body ++ tail := ⟨_, rfl⟩
  obtain ⟨l, hl⟩ := hb
  rw [← hl]
  unfold Record.body wordBytes halfBytes at hl
  simp only [List.append_assoc] at hl
  simp only [List.cons_append] at hl
  simp only [List.nil_append] at hl
  have hw : ∀ i (x : Word), byteAt l i = x.extractLsb' 24 8 → byteAt l (i+1) = x.extractLsb' 16 8 → byteAt l (i+2) = x.extractLsb' 8 8 → byteAt l (i+3) = x.extractLsb' 0 8 → wordAt l i = x := fun i x a b c d => wordAt_of_parts x l i a b c d
  have hh : ∀ i (x : Half), byteAt l i = x.extractLsb' 8 8 → byteAt l (i+1) = x.extractLsb' 0 8 → halfAt l i = x := by
    intro i x a b; unfold halfAt; rw [a, b]; exact halfBytes_join x
  have e0 : wordAt l 0 = r.serial := hw _ _ (by rw [hl]; rfl) (by rw [hl]; rfl) (by rw [hl]; rfl) (by rw [hl]; rfl)
  have e4 : halfAt l 4 = r.sequence := hh _ _ (by rw [hl]; rfl) (by rw [hl]; rfl)
  have e6 : byteAt l 6 = segByte r.segment := by rw [hl]; rfl
  have e7 : byteAt l 7 = r.kind.code := by rw [hl]; rfl
  have e8 : byteAt l 8 = r.dials := by rw [hl]; rfl
  have e9 : byteAt l 9 = r.status.code := by rw [hl]; rfl
  have e10 : wordAt l 10 = r.previous := hw _ _ (by rw [hl]; rfl) (by rw [hl]; rfl) (by rw [hl]; rfl) (by rw [hl]; rfl)
  have e14 : halfAt l 14 = r.previousDay := hh _ _ (by rw [hl]; rfl) (by rw [hl]; rfl)
  have e16 : halfAt l 16 = r.rate := hh _ _ (by rw [hl]; rfl) (by rw [hl]; rfl)
  have e18 : byteAt l 18 = packBits r.powerRef.isSome r.current.isSome r.candidate.isSome r.flagTime.isSome r.lastHeard.isSome r.bestSignal.isSome r.batch.isSome r.probeOnly := by rw [hl]; rfl
  have e19 : byteAt l 19 = optByte r.powerRef := by rw [hl]; rfl
  have e20 : wordAt l 20 = optValue r.current := hw _ _ (by rw [hl]; rfl) (by rw [hl]; rfl) (by rw [hl]; rfl) (by rw [hl]; rfl)
  have e24 : wordAt l 24 = optDelta r.current := hw _ _ (by rw [hl]; rfl) (by rw [hl]; rfl) (by rw [hl]; rfl) (by rw [hl]; rfl)
  have e28 : wordAt l 28 = optTime r.current := hw _ _ (by rw [hl]; rfl) (by rw [hl]; rfl) (by rw [hl]; rfl) (by rw [hl]; rfl)
  have e32 : wordAt l 32 = optValue r.candidate := hw _ _ (by rw [hl]; rfl) (by rw [hl]; rfl) (by rw [hl]; rfl) (by rw [hl]; rfl)
  have e36 : wordAt l 36 = optDelta r.candidate := hw _ _ (by rw [hl]; rfl) (by rw [hl]; rfl) (by rw [hl]; rfl) (by rw [hl]; rfl)
  have e40 : wordAt l 40 = optTime r.candidate := hw _ _ (by rw [hl]; rfl) (by rw [hl]; rfl) (by rw [hl]; rfl) (by rw [hl]; rfl)
  have e44 : byteAt l 44 = optDirection r.current ||| (optDirection r.candidate <<< 4) := by rw [hl]; rfl
  have e45 : byteAt l 45 = optPort r.current ||| (optPort r.candidate <<< 3) := by rw [hl]; rfl
  have e46 : byteAt l 46 = r.evidence.byte := by rw [hl]; rfl
  have e47 : byteAt l 47 = r.score := by rw [hl]; rfl
  have e48 : byteAt l 48 = r.marks.byte := by rw [hl]; rfl
  have e49 : wordAt l 49 = optWord r.flagTime := hw _ _ (by rw [hl]; rfl) (by rw [hl]; rfl) (by rw [hl]; rfl) (by rw [hl]; rfl)
  have e53 : halfAt l 53 = r.hearCount := hh _ _ (by rw [hl]; rfl) (by rw [hl]; rfl)
  have e55 : wordAt l 55 = optWord r.lastHeard := hw _ _ (by rw [hl]; rfl) (by rw [hl]; rfl) (by rw [hl]; rfl) (by rw [hl]; rfl)
  have e59 : byteAt l 59 = optByte r.bestSignal := by rw [hl]; rfl
  have e60 : byteAt l 60 = optByte r.batch := by rw [hl]; rfl
  have e61 : halfAt l 61 = r.firstBlock := hh _ _ (by rw [hl]; rfl) (by rw [hl]; rfl)
  clear hl hw hh
  have opt1 : ∀ o : Option Byte, whenPresent o.isSome (optByte o) = o := by intro o; cases o <;> rfl
  have opt4 : ∀ o : Option Word, whenPresent o.isSome (optWord o) = o := by intro o; cases o <;> rfl
  obtain ⟨q0, q1, q2, q3, q4, q5, q6, q7⟩ := hp
  simp only [Record.ofBody, e0, e4, e6, e7, e8, e9, e10, e14, e16, e18, e19, e20, e24, e28, e32, e36, e40, e44, e45, e46, e47, e48, e49, e53, e55, e59, e60, e61, q0, q1, q2, q3, q4, q5, q6, q7, hr.1, hr.2, opt1, opt4, segOfByte_segByte, Kind.ofStored_code, LiveStatus.ofStored_code, Evidence.ofByte_byte, Marks.ofByte_byte]

theorem Record.serial_of_body (r : Record) (tail : List Byte) : wordAt (r.body ++ tail) 0 = r.serial := 
  congrArg Record.serial (Record.ofBody_body r tail)


/-- An extension block takes 31 bytes before its check byte. -/
theorem Block.body_length (b : Block) (h1 : ∀ next text, b = .note next text → text.length ≤ 24) (h2 : ∀ next values, b = .interval next values → values.length ≤ 6) : b.body.length = 31 := by
  cases b with
  | note n t => have := h1 n t rfl; simp [Block.body, halfBytes, zeros]
  | interval n v => have := h2 n v rfl; simp [Block.body, halfBytes, zeros]

/-- Two-byte values are read back from their bytes. -/
theorem halvesAt_flatMap (l : List Half) (pre rest : List Byte) (i : Nat) (hi : pre.length = i) :
   halvesAt (pre ++ (l.flatMap halfBytes ++ rest)) i l.length = l := by
  induction l generalizing pre i with
  | nil => rfl
  | cons x l ih =>
    have e : pre ++ ((x :: l).flatMap halfBytes ++ rest) = (pre ++ halfBytes x) ++ (l.flatMap halfBytes ++ rest) := by
      simp [List.flatMap_cons]
    rw [List.length_cons, halvesAt, e, ih (pre ++ halfBytes x) (i + 2) (by simp [halfBytes, hi])]
    congr 1
    subst hi
    unfold halfAt byteAt
    have h0 : (pre ++ halfBytes x ++ (l.flatMap halfBytes ++ rest)).getD pre.length 0 = x.extractLsb' 8 8 := by
      rw [List.append_assoc, List.getD_append_right _ _ _ _ (Nat.le_refl _)]; simp [halfBytes]
    have h1 : (pre ++ halfBytes x ++ (l.flatMap halfBytes ++ rest)).getD (pre.length + 1) 0 = x.extractLsb' 0 8 := by
      rw [List.append_assoc, List.getD_append_right _ _ _ _ (by omega)]; simp [halfBytes]
    rw [h0, h1]; exact halfBytes_join x

theorem flatMap_halfBytes_length (l : List Half) : (l.flatMap halfBytes).length = 2 * l.length := by
  induction l with
  | nil => rfl
  | cons x l ih => simp [List.flatMap_cons, ih, halfBytes]; omega

/-- The copies of the route area stand apart. -/
theorem copyAddress_apart (i j : Nat) (a b : Bool) (h : (i, a) ≠ (j, b)) (n m : Nat) (hn : n ≤ 256) (hm : m ≤ 256) : copyAddress i a + n ≤ copyAddress j b ∨ copyAddress j b + m ≤ copyAddress i a := by
  unfold copyAddress
  cases a <;> cases b <;> simp at * <;> omega

theorem itemSize_add_two_le (i : Nat) : itemSize i + 2 ≤ 67 := by unfold itemSize; split_ifs <;> omega

theorem copyImage_length (g : Byte) (c : List Byte) : (copyImage g c).length = c.length + 2 := by simp [copyImage, withCheck]

/-- A write into one copy leaves every other copy. -/
theorem Memory.copyBytes_other {m : Memory} (h : m.wf = true) (i : Nat) (a : Bool) (bs : List Byte) (hb : bs.length ≤ 256) (j : Nat) (b : Bool) (hne : (i, a) ≠ (j, b)) :
   (m.writeBytes (copyAddress i a) bs).copyBytes j b = m.copyBytes j b := by
  unfold Memory.copyBytes
  apply Memory.readBytes_writeBytes_apart h
  have := itemSize_add_two_le j
  rcases copyAddress_apart i j a b hne bs.length (itemSize j + 2) hb (by omega) with h | h
  · exact .inr h
  · exact .inl h

/-- A copy written reads as written. -/
theorem Memory.copyBytes_self {m : Memory} (h : m.wf = true) (i : Nat) (a : Bool) (g : Byte) (c : List Byte) (hc : c.length = itemSize i) :
   (m.writeBytes (copyAddress i a) (copyImage g c)).copyBytes i a = copyImage g c := by
  unfold Memory.copyBytes
  rw [← hc, ← copyImage_length g c]
  exact Memory.readBytes_writeBytes h _ _

/-- An item reads the same when both its copies do. -/
theorem Memory.readItem_congr {m m' : Memory} (j : Nat) (h : ∀ b, m'.copyBytes j b = m.copyBytes j b) : m'.readItem j = m.readItem j := by
  unfold Memory.readItem Memory.newerCopy Memory.copyGood
  simp only [h]

/-- Which of two copies is the newer, as `Memory.newerCopy` judges them. -/
def newer (gA gB : Bool) (A B : Byte) : Option Bool := match gA, gB with
  | true, true => some (B == A + 1)
  | true, false => some false
  | false, true => some true
  | false, false => none
/-- After a write, the copy written is the newer one. -/
theorem newer_write (gA gB : Bool) (A B : Byte) : 
   let n := (newer gA gB A B).getD false
   let g := (if n then B else A) + 1
   newer (if n then true else gA) (if n then gB else true) (if n then g else A) (if n then B else g) = some (!n) := by
  cases gA <;> cases gB
  · simp [newer]
  · simp [newer]; bv_omega
  · simp [newer]
  · simp only [newer, Option.getD_some]
    by_cases h : B = A + 1
    · subst h; simp; bv_omega
    · have h' : (B == A + 1) = false := by simpa using h
      simp only [h', Bool.false_eq_true, if_false]
      simp
/-- The newer copy, from the two checks and the two generations. -/
theorem Memory.newerCopy_eq (m : Memory) (i : Nat) : m.newerCopy i = newer (m.copyGood i false) (m.copyGood i true) (byteAt (m.copyBytes i false) 0) (byteAt (m.copyBytes i true) 0) := by
  unfold Memory.newerCopy newer; rfl
/-- A write cut short is as long as what it wrote over. -/
theorem mixBytes_length {w} (a : BitVec w) (i : Nat) (x y : List Byte) : (mixBytes a i x y).length = min x.length y.length := by
  induction x generalizing i y with
  | nil => simp [mixBytes]
  | cons n x ih => cases y with
    | nil => simp [mixBytes]
    | cons o y => simp [mixBytes, ih]

/-! ### The route area as initialisation leaves it (R142) -/

theorem initialItem_length (i : Nat) : (initialItem i).length = itemSize i := by
  simp only [initialItem, itemSize]
  repeat' split
  all_goals rfl

theorem Memory.unlisted_route {i o : Nat} (hi : i < 69) (ho : o < 512) :
    Memory.unlisted (Config.routeBase + i * 512 + o) =
      byteAt (copyImage (natByte (o / 256)) (initialItem i)) (o % 256) := by
  have h1 : (Config.routeBase + i * 512 + o - Config.routeBase) / 512 = i := by omega
  have h2 : (Config.routeBase + i * 512 + o - Config.routeBase) % 512 = o := by omega
  unfold Memory.unlisted
  rw [if_neg (by omega)]
  simp only [h1, h2]
  rw [if_neg (by simp only [itemCount]; omega)]

/-- A copy as initialisation leaves it: generation 0 in copy A, 1 in copy B. -/
theorem Memory.copyBytes_nil {i : Nat} (h : i < 69) (b : Bool) :
    Memory.copyBytes [] i b = copyImage (boolByte b) (initialItem i) := by
  have hs := itemSize_add_two_le i
  refine eq_of_byteAt (by simp [Memory.copyBytes, copyImage_length, initialItem_length]) fun k hk => ?_
  rw [Memory.copyBytes, Memory.readBytes_length] at hk
  rw [Memory.copyBytes, Memory.readBytes_getD, if_pos hk]
  have ha : copyAddress i b + k = Config.routeBase + i * 512 + ((if b then 256 else 0) + k) := by
    simp only [copyAddress]; omega
  show Memory.unlisted _ = _
  rw [ha, Memory.unlisted_route h (by cases b <;> simp <;> omega)]
  cases b
  · simp [show k / 256 = 0 by omega, show k % 256 = k by omega, boolByte, natByte]
  · simp [show (256 + k) / 256 = 1 by omega, show (256 + k) % 256 = k by omega, boolByte, natByte]

/-- Every item of a route area as initialisation leaves it reads as initialised. -/
theorem Memory.readItem_nil {i : Nat} (h : i < 69) : Memory.readItem [] i = some (initialItem i) := by
  have hg : ∀ b, Memory.copyGood [] i b = true := fun b => by
    rw [Memory.copyGood, Memory.copyBytes_nil h, copyImage]
    exact checkHolds_withCheck _ _ (by simp [initialItem_length])
  have hn : Memory.newerCopy [] i = some true := by
    rw [Memory.newerCopy, hg, hg, Memory.copyBytes_nil h, Memory.copyBytes_nil h]
    rfl
  rw [Memory.readItem, hn]
  simp [Memory.copyBytes_nil h, copyImage, withCheck, ← initialItem_length]

/-- Record memory as initialisation leaves it has a valid signature. -/
theorem Memory.signatureValid_nil : Memory.signatureValid [] = true := by
  simp only [Memory.signatureValid, Bool.and_eq_true, List.all_eq_true, List.mem_range]
  exact ⟨fun i hi => by rw [Memory.readItem_nil hi]; rfl, by rw [Memory.readItem_nil (by omega)]; rfl⟩

end Sys2Proof.Machine
end

