-- ==== Sys2Proof/Laws/Index.lean ====
section
/-! SUPPORT. The serial index: what an entry reads after a write, what a lookup depends on, and that insertion,
deletion and clear keep every LIVE entry where a search finds it (R24 to R28). -/

namespace Sys2Proof.Machine

/-! ### Entries -/

theorem entryAddress_lt {n : Nat} (h : n < 16384) :
    Config.indexBase ≤ entryAddress n ∧ entryAddress n + 8 ≤ Config.routeBase := by
  simp only [entryAddress, Config.indexBase, Config.routeBase]; omega

/-- Two memories that read alike over entry n have it alike. -/
theorem Memory.entry_congr {m m' : Memory} {n : Nat}
    (h : ∀ x, entryAddress n ≤ x → x < entryAddress n + 8 → m'.read x = m.read x) :
    m'.entrySerial n = m.entrySerial n ∧ m'.entrySlot n = m.entrySlot n := by
  have hb : ∀ k len, k + len ≤ 8 →
      m'.readBytes (entryAddress n + k) len = m.readBytes (entryAddress n + k) len := by
    intro k len hk
    refine eq_of_byteAt (by simp) fun i hi => ?_
    rw [Memory.readBytes_length] at hi
    rw [Memory.readBytes_getD, Memory.readBytes_getD, if_pos hi, if_pos hi]
    exact h _ (by omega) (by omega)
  exact ⟨congrArg (wordAt · 0) (hb 0 4 (by omega)),
    congrArg (fun bs => (halfAt bs 0).toNat) (hb 4 2 (by omega))⟩

theorem Memory.entrySerial_nil {n : Nat} (h : n < 16384) : Memory.entrySerial [] n = 0 := by
  have hz : Memory.readBytes [] (entryAddress n) 4 = [0, 0, 0, 0] := by
    refine eq_of_byteAt (by simp) fun i hi => ?_
    rw [Memory.readBytes_length] at hi
    rw [Memory.readBytes_getD, if_pos hi]
    have := entryAddress_lt h
    have h0 : Memory.read [] (entryAddress n + i) = 0 := by
      simp only [Memory.read, Memory.unlisted]; rw [if_pos (by omega)]
    rw [h0]
    have : i = 0 ∨ i = 1 ∨ i = 2 ∨ i = 3 := by omega
    rcases this with rfl | rfl | rfl | rfl <;> rfl
  rw [Memory.entrySerial, hz]; rfl

/-! ### Searches -/

theorem homeBucket_lt (x : Word) : homeBucket x < 16384 := by
  simp only [homeBucket]; omega

theorem nextEntry_lt (n : Nat) : nextEntry n < 16384 := Nat.mod_lt _ (by decide)

theorem forwardFrom_lt (a n : Nat) : forwardFrom a n < 16384 := Nat.mod_lt _ (by decide)

/-- An entry is as far forward as its distance says. -/
theorem forwardFrom_spec {a n : Nat} (ha : a < 16384) (hn : n < 16384) :
    (a + forwardFrom a n) % 16384 = n := by
  simp only [forwardFrom, Config.indexEntries]; omega

theorem forwardFrom_add {a j : Nat} (ha : a < 16384) (hj : j < 16384) :
    forwardFrom a ((a + j) % 16384) = j := by
  simp only [forwardFrom, Config.indexEntries]; omega

/-- A search finds the first entry forward from its start that holds the serial, no EMPTY one before it. -/
theorem Memory.findEntry_eq_some {m : Memory} {x : Word} {fuel n k : Nat} (hn : n < 16384) :
    m.findEntry x fuel n = some k ↔ ∃ d, d < fuel ∧ k = (n + d) % 16384 ∧ m.entrySerial k = x ∧ x ≠ 0 ∧
      ∀ j, j < d → m.entrySerial ((n + j) % 16384) ≠ 0 ∧ m.entrySerial ((n + j) % 16384) ≠ x := by
  induction fuel generalizing n with
  | zero => simp [Memory.findEntry]
  | succ fuel ih =>
    have h0 : (n + 0) % 16384 = n := by omega
    unfold Memory.findEntry
    by_cases h1 : m.entrySerial n = 0
    · simp only [h1, if_true]
      refine ⟨nofun, fun ⟨d, _, hk, hs, hx, hall⟩ => ?_⟩
      rcases Nat.eq_zero_or_pos d with rfl | hd
      · rw [h0] at hk; subst hk; exact absurd (hs.symm.trans h1) hx
      · have := (hall 0 hd).1; rw [h0] at this; exact absurd h1 this
    · rw [if_neg h1]
      by_cases h2 : m.entrySerial n = x
      · rw [if_pos h2]
        constructor
        · rintro h; cases h
          exact ⟨0, by omega, h0.symm, h2, h2 ▸ h1, fun j hj => absurd hj (by omega)⟩
        · rintro ⟨d, _, hk, _, _, hall⟩
          rcases Nat.eq_zero_or_pos d with rfl | hd
          · rw [h0] at hk; rw [hk]
          · have := (hall 0 hd).2; rw [h0] at this; exact absurd h2 this
      · rw [if_neg h2, ih (nextEntry_lt n)]
        have step : ∀ j, (nextEntry n + j) % 16384 = (n + (j + 1)) % 16384 := by
          intro j; simp only [nextEntry, Config.indexEntries]; omega
        constructor
        · rintro ⟨d, hd, hk, hs, hx, hall⟩
          refine ⟨d + 1, by omega, by rw [hk, step], hs, hx, fun j hj => ?_⟩
          rcases j with _ | j
          · rw [h0]; exact ⟨h1, h2⟩
          · rw [← step]; exact hall j (by omega)
        · rintro ⟨d, hd, hk, hs, hx, hall⟩
          rcases d with _ | d
          · rw [h0] at hk; subst hk; exact absurd hs h2
          · exact ⟨d, by omega, by rw [hk, step], hs, hx, fun j hj => by rw [step]; exact hall _ (by omega)⟩

/-- Every entry on the way from a LIVE entry's home bucket to it is LIVE and holds another serial, but for one
entry that may be a hole. -/
def Memory.reached (m : Memory) (hole : Nat) : Prop :=
  ∀ p, p < 16384 → m.entrySerial p ≠ 0 → ∀ q, q < 16384 →
    forwardFrom (homeBucket (m.entrySerial p)) q < forwardFrom (homeBucket (m.entrySerial p)) p →
    m.entrySerial q ≠ m.entrySerial p ∧ (m.entrySerial q = 0 → q = hole)

theorem Memory.indexSound_iff {m : Memory} : m.IndexSound ↔ ∀ hole, 16384 ≤ hole → m.reached hole := by
  constructor
  · intro h hole hh p hp hs q hq hd
    obtain ⟨d, hd1, hk, -, -, hall⟩ := (Memory.findEntry_eq_some (homeBucket_lt _)).1 (h p hp hs)
    have hb := homeBucket_lt (m.entrySerial p)
    have e1 : forwardFrom (homeBucket (m.entrySerial p)) p = d := by
      have := forwardFrom_add hb hd1
      rwa [← hk] at this
    have e2 := hall _ (e1 ▸ hd)
    rw [forwardFrom_spec hb hq] at e2
    exact ⟨e2.2, fun h0 => absurd h0 e2.1⟩
  · intro h p hp hs
    have hb := homeBucket_lt (m.entrySerial p)
    refine (Memory.findEntry_eq_some hb).2 ⟨forwardFrom (homeBucket (m.entrySerial p)) p,
      forwardFrom_lt _ _, (forwardFrom_spec hb hp).symm, rfl, hs, fun j hj => ?_⟩
    have hj' := Nat.lt_trans hj (forwardFrom_lt _ _)
    have hq : (homeBucket (m.entrySerial p) + j) % 16384 < 16384 := Nat.mod_lt _ (by decide)
    have := h 16384 (Nat.le_refl _) p hp hs _ hq (by rw [forwardFrom_add hb hj']; exact hj)
    exact ⟨fun h0 => absurd (this.2 h0) (by omega), this.1⟩

/-- In a table with at most one hole no serial stands in two entries. -/
theorem Memory.reached.unique {m : Memory} {hole p q : Nat} (h : m.reached hole) (hp : p < 16384)
    (hq : q < 16384) (hs : m.entrySerial p ≠ 0) (he : m.entrySerial p = m.entrySerial q) : p = q := by
  have hb := homeBucket_lt (m.entrySerial p)
  rcases Nat.lt_trichotomy (forwardFrom (homeBucket (m.entrySerial p)) p)
    (forwardFrom (homeBucket (m.entrySerial p)) q) with hlt | heq | hlt
  · exact absurd he (h q hq (he ▸ hs) p hp (he ▸ hlt)).1
  · rw [← forwardFrom_spec hb hp, ← forwardFrom_spec hb hq, heq]
  · exact absurd he.symm (h p hp hs q hq hlt).1

/-- A serial and a slot stand in a LIVE entry. -/
def Memory.holds (m : Memory) (x : Word) (slot : Nat) : Prop :=
  ∃ n, n < 16384 ∧ m.entrySerial n = x ∧ x ≠ 0 ∧ m.entrySlot n = slot

/-- In a sound index a lookup finds what its entries hold, and nothing else. -/
theorem Memory.IndexSound.lookup_eq_some {m : Memory} (h : m.IndexSound) (x : Word) (slot : Nat) :
    m.lookup x = some slot ↔ m.holds x slot := by
  constructor
  · intro hl
    obtain ⟨n, hn, hs⟩ := Option.map_eq_some_iff.1 hl
    obtain ⟨d, -, hk, he, hx, -⟩ := (Memory.findEntry_eq_some (homeBucket_lt x)).1 hn
    exact ⟨n, hk ▸ Nat.mod_lt _ (by decide), he, hx, hs⟩
  · rintro ⟨n, hn, rfl, hx, rfl⟩
    simp only [Memory.lookup, Config.indexEntries, h n hn hx, Option.map_some]

/-! ### Writes of entries -/

theorem Memory.read_writeEntry {m : Memory} (h : m.wf = true) {n x : Nat} (serial : Word) (slot : Nat)
    (hx : x < entryAddress n ∨ entryAddress n + 8 ≤ x) : (m.writeEntry n serial slot).read x = m.read x := by
  rw [Memory.writeEntry, Memory.read_writeBytes h, if_neg]
  simp only [List.length_append, wordBytes, natHalf, halfBytes, List.length_cons, List.length_nil]
  omega

/-- An entry written is LIVE with its serial and slot; every other entry is as it was. -/
theorem Memory.entry_writeEntry {m : Memory} (h : m.wf = true) (n k : Nat) (serial : Word) (slot : Nat) :
    (m.writeEntry n serial slot).entrySerial k = (if k = n then serial else m.entrySerial k) ∧
    (m.writeEntry n serial slot).entrySlot k = (if k = n then slot % 65536 else m.entrySlot k) := by
  by_cases hk : k = n
  · subst hk
    simp only [if_true]
    have hr : ∀ j len, j + len ≤ 8 → (m.writeEntry k serial slot).readBytes (entryAddress k + j) len =
        (((wordBytes serial ++ natHalf slot ++ [0, 0]).drop j).take len) := by
      intro j len hj
      have hl : (wordBytes serial ++ natHalf slot ++ [0, 0] : List Byte).length = 8 := rfl
      refine eq_of_byteAt (by rw [List.length_take, List.length_drop, hl]; simp; omega) fun i hi => ?_
      rw [Memory.readBytes_length] at hi
      rw [Memory.readBytes_getD, if_pos hi, Memory.writeEntry, Memory.read_writeBytes h, hl,
        if_pos (by omega), show entryAddress k + j + i - entryAddress k = j + i by omega]
      simp only [byteAt, List.getD_eq_getElem?_getD, List.getElem?_take, List.getElem?_drop, if_pos hi]
    constructor
    · rw [Memory.entrySerial, show entryAddress k = entryAddress k + 0 from rfl, hr 0 4 (by omega)]
      exact wordBytes_join serial
    · rw [Memory.entrySlot, hr 4 2 (by omega)]
      have := congrArg BitVec.toNat (halfBytes_join (BitVec.ofNat 16 slot))
      rw [BitVec.toNat_ofNat] at this
      exact this
  · rw [if_neg hk, if_neg hk]
    refine Memory.entry_congr fun x h1 h2 => Memory.read_writeEntry h _ _ ?_
    simp only [entryAddress] at *
    omega

theorem Memory.entrySlot_lt (m : Memory) (n : Nat) : m.entrySlot n % 65536 = m.entrySlot n :=
  Nat.mod_eq_of_lt (BitVec.isLt _)

/-! ### Deletion (R27) -/

/-- One step of the gap's closing: an entry that may fill the hole moves into it, and its place is the hole. -/
theorem Memory.reached.move {m : Memory} {hole n : Nat} (h : m.reached hole) (hm : m.wf = true)
    (hh : hole < 16384) (hn : n < 16384) (hne : n ≠ hole) (hz : m.entrySerial hole = 0)
    (hs : m.entrySerial n ≠ 0)
    (hf : forwardFrom (homeBucket (m.entrySerial n)) hole < forwardFrom (homeBucket (m.entrySerial n)) n) :
    let m' := (m.writeEntry hole (m.entrySerial n) (m.entrySlot n)).writeEntry n 0 0
    m'.reached n ∧ (∀ k, m'.entrySerial k =
      if k = n then 0 else if k = hole then m.entrySerial n else m.entrySerial k) ∧
    ∀ x slot, m'.holds x slot ↔ m.holds x slot := by
  intro m'
  have hw := Memory.wf_writeEntry hm hole (m.entrySerial n) (m.entrySlot n)
  have e : ∀ k, m'.entrySerial k =
      if k = n then 0 else if k = hole then m.entrySerial n else m.entrySerial k := fun k => by
    rw [(Memory.entry_writeEntry hw n k 0 0).1, (Memory.entry_writeEntry hm hole k _ _).1]
  have es : ∀ k, m'.entrySlot k =
      if k = n then 0 else if k = hole then m.entrySlot n else m.entrySlot k := fun k => by
    rw [(Memory.entry_writeEntry hw n k 0 0).2, (Memory.entry_writeEntry hm hole k _ _).2,
      Memory.entrySlot_lt]
  refine ⟨?_, e, ?_⟩
  · intro p hp hps q hq hd
    have hpn : p ≠ n := by rintro rfl; rw [e, if_pos rfl] at hps; exact hps rfl
    by_cases hph : p = hole
    · subst hph
      have ep : m'.entrySerial p = m.entrySerial n := by rw [e, if_neg hpn, if_pos rfl]
      rw [ep] at hd ⊢
      have old := h n hn hs q hq (Nat.lt_trans hd hf)
      have hqp : q ≠ p := by rintro rfl; exact Nat.lt_irrefl _ hd
      have hqn : q ≠ n := by rintro rfl; omega
      rw [e, if_neg hqn, if_neg hqp]
      exact ⟨old.1, fun h0 => absurd (old.2 h0) hqp⟩
    · have ep : m'.entrySerial p = m.entrySerial p := by rw [e, if_neg hpn, if_neg hph]
      rw [ep] at hd hps ⊢
      have old := h p hp hps q hq hd
      by_cases hqn : q = n
      · rw [e, if_pos hqn]; exact ⟨Ne.symm hps, fun _ => hqn⟩
      · by_cases hqh : q = hole
        · rw [e, if_neg hqn, if_pos hqh]
          exact ⟨fun he => hpn (h.unique hp hn hps he.symm), fun h0 => absurd h0 hs⟩
        · rw [e, if_neg hqn, if_neg hqh]
          exact ⟨old.1, fun h0 => absurd (old.2 h0) hqh⟩
  · intro x slot
    constructor
    · rintro ⟨k, hk, he, hx, hsl⟩
      rw [e] at he; rw [es] at hsl
      by_cases hkn : k = n
      · rw [if_pos hkn] at he; exact absurd he.symm hx
      · rw [if_neg hkn] at he hsl
        by_cases hkh : k = hole
        · rw [if_pos hkh] at he hsl; exact ⟨n, hn, he, hx, hsl⟩
        · rw [if_neg hkh] at he hsl; exact ⟨k, hk, he, hx, hsl⟩
    · rintro ⟨k, hk, he, hx, hsl⟩
      by_cases hkn : k = n
      · subst hkn
        exact ⟨hole, hh, by rw [e, if_neg hne.symm, if_pos rfl]; exact he, hx,
          by rw [es, if_neg hne.symm, if_pos rfl]; exact hsl⟩
      · have hkh : k ≠ hole := by rintro rfl; exact hx (he.symm.trans hz)
        exact ⟨k, hk, by rw [e, if_neg hkn, if_neg hkh]; exact he, hx,
          by rw [es, if_neg hkn, if_neg hkh]; exact hsl⟩

/-- The closing of a gap: a table that is sound but for a hole becomes sound and holds what it held. `e` is an
EMPTY entry ahead, `n` is not behind it, and no LIVE entry between hole and `n` is reached over the hole. -/
theorem Memory.closeGap_sound {fuel e : Nat} {m : Memory} {hole n : Nat} (h : m.reached hole)
    (hm : m.wf = true) (hh : hole < 16384) (hn : n < 16384) (he : e < 16384) (hz : m.entrySerial hole = 0)
    (hez : m.entrySerial e = 0) (h1 : 0 < forwardFrom hole n)
    (h2 : forwardFrom hole n ≤ forwardFrom hole e) (h3 : forwardFrom hole e < fuel + forwardFrom hole n)
    (h4 : ∀ p, p < 16384 → m.entrySerial p ≠ 0 →
      forwardFrom (homeBucket (m.entrySerial p)) hole < forwardFrom (homeBucket (m.entrySerial p)) p →
      forwardFrom hole n ≤ forwardFrom hole p) :
    (m.closeGap fuel hole n).IndexSound ∧ ∀ x slot, (m.closeGap fuel hole n).holds x slot ↔ m.holds x slot := by
  induction fuel generalizing m hole n with
  | zero => omega
  | succ fuel ih =>
    unfold Memory.closeGap
    have hnh : n ≠ hole := by rintro rfl; simp only [forwardFrom, Config.indexEntries] at h1; omega
    by_cases h0 : m.entrySerial n = 0
    · rw [if_pos h0]
      refine ⟨Memory.indexSound_iff.2 fun other ho p hp hs q hq hd => ?_, fun x slot => Iff.rfl⟩
      have old := h p hp hs q hq hd
      refine ⟨old.1, fun hq0 => ?_⟩
      exfalso
      have hqh := old.2 hq0
      subst hqh
      have h5 := h4 p hp hs hd
      have hpn : p ≠ n := by rintro rfl; exact hs h0
      have hb := homeBucket_lt (m.entrySerial p)
      have h6 := (h p hp hs n hn (by
        generalize homeBucket (m.entrySerial p) = b at *
        simp only [forwardFrom, Config.indexEntries] at *; omega)).2 h0
      exact hnh h6
    · have hne : n ≠ e := by rintro rfl; exact h0 hez
      have hstep : forwardFrom hole (nextEntry n) = forwardFrom hole n + 1 := by
        simp only [forwardFrom, nextEntry, Config.indexEntries] at *; omega
      have hlt : forwardFrom hole n < forwardFrom hole e := by
        simp only [forwardFrom, Config.indexEntries] at *; omega
      rw [if_neg h0]
      by_cases hf : mayFill (homeBucket (m.entrySerial n)) hole n = true
      · rw [if_pos hf]
        simp only [mayFill, decide_eq_true_eq] at hf
        have mv := h.move hm hh hn hnh hz h0 hf
        have hw := Memory.wf_writeEntry (Memory.wf_writeEntry hm hole (m.entrySerial n) (m.entrySlot n)) n 0 0
        have hhe : hole ≠ e := by rintro rfl; simp only [forwardFrom, Config.indexEntries] at hlt; omega
        have r := ih mv.1 hw hn (nextEntry_lt n) (by rw [mv.2.1, if_pos rfl])
          (by rw [mv.2.1, if_neg (Ne.symm hne), if_neg (Ne.symm hhe)]; exact hez)
          (by simp only [forwardFrom, nextEntry, Config.indexEntries]; omega)
          (by simp only [forwardFrom, nextEntry, Config.indexEntries] at *; omega)
          (by simp only [forwardFrom, nextEntry, Config.indexEntries] at *; omega)
          (fun p hp hps _ => by
            have : p ≠ n := by rintro rfl; rw [mv.2.1, if_pos rfl] at hps; exact hps rfl
            simp only [forwardFrom, nextEntry, Config.indexEntries] at *; omega)
        exact ⟨r.1, fun x slot => (r.2 x slot).trans (mv.2.2 x slot)⟩
      · rw [if_neg hf]
        simp only [mayFill, decide_eq_true_eq] at hf
        refine ih h hm hh (nextEntry_lt n) hz hez (by omega) (by omega) (by omega) fun p hp hps hd => ?_
        rw [hstep]
        refine Nat.lt_of_le_of_ne (h4 p hp hps hd) fun heq => ?_
        have : n = p := by rw [← forwardFrom_spec hh hn, ← forwardFrom_spec hh hp, heq]
        subst this
        exact hf hd

/-- A deletion keeps the index sound, leaves the serial absent, and every other serial found where it was. -/
theorem Memory.IndexSound.deleteSerial {m : Memory} (h : m.IndexSound) (hm : m.wf = true) (serial : Word)
    (hz : ∃ e, e < 16384 ∧ m.entrySerial e = 0) :
    (m.deleteSerial serial).IndexSound ∧ (m.deleteSerial serial).lookup serial = none ∧
    ∀ x, x ≠ serial → (m.deleteSerial serial).lookup x = m.lookup x := by
  unfold Memory.deleteSerial
  cases hf : m.findEntry serial Config.indexEntries (homeBucket serial) with
  | none => exact ⟨h, by simp only [Memory.lookup, hf, Option.map_none], fun _ _ => rfl⟩
  | some n =>
    obtain ⟨d, -, hk, hs, hx, -⟩ := (Memory.findEntry_eq_some (homeBucket_lt serial)).1 hf
    have hn : n < 16384 := hk ▸ Nat.mod_lt _ (by decide)
    obtain ⟨e, he, hez⟩ := hz
    have hne : e ≠ n := by rintro rfl; exact hx (hs.symm.trans hez)
    have hw := Memory.wf_writeEntry hm n 0 0
    have hi := Memory.indexSound_iff.1 h 16384 (Nat.le_refl _)
    have en : ∀ k, (m.writeEntry n 0 0).entrySerial k = if k = n then 0 else m.entrySerial k := fun k =>
      (Memory.entry_writeEntry hm n k 0 0).1
    have en' : ∀ k, (m.writeEntry n 0 0).entrySlot k = if k = n then 0 else m.entrySlot k := fun k =>
      (Memory.entry_writeEntry hm n k 0 0).2
    have hr : (m.writeEntry n 0 0).reached n := by
      intro p hp hps q hq hd
      have hpn : p ≠ n := by rintro rfl; rw [en, if_pos rfl] at hps; exact hps rfl
      have ep := en p
      rw [if_neg hpn] at ep
      rw [ep] at hps hd ⊢
      have old := hi p hp hps q hq hd
      rw [en]
      by_cases hqn : q = n
      · rw [if_pos hqn]; exact ⟨Ne.symm hps, fun _ => hqn⟩
      · rw [if_neg hqn]; exact ⟨old.1, fun h0 => absurd (old.2 h0) (by omega)⟩
    have r := Memory.closeGap_sound (fuel := Config.indexEntries) (e := e) hr hw hn (nextEntry_lt n) he
      (by rw [en, if_pos rfl]) (by rw [en, if_neg hne]; exact hez)
      (by simp only [forwardFrom, nextEntry, Config.indexEntries]; omega)
      (by simp only [forwardFrom, nextEntry, Config.indexEntries]; omega)
      (by have := forwardFrom_lt n e; simp only [Config.indexEntries]; omega)
      (fun p hp hps _ => by
        have : p ≠ n := by rintro rfl; rw [en, if_pos rfl] at hps; exact hps rfl
        simp only [forwardFrom, nextEntry, Config.indexEntries]; omega)
    have hold : ∀ x slot, (m.writeEntry n 0 0).holds x slot ↔ x ≠ serial ∧ m.holds x slot := by
      intro x slot
      constructor
      · rintro ⟨k, hk', hek, hxk, hsk⟩
        have hkn : k ≠ n := by rintro rfl; rw [en, if_pos rfl] at hek; exact hxk hek.symm
        rw [en, if_neg hkn] at hek; rw [en', if_neg hkn] at hsk
        exact ⟨fun hxs => hkn (hi.unique hk' hn (hek ▸ hxk) (hek.trans (hxs.trans hs.symm))),
          k, hk', hek, hxk, hsk⟩
      · rintro ⟨hxs, k, hk, hek, hxk, hsk⟩
        have hkn : k ≠ n := by rintro rfl; exact hxs (hek.symm.trans hs)
        exact ⟨k, hk, by rw [en, if_neg hkn]; exact hek, hxk, by rw [en', if_neg hkn]; exact hsk⟩
    refine ⟨r.1, Option.eq_none_iff_forall_ne_some.2 fun slot hsl => ?_, fun x hxs => Option.ext fun slot => ?_⟩
    · exact ((hold _ _).1 ((r.2 _ _).1 ((r.1.lookup_eq_some _ _).1 hsl))).1 rfl
    · exact (r.1.lookup_eq_some _ _).trans ((r.2 _ _).trans ((hold _ _).trans
        ⟨fun y => (h.lookup_eq_some _ _).2 y.2, fun y => ⟨hxs, (h.lookup_eq_some _ _).1 y⟩⟩))

/-- Work on the index leaves every byte outside the index area. -/
theorem Memory.closeGap_sameBut {fuel : Nat} {m : Memory} {hole n : Nat} (hm : m.wf = true)
    (hh : hole < 16384) (hn : n < 16384) :
    m.sameBut (m.closeGap fuel hole n) Config.indexBase 131072 := by
  induction fuel generalizing m hole n with
  | zero => exact fun _ _ => rfl
  | succ fuel ih =>
    unfold Memory.closeGap
    split
    · exact fun _ _ => rfl
    · split
      · intro x hx
        have hw := Memory.wf_writeEntry hm hole (m.entrySerial n) (m.entrySlot n)
        rw [ih (Memory.wf_writeEntry hw n 0 0) hn (nextEntry_lt n) x hx, Memory.read_writeEntry hw,
          Memory.read_writeEntry hm]
        all_goals simp only [entryAddress]; omega
      · exact ih hm hh (nextEntry_lt n)

theorem Memory.deleteSerial_sameBut {m : Memory} (hm : m.wf = true) (serial : Word) :
    m.sameBut (m.deleteSerial serial) Config.indexBase 131072 := by
  unfold Memory.deleteSerial
  cases hf : m.findEntry serial Config.indexEntries (homeBucket serial) with
  | none => exact fun _ _ => rfl
  | some n =>
    obtain ⟨d, -, hk, -⟩ := (Memory.findEntry_eq_some (homeBucket_lt serial)).1 hf
    have hn : n < 16384 := hk ▸ Nat.mod_lt _ (by decide)
    intro x hx
    refine (Memory.closeGap_sameBut (Memory.wf_writeEntry hm n 0 0) hn (nextEntry_lt n) x hx).trans
      (Memory.read_writeEntry hm _ _ ?_)
    simp only [entryAddress]; omega

/-! ### Insertion and clear (R26, R28) -/

theorem Memory.findEmpty_eq_some {m : Memory} {fuel n k : Nat} (hn : n < 16384)
    (h : m.findEmpty fuel n = some k) : ∃ d, d < fuel ∧ k = (n + d) % 16384 ∧ m.entrySerial k = 0 ∧
      ∀ j, j < d → m.entrySerial ((n + j) % 16384) ≠ 0 := by
  induction fuel generalizing n with
  | zero => simp [Memory.findEmpty] at h
  | succ fuel ih =>
    have h0 : (n + 0) % 16384 = n := by omega
    unfold Memory.findEmpty at h
    split at h
    · cases h
      exact ⟨0, by omega, h0.symm, ‹_›, fun j hj => absurd hj (by omega)⟩
    · obtain ⟨d, hd, hk, hz, hall⟩ := ih (nextEntry_lt n) h
      have step : ∀ j, (nextEntry n + j) % 16384 = (n + (j + 1)) % 16384 := by
        intro j; simp only [nextEntry, Config.indexEntries]; omega
      refine ⟨d + 1, by omega, by rw [hk, step], hz, fun j hj => ?_⟩
      rcases j with _ | j
      · rwa [h0]
      · rw [← step]; exact hall j (by omega)

/-- Inserting a serial that the index does not have keeps the index sound. -/
theorem Memory.IndexSound.insertSerial {m : Memory} (h : m.IndexSound) (hm : m.wf = true) (serial : Word)
    (slot : Nat) (hl : m.lookup serial = none) : (m.insertSerial serial slot).IndexSound := by
  unfold Memory.insertSerial
  cases hf : m.findEmpty Config.indexEntries (homeBucket serial) with
  | none => exact h
  | some n =>
    have hb := homeBucket_lt serial
    obtain ⟨d, hd, hk, hz, hall⟩ := Memory.findEmpty_eq_some hb hf
    have hn : n < 16384 := hk ▸ Nat.mod_lt _ (by decide)
    have hi := Memory.indexSound_iff.1 h 16384 (Nat.le_refl _)
    have en : ∀ k, (m.writeEntry n serial slot).entrySerial k = if k = n then serial else m.entrySerial k :=
      fun k => (Memory.entry_writeEntry hm n k serial slot).1
    refine Memory.indexSound_iff.2 fun other ho p hp hps q hq hdq => ?_
    by_cases hpn : p = n
    · subst hpn
      have ep := en p
      rw [if_pos rfl] at ep
      show (m.writeEntry p serial slot).entrySerial q ≠ (m.writeEntry p serial slot).entrySerial p ∧ _
      rw [ep] at hps hdq ⊢
      have hqn : q ≠ p := by rintro rfl; exact Nat.lt_irrefl _ hdq
      have ed : forwardFrom (homeBucket serial) p = d := by
        have := forwardFrom_add hb hd
        rwa [← hk] at this
      have hq0 := hall _ (ed ▸ hdq)
      rw [forwardFrom_spec hb hq] at hq0
      rw [en, if_neg hqn]
      refine ⟨fun heq => ?_, fun h0 => absurd h0 hq0⟩
      have := (h.lookup_eq_some serial _).2 ⟨q, hq, heq, hps, rfl⟩
      rw [hl] at this
      cases this
    · have ep := en p
      rw [if_neg hpn] at ep
      show (m.writeEntry n serial slot).entrySerial q ≠ (m.writeEntry n serial slot).entrySerial p ∧ _
      rw [ep] at hps hdq ⊢
      have old := hi p hp hps q hq hdq
      have hqn : q ≠ n := by rintro rfl; exact absurd (old.2 hz) (by omega)
      rw [en, if_neg hqn]
      exact ⟨old.1, fun h0 => absurd (old.2 h0) (by omega)⟩

theorem Memory.entrySerial_clearIndex {m : Memory} (hm : m.wf = true) {n : Nat} (h : n < 16384) :
    m.clearIndex.entrySerial n = 0 := by
  rw [← Memory.entrySerial_nil h]
  refine (Memory.entry_congr fun x h1 h2 => ?_).1
  have := entryAddress_lt h
  show (m.clearRange _ _).read x = Memory.unlisted x
  rw [Memory.read_clearRange hm, if_pos (by omega)]

/-- A clear leaves a sound index. -/
theorem Memory.indexSound_clearIndex {m : Memory} (hm : m.wf = true) : m.clearIndex.IndexSound :=
  fun _ hn h => absurd (Memory.entrySerial_clearIndex hm hn) h

end Sys2Proof.Machine
end

