-- ==== Sys2Proof/Laws/Sound.lean ====
section
/-! SUPPORT. The operations on the record cache, the write queue, records and chains keep every copy of a record
sound (`State.Sound`): a hold candidate exactly while HELD, and a current reading while READ or FLAGGED. -/

namespace Sys2Proof.Machine

variable {a s t : State}

/-! ### What a base record reads back as -/

theorem Contents.sound_free : Contents.Sound .free := fun _ h => nomatch h
theorem Contents.sound_fault (x : Word) (n : Option Seg) : Contents.Sound (.fault x n) := fun _ h => nomatch h
theorem Contents.sound_live {r : Record} (h : r.Sound) : Contents.Sound (.live r) := fun _ e => by
  cases e; exact h

/-- What a sound record's image stands for is sound. -/
theorem Contents.Sound.ofBytes_image {c : Contents} (h : c.Sound) : (Contents.ofBytes c.image).Sound := by
  unfold Contents.ofBytes
  split
  · exact Contents.sound_free
  · split
    · exact Contents.sound_fault _ _
    · cases c with
      | free =>
        rename_i h0 _
        exact absurd (by simp [Contents.image, withCheck, Contents.body, zeros, wordAt, halfAt, byteAt,
          List.replicate]) h0
      | fault x n =>
        rename_i h6
        exact absurd (by simp [Contents.image, withCheck, Contents.body, wordBytes, byteAt]) h6
      | live r =>
        rw [show (Contents.live r).image = r.body ++ [crc8 r.body] from rfl, Record.ofBody_body]
        exact h

/-! ### Work that leaves the copies alone -/

/-- Memory in canonical form that reads as `m` over the record area. -/
structure Memory.Aside (m m' : Memory) : Prop where
  wf : m'.wf = true
  reads : ∀ x, x < 524288 → m'.read x = m.read x

theorem Memory.Aside.refl {m : Memory} (h : m.wf = true) : m.Aside m := ⟨h, fun _ _ => rfl⟩

theorem Memory.Aside.writeBytes {m m' : Memory} (h : m.Aside m') {n : Nat} (hn : 524288 ≤ n)
    (bs : List Byte) : m.Aside (m'.writeBytes n bs) :=
  ⟨Memory.wf_writeBytes h.wf n bs, fun x hx => by
    rw [Memory.read_writeBytes h.wf, if_neg (by omega)]; exact h.reads x hx⟩

theorem Memory.Aside.writeItem {m m' : Memory} (h : m.Aside m') (i : Nat) (bs : List Byte) :
    m.Aside (m'.writeItem i bs) :=
  h.writeBytes (by simp only [copyAddress, Config.routeBase]; omega) _

theorem Memory.Aside.writeItemTwice {m m' : Memory} (h : m.Aside m') (i : Nat) (bs : List Byte) :
    m.Aside (m'.writeItemTwice i bs) := (h.writeItem i bs).writeItem i bs

theorem Memory.Aside.writeBlock {m m' : Memory} (h : m.Aside m') (n : Nat) (b : Block) :
    m.Aside (m'.writeBlock n b) :=
  h.writeBytes (by simp only [blockAddress, Config.extensionBase]; omega) _

theorem Memory.Aside.relinkBlock {m m' : Memory} (h : m.Aside m') (n : Nat) (next : Half) :
    m.Aside (m'.relinkBlock n next) :=
  h.writeBytes (by simp only [blockAddress, Config.extensionBase]; omega) _

theorem Memory.Aside.writeEntry {m m' : Memory} (h : m.Aside m') (n : Nat) (serial : Word) (slot : Nat) :
    m.Aside (m'.writeEntry n serial slot) :=
  h.writeBytes (by simp only [entryAddress, Config.indexBase]; omega) _

theorem Memory.Aside.insertSerial {m m' : Memory} (h : m.Aside m') (serial : Word) (slot : Nat) :
    m.Aside (m'.insertSerial serial slot) := by
  unfold Memory.insertSerial
  split
  · exact h.writeEntry _ _ _
  · exact h

theorem Memory.Aside.closeGap {m m' : Memory} (h : m.Aside m') (fuel hole n : Nat) :
    m.Aside (m'.closeGap fuel hole n) := by
  induction fuel generalizing m' hole n with
  | zero => exact h
  | succ fuel ih =>
    unfold Memory.closeGap
    split_ifs
    · exact h
    · exact ih ((h.writeEntry _ _ _).writeEntry _ _ _) _ _
    · exact ih h _ _

theorem Memory.Aside.deleteSerial {m m' : Memory} (h : m.Aside m') (serial : Word) :
    m.Aside (m'.deleteSerial serial) := by
  unfold Memory.deleteSerial
  split
  · exact (h.writeEntry _ _ _).closeGap _ _ _
  · exact h

theorem Memory.slotBytes_congr {m m' : Memory} (h : ∀ x, x < 524288 → m'.read x = m.read x) {n : Nat}
    (hn : n < 8192) : m'.slotBytes n = m.slotBytes n := by
  refine eq_of_byteAt (by simp [Memory.slotBytes]) fun i hi => ?_
  rw [Memory.slotBytes, Memory.readBytes_length] at hi
  rw [Memory.slotBytes, Memory.slotBytes, Memory.readBytes_getD, Memory.readBytes_getD, if_pos hi,
    if_pos hi]
  exact h _ (by simp only [slotAddress]; omega)

/-- Whether contents agree with the newest copy outside the cache depends on the queue and on the slot's bytes. -/
theorem State.newestIs_congr {slot : Nat} {c : Contents} (h1 : t.queued slot = s.queued slot)
    (h2 : t.mem.slotBytes slot = s.mem.slotBytes slot) (h : s.newestIs slot c) : t.newestIs slot c := by
  unfold State.newestIs at h ⊢
  rw [h1, h2]
  exact h

/-- The bounds and orders, and every copy of a record sound. -/
structure State.Fine (s : State) : Prop where
  ok : s.Ok
  sound : s.Sound

/-- `t` has the lines and the queue of `s`, and its record area. -/
structure Still (s t : State) : Prop where
  lines : t.store.lines = s.store.lines
  queue : t.store.queue = s.store.queue
  mem : s.mem.wf = true → s.mem.Aside t.mem

theorem State.Sound.still (h : s.Sound) (hm : s.mem.wf = true) (q : Still s t) : t.Sound := by
  have hl : ∀ i, t.line i = s.line i := fun i => by unfold State.line; rw [q.lines]
  refine ⟨fun i b hb => h.lines i b (hl i ▸ hb), fun i b hb => h.dirty i b (hl i ▸ hb),
    fun x hx => h.queue x (q.queue ▸ hx), fun n hn hc => ?_, fun i b hb hd hs => ?_⟩
  · rw [Memory.slotBytes_congr (q.mem hm).reads hn] at hc ⊢
    exact h.stored n hn hc
  · exact State.newestIs_congr (by unfold State.queued; rw [q.queue])
      (Memory.slotBytes_congr (q.mem hm).reads hs) (h.clean i b (hl i ▸ hb) hd hs)

theorem State.Fine.still (h : s.Fine) (ht : t.Ok) (q : Still s t) : t.Fine :=
  ⟨ht, h.sound.still h.ok.mem q⟩

/-- Work that changes neither the store block nor record memory. -/
theorem State.Fine.apart (h : s.Fine) (ht : t.Ok) (h1 : t.store = s.store) (h2 : t.mem = s.mem) : t.Fine :=
  h.still ht ⟨by rw [h1], by rw [h1], fun hm => by rw [h2]; exact Memory.Aside.refl hm⟩

theorem State.fine_ite {c : Prop} [Decidable c] {x y : State} (hx : x.Fine) (hy : y.Fine) :
    (if c then x else y).Fine := by split_ifs <;> assumption

theorem Still.refl (s : State) : Still s s := ⟨rfl, rfl, fun hm => Memory.Aside.refl hm⟩

theorem Still.ite {c : Prop} [Decidable c] {x y : State} (hx : Still a x) (hy : Still a y) :
    Still a (if c then x else y) := by split_ifs <;> assumption

theorem Still.foldl {α : Type} {f : State → α → State} (hf : ∀ s x, Still a s → Still a (f s x))
    (l : List α) (h : Still a s) : Still a (l.foldl f s) := by
  induction l generalizing s with
  | nil => exact h
  | cons x l ih => exact ih (hf _ _ h)

theorem Still.withMem (h : Still a s) {m : Memory} (hm : ∀ m0 : Memory, m0.Aside s.mem → m0.Aside m) :
    Still a (s.withMem m) := ⟨h.lines, h.queue, fun hw => hm _ (h.mem hw)⟩
theorem Still.withStore (h : Still a s) {x : Store} (h1 : x.lines = s.store.lines)
    (h2 : x.queue = s.store.queue) : Still a (s.withStore x) := ⟨h1.trans h.lines, h2.trans h.queue, h.mem⟩
theorem Still.withDirectory (h : Still a s) (x : Directory) : Still a (s.withDirectory x) :=
  ⟨h.lines, h.queue, h.mem⟩
theorem Still.withSegments (h : Still a s) (x : Segments) : Still a (s.withSegments x) :=
  ⟨h.lines, h.queue, h.mem⟩
theorem Still.withTamper (h : Still a s) (x : Tamper) : Still a (s.withTamper x) :=
  ⟨h.lines, h.queue, h.mem⟩
theorem Still.withMatching (h : Still a s) (x : Matching) : Still a (s.withMatching x) :=
  ⟨h.lines, h.queue, h.mem⟩
theorem Still.withPorts (h : Still a s) (x : Vector Port 4) : Still a (s.withPorts x) :=
  ⟨h.lines, h.queue, h.mem⟩
theorem Still.withRoute (h : Still a s) (x : Route) : Still a (s.withRoute x) := ⟨h.lines, h.queue, h.mem⟩
theorem Still.withAssessment (h : Still a s) (x : Option Assessment) : Still a (s.withAssessment x) :=
  ⟨h.lines, h.queue, h.mem⟩
theorem Still.withDepot (h : Still a s) (x : Depot) : Still a (s.withDepot x) := ⟨h.lines, h.queue, h.mem⟩
theorem Still.withCommand (h : Still a s) (x : Command) : Still a (s.withCommand x) :=
  ⟨h.lines, h.queue, h.mem⟩
theorem Still.withEvents (h : Still a s) (x : Events) : Still a (s.withEvents x) :=
  ⟨h.lines, h.queue, h.mem⟩
theorem Still.raise (h : Still a s) (e : Event) : Still a (s.raise e) := h.withEvents _

theorem Still.writeStateBlock (h : Still a s) : Still a s.writeStateBlock :=
  h.withMem fun _ hm => hm.writeItem _ _

theorem Still.putSegment (h : Still a s) (n : Seg) (e : Segment) : Still a (s.putSegment n e) :=
  Still.ite (h.withSegments _) (Still.withMem (h.withSegments _) fun _ hm => hm.writeItem _ _)

theorem Still.putPlan (h : Still a s) (plan : List Seg) : Still a (s.putPlan plan) :=
  Still.ite h (Still.withMem (h.withSegments _) fun _ hm => hm.writeItem _ _)

theorem Still.putActive (h : Still a s) (x : Option Seg) : Still a (s.putActive x) :=
  Still.ite h (h.withSegments _).writeStateBlock

theorem Still.setDwell (h : Still a s) (x : Option Nat) : Still a (s.setDwell x) := h.withSegments _

theorem Still.countAt (h : Still a s) (p : Option Place) (f : Nat → Nat) : Still a (s.countAt p f) := by
  unfold State.countAt
  split
  · exact h.putSegment _ _
  · exact h

theorem Still.complete (h : Still a s) (n : Seg) : Still a (s.complete n) := by
  have h1 := (h.putSegment n { s.segment n with state := .complete }).putPlan
    (planWithout s.segments.plan n)
  exact Still.ite h (Still.ite h ((Still.ite ((h1.putActive _).setDwell _) h1).raise _))

theorem Still.reopen (h : Still a s) (n : Seg) : Still a (s.reopen n) := by
  refine Still.ite ?_ h
  split
  · exact (h.putSegment _ _).putPlan _
  · exact h.putSegment _ _
  · exact h

theorem Still.judge (h : Still a s) (n : Option Seg) (before : Nat) : Still a (s.judge n before) := by
  unfold State.judge
  split
  · exact h
  · exact Still.ite (h.complete _) (Still.ite (h.reopen _) h)

theorem Still.report (h : Still a s) (old new : Option Place) : Still a (s.report old new) := by
  have h1 := (h.countAt old (· - 1)).countAt new (· + 1)
  exact Still.ite h1 ((h1.judge _ _).judge _ _)

theorem Still.inserted (h : Still a s) : Still a s.inserted := (h.withTamper _).raise _

theorem Still.placeInQueue (h : Still a s) (x : TamperEntry) : Still a (s.placeInQueue x) := by
  unfold State.placeInQueue
  split
  · exact (h.withTamper _).inserted
  · split
    · exact h
    · exact Still.ite (h.withTamper _).inserted (h.withTamper _)

theorem Still.removedReport (h : Still a s) (slot : Nat) : Still a (s.removedReport slot) := h.withTamper _

theorem Still.flaggedReport (h : Still a s) (slot : Nat) (r : Record) :
    Still a (s.flaggedReport slot r) := (h.removedReport slot).placeInQueue _

theorem Still.risenReport (h : Still a s) (slot : Nat) (r : Record) : Still a (s.risenReport slot r) := by
  unfold State.risenReport
  split
  · exact h.withTamper _
  · exact h.placeInQueue _

theorem Still.setChain (h : Still a s) (slot : Nat) (chain : List (Nat × BlockKind)) :
    Still a (s.setChain slot chain) := by
  unfold State.setChain
  split
  · exact h.withDirectory _
  · exact h

theorem Still.useBlock (h : Still a s) (n : Nat) : Still a (s.useBlock n) := h.withStore rfl rfl
theorem Still.freeChain (h : Still a s) (chain : List (Nat × BlockKind)) : Still a (s.freeChain chain) :=
  h.withStore rfl rfl
theorem Still.forget (h : Still a s) (slot : Nat) : Still a (s.forget slot) := h.withMatching _

theorem Still.fileRecord (h : Still a s) (slot : Nat) (r : Record) : Still a (s.fileRecord slot r) := by
  unfold State.fileRecord
  split
  · exact h
  · exact (h.withDirectory _).report _ _

theorem Still.writeCheckpoint (h : Still a s) : Still a s.writeCheckpoint :=
  (h.withMem fun _ hm => hm.writeItem _ _).withRoute _
theorem Still.writeDue (h : Still a s) : Still a s.writeDue := by
  unfold State.writeDue
  split
  · exact (h.withMem fun _ hm => hm.writeItem _ _).withRoute _
  · exact h
theorem Still.setClock (h : Still a s) (v : Word) : Still a (s.setClock v) :=
  Still.writeCheckpoint (h.withRoute _)
theorem Still.enterRouteState (h : Still a s) (x : RouteState) : Still a (s.enterRouteState x) :=
  Still.writeStateBlock (h.withRoute _)

theorem Still.writeSegmentArea (h : Still a s) : Still a s.writeSegmentArea := by
  refine h.withMem fun m0 hm => Memory.Aside.writeItem ?_ _ _
  have key : ∀ (l : List Seg) (m : Memory), m0.Aside m →
      m0.Aside (l.foldl (fun m n => m.writeItem (5 + n.val) (segmentItem (s.segment n))) m) := by
    intro l
    induction l with
    | nil => exact fun m hm => hm
    | cons n l ih => exact fun m hm => ih _ (hm.writeItem _ _)
  exact key _ _ hm

theorem Memory.read_clearRange_below {m : Memory} (lo hi x : Nat) (hx : x < lo) (hm : m.wf = true) :
    (m.clearRange lo hi).read x = m.read x := by
  rw [Memory.read_clearRange hm, if_neg (by omega)]

theorem Memory.Aside.clearIndex {m m' : Memory} (h : m.Aside m') : m.Aside m'.clearIndex :=
  ⟨Memory.wf_clearIndex h.wf, fun x hx => (Memory.read_clearRange_below _ _ x
    (by simp only [Config.indexBase]; omega) h.wf).trans (h.reads x hx)⟩

theorem Still.emptyRoute (h : Still a s) : Still a s.emptyRoute := by
  have h1 := (((h.withMem fun _ hm => hm.clearIndex).withMatching
    { s.matching with buffer := [] }).withDirectory []).withStore
      (x := { s.store with usedBlocks := [] }) rfl rfl
  have h2 := Still.writeSegmentArea (Still.withSegments (h1.withTamper
    { s.tamper with entries := [], evictions := 0, turnedAway := 0 }) Segments.reset)
  have h3 : ∀ x : State, Still a x → Still a (((x.withAssessment none).withRoute
      { x.route with header := none }).withMem (x.mem.writeItemTwice 1 (headerItem none))) := fun x hx =>
    Still.withMem (Still.withRoute (hx.withAssessment none) _) fun _ hm => hm.writeItemTwice _ _
  exact ((h3 _ h2).setClock 0).enterRouteState _

theorem Still.returnIfBare (h : Still a s) : Still a s.returnIfBare := Still.ite h.emptyRoute h

theorem Still.written (h : Still a s) : Still a s.written := h.withCommand _
theorem Still.reply (h : Still a s) (x : Answer) (data : List Byte) : Still a (s.reply x data) :=
  h.written.withCommand _
theorem Still.refuse (h : Still a s) (x : Answer) : Still a (s.refuse x) := h.reply x []
theorem Still.collide (h : Still a s) : Still a s.collide := (h.withCommand _).raise _

/-! ### The write queue and the lines -/

theorem slotAddress_apart {n k : Nat} (h : n ≠ k) : slotAddress n + 64 ≤ slotAddress k ∨
    slotAddress k + 64 ≤ slotAddress n := by
  simp only [slotAddress]; omega

theorem Memory.slotBytes_writeSlot {m : Memory} (hm : m.wf = true) (n : Nat) (c : Contents) :
    (m.writeSlot n c).slotBytes n = c.image := by
  rw [Memory.slotBytes, Memory.writeSlot, ← (Contents.image_checked c).1]
  exact Memory.readBytes_writeBytes hm _ _

theorem Memory.slotBytes_writeSlot_apart {m : Memory} (hm : m.wf = true) {n k : Nat} (h : k ≠ n) (c : Contents) :
    (m.writeSlot n c).slotBytes k = m.slotBytes k :=
  Memory.readBytes_writeBytes_apart hm _ _ _ _ (by rw [(Contents.image_checked c).1]; exact slotAddress_apart h)

/-- The newest copy in a queue with an image at its tail. -/
theorem queued_append {l : List Queued} (q : Queued) (slot : Nat) :
    ((l ++ [q]).reverse.find? fun q => q.slot == slot) =
      if q.slot = slot then some q else l.reverse.find? fun q => q.slot == slot := by
  rw [List.reverse_append, List.reverse_cons, List.reverse_nil, List.nil_append, List.cons_append,
    List.nil_append, List.find?_cons]
  by_cases h : q.slot = slot
  · rw [if_pos h, beq_iff_eq.2 h]
  · rw [if_neg h, beq_eq_false_iff_ne.2 h]

/-- The newest copy in a queue without its oldest image. -/
theorem queued_cons {l : List Queued} (q : Queued) (slot : Nat) :
    ((q :: l).reverse.find? fun q => q.slot == slot) =
      (l.reverse.find? fun q => q.slot == slot).or (if q.slot = slot then some q else none) := by
  rw [List.reverse_cons, List.find?_append, List.find?_singleton]
  by_cases h : q.slot = slot
  · rw [if_pos h, beq_iff_eq.2 h]; rfl
  · rw [if_neg h, beq_eq_false_iff_ne.2 h]; rfl

/-- The oldest image written: what agreed with the newest copy still does. -/
theorem State.newestIs_writeOldest (hm : s.mem.wf = true) {slot : Nat} {c : Contents} (h : s.newestIs slot c) :
    s.writeOldest.newestIs slot c := by
  unfold State.newestIs at h ⊢
  unfold State.writeOldest
  split
  · exact h
  next q rest hq =>
    have hs : s.queued slot = ((rest.reverse.find? fun q => q.slot == slot).or
        (if q.slot = slot then some q else none)).map (·.contents) := by
      unfold State.queued; rw [hq, queued_cons]
    show c.newest ((s.mem.writeSlot q.slot q.contents).slotBytes slot)
      ((rest.reverse.find? fun q => q.slot == slot).map (·.contents))
    rw [hs] at h
    cases e : rest.reverse.find? fun q => q.slot == slot with
    | some x => rw [e] at h; exact h
    | none =>
      rw [e] at h
      by_cases he : q.slot = slot
      · subst he
        rw [if_pos rfl] at h
        have h : q.contents = c := h
        rw [Memory.slotBytes_writeSlot hm, h]
        exact .inl rfl
      · rw [if_neg he] at h
        rw [Memory.slotBytes_writeSlot_apart hm (Ne.symm he)]
        exact h

theorem State.writeOldest_lines (s : State) : s.writeOldest.store.lines = s.store.lines := by
  unfold State.writeOldest
  split <;> rfl

/-- The oldest entry written. -/
theorem State.Sound.writeOldest (h : s.Sound) (hm : s.mem.wf = true) : s.writeOldest.Sound := by
  have hc : ∀ i b, (s.writeOldest.line i).body = some b → b.dirty = false → b.slot < 8192 →
      s.writeOldest.newestIs b.slot b.contents := fun i b hb hd hs =>
    State.newestIs_writeOldest hm (h.clean i b (by rwa [State.line, State.writeOldest_lines] at hb) hd hs)
  unfold State.writeOldest at hc ⊢
  split at hc
  · exact h
  next q rest hq =>
    have hq' := h.queue q (by rw [hq]; exact List.mem_cons_self ..)
    refine ⟨h.lines, h.dirty, fun x hx => h.queue x (by rw [hq]; exact List.mem_cons_of_mem _ hx),
      fun n hn hk => ?_, hc⟩
    have hk : checkHolds 64 ((s.mem.writeSlot q.slot q.contents).slotBytes n) = true := hk
    show (Contents.ofBytes ((s.mem.writeSlot q.slot q.contents).slotBytes n)).Sound
    by_cases hne : n = q.slot
    · subst hne
      rw [Memory.slotBytes_writeSlot hm]
      exact hq'.2.ofBytes_image
    · rw [Memory.slotBytes_writeSlot_apart hm hne] at hk ⊢
      exact h.stored n hn hk

theorem State.Fine.writeOldest (h : s.Fine) : s.writeOldest.Fine :=
  ⟨h.ok.writeOldest, h.sound.writeOldest h.ok.mem⟩

/-- An image that no CLEAN line's slot takes joins the queue. -/
theorem State.Fine.enqueue (h : s.Fine) {q : Queued} (h1 : q.slot < 8192) (h2 : q.contents.Sound)
    (h3 : ∀ i b, (s.line i).body = some b → b.dirty = false → b.slot ≠ q.slot) : (s.enqueue q).Fine := by
  refine ⟨h.ok.enqueue q, ?_⟩
  have key : ∀ x : State, x.Sound → x.store.lines = s.store.lines →
      (x.withStore { x.store with queue := x.store.queue ++ [q] }).Sound :=
    fun x hx hl => ⟨hx.lines, hx.dirty, fun y hy => by
      rcases List.mem_append.1 hy with hy | hy
      · exact hx.queue y hy
      · rw [List.mem_singleton.1 hy]; exact ⟨h1, h2⟩, hx.stored, fun i b hb hd hs => by
      have hb : (x.line i).body = some b := hb
      refine State.newestIs_congr (s := x) ?_ rfl (hx.clean i b hb hd hs)
      show ((x.store.queue ++ [q]).reverse.find? fun q => q.slot == b.slot).map _ = _
      rw [queued_append, if_neg (Ne.symm (h3 i b (by rwa [State.line, hl] at hb) hd))]
      rfl⟩
  unfold State.enqueue
  dsimp only
  split_ifs
  · exact key _ h.sound rfl
  · exact key _ h.writeOldest.sound s.writeOldest_lines

theorem State.Fine.drain (h : s.Fine) (n : Nat) : (State.drain n s).Fine := by
  induction n generalizing s with
  | zero => exact h
  | succ n ih => exact ih h.writeOldest

/-- A line that takes a body: a slot there is if it is DIRTY, with sound contents; if it is CLEAN, they agree with the
newest copy outside the cache. -/
structure Cached.Fits (s : State) (b : Cached) : Prop where
  sound : b.slot < 8192 → b.contents.Sound
  dirty : b.dirty = true → b.slot < 8192
  clean : b.dirty = false → b.slot < 8192 → s.newestIs b.slot b.contents

theorem Cached.fits_dirty {slot : Nat} (hs : slot < 8192) {c : Contents} (hc : c.Sound) :
    Cached.Fits s ⟨slot, true, c⟩ := ⟨fun _ => hc, fun _ => hs, (fun e => nomatch e)⟩

theorem Cached.fits_clean {slot : Nat} {c : Contents} (hc : slot < 8192 → c.Sound)
    (hn : slot < 8192 → s.newestIs slot c) : Cached.Fits s ⟨slot, false, c⟩ := ⟨hc, (fun e => nomatch e), fun _ => hn⟩

theorem State.Sound.fits (h : s.Sound) {i : Fin 8} {b : Cached} (hb : (s.line i).body = some b) : b.Fits s :=
  ⟨h.lines i b hb, h.dirty i b hb, h.clean i b hb⟩

theorem State.Sound.setLines (h : s.Sound) {x : Store} (i : Fin 8) {l : Line}
    (hx : x.lines = s.store.lines.set i.val l) (hq : x.queue = s.store.queue)
    (hl : ∀ b, l.body = some b → b.Fits s) : (s.withStore x).Sound := by
  have key : ∀ k b, ((s.withStore x).line k).body = some b → b.Fits s := by
    intro k b hb
    have hb : (x.lines.get k).body = some b := hb
    rw [hx, Vector.get_eq_getElem, Vector.getElem_set] at hb
    split_ifs at hb
    · exact hl b hb
    · exact h.fits hb
  exact ⟨fun k b hb => (key k b hb).sound, fun k b hb => (key k b hb).dirty,
    fun q hq' => h.queue q (hq ▸ hq'), h.stored, fun k b hb hd hs => State.newestIs_congr
      (s := s) (by unfold State.queued; rw [State.withStore_store, hq]) rfl ((key k b hb).clean hd hs)⟩

theorem State.Sound.setLine (h : s.Sound) (i : Fin 8) {l : Line} (hl : ∀ b, l.body = some b → b.Fits s) :
    (s.setLine i l).Sound := h.setLines i rfl rfl hl

theorem State.Sound.hold (h : s.Sound) (u : Holder) (i : Fin 8) {body : Option Cached}
    (hl : ∀ b, body = some b → b.Fits s) : (s.hold u i body).Sound :=
  h.setLines i (l := ⟨body, some u⟩) rfl rfl hl

theorem State.Fine.putContents (h : s.Fine) {slot : Nat} (hs : slot < 8192) {c : Contents} (hc : c.Sound) :
    (s.putContents slot c).Fine := by
  refine ⟨h.ok.putContents slot c, ?_⟩
  unfold State.putContents
  split
  · exact h.sound.setLine _ fun b hb => by cases hb; exact Cached.fits_dirty hs hc
  · exact h.sound

theorem State.Fine.letGo (h : s.Fine) (slot : Nat) : (s.letGo slot).Fine := by
  refine ⟨h.ok.letGo slot, ?_⟩
  unfold State.letGo
  split
  · exact h.sound.setLine _ fun b hb => h.sound.fits hb
  · exact h.sound

theorem State.Fine.dropLine (h : s.Fine) (slot : Nat) : (s.dropLine slot).Fine := by
  refine ⟨h.ok.dropLine slot, ?_⟩
  unfold State.dropLine
  split
  · exact h.sound.setLine _ fun b hb => nomatch hb
  · exact h.sound

/-- No line has a slot whose line was dropped. -/
theorem State.dropLine_apart (h : s.Ok) (slot : Nat) (k : Fin 8) (x : Cached)
    (hx : ((s.dropLine slot).line k).body = some x) : x.slot ≠ slot := by
  unfold State.dropLine at hx
  split at hx
  next i hi =>
    obtain ⟨b, hb, hs⟩ := State.lineOf_some hi
    have hx : ((s.store.lines.set i.val ⟨none, none⟩).get k).body = some x := hx
    rw [Vector.get_eq_getElem, Vector.getElem_set] at hx
    split_ifs at hx with hk
    exact fun he => hk (congrArg Fin.val (h.store.lines i k b x hb hx (hs.trans he.symm)))
  next hn => exact State.lineOf_none hn k x hx

/-- A slot's line dropped and the free-slot image queued. -/
theorem State.Fine.freeImage (h : s.Fine) {slot : Nat} (hs : slot < 8192) :
    ((s.dropLine slot).enqueue ⟨slot, .free⟩).Fine :=
  (h.dropLine slot).enqueue hs Contents.sound_free fun k x hx _ => State.dropLine_apart h.ok slot k x hx

theorem State.Fine.evict (h : s.Fine) (i : Fin 8) : (s.evict i).Fine := by
  unfold State.evict
  split
  next b hb =>
    split_ifs with hd
    · have hf := h.sound.fits hb
      refine h.enqueue (hf.dirty hd) (hf.sound (hf.dirty hd)) fun k x hx hxd he => ?_
      have := h.ok.store.lines k i x b hx hb he
      subst this
      rw [hb] at hx
      cases hx
      rw [hd] at hxd
      cases hxd
    · exact h
  · exact h

theorem State.Fine.grants (h : s.Fine) (u : Holder) (n : Nat) : (s.grants u n).Fine := by
  unfold State.grants
  split
  · exact h
  next unit _ =>
    exact State.fine_ite h (State.Fine.drain (h.still (h.ok.withStore (x := { s.store with granted := unit })
      ⟨h.ok.store.lines, h.ok.store.recency, h.ok.store.queue, h.ok.store.blocks, h.ok.store.inPool⟩)
      ((Still.refl s).withStore rfl rfl)) _)

theorem State.Fine.grant (h : s.Fine) (u : Holder) : (s.grant u).Fine := h.grants u 1

theorem State.Fine.writeBlock (h : s.Fine) (u : Holder) (n : Nat) (b : Block) : (s.writeBlock u n b).Fine :=
  State.Fine.grant (h.still (h.ok.withMem (Memory.wf_writeBlock h.ok.mem n b))
    ((Still.refl s).withMem fun _ hm => hm.writeBlock _ _)) u

theorem State.Fine.relink (h : s.Fine) (u : Holder) (n : Nat) (next : Half) : (s.relink u n next).Fine :=
  State.Fine.grant (h.still (h.ok.withMem (Memory.wf_relinkBlock h.ok.mem n next))
    ((Still.refl s).withMem fun _ hm => hm.relinkBlock _ _)) u

/-! ### Taking a line -/

theorem State.Fine.becomeFault (h : s.Fine) (slot : Nat) : (s.becomeFault slot).Fine := by
  have hok := h.ok.becomeFault slot
  unfold State.becomeFault at hok ⊢
  split at hok
  · exact h
  next d hd =>
    have hs := h.ok.directory.inArea_of_get hd
    refine State.Fine.still (h.putContents hs (Contents.sound_fault
      ((s.mem.serialNaming slot Config.indexEntries).getD 0) d.segment)) hok ?_
    exact (((((Still.refl _).freeChain _).removedReport _).forget _).withDirectory _ |>.report _ _).raise _

/-- The newest copy in the write queue is sound. -/
theorem State.Sound.queued (h : s.Sound) {slot : Nat} {c : Contents} (hc : s.queued slot = some c) : c.Sound := by
  obtain ⟨q, hq, rfl⟩ := Option.map_eq_some_iff.1 hc
  exact (h.queue q (List.mem_reverse.1 (List.mem_of_find?_eq_some hq))).2

/-- The writes after a row of accesses leave a slot alone that no queued image names. -/
theorem State.grants_apart (hm : s.mem.wf = true) {slot : Nat} (hq : s.queued slot = none) (u : Holder) (n : Nat) :
    (s.grants u n).queued slot = none ∧ (s.grants u n).mem.slotBytes slot = s.mem.slotBytes slot := by
  have one : ∀ x : State, x.mem.wf = true → x.queued slot = none →
      x.writeOldest.mem.wf = true ∧ x.writeOldest.queued slot = none ∧
        x.writeOldest.mem.slotBytes slot = x.mem.slotBytes slot := by
    intro x hx hq
    unfold State.writeOldest
    split
    · exact ⟨hx, hq, rfl⟩
    next q rest e =>
      unfold State.queued at hq ⊢
      rw [e, queued_cons, Option.map_eq_none_iff, Option.or_eq_none_iff] at hq
      have hne : slot ≠ q.slot := fun he => by rw [if_pos he.symm] at hq; exact nomatch hq.2
      refine ⟨Memory.wf_writeBytes hx _ _, ?_, Memory.slotBytes_writeSlot_apart hx hne _⟩
      show (rest.reverse.find? fun q => q.slot == slot).map _ = none
      rw [hq.1]
      rfl
  have all : ∀ k (x : State), x.mem.wf = true → x.queued slot = none →
      (State.drain k x).queued slot = none ∧ (State.drain k x).mem.slotBytes slot = x.mem.slotBytes slot := by
    intro k
    induction k with
    | zero => exact fun x _ hq => ⟨hq, rfl⟩
    | succ k ih =>
      intro x hx hq
      obtain ⟨h1, h2, h3⟩ := one x hx hq
      obtain ⟨h4, h5⟩ := ih _ h1 h2
      exact ⟨h4, h5.trans h3⟩
  unfold State.grants
  split
  · exact ⟨hq, rfl⟩
  next unit _ =>
    split
    · exact ⟨hq, rfl⟩
    · exact all _ (s.withStore { s.store with granted := unit }) hm hq

theorem State.Fine.takeLine (h : s.Fine) (u : Holder) (slot : Nat) : (s.takeLine u slot).1.Fine := by
  have hok := h.ok.takeLine u slot
  refine ⟨hok, ?_⟩
  unfold State.takeLine at hok ⊢
  split at hok
  next i hi =>
    exact h.sound.hold u i fun b hb => h.sound.fits hb
  next hn =>
    have he := h.evict s.victim
    dsimp only at hok ⊢
    split at hok
    next c hc =>
      refine he.sound.hold u _ fun b hb => ?_
      cases hb
      exact Cached.fits_clean (fun _ => he.sound.queued hc) fun _ => by unfold State.newestIs; rw [hc]; rfl
    next hc =>
      have hg := he.grant u
      obtain ⟨k1, k2⟩ := State.grants_apart he.ok.mem hc u 1
      split_ifs at hok ⊢ with hk
      · refine hg.sound.hold u _ fun b hb => ?_
        cases hb
        refine Cached.fits_clean (fun hs => he.sound.stored slot hs hk) fun _ => ?_
        unfold State.newestIs State.grant
        rw [k1, k2]
        exact .inr (by rw [if_pos hk])
      · have hl' := (State.grant_lines u (s.evict s.victim)).trans (State.evict_lines s.victim s)
        refine (State.Fine.becomeFault ⟨hg.ok.hold u _ (State.fits_fresh hn hl' _ _ _),
          hg.sound.hold u _ fun b hb => ?_⟩ slot).sound
        cases hb
        refine Cached.fits_clean (fun _ => Contents.sound_free) fun _ => ?_
        unfold State.newestIs State.grant
        rw [k1, k2]
        exact .inr (by rw [if_neg hk])

theorem State.Fine.takeLineFresh (h : s.Fine) (u : Holder) {slot : Nat} (hs : slot < 8192) {c : Contents}
    (hc : c.Sound) : (s.takeLineFresh u slot c).Fine := by
  refine ⟨h.ok.takeLineFresh u slot c, ?_⟩
  unfold State.takeLineFresh
  split
  · exact h.sound.hold u _ fun b hb => by cases hb; exact Cached.fits_dirty hs hc
  · exact (h.evict s.victim).sound.hold u _ fun b hb => by cases hb; exact Cached.fits_dirty hs hc

/-- What a line holds of a slot there is is sound. -/
theorem State.Sound.cached (h : s.Sound) {slot : Nat} (hs : slot < 8192) : (s.cached slot).Sound := by
  unfold State.cached
  split
  next i hi =>
    obtain ⟨b, hb, rfl⟩ := State.lineOf_some hi
    rw [hb]
    exact h.lines i b hb hs
  · exact Contents.sound_free

theorem State.Fine.putRecord (h : s.Fine) {slot : Nat} (hs : slot < 8192) {r : Record} (hr : r.Sound) :
    (s.putRecord slot r).Fine :=
  (h.putContents hs (Contents.sound_live hr)).still (h.ok.putRecord slot r) ((Still.refl _).fileRecord _ _)

theorem State.Fine.fileRecord (h : s.Fine) (slot : Nat) (r : Record) : (s.fileRecord slot r).Fine :=
  h.still (h.ok.fileRecord slot r) ((Still.refl _).fileRecord _ _)

/-! ### Chains -/

/-- The chain fields say nothing of soundness. -/
theorem Record.Sound.chained {r : Record} (h : r.Sound) (n : Half) (m : Marks) :
    Record.Sound { r with firstBlock := n, marks := m } := ⟨h.candidate, h.current⟩

theorem State.Fine.cutChain (h : s.Fine) (u : Holder) {slot : Nat} (hs : slot < 8192) {r : Record}
    (hr : r.Sound) (kept : Nat) : (s.cutChain u slot r kept).Fine := by
  unfold State.cutChain
  have h1 := h.still ((h.ok.freeChain ((s.chain slot).drop kept)).setChain slot
    (chain := (s.chain slot).take kept) fun b hb => h.ok.chain_lt slot b (List.mem_of_mem_take hb))
    (((Still.refl s).freeChain _).setChain _ _)
  dsimp only
  split
  · exact (h1.relink _ _ _).putRecord hs (hr.chained _ _)
  · exact h1.putRecord hs (hr.chained _ _)

theorem State.Fine.readExtension (h : s.Fine) (u : Holder) {slot : Nat} (hs : slot < 8192) {r : Record}
    (hr : r.Sound) : (s.readExtension u slot r).1.Fine := by
  have h1 := h.grants u
  exact State.fine_ite ((h1 _).cutChain _ hs hr _) (h1 _)

/-! ### Retirement, writing back -/

theorem State.Fine.retire (h : s.Fine) (u : Holder) {slot : Nat} (hs : slot < 8192) (serial : Word) :
    (s.retire u slot serial).Fine := by
  have h1 := h.takeLineFresh u hs Contents.sound_free
  have h2 := State.Fine.grants (h1.still (h1.ok.withMem (Memory.wf_deleteSerial h1.ok.mem serial))
    ((Still.refl _).withMem fun _ hm => hm.deleteSerial serial)) u
      ((s.takeLineFresh u slot .free).mem.deleteAccesses serial)
  have k2 := ((h2.ok.forget slot).freeChain ((s.takeLineFresh u slot .free).chain slot)).removedReport slot
  have h3 := h2.still ((k2.withDirectory (k2.directory.free slot)).report
    ((s.takeLineFresh u slot .free).place slot) none)
    (((((Still.refl _).forget slot).freeChain _).removedReport slot).withDirectory _ |>.report _ _)
  exact h3.freeImage hs

theorem State.Fine.returnIfBare (h : s.Fine) : s.returnIfBare.Fine :=
  h.still h.ok.returnIfBare (Still.refl s).returnIfBare

theorem State.Fine.cleanLine (h : s.Fine) (i : Fin 8) : (s.cleanLine i).Fine := by
  refine ⟨h.ok.cleanLine i, ?_⟩
  unfold State.cleanLine
  split
  next b hb =>
    split_ifs with hd
    · have hf := h.sound.fits hb
      have h1 := h.enqueue (q := ⟨b.slot, b.contents⟩) (hf.dirty hd) (hf.sound (hf.dirty hd))
        fun k x hx hxd he => by
          have := h.ok.store.lines k i x b hx hb he
          subst this
          rw [hb] at hx
          cases hx
          rw [hd] at hxd
          cases hxd
      refine h1.sound.setLines i rfl rfl fun x hx => ?_
      cases hx
      refine Cached.fits_clean hf.sound fun _ => ?_
      have hq : (s.enqueue ⟨b.slot, b.contents⟩).queued b.slot = some b.contents := by
        unfold State.queued State.enqueue
        rw [State.withStore_store, queued_append, if_pos rfl]
        rfl
      unfold State.newestIs
      rw [hq]
      rfl
    · exact h.sound
  · exact h.sound

theorem State.fine_foldl {α : Type} {f : State → α → State} (l : List α)
    (hf : ∀ s, ∀ x ∈ l, s.Fine → (f s x).Fine) (h : s.Fine) : (l.foldl f s).Fine := by
  induction l generalizing s with
  | nil => exact h
  | cons x l ih =>
    exact ih (fun s y hy => hf s y (List.mem_cons_of_mem _ hy)) (hf s x (List.mem_cons_self ..) h)

theorem State.fine_foldl_fst {α β : Type} {f : State × β → α → State × β} (l : List α)
    (hf : ∀ x, ∀ y ∈ l, x.1.Fine → (f x y).1.Fine) {x : State × β} (h : x.1.Fine) : (l.foldl f x).1.Fine := by
  induction l generalizing x with
  | nil => exact h
  | cons y l ih =>
    exact ih (fun x y hy => hf x y (List.mem_cons_of_mem _ hy)) (hf x y (List.mem_cons_self ..) h)

theorem State.fine_foldl_snd {α β : Type} {f : β × State → α → β × State} (l : List α)
    (hf : ∀ x, ∀ y ∈ l, x.2.Fine → (f x y).2.Fine) {x : β × State} (h : x.2.Fine) : (l.foldl f x).2.Fine := by
  induction l generalizing x with
  | nil => exact h
  | cons y l ih =>
    exact ih (fun x y hy => hf x y (List.mem_cons_of_mem _ hy)) (hf x y (List.mem_cons_self ..) h)

theorem State.Fine.cleanLines (h : s.Fine) : s.cleanLines.Fine :=
  State.fine_foldl _ (fun _ i _ h => h.cleanLine i) h

theorem State.Fine.writeBack (h : s.Fine) : s.writeBack.Fine := h.cleanLines.drain _

end Sys2Proof.Machine
end

