-- ==== Sys2Proof/Laws/SoundSteps.lean ====
section
/-! SUPPORT. The meanings of the commands, and so every step but a loss of the supply that damages memory, keep
every copy of a record sound (`State.Sound`). -/

namespace Sys2Proof.Machine

variable {s t : State}

theorem State.sound_ite {c : Prop} [Decidable c] {x y : State} (hx : x.Sound) (hy : y.Sound) :
    (if c then x else y).Sound := by split_ifs <;> assumption

/-! ### Blocks that hold no record -/

theorem State.Sound.withCommand (h : s.Sound) (x : Command) : (s.withCommand x).Sound :=
  ⟨h.lines, h.dirty, h.queue, h.stored, h.clean⟩
theorem State.Sound.withEvents (h : s.Sound) (x : Events) : (s.withEvents x).Sound :=
  ⟨h.lines, h.dirty, h.queue, h.stored, h.clean⟩
theorem State.Sound.withPorts (h : s.Sound) (x : Vector Port 4) : (s.withPorts x).Sound :=
  ⟨h.lines, h.dirty, h.queue, h.stored, h.clean⟩
theorem State.Sound.withMatching (h : s.Sound) (x : Matching) : (s.withMatching x).Sound :=
  ⟨h.lines, h.dirty, h.queue, h.stored, h.clean⟩
theorem State.Sound.withTamper (h : s.Sound) (x : Tamper) : (s.withTamper x).Sound :=
  ⟨h.lines, h.dirty, h.queue, h.stored, h.clean⟩
theorem State.Sound.withSegments (h : s.Sound) (x : Segments) : (s.withSegments x).Sound :=
  ⟨h.lines, h.dirty, h.queue, h.stored, h.clean⟩
theorem State.Sound.withRoute (h : s.Sound) (x : Route) : (s.withRoute x).Sound :=
  ⟨h.lines, h.dirty, h.queue, h.stored, h.clean⟩
theorem State.Sound.withAssessment (h : s.Sound) (x : Option Assessment) : (s.withAssessment x).Sound :=
  ⟨h.lines, h.dirty, h.queue, h.stored, h.clean⟩
theorem State.Sound.withDepot (h : s.Sound) (x : Depot) : (s.withDepot x).Sound :=
  ⟨h.lines, h.dirty, h.queue, h.stored, h.clean⟩
theorem State.Sound.withDraws (h : s.Sound) (x : Nat) : (s.withDraws x).Sound :=
  ⟨h.lines, h.dirty, h.queue, h.stored, h.clean⟩
theorem State.Sound.withPower (h : s.Sound) (x : Power) : (s.withPower x).Sound :=
  ⟨h.lines, h.dirty, h.queue, h.stored, h.clean⟩
theorem State.Sound.withPending (h : s.Sound) (x : List Instr) : (s.withPending x).Sound :=
  ⟨h.lines, h.dirty, h.queue, h.stored, h.clean⟩

theorem State.Sound.raise (h : s.Sound) (e : Event) : (s.raise e).Sound := h.withEvents _

/-! ### What the commands make of a record -/

/-- Soundness depends on the status and on the presence of the two readings. -/
theorem Record.Sound.same {r r' : Record} (h : r.Sound) (h1 : r'.status = r.status)
    (h2 : r'.candidate.isSome = r.candidate.isSome) (h3 : r'.current.isSome = r.current.isSome) : r'.Sound :=
  ⟨by rw [h1, h2]; exact h.candidate, by rw [h1, h3]; exact h.current⟩

/-- A record in no hold has no candidate. -/
theorem Record.Sound.apart {r : Record} (h : r.Sound) (hs : r.status ≠ .held) : r.candidate = none := by
  cases hc : r.candidate with
  | none => rfl
  | some c => exact absurd (h.candidate.1 (by rw [hc]; rfl)) hs

/-- A record in no hold, with a current reading, is sound as READ or FLAGGED. -/
theorem Record.sound_read {r : Record} (h1 : r.status = .read ∨ r.status = .flagged) (h2 : r.candidate = none)
    (h3 : r.current.isSome = true) : r.Sound :=
  ⟨by rw [h2]; rcases h1 with h | h <;> rw [h] <;> simp, fun _ => h3⟩

/-- A record with no candidate is sound as PENDING or MISSED. -/
theorem Record.sound_open {r : Record} (h1 : r.status = .pending ∨ r.status = .missed)
    (h2 : r.candidate = none) : r.Sound :=
  ⟨by rw [h2]; rcases h1 with h | h <;> rw [h] <;> simp, by rcases h1 with h | h <;> rw [h] <;> simp⟩

/-- A record with a candidate is sound as HELD. -/
theorem Record.sound_held {r : Record} (h1 : r.status = .held) (h2 : r.candidate.isSome = true) : r.Sound :=
  ⟨by rw [h1, h2]; simp, by rw [h1]; simp⟩

/-- A HELD record committed. -/
theorem Record.Sound.commit {r : Record} (h : r.Sound) (hs : r.status = .held) :
    r.commit.candidate = none ∧ r.commit.current.isSome = true := by
  have hc := h.candidate.2 hs
  unfold Record.commit
  cases e : r.candidate with
  | none => rw [e] at hc; cases hc
  | some c => exact ⟨rfl, rfl⟩

theorem Record.Sound.flagUnconfirmed {r : Record} (h : r.Sound) (hs : r.status = .held) (time : Word) :
    (r.flagUnconfirmed time).Sound := by
  have hc := h.commit hs
  exact Record.sound_read (.inr rfl) hc.1 hc.2

theorem Record.sound_fresh (p : LoadParams) (kind : Kind) (segment : Option Seg) {status : LiveStatus}
    (hs : status = .pending ∨ status = .missed) : (Record.fresh p kind segment status).Sound :=
  Record.sound_open hs rfl

theorem Record.Sound.missed {r : Record} (h : r.Sound) (hs : r.status = .pending) :
    Record.Sound { r with status := .missed } :=
  Record.sound_open (.inr rfl) (h.apart (by rw [hs]; simp))

theorem Record.Sound.confirm {r : Record} (h : r.Sound) (hs : r.status = .held) (f : Frame) :
    (r.confirm f).Sound := by
  have hc := h.commit hs
  exact Record.sound_read (.inr rfl) hc.1 hc.2

theorem Record.Sound.firstReading {r : Record} (h : r.Sound) (hs : r.status = .pending ∨ r.status = .missed)
    (x : Header) (y : Assessment) (f : Frame) : (r.firstReading x y f).Sound := by
  have hc := h.apart (by rcases hs with h | h <;> rw [h] <;> simp)
  unfold Record.firstReading
  dsimp only
  split_ifs
  · exact Record.sound_read (.inr rfl) hc rfl
  · exact Record.sound_held rfl rfl
  · exact Record.sound_read (.inl rfl) hc rfl

theorem Record.Sound.laterFrame {r : Record} (h : r.Sound) (x : Header) (f : Frame) :
    (r.laterFrame x f).Sound := by
  unfold Record.laterFrame
  split
  next c hc =>
    split_ifs
    · exact h.same rfl rfl (by rw [hc]; rfl)
    · exact h.same rfl rfl rfl
  · exact h

theorem Record.Sound.heldFrame {r : Record} (h : r.Sound) (hs : r.status = .held) (x : Header) (f : Frame) :
    (r.heldFrame x f).Sound := by
  unfold Record.heldFrame
  split
  next c hc =>
    split_ifs
    · exact h.confirm hs f
    · exact h
    all_goals exact h.same rfl (by rw [hc] <;> rfl) rfl
  · exact h

theorem Record.Sound.threshold {r : Record} (h : r.Sound) (x : Header) (before : Evidence) (f : Frame) :
    (r.threshold x before f).Sound := by
  unfold Record.threshold
  dsimp only
  generalize (if r.evidence = before then r.score else x.score r.evidence) = score
  split
  · exact h.same rfl rfl rfl
  · exact h.same rfl rfl rfl
  next hs =>
    have hc := h.current (.inl hs)
    have ha := h.apart (by rw [hs]; simp)
    split_ifs
    · exact Record.sound_read (.inr rfl) ha hc
    · exact Record.sound_held rfl (by rw [Option.isSome_map]; exact hc)
    · exact h.same rfl rfl rfl
  next hs =>
    split_ifs
    · exact Record.Sound.confirm (r := { r with score := score }) (h.same rfl rfl rfl) hs f
    · exact h.same rfl rfl rfl
  · split_ifs <;> exact h.same rfl rfl rfl

theorem Record.Sound.matchFrame {r : Record} (h : r.Sound) (x : Header) (y : Assessment)
    (e : Option MatchEntry) (f : Frame) : (r.matchFrame x y e f).record.Sound := by
  have h1 : (r.preCheck f).Sound := h.same rfl rfl rfl
  unfold Record.matchFrame
  dsimp only
  split
  · exact h.same rfl rfl rfl
  · split
    · exact h1.threshold _ _ _
    · split
      next hs => exact (h1.firstReading (.inl hs) _ _ _).threshold _ _ _
      next hs => exact (h1.firstReading (.inr hs) _ _ _).threshold _ _ _
      · split
        · exact h1.threshold _ _ _
        · exact (h1.laterFrame _ _).threshold _ _ _
      · split
        · exact h1.threshold _ _ _
        · exact (h1.laterFrame _ _).threshold _ _ _
      next hs => exact (h1.heldFrame hs _ _).threshold _ _ _

theorem Record.Sound.afterAction {r : Record} (h : r.Sound) (a : AmendAction) : (r.afterAction a).Sound := by
  unfold Record.afterAction
  split
  · unfold Record.clearEvidence
    dsimp only
    split
    next hs =>
      have hc := Record.Sound.commit (r := { r with evidence := Evidence.empty, score := 0 })
        (h.same rfl rfl rfl) hs
      exact Record.sound_read (.inl rfl) hc.1 hc.2
    next hs => exact Record.sound_read (.inl rfl) (h.apart (by rw [hs]; simp)) (h.current (.inr hs))
    · exact h.same rfl rfl rfl
  · exact Record.sound_open (.inl rfl) rfl
  · exact h

/-! ### Frames -/

theorem State.Fine.withDraws (h : s.Fine) (n : Nat) : (s.withDraws n).Fine := h.apart (h.ok.withDraws _) rfl rfl

theorem State.Fine.freeIntervals (h : s.Fine) (slot : Nat) : (s.freeIntervals slot).Fine :=
  h.still (h.ok.freeIntervals slot) (((Still.refl s).freeChain _).setChain _ _)

theorem State.Fine.chainBlock (h : s.Fine) (slot : Nat) {b : Nat} (hb : s.lowestFreeBlock = some b) :
    (s.chainBlock slot b).Fine :=
  h.still (h.ok.chainBlock slot hb) (((Still.refl s).useBlock b).setChain _ _)

theorem State.Fine.writeIntervals (h : s.Fine) (u : Holder) (bs : List Nat) (values : List Half) :
    (State.writeIntervals u bs values s).Fine := by
  induction bs generalizing s values with
  | nil => exact h
  | cons b bs ih => exact ih (h.writeBlock _ _ _) _

theorem State.Fine.storeIntervals (h : s.Fine) (u : Holder) {slot : Nat} (hs : slot < 8192)
    (values : List Half) {r : Record} (hr : r.Sound) : (s.storeIntervals u slot values r).Fine := by
  have h2 := h.writeIntervals u (((s.chain slot).filter fun b => b.2 == .interval).map (·.1)) values
  have h3 : ∀ x : State, x.Fine → ∀ c : Prop, ∀ [Decidable c], (if c then x.raise .poolEmpty else x).Fine :=
    fun x hx c _ => State.fine_ite (hx.still (hx.ok.raise _) ((Still.refl x).raise _)) hx
  unfold State.storeIntervals
  dsimp only
  refine h3 _ (State.Fine.putRecord ?_ hs (hr.chained _ _)) _
  split
  · exact h2
  · exact h2.relink _ _ _

theorem Still.reportFrame {a : State} (h : Still a s) (slot : Nat) (old new : Record) :
    Still a (s.reportFrame slot old new) :=
  Still.ite (Still.ite (h.flaggedReport _ _) (Still.ite (h.risenReport _ _) h)) h

theorem State.Fine.withMatching (h : s.Fine) {x : Matching} (hx : MatchingOk x) : (s.withMatching x).Fine :=
  h.still (h.ok.withMatching hx) ((Still.refl s).withMatching x)

theorem State.Fine.sameBuffer (h : s.Fine) {x : Matching} (hx : x.buffer = s.matching.buffer) :
    (s.withMatching x).Fine := h.still (h.ok.sameBuffer hx) ((Still.refl s).withMatching x)

theorem State.Fine.endFrame (h : s.Fine) (f : Frame) (slot : Nat) (applied duplicate : Bool) :
    (s.endFrame f slot applied duplicate).Fine :=
  ((State.fine_ite (h.still (h.ok.noteReading slot f) ((Still.refl _).withMatching _)) h).letGo slot).sameBuffer rfl

theorem State.Fine.replaceOn (h : s.Fine) (met : Bool) (f : Frame) {slot : Nat} (hs : slot < 8192) {r : Record}
    (hr : r.Sound) (n : Nat) : (State.replaceOn met f slot r n s).Fine :=
  State.replaceOn_keeps (fun _ _ h => h.withDraws _) (fun _ h => h.sameBuffer rfl)
    (fun _ _ hb h => h.chainBlock slot hb) (fun _ h => (h.storeIntervals _ hs _ hr).endFrame _ _ _ _) h met n

theorem State.Fine.applyFrame (h : s.Fine) (met : Bool) (f : Frame) {slot : Nat} (hs : slot < 8192) {r : Record}
    (hr : r.Sound) : (s.applyFrame met f slot r).Fine := by
  unfold State.applyFrame
  dsimp only
  have hm := hr.matchFrame s.params (s.assessment.getD Assessment.blank) (s.matchEntry f.serial) f
  generalize r.matchFrame s.params (s.assessment.getD Assessment.blank) (s.matchEntry f.serial) f = m at hm ⊢
  have h0 := h.putRecord hs hm
  have h1 := h0.still (h0.ok.reportFrame slot r m.record) ((Still.refl _).reportFrame slot r m.record)
  exact State.fine_ite ((h1.freeIntervals slot).replaceOn _ _ hs hm _) (h1.endFrame _ _ _ _)

theorem State.carries_lt (h : s.Ok) {slot : Nat} {serial : Word} (hc : s.carries slot serial = true) :
    slot < 8192 := by
  unfold State.carries at hc
  rw [Bool.and_eq_true] at hc
  obtain ⟨d, hd⟩ := Option.isSome_iff_exists.1 hc.1
  exact h.directory.inArea_of_get hd

theorem State.Fine.countFaultHit (h : s.Fine) (slot : Nat) : (s.countFaultHit slot).Fine :=
  State.Fine.sameBuffer (State.Fine.letGo (h.still (h.ok.forget slot) ((Still.refl s).forget slot)) slot) rfl

theorem State.Fine.workFrame (h : s.Fine) (met : Bool) (f : Frame) {slot : Nat} (hs : slot < 8192) :
    (s.workFrame met f slot).Fine := by
  unfold State.workFrame
  split
  next r hr => exact h.applyFrame met f hs (h.sound.cached hs r hr)
  · exact h.countFaultHit _

theorem State.Fine.resolveByIndex (h : s.Fine) (serial : Word) : (s.resolveByIndex serial).2.Fine := by
  have hok := h.ok.resolveByIndex serial
  have hg := h.grants .matching (s.mem.lookupAccesses serial)
  unfold State.resolveByIndex at hok ⊢
  dsimp only at hok ⊢
  split at hok
  · exact hg.still hok ((Still.refl _).withMatching _)
  · exact hg

theorem State.Fine.countStranger (h : s.Fine) : s.countStranger.Fine := h.sameBuffer rfl

theorem State.Fine.goOnReplacing (h : s.Fine) (met : Bool) (f : Frame) (slot : Nat) :
    (s.goOnReplacing met f slot).Fine := by
  unfold State.goOnReplacing
  dsimp only
  split
  next r hc hr =>
    have hs := State.carries_lt h.ok hc
    exact h.replaceOn _ _ hs (h.sound.cached hs r hr) _
  · exact h.endFrame _ _ _ _

theorem State.Fine.matchOn (h : s.Fine) (met : Bool) : (s.matchOn met).Fine := by
  unfold State.matchOn
  split
  · exact h
  · exact h.goOnReplacing _ _ _
  next f slot _ =>
    have h1 := h.takeLine .matching slot
    dsimp only
    split
    next hc => exact h1.workFrame met f (State.carries_lt h1.ok hc)
    · have h2 := (h1.letGo slot).resolveByIndex f.serial
      split
      next hr => rw [hr] at h2; exact State.Fine.countStranger h2
      next again s2 hr =>
        rw [hr] at h2
        have h3 := State.Fine.takeLine h2 .matching again
        split
        next hc => exact h3.workFrame met f (State.carries_lt h3.ok hc)
        · exact (h3.letGo _).countStranger

theorem State.Fine.finishFrame (h : s.Fine) : s.finishFrame.Fine := h.matchOn false

theorem State.Fine.goOnFrame (h : s.Fine) : s.goOnFrame.Fine := by
  unfold State.goOnFrame
  split
  · exact h.goOnReplacing _ _ _
  · exact h

theorem State.Fine.passGate (h : s.Fine) (f : Frame) : (s.passGate f).Fine := by
  have h1 : (s.resolve f.serial).2.Fine := by
    unfold State.resolve
    split
    · exact h.still (h.ok.keepEntry _) ((Still.refl s).withMatching _)
    · exact h.resolveByIndex _
  unfold State.passGate
  split
  next hr => rw [hr] at h1; exact State.Fine.sameBuffer h1 rfl
  next hr => rw [hr] at h1; exact State.Fine.countStranger h1

theorem State.Fine.takeFrame (h : s.Fine) : s.takeFrame.Fine := by
  unfold State.takeFrame
  split
  · exact h
  next p _ =>
    split
    · exact h
    next f rest hb =>
      have h1 : (s.takeHead p rest).Fine :=
        h.still (h.ok.takeHead hb) (((Still.refl s).withPorts _).withMatching _)
      exact State.fine_ite (h1.passGate f) (h1.sameBuffer rfl)

/-! ### Walks -/

theorem State.Fine.settleSlot (u : Holder) {slot : Nat} (hs : slot < 8192) {x : State × WalkCounts}
    (h : x.1.Fine) : (State.settleSlot u slot x).1.Fine := by
  have h1 := h.takeLine u slot
  unfold State.settleSlot
  dsimp only
  split
  · exact h1.letGo _
  · split
    next r hr =>
      have hr := h1.sound.cached hs r hr
      split
      next hp => exact (h1.putRecord hs (hr.missed hp)).letGo _
      next hp =>
        have h2 := h1.putRecord hs (hr.flagUnconfirmed hp (x.1.takeLine u slot).1.route.clock)
        exact (h2.still (h2.ok.flaggedReport _ _) ((Still.refl _).flaggedReport _ _)).letGo _
      · exact h1.letGo _
    · exact h1.letGo _

theorem State.Fine.engineStep (h : s.Fine) : s.engineStep.Fine := State.fine_ite h.finishFrame h.takeFrame

/-! ### The upload engine, and both engines beside a walk -/

theorem State.Fine.surveySlot (cursor : Option Key) {x : List Surveyed × State} (h : x.2.Fine) (slot : Nat) :
    (State.surveySlot cursor x slot).2.Fine := (h.takeLine .upload slot).letGo slot

/-- A slot that the directory has occupied is a slot there is. -/
theorem State.Ok.occupied_lt (h : s.Ok) {slot : Nat} (hd : ¬(s.directory.get slot).isNone = true) :
    slot < 8192 := by
  rw [Option.isNone_iff_eq_none] at hd
  obtain ⟨d, hd⟩ := Option.ne_none_iff_exists'.1 hd
  exact h.directory.inArea_of_get hd

theorem State.Fine.markOne {x : List (List Byte) × State} (h : x.2.Fine) (he : x.2.depot.engine ≠ .idle)
    (hf : x.2.depot.forming = none) (hn : x.2.depot.outstanding.length < 16) (k : Surveyed) :
    (State.markOne x k).2.Fine := by
  refine ⟨h.ok.markOne he hf hn k, ?_⟩
  have ht := h.takeLine .upload k.key.slot
  have hg := ht.letGo k.key.slot
  unfold State.markOne
  dsimp only
  split
  · exact hg.sound
  next hc =>
    rw [not_or] at hc
    have hs := ht.ok.occupied_lt hc.2
    split
    next r hr =>
      have hr := ht.sound.cached hs r hr
      split
      · unfold State.markAndPack
        dsimp only
        have hr' : Record.Sound
            { r with batch := some (x.2.takeLine .upload k.key.slot).1.depot.batchNumber } :=
          hr.same rfl rfl rfl
        have h1 := ht.putRecord hs hr'
        have hd := (((Quiet.refl x.2).takeLine .upload k.key.slot).putRecord k.key.slot
          { r with batch := some (x.2.takeLine .upload k.key.slot).1.depot.batchNumber }).depot
        refine ((State.Fine.readExtension (⟨h1.ok.withDepot (h1.ok.depot.withBatch ?_ ?_ ?_),
          h1.sound.withDepot _⟩ : State.Fine _) .upload hs hr').letGo _).sound
        · rw [hd]; exact he
        · rw [hd]; exact hf
        · rw [hd, List.length_append, List.length_singleton]; omega
      · exact hg.sound
    · exact hg.sound

theorem State.Fine.finishUpload (h : s.Fine) : s.finishUpload.Sound :=
  ((h.sound.withDepot _).raise _).still (s := (s.withDepot { s.depot with engine := .idle }).raise .uploadDone)
    h.ok.mem (Still.refl _).returnIfBare

theorem State.Midway.formRead_sound {w : Forming} (h : s.Midway w) (hs : s.Sound) : (s.formRead w).2.Sound := by
  have hf : s.Fine := ⟨h.ok, hs⟩
  have hw := h.held
  unfold State.formRead
  split
  next again _ _ kept =>
    split
    next e _ =>
      exact (State.Fine.surveySlot (if again = true then none else s.depot.cursor) (x := (kept, s)) hf e.1).sound
    · unfold State.endClass
      dsimp only
      split
      · exact hs
      · split
        · split
          · exact hf.finishUpload
          · exact hs
        · exact hs
  next last k todo packed =>
    obtain ⟨-, he, -, hn⟩ := hw
    have hn : s.depot.outstanding.length + (todo.length + 1) ≤ 16 := hn
    exact (State.Fine.markOne (x := (packed, s)) hf he h.forming
      (by show s.depot.outstanding.length < 16; omega) k).sound
  · exact State.sound_ite (hs.withDepot _) ((hs.withDepot _).withDepot _)

theorem State.Fine.uploadStep (h : s.Fine) : s.uploadStep.Fine := by
  refine ⟨h.ok.uploadStep, ?_⟩
  cases e : s.uploadWork with
  | none => unfold State.uploadStep; rw [e]; exact h.sound
  | some w =>
    obtain ⟨hm, rfl⟩ := State.uploadWork_some e
    unfold State.uploadStep State.uploadRead
    rw [e]
    dsimp only
    have h1 := (h.ok.midway hm).formRead_sound (h.sound.withDepot _)
    split
    next hr => rw [hr] at h1; exact State.Sound.withDepot h1 _
    · exact h.sound

/-- The engines' work beside a walk. -/
theorem State.Fine.kept : KeptBeside State.Fine where
  draws _ _ h := h.withDraws _
  engine _ h := h.engineStep
  upload _ h := h.uploadStep

theorem State.Fine.beside (h : s.Fine) : s.beside.Fine := State.Fine.kept.beside h

theorem State.Fine.visitBeside {α : Type} (slot : Nat) {visit : State × α → State × α} {x : State × α}
    (hv : ∀ x, x.1.Fine → (visit x).1.Fine) (h : x.1.Fine) : (State.visitBeside slot visit x).1.Fine :=
  State.Fine.kept.visitBeside hv h

/-! ### Leave walks -/

theorem State.Fine.withSegments (h : s.Fine) {x : Segments} (hx : SegmentsOk x) : (s.withSegments x).Fine :=
  h.still (h.ok.withSegments hx) ((Still.refl s).withSegments x)

/-- The slots of the occupied entries are slots there are. -/
theorem DirectoryOk.slots_lt {d : Directory} (h : DirectoryOk d) (p : Nat × DirEntry → Bool) :
    ∀ n ∈ (d.filter p).map (·.1), n < 8192 := fun n hn => by
  obtain ⟨e, he, rfl⟩ := List.mem_map.1 hn
  exact h.inArea _ (List.mem_map_of_mem (List.mem_of_mem_filter he))

theorem State.Fine.settleSlots (u : Holder) (slots : List Nat) (hs : ∀ n ∈ slots, n < 8192)
    {x : State × WalkCounts} (h : x.1.Fine) : (slots.foldl (fun x slot => State.settleSlot u slot x) x).1.Fine := by
  induction slots generalizing x with
  | nil => exact h
  | cons slot slots ih =>
    exact ih (fun n hn => hs n (List.mem_cons_of_mem _ hn)) (State.Fine.settleSlot u (hs slot (List.mem_cons_self ..)) h)

theorem State.Fine.leaveWalk (h : s.Fine) (u : Holder) (n : Seg) : (s.leaveWalk u n).1.Fine := by
  have h2 := State.Fine.settleSlots u (s.slotsOf n) (h.ok.directory.slots_lt _)
    (x := (s.withSegments { s.segments with leaving := some n }, WalkCounts.none))
    (h.withSegments ⟨h.ok.segments.redrives, h.ok.segments.plan⟩)
  exact State.Fine.withSegments h2 ⟨h2.ok.segments.redrives, h2.ok.segments.plan⟩

theorem Still.settleLeft {a : State} (h : Still a s) (n : Seg) : Still a (s.settleLeft n) :=
  ((Still.ite (((h.putSegment _ _).putPlan _).raise _)
    (Still.ite ((h.putSegment _ _).putPlan _) ((h.putSegment _ _).putPlan _))).putActive _).setDwell _

theorem State.Fine.leave (h : s.Fine) (u : Holder) (n : Seg) : (s.leave u n).1.Fine :=
  (h.leaveWalk u n).still (h.ok.leave u n) ((Still.refl _).settleLeft n)

/-! ### Records -/

theorem State.Fine.lookupFor (h : s.Fine) (serial : Word) : (s.lookupFor serial).2.Fine := h.grants .command _

/-- What a command finds: a fine state, and a sound record in a slot there is. -/
theorem State.Fine.find (h : s.Fine) (serial : Word) : (s.find serial).2.Fine ∧
    ∀ slot r, (s.find serial).1 = .record slot r → slot < 8192 ∧ r.Sound := by
  have hl := h.lookupFor serial
  unfold State.find
  split
  next s1 he => rw [he] at hl; exact ⟨hl, fun _ _ e => nomatch e⟩
  next slot s1 he =>
    rw [he] at hl
    have ht := State.Fine.takeLine hl .command slot
    dsimp only
    split
    · exact ⟨ht, fun _ _ e => nomatch e⟩
    · split
      · exact ⟨ht.letGo _, fun _ _ e => nomatch e⟩
      next hd =>
        split
        · exact ⟨ht.letGo _, fun _ _ e => nomatch e⟩
        · split
          · exact ⟨ht, fun _ _ e => nomatch e⟩
          · exact ⟨ht.letGo _, fun _ _ e => nomatch e⟩
        next r hr =>
          split
          · refine ⟨ht, fun k x e => ?_⟩
            cases e
            have hs : slot < 8192 := by
              rw [Option.isNone_iff_eq_none] at hd
              obtain ⟨d, hd⟩ := Option.ne_none_iff_exists'.1 hd
              exact ht.ok.directory.inArea_of_get hd
            exact ⟨hs, ht.sound.cached hs r hr⟩
          · exact ⟨ht.letGo _, fun _ _ e => nomatch e⟩

end Sys2Proof.Machine
end

