-- ==== Sys2Proof/Laws/SoundCommands.lean ====
section
/-! SUPPORT. The meanings of the commands, but for a loss of the supply that damages memory, keep every copy of a
record sound (`State.Sound`). -/

namespace Sys2Proof.Machine

variable {s t : State}

/-- An outcome's next state, if it has one, has every copy of a record sound. -/
def resultSound (r : Result) : Prop := ∀ t, r = .next t → t.Sound

theorem resultSound_next (h : t.Sound) : resultSound (.next t) := by
  intro u hu; cases hu; exact h

theorem resultSound_ite {c : Prop} [Decidable c] {x y : Result} (hx : resultSound x) (hy : resultSound y) :
    resultSound (if c then x else y) := by split_ifs <;> assumption

/-! ### Answers -/

theorem State.Sound.written (h : s.Sound) : s.written.Sound := h.withCommand _
theorem State.Sound.respond (h : s.Sound) (x : Answer) (data : List Byte) : (s.respond x data).Sound :=
  h.withCommand _
theorem State.Sound.reply (h : s.Sound) (x : Answer) (data : List Byte) : (s.reply x data).Sound :=
  h.written.respond x data
theorem State.Sound.refuse (h : s.Sound) (x : Answer) : (s.refuse x).Sound := h.reply x []
theorem State.Sound.executing (h : s.Sound) (x : Held) : (s.executing x).Sound := h.withCommand _
theorem State.Sound.collide (h : s.Sound) : s.collide.Sound := (h.withCommand _).raise _

theorem State.Sound.serve (h : s.Sound) (during : Bool) {work : State → State} (hw : (work s).Sound) :
    (s.serve during work).Sound :=
  State.sound_ite h.written (State.sound_ite h.collide (State.sound_ite (h.refuse _) hw))

/-! ### Records -/

theorem State.Fine.refuseHolding (h : s.Fine) (slot : Nat) (x : Answer) : (s.refuseHolding slot x).Sound :=
  (h.letGo slot).sound.refuse x

theorem State.Fine.load (h : s.Fine) (p : LoadParams) (kind : Kind) (hf : s.directory.freeSlots ≠ 0) :
    (s.load p kind).Sound := by
  have hs := Directory.lowestFree_lt hf
  have h1 := h.takeLineFresh .command hs (Contents.sound_live
    (Record.sound_fresh p kind (s.assignSegment p.sequence) (.inl rfl)))
  have h2 := State.Fine.grants (h1.still (h1.ok.withMem (Memory.wf_insertSerial h1.ok.mem p.serial
    s.directory.lowestFree)) ((Still.refl _).withMem fun _ hm => hm.insertSerial p.serial
      s.directory.lowestFree)) .command ((s.takeLineFresh .command s.directory.lowestFree (.live
        (Record.fresh p kind (s.assignSegment p.sequence) .pending))).mem.insertAccesses p.serial)
  have k2 := h2.ok
  have k3 := (k2.withDirectory (k2.directory.set hs
    (x := ⟨.live .pending, s.assignSegment p.sequence, [], false⟩) (by simp))).report none
      (some ⟨s.assignSegment p.sequence, .live .pending⟩)
  have h3 := h2.still k3 (((Still.refl _).withDirectory _).report _ _)
  exact (h3.letGo _).sound.reply _ _

theorem execRecordLoad_sound (h : s.Fine) (p : LoadParams) : resultSound (execRecordLoad p s) := by
  refine resultSound_next (h.sound.serve _ (State.sound_ite (h.sound.refuse _) ?_))
  split
  · exact h.sound.refuse _
  · have hl := h.lookupFor p.serial
    dsimp only
    split_ifs with h1 h2 h3
    · exact h.sound.refuse _
    · exact hl.sound.refuse _
    · exact hl.sound.refuse _
    · exact hl.load _ _ h3

theorem execRecordLookup_sound (h : s.Fine) (serial : Word) (wanted : Byte) :
    resultSound (execRecordLookup serial wanted s) := by
  refine resultSound_next (h.sound.serve _ (State.sound_ite (h.sound.refuse _) ?_))
  obtain ⟨hf, hr⟩ := h.find serial
  split
  next he => rw [he] at hf; exact hf.sound.refuse _
  next he => rw [he] at hf; exact State.Fine.refuseHolding hf _ _
  next he => rw [he] at hf; exact (State.Fine.letGo hf _).sound.reply _ _
  next slot r s1 he =>
    rw [he] at hf hr
    obtain ⟨hs, hr⟩ := hr slot r rfl
    exact State.sound_ite ((State.Fine.readExtension hf .command hs hr).letGo _ |>.sound.reply _ _)
      ((State.Fine.letGo hf _).sound.reply _ _)

theorem State.Fine.forget (h : s.Fine) (slot : Nat) : (s.forget slot).Fine :=
  h.still (h.ok.forget slot) ((Still.refl s).forget slot)

theorem State.Fine.removedReport (h : s.Fine) (slot : Nat) : (s.removedReport slot).Fine :=
  h.still (h.ok.removedReport slot) ((Still.refl s).removedReport slot)

theorem State.Fine.answerAmend (h : s.Fine) (slot : Nat) (r : Record) : (s.answerAmend slot r).Sound :=
  (h.letGo slot).sound.reply _ _

theorem State.Fine.amend (h : s.Fine) {slot : Nat} (hs : slot < 8192) (p : AmendParams) (r : Record)
    {after : Record} (ha : after.Sound) : (s.amend slot p r after).Sound := by
  have hr : Record.Sound (match p.sequence.given with
      | some _ => { after.withChanges p with segment := s.assignSegment (after.withChanges p).sequence }
      | none => after.withChanges p) := by
    split <;> exact ha.same rfl rfl rfl
  have h1 := (h.putRecord hs hr).forget slot
  unfold State.amend
  dsimp only
  exact State.Fine.answerAmend (State.fine_ite (h1.removedReport _) h1) _ _

theorem State.Fine.rewrite (h : s.Fine) {slot : Nat} (hs : slot < 8192) (p : LoadParams) (kind : Kind) :
    (s.rewrite slot p kind).Sound := by
  unfold State.rewrite
  dsimp only
  have hr := Record.sound_fresh p kind (s.assignSegment p.sequence)
    (status := if s.route.state = .closed then LiveStatus.missed else .pending) (by split_ifs <;> simp)
  have h1 := h.takeLineFresh .command hs (Contents.sound_live hr)
  have h2 := h1.still (h1.ok.setChain slot (chain := []) (by simp)) ((Still.refl _).setChain slot [])
  exact (((State.Fine.fileRecord h2 slot _).forget slot)).answerAmend _ _

theorem State.Fine.fullRewrite (h : s.Fine) (p : AmendParams) : (s.fullRewrite p).Sound := by
  have h1 := h.lookupFor p.serial
  unfold State.fullRewrite
  split
  next he => rw [he] at h1; exact h1.sound.refuse _
  next slot s1 he =>
    rw [he] at h1
    split
    · exact h1.sound.refuse _
    next d hd =>
      have hs : slot < 8192 := h1.ok.directory.inArea_of_get hd
      refine State.sound_ite (h1.sound.refuse _) (State.sound_ite (h1.sound.refuse _) ?_)
      split
      · exact State.sound_ite (State.Fine.rewrite h1 hs _ _) (h1.sound.refuse _)
      · exact h1.sound.refuse _

theorem State.Fine.amendFound (h : s.Fine) (p : AmendParams) {found : Found}
    (hf : ∀ slot r, found = .record slot r → slot < 8192 ∧ r.Sound) : (s.amendFound p found).Sound := by
  unfold State.amendFound
  dsimp only
  split
  · exact h.sound.refuse _
  · exact h.refuseHolding _ _
  · exact h.refuseHolding _ _
  next slot r =>
    obtain ⟨hs, hr⟩ := hf slot r rfl
    refine State.sound_ite (h.refuseHolding _ _) (State.sound_ite (h.refuseHolding _ _) ?_)
    split
    · exact h.refuseHolding _ _
    · exact State.sound_ite (h.refuseHolding _ _) (State.sound_ite (h.refuseHolding _ _)
        (h.amend hs _ _ (hr.afterAction _)))

theorem execRecordAmend_sound (h : s.Fine) (p : AmendParams) : resultSound (execRecordAmend p s) :=
  resultSound_next (h.sound.serve _ (State.sound_ite (h.fullRewrite _)
    ((h.find p.serial).1.amendFound p (h.find p.serial).2)))

theorem State.Fine.answerNote (h : s.Fine) (slot : Nat) : (s.answerNote slot).Sound :=
  (h.letGo slot).sound.reply _ _

theorem State.Fine.setChain (h : s.Fine) (slot : Nat) {chain : List (Nat × BlockKind)}
    (hc : ∀ b ∈ chain, b.1 < 4096) : (s.setChain slot chain).Fine :=
  h.still (h.ok.setChain slot hc) ((Still.refl s).setChain slot chain)

theorem State.Fine.useBlock (h : s.Fine) {n : Nat} (hn : n < 4096) : (s.useBlock n).Fine :=
  h.still (h.ok.useBlock hn) ((Still.refl s).useBlock n)

theorem State.Fine.note (h : s.Fine) {slot : Nat} (hs : slot < 8192) (text : List Byte) {r : Record}
    (hr : r.Sound) : (s.note slot text r).Sound := by
  unfold State.note
  dsimp only
  split
  next n rest hc =>
    have h1 := (h.still (h.ok.freeChain [(n, .note)]) ((Still.refl s).freeChain _)).setChain slot
      (chain := rest) fun b hb => h.ok.chain_lt slot b (hc ▸ List.mem_cons_of_mem _ hb)
    have h2 := h1.putRecord hs (r := { r with firstBlock := headOf rest }) (hr.same rfl rfl rfl)
    split
    · exact h2.answerNote slot
    · exact (h.writeBlock _ _ _).answerNote _
  · refine State.sound_ite (h.answerNote _) ?_
    split
    · exact h.refuseHolding _ _
    next n hn =>
      exact ((((h.useBlock (s.lowestFreeBlock_lt hn)).writeBlock _ _ _).setChain _ fun b hb => by
          rcases List.mem_cons.1 hb with rfl | hb
          · exact s.lowestFreeBlock_lt hn
          · exact h.ok.chain_lt slot b hb).putRecord hs
        (r := { r with firstBlock := BitVec.ofNat 16 n }) (hr.same rfl rfl rfl)).answerNote _

theorem State.Fine.serveNote (h : s.Fine) (serial : Word) (text : List Byte) : (s.serveNote serial text).Sound := by
  obtain ⟨hf, hr⟩ := h.find serial
  unfold State.serveNote
  split
  next he => rw [he] at hf; exact hf.sound.refuse _
  next he => rw [he] at hf; exact State.Fine.refuseHolding hf _ _
  next he => rw [he] at hf; exact State.Fine.refuseHolding hf _ _
  next slot r s1 he =>
    rw [he] at hf hr
    obtain ⟨hs, hr⟩ := hr slot r rfl
    exact State.sound_ite (State.Fine.refuseHolding hf _ _) (State.Fine.note hf hs _ hr)

theorem execRecordNote_sound (h : s.Fine) (serial : Word) (text : List Byte) :
    resultSound (execRecordNote serial text s) := by
  refine resultSound_next (h.sound.serve _ (State.sound_ite (h.sound.refuse _) (State.sound_ite
    (h.sound.refuse _) (State.sound_ite (h.sound.refuse _) ?_))))
  exact (State.Fine.goOnFrame ⟨h.ok.serveNote serial text, h.serveNote serial text⟩).sound

theorem execRecordRetire_sound (h : s.Fine) (serial : Word) : resultSound (execRecordRetire serial s) := by
  refine resultSound_next (h.sound.serve _ ?_)
  have hl := h.lookupFor serial
  split
  next he => rw [he] at hl; exact hl.sound.refuse _
  next slot s1 he =>
    rw [he] at hl
    split
    · exact hl.sound.refuse _
    next hd =>
      rw [Option.isNone_iff_eq_none] at hd
      obtain ⟨d, hd⟩ := Option.ne_none_iff_exists'.1 hd
      have hs : slot < 8192 := hl.ok.directory.inArea_of_get hd
      exact State.sound_ite (hl.sound.refuse _)
        ((State.Fine.retire hl .command hs serial).returnIfBare.sound.reply _ _)

theorem State.Fine.walkSlot (h : s.Fine) (set : Byte) (slot : Nat) (w : Walked) :
    (s.walkSlot set slot w).2.Fine := by
  have h1 := (h.takeLine .command slot).letGo slot
  unfold State.walkSlot
  dsimp only
  split
  · exact h1
  · split <;> exact h1

theorem State.Fine.walkOne (h : s.Fine) (set filter : Byte) (slot : Nat) (w : Walked) :
    (s.walkOne set filter slot w).2.Fine := by
  unfold State.walkOne
  dsimp only
  split
  · exact State.Fine.visitBeside slot (x := (s.beside, w)) (visit := fun x => (x.1.walkSlot set slot x.2).swap)
      (fun x hx => hx.walkSlot set slot x.2) h.beside
  · exact h.beside

theorem State.Fine.walk (h : s.Fine) (set filter : Byte) (slots : List Nat) (w : Walked) :
    (s.walk set filter slots w).2.Fine := by
  induction slots generalizing s w with
  | nil => exact h
  | cons slot rest ih =>
    rw [State.walk]
    split_ifs
    · exact h
    · exact ih (h.walkOne set filter slot w) _

theorem execRecordWalk_sound (h : s.Fine) (start : Half) (statuses filter : Byte) :
    resultSound (execRecordWalk start statuses filter s) :=
  resultSound_next (h.sound.serve _ (State.sound_ite (h.sound.refuse _) ((h.walk _ _ _ _).sound.reply _ _)))

/-! ### The tamper queue and the cab indicator -/

theorem execTamperRead_sound (h : s.Sound) : resultSound (execTamperRead s) :=
  resultSound_next (h.serve _ (h.reply _ _))

theorem execTamperAck_sound (h : s.Fine) (serial : Word) : resultSound (execTamperAck serial s) := by
  refine resultSound_next (h.sound.serve _ ?_)
  obtain ⟨hf, hr⟩ := h.find serial
  split
  next he => rw [he] at hf; exact hf.sound.refuse _
  next he => rw [he] at hf; exact State.Fine.refuseHolding hf _ _
  next he => rw [he] at hf; exact State.Fine.refuseHolding hf _ _
  next slot r s1 he =>
    rw [he] at hf hr
    obtain ⟨hs, hr⟩ := hr slot r rfl
    have h1 := (State.Fine.putRecord hf hs (r := { r with marks := { r.marks with acknowledged := true } })
      (hr.same rfl rfl rfl)).removedReport slot
    exact State.sound_ite (State.Fine.refuseHolding hf _ _) (State.sound_ite (State.Fine.refuseHolding hf _ _)
      (((State.fine_ite hf h1).letGo _).sound.reply _ _))

theorem execCabMode_sound (h : s.Sound) (mode invert : Byte) : resultSound (execCabMode mode invert s) := by
  refine resultSound_next (h.serve _ ?_)
  split
  · exact h.refuse _
  · exact State.sound_ite (h.refuse _) ((h.withTamper _).reply _ _)

theorem execPulseTimerExpire_sound (h : s.Sound) : resultSound (execPulseTimerExpire s) :=
  resultSound_ite (resultSound_next (h.withTamper _)) (resultSound_next h)

/-! ### Ports, reports and the matching engine -/

theorem State.Sound.reportAll (h : s.Sound) (r : Report) : (s.reportAll r).Sound :=
  State.reportAll_keeps (P := State.Sound) (fun _ _ h => h.withDraws _) (fun _ _ h => h.withCommand _) h r

theorem State.Sound.goOnReport (h : s.Sound) : s.goOnReport.Sound :=
  State.goOnReport_keeps (P := State.Sound) (fun _ _ h => h.withDraws _) (fun _ _ h => h.withCommand _) h

theorem execPortByte_sound (h : s.Sound) (p : Fin 4) (b : Byte) : resultSound (execPortByte p b s) :=
  resultSound_ite (resultSound_next h) (resultSound_next (State.sound_ite h (State.sound_ite ((h.withPorts _).raise _)
    (h.withPorts _))).goOnReport)

theorem execByteGapTimeout_sound (h : s.Sound) (p : Fin 4) : resultSound (execByteGapTimeout p s) :=
  resultSound_ite (resultSound_next h) (resultSound_next (State.sound_ite h (h.withPorts _)).goOnReport)

theorem execPortMode_sound (h : s.Sound) (port mode : Byte) : resultSound (execPortMode port mode s) := by
  refine resultSound_next (h.serve _ ?_)
  split
  · exact (h.withPorts _).reply _ _
  · exact h.refuse _

theorem execPortReset_sound (h : s.Sound) (port : Byte) : resultSound (execPortReset port s) := by
  refine resultSound_next (h.serve _ ?_)
  split
  · exact (h.withPorts _).executing _
  · exact h.refuse _

theorem execResetPulseEnd_sound (h : s.Sound) : resultSound (execResetPulseEnd s) := by
  unfold execResetPulseEnd
  split
  · exact resultSound_next ((h.withPorts _).respond _ _)
  · exact resultSound_next h

theorem execPortStatus_sound (h : s.Sound) : resultSound (execPortStatus s) :=
  resultSound_next (h.serve _ (h.reportAll .ports))

theorem execFrameTake_sound (h : s.Fine) : resultSound (execFrameTake s) :=
  resultSound_ite (resultSound_next h.sound) (resultSound_next (State.sound_ite h.sound h.takeFrame.sound).goOnReport)

theorem execFrameMatch_sound (h : s.Fine) : resultSound (execFrameMatch s) :=
  resultSound_ite (resultSound_next h.sound) (resultSound_next (h.matchOn true).sound.goOnReport)

/-! ### Segments -/

theorem State.Fine.sound_still (h : s.Fine) (q : Still s t) : t.Sound := h.sound.still h.ok.mem q

theorem Still.define {a : State} (h : Still a s) (n : Seg) (base limit dwell : Half) :
    Still a (s.define n base limit dwell) := by
  unfold State.define
  dsimp only
  split
  · exact (h.putSegment _ _).putPlan _
  · exact (h.putSegment _ _).putPlan _
  · exact h.putSegment _ _

theorem execSegmentDefine_sound (h : s.Fine) (segment : Byte) (base limit dwell : Half) :
    resultSound (execSegmentDefine segment base limit dwell s) := by
  refine resultSound_next (h.sound.serve _ (State.sound_ite (h.sound.refuse _) ?_))
  split
  · exact h.sound.refuse _
  · exact State.sound_ite (h.sound.refuse _) (State.sound_ite (h.sound.refuse _)
      ((h.sound_still ((Still.refl s).define _ _ _ _)).reply _ _))

theorem Still.enter {a : State} (h : Still a s) (n : Seg) : Still a (s.enter n) := by
  unfold State.enter
  dsimp only
  split
  · exact (((h.putSegment _ _).putPlan _).putActive _).setDwell _
  · exact (((h.putSegment _ _).putPlan _).putActive _).setDwell _
  · exact (((h.putSegment _ _).putPlan _).putActive _).setDwell _
  · exact h

theorem State.Fine.left (n : Seg) (entering : Option Seg) {x : State × WalkCounts} (h : x.1.Fine) :
    (State.left n entering x).Fine := by
  refine ⟨h.ok.left n entering, ?_⟩
  have h1 : (x.1.withSegments { x.1.segments with leaving := none }).Fine :=
    h.withSegments ⟨h.ok.segments.redrives, h.ok.segments.plan⟩
  unfold State.left
  dsimp only
  split
  · exact (h1.sound_still ((Still.refl _).settleLeft n)).reply _ _
  · exact (h1.sound_still (((Still.refl _).settleLeft n).enter _)).reply _ _

theorem State.Fine.holdWalk (h : s.Fine) (w : Leaving) : (s.holdWalk w).Fine :=
  h.apart (h.ok.holdWalk w) rfl rfl

theorem State.Fine.leaveFrom (h : s.Fine) (n : Seg) (entering : Option Seg) : (s.leaveFrom n entering).Fine :=
  State.Fine.kept.leaveOn (fun _ _ h => h.holdWalk _)
    (fun _ h => State.Fine.left _ _ h) _
    (fun slot hs _ hx => State.Fine.settleSlot .command (h.ok.directory.slots_lt _ slot hs) hx)
    (h.withSegments ⟨h.ok.segments.redrives, h.ok.segments.plan⟩)

theorem State.Fine.goOnLeaving (h : s.Fine) : s.goOnLeaving.Fine :=
  State.Fine.kept.goOnLeaving (fun _ _ h => h.holdWalk _)
    (fun _ _ _ h => State.Fine.left _ _ h)
    (fun _ slot hs _ hx => State.Fine.settleSlot .command (h.ok.directory.slots_lt _ slot hs) hx) h

theorem execSegmentEnter_sound (h : s.Fine) (segment : Byte) : resultSound (execSegmentEnter segment s) := by
  refine resultSound_next (h.sound.serve _ (State.sound_ite (h.sound.refuse _) ?_))
  split
  · exact h.sound.refuse _
  · refine State.sound_ite (h.sound.refuse _) (State.sound_ite (h.sound.reply _ _) ?_)
    split
    · exact (h.sound_still ((Still.refl s).enter _)).reply _ _
    · exact (h.leaveFrom _ _).sound

theorem execSegmentLeave_sound (h : s.Fine) : resultSound (execSegmentLeave s) := by
  refine resultSound_next (h.sound.serve _ (State.sound_ite (h.sound.refuse _) ?_))
  split
  · exact h.sound.reply _ _
  · exact (h.leaveFrom _ _).sound

theorem execSegmentStatus_sound (h : s.Sound) (segment : Byte) : resultSound (execSegmentStatus segment s) := by
  refine resultSound_next (h.serve _ ?_)
  split
  · exact h.refuse _
  · exact h.reply _ _

theorem execPlanRead_sound (h : s.Sound) : resultSound (execPlanRead s) :=
  resultSound_next (h.serve _ (h.reply _ _))

theorem execPlanMove_sound (h : s.Fine) (segment position : Byte) :
    resultSound (execPlanMove segment position s) := by
  refine resultSound_next (h.sound.serve _ (State.sound_ite (h.sound.refuse _) ?_))
  split
  · exact h.sound.refuse _
  · dsimp only
    split
    · exact (h.sound_still ((Still.refl s).putPlan _)).reply _ _
    · exact (h.sound_still ((Still.refl s).putPlan _)).reply _ _
    · exact (h.sound_still (((Still.refl s).putSegment _ _).putPlan _)).reply _ _
    · exact h.sound.refuse _

theorem State.Fine.dwellExpired (h : s.Fine) : s.dwellExpired.Fine := by
  refine ⟨h.ok.dwellExpired, ?_⟩
  unfold State.dwellExpired
  split
  · exact h.sound
  · refine State.sound_ite h.sound ?_
    dsimp only
    split
    · exact ((h.sound_still ((Still.refl s).putSegment _ _)).raise _).withSegments _
    · exact (h.sound.raise _).withSegments _

theorem execDwellCompareExpire_sound (h : s.Fine) : resultSound (execDwellCompareExpire s) :=
  resultSound_next (State.sound_ite h.sound h.dwellExpired.goOnLeaving.sound)

/-! ### The route -/

theorem Still.beginRoute {a : State} (h : Still a s) (x : Header) : Still a (s.beginRoute x) :=
  ((((Still.withMem (h.withRoute _) fun _ hm => hm.writeItem _ _).withAssessment _).withMatching _).setClock
    0).enterRouteState .loading

theorem execRouteHeader_sound (h : s.Fine) (p : HeaderParams) : resultSound (execRouteHeader p s) := by
  refine resultSound_next (h.sound.serve _ (State.sound_ite (h.sound.refuse _) ?_))
  split
  · exact h.sound.refuse _
  · exact State.sound_ite ((h.sound_still ((Still.refl s).beginRoute _)).reply _ _) (h.sound.refuse _)

theorem execRouteOpen_sound (h : s.Sound) : resultSound (execRouteOpen s) :=
  resultSound_next (h.serve _ (State.sound_ite (h.refuse _) ((h.withRoute _).reply _ _)))

theorem State.Fine.withRoute (h : s.Fine) (x : Route) : (s.withRoute x).Fine :=
  ⟨h.ok.withRoute x, h.sound.withRoute x⟩

theorem State.Fine.raise (h : s.Fine) (e : Event) : (s.raise e).Fine := ⟨h.ok.raise e, h.sound.raise e⟩

theorem State.Fine.openSlot (h : s.Fine) {slot : Nat} (hs : slot < 8192) : (s.openSlot slot).Fine := by
  have h1 := h.takeLine .scan slot
  unfold State.openSlot
  dsimp only
  split
  · exact (h1.withRoute _).letGo _
  · split
    next r hr =>
      have hr := h1.sound.cached hs r hr
      exact State.fine_ite ((State.Fine.fileRecord h1 _ _).letGo _)
        ((h1.putRecord hs (r := { r with segment := (s.takeLine .scan slot).1.windowOf r.sequence })
          (hr.same rfl rfl rfl)).letGo _)
    · exact h1.letGo _

theorem Still.openSettle {a : State} (h : Still a s) (n : Seg) : Still a (s.openSettle n) :=
  Still.ite ((h.putSegment _ _).putPlan _) h

theorem DirectoryOk.keys_lt {d : Directory} (h : DirectoryOk d) : ∀ n ∈ d.map (·.1), n < 8192 :=
  fun n hn => h.inArea n hn

theorem State.Fine.openScan (h : s.Fine) : s.openScan.Sound := by
  have h1 := State.fine_foldl (s.directory.map (·.1)) (fun _ slot hm hx =>
    State.Fine.openSlot hx (h.ok.directory.keys_lt slot hm)) h
  unfold State.openScan
  generalize List.finRange 64 = l
  exact h1.sound_still (((((Still.foldl (fun _ n q => Still.openSettle q n) l
    (Still.refl _)).setClock 0).enterRouteState .opened).withRoute _).raise _)

theorem execOpenScan_sound (h : s.Fine) : resultSound (execOpenScan s) :=
  resultSound_ite (resultSound_next h.openScan) (resultSound_next h.sound)

theorem Still.closeSettle {a : State} (h : Still a s) (n : Seg) : Still a (s.closeSettle n) :=
  Still.ite (Still.ite ((h.putSegment _ _).raise _) (h.putSegment _ _)) h

theorem State.Fine.routePass (h : s.Fine) : s.routePass.1.Fine :=
  State.fine_foldl_fst _ (fun _ slot hm hx => State.Fine.settleSlot .command
    (h.ok.directory.keys_lt slot hm) hx) (x := (s, WalkCounts.none)) h

theorem State.Fine.closeWork (h : s.Fine) : s.closeWork.1.Sound := by
  have key : ∀ x : State, x.Fine → ((((List.finRange 64).foldl State.closeSettle x.routePass.1).putPlan
      []).writeBack.enterRouteState .closed).Sound := by
    intro x hx
    have k := (State.ok_foldl (fun _ n h => State.Ok.closeSettle h n) (List.finRange 64)
      hx.routePass.ok).putPlan List.nodup_nil
    have q := (Still.foldl (fun _ n q => Still.closeSettle q n) (List.finRange 64)
      (Still.refl x.routePass.1)).putPlan []
    exact (hx.routePass.still k q).writeBack.sound_still ((Still.refl _).enterRouteState _)
  unfold State.closeWork
  dsimp only
  split
  · exact key _ h.finishFrame
  · exact key _ (h.finishFrame.leave _ _)

theorem execRouteClose_sound (h : s.Fine) : resultSound (execRouteClose s) :=
  resultSound_next (h.sound.serve _ (State.sound_ite (h.sound.refuse _) ((State.Fine.closeWork
    (h.still h.ok.writeCheckpoint (Still.refl s).writeCheckpoint)).reply _ _)))

theorem State.Fine.clearSlot (h : s.Fine) {slot : Nat} (hs : slot < 8192) : (s.clearSlot slot).Fine := by
  have h1 := (h.takeLineFresh .command hs Contents.sound_free).grant .command
  exact (h1.still (h1.ok.withDirectory (h1.ok.directory.free slot))
    ((Still.refl _).withDirectory _)).freeImage hs

theorem execRouteClear_sound (h : s.Fine) : resultSound (execRouteClear s) :=
  resultSound_next (h.sound.serve _ (State.sound_ite (h.sound.refuse _) (State.sound_ite (h.sound.refuse _)
    ((((State.fine_foldl _ (fun _ slot hm hx => State.Fine.clearSlot hx
      (h.ok.directory.keys_lt slot hm)) h).grants .command _).sound_still
        ((Still.refl _).emptyRoute)).reply _ _))))

theorem execRouteClockTick_sound (h : s.Fine) : resultSound (execRouteClockTick s) :=
  resultSound_ite (resultSound_next h.sound) (resultSound_next (State.sound_ite
    (State.Fine.goOnLeaving (s := s.tenthPassed) (h.apart (h.ok.withRoute _) rfl rfl)).sound h.sound).goOnReport)

theorem execClockCheckpoint_sound (h : s.Fine) : resultSound (execClockCheckpoint s) :=
  resultSound_next (State.sound_ite (h.sound_still (Still.refl s).writeDue) h.sound)

theorem execRouteStatus_sound (h : s.Sound) : resultSound (execRouteStatus s) :=
  resultSound_next (h.serve _ (h.reportAll .route))

/-! ### The command port -/

theorem State.Sound.readSelection (h : s.Sound) (clocks : Nat) : (s.readSelection clocks).Sound :=
  State.sound_ite (h.withCommand _) (h.withCommand _)

theorem execResponseRead_sound (h : s.Sound) (direction : Byte) (clocks : Nat) :
    resultSound (execResponseRead direction clocks s) :=
  resultSound_next (State.sound_ite (h.readSelection _) (State.sound_ite h (h.withCommand _)))

theorem execBadCommandBlock_sound (h : s.Sound) (direction : Byte) (block : List Byte) :
    resultSound (execBadCommandBlock direction block s) :=
  resultSound_next (State.sound_ite (h.readSelection _) (State.sound_ite (h.withCommand _)
    (State.sound_ite h (h.serve _ (h.refuse _)))))

theorem execCommandCollision_sound (h : s.Sound) : resultSound (execCommandCollision s) :=
  resultSound_next (State.sound_ite h.collide h)

theorem execEventsRead_sound (h : s.Sound) (clear : Half) : resultSound (execEventsRead clear s) :=
  resultSound_next (h.serve _ ((h.withEvents _).reply _ _))

theorem execEventsEnable_sound (h : s.Sound) (enable : Half) : resultSound (execEventsEnable enable s) :=
  resultSound_next (h.serve _ ((h.withEvents _).reply _ _))

theorem execFlush_sound (h : s.Fine) : resultSound (execFlush s) :=
  resultSound_next (h.sound.serve _ (h.cleanLines.sound.executing _))

theorem execFlushDrainDone_sound (h : s.Sound) : resultSound (execFlushDrainDone s) := by
  unfold execFlushDrainDone
  split
  · exact resultSound_next (h.respond _ _)
  · exact resultSound_next h

theorem execWriteQueueWrite_sound (h : s.Fine) : resultSound (execWriteQueueWrite s) :=
  resultSound_next (State.sound_ite h.writeOldest.sound h.sound)

/-! ### The upload -/

theorem State.Midway.readAndYield_sound {w : Forming} (h : s.Midway w) (hs : s.Sound) : (s.readAndYield w).Sound := by
  have k1 := h.formRead_sound hs
  unfold State.readAndYield
  split
  next hr => rw [hr] at k1; exact k1
  next hr => rw [hr] at k1; exact State.Sound.withDepot k1 _

theorem State.Midway.formOn_sound {w : Forming} (h : s.Midway w) (hs : s.Sound) (n : Nat) : (s.formOn n w).Sound := by
  induction n generalizing s w with
  | zero => exact hs.withDepot _
  | succ n ih =>
    have h1 := h.formRead
    have k1 := h.formRead_sound hs
    rw [State.formOn]
    split
    next hr => rw [hr] at k1; exact k1
    next w1 s1 hr =>
      rw [hr] at h1 k1
      have h2 := h1.2 w1 rfl
      dsimp only
      split
      · split
        · split
          · exact (State.Sound.withDraws k1 _).withDepot _
          · exact (h2.drew _).readAndYield_sound (State.Sound.withDraws k1 _)
        · exact ih (h2.drew _) (State.Sound.withDraws k1 _)
      · exact ih h2 k1

theorem execBatchForm_sound (h : s.Fine) : resultSound (execBatchForm s) := by
  unfold execBatchForm
  split
  next hm => exact resultSound_next ((h.ok.midway hm).formOn_sound (h.sound.withDepot _) _)
  · exact resultSound_next h.sound

theorem execOfferSent_sound (h : s.Sound) : resultSound (execOfferSent s) :=
  resultSound_next (State.sound_ite (h.withDepot _) h)

theorem State.Fine.changeOffered (h : s.Fine) {slot : Nat} (hs : slot < 8192) {f : Record → Record}
    (hf : ∀ r : Record, r.Sound → (f r).Sound) : (s.changeOffered slot f).1.Fine := by
  have h1 := h.takeLine .upload slot
  unfold State.changeOffered
  dsimp only
  split
  next r hr => exact (h1.putRecord hs (hf r (h1.sound.cached hs r hr))).letGo _
  · exact h1.letGo _

theorem State.stillHolds_lt (h : s.Ok) {slot : Nat} {serial : Word} (hh : s.stillHolds slot serial = true) :
    slot < 8192 := by
  refine h.occupied_lt fun hn => ?_
  unfold State.stillHolds at hh
  rw [Bool.and_eq_true, Option.isSome_iff_ne_none] at hh
  exact hh.1 (Option.isNone_iff_eq_none.1 hn)

theorem State.Fine.returnAll (h : s.Fine) (l : List (Nat × Word)) : (l.foldl State.returnOne s).Fine := by
  refine State.fine_foldl l (fun x e _ hx => ?_) h
  unfold State.returnOne
  split
  next hh => exact hx.changeOffered (State.stillHolds_lt hx.ok hh) fun _ hr => hr.same rfl rfl rfl
  · exact hx

theorem State.Fine.returnBatch (h : s.Fine) : s.returnBatch.Sound := (h.returnAll _).sound.withDepot _

theorem State.Fine.judgeOne (h : s.Fine) (accepted : Half) (e : Nat × (Nat × Word)) :
    (State.judgeOne accepted s e).Fine := by
  refine ⟨h.ok.judgeOne accepted e, ?_⟩
  unfold State.judgeOne
  split
  · exact h.sound
  next hh =>
    have hs := State.stillHolds_lt h.ok (by simpa using hh)
    split
    · have h1 := h.retire .upload hs e.2.2
      exact (h1.sound.withDepot { (s.retire .upload e.2.1 e.2.2).depot with
        accepted := satInc (s.retire .upload e.2.1 e.2.2).depot.accepted }).still
          (s := (s.retire .upload e.2.1 e.2.2).withDepot { (s.retire .upload e.2.1 e.2.2).depot with
            accepted := satInc (s.retire .upload e.2.1 e.2.2).depot.accepted })
          h1.ok.mem (Still.refl _).returnIfBare
    · have h2 := h.changeOffered hs (f := Record.refusedByDepot) fun _ hr => hr.same rfl rfl rfl
      exact State.sound_ite (h2.sound.withDepot _) h2.sound

theorem State.Fine.takeVerdict (h : s.Fine) (accepted : Half) : (s.takeVerdict accepted).Sound := by
  have h0 : (s.withDepot { s.depot with timer := none }).Fine :=
    ⟨h.ok.sameDepot rfl rfl rfl rfl h.ok.depot.forming, h.sound.withDepot _⟩
  have h1 := State.fine_foldl (positions 0 s.depot.outstanding)
    (fun _ e _ hx => State.Fine.judgeOne hx accepted e) h0
  exact h1.sound.withDepot _

theorem execDepotByte_sound (h : s.Fine) (b : Byte) : resultSound (execDepotByte b s) := by
  have hg : (s.gatherDepot []).Fine := ⟨h.ok.gatherDepot (by simp), h.sound.withDepot _⟩
  exact resultSound_next (State.sound_ite h.sound (State.sound_ite (State.sound_ite (h.sound.withDepot _) h.sound)
    (State.sound_ite (State.sound_ite (h.sound.withDepot _) (h.sound.withDepot _))
      (State.sound_ite (h.sound.withDepot _) (State.sound_ite
        (State.sound_ite (hg.takeVerdict _) (hg.sound.withDepot _)) (h.sound.withDepot _))))))

theorem execDepotByteGapTimeout_sound (h : s.Sound) : resultSound (execDepotByteGapTimeout s) :=
  resultSound_next (State.sound_ite (h.withDepot _) h)

theorem execVerdictTimeout_sound (h : s.Fine) : resultSound (execVerdictTimeout s) :=
  resultSound_next (State.sound_ite h.sound (State.sound_ite ((h.returnBatch.withDepot _).raise _)
    (h.returnBatch.withDepot _)))

theorem execDockAttach_sound (h : s.Sound) : resultSound (execDockAttach s) :=
  resultSound_next (State.sound_ite ((h.withDepot _).withDepot _) (h.withDepot _))

theorem execDockRemoval_sound (h : s.Fine) : resultSound (execDockRemoval s) := by
  have h2 : ((s.withDepot { s.depot with dockSense := false }).withDepot
      { s.depot with dockSense := false, link := .detached, timer := none, forming := none }).Fine :=
    ⟨State.Ok.sameDepot (h.ok.sameDepot (x := { s.depot with dockSense := false }) rfl rfl rfl rfl
      h.ok.depot.forming) rfl rfl rfl rfl (FormingOk.none rfl), (h.sound.withDepot _).withDepot _⟩
  exact resultSound_next (State.sound_ite ((State.sound_ite h2.sound h2.returnBatch).withDepot _)
    (h.sound.withDepot _))

theorem execUploadStart_sound (h : s.Sound) : resultSound (execUploadStart s) := by
  refine resultSound_next (h.serve _ (State.sound_ite (h.refuse _) ?_))
  split
  · exact (h.withDepot _).reply _ _
  · exact (h.withDepot _).reply _ _
  · exact h.refuse _

theorem execUploadStop_sound (h : s.Sound) : resultSound (execUploadStop s) := by
  refine resultSound_next (h.serve _ (State.Sound.reply ?_ _ _))
  split
  · exact State.sound_ite (h.withDepot _) (h.withDepot _)
  · exact h

theorem execUploadStatus_sound (h : s.Sound) : resultSound (execUploadStatus s) :=
  resultSound_next (h.serve _ (((h.withDepot _).withDraws _).reply _ _))

/-! ### Power and restarts -/

/-- Soundness without lines and queue is that of record memory. -/
theorem State.Sound.bare (hl : s.store = Store.reset)
    (hm : ∀ n, n < 8192 → checkHolds 64 (s.mem.slotBytes n) = true →
      (Contents.ofBytes (s.mem.slotBytes n)).Sound) : s.Sound := by
  have key : ∀ i b, ¬(s.line i).body = some b := by
    intro i b hb
    have : ∀ i, (Store.reset.lines.get i).body = none := by decide
    unfold State.line at hb
    rw [hl, this i] at hb
    cases hb
  exact ⟨fun i b hb => absurd hb (key i b), fun i b hb => absurd hb (key i b),
    fun q hq => by rw [hl] at hq; exact absurd hq (by simp [Store.reset]), hm,
    fun i b hb => absurd hb (key i b)⟩

theorem State.Sound.freshChip (h : s.Sound) (power : Power) : (s.freshChip power).Sound :=
  State.Sound.bare rfl h.stored

/-- An address that no byte is listed for reads as unlisted. -/
theorem Memory.read_absent {m : Memory} {x : Nat} (h : ∀ c ∈ m, c.1 ≠ x) : m.read x = Memory.unlisted x := by
  induction m with
  | nil => rfl
  | cons c m ih =>
    rw [Memory.read, if_neg (h c (List.mem_cons_self ..)), ih fun d hd => h d (List.mem_cons_of_mem _ hd)]
    split <;> rfl

/-- A slot with no byte listed is free. -/
theorem Memory.slot_free {m : Memory} (h : ∀ c ∈ m, 524288 ≤ c.1) {n : Nat} (hn : n < 8192) :
    Contents.ofBytes (m.slotBytes n) = .free := by
  have key : ∀ i, i < 64 → byteAt (m.slotBytes n) i = 0 := fun i hi => by
    rw [Memory.slotBytes, Memory.readBytes_getD, if_pos hi,
      Memory.read_absent fun c hc => by have := h c hc; simp only [slotAddress]; omega]
    unfold Memory.unlisted
    rw [if_pos (by simp only [slotAddress, Config.routeBase]; omega)]
  unfold Contents.ofBytes
  rw [if_pos]
  simp [wordAt, halfAt, key]

theorem State.Sound.restart (h : s.Sound) (start : StartKind) : (s.restart start).Sound := by
  refine State.sound_ite ((((h.freshChip .on).withRoute _).withAssessment _).withSegments _ |>.withRoute _)
    (State.Sound.raise (State.Sound.bare rfl fun n hn _ => ?_) _)
  show (Contents.ofBytes (s.mem.initialise.slotBytes n)).Sound
  rw [Memory.slot_free (fun c hc => ?_) hn]
  · exact Contents.sound_free
  · have h1 := List.of_mem_filter (List.mem_of_mem_filter (List.mem_of_mem_filter hc))
    simp [Config.extensionBase] at h1
    exact of_decide_eq_true h1

theorem State.reset_sound : State.reset.Sound :=
  State.Sound.bare rfl fun n hn _ => by
    show (Contents.ofBytes (Memory.slotBytes [] n)).Sound
    rw [Memory.slot_free (by simp) hn]
    exact Contents.sound_free

theorem execPowerUp_sound (h : s.Sound) : resultSound (execPowerUp s) :=
  resultSound_next (State.sound_ite h (h.restart _))

theorem execPartReset_sound (h : s.Fine) : resultSound (execPartReset s) :=
  resultSound_next (h.sound.serve _ ((h.finishFrame.writeBack.sound_still
    (Still.refl _).writeCheckpoint).restart _ |>.written))

theorem State.Fine.endWork (h : s.Fine) : s.endWork.Fine := by
  refine ⟨h.ok.endWork, ?_⟩
  have key : ∀ (k : Fin 8) b, (s.endWork.line k).body = some b → (s.line k).body = some b := by
    intro k b hb
    have hb : ((s.store.lines.map Line.discardHeld).get k).body = some b := hb
    simp only [Vector.get_eq_getElem, Vector.getElem_map, Line.discardHeld] at hb
    split_ifs at hb
    · exact hb
  have hq : s.endWork.queued = s.queued := rfl
  have hm : s.endWork.mem = s.mem := rfl
  exact ⟨fun i b hb => h.sound.lines i b (key i b hb), fun i b hb => h.sound.dirty i b (key i b hb),
    h.sound.queue, by rw [hm]; exact h.sound.stored, fun i b hb hd hs => State.newestIs_congr (s := s) (by rw [hq])
      (by rw [hm])
      (h.sound.clean i b (key i b hb) hd hs)⟩

theorem execPowerWarning_sound (h : s.Fine) : resultSound (execPowerWarning s) :=
  resultSound_next (State.sound_ite ((h.endWork.writeBack.sound_still
    (Still.refl _).writeCheckpoint).withPower _) h.sound)

/-- A loss of the supply that catches no write and no backup leaves memory as it was. -/
theorem execPowerLoss_clean_sound (h : s.Sound) : resultSound (execPowerLoss .clean s) :=
  resultSound_ite (resultSound_next (State.Sound.bare rfl h.stored)) (fun _ ht => nomatch ht)

/-! ### The RECOVERY scan -/

theorem State.Fine.scanRead (h : s.Fine) {slot : Nat} (hs : slot < 8192) : (s.scanRead slot).2.Fine ∧
    ((s.scanRead slot).1.good = true → (Contents.ofBytes (s.scanRead slot).1.bytes).Sound) := by
  suffices (s.scanRead slot).2.Sound ∧ _ from ⟨⟨h.ok.scanRead slot, this.1⟩, this.2⟩
  unfold State.scanRead
  split
  next i hi =>
    exact ⟨h.sound.hold _ i fun b hb => h.sound.fits hb, fun _ => (h.sound.cached hs).ofBytes_image⟩
  · have he := h.evict s.victim
    dsimp only
    split
    next c hc =>
      have hs' := he.sound.queued hc
      refine ⟨he.sound.hold _ _ fun b hb => ?_, fun _ => hs'.ofBytes_image⟩
      cases hb
      exact Cached.fits_clean (fun _ => hs') fun _ => by unfold State.newestIs; rw [hc]; rfl
    next hq =>
      have hg : checkHolds 64 ((s.evict s.victim).mem.slotBytes slot) = true →
          (Contents.ofBytes ((s.evict s.victim).mem.slotBytes slot)).Sound := he.sound.stored slot hs
      refine ⟨he.sound.hold _ _ fun b hb => ?_, hg⟩
      cases hb
      refine Cached.fits_clean (fun _ => ?_) fun _ => ?_
      · split
        next hc => exact hg hc
        · exact Contents.sound_free
      · unfold State.newestIs
        rw [hq]
        refine .inr ?_
        split <;> simp_all

theorem State.Fine.discard (h : s.Fine) {slot : Nat} (hs : slot < 8192) : (s.discard slot).Fine :=
  (h.freeImage hs).withRoute _

theorem State.Fine.enroll (h : s.Fine) {slot : Nat} (hs : slot < 8192) (serial : Word) (status : Status)
    (segment : Option Seg) : (s.enroll slot serial status segment).Fine :=
  h.still (h.ok.enroll hs serial status segment)
    ((((Still.refl s).withMem fun _ hm => hm.insertSerial serial slot).withDirectory _).report _ _)

theorem Record.Sound.recovered {r : Record} (h : r.Sound) (s : State) : (s.recovered r).Sound := by
  unfold State.recovered
  dsimp only
  have hp : Record.Sound { r with
      batch := none, segment := if s.route.state = .loading then none else s.windowOf r.sequence } :=
    h.same rfl rfl rfl
  split
  · split
    next hs => exact hp.missed hs
    next hs => exact hp.flagUnconfirmed hs _
    · exact hp
  · exact hp

theorem State.Fine.recoverChain (h : s.Fine) {slot : Nat} (hs : slot < 8192) {r : Record} (hr : r.Sound) :
    (s.recoverChain slot r).Fine := by
  have h1 := h.still ((h.ok.useBlocks _ (s.mem.walkChain_lt 4 s.store.usedBlocks r.firstBlock true 0)).setChain
    slot (s.mem.walkChain_lt 4 s.store.usedBlocks r.firstBlock true 0))
    ((Still.foldl (fun _ b q => Still.useBlock q b.1) _ (Still.refl s)).setChain slot _)
  exact State.fine_ite ((h1.cutChain _ hs hr _).withRoute _) h1

/-- The scan's invariant: the machine fine, and the slots that failed slots there are. -/
structure Scan.Fine (x : Scan) : Prop where
  state : x.state.Fine
  failed : ∀ k ∈ x.failed, k < 8192

theorem Scan.Fine.withState {x : Scan} (h : x.Fine) {t : State} (ht : t.Fine) :
    Scan.Fine { x with state := t } := ⟨ht, h.failed⟩

theorem Scan.Fine.keep {x : Scan} {slot : Nat} (h : x.Fine) (hs : slot < 8192) {c : Contents} (hc : c.Sound) :
    (x.keep slot c).Fine := by
  unfold Scan.keep
  dsimp only
  split
  · exact h
  · exact h.withState ((State.fine_ite h.state (h.state.putContents hs (Contents.sound_fault _ _))).enroll hs
      _ _ _)
  next r =>
    have hr := Record.Sound.recovered (hc r rfl) x.state
    exact ⟨((State.fine_ite h.state (h.state.putContents hs (Contents.sound_live hr))).enroll hs
      _ _ _).recoverChain hs hr, h.failed⟩

theorem Scan.Fine.fail {x : Scan} (h : x.Fine) {slot : Nat} (hs : slot < 8192) (bs : List Byte) :
    (x.fail slot bs).Fine :=
  ⟨(((h.state.putContents hs (Contents.sound_fault _ _)).enroll hs _ _ _).withRoute _).raise _, fun k hk => by
    rcases List.mem_cons.1 hk with rfl | hk
    · exact hs
    · exact h.failed k hk⟩

theorem Scan.Fine.dismiss {x : Scan} (h : x.Fine) {earlier : Nat} (he : earlier < 8192) (serial : Word) :
    (x.dismiss earlier serial).Fine := by
  have k := ((h.state.ok.withMem (Memory.wf_deleteSerial h.state.ok.mem serial)).withDirectory
    (h.state.ok.directory.free earlier)).report (x.state.place earlier) none
  exact ⟨(h.state.still k ((((Still.refl x.state).withMem fun _ hm => hm.deleteSerial serial).withDirectory
    _).report _ _)).discard he, fun n hn => h.failed n (List.mem_of_mem_filter hn)⟩

theorem Scan.fine_ite {c : Prop} [Decidable c] {a b : Scan} (ha : a.Fine) (hb : b.Fine) :
    (if c then a else b).Fine := by split_ifs <;> assumption

theorem Scan.Fine.slot {x : Scan} {slot : Nat} (h : x.Fine) (hs : slot < 8192) : (x.slot slot).Fine := by
  obtain ⟨h0, hg⟩ := h.state.scanRead hs
  unfold Scan.slot
  dsimp only
  generalize x.state.scanRead slot = read at h0 hg ⊢
  have h1 : Scan.Fine { x with state := read.2 } := h.withState h0
  have h2 : Scan.Fine { x with state := read.2.countOccupied } := h.withState (h0.withRoute _)
  have settle : ∀ y : Scan, y.Fine → (if read.1.good = true then
      y.keep slot (Contents.ofBytes read.1.bytes) else y.fail slot read.1.bytes).Fine := by
    intro y hy
    split
    next hgood => exact hy.keep hs (hg hgood)
    · exact hy.fail hs _
  have h3 := h2.withState (h2.state.discard hs)
  have key : ∀ y : Scan, y.Fine → Scan.Fine { y with state := y.state.letGo slot } := fun y hy =>
    hy.withState (hy.state.letGo slot)
  refine key _ (Scan.fine_ite h1 (Scan.fine_ite h3 ?_))
  split
  · exact settle _ h2
  next earlier _ =>
    split
    next hc =>
      rw [Bool.and_eq_true, List.contains_iff_mem] at hc
      exact settle _ (h2.dismiss (h2.failed earlier hc.2) _)
    · exact h3

theorem Scan.Fine.range {x : Scan} (h : x.Fine) (n : Nat) (hn : n ≤ 8192) :
    ((List.range n).foldl Scan.slot x).Fine := by
  induction n with
  | zero => exact h
  | succ n ih =>
    rw [List.range_succ, List.foldl_append]
    exact (ih (by omega)).slot (by omega)

theorem Still.agreePlan {a : State} (h : Still a s) : Still a s.agreePlan := h.putPlan _

theorem State.Fine.countFailure (h : s.Fine) : s.countFailure.Fine := h.withRoute _

theorem State.Fine.leaveRecorded (h : s.Fine) (n : Seg) : (s.leaveRecorded n).Fine :=
  State.fine_foldl _ (fun _ _ _ hy => State.Fine.countFailure hy) (h.leave .scan n)

theorem State.Fine.leaveActive (h : s.Fine) : s.leaveActive.Fine := by
  refine ⟨h.ok.leaveActive, ?_⟩
  have h1 := State.fine_foldl ((List.finRange 64).filter s.recordedActive)
    (fun _ n _ hx => State.Fine.leaveRecorded hx n) h
  exact State.Fine.sound_still (State.fine_ite h1 h) ((Still.refl _).putActive none)

theorem Still.settleRecovered {a : State} (h : Still a s) (n : Seg) : Still a (s.settleRecovered n) := by
  unfold State.settleRecovered
  dsimp only
  split
  · exact Still.ite (h.complete n) h
  · exact Still.ite (h.complete n) h
  · exact Still.ite (h.complete n) h
  · exact Still.ite (h.reopen n) h
  · exact h

theorem Still.settleAll {a : State} (h : Still a s) : Still a s.settleAll :=
  Still.ite (Still.foldl (fun _ n q => Still.settleRecovered q n) _ h) h

theorem State.Fine.beginRecovery (h : s.Fine) : s.beginRecovery.Fine := by
  refine h.still h.ok.beginRecovery ⟨?_, ?_, fun hm => ?_⟩
  · simp only [State.beginRecovery, State.loadRouteArea, State.withRoute_store, State.withTamper_store,
      State.withStore_store, State.withSegments_store, State.withAssessment_store]
  · simp only [State.beginRecovery, State.loadRouteArea, State.withRoute_store, State.withTamper_store,
      State.withStore_store, State.withSegments_store, State.withAssessment_store]
  · simp only [State.beginRecovery, State.loadRouteArea, State.withRoute_mem, State.withTamper_mem,
      State.withStore_mem, State.withSegments_mem, State.withAssessment_mem, State.withDirectory_mem,
      State.withMatching_mem, State.withMem_mem]
    exact (Memory.Aside.refl hm).clearIndex

theorem State.Fine.recover (h : s.Fine) : s.recover.Sound := by
  have h1 : Scan.Fine ((List.range Config.slots).foldl Scan.slot ⟨s.beginRecovery, [], []⟩) :=
    Scan.Fine.range (x := ⟨s.beginRecovery, [], []⟩) ⟨h.beginRecovery, by simp⟩ _ (Nat.le_refl _)
  have h2 : Scan.Ok ((List.range Config.slots).foldl Scan.slot ⟨s.beginRecovery, [], []⟩) Config.slots :=
    Scan.Ok.range (x := ⟨s.beginRecovery, [], []⟩)
      ⟨h.ok.beginRecovery, List.Pairwise.nil, List.nodup_nil, by simp⟩ _ (Nat.le_refl _)
  unfold State.recover
  generalize (List.range Config.slots).foldl Scan.slot ⟨s.beginRecovery, [], []⟩ = x at h1 h2 ⊢
  have k := h2.state.withTamper (x := { x.state.tamper with
    entries := x.flagged.take Config.tamperEntries })
    ⟨List.length_take_le _ _, h2.slots.sublist ((List.take_sublist _ _).map _),
      h2.ordered.sublist (List.take_sublist _ _)⟩
  have h3 : (x.state.withTamper { x.state.tamper with
      entries := x.flagged.take Config.tamperEntries }).agreePlan.Fine :=
    h1.state.still k.agreePlan ((Still.refl x.state).withTamper _).agreePlan
  exact ((h3.leaveActive.sound_still (Still.refl _).settleAll).withRoute _).raise _

theorem execRecoveryScan_sound (h : s.Fine) : resultSound (execRecoveryScan s) :=
  resultSound_next (State.sound_ite h.recover h.sound)

end Sys2Proof.Machine
end

