-- ==== Sys2Proof/Laws/Steady.lean ====
section
/-! SUPPORT. What every command but a few leaves as it is: the queue of commands, the events that are
pending and enabled, and the route state. -/

namespace Sys2Proof.Machine

/-- `t` comes from `a` with the queue of commands and the enable set as they were and no event cleared;
with `same`, in the same route state. -/
structure Steady (same : Bool) (a t : State) : Prop where
  pending : t.pending = a.pending
  enabled : t.events.enabled = a.events.enabled
  raised : a.events.pending ||| t.events.pending = t.events.pending
  route : same = true → t.route.state = a.route.state

variable {a s : State} {b : Bool}

theorem Steady.refl (s : State) : Steady b s s := ⟨rfl, rfl, BitVec.or_self, fun _ => rfl⟩

theorem Steady.quiet (h : Steady b a s) {t : State} (q : Quiet s t) : Steady b a t where
  pending := q.pending.trans h.pending
  enabled := q.enabled.trans h.enabled
  raised := by
    rw [← q.raised, ← h.raised, ← BitVec.or_assoc, ← BitVec.or_assoc, BitVec.or_self]
  route := fun hb => (congrArg Route.state q.route).trans (h.route hb)

theorem Steady.beside (h : Steady b a s) {t : State} (q : Beside s t) : Steady b a t :=
  have h1 := h.quiet q.quiet
  ⟨h1.pending, h1.enabled, h1.raised, h1.route⟩

theorem Steady.besideWalk (h : Steady b a s) {t : State} (q : BesideWalk s t) : Steady b a t :=
  have h1 := h.beside q.beside
  ⟨h1.pending, h1.enabled, h1.raised, h1.route⟩

/-- The engines' work beside a walk. -/
theorem Steady.kept (b : Bool) (a : State) : KeptBeside (Steady b a) where
  draws s n h := h.beside ((Beside.refl s).withDraws n)
  engine s h := h.beside (Beside.refl s).engineStep
  upload s h := h.besideWalk (BesideWalk.refl s).uploadStep

theorem Steady.ite {c : Prop} [Decidable c] {x y : State} (hx : Steady b a x) (hy : Steady b a y) :
    Steady b a (if c then x else y) := by split_ifs <;> assumption

theorem Steady.withPower (h : Steady b a s) (x : Power) : Steady b a (s.withPower x) :=
  ⟨h.pending, h.enabled, h.raised, h.route⟩
theorem Steady.withMem (h : Steady b a s) (x : Memory) : Steady b a (s.withMem x) :=
  ⟨h.pending, h.enabled, h.raised, h.route⟩
theorem Steady.withPorts (h : Steady b a s) (x : Vector Port 4) : Steady b a (s.withPorts x) :=
  ⟨h.pending, h.enabled, h.raised, h.route⟩
theorem Steady.withMatching (h : Steady b a s) (x : Matching) : Steady b a (s.withMatching x) :=
  ⟨h.pending, h.enabled, h.raised, h.route⟩
theorem Steady.withStore (h : Steady b a s) (x : Store) : Steady b a (s.withStore x) :=
  ⟨h.pending, h.enabled, h.raised, h.route⟩
theorem Steady.withDirectory (h : Steady b a s) (x : Directory) : Steady b a (s.withDirectory x) :=
  ⟨h.pending, h.enabled, h.raised, h.route⟩
theorem Steady.withTamper (h : Steady b a s) (x : Tamper) : Steady b a (s.withTamper x) :=
  ⟨h.pending, h.enabled, h.raised, h.route⟩
theorem Steady.withSegments (h : Steady b a s) (x : Segments) : Steady b a (s.withSegments x) :=
  ⟨h.pending, h.enabled, h.raised, h.route⟩
theorem Steady.withAssessment (h : Steady b a s) (x : Option Assessment) :
    Steady b a (s.withAssessment x) := ⟨h.pending, h.enabled, h.raised, h.route⟩
theorem Steady.withDepot (h : Steady b a s) (x : Depot) : Steady b a (s.withDepot x) :=
  ⟨h.pending, h.enabled, h.raised, h.route⟩
theorem Steady.withCommand (h : Steady b a s) (x : Command) : Steady b a (s.withCommand x) :=
  ⟨h.pending, h.enabled, h.raised, h.route⟩
theorem Steady.withDraws (h : Steady b a s) (x : Nat) : Steady b a (s.withDraws x) :=
  ⟨h.pending, h.enabled, h.raised, h.route⟩
theorem Steady.withRoute (h : Steady b a s) {x : Route} (hx : b = true → x.state = s.route.state) :
    Steady b a (s.withRoute x) :=
  ⟨h.pending, h.enabled, h.raised, fun hb => (hx hb).trans (h.route hb)⟩
theorem Steady.raise (h : Steady b a s) (e : Event) : Steady b a (s.raise e) :=
  h.quiet ((Quiet.refl s).raise e)

theorem Steady.written (h : Steady b a s) : Steady b a s.written := h.withCommand _
theorem Steady.respond (h : Steady b a s) (x : Answer) (data : List Byte) :
    Steady b a (s.respond x data) := h.withCommand _
theorem Steady.reply (h : Steady b a s) (x : Answer) (data : List Byte) : Steady b a (s.reply x data) :=
  h.written.respond x data
theorem Steady.refuse (h : Steady b a s) (x : Answer) : Steady b a (s.refuse x) := h.reply x []
theorem Steady.executing (h : Steady b a s) (x : Held) : Steady b a (s.executing x) := h.withCommand _
theorem Steady.collide (h : Steady b a s) : Steady b a s.collide := (h.withCommand _).raise _
theorem Steady.refuseHolding (h : Steady b a s) (slot : Nat) (x : Answer) :
    Steady b a (s.refuseHolding slot x) := (h.quiet ((Quiet.refl s).letGo slot)).refuse x

theorem Steady.serve (h : Steady b a s) (during : Bool) {work : State → State}
    (hw : Steady b a (work s)) : Steady b a (s.serve during work) := by
  unfold State.serve
  split_ifs
  · exact h.written
  · exact h.collide
  · exact h.refuse _
  · exact hw

theorem Steady.foldl {α : Type} {f : State → α → State} (hf : ∀ s x, Steady b a s → Steady b a (f s x))
    (l : List α) (h : Steady b a s) : Steady b a (l.foldl f s) := by
  induction l generalizing s with
  | nil => exact h
  | cons x l ih => exact ih (hf _ _ h)

theorem Steady.foldl_snd {α β : Type} {f : β × State → α → β × State}
    (hf : ∀ x y, Steady b a x.2 → Steady b a (f x y).2) (l : List α) {x : β × State}
    (h : Steady b a x.2) : Steady b a (l.foldl f x).2 := by
  induction l generalizing x with
  | nil => exact h
  | cons y l ih => exact ih (hf _ _ h)

theorem Steady.foldl_fst {α β : Type} {f : State × β → α → State × β}
    (hf : ∀ x y, Steady b a x.1 → Steady b a (f x y).1) (l : List α) {x : State × β}
    (h : Steady b a x.1) : Steady b a (l.foldl f x).1 := by
  induction l generalizing x with
  | nil => exact h
  | cons y l ih => exact ih (hf _ _ h)

/-! ### The route controller's operations -/

theorem Steady.writeCheckpoint (h : Steady b a s) : Steady b a s.writeCheckpoint :=
  (h.withMem _).withRoute (by exact fun _ => rfl)
theorem Steady.setClock (h : Steady b a s) (v : Word) : Steady b a (s.setClock v) :=
  Steady.writeCheckpoint (h.withRoute (by exact fun _ => rfl))
theorem Steady.writeDue (h : Steady b a s) : Steady b a s.writeDue := by
  unfold State.writeDue
  split
  · exact (h.withMem _).withRoute (by exact fun _ => rfl)
  · exact h
theorem Steady.enterRouteState (h : Steady false a s) (x : RouteState) :
    Steady false a (s.enterRouteState x) := Steady.withMem (h.withRoute (by intro hb; cases hb)) _
theorem Steady.emptyRoute (h : Steady false a s) : Steady false a s.emptyRoute := by
  refine Steady.enterRouteState (Steady.setClock (Steady.withMem (Steady.withRoute ?_ (by exact fun _ => rfl)) _) _) _
  exact ((((((h.withMem _).withMatching _).withDirectory _).withStore _).withTamper _).withSegments
    _).withMem _ |>.withAssessment _
theorem Steady.returnIfBare (h : Steady false a s) : Steady false a s.returnIfBare := h.emptyRoute.ite h

theorem Steady.countFaultHit (h : Steady b a s) (slot : Nat) : Steady b a (s.countFaultHit slot) :=
  (h.quiet (((Quiet.refl s).forget slot).letGo slot)).withMatching _

theorem Steady.countStranger (h : Steady b a s) : Steady b a s.countStranger := h.withMatching _

theorem Steady.matchOn (h : Steady b a s) (met : Bool) : Steady b a (s.matchOn met) :=
  h.beside ((Beside.refl s).matchOn met)

theorem Steady.finishFrame (h : Steady b a s) : Steady b a s.finishFrame := h.matchOn false

theorem Steady.goOnFrame (h : Steady b a s) : Steady b a s.goOnFrame := h.beside (Beside.refl s).goOnFrame

/-! ### The commands -/

/-- Every next state of a result is steady. -/
def steadyResult (b : Bool) (a : State) (r : Result) : Prop := ∀ t, r = .next t → Steady b a t

theorem steady_next {t : State} (h : Steady b a t) : steadyResult b a (.next t) := by
  intro u hu; cases hu; exact h

theorem steady_ite {c : Prop} [Decidable c] {x y : Result} (hx : steadyResult b a x)
    (hy : steadyResult b a y) : steadyResult b a (if c then x else y) := by split_ifs <;> assumption

theorem execRouteHeader_steady (p : HeaderParams) (s : State) :
    steadyResult false s (execRouteHeader p s) := by
  refine steady_next ((Steady.refl s).serve _ (Steady.ite ((Steady.refl s).refuse _) ?_))
  split
  · exact (Steady.refl s).refuse _
  next x _ =>
    refine Steady.ite (Steady.reply ?_ _ _) ((Steady.refl s).refuse _)
    exact Steady.enterRouteState (Steady.setClock (((((Steady.refl s).withRoute (by intro hb; cases hb)).withMem
      _).withAssessment _).withMatching _) _) _

theorem execRouteOpen_steady (s : State) : steadyResult true s (execRouteOpen s) :=
  steady_next ((Steady.refl s).serve _ (Steady.ite ((Steady.refl s).refuse _)
    (((Steady.refl s).withRoute (by exact fun _ => rfl)).reply _ _)))

theorem Steady.openSlot (h : Steady b a s) (slot : Nat) : Steady b a (s.openSlot slot) := by
  have h1 := h.quiet ((Quiet.refl s).takeLine .scan slot)
  unfold State.openSlot
  dsimp only
  split_ifs
  · exact Steady.quiet (h1.withRoute (by exact fun _ => rfl)) ((Quiet.refl _).letGo _)
  · split
    · split_ifs
      · exact h1.quiet (((Quiet.refl _).fileRecord _ _).letGo _)
      · exact h1.quiet (((Quiet.refl _).putRecord _ _).letGo _)
    · exact h1.quiet ((Quiet.refl _).letGo _)

theorem Quiet.openSettle (h : Quiet a s) (n : Seg) : Quiet a (s.openSettle n) :=
  Quiet.ite ((h.putSegment _ _).putPlan _) h

theorem execOpenScan_steady (s : State) : steadyResult false s (execOpenScan s) := by
  have h1 := Steady.foldl (b := false) (fun _ slot h => Steady.openSlot h slot) (s.directory.map (·.1))
    (Steady.refl s)
  have h2 := Steady.foldl (b := false) (fun s n h => Steady.quiet h ((Quiet.refl s).openSettle n))
    (List.finRange 64) h1
  exact steady_ite (steady_next (Steady.raise (Steady.withRoute (Steady.enterRouteState
    (h2.setClock 0) .opened) (by intro hb; cases hb)) _)) (steady_next (Steady.refl s))

theorem Quiet.closeSettle (h : Quiet a s) (n : Seg) : Quiet a (s.closeSettle n) :=
  Quiet.ite (Quiet.ite ((h.putSegment _ _).raise _) (h.putSegment _ _)) h

theorem Quiet.routePass (h : Quiet a s) : Quiet a s.routePass.1 :=
  Quiet.foldl_fst (fun _ slot hx => Quiet.settleSlot .command slot hx) _ (x := (s, WalkCounts.none)) h

/-- What ROUTE_CLOSE does after the frame in hand is finished and before the route is CLOSED. -/
theorem Quiet.closed (h : Quiet a s) :
    Quiet a (((List.finRange 64).foldl State.closeSettle s).putPlan []).writeBack :=
  ((Quiet.foldl (fun _ n h => Quiet.closeSettle h n) _ h).putPlan _).writeBack

theorem Steady.closeWork (h : Steady false a s) : Steady false a s.closeWork.1 := by
  have h1 := h.finishFrame
  unfold State.closeWork
  dsimp only
  split
  · exact (h1.quiet (Quiet.refl _).routePass.closed).enterRouteState _
  · exact (h1.quiet ((Quiet.refl _).leave .command _).routePass.closed).enterRouteState _

theorem execRouteClose_steady (s : State) : steadyResult false s (execRouteClose s) :=
  steady_next ((Steady.refl s).serve _ (Steady.ite ((Steady.refl s).refuse _)
    ((Steady.refl s).writeCheckpoint.closeWork.reply _ _)))

theorem Quiet.clearSlot (h : Quiet a s) (slot : Nat) : Quiet a (s.clearSlot slot) :=
  ((((h.takeLineFresh _ _ _).grant _).withDirectory _).dropLine slot).enqueue _

theorem execRouteClear_steady (s : State) : steadyResult false s (execRouteClear s) :=
  steady_next ((Steady.refl s).serve _ (Steady.ite ((Steady.refl s).refuse _)
    (Steady.ite ((Steady.refl s).refuse _) (((Steady.refl s).quiet ((Quiet.foldl
      (fun _ slot h => Quiet.clearSlot h slot) _ (Quiet.refl s)).grants _ _)).emptyRoute.reply _ _))))

theorem Steady.reportAll (h : Steady b a s) (r : Report) : Steady b a (s.reportAll r) :=
  State.reportAll_keeps (fun _ _ h => h.withDraws _) (fun _ _ h => h.withCommand _) h r

theorem Steady.goOnReport (h : Steady b a s) : Steady b a s.goOnReport :=
  State.goOnReport_keeps (fun _ _ h => h.withDraws _) (fun _ _ h => h.withCommand _) h

theorem execRouteStatus_steady (s : State) : steadyResult true s (execRouteStatus s) :=
  steady_next ((Steady.refl s).serve _ ((Steady.refl s).reportAll .route))

theorem Quiet.lookupFor (h : Quiet a s) (serial : Word) : Quiet a (s.lookupFor serial).2 := h.grants .command _

/-- A load before its answer. -/
theorem Quiet.loaded (h : Quiet a s) (m : Memory) (n : Nat) (e : DirEntry) (place : Option Place) (slot : Nat) :
    Quiet a (((((s.withMem m).grants .command n).withDirectory
      (((s.withMem m).grants .command n).directory.set slot e)).report none place).letGo slot) :=
  ((((h.withMem m).grants .command n).withDirectory _).report none place).letGo slot

theorem execRecordLoad_steady (p : LoadParams) (s : State) : steadyResult true s (execRecordLoad p s) := by
  refine steady_next ((Steady.refl s).serve _ (Steady.ite ((Steady.refl s).refuse _) ?_))
  have h1 : Steady true s (s.lookupFor p.serial).2 := (Steady.refl s).quiet ((Quiet.refl s).lookupFor _)
  split
  · exact (Steady.refl s).refuse _
  · exact Steady.ite ((Steady.refl s).refuse _) (Steady.ite (h1.refuse _) (Steady.ite (h1.refuse _)
      ((h1.quiet (((Quiet.refl _).takeLineFresh _ _ _).loaded _ _ _ _ _)).reply _ _)))

theorem execRecordLookup_steady (serial : Word) (wanted : Byte) (s : State) :
    steadyResult true s (execRecordLookup serial wanted s) := by
  refine steady_next ((Steady.refl s).serve _ (Steady.ite ((Steady.refl s).refuse _) ?_))
  have hf : Steady true s (s.find serial).2 := (Steady.refl s).quiet ((Quiet.refl s).find _)
  split
  next he => rw [he] at hf; exact Steady.refuse hf _
  next he => rw [he] at hf; exact Steady.refuseHolding hf _ _
  next he => rw [he] at hf; exact Steady.reply (hf.quiet ((Quiet.refl _).letGo _)) _ _
  next he =>
    rw [he] at hf
    dsimp only
    split
    · exact Steady.reply (hf.quiet (((Quiet.refl _).readExtension _ _ _).letGo _)) _ _
    · exact Steady.reply (hf.quiet ((Quiet.refl _).letGo _)) _ _

theorem Steady.answerAmend (h : Steady b a s) (slot : Nat) (r : Record) :
    Steady b a (s.answerAmend slot r) := (h.quiet ((Quiet.refl s).letGo _)).reply _ _

theorem Steady.amend (h : Steady b a s) (slot : Nat) (p : AmendParams) (r after : Record) :
    Steady b a (s.amend slot p r after) := by
  unfold State.amend
  dsimp only
  split
  · exact (h.quiet (Quiet.ite ((((Quiet.refl s).putRecord _ _).forget _).removedReport _)
      (((Quiet.refl s).putRecord _ _).forget _))).answerAmend _ _
  · exact (h.quiet (Quiet.ite ((((Quiet.refl s).putRecord _ _).forget _).removedReport _)
      (((Quiet.refl s).putRecord _ _).forget _))).answerAmend _ _

theorem Steady.amendFound (h : Steady b a s) (p : AmendParams) (found : Found) :
    Steady b a (s.amendFound p found) := by
  unfold State.amendFound
  dsimp only
  split
  · exact h.refuse _
  · exact h.refuseHolding _ _
  · exact h.refuseHolding _ _
  · refine Steady.ite (h.refuseHolding _ _) (Steady.ite (h.refuseHolding _ _) ?_)
    split
    · exact h.refuseHolding _ _
    · exact Steady.ite (h.refuseHolding _ _) (Steady.ite (h.refuseHolding _ _) (h.amend _ _ _ _))

theorem Steady.rewrite (h : Steady b a s) (slot : Nat) (p : LoadParams) (kind : Kind) :
    Steady b a (s.rewrite slot p kind) :=
  (h.quiet (((((Quiet.refl s).takeLineFresh _ _ _).setChain _ _).fileRecord _ _).forget _)).answerAmend _ _

theorem Steady.fullRewrite (h : Steady b a s) (p : AmendParams) : Steady b a (s.fullRewrite p) := by
  have h1 := h.quiet ((Quiet.refl s).lookupFor p.serial)
  unfold State.fullRewrite
  split
  next he => rw [he] at h1; exact Steady.refuse h1 _
  next slot s1 he =>
    rw [he] at h1
    split
    · exact Steady.refuse h1 _
    · refine Steady.ite (Steady.refuse h1 _) (Steady.ite (Steady.refuse h1 _) ?_)
      split
      · exact Steady.ite (Steady.rewrite h1 _ _ _) (Steady.refuse h1 _)
      · exact Steady.refuse h1 _

theorem execRecordAmend_steady (p : AmendParams) (s : State) : steadyResult true s (execRecordAmend p s) :=
  steady_next ((Steady.refl s).serve _ (Steady.ite (Steady.fullRewrite (Steady.refl s) p)
    (Steady.amendFound ((Steady.refl s).quiet ((Quiet.refl s).find _)) p _)))

theorem Steady.answerNote (h : Steady b a s) (slot : Nat) : Steady b a (s.answerNote slot) :=
  (h.quiet ((Quiet.refl s).letGo _)).reply _ _

theorem Steady.note (h : Steady b a s) (slot : Nat) (text : List Byte) (r : Record) :
    Steady b a (s.note slot text r) := by
  have q := Quiet.refl s
  unfold State.note
  dsimp only
  split
  · exact Steady.ite ((h.quiet (((q.freeChain _).setChain _ _).putRecord _ _)).answerNote _)
      ((h.quiet (q.writeBlock _ _ _)).answerNote _)
  · refine Steady.ite (h.answerNote _) ?_
    split
    · exact h.refuseHolding _ _
    · exact (h.quiet ((((q.useBlock _).writeBlock _ _ _).setChain _ _).putRecord _ _)).answerNote _

theorem Steady.serveNote (h : Steady b a s) (serial : Word) (text : List Byte) :
    Steady b a (s.serveNote serial text) := by
  have hf : Steady b a (s.find serial).2 := h.quiet ((Quiet.refl s).find _)
  unfold State.serveNote
  split
  next he => rw [he] at hf; exact Steady.refuse hf _
  next he => rw [he] at hf; exact Steady.refuseHolding hf _ _
  next he => rw [he] at hf; exact Steady.refuseHolding hf _ _
  next he => rw [he] at hf; exact Steady.ite (Steady.refuseHolding hf _ _) (Steady.note hf _ _ _)

theorem execRecordNote_steady (serial : Word) (text : List Byte) (s : State) :
    steadyResult true s (execRecordNote serial text s) := by
  have h := Steady.refl (b := true) s
  exact steady_next (h.serve _ (Steady.ite (h.refuse _) (Steady.ite (h.refuse _)
    (Steady.ite (h.refuse _) (h.serveNote serial text).goOnFrame))))

theorem execRecordRetire_steady (serial : Word) (s : State) :
    steadyResult false s (execRecordRetire serial s) := by
  have h := Steady.refl (b := false) s
  refine steady_next (h.serve _ ?_)
  have hf : Steady false s (s.lookupFor serial).2 := h.quiet ((Quiet.refl s).lookupFor _)
  split
  next he => rw [he] at hf; exact Steady.refuse hf _
  next he =>
    rw [he] at hf
    exact Steady.ite (Steady.refuse hf _) (Steady.ite (Steady.refuse hf _)
      (Steady.reply (Steady.returnIfBare (Steady.quiet hf ((Quiet.refl _).retire _ _ _))) _ _))

theorem execRecordWalk_steady (start : Half) (statuses filter : Byte) (s : State) :
    steadyResult true s (execRecordWalk start statuses filter s) :=
  steady_next ((Steady.refl s).serve _ (Steady.ite ((Steady.refl s).refuse _)
    (((Steady.refl s).besideWalk ((BesideWalk.refl s).walk _ _ _ _)).reply _ _)))

theorem execSegmentDefine_steady (segment : Byte) (base limit dwell : Half) (s : State) :
    steadyResult true s (execSegmentDefine segment base limit dwell s) := by
  have h := Steady.refl (b := true) s
  refine steady_next (h.serve _ (Steady.ite (h.refuse _) ?_))
  split
  · exact h.refuse _
  · exact Steady.ite (h.refuse _) (Steady.ite (h.refuse _)
      ((h.quiet ((Quiet.refl s).define _ _ _ _)).reply _ _))

theorem Steady.left (n : Seg) (entering : Option Seg) {x : State × WalkCounts} (h : Steady b a x.1) :
    Steady b a (State.left n entering x) := by
  have h1 := h.quiet (((Quiet.refl x.1).withSegments { x.1.segments with leaving := none }).settleLeft n)
  unfold State.left
  dsimp only
  split
  · exact h1.reply _ _
  · exact (h1.quiet ((Quiet.refl _).enter _)).reply _ _

theorem Steady.settleSlot (u : Holder) (slot : Nat) {x : State × WalkCounts} (h : Steady b a x.1) :
    Steady b a (State.settleSlot u slot x).1 := h.quiet (Quiet.settleSlot u slot (Quiet.refl _))

theorem Steady.leaveFrom (h : Steady b a s) (n : Seg) (entering : Option Seg) : Steady b a (s.leaveFrom n entering) :=
  (Steady.kept b a).leaveOn (fun _ _ h => h.withCommand _) (fun _ h => Steady.left _ _ h) _
    (fun slot _ _ h => Steady.settleSlot .command slot h) (h.withSegments _)

theorem Steady.goOnLeaving (h : Steady b a s) : Steady b a s.goOnLeaving :=
  (Steady.kept b a).goOnLeaving (fun _ _ h => h.withCommand _) (fun _ _ _ h => Steady.left _ _ h)
    (fun _ slot _ _ h => Steady.settleSlot .command slot h) h

theorem execSegmentEnter_steady (segment : Byte) (s : State) :
    steadyResult true s (execSegmentEnter segment s) := by
  have h := Steady.refl (b := true) s
  refine steady_next (h.serve _ (Steady.ite (h.refuse _) ?_))
  split
  · exact h.refuse _
  · refine Steady.ite (h.refuse _) (Steady.ite (h.reply _ _) ?_)
    split
    · exact (h.quiet ((Quiet.refl s).enter _)).reply _ _
    · exact h.leaveFrom _ _

theorem execSegmentLeave_steady (s : State) : steadyResult true s (execSegmentLeave s) := by
  have h := Steady.refl (b := true) s
  refine steady_next (h.serve _ (Steady.ite (h.refuse _) ?_))
  split
  · exact h.reply _ _
  · exact h.leaveFrom _ _

theorem execSegmentStatus_steady (segment : Byte) (s : State) :
    steadyResult true s (execSegmentStatus segment s) := by
  refine steady_next ((Steady.refl s).serve _ ?_)
  split
  · exact (Steady.refl s).refuse _
  · exact (Steady.refl s).reply _ _

theorem execPlanRead_steady (s : State) : steadyResult true s (execPlanRead s) :=
  steady_next ((Steady.refl s).serve _ ((Steady.refl s).reply _ _))

theorem execPlanMove_steady (segment position : Byte) (s : State) :
    steadyResult true s (execPlanMove segment position s) := by
  have h := Steady.refl (b := true) s
  refine steady_next (h.serve _ (Steady.ite (h.refuse _) ?_))
  split
  · exact h.refuse _
  · dsimp only
    split
    · exact (h.quiet ((Quiet.refl s).putPlan _)).reply _ _
    · exact (h.quiet ((Quiet.refl s).putPlan _)).reply _ _
    · exact (h.quiet (((Quiet.refl s).putSegment _ _).putPlan _)).reply _ _
    · exact h.refuse _

theorem execTamperRead_steady (s : State) : steadyResult true s (execTamperRead s) :=
  steady_next ((Steady.refl s).serve _ ((Steady.refl s).reply _ _))

theorem execTamperAck_steady (serial : Word) (s : State) :
    steadyResult true s (execTamperAck serial s) := by
  have h := Steady.refl (b := true) s
  refine steady_next (h.serve _ ?_)
  have hf : Steady true s (s.find serial).2 := h.quiet ((Quiet.refl s).find _)
  split
  next he => rw [he] at hf; exact Steady.refuse hf _
  next he => rw [he] at hf; exact Steady.refuseHolding hf _ _
  next he => rw [he] at hf; exact Steady.refuseHolding hf _ _
  next he =>
    rw [he] at hf
    exact Steady.ite (Steady.refuseHolding hf _ _) (Steady.ite (Steady.refuseHolding hf _ _)
      (Steady.reply (Steady.quiet hf (Quiet.letGo (Quiet.ite (Quiet.refl _)
        (((Quiet.refl _).putRecord _ _).removedReport _)) _)) _ _))

theorem execCabMode_steady (mode invert : Byte) (s : State) :
    steadyResult true s (execCabMode mode invert s) := by
  refine steady_next ((Steady.refl s).serve _ ?_)
  split
  · exact (Steady.refl s).refuse _
  · exact Steady.ite ((Steady.refl s).refuse _) (((Steady.refl s).withTamper _).reply _ _)

theorem execPortMode_steady (port mode : Byte) (s : State) :
    steadyResult true s (execPortMode port mode s) := by
  refine steady_next ((Steady.refl s).serve _ ?_)
  split
  · exact ((Steady.refl s).withPorts _).reply _ _
  · exact (Steady.refl s).refuse _

theorem execPortReset_steady (port : Byte) (s : State) : steadyResult true s (execPortReset port s) := by
  refine steady_next ((Steady.refl s).serve _ ?_)
  split
  · exact ((Steady.refl s).withPorts _).executing _
  · exact (Steady.refl s).refuse _

theorem execResetPulseEnd_steady (s : State) : steadyResult true s (execResetPulseEnd s) := by
  unfold execResetPulseEnd
  split
  · exact steady_next (((Steady.refl s).withPorts _).respond _ _)
  · exact steady_next (Steady.refl s)

theorem execPortStatus_steady (s : State) : steadyResult true s (execPortStatus s) :=
  steady_next ((Steady.refl s).serve _ ((Steady.refl s).reportAll .ports))

theorem execUploadStart_steady (s : State) : steadyResult true s (execUploadStart s) := by
  have h := Steady.refl (b := true) s
  refine steady_next (h.serve _ (Steady.ite (h.refuse _) ?_))
  split
  · exact (h.withDepot _).reply _ _
  · exact (h.withDepot _).reply _ _
  · exact h.refuse _

theorem execUploadStop_steady (s : State) : steadyResult true s (execUploadStop s) := by
  refine steady_next ((Steady.refl s).serve _ (Steady.reply ?_ _ _))
  split
  · exact Steady.ite ((Steady.refl s).withDepot _) ((Steady.refl s).withDepot _)
  · exact Steady.refl s

theorem execUploadStatus_steady (s : State) : steadyResult true s (execUploadStatus s) :=
  steady_next ((Steady.refl s).serve _ ((((Steady.refl s).withDepot _).withDraws _).reply _ _))

theorem execFlush_steady (s : State) : steadyResult true s (execFlush s) :=
  steady_next ((Steady.refl s).serve _ (((Steady.refl s).quiet (Quiet.refl s).cleanLines).executing _))

theorem execFlushDrainDone_steady (s : State) : steadyResult true s (execFlushDrainDone s) := by
  unfold execFlushDrainDone
  split
  · exact steady_next ((Steady.refl s).respond _ _)
  · exact steady_next (Steady.refl s)

theorem Steady.readSelection (h : Steady b a s) (clocks : Nat) : Steady b a (s.readSelection clocks) :=
  (h.withCommand _).ite (h.withCommand _)

theorem execBadCommandBlock_steady (direction : Byte) (block : List Byte) (s : State) :
    steadyResult true s (execBadCommandBlock direction block s) :=
  have h := Steady.refl s
  steady_next (Steady.ite (h.readSelection _) (Steady.ite (h.withCommand _)
    (Steady.ite h (h.serve _ (h.refuse _)))))

theorem execCommandCollision_steady (s : State) : steadyResult true s (execCommandCollision s) :=
  steady_next (Steady.ite (Steady.refl s).collide (Steady.refl s))

theorem execResponseRead_steady (direction : Byte) (clocks : Nat) (s : State) :
    steadyResult true s (execResponseRead direction clocks s) :=
  have h := Steady.refl s
  steady_next (Steady.ite (h.readSelection _) (Steady.ite h (h.withCommand _)))

theorem execPortByte_steady (p : Fin 4) (x : Byte) (s : State) :
    steadyResult true s (execPortByte p x s) :=
  have h := (Steady.refl (b := true) s).withPorts
  steady_ite (steady_next (Steady.refl s))
    (steady_next (Steady.ite (Steady.refl s) (Steady.ite ((h _).raise _) (h _))).goOnReport)

theorem execByteGapTimeout_steady (p : Fin 4) (s : State) : steadyResult true s (execByteGapTimeout p s) :=
  steady_ite (steady_next (Steady.refl s))
    (steady_next (Steady.ite (Steady.refl s) ((Steady.refl s).withPorts _)).goOnReport)

theorem Steady.passGate (h : Steady b a s) (f : Frame) : Steady b a (s.passGate f) := by
  have h1 := h.quiet ((Quiet.refl s).resolve f.serial)
  unfold State.passGate
  split
  next hr => rw [hr] at h1; exact Steady.withMatching h1 _
  next hr => rw [hr] at h1; exact Steady.countStranger h1

theorem execFrameTake_steady (s : State) : steadyResult true s (execFrameTake s) :=
  steady_ite (steady_next (Steady.refl s)) (steady_next (Steady.ite (Steady.refl s)
    ((Steady.refl s).beside (Beside.refl s).takeFrame)).goOnReport)

theorem execFrameMatch_steady (s : State) : steadyResult true s (execFrameMatch s) :=
  steady_ite (steady_next (Steady.refl s)) (steady_next ((Steady.refl s).matchOn true).goOnReport)

theorem execWriteQueueWrite_steady (s : State) : steadyResult true s (execWriteQueueWrite s) :=
  steady_next (Steady.ite ((Steady.refl s).quiet (Quiet.refl s).writeOldest) (Steady.refl s))

theorem execRouteClockTick_steady (s : State) : steadyResult true s (execRouteClockTick s) :=
  steady_ite (steady_next (Steady.refl s)) (steady_next (Steady.ite (Steady.goOnLeaving (s := s.tenthPassed)
    ((Steady.refl s).withRoute (by exact fun _ => rfl))) (Steady.refl s)).goOnReport)

theorem execClockCheckpoint_steady (s : State) : steadyResult true s (execClockCheckpoint s) :=
  steady_next (Steady.ite (Steady.refl s).writeDue (Steady.refl s))

theorem Quiet.dwellExpired (h : Quiet a s) : Quiet a s.dwellExpired := by
  unfold State.dwellExpired
  split
  · exact h
  · refine Quiet.ite h ?_
    dsimp only
    split
    · exact ((h.putSegment _ _).raise _).setDwell _
    · exact (h.raise _).setDwell _

theorem execDwellCompareExpire_steady (s : State) : steadyResult true s (execDwellCompareExpire s) :=
  steady_next (Steady.ite (Steady.refl s) ((Steady.refl s).quiet (Quiet.refl s).dwellExpired).goOnLeaving)

theorem execPulseTimerExpire_steady (s : State) : steadyResult true s (execPulseTimerExpire s) :=
  steady_ite (steady_next ((Steady.refl s).withTamper _)) (steady_next (Steady.refl s))

theorem execPowerWarning_steady (s : State) : steadyResult true s (execPowerWarning s) := by
  have h : Steady true s s.endWork :=
    ((((((Steady.refl s).withPorts _).withMatching _).withStore _).withCommand _).withTamper _).withRoute
      (by exact fun _ => rfl) |>.withSegments _ |>.withDepot { s.depot with forming := none }
  exact steady_next (Steady.ite ((h.quiet (Quiet.refl _).writeBack).writeCheckpoint.withPower _)
    (Steady.refl s))

theorem execDockAttach_steady (s : State) : steadyResult true s (execDockAttach s) :=
  have h := (Steady.refl (b := true) s).withDepot { s.depot with dockSense := true }
  steady_next (Steady.ite (h.withDepot _) h)

theorem Steady.finishUpload (h : Steady false a s) : Steady false a s.finishUpload :=
  Steady.returnIfBare ((h.withDepot _).raise _)

theorem Quiet.changeOffered' (h : Quiet a s) (slot : Nat) (f : Record → Record) :
    Quiet a (s.changeOffered slot f).1 := h.changeOffered slot f

theorem Steady.returnBatch (h : Steady b a s) : Steady b a s.returnBatch :=
  (h.quiet ((Quiet.refl s).returnAll _)).withDepot _

theorem execDockRemoval_steady (s : State) : steadyResult true s (execDockRemoval s) := by
  have h := (Steady.refl (b := true) s).withDepot
  exact steady_next (Steady.ite (Steady.withDepot (Steady.ite (Steady.withDepot (h _) _)
    (Steady.returnBatch (Steady.withDepot (h _) _))) _) (h _))

theorem Steady.markOne {x : List (List Byte) × State} (h : Steady b a x.2) (k : Surveyed) :
    Steady b a (State.markOne x k).2 := by
  have h1 := h.quiet ((Quiet.refl _).takeLine .upload k.key.slot)
  have hg := h1.quiet ((Quiet.refl _).letGo k.key.slot)
  unfold State.markOne
  dsimp only
  split
  · exact hg
  · split
    · split
      · exact (Steady.withDepot (h1.quiet ((Quiet.refl _).putRecord _ _)) _).quiet
          (((Quiet.refl _).readExtension _ _ _).letGo _)
      · exact hg
    · exact hg

theorem Steady.surveySlot (cursor : Option Key) {x : List Surveyed × State} (h : Steady b a x.2) (slot : Nat) :
    Steady b a (State.surveySlot cursor x slot).2 := h.quiet (Quiet.surveySlot cursor (Quiet.refl _) slot)

theorem execBatchForm_steady (s : State) : steadyResult false s (execBatchForm s) :=
  steady_ite (steady_next (State.formOn_keeps (P := Steady false s) (fun _ x h => h.withDepot x)
    (fun _ n h => h.withDraws n) (fun c _ k h => Steady.surveySlot c h k) (fun _ h => h.finishUpload)
    (fun _ k h => Steady.markOne h k) ((Steady.refl s).withDepot _) _)) (steady_next (Steady.refl s))

theorem execOfferSent_steady (s : State) : steadyResult true s (execOfferSent s) :=
  steady_next (Steady.ite ((Steady.refl s).withDepot _) (Steady.refl s))

theorem Steady.judgeOne (h : Steady false a s) (accepted : Half) (e : Nat × (Nat × Word)) :
    Steady false a (State.judgeOne accepted s e) := by
  have h1 := h.quiet ((Quiet.refl s).retire .upload e.2.1 e.2.2)
  have h2 := h.quiet ((Quiet.refl s).changeOffered e.2.1 Record.refusedByDepot)
  exact Steady.ite h (Steady.ite (Steady.returnIfBare (h1.withDepot _))
    (Steady.ite (h2.withDepot _) h2))

theorem Steady.takeVerdict (h : Steady false a s) (accepted : Half) :
    Steady false a (s.takeVerdict accepted) :=
  (Steady.foldl (fun _ e h => Steady.judgeOne h accepted e) _ (h.withDepot _)).withDepot _

theorem execDepotByte_steady (x : Byte) (s : State) : steadyResult false s (execDepotByte x s) := by
  have h := Steady.refl (b := false) s
  refine steady_next ?_
  dsimp only
  split
  · exact h
  · split
    · exact Steady.ite (h.withDepot _) h
    · split
      · exact Steady.ite (h.withDepot _) (h.withDepot _)
      · split
        · exact h.withDepot _
        · split
          · exact Steady.ite ((h.withDepot _).takeVerdict _) ((h.withDepot _).withDepot _)
          · exact h.withDepot _

theorem execDepotByteGapTimeout_steady (s : State) : steadyResult true s (execDepotByteGapTimeout s) :=
  steady_next (Steady.ite ((Steady.refl s).withDepot _) (Steady.refl s))

theorem execVerdictTimeout_steady (s : State) : steadyResult true s (execVerdictTimeout s) := by
  have h := Steady.refl (b := true) s
  exact steady_next (Steady.ite h (Steady.ite ((h.returnBatch.withDepot _).raise _)
    (h.returnBatch.withDepot _)))

/-! ### Restarts and the RECOVERY scan -/

theorem State.loadRouteArea_pending (s : State) : s.loadRouteArea.pending = s.pending := by
  simp only [State.loadRouteArea, State.withSegments_pending, State.withAssessment_pending,
    State.withRoute_pending]

theorem State.restart_pending (start : StartKind) (s : State) :
    (s.restart start).pending = s.pending := by
  unfold State.restart
  dsimp only
  split
  · rw [State.withRoute_pending, State.loadRouteArea_pending]
    rfl
  · rfl

theorem State.serve_pending {during : Bool} {work : State → State}
    (hw : (work s).pending = s.pending) : (s.serve during work).pending = s.pending := by
  unfold State.serve
  split_ifs
  · rfl
  · rfl
  · rfl
  · exact hw

/-- A part reset's work, apart from the restart itself. -/
theorem Steady.secured (s : State) : Steady true s s.finishFrame.writeBack.writeCheckpoint :=
  ((Steady.refl s).finishFrame.quiet (Quiet.refl _).writeBack).writeCheckpoint

theorem execPartReset_pending {s t : State} (h : execPartReset s = .next t) : t.pending = s.pending := by
  have hs := Steady.secured s
  unfold execPartReset at h
  rw [Host.Outcome.next.injEq] at h
  rw [← h]
  refine State.serve_pending ?_
  generalize s.finishFrame.writeBack.writeCheckpoint = x at hs ⊢
  exact (State.restart_pending _ x).trans hs.pending

theorem Quiet.scanRead (h : Quiet a s) (slot : Nat) : Quiet a (s.scanRead slot).2 := by
  unfold State.scanRead
  split
  · exact h.hold _ _ _
  · dsimp only
    split
    · exact (h.evict _).hold _ _ _
    · exact (h.evict _).hold _ _ _

theorem Steady.discard (h : Steady b a s) (slot : Nat) : Steady b a (s.discard slot) :=
  Steady.withRoute (h.quiet (((Quiet.refl s).dropLine slot).enqueue _)) (by exact fun _ => rfl)

theorem Quiet.enroll (h : Quiet a s) (slot : Nat) (serial : Word) (status : Status) (segment : Option Seg) :
    Quiet a (s.enroll slot serial status segment) := ((h.withMem _).withDirectory _).report _ _

theorem Steady.recoverChain (h : Steady b a s) (slot : Nat) (r : Record) :
    Steady b a (s.recoverChain slot r) := by
  have q := fun n c => (Quiet.foldl (fun (s : State) (x : Nat × BlockKind) (h : Quiet _ s) => h.useBlock x.1)
    (s.mem.walkChain 4 s.store.usedBlocks r.firstBlock true 0).blocks (Quiet.refl s)).setChain n c
  exact Steady.ite (Steady.withRoute (h.quiet ((q _ _).cutChain _ _ _ _)) (by exact fun _ => rfl))
    (h.quiet (q _ _))

theorem Steady.keep {x : Scan} (h : Steady b a x.state) (slot : Nat) (c : Contents) :
    Steady b a (x.keep slot c).state := by
  unfold Scan.keep
  dsimp only
  split
  · exact h
  · exact h.quiet ((Quiet.ite (Quiet.refl _) ((Quiet.refl _).putContents _ _)).enroll _ _ _ _)
  · exact Steady.recoverChain (h.quiet ((Quiet.ite (Quiet.refl _)
      ((Quiet.refl _).putContents _ _)).enroll _ _ _ _)) _ _

theorem Steady.fail {x : Scan} (h : Steady b a x.state) (slot : Nat) (bs : List Byte) :
    Steady b a (x.fail slot bs).state :=
  Steady.raise (Steady.withRoute (h.quiet (((Quiet.refl _).putContents _ _).enroll _ _ _ _))
    (by exact fun _ => rfl)) _

theorem Steady.dismiss {x : Scan} (h : Steady b a x.state) (earlier : Nat) (serial : Word) :
    Steady b a (x.dismiss earlier serial).state :=
  Steady.discard (h.quiet ((((Quiet.refl _).withMem _).withDirectory _).report _ _)) _

theorem scan_steady_ite {c : Prop} [Decidable c] {x y : Scan} (hx : Steady b a x.state)
    (hy : Steady b a y.state) : Steady b a (if c then x else y).state := by split_ifs <;> assumption

theorem Steady.scanSlot {x : Scan} (h : Steady b a x.state) (slot : Nat) :
    Steady b a (x.slot slot).state := by
  have h0 := h.quiet ((Quiet.refl x.state).scanRead slot)
  unfold Scan.slot
  dsimp only
  generalize x.state.scanRead slot = read at h0 ⊢
  have h2 : Steady b a read.2.countOccupied := Steady.withRoute h0 (by exact fun _ => rfl)
  have settle : ∀ y : Scan, Steady b a y.state → Steady b a (if read.1.good = true then
      y.keep slot (Contents.ofBytes read.1.bytes) else y.fail slot read.1.bytes).state := by
    intro y hy
    split_ifs
    · exact hy.keep _ _
    · exact hy.fail _ _
  refine Steady.quiet (scan_steady_ite (x := ⟨read.2, x.failed, x.flagged⟩) h0
    (scan_steady_ite (x := ⟨_, x.failed, x.flagged⟩) (h2.discard _) ?_)) ((Quiet.refl _).letGo slot)
  split
  · exact settle ⟨_, _, _⟩ h2
  next earlier _ =>
    exact scan_steady_ite (settle _ (Steady.dismiss (x := ⟨_, x.failed, x.flagged⟩) h2 earlier _))
      (y := ⟨_, x.failed, x.flagged⟩) (h2.discard _)

theorem Steady.beginRecovery (h : Steady false a s) : Steady false a s.beginRecovery := by
  have h1 : Steady false a s.loadRouteArea :=
    ((h.withRoute (by intro hb; cases hb)).withAssessment _).withSegments _
  exact Steady.withRoute (((((h1.withMem _).withMatching _).withDirectory _).withStore _).withTamper _)
    (by exact fun _ => rfl)

theorem Steady.leaveRecorded (h : Steady b a s) (n : Seg) : Steady b a (s.leaveRecorded n) :=
  Steady.foldl (fun _ _ h => Steady.withRoute h (by exact fun _ => rfl)) _
    (h.quiet ((Quiet.refl s).leave .scan n))

theorem Steady.leaveActive (h : Steady b a s) : Steady b a s.leaveActive :=
  Steady.quiet (Steady.ite (Steady.foldl (fun _ n h => Steady.leaveRecorded h n) _ h) h)
    ((Quiet.refl _).putActive _)

theorem Quiet.settleRecovered (h : Quiet a s) (n : Seg) : Quiet a (s.settleRecovered n) := by
  unfold State.settleRecovered
  dsimp only
  split
  · exact Quiet.ite (h.complete n) h
  · exact Quiet.ite (h.complete n) h
  · exact Quiet.ite (h.complete n) h
  · exact Quiet.ite (h.reopen n) h
  · exact h

theorem Quiet.settleAll (h : Quiet a s) : Quiet a s.settleAll :=
  Quiet.ite (Quiet.foldl (fun _ n h => Quiet.settleRecovered h n) _ h) h

theorem Quiet.agreePlan (h : Quiet a s) : Quiet a s.agreePlan := h.putPlan _

theorem Steady.scanSlots (l : List Nat) {x : Scan} (h : Steady b a x.state) :
    Steady b a (l.foldl Scan.slot x).state := by
  induction l generalizing x with
  | nil => exact h
  | cons n l ih => exact ih (h.scanSlot n)

/-- The end of the scan: the segments settled, SCANNING cleared, SCAN_DONE raised. -/
theorem Steady.settleScan (h : Steady b a s) :
    Steady b a ((s.agreePlan.leaveActive.settleAll.withRoute
      { s.agreePlan.leaveActive.settleAll.route with scanning := none }).raise .scanDone) := by
  have h1 : Steady b a s.agreePlan := h.quiet (Quiet.refl s).agreePlan
  have h2 := h1.leaveActive
  generalize s.agreePlan.leaveActive = x at h2 ⊢
  have h3 : Steady b a x.settleAll := h2.quiet (Quiet.refl x).settleAll
  generalize x.settleAll = y at h3 ⊢
  exact (h3.withRoute (x := { y.route with scanning := none }) (fun _ => rfl)).raise _

theorem Steady.recover (s : State) : Steady false s s.recover := by
  have h1 : Steady false s ((List.range Config.slots).foldl Scan.slot ⟨s.beginRecovery, [], []⟩).state :=
    Steady.scanSlots _ (Steady.refl s).beginRecovery
  unfold State.recover
  generalize (List.range Config.slots).foldl Scan.slot ⟨s.beginRecovery, [], []⟩ = x at h1 ⊢
  exact (h1.withTamper { x.state.tamper with entries := x.flagged.take Config.tamperEntries }).settleScan

theorem execRecoveryScan_steady (s : State) : steadyResult false s (execRecoveryScan s) :=
  steady_next ((Steady.recover s).ite (Steady.refl s))

end Sys2Proof.Machine
end

