-- ==== Sys2Proof/Laws/Walking.lean ====
section
/-! SUPPORT. While a walk is on the active segment, nothing makes it active no longer: completion is not applied to a
segment under a leave walk (R118), and a completion of another one leaves the active number alone. -/

namespace Sys2Proof.Machine

variable {g : Seg} {s t : State}

/-- A leave walk is on segment `g`, and it is the active one. -/
structure Walking (g : Seg) (s : State) : Prop where
  leaving : s.segments.leaving = some g
  active : s.segments.active = some g

/-- Work that leaves the segment unit's walk and active number alone. -/
theorem Walking.of (h : Walking g s) (h1 : t.segments.leaving = s.segments.leaving)
    (h2 : t.segments.active = s.segments.active) : Walking g t := ⟨h1.trans h.1, h2.trans h.2⟩

theorem Walking.ite {c : Prop} [Decidable c] {x y : State} (hx : Walking g x) (hy : Walking g y) :
    Walking g (if c then x else y) := by split_ifs <;> assumption

/-! ### The segment unit -/

theorem Walking.putSegment (h : Walking g s) (k : Seg) (e : Segment) : Walking g (s.putSegment k e) :=
  Walking.ite ⟨h.1, h.2⟩ ⟨h.1, h.2⟩

theorem Walking.putPlan (h : Walking g s) (plan : List Seg) : Walking g (s.putPlan plan) :=
  Walking.ite h ⟨h.1, h.2⟩

theorem Walking.countAt (h : Walking g s) (p : Option Place) (f : Nat → Nat) : Walking g (s.countAt p f) := by
  unfold State.countAt
  split
  · exact h.putSegment _ _
  · exact h

theorem Walking.complete (h : Walking g s) (k : Seg) : Walking g (s.complete k) := by
  unfold State.complete
  dsimp only
  split_ifs with h1 h2 h3
  · exact h
  · exact h
  · have hw := (h.putSegment k { s.segment k with state := .complete }).putPlan (planWithout s.segments.plan k)
    exact absurd (h.1.trans (hw.2.symm.trans h3)) h1
  · have hw := (h.putSegment k { s.segment k with state := .complete }).putPlan (planWithout s.segments.plan k)
    exact ⟨hw.1, hw.2⟩

theorem Walking.reopen (h : Walking g s) (k : Seg) : Walking g (s.reopen k) := by
  refine Walking.ite ?_ h
  split
  · exact (h.putSegment _ _).putPlan _
  · exact h.putSegment _ _
  · exact h

theorem Walking.judge (h : Walking g s) (k : Option Seg) (before : Nat) : Walking g (s.judge k before) := by
  unfold State.judge
  split
  · exact h
  · exact Walking.ite (h.complete _) (Walking.ite (h.reopen _) h)

theorem Walking.report (h : Walking g s) (old new : Option Place) : Walking g (s.report old new) := by
  have h1 := (h.countAt old (· - 1)).countAt new (· + 1)
  exact Walking.ite h1 ((h1.judge _ _).judge _ _)

/-! ### Updates of one block -/

theorem Walking.withMem (h : Walking g s) (x : Memory) : Walking g (s.withMem x) := h.of rfl rfl
theorem Walking.withStore (h : Walking g s) (x : Store) : Walking g (s.withStore x) := h.of rfl rfl
theorem Walking.withDirectory (h : Walking g s) (x : Directory) : Walking g (s.withDirectory x) := h.of rfl rfl
theorem Walking.withTamper (h : Walking g s) (x : Tamper) : Walking g (s.withTamper x) := h.of rfl rfl
theorem Walking.withMatching (h : Walking g s) (x : Matching) : Walking g (s.withMatching x) := h.of rfl rfl
theorem Walking.withDraws (h : Walking g s) (x : Nat) : Walking g (s.withDraws x) := h.of rfl rfl
theorem Walking.raise (h : Walking g s) (e : Event) : Walking g (s.raise e) := h.of rfl rfl

/-! ### The tamper queue -/

theorem Walking.inserted (h : Walking g s) : Walking g s.inserted :=
  (h.withTamper _).raise _

theorem Walking.placeInQueue (h : Walking g s) (x : TamperEntry) : Walking g (s.placeInQueue x) := by
  unfold State.placeInQueue
  split
  · exact Walking.inserted (h.withTamper _)
  · split
    · exact h
    · split
      · exact Walking.inserted (h.withTamper _)
      · exact h.withTamper _

theorem Walking.removedReport (h : Walking g s) (slot : Nat) : Walking g (s.removedReport slot) :=
  h.withTamper _

theorem Walking.flaggedReport (h : Walking g s) (slot : Nat) (r : Record) :
    Walking g (s.flaggedReport slot r) := (h.removedReport slot).placeInQueue _

theorem Walking.risenReport (h : Walking g s) (slot : Nat) (r : Record) : Walking g (s.risenReport slot r) := by
  unfold State.risenReport
  split
  · exact h.withTamper _
  · exact h.placeInQueue _

/-! ### The write queue and the lines -/

theorem Walking.writeOldest (h : Walking g s) : Walking g s.writeOldest := by
  unfold State.writeOldest
  split
  · exact h
  · exact ⟨h.1, h.2⟩

theorem Walking.enqueue (h : Walking g s) (q : Queued) : Walking g (s.enqueue q) := by
  unfold State.enqueue
  dsimp only
  split
  · exact h.withStore _
  · exact h.writeOldest.withStore _

theorem Walking.drain (h : Walking g s) (n : Nat) : Walking g (State.drain n s) := by
  induction n generalizing s with
  | zero => exact h
  | succ n ih => exact ih h.writeOldest

theorem Walking.setLine (h : Walking g s) (i : Fin 8) (l : Line) : Walking g (s.setLine i l) := h.withStore _

theorem Walking.hold (h : Walking g s) (u : Holder) (i : Fin 8) (b : Option Cached) :
    Walking g (s.hold u i b) := h.withStore _

theorem Walking.putContents (h : Walking g s) (slot : Nat) (c : Contents) : Walking g (s.putContents slot c) := by
  unfold State.putContents
  split
  · exact h.setLine _ _
  · exact h

theorem Walking.letGo (h : Walking g s) (slot : Nat) : Walking g (s.letGo slot) := by
  unfold State.letGo
  split
  · exact h.setLine _ _
  · exact h

theorem Walking.dropLine (h : Walking g s) (slot : Nat) : Walking g (s.dropLine slot) := by
  unfold State.dropLine
  split
  · exact h.setLine _ _
  · exact h

theorem Walking.grants (h : Walking g s) (u : Holder) (n : Nat) : Walking g (s.grants u n) := by
  unfold State.grants
  split
  · exact h
  · exact Walking.ite h (Walking.drain (h.withStore _) _)

theorem Walking.grant (h : Walking g s) (u : Holder) : Walking g (s.grant u) := h.grants u 1

theorem Walking.evict (h : Walking g s) (i : Fin 8) : Walking g (s.evict i) := by
  unfold State.evict
  split
  · exact Walking.ite (h.enqueue _) h
  · exact h

theorem Walking.setChain (h : Walking g s) (slot : Nat) (chain : List (Nat × BlockKind)) :
    Walking g (s.setChain slot chain) := by
  unfold State.setChain
  split
  · exact h.withDirectory _
  · exact h

theorem Walking.useBlock (h : Walking g s) (n : Nat) : Walking g (s.useBlock n) := h.withStore _

theorem Walking.freeChain (h : Walking g s) (chain : List (Nat × BlockKind)) : Walking g (s.freeChain chain) :=
  h.withStore _

theorem Walking.forget (h : Walking g s) (slot : Nat) : Walking g (s.forget slot) := h.withMatching _

theorem Walking.becomeFault (h : Walking g s) (slot : Nat) : Walking g (s.becomeFault slot) := by
  unfold State.becomeFault
  split
  · exact h
  · exact ((Walking.withDirectory ((((h.putContents _ _).freeChain _).removedReport _).forget _) _).report
      _ _).raise _

theorem Walking.takeLine (h : Walking g s) (u : Holder) (slot : Nat) : Walking g (s.takeLine u slot).1 := by
  unfold State.takeLine
  split
  · exact h.hold _ _ _
  · dsimp only
    split
    · exact (h.evict _).hold _ _ _
    · split
      · exact ((h.evict _).grant _).hold _ _ _
      · exact (((h.evict _).grant _).hold _ _ _).becomeFault _

/-! ### Records -/

theorem Walking.fileRecord (h : Walking g s) (slot : Nat) (r : Record) : Walking g (s.fileRecord slot r) := by
  unfold State.fileRecord
  split
  · exact h
  · exact (h.withDirectory _).report _ _

theorem Walking.putRecord (h : Walking g s) (slot : Nat) (r : Record) : Walking g (s.putRecord slot r) :=
  (h.putContents _ _).fileRecord _ _

theorem Walking.writeBlock (h : Walking g s) (u : Holder) (n : Nat) (b : Block) :
    Walking g (s.writeBlock u n b) := (h.withMem _).grant u

theorem Walking.relink (h : Walking g s) (u : Holder) (n : Nat) (next : Half) :
    Walking g (s.relink u n next) := (h.withMem _).grant u

theorem Walking.cutChain (h : Walking g s) (u : Holder) (slot : Nat) (r : Record) (kept : Nat) :
    Walking g (s.cutChain u slot r kept) := by
  unfold State.cutChain
  dsimp only
  split
  · exact (((h.freeChain _).setChain _ _).relink _ _ _).putRecord _ _
  · exact ((h.freeChain _).setChain _ _).putRecord _ _

theorem Walking.readExtension (h : Walking g s) (u : Holder) (slot : Nat) (r : Record) :
    Walking g (s.readExtension u slot r).1 := by
  have h1 := h.grants u
  exact Walking.ite ((h1 _).cutChain _ _ _ _) (h1 _)

/-! ### Walks and frames -/

theorem Walking.settleSlot (u : Holder) (slot : Nat) {x : State × WalkCounts} (h : Walking g x.1) :
    Walking g (State.settleSlot u slot x).1 := by
  have h1 := h.takeLine u slot
  unfold State.settleSlot
  dsimp only
  split
  · exact h1.letGo _
  · split
    · split
      · exact (h1.putRecord _ _).letGo _
      · exact ((h1.putRecord _ _).flaggedReport _ _).letGo _
      · exact h1.letGo _
    · exact h1.letGo _

theorem Walking.keepEntry (h : Walking g s) (e : MatchEntry) : Walking g (s.keepEntry e) := h.withMatching _

theorem Walking.resolveByIndex (h : Walking g s) (serial : Word) : Walking g (s.resolveByIndex serial).2 := by
  unfold State.resolveByIndex
  dsimp only
  split
  · exact (h.grants _ _).keepEntry _
  · exact h.grants .matching _

theorem Walking.resolve (h : Walking g s) (serial : Word) : Walking g (s.resolve serial).2 := by
  unfold State.resolve
  split
  · exact h.keepEntry _
  · exact h.resolveByIndex _

theorem Walking.noteReading (h : Walking g s) (slot : Nat) (f : Frame) : Walking g (s.noteReading slot f) :=
  h.withMatching _

theorem Walking.reportFrame (h : Walking g s) (slot : Nat) (old new : Record) :
    Walking g (s.reportFrame slot old new) :=
  Walking.ite (Walking.ite (h.flaggedReport _ _) (Walking.ite (h.risenReport _ _) h)) h

theorem Walking.writeIntervals (h : Walking g s) (u : Holder) (bs : List Nat) (values : List Half) :
    Walking g (State.writeIntervals u bs values s) := by
  induction bs generalizing s values with
  | nil => exact h
  | cons b bs ih => exact ih (h.writeBlock _ _ _) _

theorem Walking.freeIntervals (h : Walking g s) (slot : Nat) : Walking g (s.freeIntervals slot) :=
  (h.freeChain _).setChain _ _

theorem Walking.chainBlock (h : Walking g s) (slot b : Nat) : Walking g (s.chainBlock slot b) :=
  (h.useBlock _).setChain _ _

theorem Walking.storeIntervals (h : Walking g s) (u : Holder) (slot : Nat) (values : List Half)
    (r : Record) : Walking g (s.storeIntervals u slot values r) := by
  have h2 := h.writeIntervals u (((s.chain slot).filter fun b => b.2 == .interval).map (·.1)) values
  unfold State.storeIntervals
  dsimp only
  split_ifs
  · refine Walking.raise (Walking.putRecord ?_ _ _) _
    split
    · exact h2
    · exact h2.relink _ _ _
  · refine Walking.putRecord ?_ _ _
    split
    · exact h2
    · exact h2.relink _ _ _

theorem Walking.passGate (h : Walking g s) (f : Frame) : Walking g (s.passGate f) := by
  have hr := h.resolve f.serial
  unfold State.passGate
  split
  next he => rw [he] at hr; exact hr.withMatching _
  next he => rw [he] at hr; exact Walking.withMatching hr _

theorem Walking.takeFrame (h : Walking g s) : Walking g s.takeFrame := by
  unfold State.takeFrame
  split
  · exact h
  next p _ =>
    split
    · exact h
    next f rest hb =>
      have h1 : Walking g (s.takeHead p rest) := h.of rfl rfl
      exact (h1.passGate f).ite (h1.withMatching _)

theorem Walking.endFrame (h : Walking g s) (f : Frame) (slot : Nat) (applied duplicate : Bool) :
    Walking g (s.endFrame f slot applied duplicate) :=
  ((Walking.ite (h.noteReading slot f) h).letGo slot).withMatching _

theorem Walking.replaceOn (h : Walking g s) (met : Bool) (f : Frame) (slot : Nat) (r : Record) (n : Nat) :
    Walking g (State.replaceOn met f slot r n s) :=
  State.replaceOn_keeps (fun _ n h => h.withDraws n) (fun _ h => h.withMatching _)
    (fun _ b _ h => h.chainBlock slot b)
    (fun _ h => (h.storeIntervals .matching slot f.intervals r).endFrame f slot true false) h met n

theorem Walking.applyFrame (h : Walking g s) (met : Bool) (f : Frame) (slot : Nat) (r : Record) :
    Walking g (s.applyFrame met f slot r) := by
  unfold State.applyFrame
  dsimp only
  generalize r.matchFrame s.params (s.assessment.getD Assessment.blank) (s.matchEntry f.serial) f = m
  have h1 := (h.putRecord slot m.record).reportFrame slot r m.record
  exact Walking.ite ((h1.freeIntervals slot).replaceOn _ _ _ _ _) (h1.endFrame _ _ _ _)

theorem Walking.workFrame (h : Walking g s) (met : Bool) (f : Frame) (slot : Nat) : Walking g (s.workFrame met f slot) := by
  unfold State.workFrame
  split
  · exact h.applyFrame _ _ _ _
  · exact ((h.forget slot).letGo slot).withMatching _

theorem Walking.goOnReplacing (h : Walking g s) (met : Bool) (f : Frame) (slot : Nat) :
    Walking g (s.goOnReplacing met f slot) := by
  unfold State.goOnReplacing
  dsimp only
  split
  · exact h.replaceOn _ _ _ _ _
  · exact h.endFrame _ _ _ _

theorem Walking.matchOn (h : Walking g s) (met : Bool) : Walking g (s.matchOn met) := by
  unfold State.matchOn
  split
  · exact h
  · exact h.goOnReplacing _ _ _
  next f slot _ =>
    have h1 := h.takeLine .matching slot
    refine Walking.ite (h1.workFrame _ _ _) ?_
    have h2 := (h1.letGo slot).resolveByIndex f.serial
    split
    next hr => rw [hr] at h2; exact Walking.withMatching h2 _
    next hr =>
      rw [hr] at h2
      have h3 := Walking.takeLine h2 .matching (by assumption)
      exact (h3.workFrame _ _ _).ite ((h3.letGo _).withMatching _)

theorem Walking.finishFrame (h : Walking g s) : Walking g s.finishFrame := h.matchOn false

theorem Walking.engineStep (h : Walking g s) : Walking g s.engineStep := h.finishFrame.ite h.takeFrame

/-! ### The upload engine, and both engines beside a walk -/

theorem Walking.withDepot (h : Walking g s) (x : Depot) : Walking g (s.withDepot x) := h.of rfl rfl

theorem Walking.surveySlot (cursor : Option Key) {x : List Surveyed × State} (h : Walking g x.2) (slot : Nat) :
    Walking g (State.surveySlot cursor x slot).2 := (h.takeLine .upload slot).letGo slot

theorem Walking.markAndPack {x : List (List Byte) × State} (h : Walking g x.2) (slot : Nat) (r : Record) :
    Walking g (State.markAndPack slot r x).2 := by
  unfold State.markAndPack
  dsimp only
  exact (((h.putRecord _ _).withDepot _).readExtension _ _ _).letGo _

theorem Walking.markOne {x : List (List Byte) × State} (h : Walking g x.2) (k : Surveyed) :
    Walking g (State.markOne x k).2 := by
  have h1 := h.takeLine .upload k.key.slot
  have hg := h1.letGo k.key.slot
  unfold State.markOne
  dsimp only
  split
  · exact hg
  · split
    · split
      · exact Walking.markAndPack (x := (x.1, (x.2.takeLine .upload k.key.slot).1)) h1 _ _
      · exact hg
    · exact hg

/-- The engines' work beside a walk. -/
theorem Walking.kept (g : Seg) : KeptBeside (Walking g) where
  draws _ _ h := h.withDraws _
  engine _ h := h.engineStep
  upload _ h := State.uploadStep_keeps (fun _ _ h => h.withDepot _) (fun c _ k h => Walking.surveySlot c h k)
    (fun _ k h => Walking.markOne h k) h

theorem Walking.visitBeside {α : Type} (slot : Nat) {visit : State × α → State × α} {x : State × α}
    (hv : ∀ x, Walking g x.1 → Walking g (visit x).1) (h : Walking g x.1) :
    Walking g (State.visitBeside slot visit x).1 :=
  (Walking.kept g).visitBeside hv h

theorem Walking.visits (slots : List Nat) {x : State × WalkCounts} (h : Walking g x.1) :
    Walking g (slots.foldl (fun x slot => State.visitBeside slot (State.settleSlot .command slot) x) x).1 := by
  induction slots generalizing x with
  | nil => exact h
  | cons slot slots ih => exact ih (Walking.visitBeside slot (fun _ h => Walking.settleSlot .command slot h) h)

/-- The active segment is still active when the walk on it is over (R118, R123). -/
theorem State.drivenWalk_active (h : s.segments.active = some g) : (s.drivenWalk g).1.segments.active = some g :=
  ((Walking.kept g).beside
    (Walking.visits (s.slotsOf g) (x := (s.withSegments { s.segments with leaving := some g }, WalkCounts.none))
      ⟨rfl, h⟩)).active

/-! ### A walk that no row of time meets -/

theorem State.tenthWaits_of {t : State} (h : t.pending = s.pending) : t.tenthWaits = s.tenthWaits := by
  unfold State.tenthWaits
  rw [h]

/-- With no row of time at the front of the queue, a leave walk is its visits, and then the segment is left. -/
theorem State.leaveOn_whole (n : Seg) (entering : Option Seg) (slots : List Nat) (x : State × WalkCounts)
    (h : x.1.tenthWaits = false) :
    State.leaveOn n entering slots x =
      let y := slots.foldl (fun x slot => State.visitBeside slot (State.settleSlot .command slot) x) x
      State.left n entering (y.1.beside, y.2) := by
  have hm : ∀ s : State, s.tenthWaits = false → s.tenthMeets = (false, s) := fun s hs => by
    unfold State.tenthMeets; rw [hs]; rfl
  induction slots generalizing x with
  | nil => rw [State.leaveOn, hm x.1 h]; rfl
  | cons slot slots ih =>
    rw [State.leaveOn, hm x.1 h]
    refine ih _ ?_
    rw [← h]
    exact State.tenthWaits_of ((BesideWalk.kept x.1).visitBeside (slot := slot) (x := x)
      (fun _ h => h.settleSlot .command slot) (BesideWalk.refl x.1)).beside.quiet.pending

/-- With no row of time at the front of the queue, a segment is left when its walk is over. -/
theorem State.leaveFrom_whole (n : Seg) (entering : Option Seg) (h : s.tenthWaits = false) :
    s.leaveFrom n entering = State.left n entering (s.drivenWalk n) :=
  State.leaveOn_whole n entering (s.slotsOf n) _ h

end Sys2Proof.Machine
end

