-- ==== Sys2Proof/Tests/Slice0.lean ====
section
/-! SUPPORT. Tests: ill-formed commands refused, blocks written out from the spec's layouts, the spec's worked
cases, small tests of the commands, and a witness for the hypotheses of every statement. -/

namespace Sys2Proof.Tests

set_option Elab.async false

open Machine

/-! ### Well-formedness: one ill-formed term for each check -/

theorem test_note_too_long : (Instr.recordNote 5 (zeros 58)).wellFormed = false := by decide
theorem test_note_longest : (Instr.recordNote 5 (zeros 57)).wellFormed = true := by decide
theorem test_bad_block_is_a_read : (Instr.badCommandBlock 0xA5 []).wellFormed = false := by decide
theorem test_bad_block_is_good : (Instr.badCommandBlock 0x5A [0x72, 0]).wellFormed = false := by decide
theorem test_bad_block_is_bad : (Instr.badCommandBlock 0x5A [0x72]).wellFormed = true := by decide
theorem test_read_is_a_write : (Instr.responseRead 0x5A 2).wellFormed = false := by decide
theorem test_loss_of_no_block :
    (Instr.powerLoss (.cutBlockWrite 4096 (zeros 32) 0)).wellFormed = false := by decide
theorem test_loss_of_part_of_a_block :
    (Instr.powerLoss (.cutBlockWrite 4095 (zeros 31) 0)).wellFormed = false := by decide
theorem test_loss_of_no_item :
    (Instr.powerLoss (.cutItemWrite 69 (zeros 9) 0)).wellFormed = false := by decide
theorem test_loss_of_part_of_an_item :
    (Instr.powerLoss (.cutItemWrite 68 (zeros 8) 0)).wellFormed = false := by decide
theorem test_loss_outside_memory :
    (Instr.powerLoss (.backupLost [(0x100000, 1)])).wellFormed = false := by decide
theorem test_loss_inside_memory :
    (Instr.powerLoss (.backupLost [(0xFFFFF, 1)])).wellFormed = true := by decide

/-! ### Blocks written out from R172 and R173, one for each family of command codes -/

theorem test_block_route_status : decodeBlock [0x14, 0] = some .routeStatus := by decide
theorem test_block_record_load :
    decodeBlock [0x20, 19, 0, 0, 0, 5, 0, 16, 1, 5, 0, 1, 0x86, 0x1E, 0, 70, 0, 40, 0, 1, 9] =
      some (.recordLoad ⟨5, 16, 1, 5, 99870, 70, 40, 0, ⟨1, 9⟩⟩) := by decide
theorem test_block_record_note :
    decodeBlock [0x23, 7, 0, 0, 0, 5, 2, 0x48, 0x69] = some (.recordNote 5 [0x48, 0x69]) := by decide
theorem test_block_record_walk :
    decodeBlock [0x25, 4, 0x1F, 0xFF, 0x3F, 0xFE] = some (.recordWalk 8191 0x3F 0xFE) := by decide
theorem test_block_segment_define :
    decodeBlock [0x30, 7, 63, 0x0F, 0xFF, 0, 1, 0, 2] = some (.segmentDefine 63 4095 1 2) := by decide
theorem test_block_tamper_ack : decodeBlock [0x41, 4, 1, 2, 3, 4] = some (.tamperAck 0x01020304) := by decide
theorem test_block_port_mode : decodeBlock [0x50, 2, 3, 2, 0xFF] = some (.portMode 3 2) := by decide
theorem test_block_upload_stop : decodeBlock [0x61, 0] = some .uploadStop := by decide
theorem test_block_events_enable : decodeBlock [0x71, 2, 0x02, 0x01] = some (.eventsEnable 0x0201) := by decide
theorem test_block_unknown_code : decodeBlock [0x74, 0] = none := by decide
theorem test_block_cut_short : decodeBlock [0x41, 4, 1, 2, 3] = none := by decide
theorem test_block_wrong_length : decodeBlock [0x42, 3, 1, 2, 3] = none := by decide

/-! ### Worked cases of the spec -/

/-- The header of the worked cases, with the defaults of R134. -/
def header : Header where
  identity := 7
  van := 1
  date := 100
  weightMagnet := 120
  weightCover := 90
  weightReverse := 60
  weightRegress := 100
  weightLow := 40
  weightStopped := 70
  weightRepower := 80
  weightIdentity := 50
  hold := 60
  flag := 150
  backstep := 10
  lowRatio := 16
  rollover := 256
  stopDays := 14
  duplicateWindow := 50
  confirmGap := 20
  tolerance := 5
  redriveGap := 2
  redriveLimit := 2
  verdictTimeout := 30

/-- The parameters of a load of the rollover case's meter. -/
def loadParams : LoadParams := ⟨5, 16, 1, 5, 99870, 70, 40, 0, ⟨1, 9⟩⟩

/-- That meter's record, in segment 1. -/
def meter : Record := Record.fresh loadParams .water (some 1) .pending

/-- A frame for it by radio on port 0 at 5,440. -/
def frame (reading : Word) : Frame := ⟨5, some .water, reading, 0, 9, [], 0x50, 5440, 0, false⟩

/-- The chapter's rollover case: READ with 130, delta 260, ROLLOVER, no evidence. -/
theorem test_rollover_case :
    let r := (meter.matchFrame header header.assessment none (frame 130)).record
    r.status = .read ∧ r.current = some ⟨130, 260, .rollover, 5440, 0, false⟩ ∧
    r.evidence = Evidence.empty ∧ r.score = 0 := by decide

/-- The chapter's low use case: 18 FORWARD, LOW, score 40, READ. -/
theorem test_low_use_case :
    let r := { meter with dials := 6, previous := 4512, rate := 96, previousDay := 72 }
    let r' := (r.matchFrame header header.assessment none (frame 4530)).record
    r'.status = .read ∧ r'.current = some ⟨4530, 18, .forward, 5440, 0, false⟩ ∧
    r'.evidence = { Evidence.empty with low := true } ∧ r'.score = 40 := by decide

/-- The chapter's regression case: REGRESS, delta 0, score 100, HELD. -/
theorem test_regression_case :
    let r' := ({ meter with rate := 4 }.matchFrame header header.assessment none (frame 130)).record
    r'.status = .held ∧ r'.candidate = some ⟨130, 0, .regress, 5440, 0, false⟩ ∧ r'.score = 100 := by decide

/-- The record memory chapter's example of a gap closed, with serials of home buckets 100, 100, 101, 102. -/
theorem test_gap_closed :
    let m := ((((Memory.insertSerial [] 978321408 1).insertSerial 3890121211 2).insertSerial 1169686528
      4).insertSerial 1074003968 3).deleteSerial 3890121211
    m.entrySerial 101 = 1074003968 ∧ m.entrySlot 101 = 3 ∧ m.entrySerial 102 = 1169686528 ∧
    m.entrySerial 103 = 0 ∧ m.lookup 3890121211 = none ∧ m.lookup 1074003968 = some 3 := by decide

/-- A frame of serial 5 with reading 130, its check code computed by hand from R175. -/
def frameBytes : List Byte := [0xA6, 17, 0, 0, 0, 5, 1, 0, 0, 0, 130, 0, 9, 0, 0xC1, 0x0C, 0x50]

set_option maxRecDepth 8000 in
theorem test_frame_is_good : frameGood frameBytes = true := by decide
set_option maxRecDepth 8000 in
theorem test_damaged_frame_is_not : frameGood (frameBytes.set 12 8) = false := by decide
theorem test_frame_fields :
    { Frame.ofBytes frameBytes 5440 0 false with arrival := 5440 } = frame 130 := by decide

/-! ### Small states -/

/-- The header command that asks for every default. -/
def headerParams : HeaderParams where
  identity := ⟨1, 7⟩
  van := ⟨1, 1⟩
  date := ⟨1, 100⟩
  weightMagnet := ⟨0, 0⟩
  weightCover := ⟨0, 0⟩
  weightReverse := ⟨0, 0⟩
  weightRegress := ⟨0, 0⟩
  weightLow := ⟨0, 0⟩
  weightStopped := ⟨0, 0⟩
  weightRepower := ⟨0, 0⟩
  weightIdentity := ⟨0, 0⟩
  hold := ⟨0, 0⟩
  flag := ⟨0, 0⟩
  backstep := ⟨0, 0⟩
  lowRatio := ⟨0, 0⟩
  rollover := ⟨0, 0⟩
  stopDays := ⟨0, 0⟩
  duplicateWindow := ⟨0, 0⟩
  confirmGap := ⟨0, 0⟩
  tolerance := ⟨0, 0⟩
  redriveGap := ⟨0, 0⟩
  redriveLimit := ⟨0, 0⟩
  verdictTimeout := ⟨0, 0⟩

/-- A street whose window holds the meter's sequence, with that one record outstanding. -/
def street (state : SegState) : Segment :=
  { Segment.reset with base := 1, limit := 1, dwell := 1, state := state, members := 1, outstanding := 1 }

/-- Segment 1 is that street, in the plan when it is UNVISITED. -/
def streets (state : SegState) : Segments :=
  { Segments.reset with
    entries := Segments.reset.entries.set 1 (street state)
    plan := if state = .unvisited then [1] else []
    active := if state = .active then some 1 else none
    dwellTarget := if state = .active then some 1 else none }

/-- Whether a record has the batch field. -/
def batched : Contents → Bool
  | .live r => r.batch.isSome
  | _ => false

/-- A route in a state, with one slot that holds `c`, DIRTY in a line that no unit holds. -/
def route (state : RouteState) (street : SegState) (c : Contents) (status : Status)
    (chain : List (Nat × BlockKind)) : State :=
  ((((((State.reset.takeLineFresh .command 0 c).letGo 0).withMem (Memory.insertSerial [] 5 0)).withDirectory
    [(0, ⟨status, some 1, chain, batched c⟩)]).withSegments (streets street)).withRoute
      { Route.reset with state := state, header := some header }).withAssessment (some header.assessment)

/-- The route with the meter's record `r`. -/
def day (state : RouteState) (street : SegState) (r : Record) : State :=
  route state street (.live r) (.live r.status) []

theorem route_ok (state : RouteState) (x : SegState) (c : Contents) (status : Status)
    {chain : List (Nat × BlockKind)} (hc : ∀ b ∈ chain, b.1 < 4096) : (route state x c status chain).Ok := by
  have h1 : SegmentsOk (streets x) :=
    ⟨(SegmentsOk.set SegmentsOk.reset 1 (e := street x) (Nat.zero_le 7)).redrives, by
      simp only [streets]; split <;> simp⟩
  have h2 : DirectoryOk [(0, ⟨status, some 1, chain, batched c⟩)] :=
    DirectoryOk.nil.set (by decide) (x := ⟨status, some 1, chain, batched c⟩) hc
  exact (((((State.reset_ok.takeLineFresh _ _ _).letGo 0).withMem (by decide)).withDirectory h2).withSegments
    h1).withRoute _ |>.withAssessment _

theorem route_sound (state : RouteState) (x : SegState) {c : Contents} (hc : c.Sound) (status : Status)
    (chain : List (Nat × BlockKind)) : (route state x c status chain).Sound := by
  have h1 : (State.reset.takeLineFresh .command 0 c).Fine :=
    State.Fine.takeLineFresh ⟨State.reset_ok, State.reset_sound⟩ _ (by decide) hc
  have key : ∀ s : State, s.Fine → s.mem = [] → (s.withMem (Memory.insertSerial [] 5 0)).Sound :=
    fun s h hm => h.sound.still h.ok.mem ((Still.refl s).withMem fun m0 h0 => by
      rw [hm] at h0; exact h0.insertSerial 5 0)
  have listed : ∀ (s : State) d, s.Sound → (s.withDirectory d).Sound :=
    fun _ _ h => ⟨h.lines, h.dirty, h.queue, h.stored, h.clean⟩
  exact (((listed _ _ (key _ (h1.letGo 0) rfl)).withSegments _).withRoute _).withAssessment _

theorem route_serving (state : RouteState) (x : SegState) (c : Contents) (status : Status)
    (chain : List (Nat × BlockKind)) : (route state x c status chain).serving := ⟨⟨rfl, rfl⟩, rfl⟩

/-- The state a command leads to. -/
def after (c : Instr) (s : State) : State :=
  match exec c s with
  | .next t => t
  | _ => s

/-- The same route with a command's response waiting to be read. -/
def waiting : State := after .routeStatus State.reset

/-! ### Witnesses: the whole machine -/

theorem witness_step_runs_the_front_command :
    (State.reset.withPending [.flush]).pending = .flush :: [] := rfl

theorem witness_step_idles_on_an_empty_queue : State.reset.pending = [] := rfl

theorem witness_commands_leave_the_queue_alone :
    exec .flush State.reset = .next (after .flush State.reset) := rfl

theorem witness_every_command_is_carried_out : (Instr.powerLoss .clean).wellFormed = true := rfl

theorem witness_step_keeps_every_bound :
    (State.reset.withPending [.flush]).Ok ∧ step (State.reset.withPending [.flush]) =
      .next (after .flush State.reset) ∧
    (∀ loss rest, (State.reset.withPending [.flush]).pending = .powerLoss loss :: rest → loss = .clean) ∧
    (State.reset.withPending [.flush]).Sound ∧ meter.Sound ∧ (State.reset.withPending [.flush]).Counted ∧
    (day .opened .unvisited meter).Counted :=
  ⟨State.reset_ok.withPending _, rfl, fun _ _ h => (nomatch h), State.reset_sound.withPending _,
    ⟨by decide, by decide⟩, ⟨by decide, by decide, by decide, by decide⟩,
    ⟨by decide, by decide, by decide, by decide⟩⟩

theorem witness_events_leave_only_by_their_rules :
    exec (.eventsRead 0x200) State.reset = .next (after (.eventsRead 0x200) State.reset) ∧
    (after (.eventsRead 0x200) State.reset).events.pending = 0 ∧
    exec (.eventsEnable 0x200) State.reset = .next (after (.eventsEnable 0x200) State.reset) :=
  ⟨rfl, by decide, rfl⟩

theorem witness_route_state_changes_only_by_its_table :
    exec (.routeHeader headerParams) State.reset =
      .next (after (.routeHeader headerParams) State.reset) ∧
    (after (.routeHeader headerParams) State.reset).route.state ≠ State.reset.route.state :=
  ⟨rfl, by decide⟩

theorem witness_halted_does_nothing :
    (State.reset.withPower .halted).power ≠ .on ∧ Instr.offerSent.wellFormed = true ∧
    isBlock .offerSent = false ∧ Instr.offerSent ≠ .powerUp ∧ isBlock .flush = true ∧
    decodeBlock [] = none ∧ (0xA5 : Byte) ≠ 0x5A := by decide

theorem witness_blocks_collide :
    isBlock .flush = true ∧ waiting.power = .on ∧ waiting.command.unit ≠ .idle := by decide

/-- A working state in which a RECOVERY scan is still to run. -/
def scanned : State := State.reset.withRoute { Route.reset with scanning := some .recovery }

theorem scanned_ok : scanned.Ok := State.reset_ok.withRoute _

theorem witness_blocks_are_busy_during_scans :
    isBlock .flush = true ∧ Instr.flush.wellFormed = true ∧ servedInScans .flush = false ∧
    scanned.listening ∧ scanned.route.scanning ≠ none :=
  ⟨by decide, by decide, by decide, ⟨rfl, rfl⟩, by decide⟩

/-! ### Witnesses: layouts and memory -/

set_option maxRecDepth 8000 in
theorem witness_blocks_decode :
    (Instr.recordNote 5 (zeros 57)).wellFormed = true ∧
    (Instr.recordNote 5 (zeros 57)).block = some ([0x23, 62, 0, 0, 0, 5, 57] ++ zeros 57) := by decide

theorem witness_decoded_blocks_are_encoded : decodeBlock [0x72, 0, 0xFF] = some .flush := by decide

theorem witness_base_records_read_back :
    (∀ r, Contents.live meter = .live r → r.serial ≠ 0) ∧
    (∀ x n, Contents.fault 5 none = .fault x n → x ≠ 0) := by
  constructor
  · intro r h; cases h; decide
  · intro x n h; cases h; decide

theorem witness_extension_blocks_read_back :
    nextAllowed (Block.note endMarker (zeros 24)).next = true ∧
    nextAllowed (Block.interval 4095 [1, 2, 3, 4, 5, 6]).next = true := by decide

theorem witness_route_items_read_back :
    Memory.wf [] = true ∧ (68 : Nat) < 69 ∧ (segmentItem Segment.reset).length = itemSize 68 ∧
    Memory.newerCopy [] 68 = some true := by decide +kernel

theorem witness_memory_reads_what_was_written : Memory.wf [] = true := rfl

/-! ### Witnesses: the receiver ports -/

/-- A working 460 whose port 3 listens by radio with some bytes gathered and `buffer` waiting. -/
def listeningPort (gathered : List Byte) (buffer : List Frame) : State :=
  State.reset.setPort 3 { Port.reset with mode := .radio, gathered := gathered, buffer := buffer }

theorem witness_ports_take_bytes :
    (listeningPort [] []).power = .on ∧ ((listeningPort [] []).port 3).mode ≠ .off ∧
    ((listeningPort [] []).port 3).pulsing = false ∧ ((listeningPort [] []).port 3).gathered = [] ∧
    ((listeningPort [0xA6] []).port 3).gathered.length = 1 ∧
    ((41 : Byte).toNat % 2 = 1 ∧ 17 ≤ (41 : Byte).toNat ∧ (41 : Byte).toNat ≤ 41) ∧
    ¬((42 : Byte).toNat % 2 = 1 ∧ 17 ≤ (42 : Byte).toNat ∧ (42 : Byte).toNat ≤ 41) ∧
    ((listeningPort (frameBytes.take 15) []).port 3).gathered.length + 1 <
      (byteAt ((listeningPort (frameBytes.take 15) []).port 3).gathered 1).toNat := by decide

set_option maxRecDepth 8000 in
theorem witness_whole_frames_are_taken :
    byteAt frameBytes 0 = 0xA6 ∧ frameBytes.length = (byteAt frameBytes 1).toNat ∧
    lengthAllowed (byteAt frameBytes 1) = true ∧ frameGood frameBytes = true ∧
    frameGood (frameBytes.set 12 8) = false ∧ ((listeningPort [] []).port 3).buffer.length < 2 ∧
    2 ≤ ((listeningPort [] [frame 1, frame 2]).port 3).buffer.length := by decide

theorem witness_unwanted_bytes_are_discarded :
    (State.reset.port 3).mode = .off ∧ (listeningPort [0xA6] []).power = .on ∧
    ((listeningPort [0xA6] []).port 3).gathered ≠ [] ∧
    ((listeningPort [0xA6] []).port 3).pulsing = false ∧ ((listeningPort [] []).port 3).gathered = [] ∧
    ((State.reset.setPort 3 { Port.reset with pulsing := true }).port 3).pulsing = true ∧
    (State.reset.withDepot { Depot.reset with rx := [0xA6] }).depot.rx ≠ [] := by decide

theorem witness_port_commands_take_effect :
    State.reset.serving ∧ (3 : Byte).toNat = (3 : Fin 4).val ∧ (2 : Byte) = PortMode.probe.code :=
  ⟨⟨⟨rfl, rfl⟩, rfl⟩, rfl, rfl⟩

/-! ### Witnesses: matching -/

theorem witness_frames_are_taken_round_robin :
    (listeningPort [] [frame 1]).matching.inHand = none ∧
    (∀ j : Fin 4, j < 3 →
      ((listeningPort [] [frame 1]).port ((listeningPort [] [frame 1]).matching.served + 1 + j)).buffer =
        []) ∧
    ((listeningPort [] [frame 1]).port ((listeningPort [] [frame 1]).matching.served + 1 + 3)).buffer =
      [frame 1] ∧
    (listeningPort [] [frame 1]).gateOpen = false ∧
    ((listeningPort [] [frame 1]).withRoute { Route.reset with state := .opened }).gateOpen = true := by
  decide

theorem witness_serials_are_resolved :
    State.reset.matching.inHand = none ∧ State.reset.matchEntry 5 = none ∧
    State.reset.mem.lookup 5 = none ∧
    (day .opened .unvisited meter).mem.lookup 5 = some 0 ∧
    (State.reset.keepEntry ⟨5, 0, none, none⟩).matchEntry 5 = some ⟨5, 0, none, none⟩ := by decide

theorem witness_frames_keep_a_records_identity :
    ({ meter with powerRef := some 9 } : Record).powerRef = some 9 ∧
    ({ meter with probeOnly := true } : Record).probeOnly = true ∧ (frame 130).byProbe = false ∧
    meter.probeOnly = false ∧ ({ frame 130 with kind := none } : Frame).kind ≠ some meter.kind ∧
    modulus meter.dials ≤ (frame 100000).reading.toNat ∧ meter.status = .pending := by decide

/-- The meter with a held candidate, by radio at 100. -/
def held : Record := { meter with status := .held, candidate := some ⟨130, 0, .regress, 100, 0, false⟩ }

/-- The meter flagged. -/
def flagged : Record :=
  { meter with
    status := .flagged, score := 200, flagTime := some 50
    current := some ⟨130, 0, .regress, 50, 0, false⟩ }

/-- The meter READ with a score. -/
def read (score : Byte) (evidence : Evidence) : Record :=
  { meter with
    status := .read, score := score, evidence := evidence
    current := some ⟨130, 260, .rollover, 50, 0, false⟩ }

/-- The scores about the thresholds F and H, each reached by a frame of a READ record. -/
theorem witness_frames_move_statuses_forward :
    let after := fun (flag hold : Byte) (e : Evidence) =>
      ((read 0 e).matchFrame { header with flag := flag, hold := hold } header.assessment none (frame 141)).record
    flagged.status = .flagged ∧ held.status = .held ∧ (read 0 Evidence.empty).status = .read ∧
    (after 50 50 Evidence.empty).score = 50 ∧ (after 50 50 Evidence.empty).status = .flagged ∧
    (after 51 50 Evidence.empty).status = .held ∧ (after 52 51 Evidence.empty).status = .read ∧
    flagged.probeOnly = false := by decide

theorem witness_first_readings_are_decided_by_score :
    meter.status = .pending ∧ meter.probeOnly = false ∧ (frame 99999).kind = some meter.kind ∧
    (frame 99999).reading.toNat < modulus meter.dials ∧
    ({ meter with rate := 4 }.matchFrame { header with flag := 100 } header.assessment none
      (frame 130)).record.score = 100 ∧
    header.flag.toNat ≤ (150 : Byte).toNat ∧ header.hold.toNat ≤ (149 : Byte).toNat ∧
    (149 : Byte).toNat < header.flag.toNat ∧ (59 : Byte).toNat < header.hold.toNat := by decide

theorem witness_agreeing_frames_confirm_holds :
    held.status = .held ∧ held.candidate = some ⟨130, 0, .regress, 100, 0, false⟩ ∧
    held.probeOnly = false ∧ (frame 135).kind = some held.kind ∧
    (frame 135).reading.toNat < modulus held.dials ∧
    ((frame 135).reading.toNat + modulus held.dials - 130 % modulus held.dials) % modulus held.dials ≤
      header.tolerance.toNat ∧
    100 + header.confirmGap.toNat ≤ (frame 135).arrival.toNat ∧
    ({ frame 135 with arrival := 119 } : Frame).arrival.toNat < 100 + header.confirmGap.toNat ∧
    held.score.toNat < header.flag.toNat ∧
    header.tolerance.toNat < ((frame 136).reading.toNat + modulus held.dials - 130 % modulus held.dials) %
      modulus held.dials ∧
    (held.matchFrame { header with flag := 51 } header.assessment none (frame 136)).record.score = 50 ∧
    (held.matchFrame { header with flag := 50 } header.assessment none (frame 136)).record.status =
      .flagged := by decide

/-- Evidence before the confirm gap is over, at the score of F and below it; and a reading that is not the record's,
likewise. -/
theorem witness_holds_reach_the_flag_threshold :
    let after := fun (flag : Byte) (f : Frame) =>
      (held.matchFrame { header with flag := flag } header.assessment none f).record
    let magnet := { frame 135 with arrival := 119, flags := 1 }
    let alien := { frame 135 with kind := none, arrival := 119 }
    held.status = .held ∧ held.candidate = some ⟨130, 0, .regress, 100, 0, false⟩ ∧ held.probeOnly = false ∧
    magnet.kind = some held.kind ∧ magnet.byProbe = false ∧
    magnet.arrival.toNat < 100 + header.confirmGap.toNat ∧ (after 120 magnet).score = 120 ∧
    (after 120 magnet).status = .flagged ∧ (after 121 magnet).status = .held ∧ alien.kind ≠ some held.kind ∧
    (after 50 alien).status = .flagged ∧ (after 51 alien).status = .held := by decide

theorem witness_duplicates_compare_nothing :
    let e := fun t : Word => (⟨5, 0, some 130, some t⟩ : MatchEntry)
    flagged.status = .flagged ∧ flagged.probeOnly = false ∧ (frame 130).kind = some flagged.kind ∧
    (frame 130).reading.toNat < modulus flagged.dials ∧ (e 5391).reading = some (frame 130).reading ∧
    (frame 130).arrival.toNat < (5391 : Word).toNat + header.duplicateWindow.toNat ∧
    header.duplicateWindow ≠ 0 ∧
    ¬(frame 130).arrival.toNat < (5390 : Word).toNat + header.duplicateWindow.toNat ∧
    flagged.current = some ⟨130, 0, .regress, 50, 0, false⟩ ∧
    (flagged.matchFrame header header.assessment (some (e 5391)) (frame 130)).duplicate = true ∧
    (flagged.matchFrame header header.assessment (some (e 5390)) (frame 130)).duplicate = false := by decide

theorem witness_readings_are_assessed :
    meter.previous.toNat ≤ 99870 ∧ (130 : Nat) < meter.previous.toNat ∧
    meter.previous.toNat < modulus meter.dials ∧
    meter.previous.toNat - 99860 ≤ header.assessment.backstep.toNat ∧
    header.assessment.backstep.toNat < meter.previous.toNat - 99859 := by decide

/-! ### Witnesses: the route, the reports, the command port and the timers -/

theorem witness_headers_begin_routes :
    State.reset.serving ∧ State.reset.route.state = .empty ∧ headerParams.header = some header ∧
    header.inRange = true ∧ State.reset.mem.wf = true := ⟨⟨⟨rfl, rfl⟩, rfl⟩, rfl, rfl, rfl, rfl⟩

/-- A report whose next value is port `k`'s, the ports before it read as `data`. -/
def reporting (k : Nat) (data : List Byte) (s : State) : State := s.holdReport ⟨.ports, k, data⟩

theorem witness_reports_only_report :
    scanned.listening ∧ State.reset.serving ∧ State.reset.depot.outstanding.length ≤ 16 ∧
    (63 : Byte).toNat = (63 : Seg).val ∧ 64 ≤ (64 : Byte).toNat ∧ scanned.pending = [] ∧
    (scanned.withPending [.portByte 3 0xA6]).listening ∧
    (scanned.withPending [.portByte 3 0xA6]).pending = .portByte 3 0xA6 :: [] ∧
    (reporting 3 (zeros 33) State.reset).command.unit = .executing (.reporting ⟨.ports, 3, zeros 33⟩) ∧
    (∀ w, State.reset.command.unit ≠ .executing (.reporting w)) :=
  ⟨⟨rfl, rfl⟩, ⟨⟨rfl, rfl⟩, rfl⟩, by decide, rfl, by decide, rfl, ⟨rfl, rfl⟩, rfl, rfl,
    fun _ h => UnitState.noConfusion h⟩

theorem witness_event_commands_take_effect : scanned.listening := ⟨rfl, rfl⟩

theorem witness_selections_take_effect :
    waiting.power = .on ∧ waiting.command.unit = .responding ∧ State.reset.command.unit ≠ .responding ∧
    (0 : Byte) ≠ 0xA5 ∧ (0 : Byte) ≠ 0x5A ∧ decodeBlock [] = none ∧ State.reset.command.unit = .idle ∧
    waiting.command.unit ≠ .idle := by decide

theorem witness_cab_mode_is_set :
    scanned.listening ∧ scanned.route.scanning ≠ none ∧ State.reset.listening ∧
    State.reset.route.scanning = none ∧ 2 < (3 : Byte).toNat ∧ (2 : Byte) = CabMode.pulse.code ∧
    (1 : Byte) = boolByte true :=
  ⟨⟨rfl, rfl⟩, by decide, ⟨rfl, rfl⟩, rfl, by decide, rfl, rfl⟩

theorem witness_clock_and_timers_run :
    let s := day .opened .active meter
    let t := s.withRoute { s.route with clock := 1, checkpointsDue := [1] }
    s.power = .on ∧ s.route.state = .opened ∧ s.route.scanning = none ∧ t.route.checkpointsDue = [1] ∧ s.route.checkpointsDue = [] ∧
    State.reset.route.state ≠ .opened ∧ s.segments.dwellTarget = some 1 ∧ s.segments.active = some 1 ∧
    s.route.clock.toNat < 1 ∧ 1 ≤ t.route.clock.toNat ∧
    (s.withTamper { s.tamper with pulseRunning := true }).tamper.pulseRunning = true ∧
    (∀ w, s.command.unit ≠ .executing (.leaving w)) ∧
    (t.holdWalk ⟨1, 0, ⟨0, 0, 0⟩, none⟩).command.unit = .executing (.leaving ⟨1, 0, ⟨0, 0, 0⟩, none⟩) ∧
    (t.holdWalk ⟨1, 0, ⟨0, 0, 0⟩, none⟩).segments.dwellTarget = some 1 := by
  refine ⟨rfl, rfl, rfl, rfl, rfl, by decide, rfl, rfl, by decide, by decide, rfl, fun w h => ?_, rfl, rfl⟩
  exact UnitState.noConfusion (show UnitState.idle = _ from h)

/-- A 460 with the depot link and engine in a state. -/
def docked (s : State) (link : LinkState) (engine : EngineState) (outstanding : List (Nat × Word)) : State :=
  s.withDepot { s.depot with
    link := link, dockSense := true, engine := engine, outstanding := outstanding
    timer := if link = .awaiting then some 30 else none }

theorem docked_ok {s : State} (h : s.Ok) (link : LinkState) {engine : EngineState}
    {outstanding : List (Nat × Word)} (h1 : outstanding.length ≤ 16)
    (h2 : engine = .idle → outstanding = []) (h3 : s.depot.failures < 3) (h4 : s.depot.forming = none) :
    (docked s link engine outstanding).Ok :=
  h.withDepot ⟨h1, h2, Nat.le_of_lt h3, fun h5 => absurd h5 (Nat.ne_of_lt h3), h.depot.receiver,
    FormingOk.none h4⟩

theorem witness_uploads_start_and_stop :
    let s := day .closed .complete meter
    (docked s .faulted .idle []).serving ∧ (docked s .faulted .idle []).route.state = .closed ∧
    (docked s .faulted .idle []).depot.engine = .idle ∧
    (docked s .faulted .idle []).depot.link = .faulted ∧
    (docked s .awaiting .running [(0, 5)]).depot.engine = .running ∧
    (docked s .awaiting .running [(0, 5)]).depot.outstanding ≠ [] ∧
    (docked s .attached .running []).depot.outstanding = [] ∧
    State.reset.depot.link = .detached ∧ (docked s .sending .running [(0, 5)]).depot.link = .sending :=
  ⟨⟨⟨rfl, rfl⟩, rfl⟩, rfl, rfl, rfl, rfl, by decide, rfl, rfl, rfl⟩

/-! ### Witnesses: segments -/

theorem witness_windows_and_plan_are_set :
    let s := day .loading .unvisited meter
    s.serving ∧ (63 : Byte).toNat = (63 : Seg).val ∧ s.route.state = .loading ∧
    (4095 : Half).toNat ≤ 4095 ∧
    (∀ k : Seg, k ≠ 63 → (4095 : Half).toNat ≤ (4095 : Half).toNat → (s.segment k).enabled = true →
      (4095 : Half).toNat < (s.segment k).base.toNat ∨ (s.segment k).limit.toNat < (4095 : Half).toNat) ∧
    (s.segment 1).state = .unvisited ∧ s.mem.wf = true :=
  ⟨⟨⟨rfl, rfl⟩, rfl⟩, rfl, rfl, by decide, by decide, by decide, by decide⟩

theorem witness_segments_are_entered :
    let s := day .opened .unvisited meter
    let left := day .opened .active meter
    let two := left.withSegments { left.segments with entries := left.segments.entries.set 2 (street .unvisited) }
    s.serving ∧ s.route.state = .opened ∧ s.segments.active = none ∧ (s.segment 1).state = .unvisited ∧
    ((day .opened .complete meter).segment 1).state = .complete ∧
    (left.segment 1).state = .active ∧ two.segments.active = some 1 ∧ (two.segment 2).state ≠ .active ∧
    (two.segment 2).state ≠ .disabled ∧
    two.pending.head? ≠ some .routeClockTick ∧ two.pending.head? ≠ some .dwellCompareExpire ∧
    (((two.drivenWalk 1).1.settleLeft 1).segment 2).state = .unvisited :=
  ⟨⟨⟨rfl, rfl⟩, rfl⟩, rfl, rfl, by decide, by decide, by decide, rfl, by decide, by decide, by decide, by decide,
    by decide⟩

theorem witness_walks_settle_records :
    let s := day .opened .active held
    (s.takeLine .command 0).2 = false ∧ (s.takeLine .command 0).1.cached 0 = .live held ∧
    (s.takeLine .command 0).1.directory.get 0 = some ⟨.live .held, some 1, [], false⟩ ∧
    held.status = .held ∧ meter.status = .pending ∧ flagged.status ≠ .pending ∧
    flagged.status ≠ .held ∧ (s.takeLine .command 0).1.tamper.entries.length < 128 := by decide

theorem witness_segments_are_left :
    let s := day .opened .active meter
    let done := day .opened .active held
    s.serving ∧ s.route.state = .opened ∧ s.segments.active = some 1 ∧
    s.matching.inHand = none ∧ (∀ p, (s.port p).buffer = []) ∧ s.depot.forming = none ∧
    s.pending.head? ≠ some .batchForm ∧
    ((s.drivenWalk 1).1.segment 1).outstanding ≠ 0 ∧ (s.drivenWalk 1).1.segments.active = some 1 ∧
    ((done.drivenWalk 1).1.segment 1).outstanding = 0 ∧ (done.drivenWalk 1).1.route.state = .opened ∧
    min 7 ((s.segment 1).redrive + 1) ≤ s.params.redriveLimit.toNat ∧
    (day .opened .unvisited meter).segments.active = none ∧ s.pending.head? = none ∧
    (s.withPending [.routeClockTick]).pending.head? = some .routeClockTick ∧
    (s.withSegments { s.segments with leaving := some 1 }).segments.active = some 1 :=
  ⟨⟨⟨rfl, rfl⟩, rfl⟩, rfl, rfl, rfl, by decide, rfl, by decide, by decide, by decide, by decide, by decide, by decide,
    rfl, rfl, rfl, rfl⟩

/-- A report that completes the meter's segment, and ones that reopen it in OPEN and in CLOSED. -/
theorem witness_reports_complete_and_reopen :
    let s := day .opened .active meter
    let t := s.report (some ⟨some 1, .live .pending⟩) (some ⟨some 1, .live .read⟩)
    let back := fun (r : RouteState) => (t.withRoute { t.route with state := r }).report
      (some ⟨some 1, .live .read⟩) (some ⟨some 1, .live .pending⟩)
    (s.segment 1).outstanding = 1 ∧ (t.segment 1).outstanding = 0 ∧ s.segments.leaving = none ∧
    (t.segment 1).state = .complete ∧ t.segments.active = none ∧ (back .opened).segments.plan = [1] ∧
    ((back .opened).segment 1).state = .unvisited ∧ ((back .closed).segment 1).state = .abandoned ∧
    s.mem.wf = true ∧ segmentItem (t.segment 1) ≠ segmentItem (s.segment 1) ∧
    segmentItem (t.segment 2) = segmentItem (s.segment 2) := by
  decide

/-! ### Witnesses: the record store and the records -/

/-- A state whose eight lines are all in use, the last recently used one free and DIRTY. -/
def full (queue : List Queued) : State :=
  State.reset.withStore { Store.reset with
    lines := Vector.ofFn fun i => ⟨some ⟨i.val, true, .free⟩, none⟩, queue := queue }

theorem full_ok (queue : List Queued) (h : queue.length ≤ 4) : (full queue).Ok := by
  refine State.reset_ok.withStore ⟨?_, List.Perm.refl _, h, List.Pairwise.nil, by simp [Store.reset]⟩
  intro i j a b hi hj hab
  simp only [Vector.get, Vector.toArray_ofFn, Array.getElem_ofFn,
    Option.some.injEq] at hi hj
  subst hi hj
  exact Fin.ext hab

theorem witness_lines_hold_the_newest_copy :
    State.reset.line 0 = ⟨none, none⟩ ∧ (∀ i, ((full []).line i).body ≠ none) ∧
    (full []).store.recency = [0, 1, 2, 3, 4, 5, 6] ++ 7 :: [] ∧ ((full []).line 7).holder = none ∧
    (full []).victim = 7 ∧ ((full []).line 7).body = some ⟨7, true, .free⟩ ∧
    (full [⟨1, .free⟩, ⟨2, .free⟩, ⟨3, .free⟩, ⟨4, .free⟩]).store.queue =
      ⟨1, .free⟩ :: [⟨2, .free⟩, ⟨3, .free⟩, ⟨4, .free⟩] ∧
    (full []).lineOf 7 = some 7 ∧ (full [⟨8, .free⟩]).lineOf 8 = none ∧
    ((full [⟨8, .free⟩]).evict 7).queued 8 = some .free ∧ State.reset.lineOf 9 = none ∧
    State.reset.queued 9 = none := by decide

set_option maxRecDepth 8000 in
theorem witness_lines_are_filled_from_memory :
    checkHolds 64 (Memory.slotBytes [] 9) = true ∧ checkHolds 64 (Memory.slotBytes [(576, 1)] 9) = false := by
  decide +kernel

/-- Slot 9 damaged in memory, with entry 7 naming it for serial 5. -/
def damaged : Memory := Memory.writeEntry [(576, 1)] 7 5 9

/-- A route in OPEN whose record in slot 9 is damaged. -/
def damagedRoute : State :=
  (((State.reset.withMem damaged).withDirectory [(9, ⟨.live .pending, some 1, [(3, .note)], false⟩)]).withSegments
    (streets .unvisited)).withRoute { Route.reset with state := .opened, header := some header }

theorem damagedRoute_ok : damagedRoute.Ok := by
  have h1 : SegmentsOk (streets .unvisited) :=
    ⟨(SegmentsOk.set SegmentsOk.reset 1 (e := street .unvisited) (Nat.zero_le 7)).redrives, by simp [streets]⟩
  exact (((State.reset_ok.withMem (by decide +kernel)).withDirectory
    (DirectoryOk.nil.set (by decide) (x := ⟨.live .pending, some 1, [(3, .note)], false⟩) (by simp))).withSegments
      h1).withRoute _

/-- Beyond its last listed byte, a memory reads as one that lists nothing. -/
theorem read_beyond {m : Memory} {x : Nat} (h : ∀ c ∈ m, c.1 < x) : m.read x = Memory.read [] x := by
  induction m with
  | nil => rfl
  | cons c m ih =>
    have := h c (by simp)
    obtain ⟨a, b⟩ := c
    show (if a = x then b else if x < a then Memory.unlisted x else Memory.read m x) = _
    rw [if_neg (Nat.ne_of_lt this), if_neg (Nat.lt_asymm this)]
    exact ih fun c hc => h c (List.mem_cons_of_mem _ hc)

/-- With only slots listed, the index is empty. -/
theorem entrySerial_of_slots {m : Memory} (h : ∀ c ∈ m, c.1 < Config.indexBase) {k : Nat} (hk : k < 16384) :
    m.entrySerial k = 0 := by
  rw [← Memory.entrySerial_nil hk]
  exact (Memory.entry_congr fun x h1 _ => read_beyond fun c hc =>
    Nat.lt_of_lt_of_le (h c hc) (Nat.le_trans (entryAddress_lt hk).1 h1)).1

theorem damaged_names_slot_once (k : Nat) (hk : k < 16384) (h : damaged.entrySerial k ≠ 0) : k = 7 := by
  by_contra hne
  have hw : Memory.wf [(576, 1)] = true := by decide
  rw [damaged, (Memory.entry_writeEntry hw 7 k 5 9).1, if_neg hne] at h
  exact h (entrySerial_of_slots (by decide) hk)

/-- A fill whose check fails, with one entry naming the slot. -/
theorem witness_failed_fills_become_fault :
    damagedRoute.Ok ∧ damagedRoute.lineOf 9 = none ∧
    (damagedRoute.evict damagedRoute.victim).queued 9 = none ∧
    (damagedRoute.evict damagedRoute.victim).mem = damaged ∧ checkHolds 64 (damaged.slotBytes 9) = false ∧
    damagedRoute.directory.get 9 = some ⟨.live .pending, some 1, [(3, .note)], false⟩ ∧
    damaged.entrySerial 7 = 5 ∧ damaged.entrySlot 7 = 9 ∧
    (∀ k, k < 16384 → damaged.entrySerial k ≠ 0 → damaged.entrySlot k = 9 → k = 7) := by
  refine ⟨damagedRoute_ok, ?_, ?_, ?_, ?_, ?_, ?_, ?_, fun k hk h _ => damaged_names_slot_once k hk h⟩ <;>
    decide +kernel

/-- The meter's route with the record FAULT. -/
def faulty : State := route .opened .unvisited (.fault 5 (some 1)) .fault []

/-- A walk's visits of a slot whose fill fails its check, and of a FAULT record. -/
theorem witness_walks_pass_over_faults :
    (damagedRoute.takeLine .command 9).2 = true ∧
    damagedRoute.directory.get 9 = some ⟨.live .pending, some 1, [(3, .note)], false⟩ ∧
    (faulty.takeLine .command 0).2 = false ∧
    (faulty.takeLine .command 0).1.cached 0 = .fault 5 (some 1) := by decide +kernel

theorem witness_flush_writes_back :
    (day .opened .unvisited meter).serving ∧
    (day .opened .unvisited meter).dirtyImages = [⟨0, .live meter⟩] ∧
    (full [⟨8191, .free⟩]).power = .on ∧ (full [⟨8191, .free⟩]).store.queue = ⟨8191, .free⟩ :: [] ∧
    (full [⟨8191, .free⟩]).mem.wf = true ∧ (0 : Nat) < 1 ∧
    (full [⟨8191, .free⟩]).grants .scan 1 ≠ (full [⟨8191, .free⟩]).grants .upload 1 ∧
    (State.reset.withCommand { Command.reset with unit := .executing (.flush 0) }).command.unit =
      .executing (.flush 0) := ⟨⟨⟨rfl, rfl⟩, rfl⟩, by decide, rfl, rfl, rfl, by decide, by decide +kernel, rfl⟩

theorem witness_loads_take_the_lowest_free_slot :
    let s := day .opened .complete meter
    let p := { loadParams with serial := 6 }
    s.serving ∧ s.Ok ∧ s.route.state = .opened ∧ Kind.ofCode p.kind = some .water ∧
    p.inRange s.params = true ∧ s.mem.lookup p.serial = none ∧ s.directory.freeSlots ≠ 0 ∧
    (let built := (s.grants .command (s.mem.lookupAccesses p.serial)).takeLineFresh .command 1
       (.live (Record.fresh p .water (some 1) .pending))
     built.mem.lookup p.serial = none ∧ built.mem.entrySerial 16383 = 0 ∧ built.mem.lookup 5 = some 0 ∧
     ∀ q ∈ built.store.queue, q.slot < 8192) ∧
    (day .loading .unvisited meter).route.state = .loading :=
  ⟨route_serving .., route_ok _ _ _ _ (by simp), rfl, by decide, by decide, by decide, by decide, by decide, rfl⟩

theorem witness_retirements_free_the_slot :
    let s := day .closed .abandoned meter
    s.serving ∧ s.Ok ∧ s.mem.lookup 5 = some 0 ∧
    s.directory.get 0 = some ⟨.live .pending, some 1, [], false⟩ ∧ s.inBatch 0 = false ∧
    (s.route.state = .closed ∧ s.directory.length = 1) ∧
    (day .opened .unvisited meter).route.state ≠ .closed ∧
    Memory.IndexSound [] ∧ Memory.lookup [] 5 = none ∧ Memory.entrySerial [] 16383 = 0 ∧
    (let still := day .opened .unvisited meter;
      still.serving ∧ still.Ok ∧ still.mem.lookup 5 = some 0 ∧ still.inBatch 0 = false ∧
      still.directory.get 0 = some ⟨.live .pending, some 1, [], false⟩ ∧ still.Sound) :=
  ⟨route_serving .., route_ok _ _ _ _ (by simp), by decide, by decide, by decide, by decide, by decide,
    fun n hn h => (h (Memory.entrySerial_nil hn)).elim, by decide, by decide,
    route_serving .., route_ok _ _ _ _ (by simp), by decide, by decide, by decide,
    route_sound _ _ (Contents.sound_live ⟨by decide, by decide⟩) _ _⟩

/-- The accesses of the index operations, with one LIVE entry and with none. -/
theorem witness_index_accesses_are_counted :
    let m := Memory.insertSerial [] 5 0
    let seen := fun (m : Memory) (j : Nat) => m.entrySerial ((homeBucket 5 + j) % 16384)
    m.wf = true ∧ seen m 0 = 5 ∧ seen m 1 = 0 ∧ seen [] 0 = 0 ∧ Memory.lookupAccesses [] 5 = 1 ∧
    m.insertAccesses 5 = 3 ∧ m.deleteAccesses 5 = 3 ∧ Holder.upload ≠ .scan := by decide +kernel

/-- An amendment of the meter with an action and no field. -/
def amendment (action : Byte) : AmendParams where
  serial := 5
  sequence := ⟨0, 0⟩
  dials := ⟨0, 0⟩
  previous := ⟨0, 0⟩
  previousDay := ⟨0, 0⟩
  rate := ⟨0, 0⟩
  probeOnly := ⟨0, 0⟩
  kind := ⟨0, 0⟩
  powerRef := ⟨0, 0⟩
  action := action

/-- A full rewrite of the meter. -/
def rewriting : AmendParams where
  serial := 5
  sequence := ⟨1, 16⟩
  dials := ⟨1, 9⟩
  previous := ⟨1, 999999999⟩
  previousDay := ⟨1, 100⟩
  rate := ⟨1, 0⟩
  probeOnly := ⟨1, 1⟩
  kind := ⟨1, 4⟩
  powerRef := ⟨1, 255⟩
  action := 4

theorem witness_amendments_take_effect :
    let s := day .opened .unvisited flagged
    s.serving ∧ s.Ok ∧ (s.find 5).2.directory.get 0 = some ⟨.live .flagged, some 1, [], false⟩ ∧
    s.find 5 = (.record 0 flagged, (s.find 5).2) ∧ flagged.batch = none ∧
    AmendAction.ofCode (amendment 3).action = some .reRead ∧
    amendInRange s.params (amendment 3) (flagged.afterAction .reRead) = true ∧
    amendAllowed (amendment 3) (flagged.afterAction .reRead) = true ∧
    faulty.mem.lookup 5 = some 0 ∧ rewriting.action = 4 ∧
    faulty.directory.get 0 = some ⟨.fault, some 1, [], false⟩ ∧ rewriting.wellCoded = true ∧
    (rewriting.rewrite.map fun p => (Kind.ofCode p.kind, p.inRange faulty.params)) = some (some .heat, true) ∧
    flagged.status = .flagged ∧ held.status = .held ∧ meter.status ≠ .held ∧ meter.status ≠ .flagged :=
  ⟨route_serving .., route_ok _ _ _ _ (by simp), by decide, Prod.ext (by decide) rfl, rfl, by decide, by decide, by decide,
    by decide, rfl, by decide, by decide, by decide, rfl, rfl, by decide, by decide⟩

theorem witness_notes_are_kept :
    let s := route .opened .unvisited (.live meter) (.live .pending) [(0, .note)]
    let t := day .opened .unvisited meter
    s.serving ∧ s.Ok ∧ (zeros 24).length ≤ 24 ∧ s.find 5 = (.record 0 meter, (s.find 5).2) ∧
    meter.batch = none ∧ (s.find 5).2.directory.get 0 = some ⟨.live .pending, some 1, [(0, .note)], false⟩ ∧
    t.find 5 = (.record 0 meter, (t.find 5).2) ∧
    (t.find 5).2.directory.get 0 = some ⟨.live .pending, some 1, [], false⟩ ∧
    (t.find 5).2.store.usedBlocks.length < 4096 :=
  ⟨route_serving .., route_ok _ _ _ _ (by simp), by decide, Prod.ext (by decide) rfl, rfl, by decide,
    Prod.ext (by decide) rfl, by decide, by decide⟩

/-- With every block in use a note finds none. -/
theorem witness_notes_find_no_block :
    let s := (day .opened .unvisited meter).withStore { (day .opened .unvisited meter).store with
      usedBlocks := List.range 4096 }
    s.serving ∧ s.find 5 = (.record 0 meter, (s.find 5).2) ∧ 4096 ≤ s.store.usedBlocks.length :=
  ⟨⟨⟨rfl, rfl⟩, rfl⟩, Prod.ext (by decide +kernel) rfl, by decide +kernel⟩

/-- The chain of the record of serial 5 ends at a bad block. -/
def endsBadly (s : State) : Bool :=
  ((s.find 5).2.mem.readChain (((s.find 5).2.chain 0).map (·.1)) 0 0).bad

theorem witness_lookups_and_walks_report :
    let s := day .opened .unvisited meter
    s.serving ∧ s.mem.lookup 6 = none ∧ s.find 5 = (.record 0 meter, (s.find 5).2) ∧
    ((s.find 5).2.mem.readChain [] 0 0).bad = false ∧
    faulty.find 5 = (.fault 0 (some 1), (faulty.find 5).2) ∧ (8191 : Half).toNat < 8192 ∧
    (63 : Byte) ≠ 0 ∧ (63 : Byte).toNat < 64 ∧ (63 : Byte).toNat < 64 ∧ 254 ≤ (254 : Byte).toNat ∧ s.Ok ∧
    s.walkSlots 0 = [0] ∧ s.passesWalk 1 254 0 = true ∧ s.beside = s ∧
    (s.takeLine .command 0).2 = false ∧
    (s.takeLine .command 0).1.cached 0 = .live meter ∧ statusIn 1 (.live .pending) = true ∧
    endsBadly (route .opened .unvisited (.live { meter with firstBlock := 0 }) (.live .pending)
      [(0, .note)]) = true :=
  ⟨route_serving .., by decide, Prod.ext (by decide) rfl, by decide, Prod.ext (by decide) rfl, by decide,
    by decide, by decide, by decide, by decide, route_ok _ _ _ _ (by simp), by decide, by decide, by decide, by decide,
    by decide, by decide, by decide +kernel⟩

/-! ### Witnesses: the tamper queue and frames -/

/-- A tamper queue entry of a score. -/
def entry (slot : Nat) (score : Byte) : TamperEntry := ⟨slot, 5, score, Evidence.empty, 50, false⟩

set_option maxRecDepth 8000 in
theorem witness_newcomers_are_placed_by_rank :
    State.reset.tamper.entries.length < 128 ∧
    (List.replicate 127 (entry 1 200)).length = 127 ∧ (entry 0 151).ranksAbove (entry 2 150) = true ∧
    (entry 3 150).ranksAbove (entry 2 150) = false ∧
    (∀ e ∈ State.reset.tamper.entries, e.slot ≠ 0) ∧
    (let s := (day .opened .complete flagged).flaggedReport 0 flagged
     ⟨0, 5, 200, Evidence.empty, 50, false⟩ ∈ s.tamper.entries ∧ (s.tamper.entries.map (·.slot)).Nodup) := by
  decide

theorem witness_acknowledgements_leave_the_queue :
    let s := day .opened .unvisited flagged
    s.serving ∧ s.Ok ∧ s.find 5 = (.record 0 flagged, (s.find 5).2) ∧ flagged.batch = none ∧
    (s.find 5).2.directory.get 0 = some ⟨.live .flagged, some 1, [], false⟩ ∧ flagged.status = .flagged ∧
    flagged.marks.acknowledged = false ∧ meter.status ≠ .flagged :=
  ⟨route_serving .., route_ok _ _ _ _ (by simp), Prod.ext (by decide) rfl, rfl, by decide, rfl, rfl, by decide⟩

/-- The route with a frame in hand for its meter. -/
def inHand (s : State) (f : Frame) : State := s.withMatching { s.matching with inHand := some ⟨f, 0, false⟩ }

theorem inHand_ok {s : State} (h : s.Ok) (f : Frame) : (inHand s f).Ok :=
  h.withMatching ⟨h.matching.size, h.matching.serials⟩

theorem witness_frames_are_applied :
    let s := inHand (day .opened .unvisited meter) (frame 130)
    let bad := inHand faulty (frame 130)
    let gone := inHand (State.reset.withRoute { Route.reset with state := .opened }) (frame 130)
    let noted := inHand (route .opened .unvisited (.live meter) (.live .pending) [(0, .note)])
      { frame 130 with intervals := [1, 2, 3, 4, 5, 6, 7] }
    s.power = .on ∧ s.Ok ∧ s.matching.inHand = some ⟨frame 130, 0, false⟩ ∧
    (s.takeLine .matching 0).1.directory.get 0 = some ⟨.live .pending, some 1, [], false⟩ ∧
    (s.takeLine .matching 0).1.cached 0 = .live meter ∧ meter.serial = (frame 130).serial ∧
    (meter.matchFrame s.params header.assessment none { frame 130 with intervals := [1] }).applied = true ∧
    (bad.takeLine .matching 0).1.cached 0 = .fault (frame 130).serial (some 1) ∧
    (gone.takeLine .matching 0).1.directory.get 0 = none ∧
    (gone.takeLine .matching 0).1.mem.lookup 5 = none ∧ noted.Ok ∧
    (noted.takeLine .matching 0).1.chain 0 = [(0, .note)] ∧
    (match exec .frameMatch noted with
      | .next t => t.chain 0 | _ => []) = [(0, .note), (0, .interval), (1, .interval)] := by
  refine ⟨rfl, inHand_ok (route_ok _ _ _ _ (by simp)) _, rfl, ?_, ?_, rfl, ?_, ?_, ?_, ?_,
    inHand_ok (route_ok _ _ _ _ (by simp)) _, ?_, ?_⟩ <;> decide +kernel

/-- A frame whose slot was freed, its serial loaded again at slot 0; one whose slot is free, and one whose slot
carries another serial, with a serial that the index does not have. -/
theorem witness_frames_are_resolved_again :
    let s := (day .opened .unvisited meter).withMatching { Matching.reset with inHand := some ⟨frame 130, 3, false⟩ }
    let found := (s.takeLine .matching 3).1
    let sought := (found.letGo 3).grants .matching (found.mem.lookupAccesses 5)
    let other := inHand (day .opened .unvisited meter) { frame 130 with serial := 6 }
    let s1 := (State.takeLine .matching 0 (sought.withMatching { sought.matching with
      buffer := [⟨5, 0, none, none⟩] })).1
    s.matching.inHand = some ⟨frame 130, 3, false⟩ ∧ found.directory.get 3 = none ∧ found.mem.lookup 5 = some 0 ∧
    s1.cached 0 = .live meter ∧ s1.directory.get 0 = some ⟨.live .pending, some 1, [], false⟩ ∧
    (∀ q ∈ s1.store.queue, q.slot < 8192) ∧ s1.mem.lookup 6 = none ∧
    (other.takeLine .matching 0).1.cached 0 = .live meter ∧ meter.serial ≠ 6 ∧
    ((after .frameMatch s).segment 1).state = .complete := by decide +kernel

/-- A frame with intervals whose replacement a note of another record may meet, one that it cannot, and one that it has
met. -/
theorem witness_replacements_are_met :
    let s := inHand (day .opened .unvisited meter) { frame 130 with intervals := [1, 2, 3, 4, 5, 6, 7] }
    let f := { frame 130 with intervals := [1, 2, 3, 4, 5, 6, 7] }
    let held := s.withMatching { s.matching with inHand := some ⟨f, 0, true⟩ }
    (s.withPending [.recordNote 6 []]).noteWaits 0 = true ∧ (s.withPending [.recordNote 5 []]).noteWaits 0 = false ∧
    s.noteWaits 0 = false ∧ held.power = .on ∧ held.matching.inHand = some ⟨f, 0, true⟩ ∧
    held.directory.get 0 ≠ none ∧ held.cached 0 = .live meter ∧ meter.serial = f.serial ∧
    ((after (.recordNote 6 []) held).chain 0 = [(0, .interval), (1, .interval)]) := by
  refine ⟨?_, ?_, ?_, rfl, rfl, ?_, ?_, rfl, ?_⟩ <;> decide +kernel

/-! ### Witnesses: opening, closing, clearing, batches, power -/

theorem witness_routes_open :
    let s := (day .loading .unvisited meter).withRoute
      { (day .loading .unvisited meter).route with scanning := some .opening }
    (day .loading .unvisited meter).serving ∧ (day .loading .unvisited meter).route.state = .loading ∧
    s.Ok ∧ s.power = .on ∧ s.route.scanning = some .opening ∧ s.matching.inHand = none ∧
    s.store.queue = [] ∧ s.directory.get 0 = some ⟨.live .pending, some 1, [], false⟩ ∧
    (s.takeLine .scan 0).2 = false ∧ (s.takeLine .scan 0).1.cached 0 = .live meter ∧
    s.windowOf meter.sequence = some 1 ∧ s.windowOf 15 = none :=
  ⟨route_serving .., rfl, (route_ok _ _ _ _ (by simp)).withRoute _, rfl, rfl, rfl, by decide, by decide, by decide,
    by decide, by decide, by decide⟩

/-- A slot whose copy in memory fails its check: the OPEN scan counts it. -/
theorem witness_the_open_scan_counts_failures :
    let s := ((State.reset.withMem [(0, 1)]).withDirectory [(0, ⟨.live .pending, none, [], false⟩)]).withRoute
      { Route.reset with state := .loading, scanning := some .opening }
    s.route.scanning = some .opening ∧ s.directory.get 0 = some ⟨.live .pending, none, [], false⟩ ∧
    (s.takeLine .scan 0).2 = true := by decide +kernel

theorem witness_routes_close :
    let s := day .opened .unvisited meter
    let t := day .opened .active meter
    s.serving ∧ s.Ok ∧ s.route.state = .opened ∧ s.segments.active = none ∧ s.matching.inHand = none ∧
    t.serving ∧ t.Ok ∧ t.route.state = .opened ∧ t.segments.active = some 1 ∧ s.Sound ∧
    s.dirtyImages = [⟨0, .live meter⟩] ∧
    State.reset.serving ∧ State.reset.route.state ≠ .opened :=
  ⟨route_serving .., route_ok _ _ _ _ (by simp), rfl, rfl, rfl, route_serving .., route_ok _ _ _ _ (by simp), rfl,
    rfl, route_sound _ _ (Contents.sound_live ⟨by decide, by decide⟩) _ _, by decide, ⟨⟨rfl, rfl⟩, rfl⟩, by decide⟩

theorem witness_clearing_leaves_nothing :
    let s := day .closed .abandoned meter
    s.serving ∧ s.Ok ∧ s.route.state = .closed ∧ s.depot.engine = .idle ∧
    s.directory.get 0 = some ⟨.live .pending, some 1, [], false⟩ :=
  ⟨route_serving .., route_ok _ _ _ _ (by simp), rfl, rfl, by decide⟩

/-- The meter MISSED at the end of the day. -/
def missed : Record := { meter with status := .missed }

theorem witness_batches_are_formed :
    let s := docked (day .closed .abandoned missed) .attached .running []
    let none := docked (day .closed .abandoned meter) .attached .running []
    s.Ok ∧ s.power = .on ∧ s.route.scanning = Option.none ∧ s.depot.engine = .running ∧
    s.depot.outstanding = [] ∧ s.depot.link = .attached ∧ s.depot.forming = Option.none ∧ s.pending = [] ∧
    s.choose.1 = [⟨⟨.missed, 16, 0⟩, 5⟩] ∧
    none.choose.1 = [] ∧ s.route.state = .closed ∧ none.directory ≠ [] ∧
    (s.takeLine .upload 0).2 = false ∧ (s.takeLine .upload 0).1.cached 0 = .live missed ∧
    (s.takeLine .upload 0).1.directory.get 0 = some ⟨.live .missed, some 1, [], false⟩ ∧
    missed.batch = Option.none ∧ missed.marks.depotRefused = false ∧
    (none.takeLine .upload 0).1.cached 0 = .live meter ∧ meter.status = .pending ∧
    ((s.takeLine .upload 0).1.putRecord 0 { missed with batch := some 0 }).mem.readChain [] 0 0 =
      ⟨[], [], 0, false⟩ :=
  ⟨docked_ok (route_ok _ _ _ _ (by simp)) _ (by decide) (by decide) (by decide) rfl, rfl, rfl, rfl, rfl, rfl, rfl,
    rfl, by decide, by decide, rfl, by decide, by decide, by decide, by decide, rfl, rfl, by decide, rfl, by decide⟩

/-- A batch whose marking has begun, with the meter's record still to be marked. -/
def marking (engine : EngineState) : State :=
  let s := docked (day .closed .abandoned missed) .attached engine []
  s.withDepot { s.depot with forming := some (.marking (some ⟨.missed, 16, 0⟩) [⟨⟨.missed, 16, 0⟩, 5⟩] []) }

theorem marking_ok : (marking .stopping).Ok :=
  (docked_ok (engine := .stopping) (outstanding := []) (route_ok _ _ _ _ (by simp)) .attached (by decide)
    (fun _ => rfl) (by decide) rfl).withDepot
    ⟨by decide, by decide, by decide, by decide, by decide, rfl, by decide, rfl, by decide⟩

/-- The next candidate of a class, the ends of the classes and of both surveys, and a forming that goes on with no row
that can meet it at the front, and with one. -/
theorem witness_batches_are_met :
    let s := marking .stopping
    let waiting := s.withPending [.flush]
    s.Ok ∧ s.power = .on ∧ s.route.scanning = none ∧ s.depot.link = .attached ∧ s.depot.engine ≠ .idle ∧
    s.depot.forming = some (.marking (some ⟨.missed, 16, 0⟩) [⟨⟨.missed, 16, 0⟩, 5⟩] []) ∧ s.pending = [] ∧
    waiting.pending = [.flush] ∧ isBlock .flush = true ∧ isBlock .powerWarning = false ∧ interposes .flush = true ∧ interposes .batchForm = false ∧
    s.directory.get 0 = some ⟨.live .missed, some 1, [], false⟩ ∧
    s.directory.all (fun e => e.1 == 0) = true ∧ (List.replicate 16 (⟨⟨.missed, 16, 0⟩, 5⟩ : Surveyed)).length = 16 :=
  ⟨marking_ok, rfl, rfl, rfl, by decide, rfl, rfl, rfl, rfl, rfl, rfl, rfl, by decide, by decide, rfl⟩

/-- The MISSED meter in record memory and in no line, so that each unit that takes slot 0 waits for memory. -/
def busy (granted : Requester) (s : State) : State :=
  (s.withMem (s.mem.writeSlot 0 (.live missed))).withStore { Store.reset with granted := granted }

/-- The upload engine's work: none, a forming held whose next read leaves it going on and one that the read ends, and a
batch about to be formed. -/
theorem witness_uploads_go_on_beside_walks :
    let s := marking .running
    let begun := (docked (day .closed .abandoned missed) .attached .running []).withPending [.batchForm]
    let ending := s.withDepot { s.depot with forming := some (.surveying true .missed 8192 []) }
    (day .opened .unvisited meter).uploadWork = none ∧
    s.uploadWork = some (.marking (some ⟨.missed, 16, 0⟩) [⟨⟨.missed, 16, 0⟩, 5⟩] []) ∧ s.uploadBusy = true ∧
    begun.uploadWork = some (.surveying false .flagged 0 []) ∧ begun.uploadBusy = true ∧
    ending.uploadWork = some (.surveying true .missed 8192 []) ∧ ending.uploadBusy = false := by
  decide

/-- Who waits for memory beside a visit of slot 0: all three, where each unit in turn goes first; or none. -/
theorem witness_engines_work_beside_walks :
    let s := fun u => inHand (busy u (marking .running)) (frame 130)
    (∀ u, (s u).engineNeeds = true ∧ (s u).uploadNeeds = true ∧ (s u).needsFill 0 = true ∧
      (s u).engineBusy = true ∧ (s u).uploadBusy = true ∧ (s u).store.granted = u) ∧
    (s .upload).engineGoes true ⟨true, true⟩ = true ∧ (s .upload).uploadGoes true ⟨true, true⟩ = false ∧
    (s .command).engineGoes true ⟨true, true⟩ = false ∧ (s .command).uploadGoes true ⟨true, true⟩ = true ∧
    (s .matching).engineGoes true ⟨true, true⟩ = false ∧ (s .matching).uploadGoes true ⟨true, true⟩ = false ∧
    (day .opened .unvisited meter).engineBusy = false ∧ (day .opened .unvisited meter).needsFill 0 = false := by
  refine ⟨fun u => ?_, ?_⟩
  · cases u <;> decide
  · decide

theorem witness_verdicts_are_taken :
    let s := docked (day .closed .abandoned missed) .awaiting .running [(0, 5)]
    s.power = .on ∧ s.depot.rx = [] ∧ s.depot.link = .awaiting ∧ s.depot.outstanding ≠ [] ∧
    s.depot.batchNumber = 0 ∧ s.depot.batchNumber ≠ 255 ∧ (0 : Half) ≠ crc16 [0x08, 0x02, 0, 0, 1] ∧
    (3 : Byte) ≠ 2 ∧ (9 : Byte) ≠ 8 ∧ (0xA5 : Byte) ≠ 0xA6 ∧ positions 0 s.depot.outstanding = [(0, 0, 5)] := by
  decide +kernel

theorem witness_batches_are_disposed_of :
    let s := docked (day .closed .abandoned { missed with batch := some 0 }) .awaiting .running [(0, 5)]
    s.Ok ∧ State.reset.directory.get 0 = none ∧
    s.directory.get 0 = some ⟨.live .missed, some 1, [], true⟩ ∧ s.mem.lookup 5 = some 0 ∧
    (0x8000 : Half).getLsbD 15 = true ∧ (0x8000 : Half).getLsbD 0 = false ∧
    (s.takeLine .upload 0).1.cached 0 = .live { missed with batch := some 0 } ∧
    ((s.withDepot { s.depot with rx := [0xA6, 8, 2, 0, 0, 1, 0xEE] }).depot.rx =
      [0xA6] ++ ([0x08, 0x02, s.depot.batchNumber] ++ halfBytes 1) ++
        (halfBytes (crc16 ([0x08, 0x02, s.depot.batchNumber] ++ halfBytes 1))).take 1) ∧
    s.power = .on ∧ s.depot.timer ≠ none ∧ s.depot.outstanding ≠ [] ∧ s.depot.failures < 2 ∧
    2 ≤ (s.withDepot { s.depot with failures := 2 }).depot.failures :=
  ⟨docked_ok (route_ok _ _ _ _ (by simp)) _ (by decide) (by decide) (by decide) rfl, rfl, by decide, by decide, by decide,
    by decide, by decide, by decide +kernel, rfl, by decide, by decide, by decide, by decide⟩

/-- A record of the batch whose fill for the verdict fails its check. -/
theorem witness_verdicts_meet_failed_fills :
    let s := docked (damagedRoute.withMem (Memory.insertSerial [(576, 1)] 5 9)) .awaiting .running [(9, 5)]
    s.directory.get 9 = some ⟨.live .pending, some 1, [(3, .note)], false⟩ ∧ s.mem.lookup 5 = some 9 ∧
    (s.takeLine .upload 9).2 = true := by decide +kernel

/-- The first byte of the signature is damaged in both copies. -/
def unsigned : Memory := [(Config.routeBase + 1, 7), (Config.routeBase + 257, 7)]

theorem witness_supply_events_take_effect :
    State.reset.power = .on ∧ (State.reset.withPower .off).power ≠ .on ∧ State.reset.serving ∧
    Loss.clean.wellFormed = true ∧ (Loss.cutItemWrite 69 [] 0).wellFormed = false ∧
    (State.reset.withPower .off).mem.signatureValid = true ∧
    ((State.reset.withPower .off).withMem unsigned).mem.signatureValid = false ∧
    State.reset.finishFrame.writeBack.writeCheckpoint.mem.signatureValid = true ∧
    (State.reset.withMem unsigned).finishFrame.writeBack.writeCheckpoint.mem.signatureValid = false :=
  ⟨rfl, by decide, ⟨⟨rfl, rfl⟩, rfl⟩, rfl, by decide, Memory.signatureValid_nil, by decide +kernel,
    by decide +kernel, by decide +kernel⟩

/-- The scan at slot 0 of a memory that holds a record there, on a route in a state. -/
def scanAt (m : Memory) (state : RouteState) : Scan :=
  ⟨(scanned.withMem m).withRoute { scanned.route with state := state }, [], []⟩

/-- Record memory with the meter in slot 0. -/
def stored : Memory := Memory.writeSlot [] 0 (.live meter)

/-- Record memory with the meter damaged in slot 0, and good in slot 1. -/
def swapped : Memory := (stored.write 4 9).writeSlot 1 (.live meter)

theorem swapped_index : (swapped.insertSerial 5 0).IndexSound := by
  have h : ∀ c ∈ swapped, c.1 < Config.indexBase := by decide +kernel
  exact Memory.IndexSound.insertSerial (fun n hn hz => (hz (entrySerial_of_slots h hn)).elim)
    (by decide +kernel) 5 0 (by decide +kernel)

theorem witness_routes_are_recovered :
    scanned.Ok ∧ scanned.power = .on ∧ scanned.route.scanning = some .recovery ∧
    scanned.matching.inHand = none ∧ scanned.store.queue = [] ∧
    (∀ state, (scanAt stored state).state.Ok ∧ (scanAt stored state).state.route.scanning ≠ none) ∧
    ((scanAt stored .closed).state.scanRead 0).1.good = true ∧
    wordAt ((scanAt stored .closed).state.scanRead 0).1.bytes 0 = 5 ∧
    Contents.ofBytes ((scanAt stored .closed).state.scanRead 0).1.bytes = .live meter ∧
    wordAt ((scanAt [] .closed).state.scanRead 0).1.bytes 0 = 0 ∧
    ((scanAt (stored.write 4 9) .closed).state.scanRead 0).1.good = false ∧
    ((scanAt stored .closed).slot 0).state.directory.get 0 = some ⟨.live .missed, none, [], false⟩ ∧
    ((scanAt stored .empty).slot 0).state.queued 0 = some .free ∧
    (let twice := ((scanAt swapped .closed).slot 0).slot 1
     twice.failed = [] ∧ twice.state.directory.get 0 = none ∧ twice.state.mem.lookup 5 = some 1) ∧
    (let once := (scanAt swapped .closed).slot 0
     let read := once.state.scanRead 1
     wordAt read.1.bytes 0 = 5 ∧ read.1.good = true ∧ read.2.route.state ≠ .empty ∧
     read.2.mem.lookup 5 = some 0 ∧ 0 ∈ once.failed ∧ (∀ k ∈ once.failed, k < 1) ∧
     (∀ q ∈ read.2.store.queue, q.slot < 8192) ∧ once.state.route.scanning ≠ none ∧
     read.2.mem.entrySerial 16383 = 0 ∧ read.2.mem = swapped.insertSerial 5 0 ∧
     (swapped.insertSerial 5 0).IndexSound ∧
     (once.slot 1).state.cached 1 = .live { meter with status := .missed, segment := none }) ∧
    Contents.ofBytes ((scanAt (Memory.writeSlot [] 0 (.fault 5 none)) .closed).state.scanRead 0).1.bytes =
      .fault 5 none := by
  refine ⟨scanned_ok, rfl, rfl, rfl, rfl,
    fun _ => ⟨(scanned_ok.withMem (by decide +kernel)).withRoute _, nofun⟩, ?_, ?_, ?_, ?_, ?_, ?_, ?_, ?_,
    ⟨?_, ?_, ?_, ?_, ?_, ?_, ?_, ?_, ?_, ?_, swapped_index, ?_⟩, ?_⟩ <;> decide +kernel

/-! ### Small tests of the commands, each one step -/

/-- What a command answers: the response that waits. -/
def answer (c : Instr) (s : State) : List Byte := (after c s).command.response

theorem test_header_takes_the_defaults :
    (after (.routeHeader headerParams) State.reset).route.header = some header := by decide

theorem test_load_answers_its_slot :
    answer (.recordLoad { loadParams with serial := 6 }) (day .loading .unvisited meter) = [1, 2, 0, 1] := by
  decide +kernel

theorem test_load_reopens_a_complete_segment :
    let t := after (.recordLoad { loadParams with serial := 6 }) (day .opened .complete meter)
    (t.segment 1).outstanding = 2 := by decide +kernel

theorem test_load_of_a_known_serial :
    answer (.recordLoad loadParams) (day .opened .unvisited meter) = [5, 0] := by decide +kernel

/-- The 75 bytes of the record layout of R173, written out for the flagged meter. -/
theorem test_lookup_layout :
    answer (.recordLookup 5 0) (day .opened .unvisited flagged) = [1, 75, 0, 0, 0, 0, 0, 5, 0, 16, 1, 1, 5,
      0, 1, 0x86, 0x1E, 0, 70, 0, 40, 0, 1, 9, 4,
      1, 0, 0, 0, 130, 0, 0, 0, 0, 4, 0, 0, 0, 50, 0, 0] ++ zeros 16 ++
      [0, 200, 1, 0, 0, 0, 50, 0, 0, 0, 0, 0, 0, 0, 0, 0, 0, 0, 0, 0] := by decide +kernel

theorem test_reread_of_a_flagged_record :
    answer (.recordAmend (amendment 2)) (day .opened .complete flagged) = [1, 3, 1, 1, 0] := by decide +kernel

theorem test_reread_in_closed :
    answer (.recordAmend (amendment 2)) (day .closed .complete flagged) = [8, 0] := by decide +kernel

theorem test_note_takes_block_zero :
    let t := after (.recordNote 5 [0x48, 0x69]) (day .opened .unvisited meter)
    t.chain 0 = [(0, .note)] ∧ Block.ofBytes (t.mem.blockBytes 0) = some (.note endMarker [0x48, 0x69]) := by
  decide +kernel

theorem test_retiring_the_last_record_empties_the_route :
    answer (.recordRetire 5) (day .closed .abandoned meter) = [1, 3, 0, 0, 1] := by decide +kernel

theorem test_retire_in_a_batch :
    answer (.recordRetire 5) (docked (day .closed .abandoned { meter with batch := some 0 }) .awaiting
      .running [(0, 5)]) = [9, 0] := by decide +kernel

theorem test_walk_entry :
    answer (.recordWalk 0 1 0xFE) (day .opened .unvisited meter) = [1, 29, 1, 0xFF, 0xFF, 0xFF, 0xFF, 0, 0,
      0, 0, 0, 5, 0, 16, 1, 1, 0, 0, 0, 0, 0, 0, 0, 0, 0, 0, 0, 0, 0, 0] := by decide +kernel

theorem test_define_overlap :
    answer (.segmentDefine 2 0 1 0) (day .loading .unvisited meter) = [7, 0] := by decide +kernel

theorem test_define_enables :
    let t := after (.segmentDefine 0 2 9 5) (day .loading .unvisited meter)
    t.segments.plan = [0, 1] ∧ (t.segment 0).state = .unvisited := by decide +kernel

theorem test_enter_arms_the_dwell_compare :
    let t := after (.segmentEnter 1) (day .opened .unvisited meter)
    t.segments.dwellTarget = some 1 ∧ t.segments.active = some 1 ∧ t.segments.plan = [] := by decide +kernel

theorem test_leave_counts_a_missed_record :
    answer .segmentLeave (day .opened .active meter) = [1, 9, 1, 3, 1, 0, 1, 0, 0, 0, 0] := by decide +kernel

theorem test_leave_completes_a_segment :
    answer .segmentLeave (day .opened .active held) = [1, 9, 1, 4, 0, 0, 0, 0, 1, 0, 0] := by decide +kernel

theorem test_close_misses_the_record :
    answer .routeClose (day .opened .active meter) = [1, 8, 1, 3, 0, 1, 0, 0, 0, 0] ∧
    ((after .routeClose (day .opened .active meter)).segment 1).state = .abandoned := by decide +kernel

theorem test_plan_move_readmits :
    answer (.planMove 1 9) (day .opened .abandoned meter) = [1, 1, 0] := by decide +kernel

theorem test_plan_read :
    answer .planRead (day .opened .unvisited meter) = [1, 7, 1, 0xFF, 1, 1, 1, 0, 1] := by decide +kernel

theorem test_tamper_ack :
    let s := (day .opened .complete flagged).flaggedReport 0 flagged
    answer (.tamperAck 5) s = [1, 2, 200, 1] ∧ (after (.tamperAck 5) s).tamper.entries = [] := by decide +kernel

theorem test_pulse_begins_with_an_insertion :
    (((after (.cabMode 2 0) State.reset).flaggedReport 0 flagged).cabActive) = true := by decide +kernel

theorem test_frame_completes :
    (after (.portByte 3 0x50) (listeningPort (frameBytes.take 16) [])).port 3 =
      { (listeningPort [] []).port 3 with
        received := 1, buffer := [{ frame 130 with arrival := 0, port := 3 }] } := by decide +kernel

/-- R58: a byte that comes between two ports of a report goes first, and the ports still to be read show it. -/
theorem test_report_reads_the_ports_one_after_another :
    let t := after (.portByte 3 0x50) (reporting 3 (zeros 33) (listeningPort (frameBytes.take 16) []))
    t.command.unit = .responding ∧
    t.command.response = [1, 44] ++ zeros 33 ++ [1, 0, 1, 0, 1, 0, 0, 0, 0, 0, 0] := by decide +kernel

/-- R36: the upload engine reads and marks the record beside a walk, as a grant of its own. -/
theorem test_upload_engine_works_beside_a_walk :
    let t := (busy .matching (marking .running)).uploadStep
    (t.depot.forming.map fun w => match w with
      | .marking _ todo packed => (todo.length, packed.length)
      | .surveying .. => (0, 0)) = some (0, 1) ∧
    t.store.granted = .upload ∧ t.cached 0 = .live { missed with batch := some 0 } := by decide +kernel

theorem test_frame_makes_the_meter_read :
    let t := after .frameMatch (inHand (day .opened .unvisited meter) (frame 130))
    t.directory.get 0 = some ⟨.live .read, some 1, [], false⟩ ∧ (t.segment 1).state = .complete ∧
    t.events.pending = 0x202 := by decide +kernel

/-- R152: a record retired after the survey is left out, the batch is not refilled, and with none left no OFFER goes
out, though the cursor is the key of the last record chosen. -/
theorem test_marking_leaves_a_retired_record_out :
    let t := after .batchForm ((marking .running).withDirectory [])
    t.depot.outstanding = [] ∧ t.depot.link = .attached ∧ t.depot.cursor = some ⟨.missed, 16, 0⟩ ∧
    t.depot.forming = none := by decide

/-- R157: a marking that has begun goes on in a STOPPING engine, and the OFFER goes out. -/
theorem test_a_stop_lets_the_marking_finish :
    let t := after .batchForm (marking .stopping)
    t.depot.outstanding = [(0, 5)] ∧ t.depot.link = .sending := by decide

/-- R157: a removal from the dock ends a marking. -/
theorem test_removal_ends_the_marking : (after .dockRemoval (marking .running)).depot.forming = none := by decide

theorem test_frame_at_a_closed_gate :
    (after .frameTake (listeningPort [] [frame 1])).matching.drops = 1 := by decide +kernel

theorem test_flush_waits_for_its_image :
    let t := after .flush (day .opened .unvisited meter)
    t.store.queue = [⟨0, .live meter⟩] ∧ t.command.unit = .executing (.flush 1) ∧
    (after .writeQueueWrite t).command.unit = .executing (.flush 0) := by decide +kernel

/-- R34, R36: one access is granted, the read of one EMPTY index entry, and the oldest of two images is written. -/
theorem test_granted_access_writes_the_oldest_image :
    let t := after (.recordLookup 9 0) (full [⟨1, .live meter⟩, ⟨2, .free⟩])
    t.store.queue = [⟨2, .free⟩] ∧ Contents.ofBytes (t.mem.slotBytes 1) = .live meter ∧
    t.store.granted = .command := by decide +kernel

theorem test_image_reaches_memory :
    Contents.ofBytes ((after .writeQueueWrite (full [⟨1, .live meter⟩])).mem.slotBytes 1) = .live meter := by
  decide +kernel

theorem test_offer_begins :
    ((after .batchForm (docked (day .closed .abandoned missed) .attached .running [])).depot.tx.take 13) =
      [0xA6, 0, 0, 39, 1, 0, 0, 0, 7, 0, 1, 0, 1] := by decide +kernel

theorem test_accepting_verdict_empties_the_route :
    let s := docked (day .closed .abandoned { missed with batch := some 0 }) .awaiting .running [(0, 5)]
    let t := after (.depotByte 0x68) (s.withDepot { s.depot with rx := [0xA6, 8, 2, 0, 0, 1, 0xEE] })
    t.route.state = .empty ∧ t.depot.accepted = 1 ∧ t.depot.batchNumber = 1 := by decide +kernel

theorem test_third_timeout_faults_the_link :
    let s := docked (day .closed .abandoned { missed with batch := some 0 }) .awaiting .running [(0, 5)]
    let t := after .verdictTimeout (s.withDepot { s.depot with failures := 2 })
    t.depot.link = .faulted ∧ t.events.pending = 0x280 := by decide +kernel

theorem test_upload_of_nothing_finishes :
    (after .batchForm (docked (day .closed .abandoned meter) .attached .running [])).events.pending = 0x240 := by
  decide +kernel

/-- R137: the checkpoint of the 600th tenth holds 600, though the clock has moved on when it is written. -/
theorem test_clock_reaches_a_checkpoint :
    let s := day .opened .unvisited meter
    let t := after .routeClockTick (s.withRoute { s.route with clock := 599 })
    t.route.checkpointsDue = [600] ∧
    (after .clockCheckpoint (after .routeClockTick t)).mem.item 4 = wordBytes 600 := by
  decide +kernel

theorem test_events_read_as_they_stood : answer (.eventsRead 0x200) State.reset = [1, 6, 2, 0, 0, 0, 0, 0] := by
  decide +kernel

theorem test_dwell_expires :
    let s := day .opened .active meter
    (after .dwellCompareExpire (s.withRoute { s.route with clock := 1 })).events.pending = 0x204 := by
  decide +kernel

/-- R125: the compare expires within a long walk: the walk then goes on, and the segment is left. -/
theorem test_dwell_expires_within_a_walk :
    let s := day .opened .active meter
    let t := after .dwellCompareExpire ((s.withRoute { s.route with clock := 1 }).holdWalk ⟨1, 8192, ⟨1, 0, 0⟩, none⟩)
    t.events.pending = 0x204 ∧ (t.segment 1).overrun = true ∧ t.command.unit = .responding ∧ t.segments.active = none := by
  decide

/-- R36: round from the unit after the one granted last. -/
theorem test_turns :
    let s := fun u => State.reset.withStore { State.reset.store with granted := u }
    (s .upload).beforeInTurn .matching .command = true ∧ (s .matching).beforeInTurn .upload .matching = true ∧
    (s .matching).beforeInTurn .matching .command = false ∧ (s .command).beforeInTurn .upload .matching = true := by
  decide

end Sys2Proof.Tests
end

