-- ==== Sys2Proof/Proofs/Bounds.lean ====
section
/-! PROOF. Every step keeps the bounds, the segment counters and the soundness of the copies (O5): the laws of the
single rows, gathered over the table of rows. -/

namespace Sys2Proof.Machine

variable {s t : State}

/-- Every row keeps the bounds and orders of every block. -/
theorem exec_ok (h : s.Ok) : ∀ c : Instr, resultOk (exec c s)
  | .routeHeader p => execRouteHeader_ok h p
  | .routeOpen => execRouteOpen_ok h
  | .openScan => execOpenScan_ok h
  | .routeClose => execRouteClose_ok h
  | .routeClear => execRouteClear_ok h
  | .routeStatus => execRouteStatus_ok h
  | .recordLoad p => execRecordLoad_ok h p
  | .recordLookup serial wanted => execRecordLookup_ok h serial wanted
  | .recordAmend p => execRecordAmend_ok h p
  | .recordNote serial text => execRecordNote_ok h serial text
  | .recordRetire serial => execRecordRetire_ok h serial
  | .recordWalk start statuses filter => execRecordWalk_ok h start statuses filter
  | .segmentDefine segment base limit dwell => execSegmentDefine_ok h segment base limit dwell
  | .segmentEnter segment => execSegmentEnter_ok h segment
  | .segmentLeave => execSegmentLeave_ok h
  | .segmentStatus segment => execSegmentStatus_ok h segment
  | .planRead => execPlanRead_ok h
  | .planMove segment position => execPlanMove_ok h segment position
  | .tamperRead => execTamperRead_ok h
  | .tamperAck serial => execTamperAck_ok h serial
  | .cabMode mode invert => execCabMode_ok h mode invert
  | .portMode port mode => execPortMode_ok h port mode
  | .portReset port => execPortReset_ok h port
  | .resetPulseEnd => execResetPulseEnd_ok h
  | .portStatus => execPortStatus_ok h
  | .uploadStart => execUploadStart_ok h
  | .uploadStop => execUploadStop_ok h
  | .uploadStatus => execUploadStatus_ok h
  | .eventsRead clear => execEventsRead_ok h clear
  | .eventsEnable enable => execEventsEnable_ok h enable
  | .flush => execFlush_ok h
  | .flushDrainDone => execFlushDrainDone_ok h
  | .partReset => execPartReset_ok h
  | .badCommandBlock direction block => execBadCommandBlock_ok h direction block
  | .commandCollision => execCommandCollision_ok h
  | .responseRead direction clocks => execResponseRead_ok h direction clocks
  | .portByte port byte => execPortByte_ok h port byte
  | .byteGapTimeout port => execByteGapTimeout_ok h port
  | .frameTake => execFrameTake_ok h
  | .frameMatch => execFrameMatch_ok h
  | .writeQueueWrite => execWriteQueueWrite_ok h
  | .routeClockTick => execRouteClockTick_ok h
  | .clockCheckpoint => execClockCheckpoint_ok h
  | .dwellCompareExpire => execDwellCompareExpire_ok h
  | .pulseTimerExpire => execPulseTimerExpire_ok h
  | .powerWarning => execPowerWarning_ok h
  | .powerUp => execPowerUp_ok h
  | .recoveryScan => execRecoveryScan_ok h
  | .dockAttach => execDockAttach_ok h
  | .dockRemoval => execDockRemoval_ok h
  | .batchForm => execBatchForm_ok h
  | .offerSent => execOfferSent_ok h
  | .depotByte byte => execDepotByte_ok h byte
  | .depotByteGapTimeout => execDepotByteGapTimeout_ok h
  | .verdictTimeout => execVerdictTimeout_ok h
  | .powerLoss loss => execPowerLoss_ok h loss

/-- Every row keeps the segment counters level with the directory. -/
theorem exec_keeps (s : State) : ∀ c : Instr, keepsResult s (exec c s)
  | .routeHeader p => execRouteHeader_keeps p s
  | .routeOpen => execRouteOpen_keeps s
  | .openScan => execOpenScan_keeps s
  | .routeClose => execRouteClose_keeps s
  | .routeClear => execRouteClear_keeps s
  | .routeStatus => execRouteStatus_keeps s
  | .recordLoad p => execRecordLoad_keeps p s
  | .recordLookup serial wanted => execRecordLookup_keeps serial wanted s
  | .recordAmend p => execRecordAmend_keeps p s
  | .recordNote serial text => execRecordNote_keeps serial text s
  | .recordRetire serial => execRecordRetire_keeps serial s
  | .recordWalk start statuses filter => execRecordWalk_keeps start statuses filter s
  | .segmentDefine segment base limit dwell => execSegmentDefine_keeps segment base limit dwell s
  | .segmentEnter segment => execSegmentEnter_keeps segment s
  | .segmentLeave => execSegmentLeave_keeps s
  | .segmentStatus segment => execSegmentStatus_keeps segment s
  | .planRead => execPlanRead_keeps s
  | .planMove segment position => execPlanMove_keeps segment position s
  | .tamperRead => execTamperRead_keeps s
  | .tamperAck serial => execTamperAck_keeps serial s
  | .cabMode mode invert => execCabMode_keeps mode invert s
  | .portMode port mode => execPortMode_keeps port mode s
  | .portReset port => execPortReset_keeps port s
  | .resetPulseEnd => execResetPulseEnd_keeps s
  | .portStatus => execPortStatus_keeps s
  | .uploadStart => execUploadStart_keeps s
  | .uploadStop => execUploadStop_keeps s
  | .uploadStatus => execUploadStatus_keeps s
  | .eventsRead clear => execEventsRead_keeps clear s
  | .eventsEnable enable => execEventsEnable_keeps enable s
  | .flush => execFlush_keeps s
  | .flushDrainDone => execFlushDrainDone_keeps s
  | .partReset => execPartReset_keeps s
  | .badCommandBlock direction block => execBadCommandBlock_keeps direction block s
  | .commandCollision => execCommandCollision_keeps s
  | .responseRead direction clocks => execResponseRead_keeps direction clocks s
  | .portByte port byte => execPortByte_keeps port byte s
  | .byteGapTimeout port => execByteGapTimeout_keeps port s
  | .frameTake => execFrameTake_keeps s
  | .frameMatch => execFrameMatch_keeps s
  | .writeQueueWrite => execWriteQueueWrite_keeps s
  | .routeClockTick => execRouteClockTick_keeps s
  | .clockCheckpoint => execClockCheckpoint_keeps s
  | .dwellCompareExpire => execDwellCompareExpire_keeps s
  | .pulseTimerExpire => execPulseTimerExpire_keeps s
  | .powerWarning => execPowerWarning_keeps s
  | .powerUp => execPowerUp_keeps s
  | .recoveryScan => execRecoveryScan_keeps s
  | .dockAttach => execDockAttach_keeps s
  | .dockRemoval => execDockRemoval_keeps s
  | .batchForm => execBatchForm_keeps s
  | .offerSent => execOfferSent_keeps s
  | .depotByte byte => execDepotByte_keeps byte s
  | .depotByteGapTimeout => execDepotByteGapTimeout_keeps s
  | .verdictTimeout => execVerdictTimeout_keeps s
  | .powerLoss loss => execPowerLoss_keeps loss s

/-- Every row but a loss of the supply that damages memory keeps every copy of a record sound. -/
theorem exec_sound (h : s.Fine) : ∀ c : Instr, (∀ loss, c = .powerLoss loss → loss = .clean) → resultSound (exec c s)
  | .routeHeader p, _ => execRouteHeader_sound h p
  | .routeOpen, _ => execRouteOpen_sound h.sound
  | .openScan, _ => execOpenScan_sound h
  | .routeClose, _ => execRouteClose_sound h
  | .routeClear, _ => execRouteClear_sound h
  | .routeStatus, _ => execRouteStatus_sound h.sound
  | .recordLoad p, _ => execRecordLoad_sound h p
  | .recordLookup serial wanted, _ => execRecordLookup_sound h serial wanted
  | .recordAmend p, _ => execRecordAmend_sound h p
  | .recordNote serial text, _ => execRecordNote_sound h serial text
  | .recordRetire serial, _ => execRecordRetire_sound h serial
  | .recordWalk start statuses filter, _ => execRecordWalk_sound h start statuses filter
  | .segmentDefine segment base limit dwell, _ => execSegmentDefine_sound h segment base limit dwell
  | .segmentEnter segment, _ => execSegmentEnter_sound h segment
  | .segmentLeave, _ => execSegmentLeave_sound h
  | .segmentStatus segment, _ => execSegmentStatus_sound h.sound segment
  | .planRead, _ => execPlanRead_sound h.sound
  | .planMove segment position, _ => execPlanMove_sound h segment position
  | .tamperRead, _ => execTamperRead_sound h.sound
  | .tamperAck serial, _ => execTamperAck_sound h serial
  | .cabMode mode invert, _ => execCabMode_sound h.sound mode invert
  | .portMode port mode, _ => execPortMode_sound h.sound port mode
  | .portReset port, _ => execPortReset_sound h.sound port
  | .resetPulseEnd, _ => execResetPulseEnd_sound h.sound
  | .portStatus, _ => execPortStatus_sound h.sound
  | .uploadStart, _ => execUploadStart_sound h.sound
  | .uploadStop, _ => execUploadStop_sound h.sound
  | .uploadStatus, _ => execUploadStatus_sound h.sound
  | .eventsRead clear, _ => execEventsRead_sound h.sound clear
  | .eventsEnable enable, _ => execEventsEnable_sound h.sound enable
  | .flush, _ => execFlush_sound h
  | .flushDrainDone, _ => execFlushDrainDone_sound h.sound
  | .partReset, _ => execPartReset_sound h
  | .badCommandBlock direction block, _ => execBadCommandBlock_sound h.sound direction block
  | .commandCollision, _ => execCommandCollision_sound h.sound
  | .responseRead direction clocks, _ => execResponseRead_sound h.sound direction clocks
  | .portByte port byte, _ => execPortByte_sound h.sound port byte
  | .byteGapTimeout port, _ => execByteGapTimeout_sound h.sound port
  | .frameTake, _ => execFrameTake_sound h
  | .frameMatch, _ => execFrameMatch_sound h
  | .writeQueueWrite, _ => execWriteQueueWrite_sound h
  | .routeClockTick, _ => execRouteClockTick_sound h
  | .clockCheckpoint, _ => execClockCheckpoint_sound h
  | .dwellCompareExpire, _ => execDwellCompareExpire_sound h
  | .pulseTimerExpire, _ => execPulseTimerExpire_sound h.sound
  | .powerWarning, _ => execPowerWarning_sound h
  | .powerUp, _ => execPowerUp_sound h.sound
  | .recoveryScan, _ => execRecoveryScan_sound h
  | .dockAttach, _ => execDockAttach_sound h.sound
  | .dockRemoval, _ => execDockRemoval_sound h
  | .batchForm, _ => execBatchForm_sound h
  | .offerSent, _ => execOfferSent_sound h.sound
  | .depotByte byte, _ => execDepotByte_sound h byte
  | .depotByteGapTimeout, _ => execDepotByteGapTimeout_sound h.sound
  | .verdictTimeout, _ => execVerdictTimeout_sound h
  | .powerLoss loss, hc => by
    rw [hc loss rfl]
    exact execPowerLoss_clean_sound h.sound

/-- With the directory in order, level counters are the counters of the directory. -/
theorem State.Ok.levels_iff (h : s.Ok) : s.Levels ↔ s.Counted :=
  ⟨fun ⟨b, hb⟩ => ((level_iff s b).1 hb).2,
    fun hc => ⟨8192, (level_iff s 8192).2 ⟨⟨h.directory.rising, h.directory.inArea⟩, hc⟩⟩⟩

/-- Settles O5: an idle step changes nothing; a step with a row in front is that row's work on the state with the rest
of the queue, where the laws of the rows apply. -/
theorem stepKeepsEveryBound : Obligations.StepKeepsEveryBound := by
  unfold Obligations.StepKeepsEveryBound
  intro s t h ht
  cases hp : s.pending with
  | nil =>
    rw [step, hp] at ht
    cases ht
    exact ⟨h, id, fun _ => id⟩
  | cons c rest =>
    rw [step, hp] at ht
    have hr : (s.withPending rest).Ok := h.withPending rest
    have hok : t.Ok := exec_ok hr c t ht
    refine ⟨hok, fun hc => ?_, fun hl hs => ?_⟩
    · have hlev : (s.withPending rest).Levels := h.levels_iff.2 hc
      exact hok.levels_iff.1 (exec_keeps _ c t ht hlev)
    · exact exec_sound ⟨hr, hs.withPending rest⟩ c (fun loss e => hl loss rest (by rw [e])) t ht

end Sys2Proof.Machine
end

