-- ==== Sys2Proof/Proofs/Layouts.lean ====
section
/-! PROOF. Base records and extension blocks read back from their bytes (O14, O15). -/

namespace Sys2Proof.Machine

/-- The status byte of a base record is at offset 9. -/
theorem Record.status_of_body (r : Record) (tail : List Byte) : byteAt (r.body ++ tail) 9 = r.status.code := by
  simp only [Record.body, wordBytes, halfBytes, List.cons_append, List.nil_append]
  rfl

/-- No record that is not FAULT has the status code of FAULT. -/
theorem LiveStatus.code_ne_fault (x : LiveStatus) : x.code ≠ 6 := by cases x <;> decide

theorem Contents.ofBytes_free : Contents.ofBytes Contents.free.image = .free := by decide

theorem Contents.ofBytes_fault {serial : Word} (h : serial ≠ 0) (segment : Option Seg) :
    Contents.ofBytes (Contents.fault serial segment).image = .fault serial segment := by
  have hw : wordAt (Contents.fault serial segment).image 0 = serial := wordBytes_join serial
  have hs : byteAt (Contents.fault serial segment).image 6 = segByte segment := rfl
  have hc : byteAt (Contents.fault serial segment).image 9 = 6 := rfl
  rw [Contents.ofBytes, hw, hs, hc, if_neg h, if_pos rfl, segOfByte_segByte]

theorem Contents.ofBytes_live {r : Record} (h : r.serial ≠ 0) :
    Contents.ofBytes (Contents.live r).image = .live r := by
  have himage : (Contents.live r).image = r.body ++ [crc8 r.body] := rfl
  rw [himage, Contents.ofBytes, Record.serial_of_body, if_neg h, Record.status_of_body,
    if_neg (LiveStatus.code_ne_fault _), Record.ofBody_body]

/-- Settles O14: the three layouts of a slot, each read back. -/
theorem baseRecordsReadBack : Obligations.BaseRecordsReadBack := by
  unfold Obligations.BaseRecordsReadBack
  intro c hlive hfault
  obtain ⟨hlength, hcheck⟩ := c.image_checked
  refine ⟨hlength, hcheck, ?_⟩
  cases c with
  | free => exact Contents.ofBytes_free
  | fault serial segment => exact Contents.ofBytes_fault (hfault serial segment rfl) segment
  | live r => exact Contents.ofBytes_live (hlive r rfl)

/-! ### Extension blocks -/

/-- The bytes of a block's body before its contents: the kind, the next block and the count. -/
theorem Block.head_of_body (kind count : Byte) (next : Half) (l : List Byte) :
    let bs := [kind] ++ halfBytes next ++ [count] ++ l
    byteAt bs 0 = kind ∧ halfAt bs 1 = next ∧ byteAt bs 3 = count :=
  ⟨rfl, halfBytes_join next, rfl⟩

/-- What the first 24 bytes of a padded field begin with, when they hold all of it. -/
theorem take_padded {l : List Byte} (h : l.length ≤ 24) : (l ++ zeros 24).take 24 = l ++ zeros (24 - l.length) := by
  rw [List.take_append, List.take_of_length_le h, zeros, zeros, List.take_replicate]
  congr 2
  omega

theorem Block.ofBytes_note {next : Half} {text : List Byte} (hn : nextAllowed next = true)
    (h1 : 1 ≤ text.length) (h2 : text.length ≤ 24) :
    checkHolds 32 (Block.note next text).image = true →
    Block.ofBytes (Block.note next text).image = some (.note next text) := by
  intro hcheck
  have himage : (Block.note next text).image = [1] ++ halfBytes next ++ [natByte text.length] ++
      (text ++ (zeros (24 - text.length) ++ zeros 3 ++ [crc8 (Block.note next text).body])) := by
    simp only [Block.image, withCheck, Block.body, take_padded h2, List.append_assoc]
  have hcount : (natByte text.length).toNat = text.length := by simp [natByte]; omega
  rw [himage] at hcheck ⊢
  obtain ⟨hk, hx, hc⟩ := Block.head_of_body 1 (natByte text.length) next
    (text ++ (zeros (24 - text.length) ++ zeros 3 ++ [crc8 (Block.note next text).body]))
  simp only [Block.ofBytes, hcheck, hk, hx, hc, hn, hcount, h1, h2]
  simp [halfBytes]

theorem Block.ofBytes_interval {next : Half} {values : List Half} (hn : nextAllowed next = true)
    (h1 : 1 ≤ values.length) (h2 : values.length ≤ 6) :
    checkHolds 32 (Block.interval next values).image = true →
    Block.ofBytes (Block.interval next values).image = some (.interval next values) := by
  intro hcheck
  have hlength := flatMap_halfBytes_length values
  have himage : (Block.interval next values).image = [2] ++ halfBytes next ++ [natByte values.length] ++
      (values.flatMap halfBytes ++ (zeros (24 - (values.flatMap halfBytes).length) ++ zeros 3 ++
        [crc8 (Block.interval next values).body])) := by
    simp only [Block.image, withCheck, Block.body, take_padded (show (values.flatMap halfBytes).length ≤ 24 by omega),
      List.append_assoc]
  have hcount : (natByte values.length).toNat = values.length := by simp [natByte]; omega
  rw [himage] at hcheck ⊢
  obtain ⟨hk, hx, hc⟩ := Block.head_of_body 2 (natByte values.length) next (values.flatMap halfBytes ++
    (zeros (24 - (values.flatMap halfBytes).length) ++ zeros 3 ++ [crc8 (Block.interval next values).body]))
  have hvalues := halvesAt_flatMap values ([2] ++ halfBytes next ++ [natByte values.length])
    (zeros (24 - (values.flatMap halfBytes).length) ++ zeros 3 ++ [crc8 (Block.interval next values).body]) 4 rfl
  simp only [Block.ofBytes, hcheck, hk, hx, hc, hn, hcount, h1, h2, hvalues]
  simp

/-- Settles O15: the check byte of the 32 bytes holds, and the two kinds of block are read back. -/
theorem extensionBlocksReadBack : Obligations.ExtensionBlocksReadBack := by
  unfold Obligations.ExtensionBlocksReadBack
  intro b hn hnote hinterval
  have hbody : b.body.length = 31 := b.body_length (fun _ _ e => (hnote _ _ e).2) (fun _ _ e => (hinterval _ _ e).2)
  have hcheck : checkHolds 32 b.image = true := checkHolds_withCheck b.body 31 hbody
  refine ⟨by rw [Block.image, withCheck, List.length_append, hbody]; rfl, ?_⟩
  cases b with
  | note next text =>
    obtain ⟨h1, h2⟩ := hnote next text rfl
    exact Block.ofBytes_note hn h1 h2 hcheck
  | interval next values =>
    obtain ⟨h1, h2⟩ := hinterval next values rfl
    exact Block.ofBytes_interval hn h1 h2 hcheck

end Sys2Proof.Machine
end

