-- ==== Sys2Proof/Proofs/Frames.lean ====
section
/-! PROOF. What a frame may change of a record, and what its pre-checks add (O25). -/

namespace Sys2Proof.Machine

/-! ### Evidence sets as bytes -/

/-- The bit that a kind of evidence has in its set's byte. -/
def EvidenceKind.bit : EvidenceKind → Byte
  | .magnet => 0x01 | .cover => 0x02 | .reverse => 0x04 | .regress => 0x08
  | .low => 0x10 | .stopped => 0x20 | .repower => 0x40 | .identity => 0x80

theorem packBits_or : ∀ a b c d e f g h : Bool,
    packBits true b c d e f g h = packBits a b c d e f g h ||| 0x01 ∧
    packBits a true c d e f g h = packBits a b c d e f g h ||| 0x02 ∧
    packBits a b true d e f g h = packBits a b c d e f g h ||| 0x04 ∧
    packBits a b c true e f g h = packBits a b c d e f g h ||| 0x08 ∧
    packBits a b c d true f g h = packBits a b c d e f g h ||| 0x10 ∧
    packBits a b c d e true g h = packBits a b c d e f g h ||| 0x20 ∧
    packBits a b c d e f true h = packBits a b c d e f g h ||| 0x40 ∧
    packBits a b c d e f g true = packBits a b c d e f g h ||| 0x80 := by decide

theorem Evidence.byte_add (e : Evidence) (k : EvidenceKind) : (e.add k).byte = e.byte ||| k.bit := by
  obtain ⟨h0, h1, h2, h3, h4, h5, h6, h7⟩ :=
    packBits_or e.magnet e.cover e.reverse e.regress e.low e.stopped e.repower e.identity
  cases k
  · exact h0
  · exact h1
  · exact h2
  · exact h3
  · exact h4
  · exact h5
  · exact h6
  · exact h7

theorem Evidence.byte_addIf (e : Evidence) (cause : Bool) (k : EvidenceKind) :
    (e.addIf cause k).byte = e.byte ||| (if cause then k.bit else 0) := by
  cases cause
  · simp [Evidence.addIf]
  · simp [Evidence.addIf, Evidence.byte_add]

/-! ### What a frame's work after its pre-checks leaves of a record -/

/-- The evidence that the pre-checks alone bring: MAGNET, COVER and REPOWER (R66, R67). -/
def flagBits : Byte := 0x43

/-- What the per-status rules and the threshold step leave of a record: everything but its status, readings, evidence,
score, flag time and acknowledged mark; and of its evidence, all that is there, with no MAGNET, COVER or REPOWER
new. -/
structure Record.Moved (r r' : Record) : Prop where
  same : r' = { r with
    status := r'.status, current := r'.current, candidate := r'.candidate, evidence := r'.evidence
    score := r'.score, flagTime := r'.flagTime
    marks := { r.marks with acknowledged := r'.marks.acknowledged } }
  kept : r'.evidence.byte ||| r.evidence.byte = r'.evidence.byte
  flags : r'.evidence.byte &&& flagBits = r.evidence.byte &&& flagBits

theorem Record.Moved.refl (r : Record) : r.Moved r := ⟨rfl, BitVec.or_self, rfl⟩

theorem Record.Moved.trans {r r1 r2 : Record} (h : r.Moved r1) (h1 : r1.Moved r2) : r.Moved r2 where
  same := by rw [h1.same, h.same]
  kept := by rw [← h1.kept, BitVec.or_assoc, h.kept]
  flags := h1.flags.trans h.flags

/-- A record that differs in status, readings, score, flag time and acknowledged mark alone has moved. -/
theorem Record.Moved.of_evidence {r r' : Record} (hs : r' = { r with
    status := r'.status, current := r'.current, candidate := r'.candidate, evidence := r'.evidence
    score := r'.score, flagTime := r'.flagTime
    marks := { r.marks with acknowledged := r'.marks.acknowledged } })
    (he : r'.evidence = r.evidence) : r.Moved r' := ⟨hs, by rw [he, BitVec.or_self], by rw [he]⟩

/-- A kind of evidence that is not one of the pre-checks' three joins the set. -/
theorem Record.Moved.of_add {r r' : Record} {k : EvidenceKind} (hk : k.bit &&& flagBits = 0) (hs : r' = { r with
    status := r'.status, current := r'.current, candidate := r'.candidate, evidence := r'.evidence
    score := r'.score, flagTime := r'.flagTime
    marks := { r.marks with acknowledged := r'.marks.acknowledged } })
    (he : r'.evidence = r.evidence.add k) : r.Moved r' where
  same := hs
  kept := by rw [he, Evidence.byte_add, BitVec.or_assoc, BitVec.or_comm k.bit, ← BitVec.or_assoc, BitVec.or_self]
  flags := by
    rw [he, Evidence.byte_add]
    ext i hi
    have hbit : (k.bit &&& flagBits)[i] = false := by rw [hk]; simp
    simp only [BitVec.getElem_and] at hbit
    simp only [BitVec.getElem_and, BitVec.getElem_or, Bool.and_or_distrib_right, hbit, Bool.or_false]

/-- The evidence of a reading is none of the pre-checks' three (R91). -/
theorem assess_evidence (a : Assessment) (r : Record) (reading : Nat) {k : EvidenceKind}
    (h : (assess a r reading).evidence = some k) : k.bit &&& flagBits = 0 := by
  unfold assess at h
  dsimp only at h
  split_ifs at h <;> cases h <;> rfl

theorem Record.moved_firstReading (h : Header) (a : Assessment) (r : Record) (f : Frame) :
    r.Moved (r.firstReading h a f) := by
  cases he : (assess a r f.reading.toNat).evidence with
  | none =>
    refine .of_evidence ?_ ?_ <;> simp only [Record.firstReading, he] <;> split_ifs <;> rfl
  | some k =>
    refine .of_add (assess_evidence a r _ he) ?_ ?_ <;> simp only [Record.firstReading, he] <;> split_ifs <;> rfl

theorem Record.moved_laterFrame (h : Header) (r : Record) (f : Frame) : r.Moved (r.laterFrame h f) := by
  unfold Record.laterFrame
  split
  · split_ifs
    · exact .of_evidence rfl rfl
    · exact .of_add (k := .identity) rfl rfl rfl
  · exact .refl r

theorem Record.moved_confirm (r : Record) (f : Frame) : r.Moved (r.confirm f) := by
  unfold Record.confirm Record.commit
  cases r.candidate <;> exact .of_evidence rfl rfl

theorem Record.moved_heldFrame (h : Header) (r : Record) (f : Frame) : r.Moved (r.heldFrame h f) := by
  unfold Record.heldFrame
  split
  · split
    · split
      · exact r.moved_confirm f
      · exact .refl r
    · exact .of_add (k := .identity) rfl rfl rfl
  · exact .refl r

theorem Record.moved_threshold (h : Header) (before : Evidence) (r : Record) (f : Frame) :
    r.Moved (r.threshold h before f) := by
  unfold Record.threshold
  dsimp only
  generalize (if r.evidence = before then r.score else h.score r.evidence) = score
  have scored : r.Moved { r with score := score } := .of_evidence rfl rfl
  split
  · exact scored
  · exact scored
  · split_ifs
    · exact .of_evidence rfl rfl
    · exact .of_evidence rfl rfl
    · exact scored
  · split_ifs
    · exact scored.trans (Record.moved_confirm _ f)
    · exact scored
  · split_ifs
    · exact .of_evidence rfl rfl
    · exact scored

theorem Record.confirm_score (r : Record) (f : Frame) : (r.confirm f).score = r.score := by
  unfold Record.confirm Record.commit
  cases r.candidate <;> rfl

theorem Record.confirm_evidence (r : Record) (f : Frame) : (r.confirm f).evidence = r.evidence := by
  unfold Record.confirm Record.commit
  cases r.candidate <;> rfl

/-- What the threshold step comes to: the score of the evidence set, which it leaves as it was. -/
theorem Record.threshold_score (h : Header) (before : Evidence) (r : Record) (f : Frame) :
    (r.threshold h before f).score = (if r.evidence = before then r.score else h.score r.evidence) ∧
    (r.threshold h before f).evidence = r.evidence := by
  unfold Record.threshold
  dsimp only
  generalize (if r.evidence = before then r.score else h.score r.evidence) = score
  split
  · exact ⟨rfl, rfl⟩
  · exact ⟨rfl, rfl⟩
  · split_ifs <;> exact ⟨rfl, rfl⟩
  · split
    · exact ⟨Record.confirm_score _ f, Record.confirm_evidence _ f⟩
    · exact ⟨rfl, rfl⟩
  · split_ifs <;> exact ⟨rfl, rfl⟩

theorem Record.threshold_open (h : Header) (before : Evidence) {r : Record} (f : Frame)
    (hs : r.status = .pending ∨ r.status = .missed) : (r.threshold h before f).status = r.status ∧
      (r.threshold h before f).current = r.current ∧ (r.threshold h before f).candidate = r.candidate := by
  unfold Record.threshold
  rcases hs with hs | hs <;> rw [hs] <;> exact ⟨rfl, rfl, rfl⟩

/-! ### The pre-checks and the whole frame -/

/-- A power-cycle counter that is not the record's reference (R67). -/
def Record.repowered (r : Record) (f : Frame) : Bool :=
  match r.powerRef with
  | some c => c != f.powerCycle
  | none => false

/-- The evidence byte with what the frame's flags and its power-cycle counter bring (R66, R67). -/
def Record.flagged (r : Record) (f : Frame) : Byte :=
  r.evidence.byte ||| (if f.magnet then 0x01 else 0) ||| (if f.cover then 0x02 else 0) |||
    (if r.repowered f then 0x40 else 0)

theorem Record.preCheck_evidence (r : Record) (f : Frame) :
    (r.preCheck f).evidence.byte = r.flagged f ||| (if usable r f then 0 else 0x80) := by
  have h : (r.preCheck f).evidence = (((r.evidence.addIf (!usable r f) .identity).addIf f.magnet .magnet).addIf
      f.cover .cover).addIf (r.repowered f) .repower := rfl
  simp only [h, Evidence.byte_addIf, Record.flagged, EvidenceKind.bit]
  cases usable r f
  · simp only [Bool.not_false, if_true, Bool.false_eq_true, if_false]
    ac_rfl
  · simp

/-- IDENTITY is none of the kinds that the flags and the power-cycle counter bring. -/
theorem or_identity_flags (x : Byte) (u : Bool) : (x ||| (if u then 0 else 0x80)) &&& flagBits = x &&& flagBits := by
  cases u <;> simp [BitVec.and_or_distrib_right, flagBits]

theorem usable_eq_false {r : Record} {f : Frame} (h : f.kind ≠ some r.kind ∨ modulus r.dials ≤ f.reading.toNat) :
    usable r f = false := by
  unfold usable
  rcases h with h | h
  · simp [h]
  · simp [Nat.not_lt.2 h]

/-- A frame that the record takes brings its pre-checks, and then moves the record. -/
theorem Record.moved_matchFrame (h : Header) (a : Assessment) (e : Option MatchEntry) {r : Record} {f : Frame}
    (hp : r.probeOnly = false ∨ f.byProbe = true) : (r.preCheck f).Moved (r.matchFrame h a e f).record := by
  have hnot : ¬(r.probeOnly && !f.byProbe) = true := by rcases hp with hp | hp <;> simp [hp]
  unfold Record.matchFrame
  rw [if_neg hnot]
  dsimp only
  split
  · exact Record.moved_threshold ..
  · split
    · exact (Record.moved_firstReading ..).trans (Record.moved_threshold ..)
    · exact (Record.moved_firstReading ..).trans (Record.moved_threshold ..)
    · split
      · exact Record.moved_threshold ..
      · exact (Record.moved_laterFrame ..).trans (Record.moved_threshold ..)
    · split
      · exact Record.moved_threshold ..
      · exact (Record.moved_laterFrame ..).trans (Record.moved_threshold ..)
    · exact (Record.moved_heldFrame ..).trans (Record.moved_threshold ..)

/-- A frame whose reading cannot be the record's goes no further than the threshold step (R65). -/
theorem Record.matchFrame_unusable (h : Header) (a : Assessment) (e : Option MatchEntry) {r : Record} {f : Frame}
    (hp : r.probeOnly = false ∨ f.byProbe = true) (hu : usable r f = false) :
    r.matchFrame h a e f = ⟨(r.preCheck f).threshold h r.evidence f, false, false⟩ := by
  have hnot : ¬(r.probeOnly && !f.byProbe) = true := by rcases hp with hp | hp <;> simp [hp]
  unfold Record.matchFrame
  rw [if_neg hnot, hu]
  rfl

/-- A radio frame on a probe-only record is heard and nothing else (R64). -/
theorem Record.matchFrame_unheard (h : Header) (a : Assessment) (e : Option MatchEntry) {r : Record} {f : Frame}
    (hr : r.probeOnly = true) (hf : f.byProbe = false) : r.matchFrame h a e f = ⟨r.hear f, false, false⟩ := by
  unfold Record.matchFrame
  rw [hr, hf]
  rfl

theorem Record.hear_bestSignal (r : Record) (f : Frame) : ∃ b, (r.hear f).bestSignal = some b ∧
    b.toNat = max f.signal.toNat (optByte r.bestSignal).toNat := by
  refine ⟨_, rfl, ?_⟩
  cases r.bestSignal with
  | none => simp [optByte]
  | some b =>
    dsimp only [optByte]
    split <;> omega

/-- Settles O25: a probe-only record that a radio frame reaches is heard; any other record has its pre-checks made and
then moves, and with an unusable reading makes the threshold step alone. -/
theorem framesKeepARecordsIdentity : Obligations.FramesKeepARecordsIdentity := by
  unfold Obligations.FramesKeepARecordsIdentity
  intro h a e r f
  by_cases hp : r.probeOnly = false ∨ f.byProbe = true
  case neg =>
    obtain ⟨hr, hf⟩ : r.probeOnly = true ∧ f.byProbe = false := by simpa using hp
    rw [r.matchFrame_unheard h a e hr hf]
    exact ⟨rfl, BitVec.or_self, fun _ hc => hc, r.hear_bestSignal f, fun _ _ => ⟨rfl, rfl, rfl⟩, fun hq => absurd hq hp⟩
  case pos =>
    have moved := Record.moved_matchFrame h a e hp
    have hadded := r.preCheck_evidence f
    have hpower : (r.matchFrame h a e f).record.powerRef = some (r.powerRef.getD f.powerCycle) := by
      rw [moved.same]; rfl
    have hsignal : (r.matchFrame h a e f).record.bestSignal = (r.hear f).bestSignal := by
      rw [moved.same]; rfl
    refine ⟨?_, ?_, fun c hc => ?_, ?_, fun hr hf => ?_, fun _ => ⟨hpower, ?_, fun hu => ?_⟩⟩
    · rw [moved.same]; rfl
    · have hr : (r.preCheck f).evidence.byte ||| r.evidence.byte = (r.preCheck f).evidence.byte := by
        rw [hadded, Record.flagged]
        simp only [BitVec.or_assoc, BitVec.or_comm _ r.evidence.byte, ← BitVec.or_assoc r.evidence.byte r.evidence.byte,
          BitVec.or_self]
      rw [← moved.kept, BitVec.or_assoc, hr]
    · rw [hpower, hc]; rfl
    · rw [hsignal]; exact r.hear_bestSignal f
    · simp [hr, hf] at hp
    · exact moved.flags.trans (hadded ▸ or_identity_flags (r.flagged f) (usable r f))
    · have hn := usable_eq_false hu
      obtain ⟨hscore, hevidence⟩ := (r.preCheck f).threshold_score h r.evidence f
      rw [r.matchFrame_unusable h a e hp hn]
      refine ⟨rfl, rfl, ?_, ?_, fun hs => Record.threshold_open h r.evidence f (r := r.preCheck f) hs⟩
      · rw [hevidence, hadded, hn]; rfl
      · rw [hscore, hevidence]; rfl

end Sys2Proof.Machine
end

