-- ==== Sys2Proof/Proofs/Lookups.lean ====
section
/-! PROOF. RECORD_LOOKUP on a record memory that is not in canonical form (O49). The clause on a chain cut before a bad
block speaks of every state; `State.Ok`, which would keep record memory's list of bytes rising, is no hypothesis of
it. -/

namespace Sys2Proof.Machine

/-- A READ record of segment 0 with one extension block, whose directory entry below still says PENDING. -/
def strayRecord : Record :=
  { Record.fresh ⟨5, 16, 1, 5, 99870, 70, 40, 0, ⟨1, 9⟩⟩ .water (some 0) .read with firstBlock := 0 }

/-- The last byte of the index area. -/
def strayAddress : Nat := Config.routeBase - 1

/-- A segment whose one outstanding record is READ in truth. -/
def straySegment : Segment := { Segment.reset with state := .unvisited, members := 1, outstanding := 1 }

/-- Record memory lists the byte at `strayAddress` behind a higher address, a byte of segment 0's item, where a read
does not come to it. Block 0 is bad. -/
def strayState : State :=
  { State.reset with
    mem := Memory.insertSerial [] 5 0 ++ [(copyAddress 5 true + 2, 7), (strayAddress, 9)]
    store := { Store.reset with lines := Store.reset.lines.set 0 ⟨some ⟨0, true, .live strayRecord⟩, none⟩ }
    directory := [(0, ⟨.live .pending, some 0, [(0, .note)], false⟩)]
    segments := { Segments.reset with entries := Segments.reset.entries.set 0 straySegment } }

/-- What a result's next state reads at an address. -/
def resultReads (r : Result) (x : Nat) : Option Byte :=
  match r with
  | .next t => some (t.mem.read x)
  | _ => none

theorem strayState_find : strayState.find 5 = (.record 0 strayRecord, (strayState.find 5).2) :=
  Prod.ext (by decide +kernel) rfl

/-- The completion of segment 0 rewrites its item, and with the byte that the item then has as initialisation left it
the stray byte comes into sight. -/
theorem strayState_lookup : resultReads (exec (.recordLookup 5 1) strayState) strayAddress = some 9 := by
  decide +kernel

/-- Refutes O49: below the route area a lookup that cuts a chain changes what memory reads at `strayAddress`, from 0 to
9, where the clause has it as the accesses' writes left it. -/
theorem not_lookupsAndWalksReport : ¬ Obligations.LookupsAndWalksReport := by
  unfold Obligations.LookupsAndWalksReport
  rintro ⟨-, records, -⟩
  obtain ⟨-, -, -, cut⟩ := records strayState (strayState.find 5).2 5 0 strayRecord ⟨⟨rfl, rfl⟩, rfl⟩ strayState_find
  obtain ⟨u, -, -, -, -, -, hmem, hexec⟩ := cut (by decide +kernel)
  have after : u.mem.read strayAddress = 9 := by
    have h := strayState_lookup
    rw [hexec] at h
    exact Option.some.inj h
  have before : u.mem.read strayAddress = 0 := (hmem strayAddress (by decide)).trans (by decide +kernel)
  rw [after] at before
  exact absurd before (by decide)

end Sys2Proof.Machine
end

