-- ==== Sys2Proof/Proofs/Store.lean ====
section
/-! PROOF. The rules of the shared operations, each proved once: what a report to the segment unit, a change of a
line, a record put in its line, and accesses granted leave and make. -/

namespace Sys2Proof.Machine

variable {a s t : State}

/-! ### Record memory below an address -/

/-- Memory reads as before below an address, and stays in canonical form. -/
structure Memory.Kept (b : Nat) (m m' : Memory) : Prop where
  wf : m.wf = true → m'.wf = true
  reads : m.wf = true → ∀ x, x < b → m'.read x = m.read x

theorem Memory.Kept.refl (b : Nat) (m : Memory) : m.Kept b m := ⟨id, fun _ _ _ => rfl⟩

theorem Memory.Kept.trans {b : Nat} {m m1 m2 : Memory} (h : m.Kept b m1) (h1 : m1.Kept b m2) : m.Kept b m2 where
  wf hm := h1.wf (h.wf hm)
  reads hm x hx := (h1.reads (h.wf hm) x hx).trans (h.reads hm x hx)

theorem Memory.Kept.writeBytes {b : Nat} {m m' : Memory} (h : m.Kept b m') {n : Nat} (hn : b ≤ n)
    (bs : List Byte) : m.Kept b (m'.writeBytes n bs) where
  wf hm := Memory.wf_writeBytes (h.wf hm) n bs
  reads hm x hx := by
    rw [Memory.read_writeBytes (h.wf hm), if_neg (by omega)]
    exact h.reads hm x hx

theorem Memory.Kept.writeItem {b : Nat} {m m' : Memory} (h : m.Kept b m') (hb : b ≤ Config.routeBase) (i : Nat)
    (bs : List Byte) : m.Kept b (m'.writeItem i bs) :=
  h.writeBytes (by unfold copyAddress; omega) _

/-! ### Reports to the segment unit (R115) -/

/-- What a report to the segment unit leaves: all but the segment unit, the events, and record memory in the route
area. -/
structure Told (s t : State) : Prop where
  same : t = { s with mem := t.mem, segments := t.segments, events := t.events }
  mem : s.mem.Kept Config.routeBase t.mem

theorem Told.refl (s : State) : Told s s := ⟨rfl, .refl _ _⟩

theorem Told.trans (h : Told a s) (h1 : Told s t) : Told a t :=
  ⟨by rw [h1.same, h.same], h.mem.trans h1.mem⟩

theorem Told.withSegments (s : State) (x : Segments) : Told s (s.withSegments x) := ⟨rfl, .refl _ _⟩

theorem Told.raise (s : State) (e : Event) : Told s (s.raise e) := ⟨rfl, .refl _ _⟩

theorem Told.writeItem (s : State) (i : Nat) (bs : List Byte) : Told s (s.withMem (s.mem.writeItem i bs)) :=
  ⟨rfl, (Memory.Kept.refl _ _).writeItem (Nat.le_refl _) i bs⟩

theorem Told.putSegment (s : State) (n : Seg) (e : Segment) : Told s (s.putSegment n e) := by
  unfold State.putSegment
  dsimp only
  split
  · exact Told.withSegments s _
  · exact (Told.withSegments s _).trans (Told.writeItem _ _ _)

theorem Told.putPlan (s : State) (plan : List Seg) : Told s (s.putPlan plan) := by
  unfold State.putPlan
  split
  · exact .refl s
  · exact (Told.withSegments s _).trans (Told.writeItem _ _ _)

theorem Told.putActive (s : State) (x : Option Seg) : Told s (s.putActive x) := by
  unfold State.putActive
  split
  · exact .refl s
  · exact (Told.withSegments s _).trans (Told.writeItem _ _ _)

theorem Told.countAt (s : State) (p : Option Place) (f : Nat → Nat) : Told s (s.countAt p f) := by
  unfold State.countAt
  split
  · exact Told.putSegment s _ _
  · exact .refl s

theorem Told.complete (s : State) (n : Seg) : Told s (s.complete n) := by
  unfold State.complete
  split
  · exact .refl s
  split
  · exact .refl s
  refine .trans ?_ (Told.raise _ _)
  have done := (Told.putSegment s n { s.segment n with state := .complete }).trans
    (Told.putPlan _ (planWithout s.segments.plan n))
  dsimp only
  split
  · exact (done.trans (Told.putActive _ none)).trans (Told.withSegments _ _)
  · exact done

theorem Told.reopen (s : State) (n : Seg) : Told s (s.reopen n) := by
  unfold State.reopen
  split
  · split
    · exact (Told.putSegment s n _).trans (Told.putPlan _ _)
    · exact Told.putSegment s n _
    · exact .refl s
  · exact .refl s

theorem Told.judge (s : State) (n : Option Seg) (before : Nat) : Told s (s.judge n before) := by
  unfold State.judge
  split
  · exact .refl s
  · split
    · exact Told.complete s _
    · split
      · exact Told.reopen s _
      · exact .refl s

theorem Told.report (s : State) (old new : Option Place) : Told s (s.report old new) := by
  unfold State.report
  have counted := (Told.countAt s old (· - 1)).trans (Told.countAt _ new (· + 1))
  dsimp only
  split
  · exact counted
  · exact (counted.trans (Told.judge _ _ _)).trans (Told.judge _ _ _)

@[simp] theorem State.report_frame (old new : Option Place) (s : State) :
    (s.report old new).store = s.store ∧ (s.report old new).directory = s.directory ∧
    (s.report old new).tamper = s.tamper ∧ (s.report old new).matching = s.matching ∧
    (s.report old new).route = s.route ∧ (s.report old new).depot = s.depot ∧
    (s.report old new).command = s.command ∧ (s.report old new).pending = s.pending := by
  rw [(Told.report s old new).same]
  exact ⟨rfl, rfl, rfl, rfl, rfl, rfl, rfl, rfl⟩

/-! ### A report's outcome depends on the segment unit, the route and the events alone -/

/-- Two states with the same segment unit, route and events. -/
structure Alike (s t : State) : Prop where
  segments : t.segments = s.segments
  route : t.route = s.route
  events : t.events = s.events

theorem Alike.segment (h : Alike s t) (n : Seg) : t.segment n = s.segment n := by
  unfold State.segment; rw [h.segments]

theorem Alike.withSegments (h : Alike s t) {x y : Segments} (e : y = x) :
    Alike (s.withSegments x) (t.withSegments y) := ⟨e, h.route, h.events⟩

theorem Alike.withMem (h : Alike s t) (m m' : Memory) : Alike (s.withMem m) (t.withMem m') :=
  ⟨h.segments, h.route, h.events⟩

theorem Alike.raise (h : Alike s t) (e : Event) : Alike (s.raise e) (t.raise e) :=
  ⟨h.segments, h.route, by unfold State.raise; rw [State.withEvents_events, h.events]; rfl⟩

theorem Alike.putSegment (h : Alike s t) (n : Seg) (e : Segment) : Alike (s.putSegment n e) (t.putSegment n e) := by
  have set := h.withSegments (x := { s.segments with entries := s.segments.entries.set n.val e })
    (y := { t.segments with entries := t.segments.entries.set n.val e }) (by rw [h.segments])
  unfold State.putSegment
  rw [h.segment n]
  dsimp only
  split
  · exact set
  · exact set.withMem _ _

theorem Alike.putPlan (h : Alike s t) (plan : List Seg) : Alike (s.putPlan plan) (t.putPlan plan) := by
  unfold State.putPlan
  rw [h.segments]
  split
  · exact h
  · exact (h.withSegments rfl).withMem _ _

theorem Alike.putActive (h : Alike s t) (x : Option Seg) : Alike (s.putActive x) (t.putActive x) := by
  unfold State.putActive
  rw [h.segments]
  split
  · exact h
  · exact (h.withSegments rfl).withMem _ _

theorem Alike.setDwell (h : Alike s t) (x : Option Nat) : Alike (s.setDwell x) (t.setDwell x) := by
  unfold State.setDwell
  rw [h.segments]
  exact h.withSegments rfl

theorem Alike.countAt (h : Alike s t) (p : Option Place) (f : Nat → Nat) : Alike (s.countAt p f) (t.countAt p f) := by
  unfold State.countAt
  split
  · rw [h.segment]; exact h.putSegment _ _
  · exact h

theorem Alike.complete (h : Alike s t) (n : Seg) : Alike (s.complete n) (t.complete n) := by
  unfold State.complete
  rw [h.segment n, h.segments]
  have done := (h.putSegment n { s.segment n with state := .complete }).putPlan (planWithout s.segments.plan n)
  split
  · exact h
  split
  · exact h
  refine Alike.raise ?_ _
  rw [done.segments]
  dsimp only
  split
  · exact (done.putActive none).setDwell none
  · exact done

theorem Alike.reopen (h : Alike s t) (n : Seg) : Alike (s.reopen n) (t.reopen n) := by
  unfold State.reopen
  rw [h.segment n, h.segments, h.route]
  split
  · split
    · exact (h.putSegment n _).putPlan _
    · exact h.putSegment n _
    · exact h
  · exact h

theorem Alike.judge (h : Alike s t) (n : Option Seg) (before : Nat) : Alike (s.judge n before) (t.judge n before) := by
  unfold State.judge
  split
  · exact h
  next n =>
    rw [h.segment n]
    split
    · exact h.complete n
    · split
      · exact h.reopen n
      · exact h

theorem Alike.outstandingAt (h : Alike s t) (n : Option Seg) : t.outstandingAt n = s.outstandingAt n := by
  unfold State.outstandingAt
  split
  · rw [h.segment]
  · rfl

theorem Alike.report (h : Alike s t) (old new : Option Place) : Alike (s.report old new) (t.report old new) := by
  have counted := (h.countAt old (· - 1)).countAt new (· + 1)
  unfold State.report State.isScanning
  dsimp only
  rw [h.route, h.outstandingAt, h.outstandingAt]
  split
  · exact counted
  · exact (counted.judge _ _).judge _ _

theorem Alike.assignSegment (h : Alike s t) (sequence : Half) :
    t.assignSegment sequence = s.assignSegment sequence := by
  unfold State.assignSegment State.windowOf
  simp only [h.route, h.segment]

/-! ### The lines of the cache (R31, R33) -/

theorem State.cached_congr (h : t.store.lines = s.store.lines) (slot : Nat) : t.cached slot = s.cached slot := by
  unfold State.cached State.line
  rw [State.lineOf_congr h, h]

theorem State.lineOf_of_cached {slot : Nat} (h : s.cached slot ≠ .free) : ∃ i, s.lineOf slot = some i := by
  unfold State.cached at h
  split at h
  · exact ⟨_, ‹_›⟩
  · exact absurd rfl h

theorem State.line_set {i : Fin 8} {l : Line} (h : t.store.lines = s.store.lines.set i.val l) (j : Fin 8) :
    t.line j = if j = i then l else s.line j := by
  unfold State.line
  rw [h, Vector.get_eq_getElem, Vector.get_eq_getElem, Vector.getElem_set]
  by_cases hj : j = i
  · rw [if_pos hj, if_pos (congrArg Fin.val hj.symm)]
  · rw [if_neg hj, if_neg (fun e => hj (Fin.ext e.symm))]

/-- A line that takes a slot which is its own, or no line's, is the slot's line. -/
theorem State.lineOf_set {slot : Nat} {i : Fin 8} {b : Cached} {u : Option Holder}
    (h : t.store.lines = s.store.lines.set i.val ⟨some b, u⟩) (hb : b.slot = slot)
    (hs : s.lineOf slot = some i ∨ s.lineOf slot = none) : t.lineOf slot = some i := by
  unfold State.lineOf
  rw [List.find?_eq_some_iff_append]
  obtain ⟨before, after, split, earlier⟩ : ∃ before after, List.finRange 8 = before ++ i :: after ∧
      ∀ j ∈ before, j ≠ i ∧ ((s.line j).body.map (·.slot) == some slot) = false := by
    rcases hs with hs | hs
    · obtain ⟨-, before, after, hl, hj⟩ := List.find?_eq_some_iff_append.1 hs
      refine ⟨before, after, hl, fun j hm => ⟨fun e => ?_, by simpa using hj j hm⟩⟩
      have nodup : (before ++ i :: after).Nodup := hl ▸ List.nodup_finRange 8
      exact (List.nodup_append.1 nodup).2.2 j hm i (by simp) e
    · obtain ⟨before, after, hl⟩ := List.append_of_mem (List.mem_finRange i)
      refine ⟨before, after, hl, fun j hm => ⟨fun e => ?_, ?_⟩⟩
      · have nodup : (before ++ i :: after).Nodup := hl ▸ List.nodup_finRange 8
        exact (List.nodup_append.1 nodup).2.2 j hm i (by simp) e
      · simpa using List.find?_eq_none.1 hs j (List.mem_finRange j)
  refine ⟨?_, before, after, split, fun j hm => ?_⟩
  · rw [State.line_set h, if_pos rfl]; simp [hb]
  · rw [State.line_set h, if_neg (earlier j hm).1, (earlier j hm).2]; rfl

/-- A line that keeps its slot moves no slot's line. -/
theorem State.lineOf_set_same {i : Fin 8} {l : Line} (h : t.store.lines = s.store.lines.set i.val l)
    (hl : l.body.map (·.slot) = (s.line i).body.map (·.slot)) (k : Nat) : t.lineOf k = s.lineOf k := by
  unfold State.lineOf
  congr 1
  funext j
  rw [State.line_set h]
  by_cases hj : j = i
  · rw [if_pos hj, hl, hj]
  · rw [if_neg hj]

/-- A line that keeps its body leaves what every slot's line holds. -/
theorem State.cached_set_same {i : Fin 8} {l : Line} (h : t.store.lines = s.store.lines.set i.val l)
    (hl : l.body = (s.line i).body) (k : Nat) : t.cached k = s.cached k := by
  unfold State.cached
  rw [State.lineOf_set_same h (by rw [hl])]
  split
  next j _ =>
    rw [State.line_set h]
    by_cases hj : j = i
    · rw [if_pos hj, hl, hj]
    · rw [if_neg hj]
  · rfl

theorem State.cached_of_line {slot : Nat} {i : Fin 8} {b : Cached} (h : s.lineOf slot = some i)
    (hb : (s.line i).body = some b) : s.cached slot = b.contents := by
  unfold State.cached; rw [h]; dsimp only; rw [hb]; rfl

@[simp] theorem State.hold_frame (u : Holder) (i : Fin 8) (b : Option Cached) (s : State) :
    (s.hold u i b).mem = s.mem ∧ (s.hold u i b).directory = s.directory ∧ (s.hold u i b).tamper = s.tamper ∧
    (s.hold u i b).matching = s.matching ∧ (s.hold u i b).segments = s.segments ∧
    (s.hold u i b).events = s.events ∧ (s.hold u i b).route = s.route ∧ (s.hold u i b).depot = s.depot ∧
    (s.hold u i b).store.queue = s.store.queue ∧ (s.hold u i b).store.usedBlocks = s.store.usedBlocks ∧
    (s.hold u i b).store.granted = s.store.granted :=
  ⟨rfl, rfl, rfl, rfl, rfl, rfl, rfl, rfl, rfl, rfl, rfl⟩

/-- A unit that takes a line with contents for a slot holds the slot's line, with those contents. -/
theorem State.hold_spec {slot : Nat} {i : Fin 8} {b : Cached} (u : Holder) (hb : b.slot = slot)
    (hs : s.lineOf slot = some i ∨ s.lineOf slot = none) : (s.hold u i (some b)).lineOf slot = some i ∧
    (s.hold u i (some b)).cached slot = b.contents ∧ ((s.hold u i (some b)).line i).holder = some u := by
  have hline : (s.hold u i (some b)).line i = ⟨some b, some u⟩ := by
    rw [State.line_set (s := s) (t := s.hold u i (some b)) rfl, if_pos rfl]
  have hof := State.lineOf_set (s := s) (t := s.hold u i (some b)) rfl hb hs
  exact ⟨hof, State.cached_of_line hof (by rw [hline]), by rw [hline]⟩

@[simp] theorem State.putContents_frame (slot : Nat) (c : Contents) (s : State) :
    (s.putContents slot c).mem = s.mem ∧ (s.putContents slot c).directory = s.directory ∧
    (s.putContents slot c).tamper = s.tamper ∧ (s.putContents slot c).matching = s.matching ∧
    (s.putContents slot c).segments = s.segments ∧ (s.putContents slot c).events = s.events ∧
    (s.putContents slot c).route = s.route ∧ (s.putContents slot c).depot = s.depot ∧
    (s.putContents slot c).command = s.command ∧ (s.putContents slot c).pending = s.pending ∧
    (s.putContents slot c).store.queue = s.store.queue ∧
    (s.putContents slot c).store.usedBlocks = s.store.usedBlocks ∧
    (s.putContents slot c).store.granted = s.store.granted := by
  unfold State.putContents
  split <;> exact ⟨rfl, rfl, rfl, rfl, rfl, rfl, rfl, rfl, rfl, rfl, rfl, rfl, rfl⟩

/-- The line of a slot takes new contents, and keeps its holder. -/
theorem State.putContents_spec {slot : Nat} {i : Fin 8} (c : Contents) (h : s.lineOf slot = some i) :
    (s.putContents slot c).lineOf slot = some i ∧ (s.putContents slot c).cached slot = c ∧
    ((s.putContents slot c).line i).holder = (s.line i).holder := by
  have hput : s.putContents slot c = s.setLine i ⟨some ⟨slot, true, c⟩, (s.line i).holder⟩ := by
    unfold State.putContents; rw [h]
  have hlines : (s.putContents slot c).store.lines =
      s.store.lines.set i.val ⟨some ⟨slot, true, c⟩, (s.line i).holder⟩ := by rw [hput]; rfl
  have hline := State.line_set hlines i
  rw [if_pos rfl] at hline
  have hof := State.lineOf_set hlines rfl (.inl h)
  exact ⟨hof, State.cached_of_line hof (by rw [hline]), by rw [hline]⟩

@[simp] theorem State.letGo_frame (slot : Nat) (s : State) :
    (s.letGo slot).mem = s.mem ∧ (s.letGo slot).directory = s.directory ∧
    (s.letGo slot).tamper = s.tamper ∧ (s.letGo slot).matching = s.matching ∧
    (s.letGo slot).segments = s.segments ∧ (s.letGo slot).events = s.events ∧
    (s.letGo slot).route = s.route ∧ (s.letGo slot).depot = s.depot ∧
    (s.letGo slot).store.queue = s.store.queue ∧ (s.letGo slot).store.usedBlocks = s.store.usedBlocks ∧
    (s.letGo slot).store.granted = s.store.granted := by
  unfold State.letGo
  split <;> exact ⟨rfl, rfl, rfl, rfl, rfl, rfl, rfl, rfl, rfl, rfl, rfl⟩

/-- A line let go holds what it held. -/
@[simp] theorem State.letGo_cached (slot k : Nat) (s : State) : (s.letGo slot).cached k = s.cached k := by
  unfold State.letGo
  split
  next i _ => exact State.cached_set_same (s := s) (i := i) (l := ⟨(s.line i).body, none⟩) rfl rfl k
  · rfl

@[simp] theorem State.dropLine_frame (slot : Nat) (s : State) :
    (s.dropLine slot).mem = s.mem ∧ (s.dropLine slot).directory = s.directory ∧
    (s.dropLine slot).tamper = s.tamper ∧ (s.dropLine slot).matching = s.matching ∧
    (s.dropLine slot).segments = s.segments ∧ (s.dropLine slot).events = s.events ∧
    (s.dropLine slot).route = s.route ∧ (s.dropLine slot).depot = s.depot ∧
    (s.dropLine slot).store.queue = s.store.queue ∧
    (s.dropLine slot).store.usedBlocks = s.store.usedBlocks := by
  unfold State.dropLine
  split <;> exact ⟨rfl, rfl, rfl, rfl, rfl, rfl, rfl, rfl, rfl, rfl⟩

/-! ### Small frames -/

@[simp] theorem State.removedReport_frame (slot : Nat) (s : State) :
    (s.removedReport slot).mem = s.mem ∧ (s.removedReport slot).directory = s.directory ∧
    (s.removedReport slot).store = s.store ∧ (s.removedReport slot).matching = s.matching ∧
    (s.removedReport slot).segments = s.segments ∧ (s.removedReport slot).events = s.events ∧
    (s.removedReport slot).route = s.route ∧ (s.removedReport slot).depot = s.depot :=
  ⟨rfl, rfl, rfl, rfl, rfl, rfl, rfl, rfl⟩

@[simp] theorem State.forget_frame (slot : Nat) (s : State) :
    (s.forget slot).mem = s.mem ∧ (s.forget slot).directory = s.directory ∧
    (s.forget slot).store = s.store ∧ (s.forget slot).tamper = s.tamper ∧
    (s.forget slot).segments = s.segments ∧ (s.forget slot).events = s.events ∧
    (s.forget slot).route = s.route ∧ (s.forget slot).depot = s.depot :=
  ⟨rfl, rfl, rfl, rfl, rfl, rfl, rfl, rfl⟩

@[simp] theorem State.freeChain_frame (chain : List (Nat × BlockKind)) (s : State) :
    (s.freeChain chain).mem = s.mem ∧ (s.freeChain chain).directory = s.directory ∧
    (s.freeChain chain).tamper = s.tamper ∧ (s.freeChain chain).matching = s.matching ∧
    (s.freeChain chain).segments = s.segments ∧ (s.freeChain chain).events = s.events ∧
    (s.freeChain chain).route = s.route ∧ (s.freeChain chain).depot = s.depot ∧
    (s.freeChain chain).store.queue = s.store.queue ∧ (s.freeChain chain).store.lines = s.store.lines :=
  ⟨rfl, rfl, rfl, rfl, rfl, rfl, rfl, rfl, rfl, rfl⟩

/-- Of the blocks in use, a chain freed takes out its own. -/
theorem State.mem_freeChain {chain : List (Nat × BlockKind)} {k : Nat} :
    k ∈ (s.freeChain chain).store.usedBlocks ↔ k ∈ s.store.usedBlocks ∧ ∀ b ∈ chain, b.1 ≠ k := by
  simp [State.freeChain]

@[simp] theorem State.setChain_frame (slot : Nat) (chain : List (Nat × BlockKind)) (s : State) :
    (s.setChain slot chain).mem = s.mem ∧ (s.setChain slot chain).store = s.store ∧
    (s.setChain slot chain).tamper = s.tamper ∧ (s.setChain slot chain).matching = s.matching ∧
    (s.setChain slot chain).segments = s.segments ∧ (s.setChain slot chain).events = s.events ∧
    (s.setChain slot chain).route = s.route ∧ (s.setChain slot chain).command = s.command ∧
    (s.setChain slot chain).pending = s.pending := by
  unfold State.setChain
  split <;> exact ⟨rfl, rfl, rfl, rfl, rfl, rfl, rfl, rfl, rfl⟩

/-! ### The directory's entry of a slot (R37) -/

/-- The entry that a slot has just been given, whatever the directory lists besides. -/
@[simp] theorem Directory.get_set_self (d : Directory) (n : Nat) (x : DirEntry) : (d.set n x).get n = some x := by
  induction d with
  | nil => simp [Directory.set, Directory.get]
  | cons c d ih =>
    obtain ⟨k, e⟩ := c
    rw [Directory.set]
    split_ifs with h1 h2
    · simp [Directory.get]
    · simp [Directory.get]
    · rw [Directory.get, if_neg h1, if_neg h2, ih]

theorem State.chain_of_get {slot : Nat} {d : DirEntry} (h : s.directory.get slot = some d) :
    s.chain slot = d.chain := by unfold State.chain; rw [h]; rfl

theorem State.setChain_directory {slot : Nat} {d : DirEntry} (h : s.directory.get slot = some d)
    (chain : List (Nat × BlockKind)) :
    (s.setChain slot chain).directory = s.directory.set slot { d with chain := chain } := by
  unfold State.setChain; rw [h]; rfl

/-! ### A record put in its line (R13, R33, R37, R115) -/

/-- A record filed: the directory's entry, and the report to the segment unit. -/
theorem State.fileRecord_eq {slot : Nat} {d : DirEntry} (h : s.directory.get slot = some d) (r : Record) :
    s.fileRecord slot r = (s.withDirectory (s.directory.set slot
      ⟨.live r.status, r.segment, d.chain, r.batch.isSome⟩)).report (some ⟨d.segment, d.status⟩)
        (some ⟨r.segment, .live r.status⟩) := by
  unfold State.fileRecord; rw [h]

/-- What filing a record leaves as it was. -/
@[simp] theorem State.fileRecord_frame (slot : Nat) (r : Record) (s : State) :
    (s.fileRecord slot r).store = s.store ∧ (s.fileRecord slot r).tamper = s.tamper ∧
    (s.fileRecord slot r).matching = s.matching ∧ (s.fileRecord slot r).route = s.route ∧
    (s.fileRecord slot r).depot = s.depot ∧ (s.fileRecord slot r).command = s.command ∧
    (s.fileRecord slot r).pending = s.pending := by
  unfold State.fileRecord
  split
  · exact ⟨rfl, rfl, rfl, rfl, rfl, rfl, rfl⟩
  · simp

/-- What a record filed makes of the directory, the segment unit and the events; of memory it changes the route
area. -/
structure Filed (s t : State) (slot : Nat) (d : DirEntry) (r : Record) : Prop where
  directory : t.directory = s.directory.set slot ⟨.live r.status, r.segment, d.chain, r.batch.isSome⟩
  alike : Alike (s.report (some ⟨d.segment, d.status⟩) (some ⟨r.segment, .live r.status⟩)) t
  mem : s.mem.Kept Config.routeBase t.mem

theorem State.fileRecord_filed {slot : Nat} {d : DirEntry} (h : s.directory.get slot = some d) (r : Record) :
    Filed s (s.fileRecord slot r) slot d r := by
  have entered : ∀ x, Alike s (s.withDirectory x) := fun x => ⟨rfl, rfl, rfl⟩
  rw [State.fileRecord_eq h]
  refine ⟨by simp, (entered _).report _ _, ?_⟩
  have told := Told.report (s.withDirectory (s.directory.set slot ⟨.live r.status, r.segment, d.chain, r.batch.isSome⟩))
    (some ⟨d.segment, d.status⟩) (some ⟨r.segment, .live r.status⟩)
  exact told.mem

theorem Filed.get {slot : Nat} {d : DirEntry} {r : Record} (h : Filed s t slot d r) :
    t.directory.get slot = some ⟨.live r.status, r.segment, d.chain, r.batch.isSome⟩ := by
  rw [h.directory, Directory.get_set_self]

theorem Filed.get_ne {slot : Nat} {d : DirEntry} {r : Record} (h : Filed s t slot d r) (hs : s.Ok) {k : Nat}
    (hk : k ≠ slot) : t.directory.get k = s.directory.get k := by
  rw [h.directory, Directory.get_set hs.directory.rising, if_neg hk]

/-- What putting a record in its line leaves as it was. -/
@[simp] theorem State.putRecord_frame (slot : Nat) (r : Record) (s : State) :
    (s.putRecord slot r).store.queue = s.store.queue ∧
    (s.putRecord slot r).store.usedBlocks = s.store.usedBlocks ∧
    (s.putRecord slot r).tamper = s.tamper ∧ (s.putRecord slot r).matching = s.matching ∧
    (s.putRecord slot r).route = s.route ∧ (s.putRecord slot r).depot = s.depot ∧
    (s.putRecord slot r).command = s.command ∧ (s.putRecord slot r).pending = s.pending := by
  unfold State.putRecord
  simp

theorem State.putRecord_filed {slot : Nat} {d : DirEntry} (h : s.directory.get slot = some d) (r : Record) :
    Filed s (s.putRecord slot r) slot d r := by
  obtain ⟨hdir, halike, hmem⟩ := State.fileRecord_filed (s := s.putContents slot (.live r)) (slot := slot) (d := d)
    (by simpa using h) r
  have put : Alike s (s.putContents slot (.live r)) := ⟨by simp, by simp, by simp⟩
  simp only [State.putContents_frame] at hdir
  refine ⟨hdir, ?_, by simpa [State.putRecord] using hmem⟩
  have told := put.report (some ⟨d.segment, d.status⟩) (some ⟨r.segment, .live r.status⟩)
  exact ⟨halike.segments.trans told.segments, halike.route.trans told.route, halike.events.trans told.events⟩

/-- The line of a slot holds the record put in it. -/
theorem State.putRecord_line {slot : Nat} {i : Fin 8} (r : Record) (h : s.lineOf slot = some i) :
    (s.putRecord slot r).lineOf slot = some i ∧ (s.putRecord slot r).cached slot = .live r := by
  have lines : (s.putRecord slot r).store.lines = (s.putContents slot (.live r)).store.lines := by
    unfold State.putRecord; simp
  obtain ⟨hof, hcached, -⟩ := State.putContents_spec (.live r) h
  exact ⟨(State.lineOf_congr lines slot).trans hof, (State.cached_congr lines slot).trans hcached⟩

end Sys2Proof.Machine
end

