-- ==== Sys2Proof/Proofs/Lines.lean ====
section
/-! PROOF. The victim, the write queue's room, and what a line that a unit takes holds (O43). -/

namespace Sys2Proof.Machine

variable {s t : State}

/-! ### The write queue's tail (R34) -/

/-- What queueing an image leaves as it was. -/
@[simp] theorem State.enqueue_rest (q : Queued) (s : State) :
    (s.enqueue q).directory = s.directory ∧ (s.enqueue q).tamper = s.tamper ∧
    (s.enqueue q).matching = s.matching ∧ (s.enqueue q).segments = s.segments ∧
    (s.enqueue q).events = s.events ∧ (s.enqueue q).route = s.route ∧ (s.enqueue q).depot = s.depot ∧
    (s.enqueue q).store.lines = s.store.lines ∧ (s.enqueue q).store.usedBlocks = s.store.usedBlocks := by
  obtain ⟨m, p, u, h⟩ := State.enqueue_frame q s
  rw [h]
  exact ⟨rfl, rfl, rfl, rfl, rfl, rfl, rfl, rfl, rfl⟩

/-- An image joins a queue with room at its tail, and nothing else happens. -/
theorem State.enqueue_room {q : Queued} (h : s.store.queue.length < 4) :
    s.enqueue q = { s with store := { s.store with queue := s.store.queue ++ [q] } } := by
  have room : s.store.queue.length < Config.queuePlaces := h
  unfold State.enqueue
  rw [if_pos room]
  rfl

/-- For an image that meets a full queue the oldest entry is written first. -/
theorem State.enqueue_full {q x : Queued} {rest : List Queued} (hq : s.store.queue = x :: rest)
    (h : rest.length = 3) : (s.enqueue q).mem = s.mem.writeSlot x.slot x.contents ∧
      (s.enqueue q).store.queue = rest ++ [q] := by
  have full : ¬s.store.queue.length < Config.queuePlaces := by
    rw [hq, List.length_cons, h]; decide
  unfold State.enqueue
  rw [if_neg full]
  unfold State.writeOldest
  rw [hq]
  exact ⟨rfl, rfl⟩

/-! ### The victim (R32) -/

theorem State.victim_of_invalid {i : Fin 8} (hb : (s.line i).body = none) (hh : (s.line i).holder = none) :
    (s.line s.victim).body = none ∧ (s.line s.victim).holder = none ∧ s.victim ≤ i := by
  cases hf : (List.finRange 8).find? fun i => (s.line i).body.isNone && (s.line i).holder.isNone with
  | none =>
    have := List.find?_eq_none.1 hf i (List.mem_finRange i)
    simp [hb, hh] at this
  | some v =>
    have hv : s.victim = v := by unfold State.victim; rw [hf]; rfl
    obtain ⟨found, before, after, split, earlier⟩ := List.find?_eq_some_iff_append.1 hf
    rw [hv]
    simp only [Bool.and_eq_true, Option.isNone_iff_eq_none] at found
    refine ⟨found.1, found.2, ?_⟩
    have sorted : (before ++ v :: after).Pairwise (· < ·) := split ▸ List.pairwise_lt_finRange 8
    have hi : i ∈ before ++ v :: after := split ▸ List.mem_finRange i
    rcases List.mem_append.1 hi with hi | hi
    · have := earlier i hi
      simp [hb, hh] at this
    · rcases List.mem_cons.1 hi with rfl | hi
      · exact Fin.le_refl _
      · exact Fin.le_of_lt ((List.pairwise_cons.1 (List.pairwise_append.1 sorted).2.1).1 i hi)

theorem State.victim_of_recency (hv : ∀ i : Fin 8, (s.line i).body ≠ none ∨ (s.line i).holder ≠ none)
    {before after : List (Fin 8)} {i : Fin 8} (hr : s.store.recency = before ++ i :: after)
    (hi : (s.line i).holder = none) (ha : ∀ j ∈ after, (s.line j).holder ≠ none) : s.victim = i := by
  have valid : ((List.finRange 8).find? fun i => (s.line i).body.isNone && (s.line i).holder.isNone) = none := by
    refine List.find?_eq_none.2 fun j _ => ?_
    rcases hv j with h | h <;> simp [h]
  have oldest : (s.store.recency.reverse.find? fun i => (s.line i).holder.isNone) = some i := by
    rw [hr, List.reverse_append, List.reverse_cons, List.append_assoc, List.find?_append,
      List.find?_eq_none.2 (fun j hj => by simpa using ha j (List.mem_reverse.1 hj))]
    simp [hi]
  unfold State.victim
  rw [valid, oldest]
  rfl

/-! ### Making room (R32) -/

@[simp] theorem State.evict_rest (i : Fin 8) (s : State) :
    (s.evict i).directory = s.directory ∧ (s.evict i).tamper = s.tamper ∧
    (s.evict i).matching = s.matching ∧ (s.evict i).segments = s.segments ∧
    (s.evict i).events = s.events ∧ (s.evict i).route = s.route ∧ (s.evict i).depot = s.depot ∧
    (s.evict i).store.lines = s.store.lines ∧ (s.evict i).store.usedBlocks = s.store.usedBlocks := by
  unfold State.evict
  split
  · split
    · exact State.enqueue_rest _ s
    · exact ⟨rfl, rfl, rfl, rfl, rfl, rfl, rfl, rfl, rfl⟩
  · exact ⟨rfl, rfl, rfl, rfl, rfl, rfl, rfl, rfl, rfl⟩

theorem State.evict_clean {i : Fin 8} (h : ∀ b, (s.line i).body = some b → b.dirty = false) : s.evict i = s := by
  unfold State.evict
  split
  next b hb => rw [h b hb]; rfl
  · rfl

theorem State.evict_dirty {i : Fin 8} {b : Cached} (hb : (s.line i).body = some b) (hd : b.dirty = true) :
    s.evict i = s.enqueue ⟨b.slot, b.contents⟩ := by
  unfold State.evict
  rw [hb]
  dsimp only
  rw [if_pos hd]

/-! ### A record that becomes FAULT (R18) -/

/-- The serial that a failed fill gives a FAULT record: that of the index entry which names the slot. -/
theorem Memory.serialNaming_eq {m : Memory} {slot n : Nat} (hn : m.entrySerial n ≠ 0) (hs : m.entrySlot n = slot)
    {k : Nat} (hk : n < k)
    (hu : ∀ j, j < k → m.entrySerial j ≠ 0 → m.entrySlot j = slot → j = n) :
    m.serialNaming slot k = some (m.entrySerial n) := by
  induction k with
  | zero => omega
  | succ k ih =>
    rw [Memory.serialNaming]
    split
    next h => rw [hu k (by omega) h.1 h.2]
    next h =>
      have : n ≠ k := fun e => h (e ▸ ⟨hn, hs⟩)
      exact ih (by omega) fun j hj => hu j (by omega)

/-- What a record that becomes FAULT in its held line leaves: its line holds it FAULT, its blocks are free, its entries
in the tamper queue and the recent-match buffer are gone, and the directory and the segment unit have it as FAULT. -/
structure Faulted (s t : State) (slot : Nat) (i : Fin 8) (d : DirEntry) : Prop where
  line : t.lineOf slot = some i ∧ (t.line i).holder = (s.line i).holder
  cached : t.cached slot = .fault ((s.mem.serialNaming slot Config.indexEntries).getD 0) d.segment
  directory : t.directory = s.directory.set slot ⟨.fault, d.segment, [], false⟩
  blocks : ∀ k, k ∈ t.store.usedBlocks ↔ k ∈ s.store.usedBlocks ∧ ∀ b ∈ d.chain, b.1 ≠ k
  tamper : t.tamper = { s.tamper with entries := s.tamper.entries.filter fun e => e.slot != slot }
  matching : t.matching = { s.matching with buffer := s.matching.buffer.filter fun e => e.slot != slot }
  segments : t.segments = (s.report (some ⟨d.segment, d.status⟩) (some ⟨d.segment, .fault⟩)).segments
  events : t.events.pending =
    (s.report (some ⟨d.segment, d.status⟩) (some ⟨d.segment, .fault⟩)).events.pending ||| 0x10
  queue : t.store.queue = s.store.queue
  mem : s.mem.Kept Config.routeBase t.mem

theorem State.becomeFault_faulted {slot : Nat} {i : Fin 8} {d : DirEntry} (hi : s.lineOf slot = some i)
    (hd : s.directory.get slot = some d) : Faulted s (s.becomeFault slot) slot i d := by
  have fault : ∃ x, x = (((((s.putContents slot (.fault ((s.mem.serialNaming slot Config.indexEntries).getD 0)
      d.segment)).freeChain d.chain).removedReport slot).forget slot).withDirectory
        (s.directory.set slot ⟨.fault, d.segment, [], false⟩)) ∧ s.becomeFault slot =
          (x.report (some ⟨d.segment, d.status⟩) (some ⟨d.segment, .fault⟩)).raise .recordFault := by
    refine ⟨_, rfl, ?_⟩
    unfold State.becomeFault
    rw [hd]
  obtain ⟨x, hx, he⟩ := fault
  obtain ⟨hof, hcached, hholder⟩ := State.putContents_spec
    (.fault ((s.mem.serialNaming slot Config.indexEntries).getD 0) d.segment) hi
  have alike : Alike s x := by rw [hx]; exact ⟨by simp, by simp, by simp⟩
  have reported := alike.report (some ⟨d.segment, d.status⟩) (some ⟨d.segment, .fault⟩)
  have told := Told.report x (some ⟨d.segment, d.status⟩) (some ⟨d.segment, .fault⟩)
  have lines : (s.becomeFault slot).store.lines = (s.putContents slot
      (.fault ((s.mem.serialNaming slot Config.indexEntries).getD 0) d.segment)).store.lines := by
    rw [he, State.raise, State.withEvents_store, (State.report_frame _ _ x).1, hx]; rfl
  have mem : x.mem = s.mem := by rw [hx]; simp
  refine ⟨⟨(State.lineOf_congr lines slot).trans hof, ?_⟩, (State.cached_congr lines slot).trans hcached, ?_, ?_, ?_,
    ?_, ?_, ?_, ?_, ?_⟩
  · rw [← hholder]; unfold State.line; rw [lines]
  · rw [he]; simp [State.raise, hx]
  · intro k
    rw [he]
    simp only [State.raise, State.withEvents_store, State.report_frame, hx, State.withDirectory_store,
      State.forget_frame, State.removedReport_frame, State.mem_freeChain, State.putContents_frame]
  · rw [he]; simp [State.raise, hx, State.removedReport]
  · rw [he]; simp [State.raise, hx, State.forget]
  · rw [he]; exact reported.segments
  · rw [he, State.raise, State.withEvents_events, reported.events]; rfl
  · rw [he]; simp [State.raise, hx]
  · rw [he, ← mem]; exact told.mem

/-! ### Taking a line (R32, R35), case by case -/

theorem State.takeLine_held {slot : Nat} {i : Fin 8} (u : Holder) (h : s.lineOf slot = some i) :
    s.takeLine u slot = (s.hold u i (s.line i).body, false) := by
  unfold State.takeLine; rw [h]

theorem State.takeLine_queued {slot : Nat} {c : Contents} (u : Holder) (h : s.lineOf slot = none)
    (hq : (s.evict s.victim).queued slot = some c) :
    s.takeLine u slot = ((s.evict s.victim).hold u s.victim (some ⟨slot, false, c⟩), false) := by
  unfold State.takeLine; rw [h]; dsimp only; rw [hq]

theorem State.takeLine_read {slot : Nat} (u : Holder) (h : s.lineOf slot = none)
    (hq : (s.evict s.victim).queued slot = none)
    (hc : checkHolds 64 ((s.evict s.victim).mem.slotBytes slot) = true) : s.takeLine u slot =
      (((s.evict s.victim).grant u).hold u s.victim
        (some ⟨slot, false, Contents.ofBytes ((s.evict s.victim).mem.slotBytes slot)⟩), false) := by
  unfold State.takeLine; rw [h]; dsimp only; rw [hq]; dsimp only; rw [if_pos hc]

theorem State.takeLine_failed {slot : Nat} (u : Holder) (h : s.lineOf slot = none)
    (hq : (s.evict s.victim).queued slot = none)
    (hc : checkHolds 64 ((s.evict s.victim).mem.slotBytes slot) = false) : s.takeLine u slot =
      ((((s.evict s.victim).grant u).hold u s.victim (some ⟨slot, false, .free⟩)).becomeFault slot,
        (s.directory.get slot).isSome) := by
  unfold State.takeLine; rw [h]; dsimp only; rw [hq]; dsimp only; rw [if_neg (by simp [hc])]
  unfold State.grant
  rw [State.grants_directory, (State.evict_rest _ s).1]

/-- A free line that takes a slot which no line holds, in a state that has the lines of another. -/
theorem State.hold_fresh {slot : Nat} {b : Cached} (u : Holder) (i : Fin 8) (ht : t.store.lines = s.store.lines)
    (h : s.lineOf slot = none) (hb : b.slot = slot) : (t.hold u i (some b)).lineOf slot = some i ∧
    (t.hold u i (some b)).cached slot = b.contents ∧ ((t.hold u i (some b)).line i).holder = some u :=
  State.hold_spec u hb (.inr ((State.lineOf_congr ht slot).trans h))

/-- A line that a unit takes again holds what it held. -/
theorem State.takeLine_again {slot : Nat} {i : Fin 8} (u : Holder) (h : s.lineOf slot = some i) :
    (s.takeLine u slot).1.lineOf slot = some i ∧ (s.takeLine u slot).1.cached slot = s.cached slot ∧
    ((s.takeLine u slot).1.line i).holder = some u := by
  obtain ⟨b, hb, hs⟩ := State.lineOf_some h
  rw [State.takeLine_held u h, hb]
  obtain ⟨hof, hcached, hholder⟩ := State.hold_spec u hs (.inl h)
  exact ⟨hof, hcached.trans (State.cached_of_line h hb).symm, hholder⟩

/-- What memory the granted fill of a line leaves behind it, with the line taken free: the state in which a record
whose check fails becomes FAULT. -/
theorem State.takeLine_faulted {slot : Nat} {d : DirEntry} (u : Holder) (h : s.lineOf slot = none)
    (hq : (s.evict s.victim).queued slot = none)
    (hc : checkHolds 64 ((s.evict s.victim).mem.slotBytes slot) = false) (hd : s.directory.get slot = some d) :
    Faulted (((s.evict s.victim).grants u 1).hold u s.victim (some ⟨slot, false, .free⟩)) (s.takeLine u slot).1 slot
      s.victim d := by
  have lines : ((s.evict s.victim).grants u 1).store.lines = s.store.lines := by simp
  obtain ⟨hof, -, -⟩ := State.hold_fresh (b := ⟨slot, false, .free⟩) u s.victim lines h rfl
  rw [State.takeLine_failed u h hq hc]
  exact State.becomeFault_faulted hof (by simpa using hd)

/-! ### Taking a line without a fill (R32) -/

@[simp] theorem State.takeLineFresh_frame (u : Holder) (slot : Nat) (c : Contents) (s : State) :
    (s.takeLineFresh u slot c).directory = s.directory ∧ (s.takeLineFresh u slot c).tamper = s.tamper ∧
    (s.takeLineFresh u slot c).matching = s.matching ∧ (s.takeLineFresh u slot c).segments = s.segments ∧
    (s.takeLineFresh u slot c).events = s.events ∧ (s.takeLineFresh u slot c).route = s.route ∧
    (s.takeLineFresh u slot c).depot = s.depot ∧
    (s.takeLineFresh u slot c).store.usedBlocks = s.store.usedBlocks := by
  unfold State.takeLineFresh
  split <;> simp

/-- A line taken without a fill is the slot's, with the contents given, and the unit holds it. -/
theorem State.takeLineFresh_line (u : Holder) (slot : Nat) (c : Contents) (s : State) :
    ∃ i, (s.takeLineFresh u slot c).lineOf slot = some i ∧ (s.takeLineFresh u slot c).cached slot = c ∧
      ((s.takeLineFresh u slot c).line i).holder = some u := by
  unfold State.takeLineFresh
  cases h : s.lineOf slot with
  | some i => exact ⟨i, State.hold_spec (b := ⟨slot, true, c⟩) u rfl (.inl h)⟩
  | none =>
    have evicted : (s.evict s.victim).store.lines = s.store.lines := by simp
    exact ⟨_, State.hold_fresh (b := ⟨slot, true, c⟩) u s.victim evicted h rfl⟩

/-- Settles O43: the victim, its image's way into the queue, and then the four ways in which a line is taken. -/
theorem linesHoldTheNewestCopy : Obligations.LinesHoldTheNewestCopy := by
  unfold Obligations.LinesHoldTheNewestCopy
  intro s u slot hok
  refine ⟨fun i => State.victim_of_invalid, fun hv before i after hr hi ha => State.victim_of_recency hv hr hi ha,
    State.evict_clean, fun b hb hd => ?_, fun i hi => ?_, fun hn => ?_⟩
  · rw [State.evict_dirty hb hd]
    exact ⟨State.enqueue_room, fun q rest hq => State.enqueue_full hq⟩
  · obtain ⟨-, hcached, hholder⟩ := State.takeLine_again u hi
    refine ⟨hcached, hholder, ?_, ?_⟩ <;> rw [State.takeLine_held u hi] <;> rfl
  · have evicted : (s.evict s.victim).store.lines = s.store.lines := by simp
    have granted : ((s.evict s.victim).grants u 1).store.lines = s.store.lines := by simp
    refine ⟨?_, fun c hq => ?_, fun hq hc => ?_, fun d hq hc hd => ?_⟩
    · cases hq : (s.evict s.victim).queued slot with
      | some c =>
        rw [State.takeLine_queued u hn hq]
        exact (State.hold_fresh u s.victim evicted hn rfl).2.2
      | none =>
        cases hc : checkHolds 64 ((s.evict s.victim).mem.slotBytes slot) with
        | true =>
          rw [State.takeLine_read u hn hq hc]
          exact (State.hold_fresh u s.victim granted hn rfl).2.2
        | false =>
          have held := (State.hold_fresh (b := ⟨slot, false, .free⟩) u s.victim granted hn rfl).2.2
          cases hd : s.directory.get slot with
          | some d => exact (State.takeLine_faulted u hn hq hc hd).line.2.trans held
          | none =>
            rw [State.takeLine_failed u hn hq hc]
            have unlisted : (((s.evict s.victim).grant u).hold u s.victim (some ⟨slot, false, .free⟩)).directory.get slot =
                none := by simpa [State.grant] using hd
            unfold State.becomeFault
            rw [unlisted]
            exact held
    · rw [State.takeLine_queued u hn hq]
      exact ⟨(State.hold_fresh u s.victim evicted hn rfl).2.1, rfl, rfl, (State.evict_rest _ s).1⟩
    · rw [State.takeLine_read u hn hq hc]
      exact ⟨(State.hold_fresh u s.victim granted hn rfl).2.1, rfl, rfl, rfl, by simp [State.grant]⟩
    · have faulted := State.takeLine_faulted u hn hq hc hd
      have alike : Alike (s.evict s.victim)
          (((s.evict s.victim).grants u 1).hold u s.victim (some ⟨slot, false, .free⟩)) := ⟨by simp, by simp, by simp⟩
      have told := alike.report (some ⟨d.segment, d.status⟩) (some ⟨d.segment, .fault⟩)
      refine ⟨⟨_, faulted.cached⟩, fun n hn' hs hslot hu => ?_, ?_, fun k hk => ?_, fun k => ?_, ?_, ?_, ?_, ?_,
        (Quiet.refl s).takeLine u slot, ?_, ?_⟩
      · rw [faulted.cached, (State.hold_frame u _ _ _).1, Memory.serialNaming_eq (k := Config.indexEntries) hs hslot hn' hu]
        rfl
      · rw [faulted.directory, Directory.get_set_self]
      · rw [faulted.directory]
        simp only [State.hold_frame, State.grants_directory, State.evict_rest]
        rw [Directory.get_set hok.directory.rising, if_neg hk]
      · simpa using faulted.blocks k
      · simpa using faulted.tamper
      · simpa using faulted.matching
      · exact faulted.segments.trans told.segments
      · rw [faulted.events, told.events]
      · simpa using faulted.queue
      · exact faulted.mem.reads ((hok.evict s.victim).grants u 1).mem

end Sys2Proof.Machine
end

