-- ==== Sys2Proof/Proofs/Walks.lean ====
section
/-! PROOF. What a leave walk makes of a record (O41). -/

namespace Sys2Proof.Machine

variable {s t : State}

/-! ### What a taken line says of the directory -/

/-- A line taken with a record of the slot in it that is not FAULT, or that was FAULT before, has met no check
failure. -/
theorem State.takeLine_cases (u : Holder) (slot : Nat) (s : State) :
    ((s.takeLine u slot).2 = false ∧ (s.takeLine u slot).1.directory = s.directory) ∨
    ∃ d, s.directory.get slot = some d ∧ (s.takeLine u slot).2 = true ∧
      (s.takeLine u slot).1.directory.get slot = some ⟨.fault, d.segment, [], false⟩ ∧
      ∃ x, (s.takeLine u slot).1.cached slot = .fault x d.segment := by
  cases hi : s.lineOf slot with
  | some i => rw [State.takeLine_held u hi]; exact .inl ⟨rfl, rfl⟩
  | none =>
    cases hq : (s.evict s.victim).queued slot with
    | some c => rw [State.takeLine_queued u hi hq]; exact .inl ⟨rfl, by simp⟩
    | none =>
      cases hc : checkHolds 64 ((s.evict s.victim).mem.slotBytes slot) with
      | true => rw [State.takeLine_read u hi hq hc]; exact .inl ⟨rfl, by simp [State.grant]⟩
      | false =>
        cases hd : s.directory.get slot with
        | none =>
          rw [State.takeLine_failed u hi hq hc, hd]
          refine .inl ⟨rfl, ?_⟩
          unfold State.becomeFault
          simp only [State.hold_frame, State.grant, State.grants_directory, State.evict_rest]
          rw [hd]
          simp
        | some d =>
          have faulted := State.takeLine_faulted u hi hq hc hd
          refine .inr ⟨d, rfl, by rw [State.takeLine_failed u hi hq hc, hd]; rfl, ?_, _, faulted.cached⟩
          rw [faulted.directory, Directory.get_set_self]

/-- A check failure leaves the record FAULT in its line and in the directory (R18). -/
theorem State.takeLine_bad {u : Holder} {slot : Nat} {d : DirEntry} (h : (s.takeLine u slot).2 = true)
    (hd : s.directory.get slot = some d) :
    (s.takeLine u slot).1.directory.get slot = some ⟨.fault, d.segment, [], false⟩ ∧
    ∃ x, (s.takeLine u slot).1.cached slot = .fault x d.segment := by
  rcases State.takeLine_cases u slot s with ⟨hg, -⟩ | ⟨d', hd', -, hget, hcached⟩
  · rw [h] at hg; cases hg
  · rw [hd] at hd'; cases hd'; exact ⟨hget, hcached⟩

/-- Where the line holds a record that is not FAULT, its taking has left the directory as it was. -/
theorem State.takeLine_live {u : Holder} {slot : Nat} {r : Record}
    (h : (s.takeLine u slot).1.cached slot = .live r) :
    (s.takeLine u slot).2 = false ∧ (s.takeLine u slot).1.directory = s.directory := by
  rcases State.takeLine_cases u slot s with hg | ⟨_, _, _, _, _, hcached⟩
  · exact hg
  · rw [h] at hcached; cases hcached

/-! ### The tamper queue's newcomers (R104) -/

/-- A flagged report and a placing leave all but the tamper queue and the events. -/
@[simp] theorem State.placeInQueue_frame (x : TamperEntry) (s : State) :
    (s.placeInQueue x).store = s.store ∧ (s.placeInQueue x).directory = s.directory ∧
    (s.placeInQueue x).mem = s.mem ∧ (s.placeInQueue x).segments = s.segments ∧
    (s.placeInQueue x).matching = s.matching ∧ (s.placeInQueue x).route = s.route ∧
    (s.placeInQueue x).pending = s.pending ∧ (s.placeInQueue x).command = s.command := by
  unfold State.placeInQueue State.inserted
  dsimp only
  split
  · exact ⟨rfl, rfl, rfl, rfl, rfl, rfl, rfl, rfl⟩
  · split
    · exact ⟨rfl, rfl, rfl, rfl, rfl, rfl, rfl, rfl⟩
    · split <;> exact ⟨rfl, rfl, rfl, rfl, rfl, rfl, rfl, rfl⟩

/-- NEW_FLAG alone can a placing raise. -/
theorem State.placeInQueue_events (x : TamperEntry) (s : State) {k : Nat} (hk : k ≠ 0) :
    (s.placeInQueue x).events.pending.getLsbD k = s.events.pending.getLsbD k := by
  have raised : ∀ p : BitVec 10, (p ||| Event.newFlag.mask).getLsbD k = p.getLsbD k := fun p => by
    rw [BitVec.getLsbD_or, Event.mask, Event.bit, BitVec.shiftLeft_zero, BitVec.getLsbD_one]
    simp [hk]
  unfold State.placeInQueue State.inserted
  dsimp only
  split
  · exact raised _
  · split
    · rfl
    · split
      · exact raised _
      · rfl

/-- The queue after a placing depends on the queue before alone. -/
theorem State.placeInQueue_congr (x : TamperEntry) (h : t.tamper = s.tamper) :
    (t.placeInQueue x).tamper = (s.placeInQueue x).tamper := by
  unfold State.placeInQueue State.inserted
  rw [h]
  dsimp only
  split
  · rfl
  · split
    · exact h
    · split <;> rfl

/-- A newcomer that finds room is in the queue, and NEW_FLAG is raised. -/
theorem State.placeInQueue_room (x : TamperEntry) (h : s.tamper.entries.length < 128) :
    x ∈ (s.placeInQueue x).tamper.entries ∧ (s.placeInQueue x).events.pending.getLsbD 0 = true := by
  have room : s.tamper.entries.length < Config.tamperEntries := h
  have placed : s.placeInQueue x = (s.withTamper { s.tamper with
      entries := insertRanked x s.tamper.entries }).inserted := by
    unfold State.placeInQueue; rw [if_pos room]
  rw [placed]
  refine ⟨mem_insertRanked.2 (.inl rfl), ?_⟩
  simp [State.inserted, State.raise, Event.mask, Event.bit]

/-! ### The visit's three outcomes -/

theorem State.settleSlot_of_failure {u : Holder} {slot : Nat} (w : WalkCounts) (h : (s.takeLine u slot).2 = true) :
    State.settleSlot u slot (s, w) = ((s.takeLine u slot).1.letGo slot, { w with failures := w.failures + 1 }) := by
  unfold State.settleSlot
  dsimp only
  rw [if_pos h]

theorem State.settleSlot_of_fault {u : Holder} {slot : Nat} (w : WalkCounts) (h : (s.takeLine u slot).2 = false)
    {x : Word} {n : Option Seg} (hc : (s.takeLine u slot).1.cached slot = .fault x n) :
    State.settleSlot u slot (s, w) = ((s.takeLine u slot).1.letGo slot, w) := by
  unfold State.settleSlot
  dsimp only
  rw [if_neg (by simp [h]), hc]

section Live
variable {u : Holder} {slot : Nat} {r : Record} (w : WalkCounts) (h : (s.takeLine u slot).2 = false)
  (hc : (s.takeLine u slot).1.cached slot = .live r)
include h hc

theorem State.settleSlot_of_pending (hr : r.status = .pending) : State.settleSlot u slot (s, w) =
    (((s.takeLine u slot).1.putRecord slot { r with status := .missed }).letGo slot,
      { w with missed := w.missed + 1 }) := by
  unfold State.settleSlot
  dsimp only
  rw [if_neg (by simp [h]), hc]
  dsimp only
  rw [hr]

theorem State.settleSlot_of_held (hr : r.status = .held) : State.settleSlot u slot (s, w) =
    ((((s.takeLine u slot).1.putRecord slot (r.flagUnconfirmed (s.takeLine u slot).1.route.clock)).flaggedReport slot
      (r.flagUnconfirmed (s.takeLine u slot).1.route.clock)).letGo slot, { w with flagged := w.flagged + 1 }) := by
  unfold State.settleSlot
  dsimp only
  rw [if_neg (by simp [h]), hc]
  dsimp only
  rw [hr]

theorem State.settleSlot_of_other (h1 : r.status ≠ .pending) (h2 : r.status ≠ .held) :
    State.settleSlot u slot (s, w) = ((s.takeLine u slot).1.letGo slot, w) := by
  unfold State.settleSlot
  dsimp only
  rw [if_neg (by simp [h]), hc]
  dsimp only
  split
  · contradiction
  · contradiction
  · rfl

end Live

/-- The record that a walk flags, field by field (R4, R121). -/
theorem Record.flagUnconfirmed_eq (r : Record) (time : Word) : r.flagUnconfirmed time = { r with
    current := if r.candidate.isSome then r.candidate else r.current, candidate := none
    status := .flagged, flagTime := some time, marks := { r.marks with unconfirmed := true } } := by
  unfold Record.flagUnconfirmed Record.commit
  cases hc : r.candidate
  · simp [← hc]
  · rfl

/-- Settles O41: a check failure and a FAULT record stand; a PENDING record is put as MISSED, a HELD one as FLAGGED
with its flagged report, and any other record's line is let go. -/
theorem walksSettleRecords : Obligations.WalksSettleRecords := by
  unfold Obligations.WalksSettleRecords
  refine ⟨fun s u slot w => ⟨fun hbad => ⟨State.settleSlot_of_failure w hbad, fun d hd => ?_⟩,
    fun x n hgood hc => State.settleSlot_of_fault w hgood hc⟩, fun s u slot w r d => ?_⟩
  · obtain ⟨hget, x, hcached⟩ := State.takeLine_bad hbad hd
    rw [State.settleSlot_of_failure w hbad]
    exact ⟨by simpa using hget, x, by simpa using hcached⟩
  · intro s1 t w' x told hgood hcached hd
    have quiet : Quiet s t := Quiet.settleSlot u slot (x := (s, w)) (Quiet.refl s)
    obtain ⟨i, hi⟩ := State.lineOf_of_cached (s := s1) (slot := slot) (by rw [hcached]; simp)
    refine ⟨quiet, fun hr => ?_, fun hr => ?_, fun h1 h2 => ?_⟩
    · have settled := State.settleSlot_of_pending w hgood hcached hr
      have filed := State.putRecord_filed hd { r with status := .missed }
      have hw : w' = { w with missed := w.missed + 1 } := congrArg Prod.snd settled
      have ht : t = (s1.putRecord slot { r with status := .missed }).letGo slot := congrArg Prod.fst settled
      rw [ht]
      refine ⟨hw, by simp, ?_, by simpa using filed.get, ?_⟩
      · rw [State.letGo_cached, (State.putRecord_line _ hi).2]
      · show t.segments = _ ∧ t.events.pending.getLsbD 1 = _
        rw [ht]
        exact ⟨by simpa using filed.alike.segments, by simp [filed.alike.events]⟩
    · have clock : s1.route.clock = s.route.clock := by rw [((Quiet.refl s).takeLine u slot).route]
      have settled := State.settleSlot_of_held w hgood hcached hr
      rw [clock] at settled
      have filed := State.putRecord_filed hd (r.flagUnconfirmed s.route.clock)
      have segment : (r.flagUnconfirmed s.route.clock).segment = r.segment := by rw [Record.flagUnconfirmed_eq]
      have alike : Alike (s1.report (some ⟨d.segment, d.status⟩) (some ⟨r.segment, .live .flagged⟩))
          (s1.putRecord slot (r.flagUnconfirmed s.route.clock)) := segment ▸ filed.alike
      have hw : w' = { w with flagged := w.flagged + 1 } := congrArg Prod.snd settled
      have entry : (r.flagUnconfirmed s.route.clock).tamperEntry slot = x := by
        rw [Record.flagUnconfirmed_eq]; rfl
      have ht : t = (((s1.putRecord slot (r.flagUnconfirmed s.route.clock)).removedReport slot).placeInQueue x).letGo
          slot := by rw [← entry]; exact congrArg Prod.fst settled
      have queue : t.tamper = ((s1.removedReport slot).placeInQueue x).tamper := by
        rw [ht]
        simp only [State.letGo_frame]
        exact State.placeInQueue_congr x (by simp [State.removedReport])
      have cached : t.cached slot = .live (r.flagUnconfirmed s.route.clock) := by
        rw [ht, State.letGo_cached, ← (State.putRecord_line _ hi).2]
        exact State.cached_congr (by simp) slot
      have filedAs : t.directory.get slot = some ⟨.live .flagged, r.segment, d.chain, r.batch.isSome⟩ := by
        rw [ht]; simpa [Record.flagUnconfirmed_eq] using filed.get
      refine ⟨⟨?_, ?_⟩, hw, by rw [cached, Record.flagUnconfirmed_eq], filedAs, queue, fun hroom => ?_⟩
      · rw [ht]; simpa using alike.segments
      · rw [ht]
        simp only [State.letGo_frame]
        rw [State.placeInQueue_events x _ (by decide)]
        simp [alike.events]
      · rw [ht]
        have room : ((s1.putRecord slot (r.flagUnconfirmed s.route.clock)).removedReport slot).tamper.entries.length
            < 128 := by
          refine Nat.lt_of_le_of_lt (List.length_filter_le _ _) ?_
          simpa using hroom
        simpa using State.placeInQueue_room x room
    · have settled := State.settleSlot_of_other w hgood hcached h1 h2
      have hw : w' = w := congrArg Prod.snd settled
      have ht : t = s1.letGo slot := congrArg Prod.fst settled
      rw [ht]
      exact ⟨hw, by simpa using hcached, by simp, by simp, by simp, by simp, by simp⟩

end Sys2Proof.Machine
end

