-- ==== Sys2Proof/Proofs/Amendments.lean ====
section
/-! PROOF. RECORD_AMEND and RECORD_NOTE (O47, O48). -/

namespace Sys2Proof.Machine

variable {s t : State}

/-! ### A command served, and the record that it finds -/

theorem State.serve_of_serving {during : Bool} {work : State → State} (h : s.serving) :
    s.serve during work = work s := by
  obtain ⟨⟨hp, hu⟩, hs⟩ := h
  unfold State.serve State.isScanning
  rw [if_neg (by simp [hp]), if_neg (by simp [hu]), hs]
  rfl

/-- A record found stands in its line, which the command unit holds, and in the directory. -/
theorem State.find_record {s1 : State} {serial : Word} {slot : Nat} {r : Record}
    (h : s.find serial = (.record slot r, s1)) :
    s1.cached slot = .live r ∧ (s1.directory.get slot).isSome = true ∧ r.serial = serial := by
  unfold State.find at h
  split at h
  · cases h
  · dsimp only at h
    split at h
    · cases h
    split at h
    · cases h
    next hd =>
      split at h
      · cases h
      · split at h <;> cases h
      next hc =>
        split at h
        next hs => cases h; exact ⟨hc, by simpa [Option.isSome_iff_ne_none] using hd, hs⟩
        · cases h

/-! ### Accesses and blocks -/

/-- What granted accesses make of memory and of the write queue depends on memory and the queue alone. -/
theorem State.grants_congr (hm : t.mem = s.mem) (hq : t.store.queue = s.store.queue) (u : Holder) (n : Nat) :
    (t.grants u n).mem = (s.grants u n).mem ∧ (t.grants u n).store.queue = (s.grants u n).store.queue := by
  cases hu : u.requester with
  | none => unfold State.grants; rw [hu]; exact ⟨hm, hq⟩
  | some unit =>
    by_cases hn : n = 0
    · unfold State.grants; rw [hu]; dsimp only; rw [if_pos hn, if_pos hn]; exact ⟨hm, hq⟩
    · rw [State.grants_eq hu hn, State.grants_eq hu hn]
      dsimp only
      rw [hm, hq]
      exact ⟨rfl, rfl⟩

@[simp] theorem State.writeBlock_frame (u : Holder) (n : Nat) (b : Block) (s : State) :
    (s.writeBlock u n b).directory = s.directory ∧ (s.writeBlock u n b).store.lines = s.store.lines ∧
    (s.writeBlock u n b).store.usedBlocks = s.store.usedBlocks ∧ (s.writeBlock u n b).tamper = s.tamper ∧
    (s.writeBlock u n b).matching = s.matching ∧ (s.writeBlock u n b).segments = s.segments ∧
    (s.writeBlock u n b).events = s.events ∧ (s.writeBlock u n b).route = s.route := by
  unfold State.writeBlock State.grant
  simp

theorem State.chain_congr {k : Nat} (h : t.directory = s.directory) : t.chain k = s.chain k := by
  unfold State.chain; rw [h]

/-! ### RECORD_NOTE (R11) -/

/-- A note served is the note taken on the record found; an interval replacement that is held goes on then. -/
theorem execRecordNote_of_found {s1 : State} {serial : Word} {text : List Byte} {slot : Nat} {r : Record}
    (hs : s.serving) (ht : text.length ≤ 24) (hf : s.find serial = (.record slot r, s1)) (hb : r.batch = none) :
    exec (.recordNote serial text) s = .next (s1.note slot text r).goOnFrame := by
  have scanning : s.isScanning = false := by unfold State.isScanning; rw [hs.2]; rfl
  show execRecordNote serial text s = _
  unfold execRecordNote
  rw [State.serve_of_serving hs, if_neg (by omega), scanning, if_neg (by simp), if_neg (by omega)]
  unfold State.serveNote
  rw [hf]
  dsimp only
  rw [hb]
  rfl

section Notes
variable {slot n : Nat} {rest : List (Nat × BlockKind)} {text : List Byte} (r : Record)

theorem State.note_rewritten (hc : s.chain slot = (n, .note) :: rest) (ht : text ≠ []) :
    s.note slot text r = (s.writeBlock .command n (.note (headOf rest) text)).answerNote slot := by
  unfold State.note
  rw [hc]
  dsimp only
  rw [if_neg (by simpa using ht)]

theorem State.note_removed (hc : s.chain slot = (n, .note) :: rest) :
    s.note slot [] r = (((s.freeChain [(n, .note)]).setChain slot rest).putRecord slot
      { r with firstBlock := headOf rest }).answerNote slot := by
  unfold State.note
  rw [hc]
  rfl

theorem State.note_absent (hc : ∀ n rest, s.chain slot ≠ (n, .note) :: rest) :
    s.note slot [] r = s.answerNote slot := by
  unfold State.note
  dsimp only
  split
  next hn => exact absurd hn (hc _ _)
  · rfl

theorem State.note_new (hc : ∀ n rest, s.chain slot ≠ (n, .note) :: rest) (ht : text ≠ [])
    (hlow : s.lowestFreeBlock = some n) : s.note slot text r =
      ((((s.useBlock n).writeBlock .command n (.note (headOf (s.chain slot)) text)).setChain slot
        ((n, .note) :: s.chain slot)).putRecord slot { r with firstBlock := BitVec.ofNat 16 n }).answerNote slot := by
  unfold State.note
  dsimp only
  split
  next hn => exact absurd hn (hc _ _)
  · rw [if_neg (by simpa using ht), hlow]

theorem State.note_full (hc : ∀ n rest, s.chain slot ≠ (n, .note) :: rest) (ht : text ≠ [])
    (hlow : s.lowestFreeBlock = none) : s.note slot text r = s.refuseHolding slot .full := by
  unfold State.note
  dsimp only
  split
  next hn => exact absurd hn (hc _ _)
  · rw [if_neg (by simpa using ht), hlow]

end Notes

/-- A block that the pool gives is the lowest-numbered free one (R38). -/
theorem State.Ok.lowestFreeBlock_spec (h : s.Ok) {n : Nat} (hn : s.lowestFreeBlock = some n) :
    n ∉ s.store.usedBlocks ∧ ∀ k, k < n → k ∈ s.store.usedBlocks := by
  unfold State.lowestFreeBlock at hn
  split at hn
  · cases hn
  · cases hn
    obtain ⟨-, absent, present⟩ := firstAbsent_spec _ h.store.blocks 0
    exact ⟨absent, fun k hk => present k (Nat.zero_le k) hk⟩

/-- Answering a note lets the record's line go and gives the number of the chain's blocks. -/
theorem State.answerNote_eq {slot : Nat} {d : DirEntry} (h : s.directory.get slot = some d) :
    s.answerNote slot = (s.letGo slot).reply .ok [natByte d.chain.length] := by
  unfold State.answerNote
  rw [State.chain_of_get h]

section Outcomes
variable {slot : Nat} {i : Fin 8} {d : DirEntry} {r : Record} {text : List Byte}
  (hd : s.directory.get slot = some d) (hi : s.lineOf slot = some i)
include hd

/-- A note written over the block there is (R11). -/
theorem State.note_rewritten_spec (hr : s.cached slot = .live r) {n : Nat} {rest : List (Nat × BlockKind)}
    (hn : d.chain = (n, .note) :: rest) (ht : text ≠ []) :
    ∃ u, s.note slot text r = u.reply .ok [natByte d.chain.length] ∧ Quiet s u ∧ u.cached slot = .live r ∧
      u.directory = s.directory ∧ u.mem = (s.writeBlock .command n (.note (headOf rest) text)).mem ∧
      u.store.queue = (s.writeBlock .command n (.note (headOf rest) text)).store.queue := by
  refine ⟨(s.writeBlock .command n (.note (headOf rest) text)).letGo slot, ?_,
    ((Quiet.refl s).writeBlock _ _ _).letGo _, ?_, by simp, by simp, by simp⟩
  · rw [State.note_rewritten r ((State.chain_of_get hd).trans hn) ht, State.answerNote_eq (d := d) (by simpa using hd)]
  · rw [State.letGo_cached, ← hr]
    exact State.cached_congr (by simp) slot

include hi

/-- A note taken out of the head of its chain (R11). -/
theorem State.note_removed_spec {n : Nat} {rest : List (Nat × BlockKind)} (hn : d.chain = (n, .note) :: rest) :
    ∃ u, s.note slot [] r = u.reply .ok [natByte rest.length] ∧ Quiet s u ∧ u.chain slot = rest ∧
      n ∉ u.store.usedBlocks ∧ u.cached slot = .live { r with firstBlock := headOf rest } ∧
      u.store.queue = s.store.queue ∧ s.mem.Kept Config.routeBase u.mem := by
  obtain ⟨x, hx⟩ : ∃ x, x = (s.freeChain [(n, .note)]).setChain slot rest := ⟨_, rfl⟩
  have hget : x.directory.get slot = some { d with chain := rest } := by
    rw [hx, State.setChain_directory (s := s.freeChain _) hd, Directory.get_set_self]
  have line : x.lineOf slot = some i := (State.lineOf_congr (by simp [hx]) slot).trans hi
  have filed := State.putRecord_filed hget { r with firstBlock := headOf rest }
  have quiet : Quiet s x := hx ▸ ((Quiet.refl s).freeChain _).setChain _ _
  refine ⟨(x.putRecord slot { r with firstBlock := headOf rest }).letGo slot, ?_, (quiet.putRecord _ _).letGo _,
    ?_, ?_, ?_, ?_, ?_⟩
  · rw [State.note_removed r ((State.chain_of_get hd).trans hn), ← hx, State.answerNote_eq filed.get]
  · exact (State.chain_congr (by simp)).trans (State.chain_of_get filed.get)
  · simp [hx, State.freeChain]
  · rw [State.letGo_cached, (State.putRecord_line _ line).2]
  · simp [hx]
  · have hm : x.mem = s.mem := by simp [hx]
    simpa [hm] using filed.mem

/-- A note in a new block, the lowest-numbered free one, at the head of its chain (R11, R38). -/
theorem State.note_new_spec (hc : ∀ n rest, d.chain ≠ (n, .note) :: rest) (ht : text ≠ []) {n : Nat}
    (hlow : s.lowestFreeBlock = some n) :
    ∃ u, s.note slot text r = u.reply .ok [natByte (d.chain.length + 1)] ∧ Quiet s u ∧
      (∀ k, k ∈ u.store.usedBlocks ↔ k = n ∨ k ∈ s.store.usedBlocks) ∧ u.chain slot = (n, .note) :: d.chain ∧
      u.cached slot = .live { r with firstBlock := BitVec.ofNat 16 n } ∧
      u.store.queue = (s.writeBlock .command n (.note (headOf d.chain) text)).store.queue ∧
      (s.writeBlock .command n (.note (headOf d.chain) text)).mem.Kept Config.routeBase u.mem := by
  obtain ⟨x, hx⟩ : ∃ x, x = ((s.useBlock n).writeBlock .command n (.note (headOf d.chain) text)).setChain slot
      ((n, .note) :: d.chain) := ⟨_, rfl⟩
  have written : ((s.useBlock n).writeBlock .command n (.note (headOf d.chain) text)).mem =
        (s.writeBlock .command n (.note (headOf d.chain) text)).mem ∧
      ((s.useBlock n).writeBlock .command n (.note (headOf d.chain) text)).store.queue =
        (s.writeBlock .command n (.note (headOf d.chain) text)).store.queue :=
    State.grants_congr (s := s.withMem (s.mem.writeBlock n (.note (headOf d.chain) text)))
      (t := (s.useBlock n).withMem (s.mem.writeBlock n (.note (headOf d.chain) text))) rfl rfl .command 1
  have hget : x.directory.get slot = some { d with chain := (n, .note) :: d.chain } := by
    rw [hx, State.setChain_directory (d := d) (by simpa [State.useBlock] using hd), Directory.get_set_self]
  have line : x.lineOf slot = some i := (State.lineOf_congr (by simp [hx, State.useBlock]) slot).trans hi
  have filed := State.putRecord_filed hget { r with firstBlock := BitVec.ofNat 16 n }
  have quiet : Quiet s x := hx ▸ (((Quiet.refl s).useBlock n).writeBlock _ _ _).setChain _ _
  have chain := State.chain_of_get hd
  refine ⟨(x.putRecord slot { r with firstBlock := BitVec.ofNat 16 n }).letGo slot, ?_,
    (quiet.putRecord _ _).letGo _, fun k => ?_, ?_, ?_, ?_, ?_⟩
  · rw [State.note_new r (by rw [chain]; exact hc) ht hlow, chain]
    rw [← hx, State.answerNote_eq filed.get]
    rfl
  · simp [hx, State.useBlock, mem_insertRising]
  · exact (State.chain_congr (by simp)).trans (State.chain_of_get filed.get)
  · rw [State.letGo_cached, (State.putRecord_line _ line).2]
  · simp [hx, written.2]
  · have hm : x.mem = (s.writeBlock .command n (.note (headOf d.chain) text)).mem := by rw [hx]; simp [written.1]
    simpa [hm] using filed.mem

end Outcomes

/-- Settles O48: the note's four cases on the record found, and the replacement that goes on when it is served. -/
theorem notesAreKept : Obligations.NotesAreKept := by
  unfold Obligations.NotesAreKept
  refine ⟨fun t h => ?_, fun t f k x hin hd hc hx => ?_, ?_⟩
  · unfold State.goOnFrame
    split
    next f k hin => exact absurd hin (h f k)
    · rfl
  · have carries : t.carries k f.serial = true := by
      unfold State.carries
      rw [hc]
      simp [Option.isSome_iff_ne_none.2 hd, hx]
    unfold State.goOnFrame
    rw [hin]
    dsimp only
    unfold State.goOnReplacing
    dsimp only
    rw [carries, hc]
    rfl
  · intro s s1 serial text slot r d hs hok ht hf hb hd wrote
    obtain ⟨hcached, -, -⟩ := State.find_record hf
    have hexec := execRecordNote_of_found hs ht hf hb
    have quiet : Quiet s s1 := by have q := (Quiet.refl s).find serial; rwa [hf] at q
    have hok1 : s1.Ok := by have h := hok.find serial; rwa [hf] at h
    obtain ⟨i, hi⟩ := State.lineOf_of_cached (s := s1) (slot := slot) (by rw [hcached]; simp)
    refine ⟨fun n rest hn => ⟨fun htext => ?_, fun htext => ?_⟩, fun hn => ⟨fun htext => ?_, fun htext hfree => ?_,
      fun htext hfull => ?_⟩⟩
    · obtain ⟨u, hu, hq, spec⟩ := State.note_rewritten_spec hd hcached hn htext
      exact ⟨u, by rw [hexec, hu], quiet.trans hq, spec⟩
    · obtain ⟨u, hu, hq, hchain, hblock, hrecord, hqueue, hmem⟩ := State.note_removed_spec (r := r) hd hi hn
      exact ⟨u, by rw [hexec, htext, hu], quiet.trans hq, hchain, hblock, hrecord, hqueue, hmem.reads hok1.mem⟩
    · refine ⟨s1.letGo slot, ?_, quiet.letGo _, by simpa using hcached, by simp, by simp⟩
      rw [hexec, htext, State.note_absent r (by rw [State.chain_of_get hd]; exact hn), State.answerNote_eq hd]
    · obtain ⟨n, hlow⟩ : ∃ n, s1.lowestFreeBlock = some n := by
        unfold State.lowestFreeBlock State.freeBlocks Config.blocks
        rw [if_neg (by omega)]
        exact ⟨_, rfl⟩
      obtain ⟨absent, present⟩ := hok1.lowestFreeBlock_spec hlow
      obtain ⟨u, hu, hq, hblocks, hchain, hrecord, hqueue, hmem⟩ :=
        State.note_new_spec (r := r) hd hi hn htext hlow
      have written : (wrote n d.chain).mem.wf = true :=
        (hok1.writeBlock .command n (.note (headOf d.chain) text)).mem
      exact ⟨n, u, by rw [hexec, hu], quiet.trans hq, absent, present, hblocks, hchain, hrecord, hqueue,
        hmem.reads written⟩
    · have hnone : s1.lowestFreeBlock = none := by
        unfold State.lowestFreeBlock State.freeBlocks Config.blocks
        rw [if_pos (by omega)]
      refine ⟨s1.letGo slot, ?_, quiet.letGo _, by simpa using hcached, by simp, by simp⟩
      rw [hexec, State.note_full r (by rw [State.chain_of_get hd]; exact hn) htext hnone]
      rfl

/-! ### RECORD_AMEND (R14 to R16) -/

/-- The record as an amendment leaves it: the field changes on what the action made of it, and the segment of a changed
sequence. -/
def State.amended (p : AmendParams) (after : Record) (s : State) : Record :=
  if p.sequence.presence = 1 then
    { after.withChanges p with segment := s.assignSegment p.sequence.value }
  else after.withChanges p

/-- An amendment puts the record in its line, forgets the reading, and takes a record that is FLAGGED no more out of the
tamper queue. -/
theorem State.amend_eq (slot : Nat) (p : AmendParams) (r after : Record) (s : State) :
    s.amend slot p r after = (if r.status = .flagged ∧ (s.amended p after).status ≠ .flagged then
      ((s.putRecord slot (s.amended p after)).forget slot).removedReport slot
      else (s.putRecord slot (s.amended p after)).forget slot).answerAmend slot (s.amended p after) := by
  unfold State.amend State.amended Record.withChanges Sent.given
  by_cases h : p.sequence.presence = 1
  · simp only [if_pos h]
    rfl
  · simp only [if_neg h]

/-- Neither an action nor the field changes touch a record's batch field. -/
theorem State.amended_batch (p : AmendParams) (r : Record) (a : AmendAction) (s : State) :
    (s.amended p (r.afterAction a)).batch = r.batch := by
  have action : (r.afterAction a).batch = r.batch := by
    cases a with
    | clearEvidence =>
      show r.clearEvidence.batch = _
      unfold Record.clearEvidence Record.commit
      dsimp only
      split
      · split <;> rfl
      · rfl
      · rfl
    | reRead => rfl
    | nothing => rfl
    | fullRewrite => rfl
  unfold State.amended
  split <;> exact action

/-- What an amendment leaves of a state whose line of the slot holds the record (R14, R115). -/
theorem State.amend_spec {slot : Nat} {i : Fin 8} {d : DirEntry} {r after r' : Record} {p : AmendParams} (hok : s.Ok)
    (hd : s.directory.get slot = some d) (hi : s.lineOf slot = some i) (hr' : s.amended p after = r')
    (hb : r'.batch = none) :
    ∃ u, s.amend slot p r after = u.reply .ok [r'.status.code, segByte r'.segment, r'.score] ∧ Quiet s u ∧
      u.cached slot = .live r' ∧ u.directory.get slot = some ⟨.live r'.status, r'.segment, d.chain, false⟩ ∧
      (∀ k, k ≠ slot → u.directory.get k = s.directory.get k) ∧
      u.matching.buffer = s.matching.buffer.filter (fun e => e.slot != slot) ∧
      u.tamper.entries = (if r.status = .flagged ∧ r'.status ≠ .flagged then
        s.tamper.entries.filter (fun e => e.slot != slot) else s.tamper.entries) ∧
      Alike (s.report (some ⟨d.segment, d.status⟩) (some ⟨r'.segment, .live r'.status⟩)) u ∧
      u.store.queue = s.store.queue ∧ u.store.usedBlocks = s.store.usedBlocks ∧
      s.mem.Kept Config.routeBase u.mem := by
  have filed := State.putRecord_filed hd r'
  obtain ⟨v, hv⟩ : ∃ v, v = (s.putRecord slot r').forget slot := ⟨_, rfl⟩
  obtain ⟨w, hw⟩ : ∃ w, w = if r.status = .flagged ∧ r'.status ≠ .flagged then v.removedReport slot else v := ⟨_, rfl⟩
  have same : w.store = v.store ∧ w.directory = v.directory ∧ w.matching = v.matching ∧ w.segments = v.segments ∧
      w.events = v.events ∧ w.route = v.route ∧ w.mem = v.mem := by rw [hw]; split <;> simp
  obtain ⟨hstore, hdir, hmatch, hseg, hev, hroute, hmem⟩ := same
  have quiet : Quiet s v := hv ▸ ((Quiet.refl s).putRecord _ _).forget _
  refine ⟨w.letGo slot, ?_, Quiet.letGo ?_ _, ?_, ?_, fun k hk => ?_, ?_, ?_, ?_, ?_, ?_, ?_⟩
  · rw [State.amend_eq, hr', ← hv, ← hw]; rfl
  · rw [hw]; exact .ite (quiet.removedReport _) quiet
  · rw [State.letGo_cached, State.cached_congr (congrArg (·.lines) hstore), hv, ← (State.putRecord_line r' hi).2]
    exact State.cached_congr (by simp) slot
  · have hget := filed.get
    rw [hb] at hget
    simpa [hdir, hv] using hget
  · simpa [hdir, hv] using filed.get_ne hok hk
  · simp [hmatch, hv, State.forget]
  · have frame : (w.letGo slot).tamper = w.tamper := by simp
    rw [frame, hw]
    split <;> simp [hv, State.removedReport]
  · exact ⟨by simpa [hseg, hv] using filed.alike.segments, by simp [hroute, hv],
      by simpa [hev, hv] using filed.alike.events⟩
  · simp [hstore, hv]
  · simp [hstore, hv]
  · simpa [hmem, hv] using filed.mem

/-- An amendment that is no full rewrite, and passes its checks, is the amendment taken on the record found. -/
theorem execRecordAmend_of_found {s1 : State} {p : AmendParams} {slot : Nat} {r : Record} {a : AmendAction}
    (hs : s.serving) (hf : s.find p.serial = (.record slot r, s1)) (hb : r.batch = none)
    (ha : AmendAction.ofCode p.action = some a) (hne : a ≠ .fullRewrite)
    (hclosed : ¬(a = .reRead ∧ s.route.state = .closed)) (hrange : amendInRange s.params p (r.afterAction a) = true)
    (hallowed : amendAllowed p (r.afterAction a) = true) :
    exec (.recordAmend p) s = .next (s1.amend slot p r (r.afterAction a)) := by
  have route : s1.route = s.route := by have q := ((Quiet.refl s).find p.serial).route; rwa [hf] at q
  show execRecordAmend p s = _
  unfold execRecordAmend
  rw [State.serve_of_serving hs, ha, if_neg (by simpa using hne), hf]
  dsimp only
  unfold State.amendFound State.params
  dsimp only
  rw [hb, ha, route, if_neg (by simp), if_neg (by simpa using hclosed)]
  dsimp only
  have range : amendInRange (s.route.header.getD Header.blank) p (r.afterAction a) = true := hrange
  rw [if_neg (by simp [range]), if_neg (by simp [hallowed])]

/-! ### The full rewrite (R20) -/

section Rewrite
variable {p : AmendParams} {slot : Nat} {d : DirEntry} (hs : s.serving) (ha : p.action = 4)
  (hl : s.mem.lookup p.serial = some slot) (hd : s.directory.get slot = some d) (hb : d.batched = false)
include hs ha hl hd hb

theorem execRecordAmend_rewrite_refused (hf : d.status ≠ .fault) :
    exec (.recordAmend p) s = .next ((s.grants .command (s.mem.lookupAccesses p.serial)).refuse .wrongState) := by
  show execRecordAmend p s = _
  unfold execRecordAmend
  rw [State.serve_of_serving hs, ha, if_pos (by decide)]
  unfold State.fullRewrite State.lookupFor
  rw [hl]
  dsimp only
  rw [State.grants_directory, hd]
  dsimp only
  rw [if_neg (by simp [hb]), if_pos hf]

theorem execRecordAmend_rewrite_taken {load : LoadParams} {kind : Kind} (hf : d.status = .fault)
    (hw : p.wellCoded = true) (hload : p.rewrite = some load) (hkind : Kind.ofCode load.kind = some kind)
    (hrange : load.inRange s.params = true) : exec (.recordAmend p) s =
      .next ((s.grants .command (s.mem.lookupAccesses p.serial)).rewrite slot load kind) := by
  have given : p.kind.given = some load.kind := by
    unfold AmendParams.rewrite at hload
    simp only [Option.bind_eq_bind, Option.bind_eq_some_iff, Option.pure_def, Option.some.injEq] at hload
    obtain ⟨_, -, _, -, _, -, _, -, _, -, _, -, k, hk, rfl⟩ := hload
    exact hk
  show execRecordAmend p s = _
  unfold execRecordAmend
  rw [State.serve_of_serving hs, ha, if_pos (by decide)]
  unfold State.fullRewrite State.lookupFor
  rw [hl]
  dsimp only
  rw [State.grants_directory, hd]
  dsimp only
  rw [if_neg (by simp [hb]), if_neg (by simp [hf]), hload, given, Option.bind_some, hkind]
  dsimp only
  have range : load.inRange (s.grants .command (s.mem.lookupAccesses p.serial)).params = true := by
    unfold State.params
    rw [State.grants_route]
    exact hrange
  rw [if_pos (by simp [hw, range])]

end Rewrite

/-- What a full rewrite leaves (R20, R32, R115). -/
theorem State.rewrite_spec {slot : Nat} {d : DirEntry} {load : LoadParams} {kind : Kind} {r : Record} (hok : s.Ok)
    (hd : s.directory.get slot = some d)
    (hr : Record.fresh load kind (s.assignSegment load.sequence)
      (if s.route.state = .closed then .missed else .pending) = r) :
    ∃ u, s.rewrite slot load kind = u.reply .ok [r.status.code, segByte r.segment, 0] ∧
      Alike (s.report (some ⟨d.segment, d.status⟩) (some ⟨r.segment, .live r.status⟩)) u ∧ Quiet s u ∧
      u.cached slot = .live r ∧ u.directory.get slot = some ⟨.live r.status, r.segment, [], false⟩ ∧
      (∀ k, k ≠ slot → u.directory.get k = s.directory.get k) ∧
      u.matching.buffer = s.matching.buffer.filter (fun e => e.slot != slot) ∧
      u.tamper.entries = s.tamper.entries ∧
      u.store.queue = (s.takeLineFresh .command slot (.live r)).store.queue ∧
      u.store.usedBlocks = s.store.usedBlocks ∧
      (s.takeLineFresh .command slot (.live r)).mem.Kept Config.routeBase u.mem := by
  obtain ⟨x, hx⟩ : ∃ x, x = (s.takeLineFresh .command slot (.live r)).setChain slot [] := ⟨_, rfl⟩
  have hxdir : x.directory = s.directory.set slot { d with chain := [] } := by
    rw [hx, State.setChain_directory (d := d) (by simpa using hd)]
    simp
  have hget : x.directory.get slot = some { d with chain := [] } := by rw [hxdir, Directory.get_set_self]
  have filed := State.fileRecord_filed hget r
  have alike : Alike s x := ⟨by simp [hx], by simp [hx], by simp [hx]⟩
  have told := alike.report (some ⟨d.segment, d.status⟩) (some ⟨r.segment, .live r.status⟩)
  have quiet : Quiet s x := hx ▸ ((Quiet.refl s).takeLineFresh _ _ _).setChain _ _
  have hok' : x.Ok := hx ▸ (hok.takeLineFresh .command slot (.live r)).setChain slot (by simp)
  obtain ⟨-, -, hcached, -⟩ := State.takeLineFresh_line .command slot (.live r) s
  refine ⟨((x.fileRecord slot r).forget slot).letGo slot, ?_, ?_, ((quiet.fileRecord _ _).forget _).letGo _, ?_, ?_,
    fun k hk => ?_, ?_, ?_, ?_, ?_, ?_⟩
  · have score : r.score = 0 := by rw [← hr]; rfl
    rw [← score, hx, ← hr]
    rfl
  · exact ⟨by simpa using filed.alike.segments.trans told.segments, by simpa using filed.alike.route.trans told.route,
      by simpa using filed.alike.events.trans told.events⟩
  · rw [State.letGo_cached, ← hcached]
    exact State.cached_congr (by simp [hx]) slot
  · have batch : r.batch = none := by rw [← hr]; rfl
    have hget := filed.get
    rw [batch] at hget
    simpa using hget
  · have other := filed.get_ne hok' hk
    rw [hxdir, Directory.get_set hok.directory.rising, if_neg hk] at other
    simpa using other
  · simp [hx, State.forget]
  · simp [hx]
  · simp [hx]
  · simp [hx]
  · simpa [hx] using filed.mem

/-- Settles O47: an amendment found in range, a full rewrite refused and taken, and the two actions. -/
theorem amendmentsTakeEffect : Obligations.AmendmentsTakeEffect := by
  unfold Obligations.AmendmentsTakeEffect
  refine ⟨fun s s1 p slot d hs hok hd r a hf hb ha hne hclosed hrange hallowed => ?_,
    fun s p slot d hs hok hl hd hb ha => ?_, fun r => ⟨fun h => ?_, fun h => ?_, fun h1 h2 => ?_, rfl, rfl⟩⟩
  · intro changed r' v
    obtain ⟨hcached, -, -⟩ := State.find_record hf
    have quiet : Quiet s s1 := by have q := (Quiet.refl s).find p.serial; rwa [hf] at q
    have hok1 : s1.Ok := by have h := hok.find p.serial; rwa [hf] at h
    obtain ⟨i, hi⟩ := State.lineOf_of_cached (s := s1) (slot := slot) (by rw [hcached]; simp)
    obtain ⟨u, hu, hq, hrec, hget, hother, hbuffer, htamper, alike, hqueue, hblocks, hmem⟩ :=
      State.amend_spec (r := r) (r' := r') hok1 hd hi rfl ((State.amended_batch p r a s1).trans hb)
    exact ⟨u, by rw [execRecordAmend_of_found hs hf hb ha hne hclosed hrange hallowed, hu], quiet.trans hq, hrec, hget,
      hother, hbuffer, htamper, alike.segments, alike.events, hqueue, hblocks, hmem.reads hok1.mem⟩
  · intro looked
    have quiet : Quiet s looked := (Quiet.refl s).grants _ _
    have hok1 : looked.Ok := hok.grants .command _
    refine ⟨fun hf => ⟨looked, quiet, rfl, rfl, by simp [looked], execRecordAmend_rewrite_refused hs ha hl hd hb hf⟩,
      fun load kind hf hw hload hkind hrange => ?_⟩
    intro r s1 v
    have alike : Alike s looked := ⟨by simp [looked], by simp [looked], by simp [looked]⟩
    have told := alike.report (some ⟨d.segment, d.status⟩) (some ⟨r.segment, .live r.status⟩)
    have built : Record.fresh load kind (looked.assignSegment load.sequence)
        (if looked.route.state = .closed then .missed else .pending) = r := by
      rw [alike.assignSegment, alike.route]
    obtain ⟨u, hu, halike, hq, hrec, hget, hother, hbuffer, htamper, hqueue, hblocks, hmem⟩ :=
      State.rewrite_spec (s := looked) (d := d) hok1 (by simpa [looked] using hd) built
    exact ⟨u, by rw [execRecordAmend_rewrite_taken hs ha hl hd hb hf hw hload hkind hrange, hu],
      halike.segments.trans told.segments, halike.events.trans told.events, quiet.trans hq, hrec, hget,
      fun k hk => by simpa [looked] using hother k hk, by simpa [looked] using hbuffer, by simpa [looked] using htamper,
      hqueue, by simpa [looked] using hblocks,
      hmem.reads (hok1.takeLineFresh .command slot (.live r)).mem⟩
  · show r.clearEvidence = _
    unfold Record.clearEvidence Record.commit
    rw [h]
    dsimp only
    cases hc : r.candidate <;> rfl
  · show r.clearEvidence = _
    unfold Record.clearEvidence
    rw [h]
  · show r.clearEvidence = _
    unfold Record.clearEvidence
    dsimp only
    split
    · contradiction
    · contradiction
    · rfl

end Sys2Proof.Machine
end

