-- ==== Sys2Proof/Proofs/Counters.lean ====
section
/-! PROOF. What a report to the segment unit makes of each segment's counters (R115), and how many slots the directory
has free after one is occupied or freed (R37). -/

namespace Sys2Proof.Machine

variable {a s t : State}

/-! ### Segments after each change of the segment unit -/

@[simp] theorem State.putSegment_segment (n : Seg) (e : Segment) (k : Seg) (s : State) :
    (s.putSegment n e).segment k = if k = n then e else s.segment k := by
  unfold State.segment
  rw [State.putSegment_entries, Vector.get_eq_getElem, Vector.get_eq_getElem, Vector.getElem_set]
  by_cases h : k = n
  · rw [if_pos h, if_pos (congrArg Fin.val h.symm)]
  · rw [if_neg h, if_neg (fun e => h (Fin.ext e.symm))]

@[simp] theorem State.putPlan_segment (plan : List Seg) (k : Seg) (s : State) :
    (s.putPlan plan).segment k = s.segment k := by
  unfold State.putPlan; split <;> rfl

@[simp] theorem State.putActive_segment (x : Option Seg) (k : Seg) (s : State) :
    (s.putActive x).segment k = s.segment k := by
  unfold State.putActive; split <;> rfl

/-- What a judgement of segment `n` does to the segments: it may change the state of that one, and no count. -/
structure Judged (n : Seg) (s t : State) : Prop where
  others : ∀ k, k ≠ n → t.segment k = s.segment k
  counts : ∀ k c, (t.segment k).count c = (s.segment k).count c

theorem Judged.refl (n : Seg) (s : State) : Judged n s s := ⟨fun _ _ => rfl, fun _ _ => rfl⟩

/-- A segment put with another state, and whatever leaves the segments as they are after it. -/
theorem Judged.put {n : Seg} {e : Segment} (he : ∀ c, e.count c = (s.segment n).count c)
    (ht : ∀ k, t.segment k = (s.putSegment n e).segment k) : Judged n s t where
  others k hk := by rw [ht, State.putSegment_segment, if_neg hk]
  counts k c := by
    rw [ht, State.putSegment_segment]
    split
    next h => rw [he, h]
    · rfl

theorem Judged.complete (n : Seg) (s : State) : Judged n s (s.complete n) := by
  unfold State.complete
  split
  · exact .refl n s
  split
  · exact .refl n s
  · refine .put (e := { s.segment n with state := .complete }) (fun _ => rfl) fun k => ?_
    have done : ((s.putSegment n { s.segment n with state := .complete }).putPlan
        (planWithout s.segments.plan n)).segment k =
          (s.putSegment n { s.segment n with state := .complete }).segment k := State.putPlan_segment _ _ _
    dsimp only
    split
    · exact (State.putActive_segment none k _).trans done
    · exact done

theorem Judged.reopen (n : Seg) (s : State) : Judged n s (s.reopen n) := by
  unfold State.reopen
  split
  · split
    · exact .put (e := { s.segment n with state := if (s.segment n).visited then .redrive else .unvisited })
        (fun _ => rfl) fun k => State.putPlan_segment _ _ _
    · exact .put (e := { s.segment n with state := .abandoned }) (fun _ => rfl) fun k => rfl
    · exact .refl n s
  · exact .refl n s

theorem Judged.judge (n : Seg) (before : Nat) (s : State) : Judged n s (s.judge (some n) before) := by
  unfold State.judge
  dsimp only
  split
  · exact .complete n s
  · split
    · exact .reopen n s
    · exact .refl n s

theorem State.judge_others {n : Option Seg} (before : Nat) {k : Seg} (h : n ≠ some k) (s : State) :
    (s.judge n before).segment k = s.segment k := by
  cases n with
  | none => rfl
  | some n => exact (Judged.judge n before s).others k fun e => h (congrArg some e.symm)

theorem State.judge_counts (n : Option Seg) (before : Nat) (k : Seg) (c : Option Class) (s : State) :
    ((s.judge n before).segment k).count c = (s.segment k).count c := by
  cases n with
  | none => rfl
  | some n => exact (Judged.judge n before s).counts k c

theorem State.countAt_others {p : Option Place} {k : Seg} (h : p.bind (·.segment) ≠ some k) (f : Nat → Nat)
    (s : State) : (s.countAt p f).segment k = s.segment k := by
  unfold State.countAt
  split
  next n status =>
    rw [State.putSegment_segment, if_neg]
    rintro rfl
    exact h rfl
  · rfl

/-! ### A report's outcome for each segment -/

/-- A segment that neither place of a report names is as it was. -/
theorem State.report_others {old new : Option Place} {k : Seg} (ho : old.bind (·.segment) ≠ some k)
    (hn : new.bind (·.segment) ≠ some k) (s : State) : (s.report old new).segment k = s.segment k := by
  have counted : ((s.countAt old (· - 1)).countAt new (· + 1)).segment k = s.segment k :=
    (State.countAt_others hn _ _).trans (State.countAt_others ho _ _)
  unfold State.report
  dsimp only
  split
  · exact counted
  · rw [State.judge_others _ hn, State.judge_others _ ho, counted]

/-- A report takes the old place out of the counts it was in, and the new one into those it is in. -/
theorem State.report_counts (old new : Option Place) (k : Seg) (c : Option Class) (s : State) :
    ((s.report old new).segment k).count c = (s.segment k).count c - weight old k c + weight new k c := by
  have counted : (((s.countAt old (· - 1)).countAt new (· + 1)).segment k).count c =
      (s.segment k).count c - weight old k c + weight new k c := by
    rw [State.countAt_count, State.countAt_count]
    unfold weight
    split <;> split <;> rfl
  unfold State.report
  dsimp only
  split
  · exact counted
  · rw [State.judge_counts, State.judge_counts, counted]

/-! ### The number of free slots (R37) -/

/-- A slot occupied that was free is one entry more. -/
theorem Directory.length_set {d : Directory} {n : Nat} (h : d.get n = none) (x : DirEntry) :
    (d.set n x).length = d.length + 1 := by
  induction d with
  | nil => rfl
  | cons c d ih =>
    obtain ⟨k, e⟩ := c
    rw [Directory.get] at h
    rw [Directory.set]
    split_ifs at h ⊢ with h1 h2
    · rfl
    · rw [List.length_cons, ih h, List.length_cons]

/-- A slot freed that was occupied is one entry less. -/
theorem Directory.length_free {d : Directory} (hr : Rising (d.map (·.1))) {n : Nat} {x : DirEntry}
    (h : d.get n = some x) : (d.free n).length + 1 = d.length := by
  have listed : n ∈ d.map (·.1) := (Directory.get_isSome hr n).1 (by rw [h]; rfl)
  have once : d.countP (fun e => e.1 == n) = 1 := by
    have nodup : (d.map (·.1)).Nodup := hr.imp fun h => Nat.ne_of_lt h
    have := List.count_eq_one_of_mem nodup listed
    rw [List.count, List.countP_map] at this
    exact this
  have split := List.length_eq_countP_add_countP (fun e : Nat × DirEntry => e.1 == n) (l := d)
  rw [once] at split
  have rest : (d.free n).length = d.countP fun e => decide ¬(e.1 == n) = true := by
    rw [List.countP_eq_length_filter, Directory.free]
    congr 2
    funext e
    simp only [bne, decide_not, Bool.decide_eq_true]
  omega

/-- The directory lists 8,192 slots at most. -/
theorem State.Ok.directory_length (h : s.Ok) : s.directory.length ≤ 8192 := by
  have nodup : (s.directory.map (·.1)).Nodup := h.directory.rising.imp fun h => Nat.ne_of_lt h
  have within : s.directory.map (·.1) ⊆ List.range 8192 := fun n hn => List.mem_range.2 (h.directory.inArea n hn)
  have := (nodup.subperm within).length_le
  simpa using this

end Sys2Proof.Machine
end

