-- ==== Sys2Proof/Proofs/Queue.lean ====
section
/-! PROOF. What the write queue's images make of memory as they are written (R34), what a lookup depends on, and the
accesses of the index's operations (R25 to R27, R36). -/

namespace Sys2Proof.Machine

variable {a s t : State} {m m' : Memory}

/-! ### A row of queued images written -/

/-- Memory with queued images written to their slots, oldest first (R34). -/
def Memory.writeQueued (m : Memory) (qs : List Queued) : Memory :=
  qs.foldl (fun m q => m.writeSlot q.slot q.contents) m

theorem Memory.writeQueued_append (m : Memory) (xs ys : List Queued) :
    m.writeQueued (xs ++ ys) = (m.writeQueued xs).writeQueued ys := List.foldl_append

theorem Memory.wf_writeQueued (h : m.wf = true) (qs : List Queued) : (m.writeQueued qs).wf = true := by
  induction qs generalizing m with
  | nil => exact h
  | cons q qs ih => exact ih (Memory.wf_writeSlot h q.slot q.contents)

theorem Memory.read_writeSlot (h : m.wf = true) (n : Nat) (c : Contents) (x : Nat) : (m.writeSlot n c).read x =
    if slotAddress n ≤ x ∧ x < slotAddress n + 64 then byteAt c.image (x - slotAddress n) else m.read x := by
  unfold Memory.writeSlot
  rw [Memory.read_writeBytes h, (Contents.image_checked c).1]

/-- An address that reads alike before the images are written reads alike after. -/
theorem Memory.writeQueued_congr (h : m.wf = true) (h' : m'.wf = true) {x : Nat} (hx : m'.read x = m.read x)
    (qs : List Queued) : (m'.writeQueued qs).read x = (m.writeQueued qs).read x := by
  induction qs generalizing m m' with
  | nil => exact hx
  | cons q qs ih =>
    refine ih (Memory.wf_writeSlot h _ _) (Memory.wf_writeSlot h' _ _) ?_
    rw [Memory.read_writeSlot h, Memory.read_writeSlot h', hx]

/-- Images of slots in the record area leave everything past it. -/
theorem Memory.writeQueued_past (h : m.wf = true) {qs : List Queued} (hq : ∀ q ∈ qs, q.slot < 8192) {x : Nat}
    (hx : Config.extensionBase ≤ x) : (m.writeQueued qs).read x = m.read x := by
  induction qs generalizing m with
  | nil => rfl
  | cons q qs ih =>
    refine (ih (Memory.wf_writeSlot h _ _) fun q hm => hq q (List.mem_cons_of_mem _ hm)).trans ?_
    have := hq q (List.mem_cons_self ..)
    have := (show Config.extensionBase = 524288 from rfl)
    rw [Memory.read_writeSlot h, if_neg (by unfold slotAddress; omega)]

/-! ### How the queue moves on -/

/-- From one state to another the queue has given up the images `written`, oldest first, and taken `images` at its
tail, and memory below an address has changed by what was written alone. -/
structure Spilled (b : Nat) (s t : State) (written images : List Queued) : Prop where
  queue : written ++ t.store.queue = s.store.queue ++ images
  wf : s.mem.wf = true → t.mem.wf = true
  reads : s.mem.wf = true → ∀ x, x < b → t.mem.read x = (s.mem.writeQueued written).read x

theorem Spilled.of_kept {b : Nat} (hq : t.store.queue = s.store.queue) (hm : s.mem.Kept b t.mem) :
    Spilled b s t [] [] := ⟨by rw [hq, List.nil_append, List.append_nil], hm.wf, hm.reads⟩

theorem Spilled.refl (b : Nat) (s : State) : Spilled b s s [] [] := .of_kept rfl (.refl _ _)

theorem Spilled.trans {b : Nat} {w w' i i' : List Queued} (h : Spilled b a s w i) (h' : Spilled b s t w' i') :
    Spilled b a t (w ++ w') (i ++ i') where
  queue := by rw [List.append_assoc, h'.queue, ← List.append_assoc, h.queue, List.append_assoc]
  wf hm := h'.wf (h.wf hm)
  reads hm x hx := by
    rw [h'.reads (h.wf hm) x hx, Memory.writeQueued_append]
    exact Memory.writeQueued_congr (Memory.wf_writeQueued hm w) (h.wf hm) (h.reads hm x hx) w'

theorem Spilled.mono {b b' : Nat} {w i : List Queued} (h : Spilled b s t w i) (hb : b' ≤ b) : Spilled b' s t w i :=
  ⟨h.queue, h.wf, fun hm x hx => h.reads hm x (by omega)⟩

/-- What is written was queued before, or has joined the queue. -/
theorem Spilled.mem_written {b : Nat} {w i : List Queued} (h : Spilled b s t w i) {q : Queued} (hq : q ∈ w) :
    q ∈ s.store.queue ∨ q ∈ i := by
  rw [← List.mem_append, ← h.queue]
  exact List.mem_append_left _ hq

theorem Spilled.grants (b : Nat) {u : Holder} {unit : Requester} (hu : u.requester = some unit) (n : Nat) (s : State) :
    Spilled b s (s.grants u n) (s.store.queue.take n) [] := by
  rcases Nat.eq_zero_or_pos n with rfl | hn
  · have same : s.grants u 0 = s := by unfold State.grants; rw [hu]; rfl
    rw [same, List.take_zero]
    exact .refl b s
  · rw [State.grants_eq hu (by omega)]
    exact ⟨by simp, fun hm => Memory.wf_writeQueued hm _, fun _ _ _ => rfl⟩

/-- Accesses of any holder: the route scan's are no grants, and write no image. -/
theorem Spilled.grants_any (b : Nat) (u : Holder) (n : Nat) (s : State) : ∃ w, Spilled b s (s.grants u n) w [] := by
  cases hu : u.requester with
  | some unit => exact ⟨_, .grants b hu n s⟩
  | none =>
    have same : s.grants u n = s := by unfold State.grants; rw [hu]
    rw [same]
    exact ⟨[], .refl b s⟩

theorem Spilled.enqueue (b : Nat) (q : Queued) (s : State) : ∃ w, Spilled b s (s.enqueue q) w [q] := by
  rcases Nat.lt_or_ge s.store.queue.length 4 with h | h
  · rw [State.enqueue_room h]
    exact ⟨[], by simp, id, fun _ _ _ => rfl⟩
  · obtain ⟨x, rest, hq⟩ : ∃ x rest, s.store.queue = x :: rest := by
      cases hq : s.store.queue with
      | nil => rw [hq] at h; exact absurd h (by simp)
      | cons x rest => exact ⟨x, rest, rfl⟩
    have full : ¬s.store.queue.length < Config.queuePlaces := Nat.not_lt.2 h
    have spilled : (s.enqueue q).mem = s.mem.writeSlot x.slot x.contents ∧
        (s.enqueue q).store.queue = rest ++ [q] := by
      unfold State.enqueue State.writeOldest
      rw [if_neg full, hq]
      exact ⟨rfl, rfl⟩
    refine ⟨[x], ?_, fun hm => ?_, fun _ y _ => ?_⟩
    · rw [spilled.2, hq]; rfl
    · rw [spilled.1]; exact Memory.wf_writeSlot hm _ _
    · rw [spilled.1]; rfl

/-- Room for a victim: of the lines, the DIRTY one that gives way queues its image. -/
theorem Spilled.evict (b : Nat) (i : Fin 8) (s : State) : ∃ w images, Spilled b s (s.evict i) w images ∧
    images.length ≤ 1 ∧ ∀ q ∈ images, (s.line i).body = some ⟨q.slot, true, q.contents⟩ := by
  cases hb : (s.line i).body with
  | none =>
    rw [State.evict_clean (fun b h => by rw [hb] at h; cases h)]
    exact ⟨[], [], .refl b s, by simp, fun q hq => by simp at hq⟩
  | some c =>
    cases hd : c.dirty with
    | false =>
      rw [State.evict_clean (fun b h => by rw [hb] at h; cases h; exact hd)]
      exact ⟨[], [], .refl b s, by simp, fun q hq => by simp at hq⟩
    | true =>
      rw [State.evict_dirty hb hd]
      obtain ⟨w, h⟩ := Spilled.enqueue b ⟨c.slot, c.contents⟩ s
      refine ⟨w, _, h, by simp, fun q hq => ?_⟩
      rw [List.mem_singleton.1 hq, ← hd]

theorem Spilled.takeLineFresh (b : Nat) (u : Holder) (slot : Nat) (c : Contents) (s : State) :
    ∃ w images, Spilled b s (s.takeLineFresh u slot c) w images ∧ images.length ≤ 1 ∧
      ∀ q ∈ images, ∃ i, (s.line i).body = some ⟨q.slot, true, q.contents⟩ := by
  unfold State.takeLineFresh
  split
  · exact ⟨[], [], .of_kept rfl (.refl _ _), by simp, fun q hq => by simp at hq⟩
  · obtain ⟨w, images, h, hl, hi⟩ := Spilled.evict b s.victim s
    exact ⟨w, images, ⟨h.queue, h.wf, h.reads⟩, hl, fun q hq => ⟨_, hi q hq⟩⟩

/-! ### What a lookup depends on (R25) -/

theorem Memory.findEntry_congr (h : ∀ n, n < 16384 → m'.entrySerial n = m.entrySerial n) (x : Word) {fuel n : Nat}
    (hn : n < 16384) : m'.findEntry x fuel n = m.findEntry x fuel n := by
  induction fuel generalizing n with
  | zero => rfl
  | succ fuel ih =>
    unfold Memory.findEntry
    rw [h n hn, ih (nextEntry_lt n)]

/-- Two memories that read alike over the index area find every serial alike. -/
theorem Memory.lookup_congr (h : ∀ x, Config.indexBase ≤ x → x < Config.routeBase → m'.read x = m.read x)
    (serial : Word) : m'.lookup serial = m.lookup serial := by
  have entry : ∀ n, n < 16384 → m'.entrySerial n = m.entrySerial n ∧ m'.entrySlot n = m.entrySlot n := fun n hn =>
    Memory.entry_congr fun x h1 h2 => h x (by have := entryAddress_lt hn; omega) (by have := entryAddress_lt hn; omega)
  unfold Memory.lookup
  rw [Memory.findEntry_congr (fun n hn => (entry n hn).1) serial (homeBucket_lt serial)]
  refine Option.map_congr fun n hn => ?_
  obtain ⟨d, -, hk, -⟩ := (Memory.findEntry_eq_some (homeBucket_lt serial)).1 hn
  exact (entry n (hk ▸ Nat.mod_lt _ (by decide))).2

/-- Images of slots in the record area leave every lookup. -/
theorem Spilled.lookup {w i : List Queued} (h : Spilled Config.routeBase s t w i) (hm : s.mem.wf = true)
    (hw : ∀ q ∈ w, q.slot < 8192) (serial : Word) : t.mem.lookup serial = s.mem.lookup serial :=
  Memory.lookup_congr (fun x h1 h2 => by
    rw [h.reads hm x h2]
    exact Memory.writeQueued_past hm hw (by have : Config.extensionBase ≤ Config.indexBase := by decide
                                            omega)) serial

/-! ### A serial inserted (R26) -/

/-- A search for a serial that the index does not have meets an EMPTY entry before any entry that holds it. -/
theorem Memory.unheld_of_lookup {serial : Word} (h : m.lookup serial = none) (h0 : serial ≠ 0) {d : Nat}
    (hd : d ≤ 16384) (hfull : ∀ j, j < d → m.entrySerial ((homeBucket serial + j) % 16384) ≠ 0) :
    ∀ j, j < d → m.entrySerial ((homeBucket serial + j) % 16384) ≠ serial := by
  intro j
  induction j using Nat.strong_induction_on with
  | _ j ih =>
    intro hj he
    have found : m.findEntry serial Config.indexEntries (homeBucket serial) = some ((homeBucket serial + j) % 16384) :=
      (Memory.findEntry_eq_some (homeBucket_lt serial)).2
        ⟨j, by show j < 16384; omega, rfl, he, h0, fun k hk => ⟨hfull k (by omega), ih k hk (by omega)⟩⟩
    unfold Memory.lookup at h
    rw [found] at h
    cases h

/-- A table with an EMPTY entry gives one to an insertion. -/
theorem Memory.findEmpty_isSome {fuel n k d : Nat} (hk : k = (n + d) % 16384) (hn : n < 16384) (hd : d < fuel)
    (hz : m.entrySerial k = 0) : ∃ j, m.findEmpty fuel n = some j := by
  induction fuel generalizing n d with
  | zero => omega
  | succ fuel ih =>
    unfold Memory.findEmpty
    split
    · exact ⟨n, rfl⟩
    next hne =>
      rcases d with _ | d
      · rw [hk, show (n + 0) % 16384 = n by omega] at hz
        exact absurd hz hne
      · refine ih (d := d) ?_ (nextEntry_lt n) (by omega)
        rw [hk]; simp only [nextEntry, Config.indexEntries]; omega

/-- Where the index has room, an inserted serial is found, and every serial that was (R26). -/
theorem Memory.lookup_insertSerial (hm : m.wf = true) {serial : Word} {slot : Nat} (h : m.lookup serial = none)
    (h0 : serial ≠ 0) (hs : slot < 8192) (room : ∃ n, n < 16384 ∧ m.entrySerial n = 0) :
    (m.insertSerial serial slot).lookup serial = some slot ∧
    ∀ x found, m.lookup x = some found → (m.insertSerial serial slot).lookup x = some found := by
  have hb := homeBucket_lt serial
  obtain ⟨e, he, hz⟩ := room
  obtain ⟨n, hn⟩ := Memory.findEmpty_isSome (forwardFrom_spec hb he).symm hb (forwardFrom_lt _ _) hz
  obtain ⟨d, hd, hnd, hnz, hfull⟩ := Memory.findEmpty_eq_some hb hn
  have insert : m.insertSerial serial slot = m.writeEntry n serial slot := by
    unfold Memory.insertSerial
    rw [show Config.indexEntries = 16384 from rfl, hn]
  have entry := Memory.entry_writeEntry hm n (serial := serial) (slot := slot)
  have lookup_of : ∀ (x : Word) (k : Nat),
      (m.writeEntry n serial slot).findEntry x Config.indexEntries (homeBucket x) = some k →
        (m.writeEntry n serial slot).lookup x = some ((m.writeEntry n serial slot).entrySlot k) := fun x k hk => by
    unfold Memory.lookup; rw [hk]; rfl
  rw [insert]
  constructor
  · have unheld := Memory.unheld_of_lookup h h0 (Nat.le_of_lt hd) hfull
    have found := (Memory.findEntry_eq_some (m := m.writeEntry n serial slot) hb (k := n)).2
      ⟨d, hd, hnd, by rw [(entry n).1, if_pos rfl], h0, fun j hj => ?_⟩
    · rw [lookup_of serial n found, (entry n).2, if_pos rfl]
      exact congrArg some (Nat.mod_eq_of_lt (by omega))
    · have apart : (homeBucket serial + j) % 16384 ≠ n := by rintro rfl; exact hfull j hj hnz
      rw [(entry _).1, if_neg apart]
      exact ⟨hfull j hj, unheld j hj⟩
  · intro x found hx
    obtain ⟨k, hk, hslot⟩ := Option.map_eq_some_iff.1 hx
    obtain ⟨j, hj, hkj, hkx, hx0, hall⟩ := (Memory.findEntry_eq_some (homeBucket_lt x)).1 hk
    have apart : k ≠ n := by rintro rfl; exact hx0 (hkx.symm.trans hnz)
    have found' := (Memory.findEntry_eq_some (m := m.writeEntry n serial slot) (homeBucket_lt x) (k := k)).2
      ⟨j, hj, hkj, by rw [(entry k).1, if_neg apart, hkx], hx0, fun i hi => ?_⟩
    · rw [lookup_of x k found', (entry k).2, if_neg apart, hslot]
    · have apart : (homeBucket x + i) % 16384 ≠ n := by
        intro e
        exact (hall i hi).1 (e ▸ hnz)
      rw [(entry _).1, if_neg apart]
      exact hall i hi

theorem Memory.insertSerial_below (hm : m.wf = true) (serial : Word) (slot : Nat) {x : Nat}
    (hx : x < Config.indexBase) : (m.insertSerial serial slot).read x = m.read x := by
  unfold Memory.insertSerial
  split
  · exact Memory.read_writeEntry hm _ _ (.inl (by unfold entryAddress; omega))
  · rfl

/-! ### The accesses of the index's operations (R36) -/

/-- A search reads up to the first entry that is EMPTY or holds the serial. -/
theorem Memory.searchReads_eq {x : Word} {fuel n k : Nat} (hn : n < 16384) (hk : k < fuel)
    (stop : m.entrySerial ((n + k) % 16384) = 0 ∨ m.entrySerial ((n + k) % 16384) = x)
    (pass : ∀ j, j < k → m.entrySerial ((n + j) % 16384) ≠ 0 ∧ m.entrySerial ((n + j) % 16384) ≠ x) :
    m.searchReads x fuel n = k + 1 := by
  induction fuel generalizing n k with
  | zero => omega
  | succ fuel ih =>
    have here : (n + 0) % 16384 = n := by omega
    have step : ∀ j, (nextEntry n + j) % 16384 = (n + (j + 1)) % 16384 := by
      intro j; simp only [nextEntry, Config.indexEntries]; omega
    unfold Memory.searchReads
    rcases k with _ | k
    · rw [here] at stop
      rw [if_pos stop]
    · have first := pass 0 (by omega)
      rw [here] at first
      rw [if_neg (by simpa using first), ih (nextEntry_lt n) (k := k) (by omega) (by rwa [step])
        fun j hj => by rw [step]; exact pass _ (by omega)]

theorem Memory.searchReads_pos (x : Word) (fuel n : Nat) : 1 ≤ m.searchReads x (fuel + 1) n := by
  unfold Memory.searchReads
  split <;> omega

theorem Memory.deleteAccesses_pos (m : Memory) (serial : Word) : 1 ≤ m.deleteAccesses serial :=
  Nat.le_trans (Memory.searchReads_pos serial 16383 (homeBucket serial)) (Nat.le_add_right _ _)

/-- The closing of a gap reads each entry up to the EMPTY one `r` ahead, and writes two for each that it moves. -/
theorem Memory.closeAccesses_bounds {fuel hole n r : Nat} (hm : m.wf = true) (hn : n < 16384) (hr : r < fuel)
    (hl : r < 16384) (hz : m.entrySerial ((n + r) % 16384) = 0)
    (hfull : ∀ j, j < r → m.entrySerial ((n + j) % 16384) ≠ 0) (hapart : ∀ j, j ≤ r → (n + j) % 16384 ≠ hole) :
    r + 1 ≤ m.closeAccesses fuel hole n ∧ m.closeAccesses fuel hole n ≤ 3 * r + 1 := by
  induction fuel generalizing m hole n r with
  | zero => omega
  | succ fuel ih =>
    have here : (n + 0) % 16384 = n := by omega
    have step : ∀ j, (nextEntry n + j) % 16384 = (n + (j + 1)) % 16384 := by
      intro j; simp only [nextEntry, Config.indexEntries]; omega
    unfold Memory.closeAccesses
    rcases r with _ | r
    · rw [here] at hz
      rw [if_pos hz]
      omega
    · have live := hfull 0 (by omega)
      rw [here] at live
      rw [if_neg live]
      split
      · have wf1 := Memory.wf_writeEntry hm hole (m.entrySerial n) (m.entrySlot n)
        have entry : ∀ j, j ≤ r → ((m.writeEntry hole (m.entrySerial n) (m.entrySlot n)).writeEntry n 0 0).entrySerial
            ((n + (j + 1)) % 16384) = m.entrySerial ((n + (j + 1)) % 16384) := fun j hj => by
          rw [(Memory.entry_writeEntry wf1 n _ 0 0).1, if_neg (by omega), (Memory.entry_writeEntry hm hole _ _ _).1,
            if_neg (hapart _ (by omega))]
        have moved := ih (Memory.wf_writeEntry wf1 n 0 0) (nextEntry_lt n) (hole := n) (r := r) (by omega) (by omega)
          (by rw [step, entry r (Nat.le_refl r)]; exact hz)
          (fun j hj => by rw [step, entry j (Nat.le_of_lt hj)]; exact hfull _ (by omega))
          (fun j hj => by rw [step]; omega)
        omega
      · have passed := ih hm (nextEntry_lt n) (hole := hole) (r := r) (by omega) (by omega) (by rwa [step])
          (fun j hj => by rw [step]; exact hfull _ (by omega)) (fun j hj => by rw [step]; exact hapart _ (by omega))
        omega

/-- The accesses of a deletion whose serial stands in its home bucket, with the next EMPTY entry `k` ahead. -/
theorem Memory.deleteAccesses_bounds (hm : m.wf = true) {serial : Word} {k : Nat} (hk : k < 16384) (hk0 : 0 < k)
    (home : m.entrySerial ((homeBucket serial + 0) % 16384) = serial)
    (hz : m.entrySerial ((homeBucket serial + k) % 16384) = 0)
    (hfull : ∀ j, j < k → m.entrySerial ((homeBucket serial + j) % 16384) ≠ 0) :
    k + 2 ≤ m.deleteAccesses serial ∧ m.deleteAccesses serial ≤ 3 * k := by
  have hb := homeBucket_lt serial
  have here : (homeBucket serial + 0) % 16384 = homeBucket serial := by omega
  have live := hfull 0 hk0
  have reads : m.lookupAccesses serial = 1 :=
    Memory.searchReads_eq hb (show 0 < 16384 by decide) (.inr home) fun j hj => absurd hj (by omega)
  have found : m.findEntry serial Config.indexEntries (homeBucket serial) = some (homeBucket serial) :=
    (Memory.findEntry_eq_some hb).2 ⟨0, by decide, here.symm, here ▸ home, home ▸ live, fun j hj => absurd hj (by omega)⟩
  have step : ∀ j, (nextEntry (homeBucket serial) + j) % 16384 = (homeBucket serial + (j + 1)) % 16384 := by
    intro j; simp only [nextEntry, Config.indexEntries]; omega
  have entry : ∀ j, j < k → (m.writeEntry (homeBucket serial) 0 0).entrySerial
      ((homeBucket serial + (j + 1)) % 16384) = m.entrySerial ((homeBucket serial + (j + 1)) % 16384) := fun j hj => by
    rw [(Memory.entry_writeEntry hm (homeBucket serial) _ 0 0).1, if_neg (by omega)]
  have closed := Memory.closeAccesses_bounds (fuel := Config.indexEntries) (hole := homeBucket serial) (r := k - 1)
    (Memory.wf_writeEntry hm (homeBucket serial) 0 0) (nextEntry_lt (homeBucket serial))
    (by show k - 1 < 16384; omega) (by omega)
    (by rw [step, entry _ (by omega), show k - 1 + 1 = k by omega]; exact hz)
    (fun j hj => by rw [step, entry _ (by omega)]; exact hfull _ (by omega))
    (fun j hj => by rw [step]; omega)
  have total : m.deleteAccesses serial = 1 + ((m.writeEntry (homeBucket serial) 0 0).closeAccesses Config.indexEntries
      (homeBucket serial) (nextEntry (homeBucket serial)) + 1) := by
    unfold Memory.deleteAccesses
    rw [reads, found]
  omega

end Sys2Proof.Machine
end

