-- ==== Sys2Proof/Proofs/Loads.lean ====
section
/-! PROOF. RECORD_LOAD takes the lowest-numbered free slot and enters the index (O45). -/

namespace Sys2Proof.Machine

variable {s t : State}

/-- The lowest-numbered free slot is free, and every slot below it is occupied (R9). -/
theorem State.Ok.lowestFree_spec (h : s.Ok) : s.directory.get s.directory.lowestFree = none ∧
    ∀ k, k < s.directory.lowestFree → s.directory.get k ≠ none := by
  obtain ⟨-, -, present⟩ := firstAbsent_spec (s.directory.map (·.1)) h.directory.rising 0
  refine ⟨Directory.get_lowestFree h.directory.rising, fun k hk => ?_⟩
  have listed := (Directory.get_isSome h.directory.rising k).2 (present k (Nat.zero_le k) hk)
  exact Option.isSome_iff_ne_none.1 listed

/-- The segment that a load gives its record: in OPEN that of its sequence's window, in LOADING none (R1). -/
theorem State.assignSegment_of_loading (h : s.route.state = .loading ∨ s.route.state = .opened) (sequence : Half) :
    s.assignSegment sequence = if s.route.state = .opened then s.windowOf sequence else none := by
  unfold State.assignSegment
  rcases h with h | h <;> rw [h] <;> rfl

/-- A load in range of a serial that the index does not have, with a slot free, is the load taken. -/
theorem execRecordLoad_taken {p : LoadParams} {kind : Kind} (hs : s.serving)
    (hr : s.route.state = .loading ∨ s.route.state = .opened) (hk : Kind.ofCode p.kind = some kind)
    (hp : p.inRange s.params = true) (hl : s.mem.lookup p.serial = none) (hf : s.directory.freeSlots ≠ 0) :
    exec (.recordLoad p) s = .next ((s.grants .command (s.mem.lookupAccesses p.serial)).load p kind) := by
  show execRecordLoad p s = _
  unfold execRecordLoad
  have state : ¬(s.route.state ≠ .loading ∧ s.route.state ≠ .opened) := by
    rcases hr with hr | hr <;> rw [hr] <;> decide
  rw [State.serve_of_serving hs, if_neg state, hk]
  unfold State.lookupFor
  dsimp only
  rw [hl, State.grants_directory, if_neg (by simp [hp]), if_neg (by simp), if_neg hf]

/-- What a load leaves: the state before its answer, with the line taken and the serial inserted in `built`. -/
structure Loaded (s t : State) (p : LoadParams) (slot : Nat) (r : Record) (built : State) : Prop where
  directory : t.directory = s.directory.set slot ⟨.live .pending, r.segment, [], false⟩
  alike : Alike (s.report none (some ⟨r.segment, .live .pending⟩)) t
  cached : t.cached slot = .live r
  blocks : t.store.usedBlocks = s.store.usedBlocks
  tamper : t.tamper = s.tamper
  matching : t.matching = s.matching
  spilled : Spilled Config.routeBase (built.withMem (built.mem.insertSerial p.serial slot)) t
    (built.store.queue.take (built.mem.insertAccesses p.serial)) []

theorem State.load_loaded {p : LoadParams} {kind : Kind} {slot : Nat} {r : Record} {built : State}
    (hslot : s.directory.lowestFree = slot) (hr : Record.fresh p kind (s.assignSegment p.sequence) .pending = r)
    (hbuilt : s.takeLineFresh .command slot (.live r) = built) :
    ∃ t, s.load p kind = t.reply .ok (natHalf slot) ∧ Quiet s t ∧ Loaded s t p slot r built := by
  have segment : r.segment = s.assignSegment p.sequence := by rw [← hr]; rfl
  obtain ⟨x, hx⟩ : ∃ x, x = ((built.withMem (built.mem.insertSerial p.serial slot)).grants .command
      (built.mem.insertAccesses p.serial)) := ⟨_, rfl⟩
  obtain ⟨y, hy⟩ : ∃ y, y = (x.withDirectory (x.directory.set slot ⟨.live .pending, r.segment, [], false⟩)) :=
    ⟨_, rfl⟩
  have told := Told.report y none (some ⟨r.segment, .live .pending⟩)
  have frame : built.directory = s.directory ∧ built.tamper = s.tamper ∧ built.matching = s.matching ∧
      built.store.usedBlocks = s.store.usedBlocks ∧ Alike s built := by
    rw [← hbuilt]; exact ⟨by simp, by simp, by simp, by simp, by simp, by simp, by simp⟩
  obtain ⟨hdir, htamper, hmatching, hblocks, halike⟩ := frame
  have alike : Alike s y := ⟨by rw [hy, hx]; simpa using halike.segments, by rw [hy, hx]; simpa using halike.route,
    by rw [hy, hx]; simpa using halike.events⟩
  have reported := alike.report none (some ⟨r.segment, .live .pending⟩)
  have quiet : Quiet s y := by
    rw [hy, hx, ← hbuilt]
    exact ((((Quiet.refl s).takeLineFresh _ _ _).withMem _).grants _ _).withDirectory _
  refine ⟨(y.report none (some ⟨r.segment, .live .pending⟩)).letGo slot, ?_, (quiet.report _ _).letGo _,
    ?_, ?_, ?_, ?_, ?_, ?_, ?_⟩
  · rw [hy, hx, segment, ← hbuilt, ← hr, ← hslot]; rfl
  · simp [hy, hx, hdir]
  · exact ⟨by simpa using reported.segments, by simpa using reported.route, by simpa using reported.events⟩
  · obtain ⟨-, -, hcached, -⟩ := State.takeLineFresh_line .command slot (.live r) s
    rw [State.letGo_cached, ← hcached, hbuilt]
    exact State.cached_congr (by simp [hy, hx]) slot
  · simp [hy, hx, hblocks]
  · simp [hy, hx, htamper]
  · simp [hy, hx, hmatching]
  · have granted := Spilled.grants Config.routeBase (u := .command) rfl (built.mem.insertAccesses p.serial)
      (built.withMem (built.mem.insertSerial p.serial slot))
    have after : Spilled Config.routeBase x ((y.report none (some ⟨r.segment, .live .pending⟩)).letGo slot) [] [] :=
      .of_kept (by simp [hy]) (by
        have kept := told.mem
        rw [hy] at kept ⊢
        simpa using kept)
    rw [← hx] at granted
    simpa using granted.trans after

/-- Settles O45: the load taken, its slot by the directory's rising order, the counts by the report's, and the index by
its insertion, which the images written afterwards leave. -/
theorem loadsTakeTheLowestFreeSlot : Obligations.LoadsTakeTheLowestFreeSlot := by
  unfold Obligations.LoadsTakeTheLowestFreeSlot
  intro s p kind hs hok hroute hkind hrange habsent hfree segment r
  obtain ⟨looked, hlooked⟩ : ∃ x, x = s.grants .command (s.mem.lookupAccesses p.serial) := ⟨_, rfl⟩
  have quiet : Quiet s looked := hlooked ▸ (Quiet.refl s).grants _ _
  have hdir : looked.directory = s.directory := by simp [hlooked]
  have alike : Alike s looked := ⟨by simp [hlooked], by simp [hlooked], by simp [hlooked]⟩
  have hseg : looked.assignSegment p.sequence = segment :=
    (alike.assignSegment p.sequence).trans (State.assignSegment_of_loading hroute p.sequence)
  obtain ⟨slot, hslot⟩ : ∃ n, n = s.directory.lowestFree := ⟨_, rfl⟩
  obtain ⟨built, hbuilt⟩ : ∃ x, x = looked.takeLineFresh .command slot (.live r) := ⟨_, rfl⟩
  obtain ⟨u, hu, hq, loaded⟩ := State.load_loaded (s := looked) (p := p) (kind := kind) (r := r) (slot := slot)
    (by rw [hdir, hslot]) (by rw [hseg]) hbuilt.symm
  obtain ⟨free, occupied⟩ := hok.lowestFree_spec
  rw [← hslot] at free occupied
  have inArea : slot < 8192 := hslot ▸ Directory.lowestFree_lt hfree
  have hlook : looked.Ok := hlooked ▸ hok.grants .command _
  have wf : built.mem.wf = true := hbuilt ▸ (hlook.takeLineFresh .command slot (.live r)).mem
  have wf' : (built.withMem (built.mem.insertSerial p.serial slot)).mem.wf = true :=
    Memory.wf_insertSerial wf p.serial slot
  have told := alike.report none (some ⟨segment, .live .pending⟩)
  have usegs : u.segments = (s.report none (some ⟨segment, .live .pending⟩)).segments :=
    loaded.alike.segments.trans told.segments
  have usegment : ∀ n, u.segment n = (s.report none (some ⟨segment, .live .pending⟩)).segment n := fun n => by
    unfold State.segment; rw [usegs]
  have counts : ∀ n, segment = some n → ∀ c, (c = none ∨ c = some .outstanding) →
      (u.segment n).count c = (s.segment n).count c + 1 := fun n hn c hc => by
    rw [usegment, State.report_counts, hn]
    rcases hc with rfl | rfl <;> simp [weight, Place.counts, Status.cls]
  have nonzero : p.serial ≠ 0 := by
    intro h
    unfold LoadParams.inRange at hrange
    simp [h] at hrange
  refine ⟨slot, u, ?_, quiet.trans hq, inArea, free, occupied, ?_, fun k hk => ?_, ?_, loaded.cached, ?_, ?_, ?_,
    fun n hn => ⟨counts n hn none (.inl rfl), counts n hn (some .outstanding) (.inr rfl)⟩, fun n hn => ?_, usegs, ?_⟩
  · rw [execRecordLoad_taken hs hroute hkind hrange habsent hfree, ← hlooked, hu]
  · rw [loaded.directory]
    exact Directory.get_set_self _ _ _
  · rw [loaded.directory, hdir, Directory.get_set hok.directory.rising, if_neg hk]
  · unfold Directory.freeSlots
    rw [loaded.directory, hdir, Directory.length_set free]
    omega
  · simpa [hlooked] using loaded.blocks
  · simpa [hlooked] using loaded.tamper
  · simpa [hlooked] using loaded.matching
  · rw [usegment]
    exact State.report_others (by simp) (by simpa using hn) s
  · rw [← hlooked, ← hbuilt]
    refine ⟨?_, fun x hx => ?_, fun hnone hroom hqueue => ?_⟩
    · have hq := loaded.spilled.queue
      rw [List.append_nil] at hq
      exact List.append_cancel_left (hq.trans (List.take_append_drop _ _).symm)
    · rw [loaded.spilled.reads wf' x (Nat.lt_trans hx (by decide))]
      exact Memory.writeQueued_congr wf wf' (Memory.insertSerial_below wf p.serial slot hx) _
    · have lookup := loaded.spilled.lookup wf' fun q hq => hqueue q (List.mem_of_mem_take hq)
      obtain ⟨found, kept⟩ := Memory.lookup_insertSerial wf hnone nonzero inArea hroom
      exact ⟨(lookup p.serial).trans found, fun x k hx => (lookup x).trans (kept x k hx)⟩

end Sys2Proof.Machine
end

