-- ==== Sys2Proof/Proofs/Retirements.lean ====
section
/-! PROOF. What a retirement frees, and the return to EMPTY (O46). -/

namespace Sys2Proof.Machine

variable {a s t : State}

/-! ### A line dropped -/

/-- A slot whose line was dropped is in no line. -/
theorem State.Ok.lineOf_dropLine (h : s.Ok) (slot : Nat) : (s.dropLine slot).lineOf slot = none := by
  cases hl : (s.dropLine slot).lineOf slot with
  | none => rfl
  | some i =>
    obtain ⟨b, hb, hs⟩ := State.lineOf_some hl
    exact absurd hs (State.dropLine_apart h slot i b hb)

theorem State.dropLine_lines (h : t.store.lines = s.store.lines) (slot : Nat) :
    (t.dropLine slot).store.lines = (s.dropLine slot).store.lines := by
  unfold State.dropLine State.setLine
  rw [State.lineOf_congr h]
  split
  next i _ =>
    show t.store.lines.set i.val _ = s.store.lines.set i.val _
    rw [h]
  · exact h

/-- The image at the queue's tail is the slot's newest copy there. -/
theorem State.queued_of_tail {qs : List Queued} {q : Queued} (h : s.store.queue = qs ++ [q]) :
    s.queued q.slot = some q.contents := by
  unfold State.queued
  rw [h, queued_append, if_pos rfl]
  rfl

/-- An image queued stands at the tail. -/
theorem State.enqueue_tail (q : Queued) (s : State) : ∃ qs, (s.enqueue q).store.queue = qs ++ [q] := by
  unfold State.enqueue
  split
  · exact ⟨_, rfl⟩
  · exact ⟨_, rfl⟩

/-! ### Retirement (R21) -/

/-- What a retirement leaves: the record out of the directory, its segment's counters, its line, the blocks, the
tamper queue and the recent-match buffer, its serial out of the index, and the free-slot image at the queue's tail. -/
structure Retired (s t : State) (u : Holder) (slot : Nat) (serial : Word) (d : DirEntry) : Prop where
  directory : t.directory = s.directory.free slot
  line : t.lineOf slot = none
  queued : t.queued slot = some .free
  blocks : ∀ k, k ∈ t.store.usedBlocks ↔ k ∈ s.store.usedBlocks ∧ ∀ b ∈ d.chain, b.1 ≠ k
  tamper : t.tamper = { s.tamper with entries := s.tamper.entries.filter fun e => e.slot != slot }
  matching : t.matching = { s.matching with buffer := s.matching.buffer.filter fun e => e.slot != slot }
  alike : Alike (s.report (some ⟨d.segment, d.status⟩) none) t
  spilled : ∃ w, Spilled Config.routeBase ((s.takeLineFresh u slot .free).withMem
    ((s.takeLineFresh u slot .free).mem.deleteSerial serial)) t w [⟨slot, .free⟩]
  queue : u ≠ .scan → t.store.queue = (s.takeLineFresh u slot .free).store.queue.drop
    ((s.takeLineFresh u slot .free).mem.deleteAccesses serial) ++ [⟨slot, .free⟩]

theorem State.retire_retired {slot : Nat} {d : DirEntry} (hok : s.Ok) (hd : s.directory.get slot = some d) (u : Holder)
    (serial : Word) : Retired s (s.retire u slot serial) u slot serial d := by
  obtain ⟨held, hheld⟩ : ∃ x, x = s.takeLineFresh u slot .free := ⟨_, rfl⟩
  obtain ⟨x, hx⟩ : ∃ x, x = (held.withMem (held.mem.deleteSerial serial)).grants u (held.mem.deleteAccesses serial) :=
    ⟨_, rfl⟩
  obtain ⟨y, hy⟩ : ∃ y, y = (((x.forget slot).freeChain d.chain).removedReport slot).withDirectory
    (s.directory.free slot) := ⟨_, rfl⟩
  obtain ⟨z, hz⟩ : ∃ z, z = y.report (some ⟨d.segment, d.status⟩) none := ⟨_, rfl⟩
  have frame : held.directory = s.directory ∧ held.tamper = s.tamper ∧ held.matching = s.matching ∧
      held.store.usedBlocks = s.store.usedBlocks ∧ Alike s held := by
    rw [hheld]; exact ⟨by simp, by simp, by simp, by simp, by simp, by simp, by simp⟩
  obtain ⟨hdir, htamper, hmatching, hblocks, halike⟩ := frame
  have alike : Alike s y := ⟨by rw [hy, hx]; simpa using halike.segments, by rw [hy, hx]; simpa using halike.route,
    by rw [hy, hx]; simpa using halike.events⟩
  have reported := alike.report (some ⟨d.segment, d.status⟩) none
  have heldOk : held.Ok := hheld ▸ hok.takeLineFresh u slot .free
  have retired : s.retire u slot serial = (z.dropLine slot).enqueue ⟨slot, .free⟩ := by
    have place : held.place slot = some ⟨d.segment, d.status⟩ := by unfold State.place; rw [hdir, hd]; rfl
    have chain : held.chain slot = d.chain := State.chain_of_get (hdir ▸ hd)
    have before : (((x.forget slot).freeChain d.chain).removedReport slot).directory = s.directory := by
      simp [hx, hdir]
    unfold State.retire
    dsimp only
    rw [← hheld, ← hx, place, chain, before, ← hy, ← hz]
  have lines : z.store.lines = held.store.lines := by simp [hz, hy, hx]
  have queue : (z.dropLine slot).store.queue = x.store.queue := by simp [hz, hy]
  have told := Told.report y (some ⟨d.segment, d.status⟩) none
  have kept : x.mem.Kept Config.routeBase (z.dropLine slot).mem := by
    have ymem : y.mem = x.mem := by rw [hy]; simp
    have kept := told.mem
    rw [ymem, ← hz] at kept
    simpa using kept
  rw [retired]
  refine ⟨?_, ?_, ?_, fun k => ?_, ?_, ?_, ?_, ?_, fun hu => ?_⟩
  · simp [hz, hy]
  · rw [← heldOk.lineOf_dropLine slot]
    refine State.lineOf_congr ?_ slot
    rw [← State.dropLine_lines lines]
    simp
  · obtain ⟨qs, hqs⟩ := State.enqueue_tail ⟨slot, .free⟩ (z.dropLine slot)
    exact State.queued_of_tail hqs
  · have used : ((z.dropLine slot).enqueue ⟨slot, .free⟩).store.usedBlocks =
        (held.freeChain d.chain).store.usedBlocks := by simp [hz, hy, hx, State.freeChain]
    rw [used, State.mem_freeChain, hblocks]
  · simp [hz, hy, hx, State.removedReport, htamper]
  · simp [hz, hy, hx, State.forget, hmatching]
  · exact ⟨by simpa [hz] using reported.segments, by simpa [hz] using reported.route,
      by simpa [hz] using reported.events⟩
  · obtain ⟨w, granted⟩ := Spilled.grants_any Config.routeBase u (held.mem.deleteAccesses serial)
      (held.withMem (held.mem.deleteSerial serial))
    rw [← hx] at granted
    obtain ⟨w', freed⟩ := Spilled.enqueue Config.routeBase ⟨slot, .free⟩ (z.dropLine slot)
    exact ⟨_, hheld ▸ (granted.trans (Spilled.of_kept queue kept)).trans freed⟩
  · obtain ⟨unit, hunit⟩ : ∃ unit, u.requester = some unit := by
      cases u with
      | scan => exact absurd rfl hu
      | matching => exact ⟨_, rfl⟩
      | command => exact ⟨_, rfl⟩
      | upload => exact ⟨_, rfl⟩
    have accesses := Memory.deleteAccesses_pos held.mem serial
    have drained : x.store.queue = held.store.queue.drop (held.mem.deleteAccesses serial) := by
      rw [hx, State.grants_eq hunit (by omega)]; rfl
    have full : held.store.queue.length ≤ 4 := heldOk.store.queue
    have room : (z.dropLine slot).store.queue.length < 4 := by
      rw [queue, drained, List.length_drop]; omega
    rw [State.enqueue_room room, ← hheld]
    show (z.dropLine slot).store.queue ++ [_] = _
    rw [queue, drained]

/-- Below the index area a retirement changes memory by the images that the queue gives up alone (R34). -/
theorem Retired.written {u : Holder} {slot : Nat} {serial : Word} {d : DirEntry} (h : Retired s t u slot serial d)
    (hok : s.Ok) : ∃ written images, images.length ≤ 1 ∧
      (∀ q ∈ images, ∃ i, (s.line i).body = some ⟨q.slot, true, q.contents⟩) ∧
      Spilled Config.indexBase s t written (images ++ [⟨slot, .free⟩]) := by
  obtain ⟨w, images, taken, hlen, himages⟩ := Spilled.takeLineFresh Config.indexBase u slot .free s
  obtain ⟨w', after⟩ := h.spilled
  have wf := taken.wf hok.mem
  have deleted : Spilled Config.indexBase (s.takeLineFresh u slot .free) ((s.takeLineFresh u slot .free).withMem
      ((s.takeLineFresh u slot .free).mem.deleteSerial serial)) [] [] :=
    .of_kept rfl ⟨fun _ => Memory.wf_deleteSerial wf serial,
      fun _ x hx => Memory.deleteSerial_sameBut wf serial x (.inl hx)⟩
  refine ⟨w ++ [] ++ w', images, hlen, himages, ?_⟩
  simpa using (taken.trans deleted).trans (after.mono (by decide))

/-- A retirement leaves every lookup as the deletion of the serial leaves it (R27). -/
theorem Retired.lookup {u : Holder} {slot : Nat} {serial : Word} {d : DirEntry} (h : Retired s t u slot serial d)
    (hok : s.Fine) (hs : slot < 8192) (x : Word) :
    t.mem.lookup x = ((s.takeLineFresh u slot .free).mem.deleteSerial serial).lookup x := by
  have held := hok.takeLineFresh u hs Contents.sound_free
  obtain ⟨w, spilled⟩ := h.spilled
  refine spilled.lookup (Memory.wf_deleteSerial held.ok.mem serial) (fun q hq => ?_) x
  rcases spilled.mem_written hq with hq | hq
  · exact (held.sound.queue q hq).1
  · rw [List.mem_singleton.1 hq]; exact hs

/-! ### The return to EMPTY (R140, R141) -/

@[simp] theorem State.emptyRoute_frame (s : State) :
    s.emptyRoute.store = { s.store with usedBlocks := [] } ∧ s.emptyRoute.directory = [] ∧
    s.emptyRoute.tamper = { s.tamper with entries := [], evictions := 0, turnedAway := 0 } ∧
    s.emptyRoute.matching = { s.matching with buffer := [] } ∧
    s.emptyRoute.route = { s.route with state := .empty, header := none, clock := 0, checkpointsDue := [] } ∧
    s.emptyRoute.assessment = none ∧ s.emptyRoute.segments = Segments.reset ∧ s.emptyRoute.depot = s.depot := by
  simp [State.emptyRoute, State.enterRouteState, State.writeStateBlock, State.setClock, State.writeCheckpoint,
    State.writeSegmentArea]

theorem Memory.Kept.writeItems {b : Nat} {m m' : Memory} (h : m.Kept b m') (hb : b ≤ Config.routeBase)
    (address : Seg → Nat) (item : Seg → List Byte) (l : List Seg) :
    m.Kept b (l.foldl (fun m n => m.writeItem (address n) (item n)) m') := by
  induction l generalizing m' with
  | nil => exact h
  | cons n l ih => exact ih (h.writeItem hb _ _)

/-- Of the index's writes a return to EMPTY makes the clear alone. -/
theorem State.emptyRoute_kept (s : State) : s.mem.clearIndex.Kept Config.routeBase s.emptyRoute.mem := by
  have le := Nat.le_refl Config.routeBase
  have segments := (((Memory.Kept.refl Config.routeBase s.mem.clearIndex).writeItems le (fun n => 5 + n.val)
    (fun n => segmentItem (Segments.reset.entries.get n)) (List.finRange 64)).writeItem le 3
      (planItem Segments.reset.plan)).writeItem le 1 (headerItem none)
  have written := ((segments.writeItem le 1 (headerItem none)).writeItem le 4 (wordBytes 0)).writeItem le 2
    (stateItem .empty Segments.reset.active)
  simpa [State.emptyRoute, State.enterRouteState, State.writeStateBlock, State.setClock, State.writeCheckpoint,
    State.writeSegmentArea, State.segment, Memory.writeItemTwice] using written

/-- An EMPTY route's index has no serial. -/
theorem State.Ok.lookup_emptyRoute (h : s.Ok) (x : Word) : s.emptyRoute.mem.lookup x = none := by
  have wf := Memory.wf_clearIndex h.mem
  have same := Memory.lookup_congr (m := s.mem.clearIndex) (m' := s.emptyRoute.mem)
    (fun y _ hy => s.emptyRoute_kept.reads wf y hy) x
  rw [same]
  unfold Memory.lookup
  have empty := Memory.entrySerial_clearIndex h.mem (homeBucket_lt x)
  have search : s.mem.clearIndex.findEntry x Config.indexEntries (homeBucket x) = none := by
    show s.mem.clearIndex.findEntry x (16383 + 1) (homeBucket x) = none
    unfold Memory.findEntry
    rw [if_pos empty]
  rw [search]
  rfl

/-- A CLOSED route returns to EMPTY with its last record's retirement. -/
theorem State.Ok.returnIfBare_retire (hok : s.Ok) {slot : Nat} {d : DirEntry} (hd : s.directory.get slot = some d)
    (ht : t.directory = s.directory.free slot) (hr : t.route = s.route) : t.returnIfBare =
      if s.route.state = .closed ∧ s.directory.length = 1 then t.emptyRoute else t := by
  have length := Directory.length_free hok.directory.rising hd
  have bound := hok.directory_length
  have bare : t.directory.freeSlots = Config.slots ↔ s.directory.length = 1 := by
    unfold Directory.freeSlots Config.slots
    rw [ht]
    omega
  unfold State.returnIfBare
  simp only [hr, bare]

/-- RECORD_RETIRE of a record that is in no batch retires it (R22). -/
theorem execRecordRetire_taken {serial : Word} {slot : Nat} {d : DirEntry} (hs : s.serving) (hok : s.Ok)
    (hl : s.mem.lookup serial = some slot) (hd : s.directory.get slot = some d) (hb : s.inBatch slot = false)
    (ht : (s.grants .command (s.mem.lookupAccesses serial)).retire .command slot serial = t) :
    exec (.recordRetire serial) s = .next (if s.route.state = .closed ∧ s.directory.length = 1 then
      t.emptyRoute.reply .ok (natHalf slot ++ [0x01]) else t.reply .ok (natHalf slot ++ [0x00])) := by
  obtain ⟨looked, hlooked⟩ : ∃ x, x = s.grants .command (s.mem.lookupAccesses serial) := ⟨_, rfl⟩
  have hdir : looked.directory = s.directory := by simp [hlooked]
  have hroute : looked.route = s.route := by simp [hlooked]
  have retired := State.retire_retired (s := looked) (hlooked ▸ hok.grants .command _) (hdir ▸ hd) .command serial
  rw [hlooked, ht, ← hlooked] at retired
  have troute : t.route = s.route := retired.alike.route.trans (by simp [hroute])
  have bare : t.returnIfBare = if s.route.state = .closed ∧ s.directory.length = 1 then t.emptyRoute else t :=
    hok.returnIfBare_retire hd (by rw [retired.directory, hdir]) troute
  have batch : looked.inBatch slot = false := by unfold State.inBatch at hb ⊢; rwa [hdir]
  show execRecordRetire serial s = _
  unfold execRecordRetire
  rw [State.serve_of_serving hs]
  unfold State.lookupFor
  rw [hl]
  dsimp only
  rw [← hlooked, if_neg (by simp [hdir, hd]), if_neg (by simp [batch]), hlooked, ht, ← hlooked, hroute, bare]
  split
  next last => rw [last.1]; rfl
  next other =>
    rw [troute]
    cases s.route.state <;> rfl

/-- Settles O46: what a retirement frees, RECORD_RETIRE with and without the return to EMPTY, and the index's own
operations with their accesses. -/
theorem retirementsFreeTheSlot : Obligations.RetirementsFreeTheSlot := by
  unfold Obligations.RetirementsFreeTheSlot
  refine ⟨fun s u serial slot d hok hd => ?_, fun s serial slot d hs hok hl hd hb => ?_,
    fun m serial hm h hz => ?_, fun m serial slot hm h hl => h.insertSerial hm serial slot hl,
    fun m hm => Memory.indexSound_clearIndex hm, fun m serial k hm hk => ?_⟩
  · intro t told
    have retired : Retired s t u slot serial d := State.retire_retired hok hd u serial
    have counts : ∀ n c, (t.segment n).count c = (s.segment n).count c - weight (some ⟨d.segment, d.status⟩) n c :=
      fun n c => by
        have segment : t.segment n = told.segment n := by unfold State.segment; rw [retired.alike.segments]
        rw [segment, State.report_counts]
        rfl
    refine ⟨retired.directory, ?_, retired.line, retired.queued, retired.blocks, retired.tamper, retired.matching,
      retired.alike.segments, retired.alike.events, (Quiet.refl s).retire u slot serial, fun n => ?_, ?_,
      retired.queue, fun sound => ?_⟩
    · have length := Directory.length_free hok.directory.rising hd
      have bound := hok.directory_length
      unfold Directory.freeSlots Config.slots
      rw [retired.directory]
      omega
    · have here : ∀ c, weight (some ⟨d.segment, d.status⟩) n (some c) =
          if d.segment = some n ∧ d.status.cls = c then 1 else 0 := fun c => by simp [weight, Place.counts]
      have all : weight (some ⟨d.segment, d.status⟩) n none = if d.segment = some n ∧ true then 1 else 0 := by
        simp [weight, Place.counts]
      refine ⟨?_, ?_, ?_, ?_⟩
      · simpa [all, Segment.count] using counts n none
      · simpa [here, Segment.count] using counts n (some .outstanding)
      · simpa [here, Segment.count] using counts n (some .done)
      · simpa [here, Segment.count] using counts n (some .faulted)
    · obtain ⟨written, images, hlen, himages, spilled⟩ := retired.written hok
      exact ⟨written, images, hlen, himages, by rw [spilled.queue, List.append_assoc], spilled.reads hok.mem⟩
    · exact retired.lookup ⟨hok, sound⟩ (hok.directory.inArea_of_get hd)
  · intro t last
    have taken := execRecordRetire_taken (t := t) hs hok hl hd hb rfl
    have hlook : (s.grants .command (s.mem.lookupAccesses serial)).Ok := hok.grants .command _
    have retired : Retired _ t .command slot serial d :=
      State.retire_retired hlook (by simpa using hd) .command serial
    obtain ⟨store, directory, tamper, matching, route, assessment, segments, -⟩ := State.emptyRoute_frame t
    have lookup := (hlook.retire .command slot serial).lookup_emptyRoute
    refine ⟨fun other => by rw [taken, if_neg other], fun h => ⟨t.emptyRoute, by rw [taken, if_pos h], rfl, directory,
      ?_, ?_, ?_, ?_, ?_, ?_, assessment, segments, lookup⟩⟩
    · rw [store]
    · rw [← retired.line]; exact State.lineOf_congr (by rw [store]) slot
    · rw [← retired.queued]; unfold State.queued; rw [store]
    · rw [tamper, retired.tamper]; simp
    · rw [matching, retired.matching]; simp
    · rw [route, retired.alike.route]; simp
  · obtain ⟨sound, gone, kept⟩ := h.deleteSerial hm serial hz
    exact ⟨gone, kept, sound, Memory.deleteSerial_sameBut hm serial⟩
  · intro seen
    have hb := homeBucket_lt serial
    refine ⟨fun stop pass => Memory.searchReads_eq hb hk stop pass, fun stop pass => ?_, fun home hk0 stop pass =>
      Memory.deleteAccesses_bounds hm hk hk0 home stop pass⟩
    exact congrArg (· + 1) (Memory.searchReads_eq hb hk (.inl stop) fun j hj => ⟨pass j hj, pass j hj⟩)

end Sys2Proof.Machine
end

