-- ==== Sys2Proof/Proofs/Disposal.lean ====
section
/-! PROOF. What verdicts and timeouts do to the records of a batch (O58). -/

namespace Sys2Proof.Machine

variable {s t : State}

/-! ### One offered record (R155, R156) -/

theorem State.stillHolds_iff {slot : Nat} {serial : Word} : s.stillHolds slot serial = true ↔
    s.directory.get slot ≠ none ∧ s.mem.lookup serial = some slot := by
  unfold State.stillHolds
  rw [Bool.and_eq_true, beq_iff_eq, Option.isSome_iff_ne_none]

theorem State.stillHolds_of_gone {slot : Nat} {serial : Word}
    (h : s.directory.get slot = none ∨ s.mem.lookup serial ≠ some slot) : s.stillHolds slot serial = false := by
  rw [← Bool.not_eq_true, State.stillHolds_iff]
  exact fun ⟨h1, h2⟩ => h.elim h1 fun h => h h2

theorem State.stillHolds_of_found {slot : Nat} {serial : Word} {d : DirEntry} (hd : s.directory.get slot = some d)
    (hl : s.mem.lookup serial = some slot) : s.stillHolds slot serial = true :=
  State.stillHolds_iff.2 ⟨by rw [hd]; exact Option.some_ne_none d, hl⟩

/-- A record offered that its line has is changed there, and in the directory. -/
theorem State.changeOffered_live {slot : Nat} {d : DirEntry} {r : Record} (f : Record → Record)
    (hd : s.directory.get slot = some d) (hc : (s.takeLine .upload slot).1.cached slot = .live r) :
    (s.changeOffered slot f).2 = true ∧ (s.changeOffered slot f).1.cached slot = .live (f r) ∧
    (s.changeOffered slot f).1.directory.get slot =
      some ⟨.live (f r).status, (f r).segment, d.chain, (f r).batch.isSome⟩ := by
  obtain ⟨-, hdir⟩ := State.takeLine_live hc
  obtain ⟨i, hi⟩ := State.lineOf_of_cached (s := (s.takeLine .upload slot).1) (slot := slot) (by rw [hc]; simp)
  have changed : s.changeOffered slot f =
      (((s.takeLine .upload slot).1.putRecord slot (f r)).letGo slot, true) := by
    unfold State.changeOffered
    dsimp only
    rw [hc]
  have filed := State.putRecord_filed (d := d) (hdir ▸ hd) (f r)
  rw [changed]
  refine ⟨rfl, ?_, by simpa using filed.get⟩
  rw [State.letGo_cached, (State.putRecord_line (f r) hi).2]

/-- A record offered whose fill fails its check is FAULT, and is not changed. -/
theorem State.changeOffered_bad {slot : Nat} {d : DirEntry} (f : Record → Record)
    (hd : s.directory.get slot = some d) (hb : (s.takeLine .upload slot).2 = true) :
    (s.changeOffered slot f).2 = false ∧
    (s.changeOffered slot f).1.directory.get slot = some ⟨.fault, d.segment, [], false⟩ ∧
    ∃ x, (s.changeOffered slot f).1.cached slot = .fault x d.segment := by
  obtain ⟨hget, x, hcached⟩ := State.takeLine_bad hb hd
  have changed : s.changeOffered slot f = ((s.takeLine .upload slot).1.letGo slot, false) := by
    unfold State.changeOffered
    dsimp only
    rw [hcached]
  rw [changed]
  exact ⟨rfl, by simpa using hget, x, by simpa using hcached⟩

theorem State.returnOne_gone {slot : Nat} {serial : Word}
    (h : s.directory.get slot = none ∨ s.mem.lookup serial ≠ some slot) : s.returnOne (slot, serial) = s := by
  unfold State.returnOne
  rw [State.stillHolds_of_gone h]
  rfl

theorem State.returnOne_found {slot : Nat} {serial : Word} {d : DirEntry} (hd : s.directory.get slot = some d)
    (hl : s.mem.lookup serial = some slot) :
    s.returnOne (slot, serial) = (s.changeOffered slot Record.returned).1 := by
  unfold State.returnOne
  rw [if_pos (State.stillHolds_of_found hd hl)]

/-! ### One position of a verdict (R155) -/

theorem State.judgeOne_gone (accepted : Half) (i : Nat) {slot : Nat} {serial : Word}
    (h : s.directory.get slot = none ∨ s.mem.lookup serial ≠ some slot) :
    State.judgeOne accepted s (i, slot, serial) = s := by
  unfold State.judgeOne
  rw [State.stillHolds_of_gone h]
  rfl

section Found
variable {slot i : Nat} {serial : Word} {accepted : Half} {d : DirEntry} (hd : s.directory.get slot = some d)
  (hl : s.mem.lookup serial = some slot)
include hd hl

theorem State.judgeOne_accepted (hok : s.Ok) (ha : accepted.getLsbD i = true) (hu : t = { s.retire .upload slot serial with
      depot := { s.depot with accepted := satInc s.depot.accepted } }) : State.judgeOne accepted s (i, slot, serial) =
    if s.route.state = .closed ∧ s.directory.length = 1 then t.emptyRoute else t := by
  have retired := State.retire_retired hok hd .upload serial
  have depot : (s.retire .upload slot serial).depot = s.depot := ((Quiet.refl s).retire .upload slot serial).depot
  have judged : State.judgeOne accepted s (i, slot, serial) = t.returnIfBare := by
    unfold State.judgeOne
    dsimp only
    rw [State.stillHolds_of_found hd hl, if_neg (by simp), if_pos ha, depot, hu]
    rfl
  rw [judged]
  exact hok.returnIfBare_retire hd (by rw [hu]; exact retired.directory) 
    (by rw [hu]; exact ((Quiet.refl s).retire .upload slot serial).route)

theorem State.judgeOne_refused (ha : accepted.getLsbD i = false) {x : State × Bool}
    (hx : s.changeOffered slot Record.refusedByDepot = x) : State.judgeOne accepted s (i, slot, serial) =
    if x.2 = true then x.1.withDepot { s.depot with refused := satInc s.depot.refused } else x.1 := by
  have depot : x.1.depot = s.depot := hx ▸ ((Quiet.refl s).changeOffered slot Record.refusedByDepot).depot
  unfold State.judgeOne
  dsimp only
  rw [State.stillHolds_of_found hd hl, if_neg (by simp), if_neg (by simp [ha]), hx, depot]

end Found

/-- What an accepted record leaves, with the return to EMPTY after the last one (R21, R141, R155). -/
theorem Retired.of_last {u : Holder} {slot : Nat} {serial : Word} {d : DirEntry} {x : Depot} (hok : s.Ok)
    (hd : s.directory.get slot = some d) (h : Retired s (s.retire u slot serial) u slot serial d)
    (ht : t = if s.route.state = .closed ∧ s.directory.length = 1 then
      State.emptyRoute { s.retire u slot serial with depot := x } else { s.retire u slot serial with depot := x }) :
    t.directory = s.directory.free slot ∧ t.lineOf slot = none ∧ t.queued slot = some .free ∧
    (∀ e ∈ t.tamper.entries, e.slot ≠ slot) ∧ t.depot = x := by
  have entries : ∀ e ∈ (s.retire u slot serial).tamper.entries, e.slot ≠ slot := by
    rw [h.tamper]
    intro e he
    simpa using (List.mem_filter.1 he).2
  split at ht
  next last =>
    obtain ⟨store, directory, tamper, -, -, -, -, depot⟩ :=
      State.emptyRoute_frame { s.retire u slot serial with depot := x }
    have empty : s.directory.free slot = [] := by
      have length := Directory.length_free hok.directory.rising hd
      exact List.eq_nil_of_length_eq_zero (by omega)
    rw [ht]
    refine ⟨by rw [directory, empty], ?_, ?_, by rw [tamper]; simp, depot⟩
    · rw [← h.line]; exact State.lineOf_congr (by rw [store]) slot
    · rw [← h.queued]; unfold State.queued; rw [store]
  · rw [ht]
    exact ⟨h.directory, h.line, h.queued, entries, rfl⟩

/-! ### A verdict's last byte (R149, R154) -/

/-- Judging a row of positions leaves the batch's number and the engine's state. -/
theorem State.judgeAll_fixed (accepted : Half) (l : List (Nat × (Nat × Word))) (s : State) :
    (l.foldl (State.judgeOne accepted) s).depot.batchNumber = s.depot.batchNumber ∧
    (l.foldl (State.judgeOne accepted) s).depot.engine = s.depot.engine := by
  have depot := State.judgeAll_depot accepted l s
  have number := congrArg Depot.batchNumber depot
  have engine := congrArg Depot.engine depot
  exact ⟨number, engine⟩

theorem EngineState.afterBatch_eq (e : EngineState) : e.afterBatch = if e = .stopping then .idle else e := by
  cases e <;> rfl

/-- The eight bytes of a VERDICT with its own frame check are a good one. -/
theorem verdictGood_of_check {n : Byte} {accepted : Half} {c : Half} {bs : List Byte}
    (hc : c = crc16 ([0x08, 0x02, n] ++ halfBytes accepted))
    (hb : bs = [0xA6, 0x08, 0x02, n] ++ halfBytes accepted ++ halfBytes c) :
    verdictGood bs = true ∧ byteAt bs 3 = n ∧ halfAt bs 4 = accepted := by
  have body : (bs.drop 1).take 5 = [0x08, 0x02, n] ++ halfBytes accepted := by rw [hb]; rfl
  have check : halfAt bs 6 = c := by rw [hb]; exact halfBytes_join c
  refine ⟨?_, by rw [hb]; rfl, by rw [hb]; exact halfBytes_join accepted⟩
  unfold verdictGood
  rw [body, ← hc, check, hb]
  simp [byteAt]

/-- A good VERDICT's last byte, for the outstanding batch, takes the verdict. -/
theorem execDepotByte_verdict {b : Byte} {bs : List Byte} {accepted : Half} (hp : s.power = .on)
    (ho : s.depot.outstanding ≠ []) (hr : s.depot.link.receives = true) (hb : bs = s.depot.rx ++ [b])
    (h8 : bs.length = 8) (hg : verdictGood bs = true ∧ byteAt bs 3 = s.depot.batchNumber ∧ halfAt bs 4 = accepted) :
    exec (.depotByte b) s = .next ((s.withDepot { s.depot with rx := [] }).takeVerdict accepted) := by
  obtain ⟨good, number, mask⟩ := hg
  have length : s.depot.rx.length = 7 := by rw [hb, List.length_append] at h8; simpa using h8
  show execDepotByte b s = _
  unfold execDepotByte
  dsimp only
  rw [← hb, if_neg (by simp [hp, hr]), if_neg (by intro h; rw [h] at length; cases length), if_neg (by omega),
    if_neg (by omega), if_pos good, number, mask]
  unfold State.verdict State.gatherDepot
  rw [if_pos (by simp [ho])]

/-! ### A verdict timeout (R156) -/

theorem execVerdictTimeout_eq (hp : s.power = .on) (ht : s.depot.timer ≠ none) (ho : s.depot.outstanding ≠ [])
    {u : State} {d : Depot} (hu : u = s.depot.outstanding.foldl State.returnOne s) (hd : d = { s.depot with
      outstanding := [], forming := none, cursor := none, timer := none, batchNumber := s.depot.batchNumber + 1
      timeouts := satInc s.depot.timeouts, failures := s.depot.failures + 1 }) :
    exec .verdictTimeout s = .next (if 3 ≤ s.depot.failures + 1 then
        (u.withDepot { d with link := .faulted, engine := .idle }).raise .depotFault
      else u.withDepot { d with link := .attached, engine := s.depot.engine.afterBatch }) := by
  have depot := s.returnBatch_depot
  have returned : ∀ x, s.returnBatch.withDepot x = u.withDepot x := fun x => by rw [hu]; rfl
  show execVerdictTimeout s = _
  unfold execVerdictTimeout
  dsimp only
  rw [if_neg (by simp [hp, ht, ho]), depot, returned, returned, hd]

/-- Settles O58: one position judged, the verdict's last byte, one record returned, and the timeout. -/
theorem batchesAreDisposedOf : Obligations.BatchesAreDisposedOf := by
  unfold Obligations.BatchesAreDisposedOf
  refine ⟨fun s accepted i slot serial d hok => ?_, fun s accepted hp ho hlink => ?_, fun s slot serial d => ?_,
    fun s hp ht ho => ?_⟩
  · intro t
    refine ⟨State.judgeOne_gone accepted i, fun hd hl ha => ?_, fun r hd hl ha hc => ?_, fun hd hl ha hb => ?_⟩
    · have judged := State.judgeOne_accepted hd hl hok ha rfl
      exact ⟨judged, (State.retire_retired hok hd .upload serial).of_last hok hd judged⟩
    · obtain ⟨changed, hcached, hget⟩ := State.changeOffered_live Record.refusedByDepot hd hc
      have quiet := (Quiet.refl s).changeOffered slot Record.refusedByDepot
      have judged := State.judgeOne_refused hd hl ha rfl
      rw [if_pos changed] at judged
      refine ⟨?_, ?_, by rw [show t = _ from judged]; rfl, ?_⟩
      · rw [show t = _ from judged]
        exact (State.cached_congr rfl slot).trans hcached
      · rw [show t = _ from judged]; exact hget
      · rw [show t = _ from judged, ← quiet.depot]
        exact quiet
    · obtain ⟨changed, hget, hcached⟩ := State.changeOffered_bad Record.refusedByDepot hd hb
      have judged := State.judgeOne_refused hd hl ha rfl
      rw [if_neg (by simp [changed])] at judged
      rw [show t = _ from judged]
      exact ⟨((Quiet.refl s).changeOffered slot Record.refusedByDepot).depot, hget, hcached⟩
  · intro body check hrx judged
    have receives : s.depot.link.receives = true := by rcases hlink with h | h | h <;> rw [h] <;> rfl
    have bytes : s.depot.rx ++ [byteAt check 1] = [0xA6, 0x08, 0x02, s.depot.batchNumber] ++ halfBytes accepted ++
        halfBytes (crc16 body) := by rw [hrx]; rfl
    have taken := execDepotByte_verdict hp ho receives rfl (by rw [bytes]; rfl) (verdictGood_of_check rfl bytes)
    obtain ⟨number, engine⟩ : judged.depot.batchNumber = s.depot.batchNumber ∧ judged.depot.engine = s.depot.engine :=
      State.judgeAll_fixed accepted (positions 0 s.depot.outstanding)
        { s with depot := { s.depot with timer := none, rx := [] } }
    have disposed : (s.withDepot { s.depot with rx := [] }).takeVerdict accepted = judged.withDepot { judged.depot with
        outstanding := [], forming := none, failures := 0, batchNumber := judged.depot.batchNumber + 1
        link := .attached, engine := judged.depot.engine.afterBatch } := rfl
    rw [taken, disposed, number, engine, EngineState.afterBatch_eq]
    rfl
  · intro t
    refine ⟨State.returnOne_gone, fun r hd hl hc => ?_⟩
    obtain ⟨-, hcached, hget⟩ := State.changeOffered_live Record.returned hd hc
    rw [show t = _ from State.returnOne_found hd hl]
    exact ⟨hcached, hget, (Quiet.refl s).changeOffered slot Record.returned⟩
  · intro u
    refine ⟨(Quiet.refl s).returnAll s.depot.outstanding, ?_⟩
    intro d
    have timeout := execVerdictTimeout_eq hp ht ho (u := u) (d := d) rfl rfl
    refine ⟨fun h => ?_, fun h => ?_⟩
    · rw [timeout, if_neg (by omega), EngineState.afterBatch_eq]
      rfl
    · rw [timeout, if_pos (by omega)]
      rfl

end Sys2Proof.Machine
end

