-- ==== Sys2Proof/Proofs/Replacement.lean ====
section
/-! PROOF. The replacement of a record's INTERVAL blocks (R12, R38): the RECORD_NOTE that may meet it, the blocks that
it allocates, and what it writes to the extension area. -/

namespace Sys2Proof.Machine

variable {s t : State}

/-! ### A RECORD_NOTE that may meet the replacement (R38) -/

theorem State.noteWaits_iff {slot : Nat} : s.noteWaits slot = true ↔ ∃ serial text rest,
    s.pending = .recordNote serial text :: rest ∧ text.length ≤ 24 ∧ s.command.unit = .idle ∧
    s.route.scanning = none ∧ s.mem.lookup serial ≠ some slot := by
  unfold State.noteWaits State.isScanning
  constructor
  · intro h
    simp only [Bool.and_eq_true, beq_iff_eq] at h
    obtain ⟨⟨hunit, hscan⟩, hfront⟩ := h
    split at hfront
    next serial text rest hp =>
      simp only [Bool.and_eq_true, decide_eq_true_eq, bne_iff_ne] at hfront
      exact ⟨serial, text, rest, hp, hfront.1, hunit, by simpa using hscan, hfront.2⟩
    · cases hfront
  · rintro ⟨serial, text, rest, hp, ht, hunit, hscan, hl⟩
    rw [hp, hunit, hscan]
    simp [ht, hl]

theorem State.noteMeets_of_meets {met : Bool} {slot : Nat} (hm : met = true) (hw : s.noteWaits slot = true) :
    s.noteMeets met slot = (Config.noteFirst s.draws, s.withDraws (s.draws + 1)) := by
  unfold State.noteMeets
  rw [hm, hw]
  rfl

section Allocation
variable {met : Bool} {slot : Nat} (f : Frame) (r : Record) (n : Nat)

/-- A RECORD_NOTE that allocates first has the frame held. -/
theorem State.replaceOn_held (h : s.noteMeets met slot = (true, t)) : State.replaceOn met f slot r (n + 1) s =
    t.withMatching { t.matching with inHand := some ⟨f, slot, true⟩ } := by
  rw [State.replaceOn, h]
  rfl

theorem State.replaceOn_block (h : s.noteMeets met slot = (false, t)) {b : Nat} (hb : t.lowestFreeBlock = some b) :
    State.replaceOn met f slot r (n + 1) s = State.replaceOn met f slot r n (t.chainBlock slot b) := by
  rw [State.replaceOn, h]
  dsimp only
  rw [if_neg (by simp), hb]

theorem State.replaceOn_empty (h : s.noteMeets met slot = (false, t)) (hb : t.lowestFreeBlock = none) :
    State.replaceOn met f slot r (n + 1) s = State.replaceOn met f slot r 0 t := by
  rw [State.replaceOn.eq_2, h]
  dsimp only
  rw [if_neg (by simp), hb]
  rfl

end Allocation

/-! ### The blocks allocated (R38) -/

theorem length_insertRising {n : Nat} {l : List Nat} (h : n ∉ l) : (insertRising n l).length = l.length + 1 := by
  induction l with
  | nil => rfl
  | cons k l ih =>
    rw [List.mem_cons, not_or] at h
    rw [insertRising]
    split_ifs with h1 h2
    · rfl
    · exact absurd h2 h.1
    · rw [List.length_cons, ih h.2, List.length_cons]

/-- The blocks of a row that joins a chain, with their kind. -/
def intervalLinks (blocks : List Nat) : List (Nat × BlockKind) := blocks.map fun n => (n, .interval)

/-- A row of blocks in use and at the end of a slot's chain. -/
structure Chained (s t : State) (slot : Nat) (d : DirEntry) (blocks : List Nat) : Prop where
  rest : t = { s with store := { s.store with usedBlocks := t.store.usedBlocks }, directory := t.directory }
  get : t.directory.get slot = some { d with chain := d.chain ++ intervalLinks blocks }
  others : ∀ k, k ≠ slot → t.directory.get k = s.directory.get k
  rising : Rising (t.directory.map (·.1)) ∧ Rising t.store.usedBlocks
  used : ∀ k, k ∈ t.store.usedBlocks ↔ k ∈ blocks ∨ k ∈ s.store.usedBlocks

theorem Chained.refl {slot : Nat} {d : DirEntry} (hd : s.directory.get slot = some d)
    (hr : Rising (s.directory.map (·.1)) ∧ Rising s.store.usedBlocks) : Chained s s slot d [] :=
  ⟨rfl, by simpa [intervalLinks] using hd, fun _ _ => rfl, hr, fun k => by simp⟩

theorem Chained.chainBlock {slot b : Nat} {d : DirEntry} {blocks : List Nat} (h : Chained s t slot d blocks) :
    Chained s (t.chainBlock slot b) slot d (blocks ++ [b]) := by
  have chained : t.chainBlock slot b = (t.useBlock b).withDirectory (t.directory.set slot
      { d with chain := d.chain ++ intervalLinks (blocks ++ [b]) }) := by
    have links : intervalLinks (blocks ++ [b]) = intervalLinks blocks ++ [(b, .interval)] := by
      simp [intervalLinks]
    have get : (t.useBlock b).directory.get slot = some { d with chain := d.chain ++ intervalLinks blocks } := h.get
    unfold State.chainBlock State.setChain
    rw [get, State.chain_of_get h.get, links, ← List.append_assoc]
    rfl
  rw [chained]
  refine ⟨?_, ?_, fun k hk => ?_, ⟨?_, ?_⟩, fun k => ?_⟩
  · show { t with store := _, directory := _ } = _
    rw [h.rest]
    rfl
  · exact Directory.get_set_self _ _ _
  · exact (Directory.get_set h.rising.1 slot k _).trans ((if_neg hk).trans (h.others k hk))
  · exact Directory.rising_set h.rising.1 _ _
  · exact rising_insertRising h.rising.2 b
  · show k ∈ insertRising b t.store.usedBlocks ↔ _
    rw [mem_insertRising, h.used]
    simp only [List.mem_append, List.mem_singleton]
    constructor
    · rintro (h | h | h)
      · exact .inl (.inr h)
      · exact .inl (.inl h)
      · exact .inr h
    · rintro ((h | h) | h)
      · exact .inr (.inl h)
      · exact .inl h
      · exact .inr (.inr h)

/-- The state with a row of blocks allocated one after another. -/
def State.chainAll (slot : Nat) (blocks : List Nat) (s : State) : State :=
  blocks.foldl (fun s b => State.chainBlock slot b s) s

theorem State.chainAll_concat (slot b : Nat) (blocks : List Nat) (s : State) :
    s.chainAll slot (blocks ++ [b]) = (s.chainAll slot blocks).chainBlock slot b := by
  unfold State.chainAll
  rw [List.foldl_append]
  rfl

theorem Chained.chainAll {slot : Nat} {d : DirEntry} (hd : s.directory.get slot = some d)
    (hr : Rising (s.directory.map (·.1)) ∧ Rising s.store.usedBlocks) (blocks : List Nat) :
    Chained s (s.chainAll slot blocks) slot d blocks := by
  induction blocks using List.reverseRecOn with
  | nil => exact .refl hd hr
  | append_singleton blocks b ih => rw [State.chainAll_concat]; exact ih.chainBlock

/-- A row of blocks that the pool gives one after another, each the lowest-numbered free one, as long as one is free
and `n` are wanted. -/
structure Allocated (s : State) (slot n : Nat) (blocks : List Nat) : Prop where
  lowest : ∀ k b, blocks[k]? = some b → (s.chainAll slot (blocks.take k)).lowestFreeBlock = some b
  full : blocks.length = n ∨ blocks.length < n ∧ (s.chainAll slot blocks).lowestFreeBlock = none

section Pool
variable {slot n : Nat} {d : DirEntry} {blocks : List Nat} (h : Allocated s slot n blocks)
  (hd : s.directory.get slot = some d) (hr : Rising (s.directory.map (·.1)) ∧ Rising s.store.usedBlocks)
include h hd hr

/-- Each block of the row is free before it joins, and every lower one is in use by then. -/
theorem Allocated.spec {k b : Nat} (hb : blocks[k]? = some b) : b < 4096 ∧ b ∉ blocks.take k ∧
    b ∉ s.store.usedBlocks ∧ ∀ j, j < b → j ∈ s.store.usedBlocks ∨ j ∈ blocks.take k := by
  have low := h.lowest k b hb
  have chained := Chained.chainAll hd hr (blocks.take k)
  have lt := State.lowestFreeBlock_lt _ low
  unfold State.lowestFreeBlock at low
  split at low
  · cases low
  · obtain ⟨-, absent, present⟩ := firstAbsent_spec _ chained.rising.2 0
    cases low
    rw [chained.used, not_or] at absent
    exact ⟨lt, absent.1, absent.2, fun j hj => ((chained.used j).1 (present j (Nat.zero_le j) hj)).symm⟩

/-- Each block that joins is one block more in use. -/
theorem Allocated.length_used {k : Nat} (hk : k ≤ blocks.length) :
    (s.chainAll slot (blocks.take k)).store.usedBlocks.length = s.store.usedBlocks.length + k := by
  induction k with
  | zero => rfl
  | succ k ih =>
    have hb : blocks[k]? = some blocks[k] := List.getElem?_eq_getElem hk
    obtain ⟨-, fresh, unused, -⟩ := h.spec hd hr hb
    have chained := Chained.chainAll hd hr (blocks.take k)
    have absent : blocks[k] ∉ (s.chainAll slot (blocks.take k)).store.usedBlocks := by
      rw [chained.used, not_or]
      exact ⟨fresh, unused⟩
    have next : (s.chainAll slot (blocks.take (k + 1))).store.usedBlocks =
        insertRising blocks[k] (s.chainAll slot (blocks.take k)).store.usedBlocks := by
      rw [List.take_add_one, hb, Option.toList_some, State.chainAll_concat]
      unfold State.chainBlock
      simp only [State.setChain_frame]
      rfl
    rw [next, length_insertRising absent, ih (by omega)]
    omega

/-- The row has as many blocks as are wanted, or as are free. -/
theorem Allocated.length_eq : blocks.length = min n s.freeBlocks := by
  have used := h.length_used hd hr (Nat.le_refl blocks.length)
  rw [List.take_length] at used
  have within : blocks.length ≤ s.freeBlocks := by
    unfold State.freeBlocks Config.blocks
    rcases Nat.eq_zero_or_pos blocks.length with hz | hpos
    · omega
    · have hb : blocks[blocks.length - 1]? = some blocks[blocks.length - 1] :=
        List.getElem?_eq_getElem (by omega)
      have low := h.lowest _ _ hb
      have before := h.length_used hd hr (k := blocks.length - 1) (by omega)
      unfold State.lowestFreeBlock State.freeBlocks Config.blocks at low
      split at low
      · cases low
      · omega
  rcases h.full with hn | ⟨hlt, hnone⟩
  · omega
  · have out : s.freeBlocks ≤ blocks.length := by
      unfold State.lowestFreeBlock State.freeBlocks Config.blocks at hnone
      unfold State.freeBlocks Config.blocks
      split at hnone
      · omega
      · cases hnone
    omega

theorem Allocated.nodup : blocks.Nodup := by
  rw [List.nodup_iff_getElem?_ne_getElem?]
  intro i j hij hj he
  rw [List.getElem?_eq_getElem hj] at he
  obtain ⟨-, fresh, -⟩ := h.spec hd hr (List.getElem?_eq_getElem hj)
  refine fresh ?_
  rw [List.mem_take_iff_getElem]
  have hi : i < blocks.length := by omega
  refine ⟨i, by omega, ?_⟩
  rw [List.getElem?_eq_getElem hi] at he
  exact Option.some.inj he

end Pool

/-- With no RECORD_NOTE in between, a replacement allocates its row of blocks, fills them, and ends. -/
theorem State.replaceOn_allocated {met : Bool} {slot : Nat} (f : Frame) (r : Record) (n : Nat)
    (h : met = false ∨ s.noteWaits slot = false) : ∃ blocks, Allocated s slot n blocks ∧
      State.replaceOn met f slot r n s = ((s.chainAll slot blocks).storeIntervals .matching slot f.intervals r).endFrame
        f slot true false := by
  obtain ⟨blocks, whole, lowest, full⟩ := State.replaceOn_whole (met := met) (slot := slot) f r n h
  exact ⟨blocks, ⟨lowest, full⟩, whole⟩

/-! ### Two states with one write queue whose memories read alike below the route area -/

/-- Two states with the same write queue, whose memories read alike below the route area. -/
structure Mirrors (s t : State) : Prop where
  queue : t.store.queue = s.store.queue
  wf : s.mem.wf = true ∧ t.mem.wf = true
  reads : ∀ x, x < Config.routeBase → t.mem.read x = s.mem.read x

theorem Mirrors.of_kept (hq : t.store.queue = s.store.queue) (hw : s.mem.wf = true)
    (hm : s.mem.Kept Config.routeBase t.mem) : Mirrors s t := ⟨hq, ⟨hw, hm.wf hw⟩, hm.reads hw⟩

theorem Mirrors.writeBytes (h : Mirrors s t) (n : Nat) (bs : List Byte) :
    Mirrors (s.withMem (s.mem.writeBytes n bs)) (t.withMem (t.mem.writeBytes n bs)) where
  queue := h.queue
  wf := ⟨Memory.wf_writeBytes h.wf.1 n bs, Memory.wf_writeBytes h.wf.2 n bs⟩
  reads x hx := by
    show (t.mem.writeBytes n bs).read x = (s.mem.writeBytes n bs).read x
    rw [Memory.read_writeBytes h.wf.1, Memory.read_writeBytes h.wf.2, h.reads x hx]

theorem Mirrors.grants (h : Mirrors s t) (u : Holder) (n : Nat) : Mirrors (s.grants u n) (t.grants u n) := by
  cases hu : u.requester with
  | none => unfold State.grants; rw [hu]; exact h
  | some unit =>
    by_cases hn : n = 0
    · subst hn; unfold State.grants; rw [hu]; exact h
    · rw [State.grants_eq hu hn, State.grants_eq hu hn, h.queue]
      exact ⟨rfl, ⟨Memory.wf_writeQueued h.wf.1 _, Memory.wf_writeQueued h.wf.2 _⟩,
        fun x hx => Memory.writeQueued_congr h.wf.1 h.wf.2 (h.reads x hx) _⟩

theorem Mirrors.writeBlock (h : Mirrors s t) (u : Holder) (n : Nat) (b : Block) :
    Mirrors (s.writeBlock u n b) (t.writeBlock u n b) := (h.writeBytes _ _).grants u 1

theorem Mirrors.writeIntervals (h : Mirrors s t) (u : Holder) (blocks : List Nat) (values : List Half) :
    Mirrors (State.writeIntervals u blocks values s) (State.writeIntervals u blocks values t) := by
  induction blocks generalizing s t values with
  | nil => exact h
  | cons b blocks ih => exact ih (h.writeBlock u b _) _

/-- Two memories that read alike over a block have its bytes alike. -/
theorem Memory.blockBytes_congr {m m' : Memory} {n : Nat}
    (h : ∀ x, blockAddress n ≤ x → x < blockAddress n + 32 → m'.read x = m.read x) :
    m'.blockBytes n = m.blockBytes n := by
  unfold Memory.blockBytes
  refine eq_of_byteAt (by simp) fun i hi => ?_
  rw [Memory.readBytes_length] at hi
  rw [Memory.readBytes_getD, Memory.readBytes_getD, if_pos hi, if_pos hi]
  exact h _ (by omega) (by omega)

theorem Mirrors.relink (h : Mirrors s t) (u : Holder) {n : Nat} (hn : n < 4096) (next : Half) :
    Mirrors (s.relink u n next) (t.relink u n next) := by
  have bytes : t.mem.blockBytes n = s.mem.blockBytes n := Memory.blockBytes_congr fun x _ hx => h.reads x (by
    simp only [blockAddress, Config.extensionBase] at hx
    simp only [Config.routeBase]
    omega)
  unfold State.relink Memory.relinkBlock
  dsimp only
  rw [bytes]
  exact (h.writeBytes _ _).grants u 1

/-! ### The blocks' bytes (R12, R175) -/

/-- An INTERVAL block of six values at most is 32 bytes. -/
theorem Block.image_length (next : Half) {values : List Half} (h : values.length ≤ 6) :
    (Block.interval next values).image.length = 32 := by
  have body := Block.body_length (.interval next values) (fun _ _ h => by cases h) (fun _ _ e => by cases e; exact h)
  simp [Block.image, withCheck, body]

/-- Accesses granted leave the blocks' bytes: the images that they write go to slots. -/
theorem State.grants_blockBytes {u : Holder} {k : Nat} (hw : s.mem.wf = true)
    (hq : ∀ q ∈ s.store.queue, q.slot < 8192) (n : Nat) : (s.grants u k).mem.blockBytes n = s.mem.blockBytes n := by
  refine Memory.blockBytes_congr fun x hx _ => ?_
  obtain ⟨w, spilled⟩ := Spilled.grants_any (x + 1) u k s
  rw [spilled.reads hw x (Nat.lt_succ_self x)]
  refine Memory.writeQueued_past hw (fun q hm => ?_) (Nat.le_trans (Nat.le_add_right _ _) hx)
  rcases spilled.mem_written hm with h | h
  · exact hq q h
  · cases h

theorem State.mem_queue_grants {u : Holder} {k : Nat} {q : Queued} (h : q ∈ (s.grants u k).store.queue) :
    q ∈ s.store.queue := by
  obtain ⟨w, spilled⟩ := Spilled.grants_any 0 u k s
  have queue := spilled.queue
  rw [List.append_nil] at queue
  exact queue ▸ List.mem_append_right w h

theorem State.writeBlock_store (u : Holder) (b : Nat) (c : Block) (hw : s.mem.wf = true) :
    (s.writeBlock u b c).mem.wf = true ∧ ∀ q ∈ (s.writeBlock u b c).store.queue, q ∈ s.store.queue := by
  obtain ⟨w, spilled⟩ := Spilled.grants_any 0 u 1 (s.withMem (s.mem.writeBlock b c))
  exact ⟨spilled.wf (Memory.wf_writeBlock hw b c),
    fun q hm => State.mem_queue_grants (s := s.withMem (s.mem.writeBlock b c)) hm⟩

/-- A block's write leaves the block with its image, and every other block as it was. -/
theorem State.writeBlock_bytes {u : Holder} {b : Nat} {c : Block} (hw : s.mem.wf = true)
    (hq : ∀ q ∈ s.store.queue, q.slot < 8192) (hc : c.image.length = 32) :
    (s.writeBlock u b c).mem.blockBytes b = c.image ∧
    ∀ n, n ≠ b → (s.writeBlock u b c).mem.blockBytes n = s.mem.blockBytes n := by
  have wf : (s.withMem (s.mem.writeBlock b c)).mem.wf = true := Memory.wf_writeBlock hw b c
  have granted := State.grants_blockBytes (u := u) (k := 1) wf hq
  refine ⟨(granted b).trans ?_, fun n hn => (granted n).trans ?_⟩
  · show ((s.mem.writeBytes (blockAddress b) c.image).readBytes (blockAddress b) 32) = _
    rw [← hc]
    exact Memory.readBytes_writeBytes hw _ _
  · exact Memory.readBytes_writeBytes_apart hw _ _ _ _ (by rw [hc]; simp only [blockAddress]; omega)

/-- Values written in a row of blocks: each block holds its six, with the number of the block after it, and every other
block stands (R12). -/
theorem State.writeIntervals_bytes {u : Holder} {blocks : List Nat} {values : List Half} (hn : blocks.Nodup)
    (hw : s.mem.wf = true) (hq : ∀ q ∈ s.store.queue, q.slot < 8192) :
    (∀ n, n ∉ blocks → (State.writeIntervals u blocks values s).mem.blockBytes n = s.mem.blockBytes n) ∧
    ∀ k n, blocks[k]? = some n → (State.writeIntervals u blocks values s).mem.blockBytes n =
      (Block.interval (headOf (intervalLinks (blocks.drop (k + 1)))) ((values.drop (6 * k)).take 6)).image := by
  induction blocks generalizing s values with
  | nil => exact ⟨fun _ _ => rfl, fun k n h => by simp at h⟩
  | cons b blocks ih =>
    obtain ⟨hb, hrest⟩ := List.nodup_cons.1 hn
    have length := Block.image_length (headOf (intervalLinks blocks)) (values := values.take 6) (by simp)
    obtain ⟨here, apart⟩ := State.writeBlock_bytes (u := u) (b := b) hw hq length
    obtain ⟨wf, queue⟩ := State.writeBlock_store u b
      (.interval (headOf (intervalLinks blocks)) (values.take 6)) hw
    obtain ⟨others, filled⟩ := ih hrest (values := values.drop 6) wf fun q hm => hq q (queue q hm)
    refine ⟨fun n hne => ?_, fun k n hk => ?_⟩
    · rw [List.mem_cons, not_or] at hne
      exact (others n hne.2).trans (apart n hne.1)
    · rcases k with _ | k
      · cases hk
        exact (others b hb).trans here
      · have drops : (values.drop 6).drop (6 * k) = values.drop (6 * (k + 1)) := by
          rw [List.drop_drop]
          congr 1
          omega
        exact (filled k n hk).trans (by rw [drops]; rfl)

end Sys2Proof.Machine
end

