-- ==== Sys2Proof/Proofs/FrameWork.lean ====
section
/-! PROOF. What the matching engine's work on a record leaves: the reports to the segment unit and the tamper queue, the
record's chain, and the end of the frame's work (R80, R81, R103, R115). -/

namespace Sys2Proof.Machine

variable {a s t : State}

/-! ### A report that leaves a record in its place (R115) -/

theorem Segment.recount_back {e : Segment} {c : Class} (hm : e.members ≠ 0) (hc : e.count (some c) ≠ 0) :
    (e.recount c (· - 1)).recount c (· + 1) = e := by
  have members : e.members - 1 + 1 = e.members := by omega
  cases c with
  | outstanding =>
    have count : e.outstanding - 1 + 1 = e.outstanding := Nat.sub_add_cancel (Nat.pos_of_ne_zero hc)
    simp only [Segment.recount, members, count]
  | done =>
    have count : e.done - 1 + 1 = e.done := Nat.sub_add_cancel (Nat.pos_of_ne_zero hc)
    simp only [Segment.recount, members, count]
  | faulted =>
    have count : e.faulted - 1 + 1 = e.faulted := Nat.sub_add_cancel (Nat.pos_of_ne_zero hc)
    simp only [Segment.recount, members, count]

theorem State.putSegment_fields (n : Seg) (e : Segment) (s : State) :
    (s.putSegment n e).segments = { s.segments with entries := s.segments.entries.set n.val e } ∧
    (s.putSegment n e).route = s.route ∧ (s.putSegment n e).events = s.events := by
  unfold State.putSegment
  dsimp only
  split <;> exact ⟨rfl, rfl, rfl⟩

/-- A segment put as it was before it was put otherwise is as it was. -/
theorem State.putSegment_back (n : Seg) (e : Segment) (s : State) :
    Alike s ((s.putSegment n e).putSegment n (s.segment n)) := by
  obtain ⟨hseg, hroute, hevents⟩ := State.putSegment_fields n e s
  obtain ⟨hseg', hroute', hevents'⟩ := State.putSegment_fields n (s.segment n) (s.putSegment n e)
  refine ⟨?_, hroute'.trans hroute, hevents'.trans hevents⟩
  have back : (s.segments.entries.set n.val e).set n.val (s.segment n) = s.segments.entries := by
    rw [Vector.set_set]
    exact Vector.set_getElem_self _
  rw [hseg', hseg]
  dsimp only
  rw [back]

theorem State.judge_same {n : Option Seg} {before : Nat} (h : s.outstandingAt n = before) : s.judge n before = s := by
  cases n with
  | none => rfl
  | some n =>
    have h : (s.segment n).outstanding = before := h
    unfold State.judge
    dsimp only
    rw [h, if_neg (by omega), if_neg (by omega)]

/-- A report of a record that stays in a place where it is counted changes nothing of the segment unit. -/
theorem State.report_same {p : Place} (h : ∀ n, p.segment = some n →
    (s.segment n).members ≠ 0 ∧ (s.segment n).count (some p.status.cls) ≠ 0) :
    Alike s (s.report (some p) (some p)) := by
  have counted : Alike s ((s.countAt (some p) (· - 1)).countAt (some p) (· + 1)) := by
    obtain ⟨n, status⟩ := p
    cases n with
    | none => exact ⟨rfl, rfl, rfl⟩
    | some n =>
      obtain ⟨hm, hc⟩ := h n rfl
      have back := State.putSegment_back n ((s.segment n).recount status.cls (· - 1)) s
      unfold State.countAt
      dsimp only
      rw [State.putSegment_segment, if_pos rfl, Segment.recount_back hm hc]
      exact back
  have outstanding := counted.outstandingAt ((some p).bind (·.segment))
  unfold State.report
  dsimp only
  split
  · exact counted
  · rw [State.judge_same outstanding, State.judge_same outstanding]
    exact counted

/-! ### Reports to the tamper queue (R103, R104) -/

@[simp] theorem State.reportFrame_frame (slot : Nat) (old new : Record) (s : State) :
    (s.reportFrame slot old new).store = s.store ∧ (s.reportFrame slot old new).directory = s.directory ∧
    (s.reportFrame slot old new).mem = s.mem ∧ (s.reportFrame slot old new).segments = s.segments ∧
    (s.reportFrame slot old new).matching = s.matching := by
  unfold State.reportFrame State.flaggedReport State.risenReport
  split
  · split
    · simp
    · split
      · split
        · exact ⟨rfl, rfl, rfl, rfl, rfl⟩
        · simp
      · exact ⟨rfl, rfl, rfl, rfl, rfl⟩
  · exact ⟨rfl, rfl, rfl, rfl, rfl⟩

/-- NEW_FLAG alone can a report to the tamper queue raise. -/
theorem State.reportFrame_events (slot : Nat) (old new : Record) (s : State) {k : Nat} (hk : k ≠ 0) :
    (s.reportFrame slot old new).events.pending.getLsbD k = s.events.pending.getLsbD k := by
  unfold State.reportFrame State.flaggedReport State.risenReport
  split
  · split
    · exact State.placeInQueue_events _ _ hk
    · split
      · split
        · rfl
        · exact State.placeInQueue_events _ _ hk
      · rfl
  · rfl

theorem State.flaggedReport_congr (slot : Nat) (r : Record) (h : t.tamper = s.tamper) :
    (t.flaggedReport slot r).tamper = (s.flaggedReport slot r).tamper :=
  State.placeInQueue_congr _ (by unfold State.removedReport; rw [h]; rfl)

theorem State.risenReport_congr (slot : Nat) (r : Record) (h : t.tamper = s.tamper) :
    (t.risenReport slot r).tamper = (s.risenReport slot r).tamper := by
  unfold State.risenReport
  rw [h]
  split
  · rfl
  · exact State.placeInQueue_congr _ h

theorem State.reportFrame_congr (slot : Nat) (old new : Record) (h : t.tamper = s.tamper) :
    (t.reportFrame slot old new).tamper = (s.reportFrame slot old new).tamper := by
  unfold State.reportFrame
  split
  · split
    · exact State.flaggedReport_congr slot new h
    · split
      · exact State.risenReport_congr slot new h
      · exact h
  · exact h

/-! ### The record worked on -/

/-- What the work on a record leaves, but for its line, the blocks, the queue and memory: its directory entry with a
chain, the reports to the segment unit and the tamper queue, and everything that the engine leaves. -/
structure Worked (s t : State) (slot : Nat) (d : DirEntry) (old new : Record) (chain : List (Nat × BlockKind)) :
    Prop where
  get : t.directory.get slot = some ⟨.live new.status, old.segment, chain, old.batch.isSome⟩
  others : ∀ k, k ≠ slot → t.directory.get k = s.directory.get k
  segments : t.segments = (s.report (some ⟨d.segment, d.status⟩) (some ⟨old.segment, .live new.status⟩)).segments
  done : t.events.pending.getLsbD 1 =
    (s.report (some ⟨d.segment, d.status⟩) (some ⟨old.segment, .live new.status⟩)).events.pending.getLsbD 1
  tamper : t.tamper = (s.reportFrame slot old new).tamper
  matching : t.matching = s.matching
  quiet : Quiet s t

/-- A record put in its line and reported is worked on. -/
theorem State.putRecord_worked {slot : Nat} {d : DirEntry} {old new : Record} (hok : s.Ok)
    (hd : s.directory.get slot = some d) (hs : new.segment = old.segment) (hb : new.batch = old.batch) :
    Worked s ((s.putRecord slot new).reportFrame slot old new) slot d old new d.chain := by
  have filed := State.putRecord_filed hd new
  have alike := filed.alike
  rw [hs] at alike
  have hget := filed.get
  rw [hs, hb] at hget
  refine ⟨by simpa using hget, fun k hk => by simpa using filed.get_ne hok hk, by simpa using alike.segments, ?_,
    State.reportFrame_congr slot old new (by simp), by simp, ((Quiet.refl s).putRecord slot new).reportFrame slot old new⟩
  rw [State.reportFrame_events _ _ _ _ (by decide), alike.events]

/-- Another chain for the record, in the directory. -/
theorem Worked.rechain {slot : Nat} {d : DirEntry} {old new : Record} {chain chain' : List (Nat × BlockKind)}
    (h : Worked a s slot d old new chain) (hrest : t = { s with store := t.store, directory := t.directory })
    (hget : t.directory.get slot = some ⟨.live new.status, old.segment, chain', old.batch.isSome⟩)
    (hothers : ∀ k, k ≠ slot → t.directory.get k = s.directory.get k) (hq : Quiet s t) :
    Worked a t slot d old new chain' :=
  ⟨hget, fun k hk => (hothers k hk).trans (h.others k hk), by rw [hrest]; exact h.segments, by rw [hrest]; exact h.done,
    by rw [hrest]; exact h.tamper, by rw [hrest]; exact h.matching, h.quiet.trans hq⟩

/-- The record's place is one in which its segment counts it. -/
theorem Worked.counted {slot : Nat} {d : DirEntry} {old new : Record} {chain : List (Nat × BlockKind)}
    (h : Worked s t slot d old new chain) (n : Seg) (hn : old.segment = some n) :
    (t.segment n).members ≠ 0 ∧ (t.segment n).count (some (Status.live new.status).cls) ≠ 0 := by
  have count : ∀ c, (t.segment n).count c = ((s.report (some ⟨d.segment, d.status⟩)
      (some ⟨old.segment, .live new.status⟩)).segment n).count c := fun c => by
    unfold State.segment; rw [h.segments]
  have members := count none
  have cls := count (some (Status.live new.status).cls)
  rw [State.report_counts, hn] at members cls
  have one : ∀ c, (c = none ∨ c = some (Status.live new.status).cls) →
      weight (some ⟨some n, .live new.status⟩) n c = 1 := by
    rintro c (rfl | rfl) <;> simp [weight, Place.counts]
  rw [one none (.inl rfl)] at members
  rw [one _ (.inr rfl)] at cls
  exact ⟨by show (t.segment n).count none ≠ 0; omega, by omega⟩

/-- The INTERVAL blocks are freed, and the chain keeps the NOTE blocks. -/
theorem Worked.freeIntervals {slot : Nat} {d : DirEntry} {old new : Record} {chain : List (Nat × BlockKind)}
    (h : Worked a s slot d old new chain) (hok : s.Ok) :
    Worked a (s.freeIntervals slot) slot d old new (chain.filter fun b => b.2 == .note) := by
  have eq : s.freeIntervals slot = (s.freeChain (chain.filter fun b => b.2 == .interval)).withDirectory
      (s.directory.set slot ⟨.live new.status, old.segment, chain.filter fun b => b.2 == .note, old.batch.isSome⟩) := by
    have get : (s.freeChain (chain.filter fun b => b.2 == .interval)).directory.get slot =
        some ⟨.live new.status, old.segment, chain, old.batch.isSome⟩ := h.get
    unfold State.freeIntervals State.setChain
    dsimp only
    rw [State.chain_of_get h.get]
    dsimp only
    rw [get]
    rfl
  refine h.rechain (by rw [eq]; rfl) (by rw [eq]; exact Directory.get_set_self _ _ _) (fun k hk => ?_)
    ((Quiet.refl s).freeIntervals slot)
  rw [eq]
  exact (Directory.get_set hok.directory.rising slot k _).trans (if_neg hk)

/-! ### The blocks filled, and the record's chain (R12) -/

/-- The record with the number of its first block, and the interval lost mark. -/
def Record.chained (r : Record) (chain : List (Nat × BlockKind)) (short : Bool) : Record :=
  { r with firstBlock := headOf chain, marks := { r.marks with intervalLost := short } }

/-- The first NOTE block linked to what follows it, where there is one. -/
def State.linkNotes (u : Holder) (notes next : List (Nat × BlockKind)) (s : State) : State :=
  match notes with
  | [] => s
  | n :: _ => s.relink u n.1 (headOf next)

@[simp] theorem State.writeIntervals_frame (u : Holder) (blocks : List Nat) (values : List Half) (s : State) :
    (State.writeIntervals u blocks values s).directory = s.directory ∧
    (State.writeIntervals u blocks values s).store.lines = s.store.lines ∧
    (State.writeIntervals u blocks values s).store.usedBlocks = s.store.usedBlocks ∧
    (State.writeIntervals u blocks values s).tamper = s.tamper ∧
    (State.writeIntervals u blocks values s).matching = s.matching ∧
    (State.writeIntervals u blocks values s).segments = s.segments ∧
    (State.writeIntervals u blocks values s).events = s.events ∧
    (State.writeIntervals u blocks values s).route = s.route := by
  induction blocks generalizing s values with
  | nil => exact ⟨rfl, rfl, rfl, rfl, rfl, rfl, rfl, rfl⟩
  | cons b blocks ih => rw [State.writeIntervals]; simp [ih]

@[simp] theorem State.linkNotes_frame (u : Holder) (notes next : List (Nat × BlockKind)) (s : State) :
    (s.linkNotes u notes next).directory = s.directory ∧ (s.linkNotes u notes next).store.lines = s.store.lines ∧
    (s.linkNotes u notes next).store.usedBlocks = s.store.usedBlocks ∧
    (s.linkNotes u notes next).tamper = s.tamper ∧ (s.linkNotes u notes next).matching = s.matching ∧
    (s.linkNotes u notes next).segments = s.segments ∧ (s.linkNotes u notes next).events = s.events ∧
    (s.linkNotes u notes next).route = s.route := by
  cases notes with
  | nil => exact ⟨rfl, rfl, rfl, rfl, rfl, rfl, rfl, rfl⟩
  | cons n notes => unfold State.linkNotes State.relink State.grant; simp

theorem Quiet.linkNotes (h : Quiet a s) (u : Holder) (notes next : List (Nat × BlockKind)) :
    Quiet a (s.linkNotes u notes next) := by
  cases notes with
  | nil => exact h
  | cons n notes => exact h.relink u n.1 _

theorem Mirrors.linkNotes (h : Mirrors s t) (u : Holder) {notes : List (Nat × BlockKind)}
    (hn : ∀ b ∈ notes, b.1 < 4096) (next : List (Nat × BlockKind)) :
    Mirrors (s.linkNotes u notes next) (t.linkNotes u notes next) := by
  cases notes with
  | nil => exact h
  | cons n notes => exact h.relink u (hn n (List.mem_cons_self ..)) _

section Store
variable {u : Holder} {slot : Nat} {values : List Half} {r : Record} {notes : List (Nat × BlockKind)}
  {blocks : List Nat}

/-- The end of a replacement, by the NOTE blocks and the blocks allocated. -/
theorem State.storeIntervals_eq (hc : s.chain slot = notes ++ intervalLinks blocks) (hn : ∀ b ∈ notes, b.2 = .note)
    {linked : State} (hl : (State.writeIntervals u blocks values s).linkNotes u notes (intervalLinks blocks) = linked)
    {r' : Record} (hr : r.chained (notes ++ intervalLinks blocks) (decide (blocks.length < blocksFor values)) = r') :
    s.storeIntervals u slot values r = if blocks.length < blocksFor values then
      (linked.putRecord slot r').raise .poolEmpty else linked.putRecord slot r' := by
  have intervals : (notes ++ intervalLinks blocks).filter (fun b => b.2 == .interval) = intervalLinks blocks := by
    rw [List.filter_append, List.filter_eq_nil_iff.2 (fun b hb => by rw [hn b hb]; decide), List.nil_append,
      List.filter_eq_self]
    intro b hb
    obtain ⟨n, -, rfl⟩ := List.mem_map.1 hb
    rfl
  have kept : (notes ++ intervalLinks blocks).filter (fun b => b.2 == .note) = notes := by
    rw [List.filter_append, List.filter_eq_self.2 (fun b hb => by rw [hn b hb]; rfl), List.filter_eq_nil_iff.2,
      List.append_nil]
    intro b hb
    obtain ⟨n, -, rfl⟩ := List.mem_map.1 hb
    simp
  have numbers : (intervalLinks blocks).map (·.1) = blocks := by simp [intervalLinks, Function.comp_def]
  have length : (intervalLinks blocks).length = blocks.length := List.length_map _
  unfold State.storeIntervals
  dsimp only
  rw [hc, intervals, kept, numbers, length, ← hr, ← hl]
  cases notes with
  | nil => simp only [decide_eq_true_eq]; rfl
  | cons n notes => simp only [decide_eq_true_eq]; rfl

end Store

/-- A raised POOL_EMPTY is pending, and of the other events each as it was. -/
theorem State.raise_poolEmpty (s : State) : (s.raise .poolEmpty).events.pending.getLsbD 5 = true ∧
    (s.raise .poolEmpty).events.pending.getLsbD 1 = s.events.pending.getLsbD 1 := by
  simp [State.raise, Event.mask, Event.bit]

/-- What a replacement's end leaves of a state in which the record is worked on (R12). -/
theorem Worked.storeIntervals {slot : Nat} {i : Fin 8} {d : DirEntry} {old new : Record} {values : List Half}
    {notes : List (Nat × BlockKind)} {blocks : List Nat}
    (hrising : Rising (s.directory.map (·.1))) (h : Worked a s slot d old new (notes ++ intervalLinks blocks)) (hn : ∀ b ∈ notes, b.2 = .note)
    (hi : s.lineOf slot = some i) (hs : new.segment = old.segment) (hb : new.batch = old.batch) {linked : State}
    (hl : (State.writeIntervals .matching blocks values s).linkNotes .matching notes (intervalLinks blocks) = linked) :
    Worked a (s.storeIntervals .matching slot values new) slot d old new (notes ++ intervalLinks blocks) ∧
    (s.storeIntervals .matching slot values new).cached slot = .live (new.chained (notes ++ intervalLinks blocks)
      (decide (blocks.length < blocksFor values))) ∧
    (s.storeIntervals .matching slot values new).store.usedBlocks = s.store.usedBlocks ∧
    (s.storeIntervals .matching slot values new).store.queue = linked.store.queue ∧
    linked.mem.Kept Config.routeBase (s.storeIntervals .matching slot values new).mem ∧
    (blocks.length < blocksFor values →
      (s.storeIntervals .matching slot values new).events.pending.getLsbD 5 = true) := by
  obtain ⟨r', hr⟩ : ∃ r', new.chained (notes ++ intervalLinks blocks) (decide (blocks.length < blocksFor values)) = r' :=
    ⟨_, rfl⟩
  have eq := State.storeIntervals_eq (u := .matching) (slot := slot) (values := values)
    (State.chain_of_get h.get) hn hl hr
  have frame : linked.directory = s.directory ∧ linked.store.lines = s.store.lines ∧
      linked.store.usedBlocks = s.store.usedBlocks ∧ linked.tamper = s.tamper ∧ linked.matching = s.matching ∧
      Alike s linked := by
    rw [← hl]; exact ⟨by simp, by simp, by simp, by simp, by simp, by simp, by simp, by simp⟩
  obtain ⟨hdir, hlines, hused, htamper, hmatching, halike⟩ := frame
  have place : r'.segment = old.segment ∧ r'.status = new.status ∧ r'.batch = old.batch := by
    rw [← hr]; exact ⟨hs, rfl, hb⟩
  obtain ⟨hseg, hstatus, hbatch⟩ := place
  obtain ⟨y, hy⟩ : ∃ y, y = linked.putRecord slot r' := ⟨_, rfl⟩
  have filed := State.putRecord_filed (s := linked) (hdir ▸ h.get) r'
  rw [← hy] at filed
  have told : Alike s y := by
    have same := State.report_same (s := s) (p := ⟨old.segment, .live new.status⟩) h.counted
    have reported := halike.report (some ⟨old.segment, .live new.status⟩) (some ⟨old.segment, .live new.status⟩)
    have alike := filed.alike
    rw [hseg, hstatus] at alike
    exact ⟨alike.segments.trans (reported.segments.trans same.segments),
      alike.route.trans (reported.route.trans same.route), alike.events.trans (reported.events.trans same.events)⟩
  have line := State.putRecord_line (s := linked) r' ((State.lineOf_congr hlines slot).trans hi)
  have quiet : Quiet a y := by
    rw [hy, ← hl]
    exact ((h.quiet.writeIntervals _ _ _).linkNotes _ _ _).putRecord _ _
  have hget := filed.get
  rw [hseg, hstatus, hbatch] at hget
  have filedOthers : ∀ k, k ≠ slot → y.directory.get k = s.directory.get k := fun k hk => by
    rw [filed.directory, hdir, Directory.get_set hrising, if_neg hk]
  have worked : Worked a y slot d old new (notes ++ intervalLinks blocks) :=
    ⟨hget, fun k hk => (filedOthers k hk).trans (h.others k hk), told.segments.trans h.segments,
      by rw [told.events]; exact h.done, by rw [hy]; simpa [htamper] using h.tamper,
      by rw [hy]; simpa [hmatching] using h.matching, quiet⟩
  have cached : y.cached slot = .live r' := by rw [hy]; exact line.2
  have used : y.store.usedBlocks = s.store.usedBlocks := by rw [hy]; simpa using hused
  have queue : y.store.queue = linked.store.queue := by rw [hy]; simp
  rw [eq, ← hy, hr]
  split
  next short =>
    obtain ⟨raised, rest⟩ := State.raise_poolEmpty y
    exact ⟨⟨worked.get, worked.others, worked.segments, rest.trans worked.done, worked.tamper, worked.matching,
      quiet.raise _⟩, (State.cached_congr rfl slot).trans cached, used, queue, filed.mem, fun _ => raised⟩
  next long => exact ⟨worked, cached, used, queue, filed.mem, fun short => absurd short long⟩

end Sys2Proof.Machine
end

