-- ==== Sys2Proof/Proofs/Matching.lean ====
section
/-! PROOF. FRAME_MATCH applies the frame in hand to its record (O52). -/

namespace Sys2Proof.Machine

variable {a s t : State}

/-! ### What a frame leaves of a record's place -/

theorem Record.matchFrame_place (h : Header) (a : Assessment) (e : Option MatchEntry) (r : Record) (f : Frame) :
    (r.matchFrame h a e f).record.segment = r.segment ∧ (r.matchFrame h a e f).record.batch = r.batch := by
  by_cases heard : r.probeOnly = true ∧ f.byProbe = false
  · unfold Record.matchFrame
    rw [if_pos (by simp [heard])]
    exact ⟨rfl, rfl⟩
  · have reached : r.probeOnly = false ∨ f.byProbe = true := by
      rcases Bool.eq_false_or_eq_true r.probeOnly with hp | hp
      · exact .inr (by simpa [hp] using heard)
      · exact .inl hp
    have moved := (Record.moved_matchFrame h a e reached).same
    have segment := congrArg Record.segment moved
    have batch := congrArg Record.batch moved
    exact ⟨segment, batch⟩

/-- A frame is not applied, or it is no duplicate. -/
theorem Record.matchFrame_once (h : Header) (a : Assessment) (e : Option MatchEntry) (r : Record) (f : Frame) :
    (r.matchFrame h a e f).applied = false ∨ (r.matchFrame h a e f).duplicate = false := by
  unfold Record.matchFrame
  dsimp only
  split
  · exact .inl rfl
  split
  · exact .inl rfl
  split
  · exact .inr rfl
  · exact .inr rfl
  · split
    · exact .inl rfl
    · exact .inr rfl
  · split
    · exact .inl rfl
    · exact .inr rfl
  · exact .inr rfl

/-! ### What the engine finds in the line it has taken (R63) -/

section Carries
variable {slot : Nat} {serial : Word} {d : DirEntry} (hd : s.directory.get slot = some d)
include hd

theorem State.carries_of_live {r : Record} (hc : s.cached slot = .live r) (hs : r.serial = serial) :
    s.carries slot serial = true := by
  unfold State.carries
  rw [hd, hc]
  simp [hs]

theorem State.carries_of_fault {n : Option Seg} (hc : s.cached slot = .fault serial n) :
    s.carries slot serial = true := by
  unfold State.carries
  rw [hd, hc]
  simp

end Carries

/-- A slot that is free, or holds another serial, does not carry the frame's. -/
theorem State.carries_of_lost {slot : Nat} {serial : Word} (h : s.directory.get slot = none ∨ s.cached slot = .free ∨
    (∃ r, s.cached slot = .live r ∧ r.serial ≠ serial) ∨ ∃ x n, s.cached slot = .fault x n ∧ x ≠ serial) :
    s.carries slot serial = false := by
  unfold State.carries
  rcases h with h | h | ⟨r, h, hs⟩ | ⟨x, n, h, hs⟩
  · rw [h]; rfl
  · rw [h]; simp
  · rw [h]; simp [hs]
  · rw [h]; simp [hs]

/-! ### The engine's work on its frame in hand -/

theorem execFrameMatch_on (h : s.power = .on) : exec .frameMatch s = .next (s.matchOn true).goOnReport := by
  show execFrameMatch s = _
  unfold execFrameMatch
  rw [if_neg (by simp [h])]

/-- A replacement that was held goes on. -/
theorem State.matchOn_replacing {met : Bool} {f : Frame} {slot : Nat} {r : Record}
    (hin : s.matching.inHand = some ⟨f, slot, true⟩) (hd : s.directory.get slot ≠ none)
    (hc : s.cached slot = .live r) (hs : r.serial = f.serial) : s.matchOn met = State.replaceOn met f slot r
      (blocksFor f.intervals - (s.chain slot).countP fun b => b.2 == .interval) s := by
  obtain ⟨d, hd⟩ := Option.ne_none_iff_exists'.1 hd
  unfold State.matchOn
  rw [hin]
  dsimp only
  unfold State.goOnReplacing
  rw [State.carries_of_live hd hc hs, hc]

/-- The line of the frame's slot, taken. -/
def State.foundLine (slot : Nat) (s : State) : State := (s.takeLine .matching slot).1

/-- The lookup for a frame whose slot was lost, after the line is let go (R63). -/
def State.sought (serial : Word) (slot : Nat) (s : State) : State :=
  (s.letGo slot).grants .matching (s.mem.lookupAccesses serial)

section InHand
variable {met : Bool} {f : Frame} {slot : Nat} (hin : s.matching.inHand = some ⟨f, slot, false⟩)
include hin

theorem State.matchOn_found (hc : (s.foundLine slot).carries slot f.serial = true) :
    s.matchOn met = (s.foundLine slot).workFrame met f slot := by
  unfold State.matchOn
  rw [hin]
  dsimp only
  exact if_pos hc

theorem State.matchOn_stranger (hc : (s.foundLine slot).carries slot f.serial = false)
    (hl : (s.foundLine slot).mem.lookup f.serial = none) :
    s.matchOn met = ((s.foundLine slot).sought f.serial slot).countStranger := by
  have resolved : ((s.foundLine slot).letGo slot).resolveByIndex f.serial =
      (none, (s.foundLine slot).sought f.serial slot) := by
    unfold State.resolveByIndex
    dsimp only
    rw [(State.letGo_frame slot (s.foundLine slot)).1, hl]
    rfl
  unfold State.matchOn
  rw [hin]
  dsimp only
  rw [← State.foundLine, hc, if_neg (by simp), resolved]

theorem State.matchOn_again {again : Nat} (hc : (s.foundLine slot).carries slot f.serial = false)
    (hl : (s.foundLine slot).mem.lookup f.serial = some again)
    (ht : (((s.foundLine slot).sought f.serial slot).keepEntry ⟨f.serial, again, none, none⟩).foundLine again = t)
    (hc' : t.carries again f.serial = true) : s.matchOn met = t.workFrame met f again := by
  have resolved : ((s.foundLine slot).letGo slot).resolveByIndex f.serial =
      (some again, ((s.foundLine slot).sought f.serial slot).keepEntry ⟨f.serial, again, none, none⟩) := by
    unfold State.resolveByIndex
    dsimp only
    rw [(State.letGo_frame slot (s.foundLine slot)).1, hl]
    rfl
  unfold State.matchOn
  rw [hin]
  dsimp only
  rw [← State.foundLine, hc, if_neg (by simp), resolved]
  dsimp only
  rw [← State.foundLine, ht, if_pos hc']

end InHand

theorem Quiet.sought (h : Quiet a s) (serial : Word) (slot : Nat) : Quiet a (s.sought serial slot) :=
  (h.letGo slot).grants _ _

theorem State.Ok.sought (h : s.Ok) (serial : Word) (slot : Nat) : (s.sought serial slot).Ok :=
  (h.letGo slot).grants .matching _

/-! ### The end of a frame's work (R59, R81) -/

/-- The matching engine's block with another recent-match buffer is as at the start of quiet work. -/
theorem Quiet.matching_eq (h : Quiet a s) : s.matching = { a.matching with buffer := s.matching.buffer } := by
  rw [← h.matching]

theorem Quiet.setBuffer (h : Quiet a s) (x : List MatchEntry) :
    Quiet a (s.withMatching { a.matching with buffer := x }) := by
  have eq : ({ a.matching with buffer := x } : Matching) = { s.matching with buffer := x } := by rw [← h.matching]
  rw [eq]
  exact h.withBuffer x

theorem State.countStranger_matching (h : Quiet a s) : s.countStranger.matching = { a.matching with
      inHand := none, strangers := satInc a.matching.strangers, buffer := s.matching.buffer } ∧
    Quiet a { s.countStranger with matching := { a.matching with buffer := s.countStranger.matching.buffer } } := by
  refine ⟨?_, h.setBuffer _⟩
  show ({ s.matching with inHand := none, strangers := satInc s.matching.strangers } : Matching) = _
  rw [h.matching_eq]

theorem State.countFaultHit_matching (h : Quiet a s) (slot : Nat) : (s.countFaultHit slot).matching = { a.matching with
      inHand := none, faultHits := satInc a.matching.faultHits
      buffer := s.matching.buffer.filter fun e => e.slot != slot } ∧
    Quiet a { s.countFaultHit slot with
      matching := { a.matching with buffer := (s.countFaultHit slot).matching.buffer } } := by
  have quiet := (h.forget slot).letGo slot
  refine ⟨?_, quiet.setBuffer _⟩
  show ({ ((s.forget slot).letGo slot).matching with inHand := none, faultHits := _ } : Matching) = _
  rw [quiet.matching_eq]
  simp [State.forget]

@[simp] theorem State.endFrame_frame (f : Frame) (slot : Nat) (applied duplicate : Bool) (s : State) :
    (s.endFrame f slot applied duplicate).directory = s.directory ∧
    (s.endFrame f slot applied duplicate).store.queue = s.store.queue ∧
    (s.endFrame f slot applied duplicate).store.usedBlocks = s.store.usedBlocks ∧
    (s.endFrame f slot applied duplicate).mem = s.mem ∧
    (s.endFrame f slot applied duplicate).segments = s.segments ∧
    (s.endFrame f slot applied duplicate).events = s.events ∧
    (s.endFrame f slot applied duplicate).tamper = s.tamper := by
  unfold State.endFrame State.noteReading
  dsimp only
  split <;> simp

@[simp] theorem State.endFrame_cached (f : Frame) (slot k : Nat) (applied duplicate : Bool) (s : State) :
    (s.endFrame f slot applied duplicate).cached k = s.cached k := by
  have same : ∀ x : State, x.store = s.store → ((x.letGo slot).withMatching
      (s.endFrame f slot applied duplicate).matching).cached k = s.cached k := fun x hx =>
    (State.cached_congr rfl k).trans ((State.letGo_cached slot k x).trans (State.cached_congr (by rw [hx]) k))
  unfold State.endFrame
  dsimp only
  cases applied
  · exact same s rfl
  · exact same (s.noteReading slot f) rfl

/-- The engine is free after its frame, with a duplicate counted and the record's entry brought up to date. -/
theorem State.endFrame_matching (h : Quiet a s) (f : Frame) (slot : Nat) (applied duplicate : Bool) :
    (s.endFrame f slot applied duplicate).matching = { a.matching with
      inHand := none
      buffer := if applied then (s.noteReading slot f).matching.buffer else s.matching.buffer
      duplicates := if duplicate then satInc a.matching.duplicates else a.matching.duplicates } ∧
    Quiet a { s.endFrame f slot applied duplicate with
      matching := { a.matching with buffer := (s.endFrame f slot applied duplicate).matching.buffer } } := by
  obtain ⟨x, hx, hq, hb⟩ : ∃ x, s.endFrame f slot applied duplicate = x.withMatching { x.matching with
        inHand := none, duplicates := if duplicate then satInc x.matching.duplicates else x.matching.duplicates } ∧
      Quiet a x ∧ x.matching.buffer = if applied then (s.noteReading slot f).matching.buffer
        else s.matching.buffer := by
    refine ⟨_, rfl, Quiet.letGo (Quiet.ite (h.noteReading slot f) h) slot, ?_⟩
    cases applied <;> simp
  rw [hx]
  refine ⟨?_, hq.setBuffer _⟩
  show ({ x.matching with inHand := none, duplicates := _ } : Matching) = _
  rw [← hb, hq.matching_eq]

end Sys2Proof.Machine
end

