-- ==== Sys2Proof/Proofs/FramesApplied.lean ====
section
/-! PROOF. What FRAME_MATCH makes of the record that its frame finds, assembled (O52). -/

namespace Sys2Proof.Machine

variable {a s t : State}

/-! ### The two ways in which a frame's work goes on (R80) -/

section Apply
variable {met : Bool} {f : Frame} {slot : Nat} {r : Record} {m : Matched}
  (hm : r.matchFrame s.params (s.assessment.getD Assessment.blank) (s.matchEntry f.serial) f = m)
include hm

theorem State.applyFrame_plain (h : ¬(m.applied = true ∧ f.intervals ≠ [])) : s.applyFrame met f slot r =
    ((s.putRecord slot m.record).reportFrame slot r m.record).endFrame f slot m.applied m.duplicate := by
  unfold State.applyFrame
  dsimp only
  rw [hm, if_neg (by simpa using h)]

theorem State.applyFrame_stored (h : m.applied = true ∧ f.intervals ≠ []) : s.applyFrame met f slot r =
    State.replaceOn met f slot m.record (blocksFor f.intervals)
      (((s.putRecord slot m.record).reportFrame slot r m.record).freeIntervals slot) := by
  unfold State.applyFrame
  dsimp only
  rw [hm, if_pos (by simpa using h)]

end Apply

theorem State.workFrame_live {met : Bool} {f : Frame} {slot : Nat} {r : Record} (hc : s.cached slot = .live r) :
    s.workFrame met f slot = s.applyFrame met f slot r := by
  unfold State.workFrame
  rw [hc]

theorem State.workFrame_fault {met : Bool} {f : Frame} {slot : Nat} {x : Word} {n : Option Seg}
    (hc : s.cached slot = .fault x n) : s.workFrame met f slot = s.countFaultHit slot := by
  unfold State.workFrame
  rw [hc]

/-! ### The record put and reported, and its INTERVAL blocks freed -/

section Work
variable {slot : Nat} {d : DirEntry} {old new : Record} (hok : s.Ok) (hd : s.directory.get slot = some d)
  (hc : s.cached slot = .live old) (hs : new.segment = old.segment) (hb : new.batch = old.batch)
include hok hd hc hs hb

/-- A record put in its line and reported, with the blocks, the queue and memory below the route area as they were. -/
theorem State.reported_spec {x : State} (hx : (s.putRecord slot new).reportFrame slot old new = x) :
    Worked s x slot d old new d.chain ∧ x.Ok ∧ (∃ i, x.lineOf slot = some i) ∧ x.cached slot = .live new ∧
    x.store.usedBlocks = s.store.usedBlocks ∧ x.store.queue = s.store.queue ∧
    s.mem.Kept Config.routeBase x.mem := by
  obtain ⟨i, hi⟩ := State.lineOf_of_cached (s := s) (slot := slot) (by rw [hc]; simp)
  obtain ⟨line, cached⟩ := State.putRecord_line new hi
  have store : x.store = (s.putRecord slot new).store := by rw [← hx]; simp
  refine ⟨hx ▸ State.putRecord_worked hok hd hs hb, hx ▸ (hok.putRecord slot new).reportFrame slot old new,
    ⟨i, (State.lineOf_congr (by rw [store]) slot).trans line⟩, (State.cached_congr (by rw [store]) slot).trans cached,
    by rw [store]; simp, by rw [store]; simp, ?_⟩
  have kept := (State.putRecord_filed hd new).mem
  rw [← hx]
  simpa using kept

theorem State.freed_spec {x : State}
    (hx : ((s.putRecord slot new).reportFrame slot old new).freeIntervals slot = x) :
    Worked s x slot d old new (d.chain.filter fun b => b.2 == .note) ∧ x.Ok ∧ (∃ i, x.lineOf slot = some i) ∧
    x.store.usedBlocks = (s.freeChain (d.chain.filter fun b => b.2 == .interval)).store.usedBlocks ∧
    x.store.queue = s.store.queue ∧ s.mem.Kept Config.routeBase x.mem := by
  obtain ⟨worked, ok, ⟨i, line⟩, -, used, queue, kept⟩ := State.reported_spec hok hd hc hs hb rfl
  have chain := State.chain_of_get worked.get
  have mem : x.mem = ((s.putRecord slot new).reportFrame slot old new).mem := by
    rw [← hx]; unfold State.freeIntervals; simp
  refine ⟨hx ▸ worked.freeIntervals ok, hx ▸ ok.freeIntervals slot, ⟨i, ?_⟩, ?_, ?_, by rw [mem]; exact kept⟩
  · rw [← line, ← hx]
    exact State.lineOf_congr (by unfold State.freeIntervals; simp) slot
  · rw [← hx]
    unfold State.freeIntervals
    dsimp only
    simp only [State.setChain_frame, chain]
    unfold State.freeChain
    simp only [State.withStore_store, used]
  · rw [← queue, ← hx]
    unfold State.freeIntervals
    simp

/-- A replacement that no RECORD_NOTE meets, from the freeing of the blocks to the frame's end (R12). -/
theorem State.replaced_spec {f : Frame} {n : Nat} {x : State}
    (hx : ((s.putRecord slot new).reportFrame slot old new).freeIntervals slot = x) (hw : x.noteWaits slot = false)
    {notes : List (Nat × BlockKind)} (hnotes : (d.chain.filter fun b => b.2 == .note) = notes) :
    ∃ blocks y, Allocated x slot n blocks ∧ State.replaceOn true f slot new n x = y.endFrame f slot true false ∧
      Worked s y slot d old new (notes ++ intervalLinks blocks) ∧
      y.cached slot = .live (new.chained (notes ++ intervalLinks blocks)
        (decide (blocks.length < blocksFor f.intervals))) ∧
      (∀ k, k ∈ y.store.usedBlocks ↔ k ∈ blocks ∨ k ∈ x.store.usedBlocks) ∧
      y.store.queue = ((State.writeIntervals .matching blocks f.intervals s).linkNotes .matching notes
        (intervalLinks blocks)).store.queue ∧
      (∀ z, z < Config.routeBase → y.mem.read z = ((State.writeIntervals .matching blocks f.intervals s).linkNotes
        .matching notes (intervalLinks blocks)).mem.read z) ∧
      (blocks.length < blocksFor f.intervals → y.events.pending.getLsbD 5 = true) := by
  obtain ⟨worked, ok, ⟨i, line⟩, -, queue, kept⟩ := State.freed_spec hok hd hc hs hb hx
  rw [hnotes] at worked
  obtain ⟨blocks, allocated, whole⟩ := State.replaceOn_allocated f new n (.inr hw)
  have chained := Chained.chainAll worked.get ⟨ok.directory.rising, ok.store.blocks⟩ blocks
  obtain ⟨z, hz⟩ : ∃ z, z = x.chainAll slot blocks := ⟨_, rfl⟩
  rw [← hz] at chained whole
  have quiet : Quiet x z := by
    rw [hz]
    exact Quiet.foldl (fun _ b h => h.chainBlock slot b) blocks (Quiet.refl x)
  have zworked : Worked s z slot d old new (notes ++ intervalLinks blocks) :=
    worked.rechain (by rw [chained.rest]) chained.get chained.others quiet
  have zstore : z.store.lines = x.store.lines ∧ z.store.queue = x.store.queue ∧ z.mem = x.mem := by
    rw [chained.rest]; exact ⟨rfl, rfl, rfl⟩
  obtain ⟨zlines, zqueue, zmem⟩ := zstore
  have kinds : ∀ b ∈ notes, b.2 = .note := fun b hb => by
    rw [← hnotes] at hb
    simpa using (List.mem_filter.1 hb).2
  have numbers : ∀ b ∈ notes, b.1 < 4096 := fun b hb => by
    rw [← hnotes] at hb
    exact hok.directory.chains slot d hd b (List.mem_of_mem_filter hb)
  have mirrors : Mirrors s z := .of_kept (zqueue.trans queue) hok.mem (zmem ▸ kept)
  have linked := (mirrors.writeIntervals .matching blocks f.intervals).linkNotes .matching numbers (intervalLinks blocks)
  obtain ⟨yworked, ycached, yused, yqueue, ymem, yevent⟩ := zworked.storeIntervals (values := f.intervals)
    chained.rising.1 kinds ((State.lineOf_congr zlines slot).trans line) hs hb rfl
  exact ⟨blocks, _, allocated, whole, yworked, ycached, fun k => by rw [yused]; exact chained.used k,
    yqueue.trans linked.queue, fun x hx => (ymem.reads linked.wf.2 x hx).trans (linked.reads x hx), yevent⟩

end Work

/-! ### The reports to the tamper queue, by the record's status before and after -/

theorem State.reportFrame_tamper (slot : Nat) (old new : Record) (s : State) :
    (new.status = .flagged → old.status ≠ .flagged →
      (s.reportFrame slot old new).tamper = (s.flaggedReport slot new).tamper) ∧
    (new.status = .flagged → old.status = .flagged → old.score.toNat < new.score.toNat →
      (s.reportFrame slot old new).tamper = (s.risenReport slot new).tamper) ∧
    (new.status ≠ .flagged ∨ old.status = .flagged ∧ new.score.toNat ≤ old.score.toNat →
      (s.reportFrame slot old new).tamper = s.tamper) := by
  unfold State.reportFrame
  refine ⟨fun h1 h2 => by rw [if_pos h1, if_pos h2], fun h1 h2 h3 => by rw [if_pos h1, if_neg (by simp [h2]), if_pos h3],
    fun h => ?_⟩
  rcases h with h | ⟨h1, h2⟩
  · rw [if_neg h]
  · split
    · rw [if_neg (by simp [h1]), if_neg (by omega)]
    · rfl

/-! ### The end of the frame -/

/-- What the end of a frame leaves of a record worked on. -/
theorem Worked.ended {slot : Nat} {d : DirEntry} {old new : Record} {chain : List (Nat × BlockKind)} {y : State}
    (h : Worked s y slot d old new chain) (q : Quiet a s) {f : Frame} {applied duplicate : Bool}
    (ht : y.endFrame f slot applied duplicate = t) : t.chain slot = chain ∧
    t.directory.get slot = some ⟨.live new.status, old.segment, t.chain slot, old.batch.isSome⟩ ∧
    (∀ k, k ≠ slot → t.directory.get k = s.directory.get k) ∧
    (t.segments = (s.report (some ⟨d.segment, d.status⟩) (some ⟨old.segment, .live new.status⟩)).segments ∧
      t.events.pending.getLsbD 1 =
        (s.report (some ⟨d.segment, d.status⟩) (some ⟨old.segment, .live new.status⟩)).events.pending.getLsbD 1) ∧
    t.tamper = (s.reportFrame slot old new).tamper ∧
    t.matching = { a.matching with
      inHand := none
      buffer := if applied then (s.noteReading slot f).matching.buffer else s.matching.buffer
      duplicates := if duplicate then satInc a.matching.duplicates else a.matching.duplicates } ∧
    Quiet a { t with matching := { a.matching with buffer := t.matching.buffer } } := by
  obtain ⟨hmatching, hquiet⟩ := State.endFrame_matching (q.trans h.quiet) f slot applied duplicate
  have noted : (y.noteReading slot f).matching.buffer = (s.noteReading slot f).matching.buffer := by
    unfold State.noteReading; rw [h.matching]; rfl
  rw [noted, h.matching, ht] at hmatching
  rw [ht] at hquiet
  have directory : t.directory = y.directory := by rw [← ht]; simp
  have chained : t.chain slot = chain := State.chain_of_get (directory ▸ h.get)
  refine ⟨chained, by rw [directory, chained]; exact h.get, fun k hk => by rw [directory]; exact h.others k hk,
    ⟨?_, ?_⟩, ?_, hmatching, hquiet⟩
  · rw [← h.segments, ← ht]; simp
  · rw [← h.done, ← ht]; simp
  · rw [← h.tamper, ← ht]; simp

/-! ### The record that the frame's work reaches (R63) -/

/-- The frame's work is done in the slot to which it was resolved, or in the one to which it is resolved again. -/
theorem State.matchOn_reached {met : Bool} {f : Frame} {slot slot' : Nat} {s1 : State} (hok : s.Ok)
    (hin : s.matching.inHand = some ⟨f, slot, false⟩) (h : slot' = slot ∧ s1 = s.foundLine slot ∨
      (s.foundLine slot).carries slot f.serial = false ∧ (s.foundLine slot).mem.lookup f.serial = some slot' ∧
      s1 = (((s.foundLine slot).sought f.serial slot).keepEntry ⟨f.serial, slot', none, none⟩).foundLine slot')
    (hc : s1.carries slot' f.serial = true) :
    s.matchOn met = s1.workFrame met f slot' ∧ Quiet s s1 ∧ s1.Ok := by
  have quiet : Quiet s (s.foundLine slot) := (Quiet.refl s).takeLine .matching slot
  have ok : (s.foundLine slot).Ok := hok.takeLine .matching slot
  rcases h with ⟨rfl, rfl⟩ | ⟨lost, hl, rfl⟩
  · exact ⟨State.matchOn_found hin hc, quiet, ok⟩
  · exact ⟨State.matchOn_again hin lost hl rfl hc, ((quiet.sought f.serial slot).keepEntry _).takeLine .matching slot',
      ((ok.sought f.serial slot).keepEntry _).takeLine .matching slot'⟩

end Sys2Proof.Machine
end

