-- ==== Sys2Proof/Proofs/FrameMatch.lean ====
section
/-! PROOF. FRAME_MATCH (O52): its replacement step by step, a replacement that goes on, a stranger, the record found, and
a fault hit. -/

namespace Sys2Proof.Machine

variable {s t : State}

/-- One block allocated to the end of a chain. -/
theorem State.chainBlock_spec (slot b : Nat) (s : State) : (s.chainBlock slot b).store.queue = s.store.queue ∧
    (s.chainBlock slot b).mem = s.mem ∧
    (∀ k, k ∈ (s.chainBlock slot b).store.usedBlocks ↔ k = b ∨ k ∈ s.store.usedBlocks) ∧
    (s.directory.get slot ≠ none → (s.chainBlock slot b).chain slot = s.chain slot ++ [(b, .interval)]) := by
  have store : (s.chainBlock slot b).store = (s.useBlock b).store := by unfold State.chainBlock; simp
  refine ⟨by rw [store]; rfl, by unfold State.chainBlock; simp; rfl, fun k => by rw [store]; exact mem_insertRising,
    fun h => ?_⟩
  obtain ⟨d, hd⟩ := Option.ne_none_iff_exists'.1 h
  have get : (s.useBlock b).directory.get slot = some d := hd
  unfold State.chainBlock
  refine State.chain_of_get (d := { d with chain := s.chain slot ++ [(b, .interval)] }) ?_
  rw [State.setChain_directory get, Directory.get_set_self]

/-- A frame's work on a live record (R64 to R81): with `blocks` allocated for new interval values where the frame is
applied and has some, which no RECORD_NOTE then meets. -/
theorem State.workFrame_spec {f : Frame} {slot : Nat} {d : DirEntry} {r : Record} {m : Matched} {before : State}
    {notes : List (Nat × BlockKind)} (hok : s.Ok) (hd : s.directory.get slot = some d) (hc : s.cached slot = .live r)
    (hm : r.matchFrame s.params (s.assessment.getD Assessment.blank) (s.matchEntry f.serial) f = m)
    (hbefore : ((s.putRecord slot m.record).reportFrame slot r m.record).freeIntervals slot = before)
    (hnotes : (d.chain.filter fun b => b.2 == .note) = notes)
    (hw : ¬(m.applied = true ∧ f.intervals ≠ []) ∨ before.noteWaits slot = false) :
    ∃ blocks y chain, s.workFrame true f slot = y.endFrame f slot m.applied m.duplicate ∧
      Worked s y slot d r m.record chain ∧
      (¬(m.applied = true ∧ f.intervals ≠ []) → chain = d.chain ∧ y.cached slot = .live m.record ∧
        y.store.usedBlocks = s.store.usedBlocks ∧ y.store.queue = s.store.queue ∧
        ∀ x, x < Config.routeBase → y.mem.read x = s.mem.read x) ∧
      (m.applied = true ∧ f.intervals ≠ [] → Allocated before slot (blocksFor f.intervals) blocks ∧
        chain = notes ++ intervalLinks blocks ∧
        y.cached slot = .live (m.record.chained (notes ++ intervalLinks blocks)
          (decide (blocks.length < blocksFor f.intervals))) ∧
        (∀ k, k ∈ y.store.usedBlocks ↔ k ∈ blocks ∨ k ∈ before.store.usedBlocks) ∧
        y.store.queue = ((State.writeIntervals .matching blocks f.intervals s).linkNotes .matching notes
          (intervalLinks blocks)).store.queue ∧
        (∀ x, x < Config.routeBase → y.mem.read x = ((State.writeIntervals .matching blocks f.intervals s).linkNotes
          .matching notes (intervalLinks blocks)).mem.read x) ∧
        (blocks.length < blocksFor f.intervals → y.events.pending.getLsbD 5 = true)) := by
  obtain ⟨hseg, hbatch⟩ : m.record.segment = r.segment ∧ m.record.batch = r.batch := hm ▸ Record.matchFrame_place _ _ _ r f
  by_cases stored : m.applied = true ∧ f.intervals ≠ []
  · have once : m.duplicate = false := by
      have once := Record.matchFrame_once s.params (s.assessment.getD Assessment.blank) (s.matchEntry f.serial) r f
      rw [hm] at once
      exact once.resolve_left (by simp [stored.1])
    obtain ⟨blocks, y, allocated, run, worked, rest⟩ := State.replaced_spec (f := f) (n := blocksFor f.intervals) hok hd
      hc hseg hbatch hbefore (hw.resolve_left (not_not_intro stored)) hnotes
    refine ⟨blocks, y, _, ?_, worked, fun h => absurd stored h, fun _ => ⟨allocated, rfl, rest⟩⟩
    rw [State.workFrame_live hc, State.applyFrame_stored hm stored, hbefore, run, stored.1, once]
  · obtain ⟨worked, -, -, cached, used, queue, kept⟩ := State.reported_spec hok hd hc hseg hbatch rfl
    exact ⟨[], _, _, by rw [State.workFrame_live hc, State.applyFrame_plain hm stored], worked,
      fun _ => ⟨rfl, cached, used, queue, kept.reads hok.mem⟩, fun h => absurd h stored⟩

/-- Settles O52: the replacement's steps and its going on, then the frame in hand by what its slot, or the one found
again, holds. -/
theorem framesAreApplied : Obligations.FramesAreApplied := by
  unfold Obligations.FramesAreApplied
  refine ⟨fun met f slot r n s => ?_, fun s f slot r hp hin hd hc hs => ?_, fun s f slot hp hok hin => ?_⟩
  · intro meets drew goesOn
    have goes : ∀ x u : State, x.noteMeets met slot = (false, u) →
        State.replaceOn met f slot r (n + 1) x = goesOn u := fun x u hx => by
      cases hb : u.lowestFreeBlock with
      | some b => rw [State.replaceOn_block f r n hx hb]; simp only [goesOn, hb]
      | none => rw [State.replaceOn_empty f r n hx hb]; simp only [goesOn, hb]
    refine ⟨State.noteWaits_iff, fun h => goes s s (State.noteMeets_none ?_), fun h => ?_,
      fun b => State.chainBlock_spec slot b s⟩
    · rcases Bool.eq_false_or_eq_true met with hm | hm
      · exact .inr (by simpa [meets, hm] using h)
      · exact .inl hm
    · have drawn := State.noteMeets_of_meets h.1 h.2
      split
      next first =>
        rw [first] at drawn
        rw [State.replaceOn_held f r n drawn]
        rfl
      next last =>
        rw [Bool.not_eq_true] at last
        rw [last] at drawn
        exact goes s drew drawn
  · rw [execFrameMatch_on hp, State.matchOn_replacing hin hd hc hs]
    rfl
  · intro found lost sought
    have quiet : Quiet s found := (Quiet.refl s).takeLine .matching slot
    have gone : lost → found.carries slot f.serial = false := State.carries_of_lost
    have buffer : (found.sought f.serial slot).matching.buffer = found.matching.buffer := by
      unfold State.sought; simp
    refine ⟨fun hlost hl => ?_, fun slot' s1 hcase => ?_⟩
    · obtain ⟨hmatching, hquiet⟩ := State.countStranger_matching (quiet.sought f.serial slot)
      rw [buffer] at hmatching
      exact ⟨_, by rw [execFrameMatch_on hp, State.matchOn_stranger hin (gone hlost) hl]; rfl, hmatching, hquiet⟩
    have way : slot' = slot ∧ s1 = s.foundLine slot ∨
        (s.foundLine slot).carries slot f.serial = false ∧ (s.foundLine slot).mem.lookup f.serial = some slot' ∧
        s1 = (((s.foundLine slot).sought f.serial slot).keepEntry ⟨f.serial, slot', none, none⟩).foundLine slot' := by
      refine hcase.imp id fun ⟨hlost, hl, h1⟩ => ⟨gone hlost, hl, h1.trans ?_⟩
      rw [← buffer]
      rfl
    refine ⟨fun d r hd hc hs => ?_, fun d segment hd hc => ?_⟩
    · intro m stored wanted free notes before intervals
      obtain ⟨work, quiet1, ok1⟩ := State.matchOn_reached (met := true) hok hin way (State.carries_of_live hd hc hs)
      have matched : r.matchFrame s1.params (s1.assessment.getD Assessment.blank) (s1.matchEntry f.serial) f = m := by
        unfold State.params
        rw [quiet1.route, quiet1.assessment]
        rfl
      refine ⟨fun hst => ?_, fun hmeets => ?_⟩
      · rw [execFrameMatch_on hp, work, State.workFrame_live hc, State.applyFrame_stored matched hst]
        rfl
      obtain ⟨hseg, hbatch⟩ : m.record.segment = r.segment ∧ m.record.batch = r.batch :=
        Record.matchFrame_place _ _ _ r f
      obtain ⟨freed, freedOk, -, freedUsed, -, -⟩ := State.freed_spec ok1 hd hc hseg hbatch (x := before) rfl
      have pool : before.store.usedBlocks = free.store.usedBlocks := freedUsed
      obtain ⟨blocks, y, chain, run, worked, plain, replaced⟩ :=
        State.workFrame_spec (before := before) (notes := notes) ok1 hd hc matched rfl rfl hmeets
      obtain ⟨t, ht⟩ : ∃ t, y.endFrame f slot' m.applied m.duplicate = t := ⟨_, rfl⟩
      obtain ⟨hchain, hget, hothers, hreport, htamper, hmatching, hquiet⟩ := worked.ended quiet1 ht
      obtain ⟨flagged, risen, other⟩ := State.reportFrame_tamper slot' r m.record s1
      have cached : t.cached slot' = y.cached slot' := by rw [← ht]; simp
      have frame : t.store.usedBlocks = y.store.usedBlocks ∧ t.store.queue = y.store.queue ∧ t.mem = y.mem ∧
          t.events = y.events := by rw [← ht]; simp
      obtain ⟨hused, hqueue, hmem, hevents⟩ := frame
      refine ⟨blocks, t, ?_⟩
      intro written linked
      have hlinked : linked = written.linkNotes .matching notes (intervalLinks blocks) := rfl
      refine ⟨fun hst => ?_, fun k n hst hk => ?_, by rw [execFrameMatch_on hp, work, run, ht], fun hst => ?_,
        fun hst => ?_, hget, hothers, hreport, fun h1 h2 => htamper.trans (flagged h1 h2),
        fun h1 h2 h3 => htamper.trans (risen h1 h2 h3), fun h => htamper.trans (other h), hmatching, hquiet⟩
      · obtain ⟨allocated, -⟩ := replaced hst
        have length := allocated.length_eq freed.get ⟨freedOk.directory.rising, freedOk.store.blocks⟩
        unfold State.freeBlocks at length ⊢
        rw [← pool]
        exact length
      · obtain ⟨allocated, -⟩ := replaced hst
        obtain ⟨-, -, unused, lower⟩ := allocated.spec freed.get ⟨freedOk.directory.rising, freedOk.store.blocks⟩ hk
        have nodup := allocated.nodup freed.get ⟨freedOk.directory.rising, freedOk.store.blocks⟩
        rw [pool] at unused lower
        exact ⟨unused, lower, fun hq => (State.writeIntervals_bytes nodup ok1.mem hq).2 k n hk⟩
      · obtain ⟨same, record, used, queue, mem⟩ := plain hst
        exact ⟨cached.trans record, hchain.trans same, hused.trans used, hqueue.trans queue, fun x hx => by
          rw [hmem]; exact mem x hx⟩
      · obtain ⟨-, same, record, used, queue, mem, event⟩ := replaced hst
        rw [hlinked, hmem, hevents, hused, ← pool]
        exact ⟨cached.trans record, hchain.trans same, used, hqueue.trans queue, mem, event⟩
    · obtain ⟨work, quiet1, -⟩ := State.matchOn_reached (met := true) hok hin way (State.carries_of_fault hd hc)
      obtain ⟨hmatching, hquiet⟩ := State.countFaultHit_matching quiet1 slot'
      exact ⟨_, by rw [execFrameMatch_on hp, work, State.workFrame_fault hc], hmatching, hquiet⟩

end Sys2Proof.Machine
end

