-- ==== Sys2Proof/Proofs/RecordMemory.lean ====
section
/-! PROOF. What memory reads after an item of the route area is written (R135) and after initialisation (R142), bytes read back
(R23), and the bounds right after reset. -/

namespace Sys2Proof.Machine

variable {s : State} {m : Memory}

/-! ### Bytes read back (R23) -/

/-- A write leaves every address past its bytes. -/
theorem Memory.sameBut_writeBytes (h : m.wf = true) (a : Nat) (bs : List Byte) :
    m.sameBut (m.writeBytes a bs) a bs.length := fun x hx => by
  rw [Memory.read_writeBytes h, if_neg (by omega)]

/-- Settles O17: what `readBytes_writeBytes` and `sameBut_writeBytes` say, together. -/
theorem memoryReadsWhatWasWritten : Obligations.MemoryReadsWhatWasWritten := fun _ a bs h =>
  ⟨Memory.readBytes_writeBytes h a bs, Memory.sameBut_writeBytes h a bs⟩

/-! ### Items of the route area (R135) -/

/-- The copy that a write of an item goes to. -/
theorem Memory.newerCopy_writeItem (h : m.wf = true) {i : Nat} {c : List Byte} (hc : c.length = itemSize i) :
    (m.writeItem i c).newerCopy i = some (m.nextCopy i).1 ∧
      (m.writeItem i c).copyBytes i (m.nextCopy i).1 = copyImage (m.nextCopy i).2 c := by
  have written : (m.writeItem i c).copyBytes i (m.nextCopy i).1 = copyImage (m.nextCopy i).2 c :=
    Memory.copyBytes_self h _ _ _ _ hc
  have good : (m.writeItem i c).copyGood i (m.nextCopy i).1 = true := by
    unfold Memory.copyGood
    rw [written]
    exact checkHolds_withCheck _ _ (by simp [hc])
  have generation : byteAt ((m.writeItem i c).copyBytes i (m.nextCopy i).1) 0 = (m.nextCopy i).2 := by
    rw [written]; rfl
  have other : (m.writeItem i c).copyBytes i (!(m.nextCopy i).1) = m.copyBytes i (!(m.nextCopy i).1) :=
    Memory.copyBytes_other h _ _ _ (by rw [copyImage_length, hc]; have := itemSize_add_two_le i; omega) _ _ (by simp)
  have otherGood : (m.writeItem i c).copyGood i (!(m.nextCopy i).1) = m.copyGood i (!(m.nextCopy i).1) := by
    unfold Memory.copyGood; rw [other]
  refine ⟨?_, written⟩
  have judged := newer_write (m.copyGood i false) (m.copyGood i true) (byteAt (m.copyBytes i false) 0)
    (byteAt (m.copyBytes i true) 0)
  rw [← Memory.newerCopy_eq] at judged
  rw [Memory.newerCopy_eq]
  unfold Memory.nextCopy at good generation other otherGood ⊢
  cases hn : (m.newerCopy i).getD false <;>
    simp only [hn, Bool.not_false, Bool.not_true, if_true, if_false, Bool.false_eq_true] at * <;>
    rw [good, generation, otherGood, other] <;> exact judged

/-- An item written reads back as written, and every other item as before. -/
theorem Memory.readItem_writeItem (h : m.wf = true) {i : Nat} {c : List Byte} (hc : c.length = itemSize i) (j : Nat) :
    (m.writeItem i c).readItem j = if j = i then some c else m.readItem j := by
  split
  next same =>
    subst same
    obtain ⟨newest, bytes⟩ := Memory.newerCopy_writeItem h hc
    unfold Memory.readItem
    rw [newest, Option.map_some, bytes, copyImage, withCheck, List.cons_append, List.drop_one, List.tail_cons,
      ← hc, List.take_left]
  next apart =>
    refine Memory.readItem_congr j fun b => Memory.copyBytes_other h _ _ _ ?_ _ _ fun e => apart ?_
    · rw [copyImage_length, hc]; have := itemSize_add_two_le i; omega
    · exact (congrArg Prod.fst e).symm

/-! ### The sizes of the items (R175) -/

theorem headerItem_length (x : Option Header) : (headerItem x).length = itemSize 1 := by cases x <;> rfl
theorem stateItem_length (x : RouteState) (n : Option Seg) : (stateItem x n).length = itemSize 2 := rfl
theorem planItem_length (plan : List Seg) : (planItem plan).length = itemSize 3 := by
  simp [planItem, zeros, itemSize]
theorem segmentItem_length (e : Segment) (n : Seg) : (segmentItem e).length = itemSize (5 + n.val) := by
  rw [show itemSize (5 + n.val) = 9 by unfold itemSize; split_ifs <;> omega]
  rfl

/-! ### Record memory initialised (R142) -/

/-- Memory with the entries at some addresses left out reads there as unlisted. -/
theorem Memory.read_filter (h : m.wf = true) (p : Nat → Bool) (x : Nat) :
    Memory.read (m.filter fun c => p c.1) x = if p x then m.read x else Memory.unlisted x := by
  split
  next kept =>
    have rising := ((Memory.wf_iff m).1 h).1
    clear h
    induction m with
    | nil => rfl
    | cons c m ih =>
      rw [List.pairwise_cons] at rising
      have ih := ih rising.2
      rw [List.filter_cons]
      split
      · rw [Memory.read, Memory.read, ih]
      next dropped =>
        have apart : c.1 ≠ x := fun e => dropped (e ▸ kept)
        rw [ih, Memory.read, if_neg apart]
        split
        next below => exact Memory.read_below fun d hd => Nat.lt_trans below (rising.1 d hd)
        · rfl
  next dropped =>
    refine Memory.read_absent fun c hc e => dropped ?_
    rw [← e]
    exact (List.mem_filter.1 hc).2

/-- Whether initialisation writes an address: the slots, the index, and both copies of every item. -/
def initialises (x : Nat) : Bool :=
  decide (x < Config.extensionBase) || decide (Config.indexBase ≤ x ∧ x < Config.routeBase) ||
    decide (Config.routeBase ≤ x ∧ (x - Config.routeBase) / 512 < itemCount ∧
      (x - Config.routeBase) % 256 < itemSize ((x - Config.routeBase) / 512) + 2)

/-- Initialisation leaves what it does not write, and makes the rest read as unlisted. -/
theorem Memory.read_initialise (h : m.wf = true) (x : Nat) :
    m.initialise.read x = if initialises x then Memory.unlisted x else m.read x := by
  have bases : Config.extensionBase = 0x80000 ∧ Config.indexBase = 0xA0000 ∧ Config.routeBase = 0xC0000 :=
    ⟨rfl, rfl, rfl⟩
  unfold Memory.initialise
  rw [Memory.read_filter (Memory.wf_clearRange (Memory.wf_clearRange h _ _) _ _)
    (fun x => decide (x < Config.routeBase) ||
      let item := (x - Config.routeBase) / 512
      let offset := (x - Config.routeBase) % 256
      decide (itemCount ≤ item) || decide (itemSize item + 2 ≤ offset)),
    Memory.read_clearRange (Memory.wf_clearRange h _ _), Memory.read_clearRange h]
  unfold initialises
  simp only [Bool.or_eq_true, decide_eq_true_eq, or_assoc]
  grind

/-- Every copy of an item is as initialisation writes it. -/
theorem Memory.copyBytes_initialise (h : m.wf = true) {i : Nat} (hi : i < 69) (b : Bool) :
    m.initialise.copyBytes i b = Memory.copyBytes [] i b := by
  refine eq_of_byteAt (by simp [Memory.copyBytes]) fun k hk => ?_
  rw [Memory.copyBytes, Memory.readBytes_length] at hk
  have size := itemSize_add_two_le i
  have place : copyAddress i b + k = Config.routeBase + i * 512 + ((if b then 256 else 0) + k) := by
    simp only [copyAddress]; omega
  have offset : (if b then 256 else 0) + k < 512 ∧ ((if b then 256 else 0) + k) % 256 = k := by
    cases b <;> simp <;> omega
  have item : (copyAddress i b + k - Config.routeBase) / 512 = i ∧
      (copyAddress i b + k - Config.routeBase) % 256 = k := by omega
  have initialised : initialises (copyAddress i b + k) = true := by
    unfold initialises
    rw [item.1, item.2]
    have : i < itemCount := hi
    simp only [Bool.or_eq_true, decide_eq_true_eq]
    exact .inr ⟨by omega, this, hk⟩
  rw [Memory.copyBytes, Memory.copyBytes, Memory.readBytes_getD, Memory.readBytes_getD, if_pos hk, if_pos hk,
    Memory.read_initialise h, if_pos initialised]
  rfl

theorem Memory.readItem_initialise (h : m.wf = true) {i : Nat} (hi : i < 69) :
    m.initialise.readItem i = some (initialItem i) :=
  (Memory.readItem_congr i (Memory.copyBytes_initialise h hi)).trans (Memory.readItem_nil hi)

theorem Memory.copyGood_initialise (h : m.wf = true) {i : Nat} (hi : i < 69) (b : Bool) :
    m.initialise.copyGood i b = true := by
  rw [Memory.copyGood, Memory.copyBytes_initialise h hi, Memory.copyBytes_nil hi, copyImage]
  exact checkHolds_withCheck _ _ (by simp [initialItem_length])

theorem Memory.signatureValid_initialise (h : m.wf = true) : m.initialise.signatureValid = true := by
  simp only [Memory.signatureValid, Bool.and_eq_true, List.all_eq_true, List.mem_range]
  exact ⟨fun i hi => by rw [Memory.readItem_initialise h hi]; rfl, by rw [Memory.readItem_initialise h (by omega)]; rfl⟩

/-- With every entry of the index EMPTY no serial is found. -/
theorem Memory.lookup_of_empty (h : ∀ n, n < 16384 → m.entrySerial n = 0) (serial : Word) : m.lookup serial = none := by
  have search : m.findEntry serial (16383 + 1) (homeBucket serial) = none := by
    unfold Memory.findEntry
    rw [if_pos (h _ (homeBucket_lt serial))]
  unfold Memory.lookup
  rw [show Config.indexEntries = 16383 + 1 from rfl, search]
  rfl

theorem Memory.lookup_initialise (h : m.wf = true) (serial : Word) : m.initialise.lookup serial = none := by
  refine (Memory.lookup_congr (m := []) (fun x low high => ?_) serial).trans
    (Memory.lookup_of_empty (fun n hn => Memory.entrySerial_nil hn) serial)
  have written : initialises x = true := by
    unfold initialises
    rw [decide_eq_true (And.intro low high), Bool.or_true, Bool.true_or]
  rw [Memory.read_initialise h, if_pos written]
  rfl

theorem byteAt_zeros (n k : Nat) : byteAt (zeros n) k = 0 := by
  rw [byteAt, zeros, List.getD_eq_getElem?_getD, List.getElem?_getD_replicate_default_eq]

/-- The slots are free, each with its check byte. -/
theorem Memory.slotBytes_initialise (h : m.wf = true) {n : Nat} (hn : n < 8192) :
    m.initialise.slotBytes n = zeros 64 := by
  refine eq_of_byteAt (by simp [Memory.slotBytes, zeros]) fun k hk => ?_
  rw [Memory.slotBytes, Memory.readBytes_length] at hk
  have base : slotAddress n + k < Config.extensionBase := by simp only [slotAddress, Config.extensionBase]; omega
  have written : initialises (slotAddress n + k) = true := by
    unfold initialises
    rw [decide_eq_true base, Bool.true_or, Bool.true_or]
  rw [Memory.slotBytes, Memory.readBytes_getD, if_pos hk, Memory.read_initialise h, if_pos written]
  unfold Memory.unlisted
  rw [if_pos (Nat.lt_trans base (by decide)), byteAt_zeros]

/-- Initialisation leaves the extension area (R142). -/
theorem Memory.extension_initialise (h : m.wf = true) {x : Nat} (low : 0x80000 ≤ x) (high : x < 0xA0000) :
    m.initialise.read x = m.read x := by
  have left : initialises x = false := by
    have bases : Config.extensionBase = 0x80000 ∧ Config.indexBase = 0xA0000 ∧ Config.routeBase = 0xC0000 :=
      ⟨rfl, rfl, rfl⟩
    unfold initialises
    simp only [Bool.or_eq_false_iff, decide_eq_false_iff_not]
    omega
  rw [Memory.read_initialise h, left, if_neg (by decide)]

/-! ### The state right after reset -/

/-- Settles O6: the bounds, the sound copies and the level counters of the reset state. -/
theorem resetMeetsEveryBound : Obligations.ResetMeetsEveryBound :=
  ⟨State.reset_ok, State.reset_sound, ((level_iff State.reset 0).1 (level_reset 0)).2⟩

end Sys2Proof.Machine
end

