-- ==== Sys2Proof/Proofs/WritingBack.lean ====
section
/-! PROOF. The write queue and the write-back of DIRTY lines (R34, R42): which entries FLUSH queues, and where they are written. -/

namespace Sys2Proof.Machine

variable {a s t u : State}

/-! ### A line cleaned (R42) -/

/-- The image of a DIRTY line. -/
def Line.image (l : Line) : Option Queued :=
  l.body.bind fun b => if b.dirty then some ⟨b.slot, b.contents⟩ else none

/-- A line as the writing back leaves it: a DIRTY one CLEAN and free. -/
def Line.cleaned (l : Line) : Line :=
  if l.image.isSome then ⟨l.body.map fun b => { b with dirty := false }, none⟩ else l

theorem State.dirtyImages_eq (s : State) : s.dirtyImages = (List.finRange 8).filterMap fun i => (s.line i).image := by
  refine List.filterMap_congr fun i _ => ?_
  unfold Line.image
  cases (s.line i).body <;> rfl

theorem Line.cleaned_eq (l : Line) : l.cleaned = (match l.body with
    | some b => if b.dirty then ⟨some { b with dirty := false }, none⟩ else l
    | none => l) := by
  obtain ⟨body, holder⟩ := l
  cases body with
  | none => rfl
  | some b => obtain ⟨slot, dirty, c⟩ := b; cases dirty <;> rfl

theorem Line.cleaned_clean {l : Line} {b : Cached} (h : l.cleaned.body = some b) : b.dirty = false := by
  obtain ⟨body, holder⟩ := l
  cases body with
  | none => cases h
  | some c =>
    obtain ⟨slot, dirty, x⟩ := c
    cases dirty <;> cases h <;> rfl

/-- An image queued: what had to be written to make room, and the image at the tail. -/
theorem State.enqueue_written (q : Queued) (s : State) : ∃ written,
    (s.enqueue q).mem = s.mem.writeQueued written ∧ written ++ (s.enqueue q).store.queue = s.store.queue ++ [q] := by
  unfold State.enqueue
  split
  · exact ⟨[], rfl, rfl⟩
  next full =>
    obtain ⟨x, rest, hq⟩ : ∃ x rest, s.store.queue = x :: rest := by
      cases hq : s.store.queue with
      | nil => rw [hq] at full; exact absurd (by decide) full
      | cons x rest => exact ⟨x, rest, rfl⟩
    refine ⟨[x], ?_⟩
    unfold State.writeOldest
    rw [hq]
    exact ⟨rfl, rfl⟩

/-! ### A row of lines cleaned -/

/-- `t` is `s` with some lines cleaned in turn: their images have joined the queue, of which `written` has reached
memory meanwhile, and of the rest only the order of use and what FLUSH waits for differ. -/
structure Cleaned (s t : State) (lines : List (Fin 8)) (written : List Queued) : Prop where
  mem : t.mem = s.mem.writeQueued written
  queue : written ++ t.store.queue = s.store.queue ++ lines.filterMap fun i => (s.line i).image
  line : ∀ i, t.line i = if i ∈ lines then (s.line i).cleaned else s.line i
  rest : t = { s with
    mem := t.mem
    store := { s.store with lines := t.store.lines, recency := t.store.recency, queue := t.store.queue }
    command := { s.command with unit := t.command.unit } }

theorem Cleaned.refl (s : State) : Cleaned s s [] [] :=
  ⟨rfl, by simp, fun i => by simp, rfl⟩

theorem Cleaned.cleanLine (i : Fin 8) (s : State) : ∃ written, Cleaned s (s.cleanLine i) [i] written := by
  unfold State.cleanLine
  split
  next b hb =>
    split
    next dirty =>
      obtain ⟨written, hmem, hqueue⟩ := State.enqueue_written ⟨b.slot, b.contents⟩ s
      obtain ⟨m, p, unit, frame⟩ := State.enqueue_frame ⟨b.slot, b.contents⟩ s
      have image : (s.line i).image = some ⟨b.slot, b.contents⟩ := by
        unfold Line.image; rw [hb, Option.bind_some, if_pos dirty]
      refine ⟨written, hmem, ?_, fun k => ?_, ?_⟩
      · rw [List.filterMap_cons, image]; exact hqueue
      · have lines := State.line_set (s := s) (i := i) (l := ⟨some { b with dirty := false }, none⟩)
          (t := ((s.enqueue ⟨b.slot, b.contents⟩).setLine i ⟨some { b with dirty := false }, none⟩).withStore
            { ((s.enqueue ⟨b.slot, b.contents⟩).setLine i ⟨some { b with dirty := false }, none⟩).store with
              recency := touch i (s.enqueue ⟨b.slot, b.contents⟩).store.recency })
          (congrArg (fun x : Vector Line 8 => x.set i.val ⟨some { b with dirty := false }, none⟩)
            (State.enqueue_lines ⟨b.slot, b.contents⟩ s)) k
        rw [lines]
        simp only [List.mem_singleton]
        split
        next own => rw [own, Line.cleaned, image, hb]; rfl
        · rfl
      · rw [frame]; rfl
    next clean =>
      refine ⟨[], rfl, ?_, fun k => ?_, rfl⟩
      · simp [Line.image, hb, clean]
      · split
        next own => rw [List.mem_singleton.1 own]; simp [Line.cleaned, Line.image, hb, clean]
        · rfl
  next hb =>
    refine ⟨[], rfl, ?_, fun k => ?_, rfl⟩
    · simp [Line.image, hb]
    · split
      next own => rw [List.mem_singleton.1 own]; simp [Line.cleaned, Line.image, hb]
      · rfl

theorem Cleaned.trans {is js : List (Fin 8)} {w w' : List Queued} (h : Cleaned s t is w) (h' : Cleaned t u js w')
    (apart : ∀ j ∈ js, j ∉ is) : Cleaned s u (is ++ js) (w ++ w') where
  mem := by rw [h'.mem, h.mem, Memory.writeQueued_append]
  queue := by
    have images : (js.filterMap fun i => (t.line i).image) = js.filterMap fun i => (s.line i).image :=
      List.filterMap_congr fun j hj => by rw [h.line j, if_neg (apart j hj)]
    rw [List.append_assoc, h'.queue, ← List.append_assoc, h.queue, images, List.filterMap_append, List.append_assoc]
  line i := by
    rw [h'.line, h.line]
    have := apart i
    grind
  rest := by
    rw [h'.rest, h.rest]

theorem Cleaned.foldl {lines : List (Fin 8)} (hn : lines.Nodup) (s : State) :
    ∃ written, Cleaned s (lines.foldl (fun s i => s.cleanLine i) s) lines written := by
  induction lines generalizing s with
  | nil => exact ⟨[], .refl s⟩
  | cons i lines ih =>
    rw [List.nodup_cons] at hn
    obtain ⟨w, first⟩ := Cleaned.cleanLine i s
    obtain ⟨w', others⟩ := ih hn.2 (s.cleanLine i)
    refine ⟨w ++ w', first.trans others fun j hj e => hn.1 ?_⟩
    rw [← List.mem_singleton.1 e]
    exact hj

/-- The cache written back to the queue: every line cleaned, in line order (R42). -/
theorem State.cleanLines_cleaned (s : State) : ∃ written, Cleaned s s.cleanLines (List.finRange 8) written :=
  Cleaned.foldl (List.nodup_finRange 8) s

/-- A queue emptied to memory. -/
theorem State.drainAll_eq (s : State) : s.drainAll = { s with
    mem := s.mem.writeQueued s.store.queue
    store := { s.store with queue := [] }
    command := { s.command with unit := s.store.queue.foldl (fun v _ => v.oneWritten) s.command.unit } } := by
  unfold State.drainAll
  rw [State.drain_eq, List.take_length, List.drop_length]
  rfl

/-- `t` is `s` with the cache written back: the images that were queued and then those of the DIRTY lines have reached
memory, no line is DIRTY and no entry left in the queue (R42, R139, R146). -/
structure WrittenBack (s t : State) : Prop where
  mem : t.mem = s.mem.writeQueued (s.store.queue ++ s.dirtyImages)
  queue : t.store.queue = []
  line : ∀ i, t.line i = (s.line i).cleaned
  rest : t = { s with
    mem := t.mem
    store := { s.store with lines := t.store.lines, recency := t.store.recency, queue := [] }
    command := { s.command with unit := t.command.unit } }

theorem Cleaned.drainAll {written : List Queued} (h : Cleaned s t (List.finRange 8) written) :
    WrittenBack s t.drainAll := by
  have rest := h.rest
  rw [State.drainAll_eq]
  refine ⟨?_, rfl, fun i => ?_, ?_⟩
  · show t.mem.writeQueued t.store.queue = _
    rw [h.mem, ← Memory.writeQueued_append, h.queue, State.dirtyImages_eq]
  · exact (h.line i).trans (if_pos (List.mem_finRange i))
  · rw [rest]

theorem State.writeBack_spec (s : State) : WrittenBack s s.writeBack := by
  obtain ⟨written, cleaned⟩ := s.cleanLines_cleaned
  exact cleaned.drainAll

/-- No line is DIRTY once the cache is written back. -/
theorem WrittenBack.clean (h : WrittenBack s t) {i : Fin 8} {b : Cached} (hb : (t.line i).body = some b) :
    b.dirty = false := by
  rw [h.line] at hb
  exact Line.cleaned_clean hb

/-! ### FLUSH and what it waits for (R34, R42) -/

/-- With every image of a row written FLUSH waits for as many fewer; no other command waits for entries. -/
theorem UnitState.afterWrites (l : List Queued) (u : UnitState) : l.foldl (fun v _ => v.oneWritten) u = (match u with
    | .executing (.flush n) => .executing (.flush (n - l.length))
    | other => other) := by
  induction l generalizing u with
  | nil => rcases u with _ | ⟨_ | _ | _ | _⟩ | _ <;> rfl
  | cons q l ih =>
    rw [List.foldl_cons, ih]
    rcases u with _ | ⟨n | _ | _ | _⟩ | _
    case executing.flush =>
      show UnitState.executing (.flush (n - 1 - l.length)) = .executing (.flush (n - (l.length + 1)))
      congr 2
      omega
    all_goals rfl

theorem execFlush_serving (h : s.serving) : exec .flush s =
    .next (s.cleanLines.executing (.flush s.cleanLines.store.queue.length)) := by
  show execFlush s = _
  unfold execFlush
  rw [State.serve_of_serving h]

theorem execFlushDrainDone_done (hp : s.power = .on) (hu : s.command.unit = .executing (.flush 0)) :
    exec .flushDrainDone s = .next (s.respond .ok []) := by
  show execFlushDrainDone s = _
  unfold execFlushDrainDone
  rw [hp, hu]
  rfl

theorem execWriteQueueWrite_on {q : Queued} {rest : List Queued} (hp : s.power = .on)
    (hq : s.store.queue = q :: rest) : exec .writeQueueWrite s = .next { s with
      mem := s.mem.writeSlot q.slot q.contents
      store := { s.store with queue := rest }
      command := { s.command with unit := s.command.unit.oneWritten } } := by
  show execWriteQueueWrite s = _
  unfold execWriteQueueWrite State.writeOldest
  rw [if_pos hp, hq]
  rfl

/-- A slot's image written is read back with its check byte, and nothing else changes (R17, R23). -/
theorem Memory.writeSlot_spec {m : Memory} (h : m.wf = true) (n : Nat) (c : Contents) :
    (m.writeSlot n c).slotBytes n = c.image ∧ checkHolds 64 ((m.writeSlot n c).slotBytes n) = true ∧
      m.sameBut (m.writeSlot n c) (slotAddress n) 64 := by
  obtain ⟨length, checked⟩ := Contents.image_checked c
  have back := Memory.slotBytes_writeSlot h n c
  refine ⟨back, back ▸ checked, ?_⟩
  rw [← length]
  exact Memory.sameBut_writeBytes h _ _

/-- What accesses granted to one of the arbiter's units do, whichever it is (R34, R36). -/
theorem State.grants_unit {h : Holder} {unit : Requester} (hu : h.requester = some unit) {n : Nat} (hn : 0 < n)
    (s : State) : s.grants h n = { s with
      mem := s.mem.writeQueued (s.store.queue.take n)
      store := { s.store with granted := unit, queue := s.store.queue.drop n }
      command := { s.command with unit := (match s.command.unit with
        | .executing (.flush k) => .executing (.flush (k - min n s.store.queue.length))
        | other => other) } } := by
  rw [State.grants_eq hu (by omega), UnitState.afterWrites, List.length_take]
  rfl

/-- Settles O44: FLUSH's lines by `cleanLines_cleaned`, an entry's write by `writeSlot_spec`, and the writes behind the
arbiter's grants by `grants_unit`. -/
theorem flushWritesBack : Obligations.FlushWritesBack := by
  unfold Obligations.FlushWritesBack
  refine ⟨fun s hs => ?_, fun s q rest hp hq => ⟨?_, fun hm => Memory.writeSlot_spec hm q.slot q.contents⟩,
    fun s hp hu => ?_, fun s n => ⟨rfl, fun u => ?_, fun hn => ⟨?_, ?_, ?_⟩⟩⟩
  · obtain ⟨written, cleaned⟩ := s.cleanLines_cleaned
    have run := execFlush_serving hs
    generalize s.cleanLines = t at cleaned run
    have rest := cleaned.rest
    refine ⟨_, written, run, ?_, ?_, ?_, fun i => ?_⟩
    · rw [cleaned.mem] at rest
      rw [rest]
      rfl
    · rw [rest]; rfl
    · rw [State.dirtyImages_eq]; exact cleaned.queue
    · refine ((cleaned.line i).trans (if_pos (List.mem_finRange i))).trans ((Line.cleaned_eq _).trans ?_)
      cases (s.line i).body <;> rfl
  · rw [execWriteQueueWrite_on hp hq]
    rcases s.command.unit with _ | ⟨_ | _ | _ | _⟩ | _ <;> rfl
  · exact execFlushDrainDone_done hp hu
  · cases u <;> rfl
  · exact (State.grants_unit rfl hn s).trans rfl
  · exact (State.grants_unit rfl hn s).trans rfl
  · exact (State.grants_unit rfl hn s).trans rfl

end Sys2Proof.Machine
end

