-- ==== Sys2Proof/Proofs/Supply.lean ====
section
/-! PROOF. Warning, starts, part reset and loss of the supply (R43, R142, R145, R146). -/

namespace Sys2Proof.Machine

variable {a s t : State} {m : Memory}

/-! ### The frame in hand finished (R59, R63) -/

/-- `t` follows `a` by the matching engine's work on the frame in hand alone: all that work on records leaves is left,
but the engine itself, which is free at the end. -/
structure Ended (a t : State) : Prop where
  quiet : Quiet a { t with matching := a.matching }
  inHand : t.matching.inHand = none

theorem Quiet.withMatching_same (q : Quiet s t) (x : Matching) :
    Quiet { s with matching := x } { t with matching := x } :=
  ⟨q.pending, q.power, q.ports, q.route, q.assessment, q.depot, q.draws, q.enabled, q.raised, rfl, q.command,
    q.responding, q.idle, q.cabMode, q.invert⟩

/-- The engine freed after work on records. -/
theorem Ended.of_quiet (h : Quiet a s) {x : Matching} (hx : x.inHand = none) : Ended a (s.withMatching x) :=
  ⟨h.withMatching_same a.matching, hx⟩

theorem Ended.endFrame (h : Quiet a s) (f : Frame) (slot : Nat) (applied duplicate : Bool) :
    Ended a (s.endFrame f slot applied duplicate) :=
  .of_quiet ((Quiet.ite (h.noteReading slot f) h).letGo slot) rfl

theorem Ended.replaceOn (h : Quiet a s) (f : Frame) (slot : Nat) (r : Record) (n : Nat) :
    Ended a (State.replaceOn false f slot r n s) := by
  obtain ⟨blocks, whole, -⟩ := State.replaceOn_whole (s := s) (slot := slot) f r n (.inl rfl)
  rw [whole]
  exact .endFrame ((Quiet.foldl (fun _ b h => h.chainBlock slot b) blocks h).storeIntervals .matching slot _ _) ..

theorem Ended.workFrame (h : Quiet a s) (f : Frame) (slot : Nat) : Ended a (s.workFrame false f slot) := by
  unfold State.workFrame
  split
  next r _ =>
    unfold State.applyFrame
    dsimp only
    generalize r.matchFrame s.params (s.assessment.getD Assessment.blank) (s.matchEntry f.serial) f = m
    have reported := (h.putRecord slot m.record).reportFrame slot r m.record
    split
    · exact .replaceOn (reported.freeIntervals slot) ..
    · exact .endFrame reported ..
  · exact .of_quiet ((h.forget slot).letGo slot) rfl

theorem Ended.goOnReplacing (f : Frame) (slot : Nat) (s : State) : Ended s (s.goOnReplacing false f slot) := by
  unfold State.goOnReplacing
  dsimp only
  split
  · exact .replaceOn (.refl s) ..
  · exact .endFrame (.refl s) ..

theorem State.finishFrame_ended (s : State) : Ended s s.finishFrame := by
  unfold State.finishFrame State.matchOn
  split
  next free => exact ⟨.refl s, free⟩
  · exact .goOnReplacing _ _ s
  next f slot _ =>
    have taken := (Quiet.refl s).takeLine .matching slot
    dsimp only
    split
    · exact .workFrame taken ..
    · have sought := (taken.letGo slot).resolveByIndex f.serial
      split
      next looked => rw [looked] at sought; exact .of_quiet sought rfl
      next again _ looked =>
        rw [looked] at sought
        have found : Quiet s _ := Quiet.takeLine sought .matching again
        split
        · exact .workFrame found ..
        · exact .of_quiet (found.letGo again) rfl

/-- Work on records changes of the command unit what FLUSH waits for alone. -/
theorem Quiet.command_idle (h : Quiet a t) (hi : a.command.unit = .idle) : t.command = a.command := by
  have idle := h.idle.2 hi
  rw [← h.command, hi, ← idle]

/-! ### The power warning (R43, R145) -/

/-- The lines that no unit holds are those that a warning writes back. -/
theorem State.endWork_images (s : State) : s.endWork.dirtyImages = s.looseImages := by
  rw [State.dirtyImages_eq]
  refine List.filterMap_congr fun i _ => ?_
  have line : s.endWork.line i = (s.line i).discardHeld := by
    show (s.store.lines.map Line.discardHeld).get i = _
    rw [Vector.get_eq_getElem, Vector.getElem_map]
    rfl
  rw [line]
  obtain ⟨body, holder⟩ := s.line i
  cases body <;> cases holder <;> rfl

/-- The halted 460: work ended, images and checkpoint written, and every other block as the warning left it. -/
theorem State.warned_spec (s : State) {t : State} (ht : s.endWork.writeBack.writeCheckpoint.withPower .halted = t) :
    t.mem = (s.mem.writeQueued (s.store.queue ++ s.looseImages)).writeItem 4 (wordBytes s.route.clock) ∧
    t.store.queue = [] ∧ t.command = { s.command with unit := .idle, response := [] } ∧
    t.route = { s.route with scanning := none, checkpointsDue := [] } ∧
    t = { s.endWork with
      power := .halted, mem := t.mem, store := t.store, command := t.command, route := t.route } := by
  have back := s.endWork.writeBack_spec
  have command : s.endWork.writeBack.command = s.endWork.command := ((Quiet.refl _).writeBack).command_idle rfl
  rw [← State.endWork_images]
  generalize s.endWork.writeBack = w at back command ht
  have rest := back.rest
  have route : w.route = { s.route with scanning := none } := by rw [rest]; rfl
  rw [← ht]
  refine ⟨?_, back.queue, command, ?_, ?_⟩
  · show w.mem.writeItem 4 (wordBytes w.route.clock) = _
    rw [back.mem, route]
    rfl
  · show { w.route with checkpointsDue := [] } = _
    rw [route]
  · rw [rest]
    rfl

/-! ### Starts (R142, R146) -/

theorem crc8_zeros (n : Nat) : crc8 (zeros n) = 0 := by
  induction n with
  | zero => rfl
  | succ n ih => exact ih

/-- A free slot is all zeros, its check byte too (R175). -/
theorem Contents.image_free : Contents.free.image = zeros 64 := by
  show zeros 63 ++ [crc8 (zeros 63)] = _
  rw [crc8_zeros]
  rfl

theorem State.restart_valid (h : s.mem.signatureValid = true) (start : StartKind) :
    (s.restart start).recovering s.mem ∧ (s.restart start).route.lastStart = start ∧
    (s.restart start).pending = s.pending ∧ (s.restart start).command = { Command.reset with
      dataOut := s.command.dataOut } ∧
    (s.restart start).depot.dockSense = s.depot.dockSense ∧ (s.restart start).draws = s.draws := by
  unfold State.restart
  rw [if_pos h]
  refine ⟨?_, rfl, rfl, rfl, rfl, rfl⟩
  refine { power := rfl, mem := rfl, route := rfl, segment := fun n => ?_, plan := rfl, active := rfl,
           idle := ⟨rfl, rfl⟩,
           events := ⟨rfl, rfl⟩, command := rfl, assessment := rfl, ports := rfl, matching := rfl, store := rfl,
           directory := rfl, tamper := rfl, depot := rfl }
  show (Vector.ofFn fun n : Seg => segmentOfItem (s.mem.item (5 + n.val))).get n = _
  rw [Vector.get_eq_getElem, Vector.getElem_ofFn]

theorem State.restart_invalid (h : s.mem.signatureValid = false) (start : StartKind) :
    s.restart start = { State.reset with
      pending := s.pending, mem := s.mem.initialise, draws := s.draws
      command := { State.reset.command with dataOut := s.command.dataOut }
      depot := { State.reset.depot with
        dockSense := s.depot.dockSense
        link := if s.depot.dockSense then .attached else .detached } } := by
  have done : (0 : BitVec 10) ||| Event.scanDone.mask = 0x200 := by decide
  unfold State.restart
  rw [if_neg (by rw [h]; decide)]
  show ((s.freshChip .on).withMem s.mem.initialise).withEvents ⟨0 ||| Event.scanDone.mask, 0⟩ = _
  rw [done]
  rfl

theorem State.recovering.written (h : t.recovering m) : t.written.recovering m :=
  { h with command := by show { t.command with dataOut := [] } = _; rw [h.command]; rfl }

/-- What PART_RESET does before its start leaves what waits outside and the level of dock-sense. -/
theorem Quiet.secured (s : State) :
    s.finishFrame.writeBack.writeCheckpoint.pending = s.pending ∧
    s.finishFrame.writeBack.writeCheckpoint.depot = s.depot ∧
    s.finishFrame.writeBack.writeCheckpoint.draws = s.draws := by
  have work := (Quiet.refl s.finishFrame).writeBack
  have finished := s.finishFrame_ended.quiet
  generalize s.finishFrame = f at work finished
  generalize f.writeBack = w at work
  exact ⟨work.pending.trans finished.pending, work.depot.trans finished.depot, work.draws.trans finished.draws⟩

theorem execPartReset_serving (h : s.serving) : exec .partReset s =
    .next (s.finishFrame.writeBack.writeCheckpoint.restart .reset).written := by
  show execPartReset s = _
  unfold execPartReset
  rw [State.serve_of_serving h]

theorem initialItem_segment (n : Seg) : initialItem (5 + n.val) = segmentItem Segment.reset := by
  unfold initialItem
  rw [if_neg (by omega), if_neg (by omega), if_neg (by omega), if_neg (by omega), if_neg (by omega)]

/-- Settles O59: the warning by `warned_spec`, both kinds of start by `restart_valid` and `restart_invalid`, and the
memory of a first start by what initialisation leaves to be read. -/
theorem supplyEventsTakeEffect : Obligations.SupplyEventsTakeEffect := by
  unfold Obligations.SupplyEventsTakeEffect
  refine ⟨fun s hp => ?_, fun s hp => ⟨fun hv => ?_, fun hv => ?_⟩, fun s hs => ?_,
    fun s loss => ⟨fun hw => ?_, fun hw => ?_⟩,
    fun m hm => ?_⟩
  · obtain ⟨t, ht⟩ : ∃ t, s.endWork.writeBack.writeCheckpoint.withPower .halted = t := ⟨_, rfl⟩
    have run : exec .powerWarning s = .next t := by
      show execPowerWarning s = _
      unfold execPowerWarning
      rw [if_pos hp, ht]
    obtain ⟨mem, queue, command, route, rest⟩ := s.warned_spec ht
    have power : t.power = .halted := by rw [rest]
    refine ⟨t, run, power, mem, queue, by rw [rest]; rfl, command, by rw [rest]; rfl, route, by rw [rest]; rfl,
      by rw [rest]; rfl, by rw [rest]; rfl, ?_, ?_, fun p => ?_⟩
    · unfold State.cabActive; rw [power]; rfl
    · unfold State.attention; rw [power]; rfl
    · have port : t.port p = (s.port p).warned := by
        rw [rest]
        show (s.ports.map Port.warned).get p = _
        rw [Vector.get_eq_getElem, Vector.getElem_map]
        rfl
      rw [port]
      exact ⟨rfl, rfl, rfl⟩
  · obtain ⟨recovering, start, pending, command, dock, draws⟩ := State.restart_valid hv .recovered
    have run : exec .powerUp s = .next (s.restart .recovered) := congrArg _ (if_neg hp)
    exact ⟨_, run, recovering, start, pending, by rw [command], dock, draws⟩
  · exact congrArg _ ((if_neg hp).trans (State.restart_invalid hv .recovered))
  · obtain ⟨pending, depot, draws⟩ := Quiet.secured s
    have run := execPartReset_serving hs
    generalize s.finishFrame.writeBack.writeCheckpoint = w at pending depot draws run
    refine ⟨_, run, ?_⟩
    cases hv : w.mem.signatureValid with
    | true =>
      obtain ⟨recovering, start, waiting, command, dock, -⟩ := State.restart_valid hv .reset
      refine ⟨recovering.power, ?_, waiting.trans pending, by rw [← depot]; exact dock,
        fun _ => ⟨recovering.written, start⟩, fun hf => absurd (hv.symm.trans hf) (by decide)⟩
      show { (w.restart .reset).command with dataOut := [] } = _
      rw [command]
      rfl
    | false =>
      rw [State.restart_invalid hv .reset, pending, depot, draws]
      exact ⟨rfl, rfl, rfl, rfl, fun ht => absurd (hv.symm.trans ht) (by decide), fun _ => rfl⟩
  · refine ⟨_, if_pos hw, rfl, rfl, fun hc => ?_, rfl⟩
    rw [hc]
    rfl
  · exact if_neg (by rw [hw]; decide)
  · have item := fun i (hi : i < 69) => Memory.readItem_initialise hm hi
    refine ⟨Memory.wf_initialise hm, Memory.signatureValid_initialise hm, Memory.lookup_initialise hm,
      fun slot hs => ?_,
      fun i copy hi => Memory.copyGood_initialise hm hi copy, item 1 (by omega), item 2 (by omega), item 3 (by omega),
      item 4 (by omega), fun n => ?_, fun a low high => Memory.extension_initialise hm low high⟩
    · rw [Memory.slotBytes_initialise hm hs, ← Contents.image_free]
      exact ⟨(Contents.image_checked .free).2, Contents.ofBytes_free⟩
    · rw [item _ (by omega), initialItem_segment]

end Sys2Proof.Machine
end

