-- ==== Sys2Proof/Proofs/Clearing.lean ====
section
/-! PROOF. ROUTE_CLEAR (R140): each slot freed, the write queue settled by the accesses that clear the index, and the items of the
EMPTY route. -/

namespace Sys2Proof.Machine

variable {s t : State} {m m' : Memory}

/-! ### Memory with the write queue written (R34) -/

/-- Record memory as it stands once every image queued has reached it. -/
def State.settled (s : State) : Memory := s.mem.writeQueued s.store.queue

theorem State.Ok.settled (h : s.Ok) : s.settled.wf = true := Memory.wf_writeQueued h.mem _

/-- However many images have reached memory meanwhile: with all of them there, it is as before with the new ones
written. -/
theorem Spilled.settled {b : Nat} {written images : List Queued} (h : Spilled b s t written images)
    (hm : s.mem.wf = true) {x : Nat} (hx : x < b) : t.settled.read x = (s.settled.writeQueued images).read x := by
  have same := Memory.writeQueued_congr (Memory.wf_writeQueued hm written) (h.wf hm) (h.reads hm x hx) t.store.queue
  rw [State.settled, same, ← Memory.writeQueued_append, h.queue, Memory.writeQueued_append]
  rfl

theorem Memory.writeQueued_one (m : Memory) (q : Queued) : m.writeQueued [q] = m.writeSlot q.slot q.contents := rfl

/-- A slot that no image names is left by their writing. -/
theorem Memory.slotBytes_writeQueued_apart (h : m.wf = true) {images : List Queued} {slot : Nat}
    (apart : ∀ q ∈ images, q.slot ≠ slot) : (m.writeQueued images).slotBytes slot = m.slotBytes slot := by
  induction images generalizing m with
  | nil => rfl
  | cons q images ih =>
    refine (ih (Memory.wf_writeSlot h _ _) fun x hx => apart x (List.mem_cons_of_mem _ hx)).trans ?_
    exact Memory.slotBytes_writeSlot_apart h (apart q List.mem_cons_self).symm _

/-! ### One slot cleared (R140, step 1) -/

@[simp] theorem State.clearSlot_frame (s : State) (slot : Nat) :
    (s.clearSlot slot).tamper = s.tamper ∧ (s.clearSlot slot).matching = s.matching ∧
    (s.clearSlot slot).events = s.events := by
  unfold State.clearSlot State.grant
  simp

theorem State.clearSlots_frame (slots : List Nat) (s : State) : (slots.foldl State.clearSlot s).tamper = s.tamper ∧
    (slots.foldl State.clearSlot s).matching = s.matching ∧ (slots.foldl State.clearSlot s).events = s.events := by
  induction slots generalizing s with
  | nil => exact ⟨rfl, rfl, rfl⟩
  | cons slot slots ih => simpa using ih (s.clearSlot slot)

/-- Besides the slot's own free image, a clearing queues a DIRTY line's alone. -/
theorem Spilled.clearSlot (s : State) (slot : Nat) : ∃ written images,
    Spilled Config.indexBase s (s.clearSlot slot) written (images ++ [⟨slot, .free⟩]) ∧
      ∀ q ∈ images, ∃ i, (s.line i).body = some ⟨q.slot, true, q.contents⟩ := by
  obtain ⟨w, images, taken, -, lines⟩ := Spilled.takeLineFresh Config.indexBase .command slot .free s
  have granted := Spilled.grants Config.indexBase (u := .command) rfl 1 (s.takeLineFresh .command slot .free)
  obtain ⟨x, hx⟩ : ∃ x, x = (s.takeLineFresh .command slot .free).grants .command 1 := ⟨_, rfl⟩
  obtain ⟨y, hy⟩ : ∃ y, y = (x.withDirectory (x.directory.free slot)).dropLine slot := ⟨_, rfl⟩
  have dropped : Spilled Config.indexBase x y [] [] := .of_kept (by simp [hy]) (by simpa [hy] using .refl _ _)
  obtain ⟨w', queued⟩ := Spilled.enqueue Config.indexBase ⟨slot, .free⟩ y
  rw [← hx] at granted
  have cleared := ((taken.trans granted).trans dropped).trans queued
  rw [hy, hx, List.append_nil, List.append_nil, List.append_nil] at cleared
  exact ⟨_, images, cleared, lines⟩

/-- A slot that no line's body names is in no line. -/
theorem State.lineOf_of_bodies {c : Nat} (h : ∀ i b, (s.line i).body = some b → b.slot ≠ c) : s.lineOf c = none := by
  cases hl : s.lineOf c with
  | none => rfl
  | some i =>
    obtain ⟨b, hb, hs⟩ := State.lineOf_some hl
    exact absurd hs (h i b hb)

/-- A line taken without a fill holds its slot; every other line what it held. -/
theorem State.takeLineFresh_body {u : Holder} {slot : Nat} {c : Contents} {i : Fin 8} {b : Cached}
    (h : ((s.takeLineFresh u slot c).line i).body = some b) : b.slot = slot ∨ (s.line i).body = some b := by
  have set : ∃ k : Fin 8, (s.takeLineFresh u slot c).store.lines =
      s.store.lines.set k.val ⟨some ⟨slot, true, c⟩, some u⟩ := by
    unfold State.takeLineFresh State.hold
    split
    · exact ⟨_, rfl⟩
    · exact ⟨_, congrArg (fun x : Vector Line 8 => x.set s.victim.val ⟨some ⟨slot, true, c⟩, some u⟩) (by simp)⟩
  obtain ⟨k, set⟩ := set
  rw [State.line_set set] at h
  split at h
  · cases h; exact .inl rfl
  · exact .inr h

theorem State.dropLine_body {slot : Nat} {i : Fin 8} {b : Cached} (h : ((s.dropLine slot).line i).body = some b) :
    (s.line i).body = some b := by
  unfold State.dropLine at h
  split at h
  next k _ =>
    rw [State.line_set (s := s) (i := k) (l := ⟨none, none⟩) rfl] at h
    split at h
    · cases h
    · exact h
  · exact h

/-- A slot in no line stays so while another is cleared, and a slot cleared is in no line. -/
theorem State.Ok.lineOf_clearSlot (h : s.Ok) (slot : Nat) {c : Nat} (hc : c = slot ∨ s.lineOf c = none) :
    (s.clearSlot slot).lineOf c = none := by
  have lines : (s.clearSlot slot).store.lines = ((s.takeLineFresh .command slot .free).dropLine slot).store.lines := by
    have granted (x : State) (d : Directory) : ((x.grants .command 1).withDirectory d).store.lines = x.store.lines :=
      State.grants_lines ..
    exact (State.enqueue_lines _ _).trans (State.dropLine_lines (granted _ _) slot)
  rw [State.lineOf_congr lines]
  have dropped := (h.takeLineFresh .command slot .free).lineOf_dropLine slot
  rcases hc with rfl | hc
  · exact dropped
  · refine State.lineOf_of_bodies fun i b hb e => ?_
    rcases State.takeLineFresh_body (State.dropLine_body hb) with own | before
    · exact State.lineOf_none dropped i b hb own
    · exact State.lineOf_none hc i b before e

/-- A slot in the state that ROUTE_CLEAR's first step gives it: in no line, and the free slot in memory once the queue
is written. -/
structure Freed (s : State) (c : Nat) : Prop where
  line : s.lineOf c = none
  bytes : s.settled.slotBytes c = Contents.free.image

theorem State.Ok.freed_clearSlot (h : s.Ok) {slot c : Nat} (hc : c < 8192) (before : c = slot ∨ Freed s c) :
    Freed (s.clearSlot slot) c := by
  refine ⟨h.lineOf_clearSlot slot (before.imp id Freed.line), ?_⟩
  obtain ⟨w, images, spilled, lines⟩ := Spilled.clearSlot s slot
  have wf := Memory.wf_writeQueued h.settled images
  have settled : (s.clearSlot slot).settled.slotBytes c =
      ((s.settled.writeQueued images).writeSlot slot .free).slotBytes c :=
    Memory.slotBytes_congr (fun x hx => by
      have below : x < Config.indexBase := Nat.lt_trans hx (by decide)
      rw [spilled.settled h.mem below, Memory.writeQueued_append, Memory.writeQueued_one]) hc
  rw [settled]
  by_cases own : c = slot
  · rw [own]; exact Memory.slotBytes_writeSlot wf slot .free
  · have freed := before.resolve_left own
    rw [Memory.slotBytes_writeSlot_apart wf own, Memory.slotBytes_writeQueued_apart h.settled, freed.bytes]
    intro q hq
    obtain ⟨i, hi⟩ := lines q hq
    exact State.lineOf_none freed.line i _ hi

theorem State.Ok.freed_clearSlots (h : s.Ok) {c : Nat} (hc : c < 8192) {slots : List Nat}
    (before : c ∈ slots ∨ Freed s c) : Freed (slots.foldl State.clearSlot s) c := by
  induction slots generalizing s with
  | nil => exact before.resolve_left List.not_mem_nil
  | cons slot slots ih =>
    refine ih (h.clearSlot slot) ?_
    by_cases later : c ∈ slots
    · exact .inl later
    · exact .inr (h.freed_clearSlot hc (before.imp (fun hm => (List.mem_cons.1 hm).resolve_right later) id))

/-! ### The accesses that clear the index (R34, R36) -/

/-- As many accesses as the index has entries empty the write queue. -/
theorem State.Ok.grants_indexEntries (h : s.Ok) : (s.grants .command Config.indexEntries).mem = s.settled ∧
    (s.grants .command Config.indexEntries).store.queue = [] := by
  have few : s.store.queue.length ≤ Config.indexEntries := Nat.le_trans h.store.queue (by decide)
  rw [State.grants_unit (unit := .command) rfl (by decide)]
  exact ⟨congrArg s.mem.writeQueued (List.take_of_length_le few), List.drop_of_length_le few⟩

/-! ### The EMPTY route (R140) -/

theorem Memory.readItem_writeItems (h : m.wf = true) {item : Seg → List Byte}
    (size : ∀ n : Seg, (item n).length = itemSize (5 + n.val)) {l : List Seg} {n : Seg}
    (hn : n ∈ l ∨ m.readItem (5 + n.val) = some (item n)) :
    (l.foldl (fun m n => m.writeItem (5 + n.val) (item n)) m).readItem (5 + n.val) = some (item n) := by
  induction l generalizing m with
  | nil => exact hn.resolve_left List.not_mem_nil
  | cons k l ih =>
    refine ih (Memory.wf_writeItem h _ _) ?_
    by_cases later : n ∈ l
    · exact .inl later
    · right
      rw [Memory.readItem_writeItem h (size k)]
      split
      next same => rw [Fin.ext (Nat.add_left_cancel same)]
      next apart =>
        refine hn.resolve_left fun hm => apart ?_
        rw [(List.mem_cons.1 hm).resolve_right later]

@[simp] theorem State.emptyRoute_kept_blocks (s : State) : s.emptyRoute.events = s.events ∧
    s.emptyRoute.ports = s.ports ∧ s.emptyRoute.power = s.power ∧ s.emptyRoute.pending = s.pending := by
  simp [State.emptyRoute, State.enterRouteState, State.writeStateBlock, State.setClock, State.writeCheckpoint,
    State.writeSegmentArea]

/-- The memory that a return to EMPTY leaves: the index cleared, and every item of the route area as an EMPTY route has
it. -/
theorem State.emptyRoute_mem (s : State) : s.emptyRoute.mem = ((((((List.finRange 64).foldl
    (fun m (n : Seg) => m.writeItem (5 + n.val) (segmentItem (Segments.reset.entries.get n)))
      s.mem.clearIndex).writeItem 3 (planItem [])).writeItem 1 (headerItem none)).writeItem 1
        (headerItem none)).writeItem 4 (wordBytes 0)).writeItem 2 (stateItem .empty none) := by
  have reset : Segments.reset.plan = [] ∧ Segments.reset.active = none := ⟨rfl, rfl⟩
  simp [State.emptyRoute, State.enterRouteState, State.writeStateBlock, State.setClock, State.writeCheckpoint,
    State.writeSegmentArea, State.segment, Memory.writeItemTwice, reset]

theorem Segments.reset_entry (n : Seg) : Segments.reset.entries.get n = Segment.reset := by
  unfold Segments.reset
  rw [Vector.get_eq_getElem, Vector.getElem_replicate]

/-- What is read of the route area after a return to EMPTY. -/
theorem State.Ok.emptyRoute_items (h : s.Ok) :
    s.emptyRoute.mem.readItem 2 = some [0x01, 0xFF] ∧ s.emptyRoute.mem.readItem 3 = some (planItem []) ∧
    s.emptyRoute.mem.readItem 4 = some [0, 0, 0, 0] ∧
    s.emptyRoute.mem.readItem 1 = some (0x00 :: List.replicate 32 0) ∧
    ∀ n : Seg, s.emptyRoute.mem.readItem (5 + n.val) = some (segmentItem Segment.reset) := by
  have cleared := Memory.wf_clearIndex h.mem
  have item (n : Seg) := Memory.readItem_writeItems cleared
    (item := fun n => segmentItem (Segments.reset.entries.get n)) (fun n => segmentItem_length _ n)
    (.inl (List.mem_finRange n))
  have wf := ((Memory.Kept.refl 0 s.mem.clearIndex).writeItems (Nat.zero_le _) (fun n => 5 + n.val)
    (fun n => segmentItem (Segments.reset.entries.get n)) (List.finRange 64)).wf cleared
  rw [State.emptyRoute_mem]
  generalize (List.finRange 64).foldl (fun m (n : Seg) =>
    m.writeItem (5 + n.val) (segmentItem (Segments.reset.entries.get n))) s.mem.clearIndex = m at item wf
  have plan := Memory.readItem_writeItem wf (planItem_length [])
  have wf := Memory.wf_writeItem wf 3 (planItem [])
  have header := Memory.readItem_writeItem wf (headerItem_length none)
  have wf := Memory.wf_writeItem wf 1 (headerItem none)
  have again := Memory.readItem_writeItem wf (headerItem_length none)
  have wf := Memory.wf_writeItem wf 1 (headerItem none)
  have clock := Memory.readItem_writeItem wf (i := 4) (c := wordBytes 0) rfl
  have wf := Memory.wf_writeItem wf 4 (wordBytes 0)
  have state := Memory.readItem_writeItem wf (stateItem_length .empty none)
  refine ⟨by rw [state]; rfl, ?_, ?_, ?_, fun n => ?_⟩
  · rw [state, clock, again, header, plan]; rfl
  · rw [state, clock]; rfl
  · rw [state, clock, again]; rfl
  · have apart : 5 + n.val ≠ 2 ∧ 5 + n.val ≠ 4 ∧ 5 + n.val ≠ 1 ∧ 5 + n.val ≠ 3 := by omega
    obtain ⟨two, four, one, three⟩ := apart
    rw [state, if_neg two, clock, if_neg four, again, if_neg one, header, if_neg one, plan, if_neg three, item,
      Segments.reset_entry]

/-- The slots, in no line and free in memory, are not what a return to EMPTY writes. -/
theorem State.Ok.emptyRoute_slot (h : s.Ok) {c : Nat} (hc : c < 8192) :
    s.emptyRoute.mem.slotBytes c = s.mem.slotBytes c ∧ s.emptyRoute.lineOf c = s.lineOf c := by
  have kept := s.emptyRoute_kept.reads (Memory.wf_clearIndex h.mem)
  refine ⟨Memory.slotBytes_congr (fun x hx => ?_) hc, State.lineOf_congr (by simp) c⟩
  rw [kept x (Nat.lt_trans hx (by decide)), Memory.clearIndex,
    Memory.read_clearRange_below _ _ x (Nat.lt_trans hx (by decide)) h.mem]

theorem execRouteClear_taken (hs : s.serving) (hr : s.route.state = .loading ∨ s.route.state = .closed)
    (he : s.depot.engine = .idle) : exec .routeClear s =
      .next ((((s.directory.map (·.1)).foldl State.clearSlot s).grants .command Config.indexEntries).emptyRoute.reply
        .ok (natHalf s.directory.length)) := by
  show execRouteClear s = _
  unfold execRouteClear
  have closed : ¬(s.route.state = .opened ∨ s.route.state = .empty) := by
    rcases hr with hr | hr <;> rw [hr] <;> decide
  rw [State.serve_of_serving hs, if_neg closed, if_neg (not_not.2 he)]
  dsimp only
  rw [List.length_map]

/-- Settles O55: every occupied slot is `Freed` by the first step, the accesses that clear the index settle the queue,
and the rest is what the EMPTY route is made of. -/
theorem clearingLeavesNothing : Obligations.ClearingLeavesNothing := by
  unfold Obligations.ClearingLeavesNothing
  intro s hs hok hr he
  obtain ⟨x, hx⟩ : ∃ x, x = (s.directory.map (·.1)).foldl State.clearSlot s := ⟨_, rfl⟩
  obtain ⟨y, hy⟩ : ∃ y, y = x.grants .command Config.indexEntries := ⟨_, rfl⟩
  have xOk : x.Ok := hx ▸ State.ok_foldl (fun _ slot h => State.Ok.clearSlot h slot) _ hok
  have yOk : y.Ok := hy ▸ xOk.grants ..
  have quiet : Quiet s y := by
    rw [hy, hx]
    exact (Quiet.foldl (fun _ slot h => Quiet.clearSlot h slot) _ (.refl s)).grants ..
  have blocks : y.tamper = s.tamper ∧ y.matching = s.matching ∧ y.events = s.events := by
    rw [hy, hx]
    simpa using State.clearSlots_frame (s.directory.map (·.1)) s
  obtain ⟨mem, queue⟩ := xOk.grants_indexEntries
  rw [← hy] at mem queue
  obtain ⟨tamper, matching, events⟩ := blocks
  obtain ⟨store, directory, tamper', matching', route, assessment, segments, depot⟩ := y.emptyRoute_frame
  obtain ⟨events', ports, power, -⟩ := y.emptyRoute_kept_blocks
  obtain ⟨state, plan, clock, header, items⟩ := yOk.emptyRoute_items
  have run := execRouteClear_taken hs hr he
  rw [← hx, ← hy] at run
  refine ⟨y.emptyRoute, run, directory, by rw [store], yOk.lookup_emptyRoute, by rw [matching', matching],
    by rw [tamper', tamper], segments, assessment, by rw [route, quiet.route], events'.trans events,
    ports.trans quiet.ports, depot.trans quiet.depot, power.trans quiet.power, by rw [store]; exact queue,
    fun slot d hd => ?_, state, plan, clock, header, items⟩
  have occupied : slot ∈ s.directory.map (·.1) := (Directory.get_isSome hok.directory.rising slot).1 (by rw [hd]; rfl)
  have inArea := hok.directory.inArea slot occupied
  have freed := hok.freed_clearSlots inArea (.inl occupied)
  rw [← hx] at freed
  obtain ⟨bytes, line⟩ := yOk.emptyRoute_slot inArea
  rw [bytes, line, mem, hy, State.lineOf_congr (x.grants_lines _ _)]
  exact ⟨freed.line, freed.bytes⟩

end Sys2Proof.Machine
end

