-- ==== Sys2Proof/Proofs/RouteAreaKept.lean ====
section
/-! PROOF. What work on records leaves in the segment unit and in the route area (R113, R135, R137): no segment made active, and
the clock's checkpoint as it was written. -/

namespace Sys2Proof.Machine

variable {s t : State} {m m' : Memory} {P : State → Prop} {v : List Byte}

/-! ### An item of the route area left alone (R135) -/

/-- A write leaves item `j`. -/
structure Memory.Spares (j : Nat) (m m' : Memory) : Prop where
  wf : m.wf = true → m'.wf = true
  item : m.wf = true → m'.readItem j = m.readItem j

theorem Memory.Spares.refl (j : Nat) (m : Memory) : m.Spares j m := ⟨id, fun _ => rfl⟩

theorem Memory.Spares.trans {j : Nat} {m1 m2 : Memory} (h : m.Spares j m1) (h1 : m1.Spares j m2) : m.Spares j m2 :=
  ⟨fun hm => h1.wf (h.wf hm), fun hm => (h1.item (h.wf hm)).trans (h.item hm)⟩

theorem Memory.Spares.writeItem {i j : Nat} (hj : j ≠ i) {c : List Byte} (hc : c.length = itemSize i) (m : Memory) :
    m.Spares j (m.writeItem i c) :=
  ⟨fun hm => Memory.wf_writeItem hm i c, fun hm => by rw [Memory.readItem_writeItem hm hc, if_neg hj]⟩

/-- Memory that reads as before in the route area has its items. -/
theorem Memory.readItem_past (h : ∀ x, Config.routeBase ≤ x → m'.read x = m.read x) (j : Nat) :
    m'.readItem j = m.readItem j :=
  Memory.readItem_congr j fun b => by
    refine eq_of_byteAt (by simp [Memory.copyBytes]) fun k hk => ?_
    rw [Memory.copyBytes, Memory.copyBytes, Memory.readBytes_getD, Memory.readBytes_getD,
      h _ (by unfold copyAddress; omega)]

theorem Memory.Spares.writeBytes {n : Nat} {bs : List Byte} (h : n + bs.length ≤ Config.routeBase) (j : Nat)
    (m : Memory) : m.Spares j (m.writeBytes n bs) :=
  ⟨fun hm => Memory.wf_writeBytes hm n bs, fun hm => Memory.readItem_past (fun x hx => by
    rw [Memory.read_writeBytes hm, if_neg (by omega)]) j⟩

theorem Memory.Spares.writeQueued {images : List Queued} (h : ∀ q ∈ images, q.slot < 8192) (j : Nat) (m : Memory) :
    m.Spares j (m.writeQueued images) :=
  ⟨fun hm => Memory.wf_writeQueued hm images, fun hm => Memory.readItem_past (fun _ hx =>
    Memory.writeQueued_past hm h (Nat.le_trans (by decide) hx)) j⟩

/-! ### What the segment unit's work keeps -/

/-- `P` is kept by the changes that the segment unit makes: its tables, with the active number as it was or none, its
items and the route state's in the route area, and events raised. -/
structure KeptBySegments (P : State → Prop) : Prop where
  segments : ∀ s x, x.active = s.segments.active ∨ x.active = none → P s → P (s.withSegments x)
  item : ∀ s i c, i = 2 ∨ i = 3 ∨ 5 ≤ i → c.length = itemSize i → P s → P (s.withMem (s.mem.writeItem i c))
  raise : ∀ s e, P s → P (s.raise e)

namespace KeptBySegments

variable (k : KeptBySegments P)
include k

theorem putSegment (h : P s) (n : Seg) (e : Segment) : P (s.putSegment n e) := by
  have tables := k.segments s { s.segments with entries := s.segments.entries.set n.val e } (.inl rfl) h
  unfold State.putSegment
  dsimp only
  split
  · exact tables
  · exact k.item _ _ _ (.inr (.inr (by omega))) (segmentItem_length e n) tables

theorem putPlan (h : P s) (plan : List Seg) : P (s.putPlan plan) := by
  unfold State.putPlan
  split
  · exact h
  · exact k.item _ 3 _ (.inr (.inl rfl)) (planItem_length plan) (k.segments s _ (.inl rfl) h)

theorem putActive_none (h : P s) : P (s.putActive none) := by
  unfold State.putActive
  split
  · exact h
  · exact k.item _ 2 _ (.inl rfl) (stateItem_length _ _) (k.segments s _ (.inr rfl) h)

theorem setDwell (h : P s) (target : Option Nat) : P (s.setDwell target) := k.segments s _ (.inl rfl) h

theorem countAt (h : P s) (p : Option Place) (f : Nat → Nat) : P (s.countAt p f) := by
  unfold State.countAt
  split
  · exact k.putSegment h _ _
  · exact h

theorem complete (h : P s) (n : Seg) : P (s.complete n) := by
  have done := k.putPlan (k.putSegment h n { s.segment n with state := .complete }) (planWithout s.segments.plan n)
  unfold State.complete
  split
  · exact h
  split
  · exact h
  refine k.raise _ _ ?_
  dsimp only
  split
  · exact k.setDwell (k.putActive_none done) none
  · exact done

theorem reopen (h : P s) (n : Seg) : P (s.reopen n) := by
  unfold State.reopen
  split
  · split
    · exact k.putPlan (k.putSegment h n _) _
    · exact k.putSegment h n _
    · exact h
  · exact h

theorem judge (h : P s) (n : Option Seg) (before : Nat) : P (s.judge n before) := by
  unfold State.judge
  split
  · exact h
  · split
    · exact k.complete h _
    · split
      · exact k.reopen h _
      · exact h

theorem report (h : P s) (old new : Option Place) : P (s.report old new) := by
  have counted := k.countAt (k.countAt h old (· - 1)) new (· + 1)
  unfold State.report
  dsimp only
  split
  · exact counted
  · exact k.judge (k.judge counted _ _) _ _

theorem settleLeft (h : P s) (n : Seg) : P (s.settleLeft n) := by
  unfold State.settleLeft
  refine k.setDwell (k.putActive_none ?_) none
  dsimp only
  split
  · exact k.raise _ _ (k.putPlan (k.putSegment h n _) _)
  · split
    · exact k.putPlan (k.putSegment h n _) _
    · exact k.putPlan (k.putSegment h n _) _

theorem closeSettle (h : P s) (n : Seg) : P (s.closeSettle n) := by
  unfold State.closeSettle
  dsimp only
  split
  · split
    · exact k.raise _ _ (k.putSegment h n _)
    · exact k.putSegment h n _
  · exact h

end KeptBySegments

/-- The segment unit's work leaves the checkpoint. -/
theorem Memory.Spares.kept (m : Memory) : KeptBySegments fun t => m.Spares 4 t.mem where
  segments _ _ _ h := h
  item _ i _ hi hc h := h.trans (.writeItem (by omega) hc _)
  raise _ _ h := h

/-! ### No segment active -/

/-- No segment is active. -/
def State.Inactive (s : State) : Prop := s.segments.active = none

theorem State.Inactive.kept : KeptBySegments State.Inactive where
  segments _ _ hx h := hx.elim (fun e => e.trans h) id
  item _ _ _ _ _ h := h
  raise _ _ h := h

theorem State.Inactive.of (h : s.Inactive) (ht : t.segments = s.segments) : t.Inactive :=
  (congrArg Segments.active ht).trans h

theorem State.Inactive.becomeFault (h : s.Inactive) (slot : Nat) : (s.becomeFault slot).Inactive := by
  unfold State.becomeFault
  split
  · exact h
  · exact State.Inactive.kept.raise _ _ (State.Inactive.kept.report (h.of (by simp)) _ _)

theorem State.Inactive.takeLine (h : s.Inactive) (u : Holder) (slot : Nat) : (s.takeLine u slot).1.Inactive := by
  unfold State.takeLine
  split
  · exact h
  · dsimp only
    split
    · exact h.of (by simp)
    · split
      · exact h.of (by simp [State.grant])
      · exact State.Inactive.becomeFault (h.of (by simp [State.grant])) slot

theorem State.Inactive.putRecord (h : s.Inactive) (slot : Nat) (r : Record) : (s.putRecord slot r).Inactive := by
  have put : (s.putContents slot (.live r)).Inactive := h.of (by simp)
  unfold State.putRecord State.fileRecord
  split
  · exact put
  · refine State.Inactive.kept.report (put.of ?_) _ _
    simp

theorem State.Inactive.letGo (h : s.Inactive) (slot : Nat) : (s.letGo slot).Inactive := h.of (by simp)

theorem State.Inactive.flaggedReport (h : s.Inactive) (slot : Nat) (r : Record) : (s.flaggedReport slot r).Inactive :=
  h.of (by simp [State.flaggedReport])

/-- A walk's visit makes no segment active. -/
theorem State.Inactive.settleSlot (u : Holder) (slot : Nat) {x : State × WalkCounts} (h : x.1.Inactive) :
    (State.settleSlot u slot x).1.Inactive := by
  have taken := h.takeLine u slot
  unfold State.settleSlot
  dsimp only
  split
  · exact taken.letGo slot
  · split
    · split
      · exact (taken.putRecord slot _).letGo slot
      · exact ((taken.putRecord slot _).flaggedReport slot _).letGo slot
      · exact taken.letGo slot
    · exact taken.letGo slot

theorem State.Inactive.settleSlots (u : Holder) (slots : List Nat) {x : State × WalkCounts} (h : x.1.Inactive) :
    (slots.foldl (fun x slot => State.settleSlot u slot x) x).1.Inactive := by
  induction slots generalizing x with
  | nil => exact h
  | cons slot slots ih => exact ih (State.Inactive.settleSlot u slot h)

theorem State.putActive_inactive (s : State) : (s.putActive none).Inactive := by
  unfold State.putActive
  split
  next same => exact same.symm
  · rfl

/-- A segment left is active no longer. -/
theorem State.settleLeft_inactive (s : State) (n : Seg) : (s.settleLeft n).Inactive :=
  State.Inactive.kept.setDwell (State.putActive_inactive _) none

/-! ### The checkpoint while records are worked on (R137) -/

/-- A fine state whose memory reads a value as the clock's checkpoint. -/
structure Checked (v : List Byte) (s : State) : Prop where
  fine : s.Fine
  item : s.mem.readItem 4 = some v

theorem Checked.of (h : Checked v s) (ht : t.Fine) (hm : s.mem.Spares 4 t.mem) : Checked v t :=
  ⟨ht, (hm.item h.fine.ok.mem).trans h.item⟩

theorem Checked.of_mem (h : Checked v s) (ht : t.Fine) (hm : t.mem = s.mem) : Checked v t :=
  ⟨ht, by rw [hm]; exact h.item⟩

theorem Memory.Spares.report (s : State) (old new : Option Place) : s.mem.Spares 4 (s.report old new).mem :=
  (Memory.Spares.kept s.mem).report (Memory.Spares.refl 4 s.mem) old new

/-- Images that leave the queue go to slots. -/
theorem Checked.written (h : Checked v s) (ht : t.Fine) {written : List Queued} (hw : ∀ q ∈ written, q ∈ s.store.queue)
    (hm : t.mem = s.mem.writeQueued written) : Checked v t :=
  h.of ht (by rw [hm]; exact .writeQueued (fun q hq => (h.fine.sound.queue q (hw q hq)).1) 4 _)

theorem Checked.grants (h : Checked v s) (u : Holder) (n : Nat) : Checked v (s.grants u n) := by
  cases hu : u.requester with
  | none =>
    have same : s.grants u n = s := by unfold State.grants; rw [hu]
    rw [same]
    exact h
  | some unit =>
    rcases Nat.eq_zero_or_pos n with rfl | hn
    · exact h.of_mem (h.fine.grants u 0) (by unfold State.grants; rw [hu]; rfl)
    · exact h.written (h.fine.grants u n) (fun q hq => List.mem_of_mem_take hq) (by rw [State.grants_unit hu hn])

theorem Checked.evict (h : Checked v s) (i : Fin 8) : Checked v (s.evict i) := by
  cases dirty : (s.line i).body.any (·.dirty) with
  | false =>
    rw [State.evict_clean fun b hb => by rw [hb] at dirty; exact dirty]
    exact h
  | true =>
    obtain ⟨b, hb, hd⟩ := (Option.any_eq_true _ _).1 dirty
    have fine := h.fine.evict i
    rw [State.evict_dirty hb hd] at fine ⊢
    obtain ⟨written, mem, queue⟩ := State.enqueue_written ⟨b.slot, b.contents⟩ s
    refine h.of fine (mem ▸ .writeQueued (fun q hq => ?_) 4 _)
    have joined := queue ▸ List.mem_append_left _ hq
    rcases List.mem_append.1 joined with waits | own
    · exact (h.fine.sound.queue q waits).1
    · rw [List.mem_singleton.1 own]
      exact h.fine.sound.dirty i b hb hd

theorem Checked.letGo (h : Checked v s) (slot : Nat) : Checked v (s.letGo slot) :=
  h.of_mem (h.fine.letGo slot) (by simp)

theorem Memory.Spares.becomeFault (s : State) (slot : Nat) : s.mem.Spares 4 (s.becomeFault slot).mem := by
  unfold State.becomeFault
  split
  · exact .refl _ _
  · refine (Memory.Spares.kept s.mem).raise _ _ ((Memory.Spares.kept s.mem).report ?_ _ _)
    simpa using Memory.Spares.refl 4 s.mem

theorem Checked.takeLine (h : Checked v s) (u : Holder) (slot : Nat) : Checked v (s.takeLine u slot).1 := by
  have fine := h.fine.takeLine u slot
  have evicted := h.evict s.victim
  have read := evicted.grants u 1
  cases held : s.lineOf slot with
  | some i =>
    rw [State.takeLine_held u held] at fine ⊢
    exact h.of_mem fine rfl
  | none =>
    cases waits : (s.evict s.victim).queued slot with
    | some c =>
      rw [State.takeLine_queued u held waits] at fine ⊢
      exact evicted.of_mem fine rfl
    | none =>
      cases good : checkHolds 64 ((s.evict s.victim).mem.slotBytes slot) with
      | true =>
        rw [State.takeLine_read u held waits good] at fine ⊢
        exact read.of_mem fine rfl
      | false =>
        rw [State.takeLine_failed u held waits good] at fine ⊢
        have faulted := Memory.Spares.becomeFault
          (((s.evict s.victim).grant u).hold u s.victim (some ⟨slot, false, .free⟩)) slot
        exact read.of fine faulted

theorem Checked.putRecord (h : Checked v s) {slot : Nat} (hs : slot < 8192) {r : Record} (hr : r.Sound) :
    Checked v (s.putRecord slot r) := by
  refine h.of (h.fine.putRecord hs hr) ?_
  have put : s.mem.Spares 4 (s.putContents slot (.live r)).mem := by simpa using Memory.Spares.refl 4 s.mem
  unfold State.putRecord State.fileRecord
  split
  · exact put
  · refine (Memory.Spares.kept s.mem).report ?_ _ _
    simpa using put

theorem Checked.flaggedReport (h : Checked v s) (slot : Nat) (r : Record) : Checked v (s.flaggedReport slot r) :=
  h.of_mem (h.fine.still (h.fine.ok.flaggedReport _ _) ((Still.refl _).flaggedReport _ _))
    (by simp [State.flaggedReport])

/-! ### The checkpoint during the walks of a close -/

theorem Checked.settleSlot (u : Holder) {slot : Nat} (hs : slot < 8192) {x : State × WalkCounts} (h : Checked v x.1) :
    Checked v (State.settleSlot u slot x).1 := by
  have taken := h.takeLine u slot
  unfold State.settleSlot
  dsimp only
  split
  · exact taken.letGo slot
  · split
    next r hr =>
      have sound := taken.fine.sound.cached hs r hr
      split
      next pending => exact (taken.putRecord hs (sound.missed pending)).letGo slot
      next held =>
        exact ((taken.putRecord hs (sound.flagUnconfirmed held _)).flaggedReport slot _).letGo slot
      · exact taken.letGo slot
    · exact taken.letGo slot

theorem Checked.settleSlots (u : Holder) {slots : List Nat} (hs : ∀ n ∈ slots, n < 8192) {x : State × WalkCounts}
    (h : Checked v x.1) : Checked v (slots.foldl (fun x slot => State.settleSlot u slot x) x).1 := by
  induction slots generalizing x with
  | nil => exact h
  | cons slot slots ih =>
    exact ih (fun n hn => hs n (List.mem_cons_of_mem _ hn)) (.settleSlot u (hs slot List.mem_cons_self) h)

theorem Checked.routePass (h : Checked v s) : Checked v s.routePass.1 :=
  .settleSlots .command h.fine.ok.directory.inArea h

theorem Checked.leave (h : Checked v s) (u : Holder) (n : Seg) : Checked v (s.leave u n).1 := by
  have started : Checked v (s.withSegments { s.segments with leaving := some n }) :=
    h.of_mem (h.fine.withSegments ⟨h.fine.ok.segments.redrives, h.fine.ok.segments.plan⟩) rfl
  have walked := Checked.settleSlots u (slots := s.slotsOf n) (h.fine.ok.directory.slots_lt _)
    (x := (s.withSegments { s.segments with leaving := some n }, WalkCounts.none)) started
  have ended : Checked v (s.leaveWalk u n).1 := walked.of_mem (h.fine.leaveWalk u n) rfl
  exact ended.of (h.fine.leave u n) ((Memory.Spares.kept _).settleLeft (.refl _ _) n)

/-! ### The checkpoint while the frame in hand is finished -/

/-- A block's write, followed by the access that makes it. -/
theorem Memory.Spares.block {n : Nat} (hn : n < 4096) {bs : List Byte} (hb : bs.length ≤ 32) (m : Memory) :
    m.Spares 4 (m.writeBytes (blockAddress n) bs) := by
  refine .writeBytes ?_ 4 m
  have bases : Config.extensionBase = 0x80000 ∧ Config.routeBase = 0xC0000 := ⟨rfl, rfl⟩
  unfold blockAddress
  omega

theorem Checked.writeIntervals (h : Checked v s) (u : Holder) {blocks : List Nat} (hb : ∀ b ∈ blocks, b < 4096)
    (values : List Half) : Checked v (State.writeIntervals u blocks values s) := by
  induction blocks generalizing s values with
  | nil => exact h
  | cons b blocks ih =>
    refine ih ?_ (fun n hn => hb n (List.mem_cons_of_mem _ hn)) _
    refine Checked.grants (h.of (h.fine.still (h.fine.ok.withMem (Memory.wf_writeBlock h.fine.ok.mem _ _))
      ((Still.refl s).withMem fun _ hm => hm.writeBlock _ _)) (.block (hb b List.mem_cons_self) ?_ _)) u 1
    exact Nat.le_of_eq (Block.image_length _ (List.length_take_le ..))

theorem Checked.relink (h : Checked v s) (u : Holder) {n : Nat} (hn : n < 4096) (next : Half) :
    Checked v (s.relink u n next) := by
  have block : s.mem.Spares 4 (s.mem.relinkBlock n next) := by
    unfold Memory.relinkBlock
    exact .block hn (by simp [withCheck]) _
  have fine : (s.withMem (s.mem.relinkBlock n next)).Fine :=
    h.fine.still (h.fine.ok.withMem (Memory.wf_relinkBlock h.fine.ok.mem n next))
      ((Still.refl s).withMem fun _ hm => hm.relinkBlock _ _)
  have written : Checked v (s.withMem (s.mem.relinkBlock n next)) := h.of fine (by rw [State.withMem_mem]; exact block)
  exact written.grants u 1

theorem Checked.storeIntervals (h : Checked v s) (u : Holder) {slot : Nat} (hs : slot < 8192) (values : List Half)
    {r : Record} (hr : r.Sound) : Checked v (s.storeIntervals u slot values r) := by
  have inPool (p : Nat × BlockKind → Bool) : ∀ b ∈ (s.chain slot).filter p, b.1 < 4096 := fun b hb =>
    h.fine.ok.chain_lt slot b (List.mem_of_mem_filter hb)
  have filled := h.writeIntervals u (blocks := ((s.chain slot).filter fun b => b.2 == .interval).map (·.1))
    (fun n hn => by obtain ⟨b, hb, rfl⟩ := List.mem_map.1 hn; exact inPool _ b hb) values
  have raised (x : State) (hx : Checked v x) (c : Prop) [Decidable c] :
      Checked v (if c then x.raise .poolEmpty else x) := by
    split
    · exact hx.of_mem (hx.fine.still (hx.fine.ok.raise _) ((Still.refl x).raise _)) rfl
    · exact hx
  unfold State.storeIntervals
  dsimp only
  refine raised _ (Checked.putRecord ?_ hs (hr.chained _ _)) _
  split
  · exact filled
  next n rest notes =>
    exact filled.relink u (inPool (fun b => b.2 == .note) n (by rw [notes]; exact List.mem_cons_self)) _

theorem Checked.endFrame (h : Checked v s) (f : Frame) (slot : Nat) (applied duplicate : Bool) :
    Checked v (s.endFrame f slot applied duplicate) :=
  h.of_mem (h.fine.endFrame f slot applied duplicate) (by
    unfold State.endFrame
    dsimp only
    split
    · simp [State.noteReading]
    · simp)

theorem Checked.replaceOn (h : Checked v s) (f : Frame) {slot : Nat} (hs : slot < 8192) {r : Record} (hr : r.Sound)
    (n : Nat) : Checked v (State.replaceOn false f slot r n s) :=
  State.replaceOn_keeps (P := Checked v) (fun _ _ h => h.of_mem (h.fine.withDraws _) rfl)
    (fun _ h => h.of_mem (h.fine.sameBuffer rfl) rfl)
    (fun _ _ hb h => h.of_mem (h.fine.chainBlock slot hb) (by simp [State.chainBlock, State.useBlock]))
    (fun _ h => (h.storeIntervals .matching hs f.intervals hr).endFrame f slot true false) h false n

theorem Checked.applyFrame (h : Checked v s) (f : Frame) {slot : Nat} (hs : slot < 8192) {r : Record} (hr : r.Sound) :
    Checked v (s.applyFrame false f slot r) := by
  unfold State.applyFrame
  dsimp only
  have sound := hr.matchFrame s.params (s.assessment.getD Assessment.blank) (s.matchEntry f.serial) f
  generalize r.matchFrame s.params (s.assessment.getD Assessment.blank) (s.matchEntry f.serial) f = m at sound
  have put := h.putRecord hs sound
  have reported : Checked v ((s.putRecord slot m.record).reportFrame slot r m.record) := put.of_mem
    (put.fine.still (put.fine.ok.reportFrame slot r m.record) ((Still.refl _).reportFrame slot r m.record)) (by simp)
  split
  · have freed := reported.of_mem (reported.fine.freeIntervals slot) (by simp [State.freeIntervals])
    exact freed.replaceOn f hs sound _
  · exact reported.endFrame ..

theorem Checked.workFrame (h : Checked v s) (f : Frame) {slot : Nat} (hs : slot < 8192) :
    Checked v (s.workFrame false f slot) := by
  have fine := h.fine.workFrame false f hs
  unfold State.workFrame at fine ⊢
  split
  next r hr => exact h.applyFrame f hs (h.fine.sound.cached hs r hr)
  next apart => exact h.of_mem (h.fine.countFaultHit slot) (by simp [State.countFaultHit])

theorem Checked.goOnReplacing (h : Checked v s) (f : Frame) (slot : Nat) :
    Checked v (s.goOnReplacing false f slot) := by
  unfold State.goOnReplacing
  dsimp only
  split
  next r hc hr =>
    have hs := State.carries_lt h.fine.ok hc
    exact h.replaceOn f hs (h.fine.sound.cached hs r hr) _
  · exact h.endFrame ..

theorem Checked.resolveByIndex (h : Checked v s) (serial : Word) : Checked v (s.resolveByIndex serial).2 := by
  have fine := h.fine.resolveByIndex serial
  have granted := h.grants .matching (s.mem.lookupAccesses serial)
  unfold State.resolveByIndex at fine ⊢
  dsimp only at fine ⊢
  split at fine
  · exact granted.of_mem fine (by simp [State.keepEntry])
  · exact granted

theorem Checked.countStranger (h : Checked v s) : Checked v s.countStranger := h.of_mem h.fine.countStranger rfl

theorem Checked.finishFrame (h : Checked v s) : Checked v s.finishFrame := by
  unfold State.finishFrame State.matchOn
  split
  · exact h
  · exact h.goOnReplacing _ _
  next f slot _ =>
    have taken := h.takeLine .matching slot
    dsimp only
    split
    next hc => exact taken.workFrame f (State.carries_lt taken.fine.ok hc)
    · have sought := (taken.letGo slot).resolveByIndex f.serial
      split
      next looked => rw [looked] at sought; exact Checked.countStranger sought
      next again _ looked =>
        rw [looked] at sought
        have found := Checked.takeLine sought .matching again
        split
        next hc => exact found.workFrame f (State.carries_lt found.fine.ok hc)
        · exact (found.letGo again).countStranger

end Sys2Proof.Machine
end

