-- ==== Sys2Proof/Proofs/Closing.lean ====
section
/-! PROOF. ROUTE_CLOSE (R128, R139): the visits of its walks, the segments settled, and the cache written back. -/

namespace Sys2Proof.Machine

variable {s t q : State} {m m' : Memory}

/-! ### A walk's visit (R121) -/

/-- A record just visited is PENDING or HELD no longer. -/
theorem State.settleSlot_settled {u : Holder} {slot : Nat} {x : State × WalkCounts} {r : Record}
    (h : (State.settleSlot u slot x).1.cached slot = .live r) : r.status ≠ .pending ∧ r.status ≠ .held := by
  obtain ⟨s, w⟩ := x
  rcases State.takeLine_cases u slot s with ⟨good, -⟩ | ⟨d, -, failed, -, serial, fault⟩
  · have taken : ∀ {r}, (s.takeLine u slot).1.cached slot = .live r → ∃ i, (s.takeLine u slot).1.lineOf slot = some i :=
      fun hc => State.lineOf_of_cached (by rw [hc]; exact fun e => by cases e)
    cases hc : (s.takeLine u slot).1.cached slot with
    | free =>
      unfold State.settleSlot at h
      dsimp only at h
      rw [if_neg (by simp [good]), hc, State.letGo_cached, hc] at h
      cases h
    | fault serial n =>
      rw [State.settleSlot_of_fault w good hc, State.letGo_cached, hc] at h
      cases h
    | live old =>
      obtain ⟨i, line⟩ := taken hc
      by_cases pending : old.status = .pending
      · rw [State.settleSlot_of_pending w good hc pending, State.letGo_cached, (State.putRecord_line _ line).2] at h
        cases h
        exact ⟨by simp, by simp⟩
      by_cases held : old.status = .held
      · rw [State.settleSlot_of_held w good hc held, State.letGo_cached] at h
        obtain ⟨flagged, hr⟩ : ∃ x : Record, old.flagUnconfirmed (s.takeLine u slot).1.route.clock = x := ⟨_, rfl⟩
        rw [hr] at h
        rw [State.cached_congr (s := (s.takeLine u slot).1.putRecord slot flagged) (by simp [State.flaggedReport]),
          (State.putRecord_line _ line).2] at h
        cases h
        have status : r.status = .flagged := by rw [← hr]; rfl
        exact ⟨by simp [status], by simp [status]⟩
      · rw [State.settleSlot_of_other w good hc pending held, State.letGo_cached, hc] at h
        cases h
        exact ⟨pending, held⟩
  · rw [State.settleSlot_of_failure w failed, State.letGo_cached, fault] at h
    cases h

/-! ### Segments settled at a close (R128, R139) -/

/-- A segment's entry as a close leaves it. -/
def Segment.closed (e : Segment) : Segment :=
  if e.state = .unvisited ∨ e.state = .redrive then
    { e with state := if e.outstanding = 0 then .complete else .abandoned }
  else e

theorem Segment.closed_state (e : Segment) : e.closed.state ≠ .unvisited ∧ e.closed.state ≠ .redrive := by
  unfold Segment.closed
  split
  · dsimp only; split <;> exact ⟨by simp, by simp⟩
  next h => exact not_or.1 h

theorem State.putSegment_item (hm : s.mem.wf = true) (n : Seg) (e : Segment) (j : Nat) :
    (s.putSegment n e).mem.readItem j =
      if j = 5 + n.val ∧ segmentItem e ≠ segmentItem (s.segment n) then some (segmentItem e) else s.mem.readItem j := by
  unfold State.putSegment
  dsimp only
  split
  next same => rw [if_neg (fun h => h.2 same)]; rfl
  next changed =>
    rw [State.withMem_mem, Memory.readItem_writeItem hm (segmentItem_length e n)]
    simp [changed]

theorem State.putPlan_item (hm : s.mem.wf = true) (plan : List Seg) (j : Nat) : (s.putPlan plan).mem.readItem j =
    if j = 3 ∧ plan ≠ s.segments.plan then some (planItem plan) else s.mem.readItem j := by
  unfold State.putPlan
  split
  next same => rw [if_neg (fun h => h.2 same)]
  next changed =>
    rw [State.withMem_mem, Memory.readItem_writeItem hm (planItem_length plan)]
    simp [changed]

/-- A segment's entry that stays is written nowhere. -/
theorem State.putSegment_self (s : State) (n : Seg) : (s.putSegment n (s.segment n)).mem = s.mem ∧
    (s.putSegment n (s.segment n)).segments = s.segments := by
  have same : s.segments.entries.set n.val (s.segment n) = s.segments.entries := Vector.set_getElem_self _
  refine ⟨?_, ?_⟩
  · unfold State.putSegment
    dsimp only
    rw [if_pos rfl]
    rfl
  · rw [(State.putSegment_fields n _ s).1, same]

/-- The settling of a segment is a change of its entry. -/
theorem State.closeSettle_eq (n : Seg) : (s.closeSettle n).mem = (s.putSegment n (s.segment n).closed).mem ∧
    (s.closeSettle n).segments = (s.putSegment n (s.segment n).closed).segments := by
  unfold State.closeSettle Segment.closed
  dsimp only
  split
  · split <;> exact ⟨rfl, rfl⟩
  · exact ⟨(s.putSegment_self n).1.symm, (s.putSegment_self n).2.symm⟩

theorem Told.closeSettle (s : State) (n : Seg) : Told s (s.closeSettle n) := by
  unfold State.closeSettle
  dsimp only
  split
  · split
    · exact (Told.putSegment s n _).trans (Told.raise _ _)
    · exact Told.putSegment s n _
  · exact .refl s

/-- From `s` to `t` a row of segments has been settled, each once: what else a settling may change is the events, and in
memory the items of the segments that change. -/
structure Settled (s t : State) (row : List Seg) : Prop where
  told : Told s t
  plan : t.segments.plan = s.segments.plan
  segment : ∀ n, t.segment n = if n ∈ row then (s.segment n).closed else s.segment n
  item : s.mem.wf = true → ∀ j, j < 5 → t.mem.readItem j = s.mem.readItem j
  segmentItem : s.mem.wf = true → ∀ n : Seg, t.mem.readItem (5 + n.val) =
    if segmentItem (t.segment n) = segmentItem (s.segment n) then s.mem.readItem (5 + n.val)
    else some (segmentItem (t.segment n))

theorem Settled.closeSettle (s : State) (n : Seg) : Settled s (s.closeSettle n) [n] := by
  obtain ⟨mem, segments⟩ := s.closeSettle_eq n
  have segment (k : Seg) : (s.closeSettle n).segment k = if k = n then (s.segment n).closed else s.segment k := by
    rw [← State.putSegment_segment]
    exact congrArg (fun x : Segments => x.entries.get k) segments
  refine ⟨.closeSettle s n, by rw [segments, (State.putSegment_fields n _ s).1], fun k => ?_, fun hm j hj => ?_,
    fun hm k => ?_⟩
  · rw [segment]
    simp only [List.mem_singleton]
    split
    next same => rw [same]
    · rfl
  · rw [mem, State.putSegment_item hm, if_neg (by omega)]
  · rw [mem, State.putSegment_item hm, segment]
    by_cases same : k = n
    · subst same; simp only [if_true, true_and]; split <;> simp_all
    · have apart : 5 + k.val ≠ 5 + n.val := fun e => same (Fin.ext (by omega))
      rw [if_neg (fun h => apart h.1), if_neg same, if_pos rfl]

/-- The settling of every segment of a row without repetition. -/
theorem Settled.foldl {row : List Seg} (hn : row.Nodup) (s : State) :
    Settled s (row.foldl State.closeSettle s) row := by
  induction row generalizing s with
  | nil => exact ⟨.refl s, rfl, fun n => by simp, fun _ _ _ => rfl, fun _ _ => (if_pos rfl).symm⟩
  | cons n row ih =>
    rw [List.nodup_cons] at hn
    have first := Settled.closeSettle s n
    have others := ih hn.2 (s.closeSettle n)
    rw [List.foldl_cons]
    generalize row.foldl State.closeSettle (s.closeSettle n) = t at others
    generalize s.closeSettle n = x at first others
    refine ⟨first.told.trans others.told, others.plan.trans first.plan, fun k => ?_, fun hm j hj => ?_, fun hm k => ?_⟩
    · have one := first.segment k
      have rest := others.segment k
      by_cases own : k = n
      · subst own; rw [if_neg hn.1] at rest; rw [rest, one]; simp
      · rw [if_neg (by simpa using own)] at one
        rw [rest, one]; simp [own]
    · rw [others.item (first.told.mem.wf hm) j hj, first.item hm j hj]
    · have one := first.segmentItem hm k
      have rest := others.segmentItem (first.told.mem.wf hm) k
      by_cases own : k = n
      · have same : t.segment k = x.segment k := by rw [others.segment, if_neg (by rw [own]; exact hn.1)]
        rw [if_pos (by rw [same])] at rest
        rw [rest, one, same]
      · have same : x.segment k = s.segment k := by rw [first.segment, if_neg (by simpa using own)]
        rw [if_pos (by rw [same])] at one
        rw [rest, one, same]

/-! ### The cache written back and the route CLOSED (R139, R42) -/

/-- What the end of a close leaves, from the state `q` that its route-wide pass has left. -/
structure Closed (q u : State) : Prop where
  same : u = { q with
    mem := u.mem
    segments := u.segments
    events := u.events
    store := { q.store with lines := u.store.lines, recency := u.store.recency, queue := [] }
    command := { q.command with unit := u.command.unit }
    route := { q.route with state := .closed } }
  segment : ∀ n, u.segment n = (q.segment n).closed
  plan : u.segments.plan = []
  active : q.Inactive → u.Inactive
  line : ∀ i, u.line i = (q.line i).cleaned
  reads : q.mem.wf = true → ∀ x, x < Config.routeBase →
    u.mem.read x = (q.mem.writeQueued (q.store.queue ++ q.dirtyImages)).read x
  state : q.mem.wf = true → q.Inactive → u.mem.readItem 2 = some [0x04, 0xFF]
  checkpoint : q.Fine → u.mem.readItem 4 = q.mem.readItem 4
  planItem : q.Fine → u.mem.readItem 3 = if q.segments.plan = [] then q.mem.readItem 3 else some (planItem [])
  segmentItem : q.Fine → ∀ n : Seg, u.mem.readItem (5 + n.val) =
    if segmentItem (u.segment n) = segmentItem (q.segment n) then q.mem.readItem (5 + n.val)
    else some (segmentItem (u.segment n))

/-- The third and fourth steps of a close (R139): the segments settled, and the cache written back. -/
def State.closeWritten (q : State) : State := (((List.finRange 64).foldl State.closeSettle q).putPlan []).writeBack

/-- The end of a close (R139, from its third step on). -/
def State.closeRest (q : State) : State := q.closeWritten.enterRouteState .closed

/-- What waits to be written, in the queue or in a DIRTY line, names slots that there are. -/
theorem State.Fine.images_lt (h : q.Fine) : ∀ x ∈ q.store.queue ++ q.dirtyImages, x.slot < 8192 := by
  intro x hx
  rcases List.mem_append.1 hx with waits | dirty
  · exact (h.sound.queue x waits).1
  · rw [State.dirtyImages_eq] at dirty
    obtain ⟨i, -, hi⟩ := List.mem_filterMap.1 dirty
    obtain ⟨b, hb, image⟩ := Option.bind_eq_some_iff.1 hi
    split at image
    next hd => cases image; exact h.sound.dirty i b hb hd
    · cases image

theorem KeptBySegments.closeSettles {P : State → Prop} (k : KeptBySegments P) (h : P s) (row : List Seg) :
    P (row.foldl State.closeSettle s) := by
  induction row generalizing s with
  | nil => exact h
  | cons n row ih => exact ih (k.closeSettle h n)

theorem State.putPlan_plan (plan : List Seg) (s : State) : (s.putPlan plan).segments.plan = plan := by
  unfold State.putPlan
  split
  next same => exact same.symm
  · rfl

theorem State.closeRest_closed (q : State) : Closed q q.closeRest := by
  have settled := Settled.foldl (List.nodup_finRange 64) q
  have inactive (h : q.Inactive) := State.Inactive.kept.putPlan
    (State.Inactive.kept.closeSettles h (List.finRange 64)) []
  obtain ⟨c, hc⟩ : ∃ c, c = (List.finRange 64).foldl State.closeSettle q := ⟨_, rfl⟩
  obtain ⟨d, hd⟩ : ∃ d, d = c.putPlan [] := ⟨_, rfl⟩
  obtain ⟨w, hw⟩ : ∃ w, w = d.writeBack := ⟨_, rfl⟩
  have back := hw ▸ d.writeBack_spec
  rw [← hc] at settled inactive
  rw [← hd] at inactive
  have told : Told q d := settled.told.trans (hd ▸ Told.putPlan c [])
  have eq : q.closeRest = w.enterRouteState .closed := by rw [hw, hd, hc]; rfl
  have store : d.store = q.store := by rw [told.same]
  have segments : w.segments = d.segments := by rw [back.rest]
  have segment (n : Seg) : d.segment n = (q.segment n).closed := by
    rw [hd, State.putPlan_segment, settled.segment, if_pos (List.mem_finRange n)]
  have images : d.store.queue ++ d.dirtyImages = q.store.queue ++ q.dirtyImages := by
    rw [State.dirtyImages_eq, State.dirtyImages_eq]; unfold State.line; rw [store]
  have mem : w.mem = d.mem.writeQueued (q.store.queue ++ q.dirtyImages) := images ▸ back.mem
  have wf (hm : q.mem.wf = true) : w.mem.wf = true := mem ▸ Memory.wf_writeQueued (told.mem.wf hm) _
  have umem : q.closeRest.mem = w.mem.writeItem 2 (stateItem .closed w.segments.active) := by rw [eq]; rfl
  have item (h : q.Fine) (j : Nat) (hj : j ≠ 2) : q.closeRest.mem.readItem j = d.mem.readItem j := by
    rw [umem, Memory.readItem_writeItem (wf h.ok.mem) (stateItem_length _ _), if_neg hj, mem]
    exact (Memory.Spares.writeQueued h.images_lt j d.mem).item (told.mem.wf h.ok.mem)
  have planned (h : q.Fine) (j : Nat) : d.mem.readItem j =
      if j = 3 ∧ [] ≠ c.segments.plan then some (Machine.planItem []) else c.mem.readItem j := by
    rw [hd, State.putPlan_item (settled.told.mem.wf h.ok.mem)]
  have usegment (n : Seg) : q.closeRest.segment n = d.segment n := by
    rw [eq]; exact congrArg (fun x : Segments => x.entries.get n) segments
  have csegment (n : Seg) : c.segment n = d.segment n := by rw [hd, State.putPlan_segment]
  refine ⟨?_, fun n => (usegment n).trans (segment n), ?_, fun h => ?_, fun i => ?_, fun hm x hx => ?_, fun hm h => ?_,
    fun h => ?_, fun h => ?_, fun h n => ?_⟩
  · rw [eq]
    show { w with route := { w.route with state := .closed }, mem := _ } = _
    rw [back.rest, told.same]
    rfl
  · rw [eq]
    show w.segments.plan = []
    rw [segments, hd, State.putPlan_plan]
  · rw [eq]
    show w.segments.active = none
    rw [segments]
    exact inactive h
  · rw [eq]
    show w.line i = _
    rw [back.line]
    unfold State.line
    rw [store]
  · rw [umem, ((Memory.Kept.refl _ _).writeItem (Nat.le_refl _) 2 _).reads (wf hm) x hx, mem]
    exact Memory.writeQueued_congr hm (told.mem.wf hm) (told.mem.reads hm x hx) _
  · have active : w.segments.active = none := by rw [segments]; exact inactive h
    rw [umem, Memory.readItem_writeItem (wf hm) (stateItem_length _ _), if_pos rfl, active]
    rfl
  · rw [item h 4 (by decide), planned h, if_neg (by simp), settled.item h.ok.mem 4 (by decide)]
  · rw [item h 3 (by decide), planned h, settled.plan, settled.item h.ok.mem 3 (by decide)]
    simp [eq_comm]
  · rw [item h _ (by omega), planned h, if_neg (by omega), settled.segmentItem h.ok.mem, csegment, usegment]

/-! ### The work before (R128, R139) -/

/-- The state that the first step of a close leaves: the frame in hand finished, and the active segment left. -/
def State.closeLeft (f : State) : State × Option (Seg × SegState) × WalkCounts :=
  match f.segments.active with
  | none => (f, none, WalkCounts.none)
  | some n => ((f.leave .command n).1, some (n, ((f.leave .command n).1.segment n).state), (f.leave .command n).2)

theorem State.closeWork_eq (s : State) : s.closeWork =
    (s.finishFrame.closeLeft.1.routePass.1.closeRest, s.finishFrame.closeLeft.2.1,
      s.finishFrame.closeLeft.2.2.plus s.finishFrame.closeLeft.1.routePass.2) := rfl

theorem State.closeLeft_inactive (f : State) : f.closeLeft.1.Inactive := by
  unfold State.closeLeft
  split
  next none => exact none
  · exact State.settleLeft_inactive _ _

theorem Quiet.closeLeft (f : State) : Quiet f f.closeLeft.1 := by
  unfold State.closeLeft
  split
  · exact .refl f
  · exact (Quiet.refl f).leave .command _

theorem State.Ok.closeLeft {f : State} (h : f.Ok) : f.closeLeft.1.Ok := by
  unfold State.closeLeft
  split
  · exact h
  · exact h.leave .command _

theorem Checked.closeLeft {v : List Byte} {f : State} (h : Checked v f) : Checked v f.closeLeft.1 := by
  unfold State.closeLeft
  split
  · exact h
  · exact h.leave .command _

/-- The newest image of a slot among those written is what the slot holds then. -/
theorem Memory.slotBytes_newest (h : m.wf = true) (before : List Queued) (x : Queued) {later : List Queued}
    (apart : ∀ k ∈ later, k.slot ≠ x.slot) :
    (m.writeQueued (before ++ x :: later)).slotBytes x.slot = x.contents.image := by
  have wf := Memory.wf_writeQueued h before
  have written : m.writeQueued (before ++ x :: later) =
      ((m.writeQueued before).writeSlot x.slot x.contents).writeQueued later := by
    rw [Memory.writeQueued_append]; rfl
  rw [written, Memory.slotBytes_writeQueued_apart (Memory.wf_writeSlot wf _ _) apart, Memory.slotBytes_writeSlot wf]

theorem Closed.slotBytes {u : State} (h : Closed q u) (hm : q.mem.wf = true) {before later : List Queued} {x : Queued}
    (images : q.store.queue ++ q.dirtyImages = before ++ x :: later) (apart : ∀ k ∈ later, k.slot ≠ x.slot)
    (hx : x.slot < 8192) : u.mem.slotBytes x.slot = x.contents.image := by
  rw [← Memory.slotBytes_newest hm before x apart, ← images]
  exact Memory.slotBytes_congr (fun y hy => h.reads hm y (Nat.lt_trans hy (by decide))) hx

theorem Checked.writeCheckpoint (h : s.Fine) : Checked (wordBytes s.route.clock) s.writeCheckpoint :=
  ⟨h.still h.ok.writeCheckpoint (Still.refl s).writeCheckpoint,
    (Memory.readItem_writeItem h.ok.mem (i := 4) (c := wordBytes s.route.clock) rfl 4).trans (if_pos rfl)⟩

theorem execRouteClose_opened (hs : s.serving) (ho : s.route.state = .opened) {f : State}
    (hf : s.writeCheckpoint.finishFrame = f) : exec .routeClose s =
      .next (f.closeLeft.1.routePass.1.closeRest.reply .ok
        (leftBytes f.closeLeft.2.1 ++ (f.closeLeft.2.2.plus f.closeLeft.1.routePass.2).bytes)) := by
  show execRouteClose s = _
  unfold execRouteClose
  rw [State.serve_of_serving hs, if_neg (not_not.2 ho), State.closeWork_eq, hf]

theorem execRouteClose_refused (hs : s.serving) (hn : s.route.state ≠ .opened) :
    exec .routeClose s = .next (s.reply .wrongState []) := by
  show execRouteClose s = _
  unfold execRouteClose
  rw [State.serve_of_serving hs, if_pos hn]
  rfl

theorem Quiet.closeRest (f : State) : Quiet f { f.closeLeft.1.routePass.1.closeRest with route := f.route } := by
  have work : Quiet f f.closeLeft.1.routePass.1.closeWritten := ((Quiet.closeLeft f).routePass).closed
  unfold State.closeRest
  generalize f.closeLeft.1.routePass.1.closeWritten = w at work
  exact { work with route := rfl }

/-- What a close leaves of the blocks that work on records leaves. -/
theorem Ended.closeRest {a f : State} (hf : Ended a f) :
    Quiet a { f.closeLeft.1.routePass.1.closeRest with route := a.route, matching := a.matching } ∧
      f.closeLeft.1.routePass.1.closeRest.matching.inHand = none := by
  have work := Quiet.closeRest f
  generalize f.closeLeft.1.routePass.1.closeRest = u at work
  have route : f.route = a.route := hf.quiet.route
  have fresh : Quiet { f with matching := a.matching } { u with route := a.route, matching := a.matching } := by
    rw [← route]
    exact work.withMatching_same a.matching
  exact ⟨hf.quiet.trans fresh, (congrArg Matching.inHand work.matching).trans hf.inHand⟩

/-- Settles O54: the walks' visits by `settleSlot_settled`, what is left of the other blocks by `Ended.closeRest`, and
the rest by `closeRest_closed`. -/
theorem routesClose : Obligations.RoutesClose := by
  unfold Obligations.RoutesClose
  refine ⟨fun s hs hn => execRouteClose_refused hs hn, fun s hs hok ho => ?_⟩
  intro f x slots pass p
  have run := execRouteClose_opened hs ho (f := f) rfl
  have ended : Ended s.writeCheckpoint f := s.writeCheckpoint.finishFrame_ended
  have fok : f.Ok := hok.writeCheckpoint.finishFrame
  have checked (h : s.Sound) : Checked _ f := (Checked.writeCheckpoint ⟨hok, h⟩).finishFrame
  have hx : x = (f.closeLeft.1, leftBytes f.closeLeft.2.1, f.closeLeft.2.2) := by
    unfold State.closeLeft
    simp only [x]
    cases f.segments.active <;> rfl
  have hp : p = f.closeLeft.1.routePass := by simp only [p, pass, slots, hx]; rfl
  have visited (before : List Nat) (slot : Nat) :
      pass (before ++ [slot]) = State.settleSlot .command slot (pass before) := List.foldl_concat ..
  have closed := f.closeLeft.1.routePass.1.closeRest_closed
  obtain ⟨quiet, inHand⟩ := ended.closeRest
  obtain ⟨⟨-, idle⟩, -⟩ := hs
  have before : f.closeLeft.1.routePass.1.route = { s.route with checkpointsDue := [] } :=
    ((Quiet.closeLeft f).routePass).route.trans ended.quiet.route
  have inactive : f.closeLeft.1.routePass.1.Inactive := .settleSlots .command _ f.closeLeft_inactive
  have qok : f.closeLeft.1.routePass.1.Ok := fok.closeLeft.routePass
  have checked (h : s.Sound) : Checked (wordBytes s.route.clock) f.closeLeft.1.routePass.1 :=
    (checked h).closeLeft.routePass
  rw [hp, hx]
  clear_value f
  generalize f.closeLeft.1.routePass = q at *
  generalize q.1.closeRest = u at *
  have same := closed.same
  refine ⟨fun before slot rest r _ live => ?_, u, ?_, ?_⟩
  · rw [visited] at live
    exact State.settleSlot_settled live
  · rw [run, List.append_assoc, List.append_assoc]
    unfold WalkCounts.bytes
    rw [List.append_assoc]
    rfl
  · have route : u.route = { s.route with state := .closed, checkpointsDue := [] } := by
      rw [same]
      show { q.1.route with state := .closed } = _
      rw [before]
    refine ⟨by rw [same], by rw [same], by rw [same], closed.segment, route, inHand, closed.active inactive,
      closed.plan, fun n => ?_, by rw [same], fun i b hb => ?_,
      ⟨closed.reads qok.mem, fun before x later images apart hx => closed.slotBytes qok.mem images apart hx⟩,
      closed.state qok.mem inactive, fun sound => ⟨?_, ?_, ?_⟩, quiet.ports, quiet.depot, quiet.assessment,
      quiet.command_idle idle, quiet.enabled⟩
    · rw [closed.segment]; exact Segment.closed_state _
    · rw [closed.line] at hb; exact Line.cleaned_clean hb
    · exact (closed.checkpoint (checked sound).fine).trans (checked sound).item
    · exact closed.planItem (checked sound).fine
    · exact closed.segmentItem (checked sound).fine

end Sys2Proof.Machine
end

