-- ==== Sys2Proof/Proofs/Survey.lean ====
section
/-! PROOF. The survey of a batch (R151, R152): the order of the keys, a slot surveyed, and the candidates of a class. -/

namespace Sys2Proof.Machine

variable {s t : State} {cursor : Option Key}

/-! ### Selectable records and the order of their keys (R151) -/

theorem Record.selectable_iff (r : Record) : r.selectable = true ↔
    (r.status = .flagged ∨ r.status = .read ∨ r.status = .missed) ∧ r.batch = none ∧ r.marks.depotRefused = false := by
  have rank : classRank r.status < 3 ↔ r.status = .flagged ∨ r.status = .read ∨ r.status = .missed := by
    cases r.status <;> decide
  unfold Record.selectable
  rw [Bool.and_eq_true, Bool.and_eq_true, decide_eq_true_iff, rank, Option.isNone_iff_eq_none, Bool.not_eq_true',
    and_assoc]

/-- One key comes before another by class, then sequence, then slot. -/
theorem Key.before_iff (a b : Key) : a.before b = true ↔ classRank a.status < classRank b.status ∨
    classRank a.status = classRank b.status ∧ (a.sequence.toNat < b.sequence.toNat ∨
      a.sequence.toNat = b.sequence.toNat ∧ a.slot < b.slot) := by
  have sequences : a.sequence = b.sequence ↔ a.sequence.toNat = b.sequence.toNat := BitVec.toNat_inj.symm
  unfold Key.before
  split
  · rw [decide_eq_true_iff]; omega
  · split
    next apart => rw [ne_eq, sequences] at apart; rw [decide_eq_true_iff]; omega
    next same => rw [ne_eq, sequences, not_not] at same; rw [decide_eq_true_iff]; omega

theorem Key.before_trans {a b c : Key} (h : a.before b = true) (h' : b.before c = true) : a.before c = true := by
  rw [Key.before_iff] at *; omega

theorem Key.before_asymm {a b : Key} (h : a.before b = true) : b.before a = false := by
  rw [← Bool.not_eq_true]
  intro h'
  rw [Key.before_iff] at h h'
  omega

theorem Key.after_iff (k : Key) (cursor : Option Key) :
    k.after cursor = true ↔ ∀ c, cursor = some c → c.before k = true := by
  cases cursor with
  | none => exact ⟨fun _ c hc => (nomatch hc), fun _ => rfl⟩
  | some c => exact ⟨fun h d hd => by cases hd; exact h, fun h => h c rfl⟩

/-- Surveyed records with no key before an earlier one. -/
def Ordered (l : List Surveyed) : Prop := l.Pairwise fun a b => b.key.before a.key = false

theorem insertByKey_perm (x : Surveyed) (l : List Surveyed) : (insertByKey x l).Perm (x :: l) := by
  induction l with
  | nil => exact .refl _
  | cons y l ih =>
    unfold insertByKey
    split
    · exact .refl _
    · exact (ih.cons y).trans (.swap x y l)

theorem Ordered.insertByKey {l : List Surveyed} (h : Ordered l) (x : Surveyed) : Ordered (insertByKey x l) := by
  induction l with
  | nil => exact List.pairwise_singleton _ x
  | cons y l ih =>
    obtain ⟨first, rest⟩ := List.pairwise_cons.1 h
    unfold Machine.insertByKey
    split
    next earlier =>
      refine List.pairwise_cons.2 ⟨fun z hz => ?_, h⟩
      rcases List.mem_cons.1 hz with rfl | later
      · exact Key.before_asymm earlier
      · rw [← Bool.not_eq_true]
        intro before
        exact absurd (Key.before_trans before earlier) (by rw [first z later]; decide)
    next notEarlier =>
      refine List.pairwise_cons.2 ⟨fun z hz => ?_, ih rest⟩
      rcases List.mem_cons.1 ((insertByKey_perm x l).mem_iff.1 hz) with rfl | later
      · exact Bool.not_eq_true _ ▸ notEarlier
      · exact first z later

/-! ### A slot surveyed (R152) -/

/-- A record fits a survey: it is selectable, and its key lies after the cursor. -/
def Record.fits (r : Record) (slot : Nat) (cursor : Option Key) : Bool := r.selectable && (r.key slot).after cursor

theorem Record.fits_iff (r : Record) (slot : Nat) (cursor : Option Key) : r.fits slot cursor = true ↔
    ((r.status = .flagged ∨ r.status = .read ∨ r.status = .missed) ∧ r.batch = none ∧ r.marks.depotRefused = false) ∧
      ∀ c, cursor = some c → c.before ⟨r.status, r.sequence, slot⟩ = true := by
  unfold Record.fits
  rw [Bool.and_eq_true, Record.selectable_iff, Key.after_iff]
  rfl

theorem State.surveySlot_failed {kept : List Surveyed} {slot : Nat} (h : (s.takeLine .upload slot).2 = true) :
    (State.surveySlot cursor (kept, s) slot).1 = kept := by
  unfold State.surveySlot
  dsimp only
  rw [if_pos h]

theorem State.surveySlot_live {kept : List Surveyed} {slot : Nat} {r : Record}
    (h : (s.takeLine .upload slot).2 = false) (hc : (s.takeLine .upload slot).1.cached slot = .live r) :
    (State.surveySlot cursor (kept, s) slot).1 =
      if r.fits slot cursor then insertByKey ⟨r.key slot, r.serial⟩ kept else kept := by
  unfold State.surveySlot
  dsimp only
  rw [if_neg (by simp [h]), hc]
  rfl

/-- Whatever a slot holds, the survey's list stays as it is or takes one record at its place. -/
theorem State.surveySlot_cases (kept : List Surveyed) (slot : Nat) (s : State) :
    (State.surveySlot cursor (kept, s) slot).1 = kept ∨
      ∃ x, (State.surveySlot cursor (kept, s) slot).1 = insertByKey x kept := by
  unfold State.surveySlot
  dsimp only
  split
  · exact .inl rfl
  · split
    · split
      · exact .inr ⟨_, rfl⟩
      · exact .inl rfl
    · exact .inl rfl

theorem Ordered.surveySlot (cursor : Option Key) {x : List Surveyed × State} (h : Ordered x.1) (slot : Nat) :
    Ordered (State.surveySlot cursor x slot).1 := by
  rcases State.surveySlot_cases (cursor := cursor) x.1 slot x.2 with same | ⟨y, placed⟩
  · exact same ▸ h
  · exact placed ▸ h.insertByKey y

theorem Ordered.survey (cursor : Option Key) (s : State) : Ordered (s.survey cursor).1 := by
  have slots (l : List Nat) : ∀ x : List Surveyed × State, Ordered x.1 →
      Ordered (l.foldl (State.surveySlot cursor) x).1 := by
    induction l with
    | nil => exact fun x h => h
    | cons slot l ih => exact fun x h => ih _ (h.surveySlot cursor slot)
  have classes (l : List LiveStatus) : ∀ x : List Surveyed × State, Ordered x.1 →
      Ordered (l.foldl (State.surveyClass cursor) x).1 := by
    induction l with
    | nil => exact fun x h => h
    | cons c l ih =>
      intro x h
      refine ih _ ?_
      unfold State.surveyClass
      split
      · exact h
      · exact slots _ x h
  exact (classes _ ([], s) List.Pairwise.nil).sublist (List.take_sublist 16 _)

theorem Ordered.choose (s : State) : Ordered s.choose.1 := by
  unfold State.choose
  dsimp only
  split
  · exact .survey none _
  · exact .survey _ s

/-! ### The next candidate of a class (R152) -/

theorem Directory.mem_of_get {d : Directory} {n : Nat} {x : DirEntry} (h : d.get n = some x) : (n, x) ∈ d := by
  induction d with
  | nil => cases h
  | cons e d ih =>
    obtain ⟨k, y⟩ := e
    rw [Directory.get] at h
    split_ifs at h with hk
    · cases h; rw [hk]; exact List.mem_cons_self
    · exact List.mem_cons_of_mem _ (ih h)

theorem Directory.get_of_mem {d : Directory} (hr : Rising (d.map (·.1))) {e : Nat × DirEntry} (h : e ∈ d) :
    d.get e.1 = some e.2 := by
  induction d with
  | nil => cases h
  | cons c d ih =>
    obtain ⟨k, y⟩ := c
    rw [Rising, List.map_cons, List.pairwise_cons] at hr
    rw [Directory.get]
    rcases List.mem_cons.1 h with rfl | later
    · rw [if_pos rfl]
    · have := hr.1 e.1 (List.mem_map_of_mem later)
      rw [if_neg (by dsimp only at this; omega), if_neg (by dsimp only at this; omega)]
      exact ih hr.2 later

/-- The candidate is the lowest occupied slot of the class from the place where the survey stands. -/
theorem State.Ok.candidate_of_lowest (h : s.Ok) {status : LiveStatus} {next slot : Nat} {d : DirEntry}
    (hd : s.directory.get slot = some d) (hn : next ≤ slot) (hs : d.status = .live status)
    (lowest : ∀ k x, s.directory.get k = some x → next ≤ k → x.status = .live status → slot ≤ k) :
    s.candidate status next = some (slot, d) := by
  have rising := List.pairwise_map.1 h.directory.rising
  have listed := Directory.mem_of_get hd
  cases found : s.candidate status next with
  | none =>
    have none := List.find?_eq_none.1 found (slot, d) listed
    simp [hn, hs] at none
  | some e =>
    obtain ⟨fit, before, after, split, earlier⟩ := List.find?_eq_some_iff_append.1 found
    rw [Bool.and_eq_true, decide_eq_true_iff, beq_iff_eq] at fit
    have occupied : s.directory.get e.1 = some e.2 := by
      refine Directory.get_of_mem h.directory.rising ?_
      rw [split]
      exact List.mem_append_right _ List.mem_cons_self
    have below := lowest e.1 e.2 occupied fit.1 fit.2
    rw [split] at listed rising
    rcases List.mem_append.1 listed with inBefore | rest
    · have passed := earlier _ inBefore
      simp [hn, hs] at passed
    · rcases List.mem_cons.1 rest with own | later
      · rw [own]
      · have above := (List.pairwise_cons.1 (List.pairwise_append.1 rising).2.1).1 _ later
        dsimp only at above
        omega

theorem State.Ok.candidate_none (h : s.Ok) {status : LiveStatus} {next : Nat}
    (hn : ∀ k x, s.directory.get k = some x → next ≤ k → x.status ≠ .live status) : s.candidate status next = none := by
  refine List.find?_eq_none.2 fun e he fit => ?_
  rw [Bool.and_eq_true, decide_eq_true_iff, beq_iff_eq] at fit
  exact hn e.1 e.2 (Directory.get_of_mem h.directory.rising he) fit.1 fit.2

theorem State.formRead_candidate {again : Bool} {status : LiveStatus} {next : Nat} {kept : List Surveyed}
    {e : Nat × DirEntry} (h : s.candidate status next = some e) :
    s.formRead (.surveying again status next kept) =
      (some (.surveying again status (e.1 + 1)
        (State.surveySlot (if again then none else s.depot.cursor) (kept, s) e.1).1),
        (State.surveySlot (if again then none else s.depot.cursor) (kept, s) e.1).2) := by
  unfold State.formRead
  dsimp only
  rw [h]

theorem State.formRead_classEnd {again : Bool} {status : LiveStatus} {next : Nat} {kept : List Surveyed}
    (h : s.candidate status next = none) :
    s.formRead (.surveying again status next kept) = s.endClass again status kept := by
  unfold State.formRead
  dsimp only
  rw [h]

theorem State.endClass_next {again : Bool} {status c : LiveStatus} {kept : List Surveyed} (hk : kept.length < 16)
    (hc : nextClass status = some c) : s.endClass again status kept = (some (.surveying again c 0 kept), s) := by
  unfold State.endClass
  rw [if_neg (by simp only [Config.batchRecords]; omega), hc]

/-- No class follows: 16 records are held, or the class was the last. -/
theorem State.endClass_last {again : Bool} {status : LiveStatus} {kept : List Surveyed}
    (h : 16 ≤ kept.length ∨ status = .missed) : s.endClass again status kept =
      if kept = [] then if again then (none, s.finishUpload) else (some (.surveying true .flagged 0 []), s)
      else (some (.marking ((kept.take 16).getLast?.map (·.key)) (kept.take 16) []), s) := by
  have last : (if Config.batchRecords ≤ kept.length then none else nextClass status) = none := by
    rcases h with full | rfl
    · exact if_pos full
    · split <;> rfl
  unfold State.endClass
  rw [last]
  cases kept with
  | nil => rfl
  | cons x kept => rw [if_neg (List.cons_ne_nil x kept)]; rfl

end Sys2Proof.Machine
end

