-- ==== Sys2Proof/Proofs/Marking.lean ====
section
/-! PROOF. The marking and packing of the records chosen (R152, R153), their extensions read on the way (R17, R19), and the OFFER. -/

namespace Sys2Proof.Machine

variable {a s t : State} {slot : Nat} {d : DirEntry} {r : Record}

/-! ### Reading a record's extension (R17, R19) -/

theorem State.relink_lines (u : Holder) (n : Nat) (next : Half) (s : State) :
    (s.relink u n next).store.lines = s.store.lines ∧ (s.relink u n next).directory = s.directory := by
  unfold State.relink State.grant
  simp

/-- A chain cut: the record's first block is the chain's that is left, with the extension lost mark, in the line and in
the directory. -/
theorem State.cutChain_spec {i : Fin 8} (hd : s.directory.get slot = some d) (hi : s.lineOf slot = some i) (u : Holder)
    (r : Record) (kept : Nat) :
    (s.cutChain u slot r kept).cached slot = .live { r with
      firstBlock := headOf (d.chain.take kept), marks := { r.marks with extensionLost := true } } ∧
    (s.cutChain u slot r kept).directory.get slot =
      some ⟨.live r.status, r.segment, d.chain.take kept, r.batch.isSome⟩ := by
  obtain ⟨cut, hcut⟩ : ∃ x, x = { r with
    firstBlock := headOf (d.chain.take kept), marks := { r.marks with extensionLost := true } } := ⟨_, rfl⟩
  have put (x : State) (hdir : x.directory.get slot = some { d with chain := d.chain.take kept })
      (hline : x.lineOf slot = some i) : (x.putRecord slot cut).cached slot = .live cut ∧
      (x.putRecord slot cut).directory.get slot =
        some ⟨.live r.status, r.segment, d.chain.take kept, r.batch.isSome⟩ := by
    refine ⟨(State.putRecord_line cut hline).2, ?_⟩
    rw [(State.putRecord_filed hdir cut).get, hcut]
  have chain : s.chain slot = d.chain := State.chain_of_get hd
  have freed : ((s.freeChain (d.chain.drop kept)).setChain slot (d.chain.take kept)).directory.get slot =
      some { d with chain := d.chain.take kept } := by
    rw [State.setChain_directory (s := s.freeChain (d.chain.drop kept)) hd, Directory.get_set_self]
  have line : ((s.freeChain (d.chain.drop kept)).setChain slot (d.chain.take kept)).lineOf slot = some i :=
    (State.lineOf_congr (by simp) slot).trans hi
  rw [← hcut]
  unfold State.cutChain
  dsimp only
  rw [chain, ← hcut]
  split
  next b _ =>
    obtain ⟨lines, directory⟩ := State.relink_lines u b.1 endMarker
      ((s.freeChain (d.chain.drop kept)).setChain slot (d.chain.take kept))
    exact put _ (by rw [directory]; exact freed) ((State.lineOf_congr lines slot).trans line)
  · exact put _ freed line

/-- A record and its chain as they stand once the extension has been read: cut where a block was bad. -/
def Record.afterRead (r : Record) (chain : List (Nat × BlockKind)) (read : ChainRead) : Record :=
  if read.bad then { r with
    firstBlock := headOf (chain.take read.kept), marks := { r.marks with extensionLost := true } } else r

theorem State.readExtension_spec {i : Fin 8} (hd : s.directory.get slot = some d) (hi : s.lineOf slot = some i)
    (hs : d.status = .live r.status) (hg : d.segment = r.segment) (hb : d.batched = r.batch.isSome)
    (hc : s.cached slot = .live r) (u : Holder) {read : ChainRead}
    (hread : s.mem.readChain (d.chain.map (·.1)) 0 0 = read) :
    (s.readExtension u slot r).2 = read ∧
    (s.readExtension u slot r).1.cached slot = .live (r.afterRead d.chain read) ∧
    (s.readExtension u slot r).1.directory.get slot = some ⟨.live r.status, r.segment,
      if read.bad then d.chain.take read.kept else d.chain, r.batch.isSome⟩ := by
  have chain : s.chain slot = d.chain := State.chain_of_get hd
  unfold State.readExtension Record.afterRead
  dsimp only
  rw [chain, hread]
  generalize hx : s.grants u (read.kept + if read.bad then 1 else 0) = x
  have directory : x.directory.get slot = some d := by rw [← hx, State.grants_directory]; exact hd
  have lines : x.store.lines = s.store.lines := by rw [← hx]; exact State.grants_lines ..
  refine ⟨rfl, ?_⟩
  split
  · exact State.cutChain_spec directory ((State.lineOf_congr lines slot).trans hi) u r read.kept
  · refine ⟨(State.cached_congr lines slot).trans hc, ?_⟩
    rw [directory]
    obtain ⟨status, segment, chain, batched⟩ := d
    subst hs hg hb
    rfl

/-! ### A record marked and packed (R152, R153) -/

/-- The marking's three questions answered yes: the line taken, the slot occupied, and the record the one surveyed and
still selectable. -/
theorem State.markOne_of_fit {packed : List (List Byte)} {k : Surveyed}
    (good : (s.takeLine .upload k.key.slot).2 = false)
    (hd : (s.takeLine .upload k.key.slot).1.directory.get k.key.slot = some d)
    (hc : (s.takeLine .upload k.key.slot).1.cached k.key.slot = .live r) (hk : r.serial = k.serial)
    (hs : r.selectable = true) :
    State.markOne (packed, s) k = State.markAndPack k.key.slot r (packed, (s.takeLine .upload k.key.slot).1) := by
  unfold State.markOne
  dsimp only
  rw [if_neg (by simp [good, hd]), hc]
  dsimp only
  rw [if_pos ⟨hk, hs⟩]

/-- One of them answered no: the record is left out, and its line let go. -/
theorem State.markOne_of_unfit {packed : List (List Byte)} {k : Surveyed}
    (h : (s.takeLine .upload k.key.slot).2 = true ∨ (s.takeLine .upload k.key.slot).1.directory.get k.key.slot = none ∨
      ∀ r, (s.takeLine .upload k.key.slot).1.cached k.key.slot = .live r →
        ¬(r.serial = k.serial ∧ r.selectable = true)) :
    State.markOne (packed, s) k = (packed, (s.takeLine .upload k.key.slot).1.letGo k.key.slot) := by
  unfold State.markOne
  dsimp only
  split
  · rfl
  next apart =>
    rw [not_or, Option.isNone_iff_eq_none] at apart
    split
    next r hr =>
      rcases h with failed | free | unfit
      · exact absurd failed apart.1
      · exact absurd free apart.2
      · rw [if_neg (unfit r hr)]
    · rfl

/-- What the marking of a record in a line leaves: the record packed, in its line and in the directory, and joined to
the outstanding batch. -/
theorem State.markAndPack_spec {i : Fin 8} (hd : s.directory.get slot = some d) (hi : s.lineOf slot = some i)
    (packed : List (List Byte)) {marked : Record} (hm : marked = { r with batch := some s.depot.batchNumber })
    {read : ChainRead} (hread : (s.putRecord slot marked).mem.readChain (d.chain.map (·.1)) 0 0 = read) :
    let v := State.markAndPack slot r (packed, s)
    v.1 = packed ++ [(marked.afterRead d.chain read).uploadBytes s.params.date read.note read.values] ∧
    v.2.cached slot = .live (marked.afterRead d.chain read) ∧
    v.2.directory.get slot = some ⟨.live r.status, r.segment,
      if read.bad then d.chain.take read.kept else d.chain, true⟩ ∧
    v.2.depot = { s.depot with outstanding := s.depot.outstanding ++ [(slot, r.serial)] } := by
  obtain ⟨line, cached⟩ := State.putRecord_line marked hi
  have entry := (State.putRecord_filed hd marked).get
  have depot : (s.putRecord slot marked).depot = s.depot := by simp
  obtain ⟨x, hx⟩ : ∃ x, x = (s.putRecord slot marked).withDepot { (s.putRecord slot marked).depot with
    outstanding := (s.putRecord slot marked).depot.outstanding ++ [(slot, r.serial)] } := ⟨_, rfl⟩
  have fields : x.directory = (s.putRecord slot marked).directory ∧
      x.store.lines = (s.putRecord slot marked).store.lines ∧ x.mem = (s.putRecord slot marked).mem := by
    rw [hx]; exact ⟨rfl, rfl, rfl⟩
  obtain ⟨directory, lines, mem⟩ := fields
  obtain ⟨found, left, filed⟩ := State.readExtension_spec (s := x) (r := marked) (directory ▸ entry)
    ((State.lineOf_congr lines slot).trans line) rfl rfl rfl ((State.cached_congr lines slot).trans cached) .upload
    (mem ▸ hread)
  have now : (x.readExtension .upload slot marked).1.recordNow slot marked = marked.afterRead d.chain read := by
    unfold State.recordNow; rw [left]
  have quiet := ((Quiet.refl x).readExtension .upload slot marked).letGo slot
  have run : State.markAndPack slot r (packed, s) =
      (packed ++ [((x.readExtension .upload slot marked).1.recordNow slot marked).uploadBytes s.params.date
        (x.readExtension .upload slot marked).2.note (x.readExtension .upload slot marked).2.values],
        (x.readExtension .upload slot marked).1.letGo slot) := by
    rw [hx, hm]; rfl
  intro v
  rw [show v = _ from run]
  refine ⟨by rw [now, found], (State.letGo_cached ..).trans left, ?_, ?_⟩
  · rw [(State.letGo_frame slot _).2.1, filed, hm]
    rfl
  · rw [quiet.depot, hx, depot]
    rfl

/-- The marking of a record that is still the one surveyed, and still selectable. -/
theorem State.markOne_marked (packed : List (List Byte)) {k : Surveyed}
    (good : (s.takeLine .upload k.key.slot).2 = false)
    (hd : (s.takeLine .upload k.key.slot).1.directory.get k.key.slot = some d)
    (hc : (s.takeLine .upload k.key.slot).1.cached k.key.slot = .live r) (hk : r.serial = k.serial)
    (hs : r.selectable = true) {marked : Record} (hm : marked = { r with batch := some s.depot.batchNumber })
    {read : ChainRead}
    (hread : ((s.takeLine .upload k.key.slot).1.putRecord k.key.slot marked).mem.readChain (d.chain.map (·.1)) 0 0 =
      read) :
    let v := State.markOne (packed, s) k
    v.1 = packed ++ [(marked.afterRead d.chain read).uploadBytes s.params.date read.note read.values] ∧
    v.2.cached k.key.slot = .live (marked.afterRead d.chain read) ∧
    v.2.directory.get k.key.slot = some ⟨.live r.status, r.segment,
      if read.bad then d.chain.take read.kept else d.chain, true⟩ ∧
    v.2.depot = { s.depot with outstanding := s.depot.outstanding ++ [(k.key.slot, r.serial)] } := by
  have taken := (Quiet.refl s).takeLine .upload k.key.slot
  have params : (s.takeLine .upload k.key.slot).1.params = s.params :=
    congrArg (fun x : Route => x.header.getD Header.blank) taken.route
  obtain ⟨i, hi⟩ := State.lineOf_of_cached (show (s.takeLine .upload k.key.slot).1.cached k.key.slot ≠ .free by
    rw [hc]; exact fun e => by cases e)
  obtain ⟨packs, cached, directory, depot⟩ := State.markAndPack_spec (r := r) hd hi packed (marked := marked)
    (by rw [taken.depot]; exact hm) hread
  rw [State.markOne_of_fit good hd hc hk hs]
  exact ⟨params ▸ packs, cached, directory, depot.trans (by rw [taken.depot])⟩

/-- The marking of one record leaves it out, or joins the very record that was surveyed (R152). -/
theorem State.markOne_joined (packed : List (List Byte)) (s : State) (k : Surveyed) :
    ((State.markOne (packed, s) k).1 = packed ∧ (State.markOne (packed, s) k).2.depot = s.depot) ∨
    ∃ bytes, (State.markOne (packed, s) k).1 = packed ++ [bytes] ∧ (State.markOne (packed, s) k).2.depot =
      { s.depot with outstanding := s.depot.outstanding ++ [(k.key.slot, k.serial)] } := by
  have taken := (Quiet.refl s).takeLine .upload k.key.slot
  by_cases fit : ∃ d r, (s.takeLine .upload k.key.slot).2 = false ∧
      (s.takeLine .upload k.key.slot).1.directory.get k.key.slot = some d ∧
      (s.takeLine .upload k.key.slot).1.cached k.key.slot = .live r ∧ r.serial = k.serial ∧ r.selectable = true
  · obtain ⟨d, r, good, hd, hc, hk, hs⟩ := fit
    obtain ⟨bytes, -, -, depot⟩ := State.markOne_marked packed good hd hc hk hs rfl rfl
    exact .inr ⟨_, bytes, hk ▸ depot⟩
  · refine .inl ?_
    rw [State.markOne_of_unfit]
    · exact ⟨rfl, (taken.letGo k.key.slot).depot⟩
    · cases good : (s.takeLine .upload k.key.slot).2 with
      | true => exact .inl rfl
      | false =>
        cases hd : (s.takeLine .upload k.key.slot).1.directory.get k.key.slot with
        | none => exact .inr (.inl rfl)
        | some d => exact .inr (.inr fun r hc hfit => fit ⟨d, r, good, hd, hc, hfit⟩)

/-- What marking a row of chosen records leaves: those that were not left out are packed and outstanding, in their
order. -/
structure Marked (s : State) (packed : List (List Byte)) (todo : List Surveyed) (y : List (List Byte) × State)
    (bytes : List (List Byte)) (joined : List (Nat × Word)) : Prop where
  packed : y.1 = packed ++ bytes
  depot : y.2.depot = { s.depot with outstanding := s.depot.outstanding ++ joined }
  size : bytes.length = joined.length
  chosen : joined.Sublist (todo.map fun k => (k.key.slot, k.serial))
  quiet : Quiet s { y.2 with depot := s.depot }

theorem Marked.all (todo : List Surveyed) (packed : List (List Byte)) (s : State) :
    ∃ bytes joined, Marked s packed todo (todo.foldl State.markOne (packed, s)) bytes joined := by
  induction todo generalizing packed s with
  | nil => exact ⟨[], [], by simp, by simp, rfl, .slnil, .refl s⟩
  | cons k todo ih =>
    have one := State.markOne_quiet packed s k
    have joined := State.markOne_joined packed s k
    rw [List.foldl_cons]
    obtain ⟨x, hx⟩ : ∃ x, x = State.markOne (packed, s) k := ⟨_, rfl⟩
    rw [← hx] at one joined ⊢
    obtain ⟨bytes, rest, others⟩ := ih x.1 x.2
    have quiet := one.trans (others.quiet.set_depot s.depot)
    rcases joined with ⟨same, depot⟩ | ⟨b, more, depot⟩
    · exact ⟨bytes, rest, by rw [others.packed, same], by rw [others.depot, depot], others.size,
        others.chosen.cons _, quiet⟩
    · refine ⟨b :: bytes, (k.key.slot, k.serial) :: rest, ?_, ?_, congrArg (· + 1) others.size,
        others.chosen.cons_cons _, quiet⟩
      · rw [others.packed, more, List.append_assoc]; rfl
      · rw [others.depot, depot, List.append_assoc]; rfl

/-! ### The OFFER (R152, R153) -/

/-- The depot block with the OFFER of the packed records begun, or with none ATTACHED as before. -/
def Depot.offering (x : Depot) (h : Header) (last : Option Key) (packed : List (List Byte)) : Depot :=
  let body : List Byte := [0x00] ++ natHalf (15 + packed.flatten.length) ++ [0x01] ++ wordBytes h.identity ++
    halfBytes h.van ++ [x.batchNumber, natByte packed.length] ++ packed.flatten
  { x with
    cursor := last
    link := if packed = [] then x.link else .sending
    rx := if packed = [] then x.rx else []
    tx := if packed = [] then x.tx else [0xA6] ++ body ++ halfBytes (crc16 body) }

theorem State.beginOffer_spec {last : Option Key} {packed : List (List Byte)}
    (h : packed.length = s.depot.outstanding.length) :
    s.beginOffer last packed = { s with depot := s.depot.offering s.params last packed } := by
  have begun : s.beginOffer last packed = if s.depot.outstanding.isEmpty then
      s.withDepot { s.depot with cursor := last }
    else s.withDepot { s.depot with
      cursor := last, link := .sending, rx := [], tx := offerBytes s.params s.depot.batchNumber packed } := rfl
  have empty : s.depot.outstanding.isEmpty = true ↔ packed = [] := by
    rw [List.isEmpty_iff, ← List.length_eq_zero_iff, ← h, List.length_eq_zero_iff]
  unfold Depot.offering
  dsimp only
  rw [begun]
  by_cases none : packed = []
  · rw [if_pos (empty.2 none), if_pos none, if_pos none, if_pos none]
    rfl
  · rw [if_neg (mt empty.1 none), if_neg none, if_neg none, if_neg none]
    unfold offerBytes
    simp only [List.cons_append, List.nil_append]
    rfl

end Sys2Proof.Machine
end

