-- ==== Sys2Proof/Proofs/Batches.lean ====
section
/-! PROOF. BATCH_FORM (R152, R157, R158): the rows that can come between its record reads, and a batch that nothing meets. -/

namespace Sys2Proof.Machine

variable {a s t : State} {c : Instr} {rest : List Instr}

/-! ### The rows that can come between two record reads (R36, R159) -/

theorem interposes_iff (c : Instr) : interposes c = true ↔ isBlock c = true ∨ c = .frameTake ∨ c = .frameMatch ∨
    c = .dockRemoval ∨ (∃ b, c = .depotByte b) ∨ c = .powerWarning ∨ ∃ loss, c = .powerLoss loss := by
  unfold interposes isBlock
  rw [Bool.or_eq_true]
  refine or_congr_right ⟨fun h => ?_, fun h => ?_⟩
  · split at h
    · exact .inl rfl
    · exact .inr (.inl rfl)
    · exact .inr (.inr (.inl rfl))
    · exact .inr (.inr (.inr (.inl ⟨_, rfl⟩)))
    · exact .inr (.inr (.inr (.inr (.inl rfl))))
    · exact .inr (.inr (.inr (.inr (.inr ⟨_, rfl⟩))))
    · cases h
  · rcases h with rfl | rfl | rfl | ⟨b, rfl⟩ | rfl | ⟨loss, rfl⟩ <;> rfl

/-- A row that can come first stands at the front of the queue. -/
theorem State.interposed_iff (s : State) :
    s.interposed = true ↔ ∃ c rest, s.pending = c :: rest ∧ interposes c = true := by
  unfold State.interposed
  split
  next c rest waits => exact ⟨fun h => ⟨c, rest, waits, h⟩, fun ⟨c', rest', waits', h⟩ => by
    rw [waits] at waits'; cases waits'; exact h⟩
  next none => exact ⟨fun h => (nomatch h), fun ⟨c, rest, waits, _⟩ => by rw [none] at waits; cases waits⟩

theorem State.interposed_congr (h : t.pending = s.pending) : t.interposed = s.interposed := by
  unfold State.interposed; rw [h]

theorem State.formRead_pending {w w' : Forming} (h : s.formRead w = (some w', t)) : t.pending = s.pending :=
  (State.formRead_quiet h).1.pending

theorem State.formOn_over {w : Forming} (h : s.formRead w = (none, t)) (n : Nat) : s.formOn (n + 1) w = t := by
  rw [State.formOn, h]

/-- A read that a row can meet. -/
theorem State.formOn_met {w w' : Forming} (h : s.formRead w = (some w', t)) (hm : s.interposed = true) (n : Nat) :
    s.formOn (n + 1) w =
      if Config.commandFirst t.draws then
        if t.rowGoesFirst w' then (t.withDraws (t.draws + 1)).holdForming w'
        else (t.withDraws (t.draws + 1)).readAndYield w'
      else (t.withDraws (t.draws + 1)).formOn n w' := by
  have met : t.interposed = true := (State.interposed_congr (State.formRead_pending h)).trans hm
  rw [State.formOn, h]
  dsimp only
  rw [if_pos met]

/-- The arbiter's turn between the matching engine and the upload engine. -/
theorem State.beforeInTurn_matching (s : State) :
    s.beforeInTurn .matching .upload = true ↔ s.store.granted = .upload := by
  unfold State.beforeInTurn
  cases s.store.granted <;> decide

/-- The arbiter's turn between the command unit and the upload engine. -/
theorem State.beforeInTurn_command (s : State) :
    s.beforeInTurn .command .upload = true ↔ s.store.granted ≠ .command := by
  unfold State.beforeInTurn
  cases s.store.granted <;> decide

theorem State.goesBefore_iff (a b : Requester) (waits other : Bool) (s : State) :
    s.goesBefore a b waits other = true ↔ ¬(waits = true ∧ other = true) ∨ s.beforeInTurn a b = true := by
  unfold State.goesBefore
  rw [Bool.or_eq_true, Bool.not_eq_true', ← Bool.not_eq_true, Bool.and_eq_true]

theorem State.rowGoesFirst_of_unit {u : Requester} (hp : s.pending = c :: rest) (hu : rowUnit c = some u)
    (w : Forming) : s.rowGoesFirst w = s.goesBefore u .upload (s.rowNeeds c) (w.needs s) := by
  unfold State.rowGoesFirst
  rw [hp]
  dsimp only
  rw [hu]

theorem State.rowGoesFirst_of_none (hp : s.pending = c :: rest) (hu : rowUnit c = none) (w : Forming) :
    s.rowGoesFirst w = true := by
  unfold State.rowGoesFirst
  rw [hp]
  dsimp only
  rw [hu]

/-- A command block's row is served by the command unit. -/
theorem rowUnit_of_block (h : isBlock c = true) : rowUnit c = some .command := by
  unfold rowUnit
  split
  · cases h
  · cases h
  · exact if_pos h

theorem rowUnit_of_other (ht : c ≠ .frameTake) (hm : c ≠ .frameMatch) (hb : isBlock c = false) : rowUnit c = none := by
  unfold rowUnit
  split
  · exact absurd rfl ht
  · exact absurd rfl hm
  · exact if_neg (by rw [show c.codeAndParams.isSome = false from hb]; decide)

theorem State.needsFill_iff (slot : Nat) (s : State) :
    s.needsFill slot = true ↔ s.lineOf slot = none ∧ s.queued slot = none := by
  unfold State.needsFill
  rw [Bool.and_eq_true, Option.isNone_iff_eq_none, Option.isNone_iff_eq_none]

/-! ### BATCH_FORM (R152, R157) -/

theorem State.mayForm_iff (s : State) : s.mayForm = true ↔
    s.power = .on ∧ s.route.scanning = none ∧ s.depot.link = .attached ∧
      (s.depot.forming = none → s.depot.engine = .running ∧ s.depot.outstanding = []) ∧
      (s.depot.forming ≠ none → s.depot.engine ≠ .idle) := by
  have rest : (if s.depot.forming.isSome then s.depot.engine != .idle
      else s.depot.engine == .running && s.depot.outstanding.isEmpty) = true ↔
      (s.depot.forming = none → s.depot.engine = .running ∧ s.depot.outstanding = []) ∧
        (s.depot.forming ≠ none → s.depot.engine ≠ .idle) := by
    cases s.depot.forming with
    | none => simp
    | some w => simp
  unfold State.mayForm
  rw [Bool.and_eq_true, Bool.and_eq_true, Bool.and_eq_true, rest, beq_iff_eq, beq_iff_eq, Bool.not_eq_true',
    State.isScanning, Option.isSome_eq_false_iff, Option.isNone_iff_eq_none, and_assoc, and_assoc]

theorem execBatchForm_idle (h : ¬s.mayForm = true) : exec .batchForm s = .next s := by
  show execBatchForm s = _
  unfold execBatchForm
  rw [if_neg h]

theorem execBatchForm_forms (h : s.mayForm = true) : exec .batchForm s =
    .next ((s.withDepot { s.depot with forming := none }).formOn s.formWork (s.depot.forming.getD Forming.start)) := by
  show execBatchForm s = _
  unfold execBatchForm
  rw [if_pos h]

/-- The upload finished (R158): the engine IDLE, UPLOAD_DONE raised, and of the route nothing else, but that a CLOSED
one without a live record is EMPTY (R141). -/
theorem State.finishUpload_spec (s : State) :
    s.finishUpload.depot = { s.depot with engine := .idle } ∧ s.finishUpload.events.pending.getLsbD 6 = true ∧
    s.finishUpload.pending = s.pending ∧ s.finishUpload.ports = s.ports ∧
    (s.route.state = .closed → s.finishUpload.directory = [] → s.finishUpload.route.state = .empty) ∧
    (s.route.state ≠ .closed ∨ s.finishUpload.directory ≠ [] → s.finishUpload.route = s.route) := by
  obtain ⟨x, hx⟩ : ∃ x, x = (s.withDepot { s.depot with engine := .idle }).raise .uploadDone := ⟨_, rfl⟩
  have raised : x.events.pending.getLsbD 6 = true := by
    rw [hx]
    show (s.events.pending ||| Event.uploadDone.mask).getLsbD 6 = true
    rw [BitVec.getLsbD_or, show Event.uploadDone.mask.getLsbD 6 = true by decide, Bool.or_true]
  have fields : x.depot = { s.depot with engine := .idle } ∧ x.pending = s.pending ∧ x.ports = s.ports ∧
      x.route = s.route ∧ x.directory = s.directory := by rw [hx]; exact ⟨rfl, rfl, rfl, rfl, rfl⟩
  obtain ⟨depot, pending, ports, route, directory⟩ := fields
  have finished : s.finishUpload = if x.route.state = .closed ∧ x.directory.freeSlots = Config.slots then x.emptyRoute
      else x := by rw [hx]; rfl
  rw [finished]
  split
  next bare =>
    obtain ⟨-, empty, -, -, route', -, -, depot'⟩ := x.emptyRoute_frame
    obtain ⟨events, ports', -, pending'⟩ := x.emptyRoute_kept_blocks
    refine ⟨depot'.trans depot, by rw [events]; exact raised, pending'.trans pending, ports'.trans ports,
      fun _ _ => by rw [route'], fun h => ?_⟩
    rcases h with apart | occupied
    · exact absurd (route ▸ bare.1) apart
    · exact absurd empty occupied
  next kept =>
    refine ⟨depot, raised, pending, ports, fun closed empty => ?_, fun _ => route⟩
    have bare : x.directory.freeSlots = Config.slots := by rw [empty]; exact Nat.sub_zero Config.slots
    exact absurd ⟨route ▸ closed, bare⟩ kept

/-- The forming of a batch leaves the rows that wait, and the ports. -/
theorem State.formOn_outside (s : State) (n : Nat) (w : Forming) :
    (s.formOn n w).pending = s.pending ∧ (s.formOn n w).ports = s.ports := by
  refine State.formOn_keeps (P := fun t => t.pending = s.pending ∧ t.ports = s.ports) (fun _ _ h => h) (fun _ _ h => h)
    (fun c x k h => ?_) (fun x h => ?_) (fun x k h => ?_) ⟨rfl, rfl⟩ n
  · have quiet := Quiet.surveySlot c (x := x) (Quiet.refl x.2) k
    exact ⟨quiet.pending.trans h.1, quiet.ports.trans h.2⟩
  · obtain ⟨-, -, pending, ports, -⟩ := x.finishUpload_spec
    exact ⟨pending.trans h.1, ports.trans h.2⟩
  · have quiet := State.markOne_quiet x.1 x.2 k
    exact ⟨quiet.pending.trans h.1, quiet.ports.trans h.2⟩

/-! ### A batch that nothing meets (R152, R153) -/

/-- What the marking of a row of records and the beginning of the OFFER leave, from a state between two records. -/
structure Offered (s : State) (last : Option Key) (todo : List Surveyed) (y : List (List Byte) × State) (t : State) :
    Prop where
  same : t = { y.2 with depot := t.depot }
  depot : t.depot = Depot.offering { s.depot with outstanding := y.2.depot.outstanding } s.params last y.1
  size : y.1.length = t.depot.outstanding.length
  quiet : Quiet s { t with depot := s.depot }
  chosen : ∃ joined, t.depot.outstanding = s.depot.outstanding ++ joined ∧
    joined.Sublist (todo.map fun k => (k.key.slot, k.serial))

theorem Offered.all {packed : List (List Byte)} (h : packed.length = s.depot.outstanding.length) (last : Option Key)
    (todo : List Surveyed) : Offered s last todo (todo.foldl State.markOne (packed, s))
      ((todo.foldl State.markOne (packed, s)).2.beginOffer last (todo.foldl State.markOne (packed, s)).1) := by
  obtain ⟨bytes, joined, marked⟩ := Marked.all todo packed s
  generalize todo.foldl State.markOne (packed, s) = y at marked ⊢
  have size : y.1.length = y.2.depot.outstanding.length := by
    rw [marked.packed, marked.depot, List.length_append, List.length_append, h, marked.size]
  have params : y.2.params = s.params := congrArg (fun x : Route => x.header.getD Header.blank) marked.quiet.route
  have outstanding : y.2.depot.outstanding = s.depot.outstanding ++ joined := by rw [marked.depot]
  rw [State.beginOffer_spec size, params]
  refine ⟨rfl, ?_, size, marked.quiet, joined, outstanding, marked.chosen⟩
  rw [outstanding, ← marked.depot]

/-- What is left of a marking goes on to its end, where nothing meets it. -/
theorem State.Ok.formOn_rest (h : s.Ok) (hm : s.mayForm = true) (hi : s.interposed = false) {last : Option Key}
    {todo : List Surveyed} {packed : List (List Byte)} (hf : s.depot.forming = some (.marking last todo packed)) :
    ∃ t, exec .batchForm s = .next t ∧ Offered (s.withDepot { s.depot with forming := none }) last todo
      (todo.foldl State.markOne (packed, s.withDepot { s.depot with forming := none })) t := by
  have held := (h.midway hm).held
  rw [hf] at held
  obtain ⟨-, -, joined, few⟩ := held
  have few : s.depot.outstanding.length + todo.length ≤ 16 := few
  have room : s.formWork = todo.length + 1 + (6 * (s.directory.length + 1) + 16 - todo.length) := by
    simp only [State.formWork, Config.batchRecords]; omega
  have run := execBatchForm_forms hm
  obtain ⟨x, hx⟩ : ∃ x, s.withDepot { s.depot with forming := none } = x := ⟨_, rfl⟩
  have met : x.interposed = false := hx ▸ hi
  have packs : packed.length = x.depot.outstanding.length := hx ▸ joined
  rw [hx] at run ⊢
  rw [hf, Option.getD_some, room, State.formOn_marking last todo packed x met] at run
  exact ⟨_, run, .all packs last todo⟩

/-- The batch of a free engine is formed whole, where nothing meets it. -/
theorem State.Ok.formOn_free (h : s.Ok) (hm : s.mayForm = true) (hi : s.interposed = false)
    (hf : s.depot.forming = none) : exec .batchForm s = .next s.wholeBatch := by
  have same : s.withDepot { s.depot with forming := none } = s := by
    show { s with depot := { s.depot with forming := none } } = s
    rw [← hf]
  rw [execBatchForm_forms hm, same, hf, Option.getD_none, State.formOn_whole s h.directory.rising hi]

/-- With something after the cursor the first survey is the choice. -/
theorem State.choose_first (s : State) (h : (s.survey s.depot.cursor).1 ≠ []) :
    s.choose = s.survey s.depot.cursor := by
  unfold State.choose
  exact if_neg (mt List.isEmpty_iff.1 h)

/-- With nothing after the cursor the survey is made once more, from start (R158). -/
theorem State.choose_again (s : State) (h : (s.survey s.depot.cursor).1 = []) :
    s.choose = (s.survey s.depot.cursor).2.survey none := by
  unfold State.choose
  exact if_pos (List.isEmpty_iff.2 h)

/-- The byte that says which of an upload record's values are present (R174). -/
theorem presence_byte : ∀ signal power reading probe : Bool,
    packBits signal power reading probe reading false false false =
      (if signal then (1 : Byte) else 0) ||| (if power then 2 else 0) ||| (if reading then 0x14 else 0) |||
        (if probe then 8 else 0) := by decide

/-- Settles O56: the survey by `surveySlot_live` and `Ordered.survey`, a record's marking by `markOne_marked`, the rows
between two reads by `formOn_met` and the arbiter's turn, and a batch that nothing meets by `formOn_whole` and
`Offered.all`. -/
theorem batchesAreFormed : Obligations.BatchesAreFormed := by
  unfold Obligations.BatchesAreFormed
  intro ordered selectable met offered
  have metIff (s : State) : s.interposed = true ↔ met s := s.interposed_iff
  have unmet {s : State} (h : ¬met s) : s.interposed = false := Bool.not_eq_true _ ▸ mt (metIff s).1 h
  have offeredEq {s : State} {x : Depot} {h : Header} {last : Option Key} {y : List (List Byte) × State}
      (link : s.depot.link = .attached)
      (hx : x = { s.depot with forming := none, outstanding := y.2.depot.outstanding }) (hh : h = s.params) :
      x.offering h last y.1 = offered s last y := by
    rw [hx, hh]
    simp only [Depot.offering, offered, link]
  refine ⟨fun s cursor kept slot => ⟨rfl, State.surveySlot_failed, fun r good live => ?_⟩, fun s cursor => rfl,
    fun s packed k => ⟨fun r d good hd live serial fit => ?_, fun unfit => State.markOne_of_unfit ?_⟩,
    fun r date note values => ?_,
    fun s again status next kept hok => ⟨fun slot d hd hn hs lowest => ?_, fun none => ?_⟩,
    fun s last k todo packed => rfl, interposes_iff,
    fun n w s t => ⟨fun ended => State.formOn_over ended n, fun w' read => ?_⟩,
    fun s w c rest hp => ?_, fun s hok => ?_, fun s hok hp hs he ho hl hf hm => ?_⟩
  · intro k fits
    have fitsIff : r.fits slot cursor = true ↔ fits := r.fits_iff slot cursor
    rw [State.surveySlot_live good live]
    refine ⟨fun fit => ?_, fun unfit => if_neg (mt fitsIff.1 unfit)⟩
    rw [if_pos (fitsIff.2 fit)]
    exact ⟨insertByKey_perm _ kept, fun h => Ordered.insertByKey h _⟩
  · intro marked read chain sent
    obtain ⟨packs, cached, directory, depot⟩ := State.markOne_marked packed good hd live serial
      (r.selectable_iff.2 fit) (marked := marked) rfl (read := read) rfl
    have after : marked.afterRead d.chain read = sent := by
      unfold Record.afterRead
      simp only [sent, chain]
      split <;> rfl
    rw [after] at packs cached
    exact ⟨packs, cached, directory, depot, State.markOne_quiet packed s k⟩
  · rcases unfit with failed | free | unfit
    · exact .inl failed
    · exact .inr (.inl free)
    · refine .inr (.inr fun r live both => ?_)
      rcases unfit r live with serial | unselectable
      · exact serial both.1
      · exact unselectable (r.selectable_iff.1 both.2)
  · intro optional
    have probe : (r.current.map (·.byProbe)).getD false = r.current.any (·.byProbe) := by cases r.current <;> rfl
    have value (x : Option Byte) : optByte x = x.getD 0 := by cases x <;> rfl
    unfold Record.uploadBytes
    rw [presence_byte, probe, value, value]
    cases r.current with
    | none => simp [optional, optTime, optWord, wordBytes]
    | some c => simp [optional, optTime, optWord]
  · exact State.formRead_candidate (hok.candidate_of_lowest hd hn hs lowest)
  · have ended := State.formRead_classEnd (again := again) (kept := kept) (hok.candidate_none none)
    refine ⟨fun few class_ => ?_, fun few class_ => ?_, fun last some => ?_, fun class_ empty first => ?_,
      fun class_ empty second => ?_⟩
    · exact ended.trans (State.endClass_next few (by rw [class_]; rfl))
    · exact ended.trans (State.endClass_next few (by rw [class_]; rfl))
    · exact ended.trans ((State.endClass_last last).trans (if_neg some))
    · rw [ended, State.endClass_last (.inr class_), if_pos empty, first]
      rfl
    · rw [ended, State.endClass_last (.inr class_), if_pos empty, second]
      rfl
  · refine ⟨State.formRead_pending read, fun free => ?_, fun waits => ?_⟩
    · exact State.formOn_read (unmet free) read (State.formRead_pending read) n
    · intro drew held
      rw [State.formOn_met read ((metIff s).2 waits)]
      show (if Config.commandFirst t.draws then if t.rowGoesFirst w' then held drew w' else drew.readAndYield w'
        else drew.formOn n w') = _
      unfold State.readAndYield
      rcases drew.formRead w' with ⟨_ | w'', u⟩ <;> rfl
  · intro both
    refine ⟨fun engine => ?_, fun block => ?_, fun ht hm hb => ?_, fun k todo last packed hw => ?_,
      fun again status next kept hw => ?_⟩
    · have unit : rowUnit c = some .matching := by rcases engine with rfl | rfl <;> rfl
      rw [State.rowGoesFirst_of_unit hp unit, State.goesBefore_iff, State.beforeInTurn_matching]
    · rw [State.rowGoesFirst_of_unit hp (rowUnit_of_block block), State.goesBefore_iff, State.beforeInTurn_command]
    · exact State.rowGoesFirst_of_none hp (rowUnit_of_other ht hm hb) w
    · rw [hw]; exact s.needsFill_iff k.key.slot
    · rw [hw]
      show (s.candidate status next).any (fun e => s.needsFill e.1) = true ↔ _
      rw [Option.any_eq_true]
      simp only [State.needsFill_iff]
  · intro may
    have mayIff : s.mayForm = true ↔ may := s.mayForm_iff
    refine ⟨fun mayNot => execBatchForm_idle (mt mayIff.1 mayNot), fun forms => ?_,
      fun forms free last todo packed marking => ?_⟩
    · have run := execBatchForm_forms (mayIff.2 forms)
      have outside := State.formOn_outside (s.withDepot { s.depot with forming := none }) s.formWork
        (s.depot.forming.getD Forming.start)
      refine ⟨_, rfl, run, outside.1, outside.2, fun held => (metIff s).1 ?_⟩
      exact (hok.batch_held (mayIff.2 forms)).resolve_left held
    · obtain ⟨t, run, offer⟩ := hok.formOn_rest (mayIff.2 forms) (unmet free) marking
      have quiet : Quiet s { t with depot := s.depot } := offer.quiet.set_depot s.depot
      obtain ⟨-, -, link, -⟩ := forms
      refine ⟨t, run, offer.same, offer.depot.trans (offeredEq link rfl rfl), offer.size, quiet⟩
  · intro x first
    have mayForm := s.mayForm_iff.2 ⟨hp, hs, hl, fun _ => ⟨he, ho⟩, fun held => absurd hf held⟩
    have run := hok.formOn_free mayForm (unmet hm) hf
    have quiet : Quiet s x.2 := (Quiet.refl s).choose
    refine ⟨fun some => ?_, fun none => ?_, s.choose_length, Ordered.choose s, quiet, fun none => ?_, fun some => ?_⟩
    · exact s.choose_first some
    · exact s.choose_again none
    · have whole : s.wholeBatch = x.2.finishUpload := if_pos (List.isEmpty_iff.2 none)
      obtain ⟨depot, done, -, -, bare, kept⟩ := x.2.finishUpload_spec
      rw [quiet.depot] at depot
      rw [quiet.route] at bare kept
      exact ⟨_, whole ▸ run, depot, done, bare, kept⟩
    · intro y
      have whole : s.wholeBatch = y.2.beginOffer (x.1.getLast?.map (·.key)) y.1 := if_neg (mt List.isEmpty_iff.1 some)
      have offer : Offered x.2 _ x.1 y (y.2.beginOffer (x.1.getLast?.map (·.key)) y.1) :=
        .all (packed := []) (by rw [quiet.depot, ho]; rfl) _ x.1
      obtain ⟨joined, outstanding, chosen⟩ := offer.chosen
      rw [quiet.depot, ho, List.nil_append] at outstanding
      have params : x.2.params = s.params := congrArg (fun x : Route => x.header.getD Header.blank) quiet.route
      have depot : { x.2.depot with outstanding := y.2.depot.outstanding } =
          { s.depot with forming := none, outstanding := y.2.depot.outstanding } := by rw [quiet.depot, ← hf]
      refine ⟨_, whole ▸ run, offer.same, offer.size, outstanding ▸ chosen,
        offer.depot.trans (offeredEq hl depot params), quiet.trans ?_⟩
      have marked := offer.quiet
      rwa [quiet.depot] at marked

end Sys2Proof.Machine
end

