-- ==== Sys2Proof/Proofs/Ports.lean ====
section
/-! PROOF. The receiver ports: what a byte, a gap, PORT_MODE and PORT_RESET make of a port (O19, O21, O22), a whole frame's
bytes (O20), and the port that a free engine serves next (O23). -/

namespace Sys2Proof.Machine

variable {s t u : State} {p : Fin 4} {b : Byte} {x y : Port}

/-! ### One port changed -/

@[simp] theorem State.setPort_port (s : State) (p : Fin 4) (x : Port) : (s.setPort p x).port p = x := by
  unfold State.setPort State.port
  rw [State.withPorts_ports, Vector.get_eq_getElem, Vector.getElem_set_self]

@[simp] theorem State.setPort_setPort (s : State) (p : Fin 4) (x y : Port) :
    (s.setPort p x).setPort p y = s.setPort p y := by
  unfold State.setPort
  rw [State.withPorts_ports, Vector.set_set, State.withPorts_twice]

/-- A port put back as it is. -/
theorem State.setPort_self (s : State) (p : Fin 4) : s.setPort p (s.port p) = s := by
  unfold State.setPort State.port
  rw [Vector.get_eq_getElem, Vector.set_getElem_self]
  rfl

/-! ### A report that a row has met (R58, R147) -/

/-- Without a report under way nothing goes on. -/
theorem State.goOnReport_of_none (h : ∀ w, s.command.unit ≠ .executing (.reporting w)) : s.goOnReport = s := by
  unfold State.goOnReport
  split
  next w e => exact absurd e (h w)
  · rfl

theorem State.goOnReport_reporting {w : Reporting} (h : s.command.unit = .executing (.reporting w)) :
    s.goOnReport = State.reportOn w.report (w.report.valuesFrom w.next) w.data s := by
  unfold State.goOnReport
  rw [h]

/-- `t` is `s` but for what a report that goes on changes: the command unit and the count of free values drawn, and
these only where a report is under way. -/
structure Reported (s t : State) : Prop where
  same : t = { s with command := t.command, draws := t.draws }
  idle : (∀ w, s.command.unit ≠ .executing (.reporting w)) → t = s

theorem Reported.refl (s : State) : Reported s s := ⟨rfl, fun _ => rfl⟩

theorem Reported.trans (h : Reported s t) (h' : Reported t u) : Reported s u where
  same := by rw [h'.same, h.same]
  idle none := (h'.idle (by rw [h.idle none]; exact none)).trans (h.idle none)

/-- A report changes the command unit and the count of free values drawn alone. -/
theorem State.reportOn_same (s : State) (r : Report) (ks : List Nat) (data : List Byte) :
    State.reportOn r ks data s =
      { s with command := (State.reportOn r ks data s).command, draws := (State.reportOn r ks data s).draws } :=
  State.reportOn_keeps (P := fun t => t = { s with command := t.command, draws := t.draws })
    (fun t _ h => by rw [h]; rfl) (fun t _ h => by rw [h]; rfl) rfl r ks data

theorem Reported.goOnReport (s : State) : Reported s s.goOnReport where
  same := by
    unfold State.goOnReport
    split
    · exact s.reportOn_same _ _ _
    · rfl
  idle := State.goOnReport_of_none

/-! ### A byte at a port (R45, R46) -/

/-- A byte while hunting: only a start marker is kept. -/
theorem Port.take_hunting (h : x.gathered = []) (hb : b ≠ 0xA6) (p : Fin 4) (clock : Word) :
    x.take p clock b = (x, false) := by
  unfold Port.take
  dsimp only
  rw [if_pos h, if_neg (show b ≠ startMarker from hb)]

theorem Port.take_start (h : x.gathered = []) (p : Fin 4) (clock : Word) :
    x.take p clock 0xA6 = ({ x with gathered := [0xA6] }, false) := by
  unfold Port.take
  dsimp only
  rw [if_pos h, if_pos (show (0xA6 : Byte) = startMarker from rfl)]

theorem lengthAllowed_iff (b : Byte) : lengthAllowed b = true ↔ b.toNat % 2 = 1 ∧ 17 ≤ b.toNat ∧ b.toNat ≤ 41 := by
  simp [lengthAllowed, and_assoc]

/-- The byte after the start marker is judged as the length. -/
theorem Port.take_length (h : x.gathered.length = 1) (p : Fin 4) (clock : Word) (b : Byte) :
    x.take p clock b = (if lengthAllowed b then { x with gathered := x.gathered ++ [b] } else x.damage, false) := by
  have some : x.gathered ≠ [] := fun none => by rw [none] at h; cases h
  unfold Port.take
  dsimp only
  rw [if_neg some, if_pos h]

/-- A byte already there stays where it is, however many follow. -/
theorem byteAt_append {bs : List Byte} {i : Nat} (h : i < bs.length) (more : List Byte) :
    byteAt (bs ++ more) i = byteAt bs i := List.getD_append _ _ _ _ h

/-- A byte past the length byte is gathered until the frame is whole. -/
theorem Port.take_gather (h : 2 ≤ x.gathered.length)
    (hl : x.gathered.length + 1 < (byteAt x.gathered 1).toNat) (p : Fin 4) (clock : Word) (b : Byte) :
    x.take p clock b = ({ x with gathered := x.gathered ++ [b] }, false) := by
  have some : x.gathered ≠ [] := fun none => by rw [none] at h; cases h
  unfold Port.take
  dsimp only
  rw [if_neg some, if_neg (by omega), byteAt_append h, if_pos (by rwa [List.length_append])]

/-- The byte that makes a frame whole has it judged. -/
theorem Port.take_whole {bs : List Byte} (h : 2 ≤ x.gathered.length) (hb : x.gathered ++ [b] = bs)
    (hl : bs.length = (byteAt bs 1).toNat) (p : Fin 4) (clock : Word) :
    x.take p clock b = if frameGood bs then
      (x.accept (Frame.ofBytes bs clock p (decide (x.mode = .probe))), decide (2 ≤ x.buffer.length))
      else (x.damage, false) := by
  have some : x.gathered ≠ [] := fun none => by rw [none] at h; cases h
  unfold Port.take
  dsimp only
  rw [if_neg some, if_neg (by omega), hb, if_neg (by omega)]
  rfl

/-- A hunting port has no bytes to discard. -/
theorem Port.damage_hunting (h : x.gathered = []) : x.damage = { x with damaged := satInc x.damaged } := by
  unfold Port.damage
  rw [← h]

/-- A good frame joins the tail of a holding buffer with room (R48). -/
theorem Port.accept_room (h : x.gathered = []) (room : x.buffer.length < 2) (f : Frame) :
    x.accept f = { x with received := satInc x.received, buffer := x.buffer ++ [f] } := by
  unfold Port.accept
  rw [if_pos room, ← h]

/-- With two frames waiting a good frame is overflowed (R51). -/
theorem Port.accept_full (h : x.gathered = []) (full : 2 ≤ x.buffer.length) (f : Frame) :
    x.accept f =
      { x with received := satInc x.received, overflowed := satInc x.overflowed, overflowMark := true } := by
  unfold Port.accept
  rw [if_neg (by omega), ← h]

/-- A port that listens: neither OFF nor in a reset pulse (R45). -/
def Port.listens (x : Port) : Prop := x.mode ≠ .off ∧ x.pulsing = false

theorem State.portByte_listens (h : (s.port p).listens) (b : Byte) :
    s.portByte p b =
      if ((s.port p).take p s.route.clock b).2 then
        (s.setPort p ((s.port p).take p s.route.clock b).1).raise .portOverflow
      else s.setPort p ((s.port p).take p s.route.clock b).1 := by
  obtain ⟨mode, pulsing⟩ := h
  unfold State.portByte
  dsimp only
  rw [if_neg (by simp [mode, pulsing])]

/-- A byte that overflows no frame changes its port alone. -/
theorem State.portByte_of_take (h : (s.port p).listens) (ht : (s.port p).take p s.route.clock b = (x, false)) :
    s.portByte p b = s.setPort p x := by
  rw [s.portByte_listens h, ht]
  rfl

/-- A deaf port discards the byte. -/
theorem State.portByte_deaf (h : (s.port p).mode = .off ∨ (s.port p).pulsing = true) (b : Byte) :
    s.portByte p b = s := if_pos h

theorem execPortByte_on (h : s.power = .on) (p : Fin 4) (b : Byte) :
    exec (.portByte p b) s = .next (s.portByte p b).goOnReport := by
  show execPortByte p b s = _
  exact if_neg (by simp [h])

/-- Settles O19, by the cases of `Port.take` that complete no frame. -/
theorem portsTakeBytes : Obligations.PortsTakeBytes := by
  unfold Obligations.PortsTakeBytes
  intro p b s on mode pulsing
  have kept {x : Port} (ht : (s.port p).take p s.route.clock b = (x, false)) :
      exec (.portByte p b) s = .next (s.setPort p x).goOnReport := by
    rw [execPortByte_on on, State.portByte_of_take ⟨mode, pulsing⟩ ht]
  refine ⟨fun hunting other => ?_, fun hunting start => ?_, fun one good => ?_, fun one bad => ?_,
    fun two more => ?_⟩
  · rw [kept (Port.take_hunting hunting other p _), State.setPort_self]
  · subst start
    exact kept (Port.take_start hunting p _)
  · refine kept ?_
    rw [Port.take_length one, if_pos ((lengthAllowed_iff b).2 good)]
  · refine kept (x := (s.port p).damage) ?_
    rw [Port.take_length one, if_neg (mt (lengthAllowed_iff b).1 bad)]
  · exact kept (Port.take_gather two more p _ b)

/-! ### Deaf ports and broken frames (R45, R47, R149) -/

theorem State.byteGap_idle (h : (s.port p).gathered = [] ∨ (s.port p).pulsing = true) : s.byteGap p = s := if_pos h

/-- An assembling port gives its frame up as damaged. -/
theorem State.byteGap_damage (h : (s.port p).gathered ≠ []) (hp : (s.port p).pulsing = false) :
    s.byteGap p = s.setPort p (s.port p).damage := if_neg (by simp [h, hp])

theorem execByteGapTimeout_on (h : s.power = .on) (p : Fin 4) :
    exec (.byteGapTimeout p) s = .next (s.byteGap p).goOnReport := by
  show execByteGapTimeout p s = _
  exact if_neg (by simp [h])

/-- Settles O21: a byte at a deaf port by `portByte_deaf`, a gap by `byteGap_idle` and `byteGap_damage`. -/
theorem unwantedBytesAreDiscarded : Obligations.UnwantedBytesAreDiscarded := by
  unfold Obligations.UnwantedBytesAreDiscarded
  refine ⟨fun p b s deaf => ?_, fun p s on idle => ?_, fun p s on some pulsing => ?_, fun s on some => ?_⟩
  · by_cases on : s.power = .on
    · rw [execPortByte_on on, State.portByte_deaf deaf, if_pos on]
    · rw [if_neg on]
      exact if_pos on
  · rw [execByteGapTimeout_on on, State.byteGap_idle idle]
  · rw [execByteGapTimeout_on on, State.byteGap_damage some pulsing]
    rfl
  · show Host.Outcome.next (if s.power = .on ∧ s.depot.rx ≠ [] then s.damageDepot else s) = _
    rw [if_pos ⟨on, some⟩]
    rfl

/-! ### PORT_MODE and PORT_RESET (R55, R56) -/

theorem portOfParam_of_toNat {port : Byte} (h : port.toNat = p.val) : portOfParam port = some p := by
  unfold portOfParam
  rw [dif_pos (by omega)]
  exact congrArg some (Fin.ext h)

theorem PortMode.ofCode_code (m : PortMode) : PortMode.ofCode m.code = some m := by cases m <;> rfl

/-- Commands one after another: the rest go on from where the first has led. -/
theorem execAll_cons {c : Instr} (h : exec c s = .next t) (rest : List Instr) :
    execAll (c :: rest) s = execAll rest t := by
  rw [execAll, h]

/-- A port as PORT_RESET leaves it for the pulse (R56). -/
def Port.inPulse (x : Port) : Port :=
  { x with gathered := [], buffer := [], overflowMark := false, pulsing := true }

/-- PORT_RESET on a port there is begins the port's pulse. -/
theorem execPortReset_serving (h : s.serving) {port : Byte} (hp : port.toNat = p.val) :
    exec (.portReset port) s = .next ((s.setPort p (s.port p).inPulse).executing (.portReset p)) := by
  show execPortReset port s = _
  unfold execPortReset
  rw [State.serve_of_serving h, portOfParam_of_toNat hp]
  rfl

/-- The end of the pulse that PORT_RESET waits for. -/
theorem execResetPulseEnd_waiting (on : s.power = .on) (h : s.command.unit = .executing (.portReset p)) :
    exec .resetPulseEnd s = .next ((s.setPort p { s.port p with pulsing := false }).respond .ok []) := by
  show execResetPulseEnd s = _
  unfold execResetPulseEnd
  rw [on, h]

/-- Settles O22: PORT_RESET by its beginning and the end of its pulse, one after the other. -/
theorem portCommandsTakeEffect : Obligations.PortCommandsTakeEffect := by
  unfold Obligations.PortCommandsTakeEffect
  intro s serving
  have on : s.power = .on := serving.1.1
  refine ⟨fun port mode p m hp hm => ?_, fun port p hp => ⟨execPortReset_serving serving hp, ?_⟩⟩
  · show execPortMode port mode s = _
    unfold execPortMode
    rw [State.serve_of_serving serving, portOfParam_of_toNat hp, hm, PortMode.ofCode_code]
  · rw [execAll_cons (execPortReset_serving serving hp),
      execAll_cons (execResetPulseEnd_waiting (s := (s.setPort p (s.port p).inPulse).executing (.portReset p)) on rfl)]
    show Host.Outcome.next (((s.setPort p (s.port p).inPulse).setPort p
      { (s.setPort p (s.port p).inPulse).port p with pulsing := false }).reply .ok []) = _
    rw [State.setPort_port, State.setPort_setPort]
    rfl

/-! ### A whole frame's bytes (R46, R48, R49, R51) -/

/-- A byte changes its port and the events pending alone. -/
theorem State.portByte_same (s : State) (p : Fin 4) (b : Byte) :
    s.portByte p b = { s with ports := (s.portByte p b).ports, events := (s.portByte p b).events } := by
  unfold State.portByte
  dsimp only
  split_ifs <;> rfl

@[simp] theorem State.portByte_command (s : State) (p : Fin 4) (b : Byte) : (s.portByte p b).command = s.command := by
  rw [s.portByte_same]

@[simp] theorem State.portByte_power (s : State) (p : Fin 4) (b : Byte) : (s.portByte p b).power = s.power := by
  rw [s.portByte_same]

/-- What a byte makes of a port has nothing to do with the command unit or with the free values drawn. -/
theorem State.portByte_withCommand (s : State) (x : Command) (n : Nat) (p : Fin 4) (b : Byte) :
    ((s.withCommand x).withDraws n).portByte p b = ((s.portByte p b).withCommand x).withDraws n := by
  have port : ((s.withCommand x).withDraws n).port p = s.port p := rfl
  unfold State.portByte
  simp only [port, State.withDraws_route, State.withCommand_route]
  split_ifs <;> rfl

theorem Reported.portByte (h : Reported s t) (p : Fin 4) (b : Byte) :
    Reported (s.portByte p b) (t.portByte p b) := by
  have same : t = (s.withCommand t.command).withDraws t.draws := h.same
  refine ⟨?_, fun none => by rw [h.idle (by rwa [State.portByte_command] at none)]⟩
  rw [same, State.portByte_withCommand]
  rfl

/-- Bytes at a port of a 460 that runs, one after another: what the port makes of them, and a report that goes on among
them. -/
theorem execAll_portBytes (on : s.power = .on) (h : Reported s t) (p : Fin 4) (bs : List Byte) :
    ∃ u, execAll (bs.map (Instr.portByte p)) t = .next u ∧ Reported (bs.foldl (fun v b => v.portByte p b) s) u := by
  induction bs generalizing s t with
  | nil => exact ⟨t, rfl, h⟩
  | cons b bs ih =>
    have running : t.power = .on := by rw [h.same]; exact on
    obtain ⟨u, run, reported⟩ := ih ((s.portByte_power p b).trans on) ((h.portByte p b).trans (.goOnReport _))
    refine ⟨u, ?_, reported⟩
    rw [List.map_cons, execAll_cons (execPortByte_on running p b)]
    exact run

/-- The bytes of a frame up to one of them. -/
theorem take_succ_byteAt {bs : List Byte} {k : Nat} (hk : k < bs.length) : bs.take (k + 1) = bs.take k ++ [byteAt bs k] := by
  rw [byteAt, List.getD_eq_getElem _ _ hk, List.take_append_getElem]

section Whole
variable {bs : List Byte} (hm : byteAt bs 0 = 0xA6) (hl : bs.length = (byteAt bs 1).toNat)
  (ha : lengthAllowed (byteAt bs 1) = true)
include hm hl ha

/-- A byte of a frame that does not make it whole is gathered. -/
theorem Port.take_gathers {k : Nat} (hk : k + 1 < bs.length) (hx : x.gathered = bs.take k) (p : Fin 4) (clock : Word) :
    x.take p clock (byteAt bs k) = ({ x with gathered := bs.take (k + 1) }, false) := by
  have size : x.gathered.length = k := by rw [hx, List.length_take]; omega
  rw [take_succ_byteAt (by omega), ← hx]
  match k with
  | 0 =>
    have none : x.gathered = [] := List.eq_nil_of_length_eq_zero size
    rw [hm, Port.take_start none, none]
    rfl
  | 1 => rw [Port.take_length size, if_pos ha]
  | k + 2 =>
    have second : byteAt bs 1 = byteAt x.gathered 1 := by
      rw [← List.take_append_drop (k + 2) bs, ← hx, byteAt_append (by omega)]
    exact Port.take_gather (by omega) (by rw [← second, size, ← hl]; omega) p clock _

/-- The first bytes of a frame at a hunting port that listens are gathered, and nothing else changes. -/
theorem State.portBytes_gathers (listens : (s.port p).listens) (hunting : (s.port p).gathered = []) :
    ∀ k, k < bs.length → (bs.take k).foldl (fun v b => v.portByte p b) s =
      s.setPort p { s.port p with gathered := bs.take k }
  | 0, _ => by
    rw [List.take_zero, List.foldl_nil, ← hunting]
    exact (s.setPort_self p).symm
  | k + 1, hk => by
    have gathered := State.portBytes_gathers listens hunting k (by omega)
    generalize hu : s.setPort p { s.port p with gathered := bs.take k } = u at gathered
    have port : u.port p = { s.port p with gathered := bs.take k } := by rw [← hu, State.setPort_port]
    have taken := Port.take_gathers hm hl ha hk (x := u.port p) (by rw [port]) p u.route.clock
    rw [take_succ_byteAt (by omega), List.foldl_append, gathered]
    show u.portByte p (byteAt bs k) = _
    rw [State.portByte_of_take (by rw [port]; exact listens) taken, port, ← hu, State.setPort_setPort,
      take_succ_byteAt (by omega)]

/-- The bytes of a whole frame at a hunting port that listens: the last one has it judged. -/
theorem State.portBytes_whole (listens : (s.port p).listens) (hunting : (s.port p).gathered = []) :
    bs.foldl (fun v b => v.portByte p b) s =
      if frameGood bs then
        if 2 ≤ (s.port p).buffer.length then
          (s.setPort p ((s.port p).accept
            (Frame.ofBytes bs s.route.clock p (decide ((s.port p).mode = .probe))))).raise .portOverflow
        else s.setPort p ((s.port p).accept
          (Frame.ofBytes bs s.route.clock p (decide ((s.port p).mode = .probe))))
      else s.setPort p (s.port p).damage := by
  obtain ⟨-, long, -⟩ := (lengthAllowed_iff _).1 ha
  obtain ⟨k, size⟩ : ∃ k, bs.length = k + 1 := ⟨bs.length - 1, by omega⟩
  have gathered := State.portBytes_gathers hm hl ha listens hunting k (by omega)
  have whole : bs.take k ++ [byteAt bs k] = bs := by
    rw [← take_succ_byteAt (by omega), ← size, List.take_length]
  generalize hu : s.setPort p { s.port p with gathered := bs.take k } = u at gathered
  have port : u.port p = { s.port p with gathered := bs.take k } := by rw [← hu, State.setPort_port]
  have judged := Port.take_whole (x := u.port p) (b := byteAt bs k) (bs := bs)
    (by rw [port]; simp; omega) (by rw [port]; exact whole) hl p u.route.clock
  have last : bs.foldl (fun v b => v.portByte p b) s = u.portByte p (byteAt bs k) := by
    rw [← gathered]
    conv_lhs => rw [← whole, List.foldl_append]
    rfl
  have again (y : Port) : u.setPort p y = s.setPort p y := by rw [← hu, State.setPort_setPort]
  have clock : u.route.clock = s.route.clock := by rw [← hu]; rfl
  rw [last, State.portByte_listens (by rw [port]; exact listens), judged, port, clock]
  by_cases good : frameGood bs = true
  · simp only [good, again, if_true, decide_eq_true_eq]
    rfl
  · rw [if_neg good, if_neg good, if_neg Bool.false_ne_true, again]
    rfl

end Whole

/-- Settles O20: the bytes up to the last are gathered (`portBytes_gathers`), the last has the frame judged
(`portBytes_whole`), and a report goes on among them (`execAll_portBytes`). -/
theorem wholeFramesAreTaken : Obligations.WholeFramesAreTaken := by
  unfold Obligations.WholeFramesAreTaken
  intro p bs s on mode pulsing hunting marker size allowed leaves
  have whole := State.portBytes_whole marker size allowed ⟨mode, pulsing⟩ hunting
  have taken {v : State} (h : bs.foldl (fun v b => v.portByte p b) s = v) : leaves v := by
    obtain ⟨t, run, reported⟩ := execAll_portBytes on (.refl s) p bs
    rw [h] at reported
    have command : v.command = s.command := by
      rw [← h]
      exact List.foldlRecOn (motive := fun v : State => v.command = s.command) bs _ rfl
        fun v hv b _ => (v.portByte_command p b).trans hv
    exact ⟨t, run, reported.same, fun none => reported.idle (by rwa [command])⟩
  refine ⟨fun bad => taken ?_, fun good room => taken ?_, fun good full => taken ?_⟩
  · rw [whole, if_neg (by simp [bad]), Port.damage_hunting hunting]
  · rw [whole, if_pos good, if_neg (by omega), Port.accept_room hunting room]
  · rw [whole, if_pos good, if_pos full, Port.accept_full hunting full]

/-! ### The port that a free engine serves (R53, R54) -/

/-- The ports in the order that begins after the one served last. -/
theorem State.nextPort_order (s : State) : s.nextPort =
    ((List.finRange 4).map (s.matching.served + 1 + ·)).find? fun p => !(s.port p).buffer.isEmpty := by
  have order : ∀ v : Fin 4, [v + 1, v + 2, v + 3, v] = (List.finRange 4).map (v + 1 + ·) := by decide
  unfold State.nextPort
  rw [order]

/-- The next port in turn is the first in that order whose holding buffer is not empty. -/
theorem State.nextPort_first {k : Fin 4}
    (hj : ∀ j : Fin 4, j < k → (s.port (s.matching.served + 1 + j)).buffer = [])
    (hk : (s.port (s.matching.served + 1 + k)).buffer ≠ []) : s.nextPort = some (s.matching.served + 1 + k) := by
  rw [State.nextPort_order, List.find?_eq_some_iff_getElem]
  refine ⟨by simpa using hk, k.val, by simp, by simp, fun j before => ?_⟩
  simpa using hj ⟨j, by omega⟩ before

/-- The head frame of the next port in turn is taken (R60, R61). -/
theorem State.takeFrame_of_next {f : Frame} {rest : List Frame} (hn : s.nextPort = some p)
    (hb : (s.port p).buffer = f :: rest) : s.takeFrame =
      if s.gateOpen then (s.takeHead p rest).passGate f
      else (s.takeHead p rest).withMatching
        { (s.takeHead p rest).matching with drops := satInc s.matching.drops } := by
  unfold State.takeFrame
  rw [hn]
  dsimp only
  rw [hb]
  rfl

theorem execFrameTake_free (on : s.power = .on) (h : s.matching.inHand = none) :
    exec .frameTake s = .next s.takeFrame.goOnReport := by
  show execFrameTake s = _
  unfold execFrameTake
  rw [if_neg (by simp [on]), h]
  rfl

/-- Settles O23: the port served by `nextPort_first`, its head frame by `takeFrame_of_next`. -/
theorem framesAreTakenRoundRobin : Obligations.FramesAreTakenRoundRobin := by
  unfold Obligations.FramesAreTakenRoundRobin
  intro s k f rest on free before head p taken
  have next : s.nextPort = some p := State.nextPort_first before (by rw [head]; exact List.cons_ne_nil _ _)
  have frame := State.takeFrame_of_next next head
  rw [execFrameTake_free on free, frame]
  refine ⟨fun shut => ?_, fun opened => ?_⟩
  · rw [shut]
    rfl
  · rw [if_pos opened]
    rfl

end Sys2Proof.Machine
end

