-- ==== Sys2Proof/Proofs/Reports.lean ====
section
/-! PROOF. The reporting commands (O33): the values of PORT_STATUS and ROUTE_STATUS read one after another, and the reports
that are one answer. -/

namespace Sys2Proof.Machine

variable {s : State}

/-! ### The values (R58, R147, R173) -/

theorem Port.statusBytes_eq (x : Port) : x.statusBytes =
    [x.mode.code, boolByte (decide (x.gathered ≠ [])), natByte x.buffer.length] ++ halfBytes x.received ++
      halfBytes x.damaged ++ halfBytes x.overflowed ++ [boolByte x.overflowMark, boolByte x.pulsing] := by
  have assembling : (x.gathered != []) = decide (x.gathered ≠ []) := by rw [Bool.eq_iff_iff]; simp
  rw [← assembling]
  rfl

theorem State.values_ports (s : State) : s.values .ports =
    [(s.port 0).statusBytes, (s.port 1).statusBytes, (s.port 2).statusBytes, (s.port 3).statusBytes] := by
  have ports : s.ports.toList = (List.finRange 4).map s.port := by
    refine List.ext_getElem (by simp) fun i _ _ => ?_
    simp [State.port, Vector.get_eq_getElem]
  show s.ports.toList.map Port.statusBytes = _
  rw [ports]
  rfl

theorem State.values_length (s : State) (r : Report) : (s.values r).length = r.size := by
  rw [← r.sizes_length, ← s.values_sizes, List.length_map]

/-- The values read by number are all of them. -/
theorem State.values_eq_map (s : State) (r : Report) : (List.range r.size).map (s.value r) = s.values r := by
  refine List.ext_getElem (by simp [s.values_length]) fun i _ h => ?_
  rw [List.getElem_map, List.getElem_range, State.value, List.getD_eq_getElem _ _ h]

/-- The first value and those after it. -/
theorem State.values_flatten (s : State) (r : Report) :
    s.value r 0 ++ ((r.valuesFrom 1).map (s.value r)).flatten = (s.values r).flatten := by
  have all : r.valuesFrom 0 = 0 :: r.valuesFrom 1 := Report.valuesFrom_cons (by cases r <;> decide)
  rw [← s.values_eq_map, show List.range r.size = r.valuesFrom 0 from rfl, all, List.map_cons, List.flatten_cons]

/-! ### Rows between two values -/

theorem meetsReport_iff (c : Instr) : meetsReport c = true ↔ (∃ p b, c = .portByte p b) ∨
    (∃ p, c = .byteGapTimeout p) ∨ c = .frameTake ∨ c = .frameMatch ∨ c = .routeClockTick := by
  refine ⟨fun h => ?_, fun h => ?_⟩
  · unfold meetsReport at h
    split at h
    · exact .inl ⟨_, _, rfl⟩
    · exact .inr (.inl ⟨_, rfl⟩)
    · exact .inr (.inr (.inl rfl))
    · exact .inr (.inr (.inr (.inl rfl)))
    · exact .inr (.inr (.inr (.inr rfl)))
    · cases h
  · rcases h with ⟨p, b, rfl⟩ | ⟨p, rfl⟩ | rfl | rfl | rfl <;> rfl

theorem State.roadWaits_iff (s : State) :
    s.roadWaits = true ↔ ∃ c rest, s.pending = c :: rest ∧ meetsReport c = true := by
  unfold State.roadWaits
  cases s.pending with
  | nil => simp
  | cons c rest => simp

/-- With no such row at the front of the queue the next value is read. -/
theorem State.reportOn_unmet (h : s.roadWaits = false) (r : Report) (k : Nat) (ks : List Nat) (data : List Byte) :
    State.reportOn r (k :: ks) data s = State.reportOn r ks (data ++ s.value r k) s := by
  rw [State.reportOn]
  simp only [State.roadMeets, h, Bool.false_eq_true, if_false]

/-- Such a row comes before the next value, or behind it, as a free value has it. -/
theorem State.reportOn_met (h : s.roadWaits = true) (r : Report) (k : Nat) (ks : List Nat) (data : List Byte) :
    State.reportOn r (k :: ks) data s = if Config.roadFirst s.draws = true
      then (s.withDraws (s.draws + 1)).holdReport ⟨r, k, data⟩
      else State.reportOn r ks (data ++ s.value r k) (s.withDraws (s.draws + 1)) := by
  have value : (s.withDraws (s.draws + 1)).value r k = s.value r k := by cases r <;> rfl
  rw [State.reportOn]
  simp only [State.roadMeets, h, if_true, value]

/-- A report is answered, or a row has met it. -/
theorem State.reportOn_ends (s : State) (r : Report) (ks : List Nat) (data : List Byte) :
    (State.reportOn r ks data s).command.unit = .responding ∨ s.roadWaits = true ∧
      ∃ w, (State.reportOn r ks data s).command.unit = .executing (.reporting w) := by
  by_cases waits : s.roadWaits = true
  · induction ks generalizing s data with
    | nil => exact .inl rfl
    | cons k ks ih =>
      rw [State.reportOn_met waits]
      split_ifs
      · exact .inr ⟨waits, _, rfl⟩
      · exact ih (s.withDraws (s.draws + 1)) _ waits
  · exact .inl (by rw [State.reportOn_whole (Bool.not_eq_true _ ▸ waits)]; rfl)

/-! ### The commands served during scans too (R164) -/

theorem State.serve_of_listening {work : State → State} (h : s.listening) : s.serve true work = work s := by
  obtain ⟨on, unit⟩ := h
  unfold State.serve
  rw [if_neg (by simp [on]), if_neg (by simp [unit]), if_neg (by simp)]

/-- The command that makes a report. -/
def Report.command : Report → Instr
  | .ports => .portStatus
  | .route => .routeStatus

theorem exec_report (h : s.listening) (r : Report) : exec r.command s = .next (s.reportAll r) := by
  cases r
  · show execPortStatus s = _
    unfold execPortStatus
    rw [State.serve_of_listening h]
  · show execRouteStatus s = _
    unfold execRouteStatus
    rw [State.serve_of_listening h]

/-- With no such row at the front of the queue a report's values describe one instant. -/
theorem State.reportAll_unmet (h : s.roadWaits = false) (r : Report) :
    s.reportAll r = s.reply .ok (s.values r).flatten := by
  have value : s.written.value r = s.value r := by cases r <;> rfl
  unfold State.reportAll
  rw [State.reportOn_whole (s := s.written) h, value, s.values_flatten]
  rfl

/-! ### UPLOAD_STATUS (R160) -/

/-- A running timer's time left is never above the one before (log, entry 5). -/
theorem timeLeftNow_some (n : Nat) (was : Byte) :
    ∃ now, timeLeftNow n (some was) = some now ∧ now.toNat ≤ was.toNat := by
  refine ⟨_, rfl, ?_⟩
  have below := Nat.mod_lt (Config.timeLeft n) (Nat.add_one_pos was.toNat)
  rw [natByte, BitVec.toNat_ofNat]
  omega

theorem State.uploadStatusBytes_length (s : State) : s.uploadStatusBytes.length = 53 := by
  have slots : ((s.depot.outstanding.flatMap (fun e => natHalf e.1) ++ zeros 32).take 32).length = 32 := by
    rw [List.length_take, List.length_append, zeros_length]
    omega
  simp only [State.uploadStatusBytes, List.length_append, slots, optByteBytes_length, halfBytes_length,
    List.length_cons, List.length_nil]

theorem execUploadStatus_listening (h : s.listening) :
    exec .uploadStatus s = .next (s.timePassed.reply .ok s.timePassed.uploadStatusBytes) := by
  show execUploadStatus s = _
  unfold execUploadStatus
  rw [State.serve_of_listening h]

/-! ### Reports that a scan keeps off (R109, R129, R130) -/

theorem segOfParam_of_toNat {b : Byte} {n : Seg} (h : b.toNat = n.val) : segOfParam b = some n := by
  unfold segOfParam
  rw [dif_pos (by omega)]
  exact congrArg some (Fin.ext h)

theorem segOfParam_above {b : Byte} (h : 64 ≤ b.toNat) : segOfParam b = none := dif_neg (by omega)

theorem execPlanRead_serving (h : s.serving) : exec .planRead s =
    .next (s.reply .ok ([natByte s.segments.plan.length, segByte s.segments.active,
      natByte (s.segments.plan.take 16).length] ++ (s.segments.plan.take 16).flatMap s.planEntryBytes)) := by
  show execPlanRead s = _
  unfold execPlanRead
  rw [State.serve_of_serving h]

theorem execTamperRead_serving (h : s.serving) : exec .tamperRead s =
    .next (s.reply .ok ([natByte s.tamper.entries.length] ++ halfBytes s.tamper.evictions ++
      halfBytes s.tamper.turnedAway ++ [s.tamper.cabMode.code, boolByte s.tamper.invert, boolByte s.cabActive,
        natByte (s.tamper.entries.take 8).length] ++ (s.tamper.entries.take 8).flatMap TamperEntry.bytes)) := by
  show execTamperRead s = _
  unfold execTamperRead
  rw [State.serve_of_serving h]

/-- Settles O33: a report's next value by `reportOn_unmet` and `reportOn_met`, its end by `reportOn_ends`, what it leaves
by `reportOn_same`, and each other answer by its command's own equation. -/
theorem reportsOnlyReport : Obligations.ReportsOnlyReport := by
  unfold Obligations.ReportsOnlyReport
  intro port header values size moves met rest
  have metIff (s : State) : s.roadWaits = true ↔ met s := by
    simp only [s.roadWaits_iff, meetsReport_iff]
    rfl
  have unmet {s : State} (h : ¬met s) : s.roadWaits = false := Bool.not_eq_true _ ▸ mt (metIff s).1 h
  have valuesEq (s : State) (r : Report) : values s r = s.values r := by
    cases r with
    | ports =>
      rw [s.values_ports]
      simp only [Port.statusBytes_eq]
      rfl
    | route => rfl
  have valueEq (s : State) (r : Report) (k : Nat) : (values s r).getD k [] = s.value r k := by
    rw [valuesEq]; rfl
  have sizeEq (r : Report) : size r = r.size := by cases r <;> rfl
  have restEq (r : Report) (k : Nat) : rest r k = r.valuesFrom k := by cases r <;> rfl
  refine ⟨fun s r c hc listening => ?_, fun s r k ks data => ⟨rfl, fun free => ?_, fun waits => ?_⟩,
    fun s r ks data => ⟨s.reportOn_same r ks data, ?_⟩, fun s => ⟨s.goOnReport_of_none, fun w held => ?_⟩,
    fun s listening => ?_, fun s serving => ⟨?_, ?_, fun b n hb => ?_, fun b hb => ?_⟩⟩
  · have command : c = r.command := by rw [hc]; cases r <;> rfl
    rw [command, exec_report listening r, valueEq, restEq, valuesEq, sizeEq]
    refine ⟨rfl, fun free => by rw [State.reportAll_unmet (unmet free)], s.values_length r, ?_⟩
    rw [List.length_flatten, s.values_sizes]
    cases r <;> rfl
  · rw [State.reportOn_unmet (unmet free), valueEq]
  · rw [State.reportOn_met ((metIff s).2 waits), valueEq]
    rfl
  · exact (s.reportOn_ends r ks data).imp_right fun ⟨waits, held⟩ => ⟨(metIff s).1 waits, held⟩
  · rw [State.goOnReport_reporting held, restEq]
  · refine ⟨timeLeftNow s.draws s.depot.timer, fun stopped => by rw [stopped]; rfl,
      fun was running => by rw [running]; exact timeLeftNow_some _ _, ?_⟩
    intro t slots data
    have bytes : data = s.timePassed.uploadStatusBytes := rfl
    rw [execUploadStatus_listening listening, bytes]
    exact ⟨rfl, s.timePassed.uploadStatusBytes_length⟩
  · rw [execPlanRead_serving serving, List.length_take]
    rfl
  · rw [execTamperRead_serving serving, List.length_take]
    rfl
  · have complete : ((s.segment n).state == .complete && !(s.segment n).visited) =
        decide ((s.segment n).state = .complete ∧ (s.segment n).visited = false) := by rw [Bool.eq_iff_iff]; simp
    show execSegmentStatus b s = _
    unfold execSegmentStatus
    rw [State.serve_of_serving serving, segOfParam_of_toNat hb, ← complete]
  · show execSegmentStatus b s = _
    unfold execSegmentStatus
    rw [State.serve_of_serving serving, segOfParam_above hb]
    rfl

end Sys2Proof.Machine
end

