-- ==== Sys2Proof/Proofs/Statuses.lean ====
section
/-! PROOF. What a frame makes of a record's status: the threshold step and the per-status rules (O26), a first reading
(O27), a hold (O28), and a frame compared with the current reading (O29). -/

namespace Sys2Proof.Machine

/-! ### The threshold step by status (R74, R79) -/

/-- A score has reached F, H but not F, or neither. -/
theorem Header.score_cases (h : Header) (score : Byte) : h.flag.toNat ≤ score.toNat ∨
    score.toNat < h.flag.toNat ∧ h.hold.toNat ≤ score.toNat ∨
    score.toNat < h.flag.toNat ∧ score.toNat < h.hold.toNat := by
  omega

section Threshold
variable {h : Header} {before : Evidence} {r t : Record} {f : Frame} (ht : r.threshold h before f = t)
include ht

/-- A READ record is FLAGGED, HELD or left by its score (R74). -/
theorem Record.threshold_read (hs : r.status = .read) : t.current = r.current ∧
    (h.flag.toNat ≤ t.score.toNat →
      t.status = .flagged ∧ t.flagTime = some f.arrival ∧ t.candidate = r.candidate) ∧
    (t.score.toNat < h.flag.toNat → h.hold.toNat ≤ t.score.toNat →
      t.status = .held ∧ t.flagTime = r.flagTime ∧ t.candidate = t.current.map fun c => { c with
        time := f.arrival, port := f.port, byProbe := f.byProbe }) ∧
    (t.score.toNat < h.flag.toNat → t.score.toNat < h.hold.toNat →
      t.status = .read ∧ t.flagTime = r.flagTime ∧ t.candidate = r.candidate) := by
  subst ht
  rw [(r.threshold_score h before f).1]
  unfold Record.threshold
  rw [hs]
  dsimp only
  generalize (if r.evidence = before then r.score else h.score r.evidence) = score
  split
  next reached => exact ⟨rfl, fun _ => ⟨rfl, rfl, rfl⟩, by omega, by omega⟩
  next below =>
    split
    next reached => exact ⟨rfl, by omega, fun _ _ => ⟨rfl, rfl, rfl⟩, by omega⟩
    next under => exact ⟨rfl, by omega, by omega, fun _ _ => ⟨rfl, rfl, rfl⟩⟩

/-- A HELD record stands below F, and at F has its candidate committed and is FLAGGED (R79). -/
theorem Record.threshold_held (hs : r.status = .held) :
    (t.score.toNat < h.flag.toNat → t.status = .held ∧ t.candidate = r.candidate ∧ t.current = r.current ∧
      t.flagTime = r.flagTime) ∧
    (h.flag.toNat ≤ t.score.toNat → t = ({ r with score := t.score } : Record).confirm f) := by
  subst ht
  rw [(r.threshold_score h before f).1]
  unfold Record.threshold
  rw [hs]
  dsimp only
  generalize (if r.evidence = before then r.score else h.score r.evidence) = score
  split
  next reached => exact ⟨by omega, fun _ => rfl⟩
  next below => exact ⟨fun _ => ⟨rfl, rfl, rfl, rfl⟩, fun reached => absurd reached below⟩

/-- A FLAGGED record stays FLAGGED, and a score that rises takes its acknowledged mark (R79). -/
theorem Record.threshold_flagged (hs : r.status = .flagged) : t = { r with
    score := t.score
    marks := { r.marks with
      acknowledged := r.marks.acknowledged && decide (t.score.toNat ≤ r.score.toNat) } } := by
  subst ht
  rw [(r.threshold_score h before f).1]
  unfold Record.threshold
  rw [hs]
  dsimp only
  generalize (if r.evidence = before then r.score else h.score r.evidence) = score
  split
  next risen => rw [decide_eq_false (by omega), Bool.and_false]
  next same => rw [decide_eq_true (by omega), Bool.and_true]

/-- The current reading of a READ or FLAGGED record stands, and with its status its candidate too. -/
theorem Record.threshold_current (hs : r.status = .read ∨ r.status = .flagged) : t.current = r.current ∧
    (t.status = r.status → t.candidate = r.candidate) := by
  rcases hs with hs | hs
  · obtain ⟨current, flags, holds, stays⟩ := Record.threshold_read ht hs
    refine ⟨current, fun same => ?_⟩
    rw [hs] at same
    rcases h.score_cases t.score with reached | ⟨below, held⟩ | ⟨below, under⟩
    · exact (flags reached).2.2
    · cases same.symm.trans (holds below held).1
    · exact (stays below under).2.2
  · have same := Record.threshold_flagged ht hs
    exact ⟨by rw [same], fun _ => by rw [same]⟩

end Threshold

/-! ### The pre-checks of a usable frame (R65 to R67) -/

theorem usable_iff {r : Record} {f : Frame} :
    usable r f = true ↔ f.kind = some r.kind ∧ f.reading.toNat < modulus r.dials := by
  simp [usable]

theorem Record.preCheck_usable {r : Record} {f : Frame} (hu : usable r f = true) :
    (r.preCheck f).evidence.byte = r.flagged f := by
  rw [Record.preCheck_evidence, hu]
  simp

theorem Record.preCheck_unusable {r : Record} {f : Frame} (hu : usable r f = false) :
    (r.preCheck f).evidence.byte = r.flagged f ||| 0x80 := by
  rw [Record.preCheck_evidence, hu]
  simp

theorem Evidence.identity_addIf (e : Evidence) (cause : Bool) {k : EvidenceKind} (hk : k ≠ .identity) :
    (e.addIf cause k).identity = e.identity := by
  cases cause
  · rfl
  · cases k with
    | identity => exact absurd rfl hk
    | _ => rfl

/-- A usable frame's pre-checks bring no IDENTITY. -/
theorem Record.preCheck_identity {r : Record} {f : Frame} (hu : usable r f = true) :
    (r.preCheck f).evidence.identity = r.evidence.identity := by
  have shape : (r.preCheck f).evidence = (((r.evidence.addIf (!usable r f) .identity).addIf f.magnet .magnet).addIf
      f.cover .cover).addIf (r.repowered f) .repower := rfl
  rw [shape, hu, Evidence.identity_addIf _ _ (by decide), Evidence.identity_addIf _ _ (by decide),
    Evidence.identity_addIf _ _ (by decide)]
  rfl

/-! ### The per-status rules -/

/-- Confirmation of a hold with a candidate (R78). -/
theorem Record.confirm_of_candidate {r : Record} {c : Reading} (hc : r.candidate = some c) (f : Frame) :
    r.confirm f = { r with
      current := some c, candidate := none, status := .flagged, flagTime := some f.arrival } := by
  unfold Record.confirm Record.commit
  rw [hc]

/-- A hold's reading with its time moved to a frame's arrival, never backward (R77). -/
def Reading.heldUntil (c : Reading) (f : Frame) : Reading :=
  { c with time := if f.arrival.toNat < c.time.toNat then c.time else f.arrival }

section Held
variable (h : Header) {r : Record} {f : Frame} {c : Reading} (hc : r.candidate = some c)
include hc

theorem Record.heldFrame_confirms (agrees : advance r f.reading c.value ≤ h.tolerance.toNat)
    (late : f.byProbe = true ∨ c.time.toNat + h.confirmGap.toNat ≤ f.arrival.toNat) :
    r.heldFrame h f = r.confirm f := by
  unfold Record.heldFrame
  rw [hc]
  dsimp only
  rw [if_pos agrees, if_pos (by simpa using late)]

theorem Record.heldFrame_early (agrees : advance r f.reading c.value ≤ h.tolerance.toNat) (radio : f.byProbe = false)
    (early : f.arrival.toNat < c.time.toNat + h.confirmGap.toNat) : r.heldFrame h f = r := by
  unfold Record.heldFrame
  rw [hc]
  dsimp only
  rw [if_pos agrees, if_neg (by simp [radio, early])]

theorem Record.heldFrame_agrees_evidence (agrees : advance r f.reading c.value ≤ h.tolerance.toNat) :
    (r.heldFrame h f).evidence = r.evidence := by
  by_cases late : f.byProbe = true ∨ c.time.toNat + h.confirmGap.toNat ≤ f.arrival.toNat
  · rw [Record.heldFrame_confirms h hc agrees late, Record.confirm_evidence]
  · obtain ⟨radio, early⟩ := not_or.1 late
    rw [Record.heldFrame_early h hc agrees (by simpa using radio) (Nat.not_le.1 early)]

theorem Record.heldFrame_disagrees (apart : h.tolerance.toNat < advance r f.reading c.value) :
    r.heldFrame h f = { r with
      evidence := r.evidence.add .identity, candidate := some (c.heldUntil f) } := by
  unfold Record.heldFrame
  rw [hc]
  dsimp only
  rw [if_neg (Nat.not_le.2 apart)]
  rfl

end Held

/-- What a frame on a HELD record comes to before the threshold step: HELD still, or FLAGGED, with its score. -/
theorem Record.heldFrame_status (h : Header) {r : Record} (f : Frame) (hs : r.status = .held) :
    ((r.heldFrame h f).status = .held ∨ (r.heldFrame h f).status = .flagged) ∧ (r.heldFrame h f).score = r.score := by
  unfold Record.heldFrame
  split
  · split
    · split
      · exact ⟨.inr rfl, r.confirm_score f⟩
      · exact ⟨.inl hs, rfl⟩
    · exact ⟨.inl hs, rfl⟩
  · exact ⟨.inl hs, rfl⟩

/-- A later frame changes the current reading and the evidence alone (R72, R73). -/
theorem Record.laterFrame_same (h : Header) (r : Record) (f : Frame) : r.laterFrame h f = { r with
    current := (r.laterFrame h f).current, evidence := (r.laterFrame h f).evidence } := by
  unfold Record.laterFrame
  split
  · split <;> rfl
  · rfl

section Later
variable (h : Header) {r : Record} {f : Frame} {c : Reading} (hc : r.current = some c)
include hc

theorem Record.laterFrame_agrees (agrees : advance r f.reading c.value ≤ h.tolerance.toNat) :
    r.laterFrame h f = r.agree c f := by
  unfold Record.laterFrame
  rw [hc]
  exact if_pos agrees

theorem Record.laterFrame_disagrees (apart : h.tolerance.toNat < advance r f.reading c.value) :
    r.laterFrame h f = { r with evidence := r.evidence.add .identity } := by
  unfold Record.laterFrame
  rw [hc]
  exact if_neg (Nat.not_le.2 apart)

end Later

/-- The agreeing reading with its own time and port, and the delta by the direction (R72, R93). -/
theorem Record.agree_current (r : Record) (c : Reading) (f : Frame) : (r.agree c f).current = some { c with
    value := f.reading, time := f.arrival, port := f.port, byProbe := f.byProbe
    delta := if c.direction = .forward ∨ c.direction = .rollover then
      BitVec.ofNat 32 (min (modulus r.dials - 1) (c.delta.toNat + advance r f.reading c.value)) else c.delta } := by
  unfold Record.agree
  cases hd : c.direction <;> simp

theorem isDuplicate_iff {h : Header} {e : Option MatchEntry} {f : Frame} : isDuplicate h e f = true ↔
    ∃ x t, e = some x ∧ x.reading = some f.reading ∧ x.arrival = some t ∧
      f.arrival.toNat < t.toNat + h.duplicateWindow.toNat ∧ h.duplicateWindow ≠ 0 := by
  unfold isDuplicate
  split
  next reading arrival =>
    simp only [Bool.and_eq_true, bne_iff_ne, beq_iff_eq, decide_eq_true_eq]
    constructor
    · rintro ⟨⟨window, rfl⟩, inside⟩
      exact ⟨_, arrival, rfl, rfl, rfl, inside, window⟩
    · rintro ⟨x, t, same, hreading, harrival, inside, window⟩
      cases same
      obtain rfl := Option.some.inj harrival
      exact ⟨⟨window, Option.some.inj hreading⟩, inside⟩
  next other =>
    refine ⟨fun no => absurd no Bool.false_ne_true, ?_⟩
    rintro ⟨⟨serial, slot, reading, arrival⟩, t, rfl, rfl, rfl, -⟩
    exact absurd rfl (other serial slot f.reading t)

/-! ### A first reading (R69, R70, R91) -/

/-- The evidence bit of what a first reading shows. -/
def shownBit : Option EvidenceKind → Byte
  | some .reverse => 0x04 | some .regress => 0x08 | some .low => 0x10 | some .stopped => 0x20 | _ => 0

/-- The assessment shows REVERSE, REGRESS, LOW or STOPPED, or nothing (R91). -/
theorem assess_shows (a : Assessment) (r : Record) (reading : Nat) {k : EvidenceKind}
    (h : (assess a r reading).evidence = some k) : k.bit = shownBit (some k) := by
  unfold assess at h
  dsimp only at h
  split_ifs at h <;> cases h <;> rfl

section First
variable (h : Header) (a : Assessment) (r : Record) (f : Frame)

theorem Record.firstReading_evidence : (r.firstReading h a f).evidence.byte =
    r.evidence.byte ||| shownBit (assess a r f.reading.toNat).evidence := by
  have added : (r.firstReading h a f).evidence = match (assess a r f.reading.toNat).evidence with
      | some k => r.evidence.add k
      | none => r.evidence := by
    unfold Record.firstReading
    dsimp only
    split_ifs <;> rfl
  rw [added]
  cases shown : (assess a r f.reading.toNat).evidence with
  | none => exact BitVec.or_zero.symm
  | some k => rw [← assess_shows a r _ shown]; exact r.evidence.byte_add k

theorem Record.firstReading_score : (r.firstReading h a f).score = h.score (r.firstReading h a f).evidence := by
  unfold Record.firstReading
  dsimp only
  split_ifs <;> rfl

/-- The status that the score decides, and what it takes of the reading (R70). -/
theorem Record.firstReading_decided {t : Record} (ht : r.firstReading h a f = t) {g : Reading}
    (hg : f.group (assess a r f.reading.toNat).direction (assess a r f.reading.toNat).delta = g) :
    (h.flag.toNat ≤ t.score.toNat → t.status = .flagged ∧ t.current = some g ∧ t.flagTime = some f.arrival) ∧
    (t.score.toNat < h.flag.toNat → h.hold.toNat ≤ t.score.toNat →
      t.status = .held ∧ t.candidate = some g ∧ t.current = r.current) ∧
    (t.score.toNat < h.flag.toNat → t.score.toNat < h.hold.toNat →
      t.status = .read ∧ t.current = some g ∧ t.flagTime = r.flagTime) := by
  subst ht hg
  unfold Record.firstReading
  dsimp only
  split_ifs with flags holds
  · exact ⟨fun _ => ⟨rfl, rfl, rfl⟩, fun below => absurd flags (Nat.not_le.2 below),
      fun below => absurd flags (Nat.not_le.2 below)⟩
  · exact ⟨fun reached => absurd reached flags, fun _ _ => ⟨rfl, rfl, rfl⟩,
      fun _ under => absurd holds (Nat.not_le.2 under)⟩
  · exact ⟨fun reached => absurd reached flags, fun _ reached => absurd reached holds,
      fun _ _ => ⟨rfl, rfl, rfl⟩⟩

end First

/-- The threshold step finds nothing left to do after a first reading. -/
theorem Record.threshold_firstReading (h : Header) (a : Assessment) (before : Evidence) (r : Record) (f : Frame) :
    (r.firstReading h a f).threshold h before f = r.firstReading h a f := by
  obtain ⟨x, hx⟩ : ∃ x, r.firstReading h a f = x := ⟨_, rfl⟩
  obtain ⟨flags, holds, stays⟩ := r.firstReading_decided h a f hx rfl
  have scored : x.score = h.score x.evidence := hx ▸ r.firstReading_score h a f
  have same : (if x.evidence = before then x.score else h.score x.evidence) = x.score := by rw [← scored, ite_self]
  rw [hx]
  unfold Record.threshold
  dsimp only
  rw [same]
  rcases h.score_cases x.score with reached | ⟨below, held⟩ | ⟨below, under⟩
  · have status := (flags reached).1
    rw [status]
    dsimp only
    rw [if_neg (Nat.lt_irrefl _), ← status]
  · have status := (holds below held).1
    rw [status]
    dsimp only
    rw [if_neg (Nat.not_le.2 below), ← status]
  · have status := (stays below under).1
    rw [status]
    dsimp only
    rw [if_neg (Nat.not_le.2 below), if_neg (Nat.not_le.2 under), ← status]

/-! ### The whole frame, by the record's status -/

section Reached
variable (h : Header) (a : Assessment) (e : Option MatchEntry) {r : Record} {f : Frame}
  (hp : r.probeOnly = false ∨ f.byProbe = true)
include hp

theorem Record.not_unheard : ¬(r.probeOnly && !f.byProbe) = true := by
  rcases hp with hp | hp <;> simp [hp]

/-- A usable frame on a PENDING or MISSED record is its first reading (R69). -/
theorem Record.matchFrame_first (hu : usable r f = true) (hs : r.status = .pending ∨ r.status = .missed) :
    r.matchFrame h a e f = ⟨(r.preCheck f).firstReading h a f, false, true⟩ := by
  unfold Record.matchFrame
  dsimp only
  rw [if_neg (Record.not_unheard hp), hu, Record.threshold_firstReading]
  rcases hs with hs | hs <;> rw [hs] <;> rfl

/-- A usable frame on a READ or FLAGGED record is a duplicate, or is compared (R71). -/
theorem Record.matchFrame_later (hu : usable r f = true) (hs : r.status = .read ∨ r.status = .flagged) :
    r.matchFrame h a e f =
      if isDuplicate h e f then ⟨(r.preCheck f).threshold h r.evidence f, true, false⟩
      else ⟨((r.preCheck f).laterFrame h f).threshold h r.evidence f, false, true⟩ := by
  unfold Record.matchFrame
  dsimp only
  rw [if_neg (Record.not_unheard hp), hu]
  rcases hs with hs | hs <;> rw [hs] <;> rfl

/-- A usable frame on a HELD record is compared with the candidate (R75). -/
theorem Record.matchFrame_held (hu : usable r f = true) (hs : r.status = .held) : r.matchFrame h a e f =
    ⟨((r.preCheck f).heldFrame h f).threshold h r.evidence f, false, true⟩ := by
  unfold Record.matchFrame
  dsimp only
  rw [if_neg (Record.not_unheard hp), hu, hs]
  rfl

/-- On a READ or FLAGGED record only current reading and evidence differ before the threshold step. -/
theorem Record.matchFrame_compared (hs : r.status = .read ∨ r.status = .flagged) : ∃ x : Record,
    (r.matchFrame h a e f).record = x.threshold h r.evidence f ∧
    x = { r.preCheck f with current := x.current, evidence := x.evidence } := by
  cases hu : usable r f with
  | false =>
    rw [Record.matchFrame_unusable h a e hp hu]
    exact ⟨_, rfl, rfl⟩
  | true =>
    rw [Record.matchFrame_later h a e hp hu hs]
    split
    · exact ⟨_, rfl, rfl⟩
    · exact ⟨_, rfl, (r.preCheck f).laterFrame_same h f⟩

/-- A HELD record is HELD or FLAGGED before the threshold step, and its score is as it was. -/
theorem Record.matchFrame_holding (hs : r.status = .held) : ∃ x : Record,
    (r.matchFrame h a e f).record = x.threshold h r.evidence f ∧ (x.status = .held ∨ x.status = .flagged) ∧
    x.score = r.score := by
  cases hu : usable r f with
  | false =>
    rw [Record.matchFrame_unusable h a e hp hu]
    exact ⟨_, rfl, .inl hs, rfl⟩
  | true =>
    rw [Record.matchFrame_held h a e hp hu hs]
    obtain ⟨status, score⟩ := (r.preCheck f).heldFrame_status h f hs
    exact ⟨_, rfl, status, score⟩

/-- The score is computed anew when the evidence has changed (R79). -/
theorem Record.matchFrame_score (hs : r.status ≠ .pending) (hs' : r.status ≠ .missed) :
    (r.matchFrame h a e f).record.score = if (r.matchFrame h a e f).record.evidence = r.evidence then r.score
      else h.score (r.matchFrame h a e f).record.evidence := by
  obtain ⟨x, hx, score⟩ : ∃ x : Record, (r.matchFrame h a e f).record = x.threshold h r.evidence f ∧
      x.score = r.score := by
    cases status : r.status with
    | pending => exact absurd status hs
    | missed => exact absurd status hs'
    | held =>
      obtain ⟨x, hx, -, score⟩ := Record.matchFrame_holding h a e hp status
      exact ⟨x, hx, score⟩
    | read =>
      obtain ⟨x, hx, same⟩ := Record.matchFrame_compared h a e hp (.inl status)
      exact ⟨x, hx, by rw [same]; rfl⟩
    | flagged =>
      obtain ⟨x, hx, same⟩ := Record.matchFrame_compared h a e hp (.inr status)
      exact ⟨x, hx, by rw [same]; rfl⟩
  obtain ⟨rescored, evidence⟩ := x.threshold_score h r.evidence f
  rw [hx, rescored, evidence, score]

/-- A PENDING or MISSED record keeps its status, or is READ, HELD or FLAGGED (R70). -/
theorem Record.matchFrame_open_status (hs : r.status = .pending ∨ r.status = .missed)
    {t : Record} (ht : (r.matchFrame h a e f).record = t) :
    t.status = r.status ∨ t.status = .read ∨ t.status = .held ∨ t.status = .flagged := by
  subst ht
  cases hu : usable r f with
  | false =>
    rw [Record.matchFrame_unusable h a e hp hu]
    exact .inl (Record.threshold_open h r.evidence f (r := r.preCheck f) hs).1
  | true =>
    rw [Record.matchFrame_first h a e hp hu hs]
    obtain ⟨flags, holds, stays⟩ := (r.preCheck f).firstReading_decided h a f rfl rfl
    rcases h.score_cases ((r.preCheck f).firstReading h a f).score with reached | ⟨below, held⟩ | ⟨below, under⟩
    · exact .inr (.inr (.inr (flags reached).1))
    · exact .inr (.inr (.inl (holds below held).1))
    · exact .inr (.inl (stays below under).1)

/-- A HELD record is HELD still, or FLAGGED. -/
theorem Record.matchFrame_held_status (hs : r.status = .held) :
    (r.matchFrame h a e f).record.status = .held ∨ (r.matchFrame h a e f).record.status = .flagged := by
  obtain ⟨x, hx, status, -⟩ := Record.matchFrame_holding h a e hp hs
  rw [hx]
  rcases status with status | status
  · obtain ⟨stands, commits⟩ := Record.threshold_held (h := h) (before := r.evidence) (f := f) rfl status
    rcases Nat.lt_or_ge (x.threshold h r.evidence f).score.toNat h.flag.toNat with below | reached
    · exact .inl (stands below).1
    · rw [commits reached]
      exact .inr rfl
  · rw [Record.threshold_flagged rfl status]
    exact .inr status

/-- A READ record's status is settled by its score (R74). -/
theorem Record.matchFrame_read {t : Record} (ht : (r.matchFrame h a e f).record = t) (hs : r.status = .read) :
    (h.flag.toNat ≤ t.score.toNat →
      t.status = .flagged ∧ t.flagTime = some f.arrival ∧ t.candidate = r.candidate) ∧
    (t.score.toNat < h.flag.toNat → h.hold.toNat ≤ t.score.toNat →
      t.status = .held ∧ t.flagTime = r.flagTime ∧ t.candidate = t.current.map fun c => { c with
        time := f.arrival, port := f.port, byProbe := f.byProbe }) ∧
    (t.score.toNat < h.flag.toNat → t.score.toNat < h.hold.toNat →
      t.status = .read ∧ t.flagTime = r.flagTime ∧ t.candidate = r.candidate) := by
  obtain ⟨x, hx, same⟩ := Record.matchFrame_compared h a e hp (.inl hs)
  have status : x.status = .read := by rw [same]; exact hs
  have flagTime : x.flagTime = r.flagTime := by rw [same]; rfl
  have candidate : x.candidate = r.candidate := by rw [same]; rfl
  obtain ⟨-, settled⟩ := Record.threshold_read (hx.symm.trans ht) status
  rwa [flagTime, candidate] at settled

/-- A FLAGGED record keeps its status and flag time, and loses its acknowledged mark when its score has risen (R79). -/
theorem Record.matchFrame_flagged {t : Record} (ht : (r.matchFrame h a e f).record = t) (hs : r.status = .flagged) :
    t.status = .flagged ∧ t.flagTime = r.flagTime ∧ t.marks = { r.marks with
      acknowledged := r.marks.acknowledged && decide (t.score.toNat ≤ r.score.toNat) } := by
  obtain ⟨x, hx, same⟩ := Record.matchFrame_compared h a e hp (.inr hs)
  have status : x.status = .flagged := by rw [same]; exact hs
  have settled := Record.threshold_flagged (hx.symm.trans ht) status
  have before : x.flagTime = r.flagTime ∧ x.marks = r.marks ∧ x.score = r.score := by
    rw [same]
    exact ⟨rfl, rfl, rfl⟩
  obtain ⟨flagTime, marks, score⟩ := before
  refine ⟨?_, ?_, ?_⟩
  · rw [settled]; exact status
  · rw [settled]; exact flagTime
  · rw [← marks, ← score]
    exact congrArg Record.marks settled

end Reached

/-- Settles O26: a radio frame on a probe-only record is heard and moves nothing; every other frame by the record's
status. -/
theorem framesMoveStatusesForward : Obligations.FramesMoveStatusesForward := by
  unfold Obligations.FramesMoveStatusesForward
  intro h a e r f
  by_cases hp : r.probeOnly = false ∨ f.byProbe = true
  case neg =>
    obtain ⟨hr, hf⟩ : r.probeOnly = true ∧ f.byProbe = false := by simpa using hp
    rw [r.matchFrame_unheard h a e hr hf]
    exact ⟨id, .inl, .inl, id, id, fun heard => absurd heard hp⟩
  case pos =>
    obtain ⟨t, ht⟩ : ∃ t, (r.matchFrame h a e f).record = t := ⟨_, rfl⟩
    have score := Record.matchFrame_score h a e hp
    have read := Record.matchFrame_read h a e hp ht
    have flagged := Record.matchFrame_flagged h a e hp ht
    have held := Record.matchFrame_held_status h a e hp
    have opened := fun hs => Record.matchFrame_open_status h a e hp hs ht
    rw [ht] at score held ⊢
    have reads (hs : r.status = .read) : t.status = .read ∨ t.status = .held ∨ t.status = .flagged := by
      obtain ⟨flags, holds, stays⟩ := read hs
      rcases h.score_cases t.score with reached | ⟨below, reached⟩ | ⟨below, under⟩
      · exact .inr (.inr (flags reached).1)
      · exact .inr (.inl (holds below reached).1)
      · exact .inl (stays below under).1
    have moves : t.status = r.status ∨ t.status = .read ∨ t.status = .held ∨ t.status = .flagged := by
      cases hs : r.status with
      | pending => exact hs ▸ opened (.inl hs)
      | missed => exact hs ▸ opened (.inr hs)
      | read => exact .inr (reads hs)
      | held => exact .inr (.inr (held hs))
      | flagged => exact .inl (flagged hs).1
    have never (w : LiveStatus) (hw : w = .pending ∨ w = .missed) (after : t.status = w) : r.status = w := by
      rcases moves with same | moved
      · exact same.symm.trans after
      · rw [after] at moved
        rcases hw with rfl | rfl <;> simp at moved
    exact ⟨fun hs => (flagged hs).1, held, reads, never _ (.inl rfl), never _ (.inr rfl),
      fun _ => ⟨score, read, fun hs => (flagged hs).2⟩⟩

/-- Settles O27: the pre-checks' evidence and the kind shown, and the status by `firstReading_decided`. -/
theorem firstReadingsAreDecidedByScore : Obligations.FirstReadingsAreDecidedByScore := by
  unfold Obligations.FirstReadingsAreDecidedByScore
  intro h a e r f hs hp hk hr r' j g bit checked shown
  have hu : usable r f = true := usable_iff.2 ⟨hk, hr⟩
  have after : r' = (r.preCheck f).firstReading h a f := by
    show (r.matchFrame h a e f).record = _
    rw [Record.matchFrame_first h a e hp hu hs]
  have evidence := (r.preCheck f).firstReading_evidence h a f
  rw [Record.preCheck_usable hu] at evidence
  refine ⟨?_, ?_, (r.preCheck f).firstReading_decided h a f after.symm rfl⟩
  · rw [after]
    exact evidence
  · rw [after]
    exact (r.preCheck f).firstReading_score h a f

/-! ### Holds (R75 to R79) -/

/-- A hold as it was, but for its candidate. -/
def Record.Stands (r t : Record) (c : Reading) : Prop :=
  t.status = .held ∧ t.candidate = some c ∧ t.current = r.current ∧ t.flagTime = r.flagTime

/-- A hold's candidate committed, and the record FLAGGED at the frame's arrival. -/
def Record.Confirmed (r t : Record) (f : Frame) (c : Reading) : Prop :=
  t.status = .flagged ∧ t.current = some c ∧ t.candidate = none ∧ t.flagTime = some f.arrival ∧
  t.marks.unconfirmed = r.marks.unconfirmed

section Hold
variable {h : Header} {before : Evidence} {r t : Record} {f : Frame} {c : Reading}

/-- The threshold step lets a hold stand below F, and confirms it at F (R79). -/
theorem Record.threshold_stands (ht : r.threshold h before f = t) (hs : r.status = .held)
    (hc : r.candidate = some c) : (t.score.toNat < h.flag.toNat → r.Stands t c) ∧
      (h.flag.toNat ≤ t.score.toNat → r.Confirmed t f c) := by
  obtain ⟨stands, commits⟩ := Record.threshold_held ht hs
  refine ⟨fun below => ?_, fun reached => ?_⟩
  · rw [Record.Stands, ← hc]
    exact stands below
  · rw [commits reached, Record.confirm_of_candidate (r := { r with score := t.score }) hc]
    exact ⟨rfl, rfl, rfl, rfl, rfl⟩

/-- A hold that the frame has confirmed is confirmed after the threshold step. -/
theorem Record.threshold_confirm (ht : (r.confirm f).threshold h before f = t) (hc : r.candidate = some c) :
    r.Confirmed t f c := by
  rw [Record.threshold_flagged ht rfl, Record.confirm_of_candidate hc]
  exact ⟨rfl, rfl, rfl, rfl, rfl⟩

end Hold

/-- Settles O28: the frame's rule on the record after its pre-checks (`heldFrame`'s equations), and the threshold step
by `threshold_confirm` and `threshold_stands`. -/
theorem agreeingFramesConfirmHolds : Obligations.AgreeingFramesConfirmHolds := by
  unfold Obligations.AgreeingFramesConfirmHolds
  intro h a e r f c hs hc hp fits apart m r' moved bit checked stands confirmed
  have compared (fit : fits) : ((r.preCheck f).heldFrame h f).threshold h r.evidence f = r' ∧ m.applied = true := by
    have whole : m = _ := Record.matchFrame_held h a e hp (usable_iff.2 fit) hs
    rw [show r' = m.record from rfl, whole]
    exact ⟨rfl, rfl⟩
  have evidence {x : Record} (hx : x.threshold h r.evidence f = r') : r'.evidence = x.evidence :=
    hx ▸ (x.threshold_score h r.evidence f).2
  refine ⟨Record.matchFrame_score h a e hp (by rw [hs]; decide) (by rw [hs]; decide), fun fit agrees => ?_,
    fun fit disagrees => ?_, fun unfit => ?_⟩
  · obtain ⟨after, applied⟩ := compared fit
    refine ⟨?_, applied, fun late => ?_, fun radio early => ?_⟩
    · rw [evidence after, Record.heldFrame_agrees_evidence h (r := r.preCheck f) hc agrees]
      exact Record.preCheck_usable (usable_iff.2 fit)
    · rw [Record.heldFrame_confirms h (r := r.preCheck f) hc agrees late] at after
      exact Record.threshold_confirm (r := r.preCheck f) after hc
    · rw [Record.heldFrame_early h (r := r.preCheck f) hc agrees radio early] at after
      exact Record.threshold_stands (r := r.preCheck f) after hs hc
  · obtain ⟨after, applied⟩ := compared fit
    rw [Record.heldFrame_disagrees h (r := r.preCheck f) hc disagrees] at after
    have settled := Record.threshold_stands (c := c.heldUntil f) after hs rfl
    refine ⟨?_, applied, settled⟩
    rw [evidence after, Evidence.byte_add, Record.preCheck_usable (usable_iff.2 fit)]
    rfl
  · have hu : usable r f = false := Bool.eq_false_iff.2 (mt usable_iff.1 unfit)
    have whole : m = ⟨(r.preCheck f).threshold h r.evidence f, false, false⟩ :=
      Record.matchFrame_unusable h a e hp hu
    have after : (r.preCheck f).threshold h r.evidence f = r' := by rw [show r' = m.record from rfl, whole]
    refine ⟨?_, by rw [whole], by rw [whole], Record.threshold_stands (r := r.preCheck f) after hs hc⟩
    rw [evidence after]
    exact Record.preCheck_unusable hu

/-- Settles O29: the duplicate test by `isDuplicate_iff`, a frame compared by `laterFrame`'s equations, and the current
reading through the threshold step by `threshold_current`. -/
theorem duplicatesCompareNothing : Obligations.DuplicatesCompareNothing := by
  unfold Obligations.DuplicatesCompareNothing
  intro h a r f e hs hp hk hr m repeats
  have hu : usable r f = true := usable_iff.2 ⟨hk, hr⟩
  have later := Record.matchFrame_later h a e hp hu hs
  refine ⟨fun again => ?_, fun other c hc => ?_⟩
  · rw [if_pos (isDuplicate_iff.2 again)] at later
    have whole : m = ⟨(r.preCheck f).threshold h r.evidence f, true, false⟩ := later
    rw [whole]
    exact ⟨rfl, rfl, Record.threshold_current (r := r.preCheck f) rfl hs⟩
  · rw [if_neg (mt isDuplicate_iff.1 other)] at later
    have whole : m = ⟨((r.preCheck f).laterFrame h f).threshold h r.evidence f, false, true⟩ := later
    have status : ((r.preCheck f).laterFrame h f).status = r.status := by
      rw [(r.preCheck f).laterFrame_same h f]
      rfl
    obtain ⟨current, -⟩ := Record.threshold_current (h := h) (before := r.evidence) (f := f) rfl (status ▸ hs)
    obtain ⟨-, evidence⟩ := ((r.preCheck f).laterFrame h f).threshold_score h r.evidence f
    rw [whole]
    dsimp only
    rw [current, evidence]
    refine ⟨rfl, rfl, fun agrees => ?_, fun apart => ?_⟩
    · rw [Record.laterFrame_agrees h (r := r.preCheck f) hc agrees]
      exact ⟨Record.preCheck_identity hu, (r.preCheck f).agree_current c f⟩
    · rw [Record.laterFrame_disagrees h (r := r.preCheck f) hc apart]
      exact ⟨rfl, rfl⟩

end Sys2Proof.Machine
end

