-- ==== Sys2Proof/Proofs/Serials.lean ====
section
/-! PROOF. A frame past the gate resolved through the recent-match buffer and the index (O24). -/

namespace Sys2Proof.Machine

variable {s : State}

/-! ### The recent-match buffer (R29) -/

/-- The entry found carries the serial. -/
theorem State.matchEntry_serial {serial : Word} {e : MatchEntry} (h : s.matchEntry serial = some e) :
    e.serial = serial := by
  simpa using List.find?_some h

/-- No entry of a serial that misses is forgotten for it. -/
theorem State.filter_of_miss {serial : Word} (h : s.matchEntry serial = none) :
    (s.matching.buffer.filter fun x => x.serial != serial) = s.matching.buffer := by
  refine List.filter_eq_self.2 fun x hx => ?_
  simpa using List.find?_eq_none.1 h x hx

/-! ### A frame past the gate (R62) -/

theorem State.passGate_hit {f : Frame} {e : MatchEntry} (h : s.matchEntry f.serial = some e) :
    s.passGate f = s.withMatching { s.matching with
      inHand := some ⟨f, e.slot, false⟩
      buffer := (e :: s.matching.buffer.filter fun x => x.serial != f.serial).take 16 } := by
  unfold State.passGate State.resolve
  rw [h, ← State.matchEntry_serial h]
  rfl

section Miss
variable {f : Frame} (miss : s.matchEntry f.serial = none)
include miss

theorem State.passGate_found {slot : Nat} (h : s.mem.lookup f.serial = some slot) :
    s.passGate f = (s.grants .matching (s.mem.lookupAccesses f.serial)).withMatching { s.matching with
      inHand := some ⟨f, slot, false⟩
      buffer := ⟨f.serial, slot, none, none⟩ :: s.matching.buffer.take 15 } := by
  unfold State.passGate State.resolve State.resolveByIndex State.keepEntry
  rw [miss]
  dsimp only
  rw [h]
  dsimp only
  rw [State.grants_matching, State.filter_of_miss miss]
  rfl

theorem State.passGate_stranger (h : s.mem.lookup f.serial = none) :
    s.passGate f = (s.grants .matching (s.mem.lookupAccesses f.serial)).withMatching { s.matching with
      inHand := none, strangers := satInc s.matching.strangers } := by
  unfold State.passGate State.resolve State.resolveByIndex State.countStranger
  rw [miss]
  dsimp only
  rw [h]
  dsimp only
  rw [State.grants_matching]

end Miss

/-- Settles O24: a hit, a serial found in the index and a stranger, each by its equation of `passGate`. -/
theorem serialsAreResolved : Obligations.SerialsAreResolved := by
  unfold Obligations.SerialsAreResolved
  rintro s _ f free rfl
  cases entry : s.matchEntry f.serial with
  | some e =>
    rw [State.passGate_hit entry]
    refine ⟨rfl, fun e' same => ?_, fun miss => (Option.some_ne_none e miss).elim,
      fun miss => (Option.some_ne_none e miss).elim⟩
    cases same
    rfl
  | none =>
    cases found : s.mem.lookup f.serial with
    | some slot =>
      rw [State.passGate_found entry found]
      refine ⟨rfl, fun e hit => (Option.some_ne_none e hit.symm).elim, fun _ slot' same => ?_,
        fun _ lost => (Option.some_ne_none slot lost).elim⟩
      cases same
      exact ⟨rfl, by simp [State.matchEntry]⟩
    | none =>
      rw [State.passGate_stranger entry found]
      refine ⟨rfl, fun e hit => (Option.some_ne_none e hit.symm).elim,
        fun _ slot found => (Option.some_ne_none slot found.symm).elim, fun _ _ => ?_⟩
      rw [State.withMatching_matching, ← free]

end Sys2Proof.Machine
end

