-- ==== Sys2Proof/Proofs/Assessments.lean ====
section
/-! PROOF. The assessment unit's judgement of a reading: its tests, then its answer stage by stage (O31). -/

namespace Sys2Proof.Machine

section Judged
variable {a : Assessment} {r : Record} {reading delta forward : Nat}

/-! ### The tests on the rate (R86, R87, R89, R90) -/

theorem isStopped_iff : isStopped a r delta = true ↔
    delta = 0 ∧ 0 < r.rate.toNat ∧ a.stopDays.toNat ≤ elapsed a r := by
  simp [isStopped, and_assoc]

theorem isLow_iff : isLow a r delta = true ↔
    elapsed a r ≠ 0 ∧ delta * 1024 < r.rate.toNat * elapsed a r * a.lowRatio.toNat := by
  simp [isLow]

/-- LOW is not met without days elapsed, or from the low share of the expected use on (R90). -/
theorem not_isLow_iff : ¬isLow a r delta = true ↔
    elapsed a r = 0 ∨ r.rate.toNat * elapsed a r * a.lowRatio.toNat ≤ delta * 1024 := by
  rw [isLow_iff, not_and_or, not_not, Nat.not_lt]

/-- The rate rule where a rate and days are known, else the half-register rule (R86, R87). -/
theorem plausible_iff : plausible a r forward = true ↔
    if 0 < r.rate.toNat ∧ 0 < elapsed a r then
      forward * 1024 ≤ r.rate.toNat * elapsed a r * a.rollover.toNat
    else forward * 2 ≤ modulus r.dials := by
  unfold plausible
  split_ifs <;> exact decide_eq_true_iff

/-! ### A reading at or above the previous one (R84) -/

/-- It is FORWARD by the difference; STOPPED goes before LOW. -/
theorem assess_forward (ahead : r.previous.toNat ≤ reading) :
    assess a r reading = ⟨.forward, reading - r.previous.toNat,
      if isStopped a r (reading - r.previous.toNat) then some .stopped
      else if isLow a r (reading - r.previous.toNat) then some .low else none⟩ := by
  unfold assess
  dsimp only
  rw [if_pos ahead]
  split_ifs <;> rfl

/-! ### A reading below the previous one (R85, R88) -/

theorem assess_reverse (below : reading < r.previous.toNat)
    (near : r.previous.toNat - reading ≤ a.backstep.toNat) :
    assess a r reading = ⟨.reverse, 0, some .reverse⟩ := by
  unfold assess
  dsimp only
  rw [if_neg (Nat.not_le.mpr below), if_pos near]

section PastBackstep
variable (far : a.backstep.toNat < r.previous.toNat - reading)
include far

/-- Such a reading is no FORWARD one. -/
theorem not_ahead_of_far : ¬r.previous.toNat ≤ reading := by
  omega

theorem assess_rollover (fits : plausible a r (reading + modulus r.dials - r.previous.toNat) = true) :
    assess a r reading = ⟨.rollover, reading + modulus r.dials - r.previous.toNat,
      if isLow a r (reading + modulus r.dials - r.previous.toNat) then some .low else none⟩ := by
  unfold assess
  dsimp only
  rw [if_neg (not_ahead_of_far far), if_neg (Nat.not_le.mpr far), if_pos fits]
  split_ifs <;> rfl

theorem assess_regress (unfit : ¬plausible a r (reading + modulus r.dials - r.previous.toNat) = true) :
    assess a r reading = ⟨.regress, 0, some .regress⟩ := by
  unfold assess
  dsimp only
  rw [if_neg (not_ahead_of_far far), if_neg (Nat.not_le.mpr far), if_neg unfit]

/-- Past the backstep limit the forward distance of a reading lies in 1 to M − B − 1 (R88). -/
theorem forward_distance_bounds (held : r.previous.toNat < modulus r.dials) :
    1 ≤ reading + modulus r.dials - r.previous.toNat ∧
    reading + modulus r.dials - r.previous.toNat ≤ modulus r.dials - a.backstep.toNat - 1 := by
  omega

end PastBackstep
end Judged

/-- Settles O31: the answer of each stage by its equation, and the tests by what they compare. -/
theorem readingsAreAssessed : Obligations.ReadingsAreAssessed := by
  unfold Obligations.ReadingsAreAssessed
  constructor
  · intro a r reading ahead delta days
    rw [assess_forward ahead]
    refine ⟨rfl, rfl, fun unmoved rated due => ?_, fun moves dated short => ?_, fun moves enough => ?_⟩
    · exact if_pos (isStopped_iff.mpr ⟨unmoved, rated, due⟩)
    · exact (if_neg (mt isStopped_iff.mp moves)).trans (if_pos (isLow_iff.mpr ⟨dated, short⟩))
    · exact (if_neg (mt isStopped_iff.mp moves)).trans (if_neg (not_isLow_iff.mpr enough))
  · intro a r reading below held back forward days fits
    refine ⟨assess_reverse below, fun far fit => ⟨?_, forward_distance_bounds far held⟩, fun far unfit => ?_⟩
    · exact (assess_rollover far (plausible_iff.mpr fit)).trans
        (congrArg (Judgement.mk .rollover forward) (if_congr isLow_iff rfl rfl))
    · exact assess_regress far (mt plausible_iff.mp unfit)

end Sys2Proof.Machine
end

