-- ==== Sys2Proof/Proofs/TamperQueue.lean ====
section
/-! PROOF. The score of an evidence set, the places of the tamper queue, TAMPER_ACK and CAB_MODE (O30, O36, O50,
O51). -/

namespace Sys2Proof.Machine

variable {s t : State}

/-! ### The score (R97) -/

theorem Header.score_toNat (h : Header) (e : Evidence) : (h.score e).toNat = min 255 (h.weightSum e) := by
  unfold Header.score natByte
  rw [BitVec.toNat_ofNat]
  omega

theorem weighed_le_present (present : Bool) (weight : Byte) : weighed present weight ≤ weighed true weight := by
  cases present
  · exact Nat.zero_le _
  · exact Nat.le_refl _

/-- A kind that joins puts its own weight in place of its own term, and no other. -/
theorem Header.weightSum_le_add (h : Header) (e : Evidence) (k : EvidenceKind) :
    h.weightSum e ≤ h.weightSum (e.add k) := by
  unfold Header.weightSum
  cases k <;> simp only [Evidence.add, Nat.add_le_add_iff_right, Nat.add_le_add_iff_left] <;>
    exact weighed_le_present _ _

/-- Settles O30: the sum term by term, and its bound. -/
theorem scoreIsTheSaturatedSum : Obligations.ScoreIsTheSaturatedSum := by
  unfold Obligations.ScoreIsTheSaturatedSum
  intro h e k
  refine ⟨h.score_toNat e, ?_⟩
  rw [h.score_toNat, h.score_toNat]
  exact min_le_min_left 255 (h.weightSum_le_add e k)

/-! ### Places in the queue (R104, R105) -/

/-- The state after an insertion, with the queue and the eviction count as the insertion leaves them (R104, R111). -/
def State.withInserted (l : List TamperEntry) (evictions : Half) (s : State) : State :=
  { s with
    tamper := { s.tamper with
      entries := l, evictions := evictions
      pulseRunning := s.tamper.pulseRunning || decide (s.tamper.cabMode = .pulse) }
    events := { s.events with pending := s.events.pending ||| 0x1 } }

theorem State.inserted_eq (l : List TamperEntry) (evictions : Half) (s : State) :
    (s.withTamper { s.tamper with entries := l, evictions := evictions }).inserted = s.withInserted l evictions := by
  rfl

theorem State.placeInQueue_of_room {x : TamperEntry} (room : s.tamper.entries.length < 128) :
    s.placeInQueue x = s.withInserted (insertRanked x s.tamper.entries) s.tamper.evictions := by
  have fits : s.tamper.entries.length < Config.tamperEntries := room
  unfold State.placeInQueue
  rw [if_pos fits]
  exact State.inserted_eq _ _ s

section FullQueue
variable {rest : List TamperEntry} {x last : TamperEntry}
variable (split : s.tamper.entries = rest ++ [last]) (full : rest.length = 127)
include split full

theorem State.placeInQueue_of_full : s.placeInQueue x = if x.ranksAbove last then
      s.withInserted (insertRanked x rest) (satInc s.tamper.evictions)
    else { s with tamper := { s.tamper with turnedAway := satInc s.tamper.turnedAway } } := by
  have many : ¬s.tamper.entries.length < Config.tamperEntries := by
    rw [split, List.length_append, full]
    exact Nat.lt_irrefl 128
  have dropped : s.tamper.entries.dropLast = rest := by rw [split, List.dropLast_concat]
  unfold State.placeInQueue
  rw [if_neg many, dropped, split, List.getLast?_concat]
  dsimp only
  rw [State.inserted_eq]
  rfl

end FullQueue

/-- An unlisted record is a newcomer. -/
theorem State.risenReport_unlisted {slot : Nat} (absent : ∀ e ∈ s.tamper.entries, e.slot ≠ slot) (r : Record) :
    s.risenReport slot r = s.placeInQueue (r.tamperEntry slot) := by
  have none : (s.tamper.entries.find? fun e => e.slot == slot) = none :=
    List.find?_eq_none.2 fun e he => by simpa using absent e he
  unfold State.risenReport
  rw [none]

/-- The entry that a search by slot finds, where no slot has two. -/
theorem find_of_mem_of_nodup_slots {l : List TamperEntry} (nodup : (l.map (·.slot)).Nodup) {x : TamperEntry}
    (hx : x ∈ l) : (l.find? fun e => e.slot == x.slot) = some x := by
  obtain ⟨e, he⟩ : ∃ e, (l.find? fun e => e.slot == x.slot) = some e :=
    Option.isSome_iff_exists.1 (List.find?_isSome.2 ⟨x, hx, beq_self_eq_true _⟩)
  have same : e.slot = x.slot := by simpa using List.find?_some he
  rw [he, List.inj_on_of_nodup_map nodup (List.mem_of_find?_eq_some he) hx same]

/-- A listed record's entry takes its new score and evidence, and its new place (R105). -/
theorem State.risenReport_listed (nodup : (s.tamper.entries.map (·.slot)).Nodup) {x : TamperEntry}
    (hx : x ∈ s.tamper.entries) (r : Record) : s.risenReport x.slot r = s.withTamper { s.tamper with
      entries := insertRanked { x with score := r.score, evidence := r.evidence }
        (s.tamper.entries.filter fun e => e.slot != x.slot) } := by
  unfold State.risenReport
  rw [find_of_mem_of_nodup_slots nodup hx]

/-- Settles O50: the queue with room, the full one, and the two kinds of risen report. -/
theorem newcomersArePlacedByRank : Obligations.NewcomersArePlacedByRank := by
  unfold Obligations.NewcomersArePlacedByRank
  intro s x t ordered inserted
  refine ⟨fun room => ?_, fun rest last split full above => ?_, fun rest last split full below => ?_,
    fun r absent => ?_, fun r listed nodup => ?_⟩
  · have placed : t = s.withInserted (insertRanked x s.tamper.entries) s.tamper.evictions :=
      State.placeInQueue_of_room room
    rw [placed]
    exact ⟨rfl, insertRanked_perm x _, insertRanked_ordered⟩
  · have placed : t = s.withInserted (insertRanked x rest) (satInc s.tamper.evictions) :=
      (State.placeInQueue_of_full split full).trans (if_pos above)
    rw [placed]
    refine ⟨rfl, insertRanked_perm x _, fun order => insertRanked_ordered ?_⟩
    rw [split] at order
    exact (List.pairwise_append.1 order).1
  · exact (State.placeInQueue_of_full split full).trans (if_neg (by simp [below]))
  · rw [State.risenReport_unlisted absent]
    unfold Record.tamperEntry optWord
    cases r.flagTime <;> rfl
  · intro u
    have risen := State.risenReport_listed nodup listed r
    rw [show u = _ from risen]
    have others : (s.tamper.entries.filter fun e => e.slot != x.slot) =
        s.tamper.entries.filter fun e => e.slot ≠ x.slot := List.filter_congr fun e _ => by simp [bne, beq_eq_decide]
    refine ⟨rfl, ?_, fun order => insertRanked_ordered (order.filter _)⟩
    rw [← others]
    exact insertRanked_perm _ _

/-! ### TAMPER_ACK (R107) -/

section Acknowledgement
variable {s1 : State} {serial : Word} {slot : Nat} {r : Record}
variable (hs : s.serving) (hf : s.find serial = (.record slot r, s1)) (hb : r.batch = none)
include hs hf hb

theorem execTamperAck_of_found : exec (.tamperAck serial) s = .next (
    if r.status ≠ .flagged then s1.refuseHolding slot .wrongState
    else ((if r.marks.acknowledged then s1
      else (s1.putRecord slot { r with marks := { r.marks with acknowledged := true } }).removedReport
        slot).letGo slot).reply .ok [r.score, boolByte (s1.listed slot)]) := by
  show execTamperAck serial s = _
  unfold execTamperAck
  rw [State.serve_of_serving hs, hf]
  dsimp only
  rw [hb]
  rfl

theorem execTamperAck_not_flagged (h : r.status ≠ .flagged) :
    exec (.tamperAck serial) s = .next ((s1.letGo slot).reply .wrongState []) := by
  rw [execTamperAck_of_found hs hf hb, if_pos h]
  rfl

theorem execTamperAck_again (h : r.status = .flagged) (ha : r.marks.acknowledged = true) :
    exec (.tamperAck serial) s =
      .next ((s1.letGo slot).reply .ok [r.score, boolByte (s1.listed slot)]) := by
  rw [execTamperAck_of_found hs hf hb, if_neg (not_not.2 h), if_pos ha]

theorem execTamperAck_first (h : r.status = .flagged) (ha : r.marks.acknowledged = false) :
    exec (.tamperAck serial) s = .next ((((s1.putRecord slot
      { r with marks := { r.marks with acknowledged := true } }).removedReport slot).letGo slot).reply .ok
        [r.score, boolByte (s1.listed slot)]) := by
  rw [execTamperAck_of_found hs hf hb, if_neg (not_not.2 h), if_neg (by simp [ha])]

end Acknowledgement

/-- Settles O51: the record put back with its mark, and the two answers that change nothing. -/
theorem acknowledgementsLeaveTheQueue : Obligations.AcknowledgementsLeaveTheQueue := by
  unfold Obligations.AcknowledgementsLeaveTheQueue
  intro s s1 serial slot r d hs hok hf hb hd listed
  refine ⟨fun flagged unmarked => ?_, execTamperAck_again hs hf hb, execTamperAck_not_flagged hs hf hb⟩
  have quiet : Quiet s s1 := by have q := (Quiet.refl s).find serial; rwa [hf] at q
  have hok1 : s1.Ok := by have h := hok.find serial; rwa [hf] at h
  obtain ⟨hcached, -, -⟩ := State.find_record hf
  obtain ⟨i, hi⟩ := State.lineOf_of_cached (s := s1) (slot := slot) (by rw [hcached]; simp)
  obtain ⟨r', hr'⟩ : ∃ r', r' = { r with marks := { r.marks with acknowledged := true } } := ⟨_, rfl⟩
  have filed := State.putRecord_filed hd r'
  have entry : (⟨.live r'.status, r'.segment, d.chain, r'.batch.isSome⟩ : DirEntry) =
      ⟨.live .flagged, r.segment, d.chain, false⟩ := by rw [hr', ← flagged, hb]; rfl
  refine ⟨((s1.putRecord slot r').removedReport slot).letGo slot, ?_,
    ((quiet.putRecord slot r').removedReport slot).letGo slot, ?_, ?_, ?_, fun k hk => ?_, ?_, ?_, ?_⟩
  · rw [execTamperAck_first hs hf hb flagged unmarked, hr']
    rfl
  · rw [State.letGo_cached, ← hr', ← (State.putRecord_line r' hi).2]
    exact State.cached_congr rfl slot
  · rw [(State.letGo_frame slot _).2.2.1]
    unfold State.removedReport
    simp
  · rw [← entry, ← filed.get]
    simp
  · rw [← filed.get_ne hok1 hk]
    simp
  · simp
  · simp
  · simpa using filed.mem.reads hok1.mem

/-! ### CAB_MODE (R112) -/

theorem CabMode.ofCode_code (m : CabMode) : CabMode.ofCode m.code = some m := by cases m <;> rfl

theorem CabMode.ofCode_above {b : Byte} (h : 2 < b.toNat) : CabMode.ofCode b = none := by
  unfold CabMode.ofCode
  split_ifs with h0 h1 h2
  · subst h0; exact absurd h (by decide)
  · subst h1; exact absurd h (by decide)
  · subst h2; exact absurd h (by decide)
  · rfl

theorem isYesNo_boolByte (b : Bool) : isYesNo (boolByte b) = true := by cases b <;> rfl

/-- A command that no scan serves is BUSY while one runs (R164). -/
theorem State.serve_of_scanning {work : State → State} (h : s.listening) (scan : s.route.scanning ≠ none) :
    s.serve false work = s.refuse .busy := by
  obtain ⟨on, unit⟩ := h
  have scanning : s.isScanning = true := Option.isSome_iff_ne_none.2 scan
  unfold State.serve
  rw [if_neg (by simp [on]), if_neg (by simp [unit]), if_pos (by simp [scanning])]

/-- Settles O36: a scan, an unknown mode, and the mode taken, whose output is read off mode by mode. -/
theorem cabModeIsSet : Obligations.CabModeIsSet := by
  unfold Obligations.CabModeIsSet
  intro s mode invert hl
  refine ⟨fun scan => congrArg Host.Outcome.next (State.serve_of_scanning hl scan), fun still unknown => ?_,
    fun m inv still hm hi => ?_⟩
  · show execCabMode mode invert s = _
    unfold execCabMode
    rw [State.serve_of_serving ⟨hl, still⟩, CabMode.ofCode_above unknown]
    rfl
  · intro t
    have taken : exec (.cabMode mode invert) s = .next t := by
      show execCabMode mode invert s = _
      have level : (boolByte inv == 1) = inv := by cases inv <;> rfl
      have same : (s.tamper.cabMode == m) = decide (m = s.tamper.cabMode) :=
        decide_eq_decide.2 eq_comm
      unfold execCabMode
      rw [State.serve_of_serving ⟨hl, still⟩, hm, hi, CabMode.ofCode_code]
      dsimp only
      rw [isYesNo_boolByte, level, same]
      rfl
    have on : (t.power == .on) = true := by
      show (s.power == .on) = true
      rw [hl.1]
      rfl
    refine ⟨taken, ?_, rfl⟩
    unfold State.cabActive
    rw [on, Bool.true_and]
    cases m with
    | off => rfl
    | level => show (!s.tamper.entries.isEmpty) = _; cases s.tamper.entries <;> rfl
    | pulse => exact congrArg (s.tamper.pulseRunning && ·) (decide_eq_decide.2 eq_comm)

end Sys2Proof.Machine
end

