-- ==== Sys2Proof/Proofs/Clock.lean ====
section
/-! PROOF. The route clock, its checkpoint, the dwell compare and the pulse timer, with a leave walk or a report that a
row of time meets (O37). -/

namespace Sys2Proof.Machine

variable {s t : State}

/-! ### A leave walk that a row of time meets (R125) -/

theorem State.goOnLeaving_alone (h : ∀ w, s.command.unit ≠ .executing (.leaving w)) : s.goOnLeaving = s := by
  unfold State.goOnLeaving
  split
  next w e => exact absurd e (h w)
  · rfl

theorem State.goOnLeaving_leaving {w : Leaving} (h : s.command.unit = .executing (.leaving w)) :
    s.goOnLeaving = State.leaveOn w.segment w.entering
      (((s.directory.filter fun e => e.2.segment = some w.segment).map (·.1)).filter fun k => w.next ≤ k)
      (s, w.counts) := by
  unfold State.goOnLeaving
  rw [h]
  have slots : (s.directory.filter fun e => e.2.segment == some w.segment) =
      s.directory.filter fun e => e.2.segment = some w.segment :=
    List.filter_congr fun e _ => beq_eq_decide _ _
  unfold State.slotsOf
  rw [← slots]

theorem keptBeside_true : KeptBeside fun _ => True := by
  constructor <;> intros <;> trivial

/-- A leave walk ends held by another row of time, or with its answer, and never as a report under way. -/
theorem State.leaveOn_no_report (n : Seg) (entering : Option Seg) (slots : List Nat) (x : State × WalkCounts)
    (w : Reporting) : (State.leaveOn n entering slots x).command.unit ≠ .executing (.reporting w) := by
  obtain ⟨y, next, counts, -, e⟩ | ⟨y, -, e⟩ :=
    keptBeside_true.leaveOn_cases (n := n) (entering := entering) slots (fun _ _ _ _ => trivial) (x := x) trivial
  · rw [e]
    unfold State.holdWalk
    simp
  · rw [e]
    cases entering <;> simp [State.left, State.reply, State.respond]

theorem State.goOnReport_leaveOn (n : Seg) (entering : Option Seg) (slots : List Nat) (x : State × WalkCounts) :
    (State.leaveOn n entering slots x).goOnReport = State.leaveOn n entering slots x :=
  State.goOnReport_of_none (State.leaveOn_no_report n entering slots x)

/-! ### The clock and its checkpoint (R136, R137) -/

theorem satInc_word (x : Word) : satInc x = BitVec.ofNat 32 (min 4294967295 (x.toNat + 1)) := by
  unfold satInc
  split
  next top => rw [top]; rfl
  next below =>
    have bound : x.toNat ≠ 4294967295 := fun e => below (BitVec.eq_of_toNat_eq e)
    apply BitVec.eq_of_toNat_eq
    rw [BitVec.toNat_add, BitVec.toNat_ofNat]
    have one : (1 : Word).toNat = 1 := rfl
    omega

theorem checkpointAt_iff (v : Word) : checkpointAt v = true ↔ v.toNat % 600 = 0 ∨ v.toNat = 4294967295 := by
  simp [checkpointAt, ← BitVec.toNat_inj]

theorem State.clockRuns_iff (s : State) : s.clockRuns = true ↔
    s.power = .on ∧ s.route.state = .opened ∧ s.route.scanning = none := by
  simp [State.clockRuns, State.gateOpen, State.isScanning]

theorem State.tenthPassed_eq (s : State) :
    let v : Word := BitVec.ofNat 32 (min 4294967295 (s.route.clock.toNat + 1))
    s.tenthPassed = { s with route := { s.route with
      clock := v
      checkpointsDue := s.route.checkpointsDue ++
        if v ≠ s.route.clock ∧ (v.toNat % 600 = 0 ∨ v.toNat = 4294967295) then [v] else [] } } := by
  intro v
  have due : (if (v != s.route.clock && checkpointAt v) = true then [v] else []) =
      if v ≠ s.route.clock ∧ (v.toNat % 600 = 0 ∨ v.toNat = 4294967295) then [v] else [] :=
    if_congr (by rw [Bool.and_eq_true, bne_iff_ne, checkpointAt_iff]) rfl rfl
  unfold State.tenthPassed
  rw [satInc_word]
  dsimp only
  rw [due]
  rfl

theorem execRouteClockTick_running (h : s.clockRuns = true) :
    exec .routeClockTick s = .next s.tenthPassed.goOnLeaving.goOnReport := by
  show execRouteClockTick s = _
  unfold execRouteClockTick
  rw [if_neg (by simp [(s.clockRuns_iff.1 h).1]), if_pos h]

theorem execRouteClockTick_stopped (on : s.power = .on) (h : ¬s.clockRuns = true) :
    exec .routeClockTick s = .next s.goOnReport := by
  show execRouteClockTick s = _
  unfold execRouteClockTick
  rw [if_neg (by simp [on]), if_neg h]

theorem execClockCheckpoint_running (h : s.clockRuns = true) : exec .clockCheckpoint s = .next s.writeDue := by
  show execClockCheckpoint s = _
  unfold execClockCheckpoint
  rw [if_pos h]

theorem execClockCheckpoint_stopped (h : ¬s.clockRuns = true) : exec .clockCheckpoint s = .next s := by
  show execClockCheckpoint s = _
  unfold execClockCheckpoint
  rw [if_neg h]

theorem State.writeDue_cons {v : Word} {rest : List Word} (h : s.route.checkpointsDue = v :: rest) :
    s.writeDue = { s with
      mem := s.mem.writeItem 4 (wordBytes v), route := { s.route with checkpointsDue := rest } } := by
  unfold State.writeDue
  rw [h]
  rfl

theorem State.writeDue_nil (h : s.route.checkpointsDue = []) : s.writeDue = s := by
  unfold State.writeDue
  rw [h]

/-! ### The dwell compare (R125) -/

theorem execDwellCompareExpire_on (on : s.power = .on) :
    exec .dwellCompareExpire s = .next s.dwellExpired.goOnLeaving := by
  show execDwellCompareExpire s = _
  unfold execDwellCompareExpire
  rw [if_neg (by simp [on])]

section Armed
variable {target : Nat} (armed : s.segments.dwellTarget = some target)
include armed

theorem State.dwellExpired_early (early : s.route.clock.toNat < target) : s.dwellExpired = s := by
  unfold State.dwellExpired
  rw [armed]
  exact if_pos early

/-- The overrun mark is not among a segment's stored items, so that nothing is written through (R113). -/
theorem State.dwellExpired_reached {n : Seg} (active : s.segments.active = some n)
    (reached : target ≤ s.route.clock.toNat) : s.dwellExpired = { s with
      segments := { s.segments with
        entries := s.segments.entries.set n.val { s.segment n with overrun := true }
        dwellTarget := none }
      events := { s.events with pending := s.events.pending ||| 0x4 } } := by
  have marked : s.putSegment n { s.segment n with overrun := true } = s.withSegments { s.segments with
      entries := s.segments.entries.set n.val { s.segment n with overrun := true } } := if_pos rfl
  unfold State.dwellExpired
  rw [armed]
  dsimp only
  rw [if_neg (Nat.not_lt.2 reached), active]
  dsimp only
  rw [marked, ← active]
  rfl

end Armed

/-- Settles O37: each row of time by its equation, and the leave walk or report that it has met. -/
theorem clockAndTimersRun : Obligations.ClockAndTimersRun := by
  unfold Obligations.ClockAndTimersRun
  intro s on alone resumed
  refine ⟨fun opened still => ?_, fun stopped => ?_, fun target n armed active => ?_, fun running => ?_⟩
  · have runs : s.clockRuns = true := s.clockRuns_iff.2 ⟨on, opened, still⟩
    intro v ticked
    have passed : s.tenthPassed = ticked := s.tenthPassed_eq
    rw [execRouteClockTick_running runs, execClockCheckpoint_running runs, passed]
    refine ⟨fun unmet => ?_, fun w met => ?_, fun v rest due => ?_, fun none => ?_⟩
    · rw [State.goOnLeaving_alone (s := ticked) unmet]
    · rw [State.goOnLeaving_leaving (s := ticked) met, State.goOnReport_leaveOn]
    · rw [State.writeDue_cons due]
    · rw [State.writeDue_nil none]
  · have stands : ¬s.clockRuns = true := by
      rw [s.clockRuns_iff]
      rintro ⟨-, opened, still⟩
      exact stopped.elim (absurd opened) (absurd still)
    exact ⟨execRouteClockTick_stopped on stands, execClockCheckpoint_stopped stands⟩
  · intro expired
    rw [execDwellCompareExpire_on on]
    refine ⟨fun reached => ?_, fun early => ?_⟩
    · have done : s.dwellExpired = expired := State.dwellExpired_reached armed active reached
      rw [done]
      exact ⟨fun unmet => by rw [State.goOnLeaving_alone (s := expired) unmet],
        fun w met => by rw [State.goOnLeaving_leaving (s := expired) met]⟩
    · rw [State.dwellExpired_early armed early]
      exact ⟨fun unmet => by rw [State.goOnLeaving_alone unmet], fun w met => by rw [State.goOnLeaving_leaving met]⟩
  · show execPulseTimerExpire s = _
    unfold execPulseTimerExpire
    rw [if_pos ⟨on, running⟩]
    rfl

end Sys2Proof.Machine
end

