-- ==== Sys2Proof/Proofs/ScanWork.lean ====
section
/-! PROOF. What the RECOVERY scan's work on records leaves of the 460, and what it makes of the segment unit while
completion and reopening are not judged (R115, R143). -/

namespace Sys2Proof.Machine

variable {a s t : State}

/-! ### Reports while a scan runs (R115) -/

/-- A segment's entry without its counts. -/
def Segment.uncounted (e : Segment) : Segment := { e with members := 0, outstanding := 0, done := 0, faulted := 0 }

theorem Segment.recount_uncounted (e : Segment) (c : Class) (f : Nat → Nat) :
    (e.recount c f).uncounted = e.uncounted := by cases c <;> rfl

/-- Of the segment unit `t` has what `s` has, but for the counts of the segments. -/
structure Recounted (s t : State) : Prop where
  segments : t.segments = { s.segments with entries := t.segments.entries }
  entries : ∀ n, (t.segment n).uncounted = (s.segment n).uncounted

theorem Recounted.refl (s : State) : Recounted s s := ⟨rfl, fun _ => rfl⟩

theorem Recounted.trans (h : Recounted a s) (h1 : Recounted s t) : Recounted a t :=
  ⟨by rw [h1.segments, h.segments], fun n => (h1.entries n).trans (h.entries n)⟩

theorem Recounted.of_segments (h : t.segments = s.segments) : Recounted s t :=
  ⟨by rw [h], fun n => by unfold State.segment; rw [h]⟩

theorem Recounted.state (h : Recounted s t) (n : Seg) : (t.segment n).state = (s.segment n).state :=
  congrArg (·.state) (h.entries n)

theorem Recounted.enabled (h : Recounted s t) (n : Seg) : (t.segment n).enabled = (s.segment n).enabled :=
  (congrArg Segment.enabled (h.entries n) :)

theorem Recounted.windowOf (h : Recounted s t) (sequence : Half) : t.windowOf sequence = s.windowOf sequence := by
  unfold State.windowOf
  congr 1
  funext n
  exact (congrArg (fun e : Segment => e.covers sequence) (h.entries n) :)

theorem Recounted.countAt (s : State) (p : Option Place) (f : Nat → Nat) : Recounted s (s.countAt p f) := by
  unfold State.countAt
  split
  next n status =>
    refine ⟨by rw [(State.putSegment_fields _ _ _).1], fun k => ?_⟩
    rw [State.putSegment_segment]
    split
    next same => rw [same]; exact Segment.recount_uncounted _ _ _
    · rfl
  · exact .refl s

theorem State.countAt_events (s : State) (p : Option Place) (f : Nat → Nat) : (s.countAt p f).events = s.events := by
  unfold State.countAt
  split
  · exact (State.putSegment_fields _ _ _).2.2
  · rfl

theorem State.countAt_segments_congr (h : t.segments = s.segments) (p : Option Place) (f : Nat → Nat) :
    (t.countAt p f).segments = (s.countAt p f).segments := by
  unfold State.countAt
  split
  next n status =>
    rw [(State.putSegment_fields _ _ _).1, (State.putSegment_fields _ _ _).1]
    unfold State.segment
    rw [h]
  · exact h

section Scanning
variable (scan : s.route.scanning ≠ none)
include scan

/-- While a scan runs a report moves counts alone. -/
theorem State.report_scanning (old new : Option Place) :
    s.report old new = (s.countAt old (· - 1)).countAt new (· + 1) :=
  if_pos (Option.isSome_iff_ne_none.2 scan)

theorem Recounted.report (old new : Option Place) : Recounted s (s.report old new) := by
  rw [State.report_scanning scan]
  exact (Recounted.countAt s old _).trans (Recounted.countAt _ new _)

theorem State.report_events (old new : Option Place) : (s.report old new).events = s.events := by
  rw [State.report_scanning scan, State.countAt_events, State.countAt_events]

/-- What a report makes of the segment unit depends on the segment unit alone, while a scan runs. -/
theorem State.report_segments_congr (scan' : t.route.scanning ≠ none) (h : t.segments = s.segments)
    (old new : Option Place) : (t.report old new).segments = (s.report old new).segments := by
  rw [State.report_scanning scan, State.report_scanning scan']
  exact State.countAt_segments_congr (State.countAt_segments_congr h old _) new _

end Scanning

/-! ### The scan's treatment of a slot, case by case (R143) -/

/-- The line of a slot let go when the slot is treated. -/
def Scan.released (slot : Nat) (y : Scan) : Scan := { y with state := y.state.letGo slot }

/-- The scan with a slot read and found occupied. -/
def Scan.counted (x : Scan) (slot : Nat) : Scan := { x with state := (x.state.scanRead slot).2.countOccupied }

/-- A record that the scan keeps entered as it was read: as it stands where its check holds, else as FAULT. -/
def Scan.enter (slot : Nat) (read : SlotRead) (y : Scan) : Scan :=
  if read.good then y.keep slot (Contents.ofBytes read.bytes) else y.fail slot read.bytes

section Slot
variable (x : Scan) (slot : Nat)

/-- What each case of the treatment keeps, the treatment keeps. -/
theorem Scan.slot_keeps {P : Scan → Prop} (release : ∀ y, P y → P (y.released slot))
    (free : P { x with state := (x.state.scanRead slot).2 })
    (discarded : P { x with state := (x.state.scanRead slot).2.countOccupied.discard slot })
    (new : P ((x.counted slot).enter slot (x.state.scanRead slot).1))
    (swapped : ∀ earlier serial, P (((x.counted slot).dismiss earlier serial).enter slot (x.state.scanRead slot).1)) :
    P (x.slot slot) := by
  have ite : ∀ (c : Prop) [Decidable c] (y z : Scan), P y → P z → P (if c then y else z) := fun c _ y z hy hz => by
    split_ifs <;> assumption
  refine release _ (ite _ _ _ free (ite _ _ _ discarded ?_))
  split
  · exact new
  next earlier _ => exact ite _ _ _ (swapped earlier _) discarded

variable {x slot} {read : SlotRead} (hread : x.state.scanRead slot = (read, s))
include hread

theorem Scan.slot_unlisted (h : wordAt read.bytes 0 = 0 ∨ wordAt read.bytes 0 = 0xFFFFFFFF) :
    x.slot slot = { x with state := s.letGo slot } := by
  unfold Scan.slot
  dsimp only
  rw [hread]
  dsimp only
  rw [if_pos h]

variable (listed : ¬(wordAt read.bytes 0 = 0 ∨ wordAt read.bytes 0 = 0xFFFFFFFF))
include listed

theorem Scan.slot_of_empty (h : s.route.state = .empty) :
    x.slot slot = { x with state := (s.countOccupied.discard slot).letGo slot } := by
  have empty : s.countOccupied.route.state = .empty := h
  unfold Scan.slot
  dsimp only
  rw [hread]
  dsimp only
  rw [if_neg listed, if_pos empty]

variable (live : s.route.state ≠ .empty)
include live

theorem Scan.slot_new (h : s.mem.lookup (wordAt read.bytes 0) = none) :
    x.slot slot = ((x.counted slot).enter slot read).released slot := by
  have occupied : s.countOccupied.route.state ≠ .empty := live
  have unknown : s.countOccupied.mem.lookup (wordAt read.bytes 0) = none := h
  unfold Scan.slot Scan.counted
  dsimp only
  rw [hread]
  dsimp only
  rw [if_neg listed, if_neg occupied, unknown]
  rfl

variable {earlier : Nat} (known : s.mem.lookup (wordAt read.bytes 0) = some earlier)
include known

theorem Scan.slot_repeated (h : ¬(read.good = true ∧ earlier ∈ x.failed)) :
    x.slot slot = { x with state := (s.countOccupied.discard slot).letGo slot } := by
  have occupied : s.countOccupied.route.state ≠ .empty := live
  have found : s.countOccupied.mem.lookup (wordAt read.bytes 0) = some earlier := known
  unfold Scan.slot
  dsimp only
  rw [hread]
  dsimp only
  rw [if_neg listed, if_neg occupied, found]
  dsimp only
  rw [if_neg (by simpa using h)]

theorem Scan.slot_swapped (good : read.good = true) (h : earlier ∈ x.failed) : x.slot slot =
    (((x.counted slot).dismiss earlier (wordAt read.bytes 0)).enter slot read).released slot := by
  have occupied : s.countOccupied.route.state ≠ .empty := live
  have found : s.countOccupied.mem.lookup (wordAt read.bytes 0) = some earlier := known
  unfold Scan.slot Scan.counted
  dsimp only
  rw [hread]
  dsimp only
  rw [if_neg listed, if_neg occupied, found]
  dsimp only
  rw [if_pos (by simp [good, h])]
  rfl

end Slot

/-! ### What the scan's work leaves (R143) -/

theorem Quiet.set_route (q : Quiet s t) (x : Route) : Quiet { s with route := x } { t with route := x } where
  pending := q.pending
  power := q.power
  ports := q.ports
  route := rfl
  assessment := q.assessment
  depot := q.depot
  draws := q.draws
  enabled := q.enabled
  raised := q.raised
  matching := q.matching
  command := q.command
  responding := q.responding
  idle := q.idle
  cabMode := q.cabMode
  invert := q.invert

/-- An event raised changes no other bit of the pending set. -/
theorem State.raise_bit (s : State) (e : Event) {k : Nat} (hk : k ≠ e.bit) :
    (s.raise e).events.pending.getLsbD k = s.events.pending.getLsbD k := by
  show (s.events.pending ||| e.mask).getLsbD k = _
  rw [BitVec.getLsbD_or, Event.mask, BitVec.getLsbD_shiftLeft, BitVec.getLsbD_one]
  rw [show decide (k - e.bit = 0) = decide (k ≤ e.bit) from decide_eq_decide.2 (by omega)]
  by_cases below : k < e.bit
  · simp [below]
  · simp [show ¬k ≤ e.bit by omega]

/-- Work of the RECOVERY scan from `a` to `t`: it leaves all that work on records leaves, but the scan's own counts; the
scan goes on; of the segment unit the counts alone change; and no event is raised but those of `raises`, by their bits. -/
structure ScanWork (raises : Nat → Prop) (a t : State) : Prop where
  quiet : Quiet a { t with route := a.route }
  route : t.route = { a.route with
    scanOccupied := t.route.scanOccupied, scanFailures := t.route.scanFailures
    scanCut := t.route.scanCut, scanDiscarded := t.route.scanDiscarded }
  recounted : Recounted a t
  events : ∀ k, ¬raises k → t.events.pending.getLsbD k = a.events.pending.getLsbD k

namespace ScanWork

variable {raises : Nat → Prop}

theorem refl (raises : Nat → Prop) (a : State) : ScanWork raises a a :=
  ⟨Quiet.refl a, rfl, .refl a, fun _ _ => rfl⟩

theorem trans (h : ScanWork raises a s) (h1 : ScanWork raises s t) : ScanWork raises a t where
  quiet := h.quiet.trans (h1.quiet.set_route a.route)
  route := by rw [h1.route, h.route]
  recounted := h.recounted.trans h1.recounted
  events k hk := (h1.events k hk).trans (h.events k hk)

theorem scanning (h : ScanWork raises a s) : s.route.scanning = a.route.scanning := by rw [h.route]

theorem routeState (h : ScanWork raises a s) : s.route.state = a.route.state := by rw [h.route]

theorem ite {c : Prop} [Decidable c] {x y : State} (hx : ScanWork raises a x) (hy : ScanWork raises a y) :
    ScanWork raises a (if c then x else y) := by split_ifs <;> assumption

/-- Quiet work that leaves the segment unit and the events. -/
theorem of_quiet (h : ScanWork raises a s) (q : Quiet s t) (hs : t.segments = s.segments)
    (he : t.events = s.events) : ScanWork raises a t :=
  h.trans ⟨by rw [← q.route]; exact q, by rw [q.route], .of_segments hs, fun _ _ => by rw [he]⟩

theorem withDirectory (h : ScanWork raises a s) (x : Directory) : ScanWork raises a (s.withDirectory x) :=
  h.of_quiet ((Quiet.refl s).withDirectory x) rfl rfl

theorem withMem (h : ScanWork raises a s) (x : Memory) : ScanWork raises a (s.withMem x) :=
  h.of_quiet ((Quiet.refl s).withMem x) rfl rfl

theorem withStore (h : ScanWork raises a s) (x : Store) : ScanWork raises a (s.withStore x) :=
  h.of_quiet ((Quiet.refl s).withStore x) rfl rfl

theorem raise (h : ScanWork raises a s) (e : Event) (he : raises e.bit) : ScanWork raises a (s.raise e) :=
  h.trans ⟨(Quiet.refl s).raise e, rfl, .of_segments rfl, fun _ hk => s.raise_bit e fun same => hk (same ▸ he)⟩

theorem count (h : ScanWork raises a s) (occupied failures cut discarded : Half) :
    ScanWork raises a (s.withRoute { s.route with
      scanOccupied := occupied, scanFailures := failures, scanCut := cut, scanDiscarded := discarded }) :=
  h.trans ⟨Quiet.refl s, rfl, .of_segments rfl, fun _ _ => rfl⟩

theorem report (h : ScanWork raises a s) (scan : a.route.scanning ≠ none) (old new : Option Place) :
    ScanWork raises a (s.report old new) := by
  have scan' : s.route.scanning ≠ none := h.scanning ▸ scan
  have q := (Quiet.refl s).report old new
  exact h.trans ⟨by rw [← q.route]; exact q, by rw [q.route], .report scan' old new,
    fun _ _ => by rw [State.report_events scan']⟩

theorem letGo (h : ScanWork raises a s) (slot : Nat) : ScanWork raises a (s.letGo slot) :=
  h.of_quiet ((Quiet.refl s).letGo slot) (by simp) (by simp)

theorem putContents (h : ScanWork raises a s) (slot : Nat) (c : Contents) : ScanWork raises a (s.putContents slot c) :=
  h.of_quiet ((Quiet.refl s).putContents slot c) (by simp) (by simp)

theorem putRecord (h : ScanWork raises a s) (scan : a.route.scanning ≠ none) (slot : Nat) (r : Record) :
    ScanWork raises a (s.putRecord slot r) := by
  have put := h.putContents slot (.live r)
  unfold State.putRecord State.fileRecord
  split
  · exact put
  · exact (put.withDirectory _).report scan _ _

theorem becomeFault (h : ScanWork raises a s) (scan : a.route.scanning ≠ none) (fault : raises 4) (slot : Nat) :
    ScanWork raises a (s.becomeFault slot) := by
  unfold State.becomeFault
  split
  · exact h
  next d _ =>
    dsimp only
    generalize (s.mem.serialNaming slot Config.indexEntries).getD 0 = serial
    have quiet := ((((Quiet.refl s).putContents slot (.fault serial d.segment)).freeChain d.chain).removedReport
      slot).forget slot
    have lost : ScanWork raises a ((((s.putContents slot (.fault serial d.segment)).freeChain d.chain).removedReport
        slot).forget slot) := h.of_quiet quiet (by simp) (by simp)
    exact ((lost.withDirectory _).report scan _ _).raise .recordFault fault

theorem takeLine (h : ScanWork raises a s) (scan : a.route.scanning ≠ none) (fault : raises 4) (u : Holder)
    (slot : Nat) : ScanWork raises a (s.takeLine u slot).1 := by
  unfold State.takeLine
  split
  · exact h.withStore _
  · have evicted := (Quiet.refl s).evict s.victim
    dsimp only
    split
    · exact h.of_quiet (evicted.hold _ _ _) (by simp) (by simp)
    · have filled : ∀ c, ScanWork raises a
          (((s.evict s.victim).grant u).hold u s.victim (some ⟨slot, false, c⟩)) := fun c =>
        h.of_quiet ((evicted.grant u).hold _ _ _) (by simp [State.grant]) (by simp [State.grant])
      split
      · exact filled _
      · exact becomeFault (filled _) scan fault slot

theorem flaggedReport (h : ScanWork raises a s) (flag : raises 0) (slot : Nat) (r : Record) :
    ScanWork raises a (s.flaggedReport slot r) := by
  have q := (Quiet.refl s).flaggedReport slot r
  refine h.trans ⟨by rw [← q.route]; exact q, by rw [q.route], .of_segments ?_, fun k hk => ?_⟩
  · simp [State.flaggedReport]
  · have zero : k ≠ 0 := fun e => hk (e ▸ flag)
    exact (State.placeInQueue_events _ _ zero).trans (by simp)

/-! ### The scan slot by slot (R143) -/

theorem scanRead (h : ScanWork raises a s) (slot : Nat) : ScanWork raises a (s.scanRead slot).2 := by
  refine h.of_quiet ((Quiet.refl s).scanRead slot) ?_ ?_ <;>
  · unfold State.scanRead
    split
    · rfl
    · dsimp only
      split <;> simp

theorem discard (h : ScanWork raises a s) (slot : Nat) : ScanWork raises a (s.discard slot) :=
  ScanWork.count (h.of_quiet (((Quiet.refl s).dropLine slot).enqueue ⟨slot, .free⟩) (by simp) (by simp)) _ _ _ _

section Scanning
variable (scan : a.route.scanning ≠ none)
include scan

theorem enroll (h : ScanWork raises a s) (slot : Nat) (serial : Word) (status : Status) (segment : Option Seg) :
    ScanWork raises a (s.enroll slot serial status segment) := ((h.withMem _).withDirectory _).report scan _ _

theorem cutChain (h : ScanWork raises a s) (u : Holder) (slot : Nat) (r : Record) (kept : Nat) :
    ScanWork raises a (s.cutChain u slot r kept) := by
  have freed := (h.withStore ((s.freeChain ((s.chain slot).drop kept)).store)).of_quiet
    ((Quiet.refl _).setChain slot ((s.chain slot).take kept)) (by simp) (by simp)
  unfold State.cutChain
  dsimp only
  split
  · exact putRecord (freed.of_quiet ((Quiet.refl _).relink u _ endMarker) (by simp [State.relink, State.grant])
      (by simp [State.relink, State.grant])) scan _ _
  · exact freed.putRecord scan _ _

theorem recoverChain (h : ScanWork raises a s) (slot : Nat) (r : Record) :
    ScanWork raises a (s.recoverChain slot r) := by
  have used : ∀ l : List (Nat × BlockKind), ScanWork raises a (l.foldl (fun s b => s.useBlock b.1) s) := fun l => by
    induction l generalizing s with
    | nil => exact h
    | cons b l ih => exact ih (h.withStore _)
  have chained := (used (s.mem.walkChain 4 s.store.usedBlocks r.firstBlock true 0).blocks).of_quiet
    ((Quiet.refl _).setChain slot (s.mem.walkChain 4 s.store.usedBlocks r.firstBlock true 0).blocks)
    (by simp) (by simp)
  exact ScanWork.ite (ScanWork.count (chained.cutChain scan _ _ _ _) _ _ _ _) chained

theorem keep {x : Scan} (h : ScanWork raises a x.state) (slot : Nat) (c : Contents) :
    ScanWork raises a (x.keep slot c).state := by
  unfold Scan.keep
  dsimp only
  split
  · exact h
  · exact (ite h (h.putContents _ _)).enroll scan _ _ _ _
  · exact ((ite h (h.putContents _ _)).enroll scan _ _ _ _).recoverChain scan _ _

theorem fail {x : Scan} (h : ScanWork raises a x.state) (fault : raises 4) (slot : Nat) (bs : List Byte) :
    ScanWork raises a (x.fail slot bs).state :=
  raise (ScanWork.count ((h.putContents _ _).enroll scan _ _ _ _) _ _ _ _) .recordFault fault

theorem dismiss {x : Scan} (h : ScanWork raises a x.state) (earlier : Nat) (serial : Word) :
    ScanWork raises a (x.dismiss earlier serial).state :=
  discard (((h.withMem _).withDirectory _).report scan _ _) _

theorem enter {x : Scan} (h : ScanWork raises a x.state) (fault : raises 4) (slot : Nat) (read : SlotRead) :
    ScanWork raises a (x.enter slot read).state := by
  unfold Scan.enter
  split
  · exact h.keep scan _ _
  · exact h.fail scan fault _ _

theorem slot {x : Scan} (h : ScanWork raises a x.state) (fault : raises 4) (n : Nat) :
    ScanWork raises a (x.slot n).state := by
  have read := h.scanRead n
  have counted : ScanWork raises a (x.state.scanRead n).2.countOccupied := ScanWork.count read _ _ _ _
  have shown : ScanWork raises a (x.counted n).state := counted
  exact Scan.slot_keeps (P := fun y => ScanWork raises a y.state) x n (fun _ h => ScanWork.letGo h n) read
    (counted.discard n) (shown.enter scan fault n _)
    (fun earlier serial => (dismiss scan shown earlier serial).enter scan fault n _)

theorem slots {x : Scan} (h : ScanWork raises a x.state) (fault : raises 4) (l : List Nat) :
    ScanWork raises a (l.foldl Scan.slot x).state := by
  induction l generalizing x with
  | nil => exact h
  | cons n l ih => exact ih (h.slot scan fault n)

end Scanning

end ScanWork

end Sys2Proof.Machine
end

