-- ==== Sys2Proof/Proofs/ScanEntries.lean ====
section
/-! PROOF. What the RECOVERY scan reads of a slot, and what it leaves of one that it discards and of one that it keeps:
the line, the directory entry, the counters, the serial index and the chain (R19, R143). -/

namespace Sys2Proof.Machine

variable {a s t w : State} {slot : Nat} {c : Contents}

/-! ### A slot read (R143) -/

/-- A record's image reads back where it shows a serial. -/
theorem Contents.ofBytes_image (h : wordAt c.image 0 ≠ 0) : Contents.ofBytes c.image = c := by
  cases c with
  | free => exact Contents.ofBytes_free
  | fault serial segment =>
    exact Contents.ofBytes_fault (fun e => h ((wordBytes_join serial).trans e)) segment
  | live r => exact Contents.ofBytes_live fun e => h ((Record.serial_of_body r _).trans e)

/-- The scan holds the line of the slot that it reads, and the line holds what the bytes read stand for. -/
theorem State.Ok.scanRead_spec (h : s.Ok) {read : SlotRead × State} (hread : s.scanRead slot = read) :
    read.2.Ok ∧ (∃ i, read.2.lineOf slot = some i) ∧ (read.1.good = true → wordAt read.1.bytes 0 ≠ 0 →
      read.2.cached slot = Contents.ofBytes read.1.bytes) := by
  refine ⟨hread ▸ h.scanRead slot, ?_⟩
  subst hread
  unfold State.scanRead
  split
  next i hi =>
    obtain ⟨b, hb, hs⟩ := State.lineOf_some hi
    obtain ⟨line, cached, -⟩ := State.hold_spec (s := s) .scan hs (.inl hi)
    rw [hb]
    refine ⟨⟨i, line⟩, fun _ shown => ?_⟩
    rw [Contents.ofBytes_image shown, cached, State.cached_of_line hi hb]
  next absent =>
    have vacant : (s.evict s.victim).lineOf slot = none :=
      (State.lineOf_congr (State.evict_lines _ _) slot).trans absent
    dsimp only
    split
    next c _ =>
      obtain ⟨line, cached, -⟩ := State.hold_spec (s := s.evict s.victim) (i := s.victim) (b := ⟨slot, false, c⟩) .scan
        rfl (.inr vacant)
      exact ⟨⟨_, line⟩, fun _ shown => by rw [Contents.ofBytes_image shown, cached]⟩
    · obtain ⟨line, cached, -⟩ := State.hold_spec (s := s.evict s.victim) (i := s.victim) (b := ⟨slot, false,
        if checkHolds 64 ((s.evict s.victim).mem.slotBytes slot) = true
          then Contents.ofBytes ((s.evict s.victim).mem.slotBytes slot) else .free⟩) .scan rfl (.inr vacant)
      exact ⟨⟨_, line⟩, fun good _ => by rw [cached]; exact if_pos good⟩

/-! ### A slot discarded (R143) -/

/-- A discarded slot's newest copy is the free slot, it is in no line, and it is counted. -/
structure Discarded (s t : State) (slot : Nat) : Prop where
  queued : t.queued slot = some .free
  line : t.lineOf slot = none
  directory : t.directory = s.directory
  route : t.route = { s.route with scanDiscarded := satInc s.route.scanDiscarded }
  segments : t.segments = s.segments

theorem State.Ok.discarded (h : s.Ok) (slot : Nat) : Discarded s (s.discard slot) slot where
  queued := by
    obtain ⟨qs, tail⟩ := State.enqueue_tail ⟨slot, .free⟩ (s.dropLine slot)
    exact State.queued_of_tail tail
  line := (State.lineOf_congr (State.enqueue_lines _ _) slot).trans (h.lineOf_dropLine slot)
  directory := by simp [State.discard]
  route := by simp [State.discard]
  segments := by simp [State.discard]

theorem State.letGo_of_none (h : s.lineOf slot = none) : s.letGo slot = s := by
  unfold State.letGo
  rw [h]

/-- What an image queued makes of memory depends on memory and the queue alone. -/
theorem State.enqueue_mem_congr (hm : t.mem = s.mem) (hq : t.store.queue = s.store.queue) (q : Queued) :
    (t.enqueue q).mem = (s.enqueue q).mem := by
  unfold State.enqueue State.writeOldest
  rw [hq]
  dsimp only
  split
  · exact hm
  · split
    · exact hm
    · rw [hm]
      rfl

theorem State.discard_mem_congr (hm : t.mem = s.mem) (hq : t.store.queue = s.store.queue) :
    (t.discard slot).mem = (s.discard slot).mem :=
  State.enqueue_mem_congr (by simpa using hm) (by simpa using hq) ⟨slot, .free⟩

/-! ### Contents put in a held line -/

/-- `p` is `w` with the slot's line holding `c`, the line being where it was. -/
structure Put (w p : State) (slot : Nat) (c : Contents) : Prop where
  same : p = { w with store := { w.store with lines := p.store.lines } }
  lines : ∀ k, p.lineOf k = w.lineOf k
  cached : p.cached slot = c

section HeldLine
variable {i : Fin 8} (held : w.lineOf slot = some i)
include held

theorem Put.putContents (c : Contents) : Put w (w.putContents slot c) slot c := by
  have put : w.putContents slot c = w.setLine i ⟨some ⟨slot, true, c⟩, (w.line i).holder⟩ := by
    unfold State.putContents
    rw [held]
  obtain ⟨b, hb, hs⟩ := State.lineOf_some held
  refine ⟨by rw [put]; rfl, fun k => ?_, (State.putContents_spec c held).2.1⟩
  have lines : (w.putContents slot c).store.lines = w.store.lines.set i.val ⟨some ⟨slot, true, c⟩, (w.line i).holder⟩ := by
    rw [put]
    rfl
  exact State.lineOf_set_same lines (by rw [hb, ← hs]; rfl) k

/-- The line is written where its contents change. -/
theorem Put.of_change {p : Prop} [Decidable p] (same : p → w.cached slot = c) :
    Put w (if p then w else w.putContents slot c) slot c := by
  split
  next h => exact ⟨rfl, fun _ => rfl, same h⟩
  · exact Put.putContents held c

end HeldLine

/-! ### A record entered (R115, R143) -/

/-- From `w` to `t` the scan has entered a record of `slot`: its line's contents, its directory entry with a chain, its
count, and its serial in the index. -/
structure Entered (w t : State) (slot : Nat) (serial : Word) (place : Place) (chain : List (Nat × BlockKind))
    (c : Contents) : Prop where
  ok : t.Ok
  cached : t.cached slot = c
  lines : ∀ k, t.lineOf k = w.lineOf k
  queue : t.store.queue = w.store.queue
  entry : t.directory.get slot = some ⟨place.status, place.segment, chain, false⟩
  others : ∀ k, k ≠ slot → t.directory.get k = w.directory.get k
  segments : t.segments = (w.report none (some place)).segments
  route : t.route = { w.route with scanFailures := t.route.scanFailures, scanCut := t.route.scanCut }
  index : ∀ x, Config.indexBase ≤ x → x < Config.routeBase → t.mem.read x = (w.mem.insertSerial serial slot).read x

section Entering
variable {serial : Word} {place : Place} {chain : List (Nat × BlockKind)}

theorem Put.enroll {p : State} (h : Put w p slot c) (hok : p.Ok) (hs : slot < 8192) (scan : w.route.scanning ≠ none)
    (serial : Word) (place : Place) :
    Entered w (p.enroll slot serial place.status place.segment) slot serial place [] c := by
  obtain ⟨entered, he⟩ : ∃ x, x = (p.withMem (p.mem.insertSerial serial slot)).withDirectory
    (p.directory.set slot ⟨place.status, place.segment, [], false⟩) := ⟨_, rfl⟩
  have enrolled : p.enroll slot serial place.status place.segment = entered.report none (some place) := by
    rw [he]
    rfl
  have route : entered.route = w.route := by rw [he, h.same]; rfl
  have segments : entered.segments = w.segments := by rw [he, h.same]; rfl
  have mem : entered.mem = w.mem.insertSerial serial slot := by rw [he, h.same]; rfl
  have wf : w.mem.wf = true := by
    have wf := hok.mem
    rw [h.same] at wf
    exact wf
  refine ⟨hok.enroll hs serial place.status place.segment, ?_, fun k => ?_, ?_, ?_, fun k hk => ?_, ?_, ?_,
    fun x _ hx => ?_⟩ <;> rw [enrolled]
  · rw [← h.cached]
    exact State.cached_congr (by simp [he]) slot
  · rw [← h.lines k]
    exact State.lineOf_congr (by simp [he]) k
  · rw [(State.report_frame _ _ _).1, he, h.same]
    rfl
  · simp [he]
  · rw [(State.report_frame _ _ _).2.1, he, State.withDirectory_directory, Directory.get_set hok.directory.rising,
      if_neg hk, h.same]
  · exact State.report_segments_congr scan (route ▸ scan) segments none (some place)
  · rw [(State.report_frame _ _ _).2.2.2.2.1, route]
  · rw [← mem]
    exact (Told.report entered none (some place)).mem.reads (by rw [mem]; exact Memory.wf_insertSerial wf serial slot) x hx

/-- What leaves the lines' places, the queue, the directory and the segment unit keeps a record entered. -/
theorem Entered.of_frame (h : Entered w s slot serial place chain c) (ok : t.Ok) (hc : t.cached slot = c)
    (hl : ∀ k, t.lineOf k = s.lineOf k) (hq : t.store.queue = s.store.queue) (hd : t.directory = s.directory)
    (hs : t.segments = s.segments)
    (hr : t.route = { s.route with scanFailures := t.route.scanFailures, scanCut := t.route.scanCut })
    (hm : ∀ x, Config.indexBase ≤ x → x < Config.routeBase → t.mem.read x = s.mem.read x) :
    Entered w t slot serial place chain c where
  ok := ok
  cached := hc
  lines k := (hl k).trans (h.lines k)
  queue := hq.trans h.queue
  entry := hd ▸ h.entry
  others k hk := hd ▸ h.others k hk
  segments := hs.trans h.segments
  route := by rw [hr, h.route]
  index x h1 h2 := (hm x h1 h2).trans (h.index x h1 h2)

theorem State.letGo_lineOf (slot k : Nat) (s : State) : (s.letGo slot).lineOf k = s.lineOf k := by
  unfold State.letGo
  split
  next i _ => exact State.lineOf_set_same (s := s) (i := i) (l := ⟨(s.line i).body, none⟩) rfl rfl k
  · rfl

theorem Entered.letGo (h : Entered w s slot serial place chain c) (k : Nat) :
    Entered w (s.letGo k) slot serial place chain c :=
  h.of_frame (h.ok.letGo k) (by rw [State.letGo_cached, h.cached]) (fun j => State.letGo_lineOf k j s) (by simp)
    (by simp) (by simp) (by simp) (by simp)

theorem Entered.withRoute (h : Entered w s slot serial place chain c) (failures cut : Half) :
    Entered w (s.withRoute { s.route with scanFailures := failures, scanCut := cut }) slot serial place chain c :=
  h.of_frame (h.ok.withRoute _) h.cached (fun _ => rfl) rfl rfl rfl rfl (fun _ _ _ => rfl)

theorem Entered.setChain (h : Entered w s slot serial place chain c) {chain' : List (Nat × BlockKind)}
    (hc : ∀ b ∈ chain', b.1 < 4096) : Entered w (s.setChain slot chain') slot serial place chain' c where
  ok := h.ok.setChain slot hc
  cached := by rw [← h.cached]; exact State.cached_congr (by simp) slot
  lines k := (State.lineOf_congr (by simp) k).trans (h.lines k)
  queue := by simpa using h.queue
  entry := by rw [State.setChain_directory h.entry, Directory.get_set_self]
  others k hk := by
    rw [State.setChain_directory h.entry, Directory.get_set h.ok.directory.rising, if_neg hk]
    exact h.others k hk
  segments := by simpa using h.segments
  route := by simpa using h.route
  index := by simpa using h.index

/-- The segment of a record entered counts it. -/
theorem Entered.counted (h : Entered w t slot serial place chain c) (n : Seg) (hn : place.segment = some n) :
    (t.segment n).members ≠ 0 ∧ (t.segment n).count (some place.status.cls) ≠ 0 := by
  have count : ∀ k, (t.segment n).count k = ((w.report none (some place)).segment n).count k := fun k => by
    unfold State.segment
    rw [h.segments]
  have one : ∀ k, (k = none ∨ k = some place.status.cls) → weight (some place) n k = 1 := by
    rintro k (rfl | rfl) <;> simp [weight, Place.counts, hn]
  have members := count none
  have cls := count (some place.status.cls)
  rw [State.report_counts, one none (.inl rfl)] at members
  rw [State.report_counts, one _ (.inr rfl)] at cls
  exact ⟨by show (t.segment n).count none ≠ 0; omega, by omega⟩

/-- A record entered put again in its place. -/
theorem Entered.putRecord {r r' : Record} (h : Entered w s slot serial ⟨r.segment, .live r.status⟩ chain c)
    (held : ∃ i, w.lineOf slot = some i) (hs : r'.status = r.status) (hn : r'.segment = r.segment)
    (hb : r'.batch = none) :
    Entered w (s.putRecord slot r') slot serial ⟨r.segment, .live r.status⟩ chain (.live r') := by
  obtain ⟨i, held⟩ := held
  have line : s.lineOf slot = some i := (h.lines slot).trans held
  have filed := State.putRecord_filed h.entry r'
  have entry : (⟨.live r'.status, r'.segment, chain, r'.batch.isSome⟩ : DirEntry) =
      ⟨.live r.status, r.segment, chain, false⟩ := by rw [hs, hn, hb]; rfl
  have back : Alike s (s.putRecord slot r') := by
    have same := State.report_same h.counted
    have alike := filed.alike
    rw [hs, hn] at alike
    exact ⟨alike.segments.trans same.segments, alike.route.trans same.route, alike.events.trans same.events⟩
  refine ⟨h.ok.putRecord slot r', (State.putRecord_line r' line).2, fun k => ?_, ?_, ?_, fun k hk => ?_, ?_, ?_,
    fun x h1 h2 => ?_⟩
  · rw [← h.lines k, ← (Put.putContents line (.live r')).lines k]
    exact State.lineOf_congr (by simp [State.putRecord]) k
  · simpa using h.queue
  · exact filed.get.trans (congrArg some entry)
  · exact (filed.get_ne h.ok hk).trans (h.others k hk)
  · exact back.segments.trans h.segments
  · rw [back.route]
    exact h.route
  · exact (filed.mem.reads h.ok.mem x h2).trans (h.index x h1 h2)

end Entering

end Sys2Proof.Machine
end

