-- ==== Sys2Proof/Proofs/ScanChain.lean ====
section
/-! PROOF. The chain of a record that the RECOVERY scan keeps, rebuilt from its links in memory (R10, R19, R143). -/

namespace Sys2Proof.Machine

variable {a s t w : State} {slot : Nat} {c : Contents}

/-! ### Blocks marked in use (R38) -/

/-- Blocks marked one after another join the blocks in use, and nothing else changes. -/
theorem State.useBlocks_spec (l : List (Nat × BlockKind)) (s : State) :
    ∃ used, l.foldl (fun s b => s.useBlock b.1) s = s.withStore { s.store with usedBlocks := used } ∧
      ∀ k, k ∈ used ↔ k ∈ s.store.usedBlocks ∨ ∃ b ∈ l, b.1 = k := by
  induction l generalizing s with
  | nil => exact ⟨s.store.usedBlocks, rfl, by simp⟩
  | cons b l ih =>
    obtain ⟨used, run, mem⟩ := ih (s.useBlock b.1)
    refine ⟨used, run, fun k => ?_⟩
    have marked : k ∈ (s.useBlock b.1).store.usedBlocks ↔ k = b.1 ∨ k ∈ s.store.usedBlocks := mem_insertRising
    rw [mem, marked, List.exists_mem_cons_iff, or_comm (a := k = b.1), or_assoc, eq_comm (a := k)]

theorem State.freeChain_nil (s : State) : s.freeChain [] = s := by
  have all : s.store.usedBlocks.filter (fun n => !([] : List (Nat × BlockKind)).any fun b => b.1 == n) =
      s.store.usedBlocks := List.filter_eq_self.2 fun _ _ => rfl
  unfold State.freeChain
  rw [all]
  rfl

/-! ### A block's link rewritten (R19) -/

/-- A link rewritten leaves all that lies past the extension area. -/
theorem Memory.read_relinkBlock {m : Memory} (hm : m.wf = true) {n : Nat} (hn : n < 4096) (next : Half) {x : Nat}
    (hx : Config.indexBase ≤ x) : (m.relinkBlock n next).read x = m.read x := by
  have length : (withCheck ((List.take 1 (m.blockBytes n) ++ halfBytes next ++ List.drop 3 (m.blockBytes n)).take
      31)).length ≤ 32 := by
    simp only [withCheck, List.length_append, List.length_take, List.length_singleton]
    omega
  have apart : blockAddress n + 32 ≤ x := by
    simp only [blockAddress, Config.extensionBase, Config.indexBase] at hx ⊢
    omega
  unfold Memory.relinkBlock
  dsimp only
  rw [Memory.read_writeBytes hm, if_neg (by omega)]

section Entering
variable {serial : Word} {place : Place} {chain : List (Nat × BlockKind)}

theorem Entered.useBlocks (h : Entered w s slot serial place chain c) {l : List (Nat × BlockKind)}
    (hl : ∀ b ∈ l, b.1 < 4096) : Entered w (l.foldl (fun s b => s.useBlock b.1) s) slot serial place chain c := by
  have ok := h.ok.useBlocks l hl
  obtain ⟨used, run, -⟩ := State.useBlocks_spec l s
  rw [run] at ok ⊢
  exact h.of_frame ok h.cached (fun _ => rfl) rfl rfl rfl rfl (fun _ _ _ => rfl)

theorem Entered.withMem (h : Entered w s slot serial place chain c) {m : Memory} (hm : m.wf = true)
    (hr : ∀ x, Config.indexBase ≤ x → m.read x = s.mem.read x) :
    Entered w (s.withMem m) slot serial place chain c :=
  h.of_frame (h.ok.withMem hm) h.cached (fun _ => rfl) rfl rfl rfl rfl fun x hx _ => hr x hx

theorem Entered.relink (h : Entered w s slot serial place chain c) {n : Nat} (hn : n < 4096) (next : Half) :
    Entered w (s.relink .scan n next) slot serial place chain c := by
  have run : s.relink .scan n next = s.withMem (s.mem.relinkBlock n next) := rfl
  rw [run]
  exact h.withMem (Memory.wf_relinkBlock h.ok.mem n next) fun _ hx => Memory.read_relinkBlock h.ok.mem hn next hx

/-- A chain that ended on a bad block ends with its last good one, and the record shows the loss (R19). -/
theorem Entered.cutChain {r : Record} (h : Entered w s slot serial ⟨r.segment, .live r.status⟩ chain c)
    (held : ∃ i, w.lineOf slot = some i) (hb : r.batch = none) (hc : ∀ b ∈ chain, b.1 < 4096) :
    Entered w (s.cutChain .scan slot r chain.length) slot serial ⟨r.segment, .live r.status⟩ chain
      (.live { r with firstBlock := headOf chain, marks := { r.marks with extensionLost := true } }) ∧
    (s.cutChain .scan slot r chain.length).store.usedBlocks = s.store.usedBlocks ∧
    (s.cutChain .scan slot r chain.length).route = s.route := by
  unfold State.cutChain
  dsimp only
  rw [State.chain_of_get h.entry, List.drop_length, List.take_length, State.freeChain_nil]
  have chained := h.setChain hc
  split
  next b hlast =>
    have block := hc b (List.mem_of_getLast? hlast)
    exact ⟨(chained.relink block endMarker).putRecord held rfl rfl hb, by simp [State.relink, State.grant],
      by simp [State.relink, State.grant]⟩
  · exact ⟨chained.putRecord held rfl rfl hb, by simp, by simp⟩

/-- The chain rebuilt as far as it is good (R19, R143). -/
theorem Entered.recoverChain {r : Record} (h : Entered w s slot serial ⟨r.segment, .live r.status⟩ [] (.live r))
    (held : ∃ i, w.lineOf slot = some i) (hb : r.batch = none) {walk : ChainWalk}
    (hw : s.mem.walkChain 4 s.store.usedBlocks r.firstBlock true 0 = walk) :
    Entered w (s.recoverChain slot r) slot serial ⟨r.segment, .live r.status⟩ walk.blocks (.live (if walk.cut then
      { r with firstBlock := headOf walk.blocks, marks := { r.marks with extensionLost := true } } else r)) ∧
    (∀ k, k ∈ (s.recoverChain slot r).store.usedBlocks ↔ k ∈ s.store.usedBlocks ∨ ∃ b ∈ walk.blocks, b.1 = k) ∧
    (s.recoverChain slot r).route.scanCut =
      if walk.cut then satInc s.route.scanCut else s.route.scanCut := by
  have blocks : ∀ b ∈ walk.blocks, b.1 < 4096 := by
    rw [← hw]
    exact Memory.walkChain_lt _ _ _ _ _ _
  have marked := (h.useBlocks blocks).setChain blocks
  obtain ⟨used, run, mem⟩ := State.useBlocks_spec walk.blocks s
  have usedBlocks : ((walk.blocks.foldl (fun s b => s.useBlock b.1) s).setChain slot walk.blocks).store.usedBlocks =
      used := by rw [run]; simp
  have route : ((walk.blocks.foldl (fun s b => s.useBlock b.1) s).setChain slot walk.blocks).route = s.route := by
    rw [run]; simp
  unfold State.recoverChain
  dsimp only
  rw [hw]
  generalize (walk.blocks.foldl (fun s b => s.useBlock b.1) s).setChain slot walk.blocks = x at marked usedBlocks route ⊢
  split
  · obtain ⟨cut, cutBlocks, cutRoute⟩ := marked.cutChain held hb blocks
    refine ⟨cut.withRoute _ _, fun k => ?_, ?_⟩
    · show k ∈ (x.cutChain .scan slot r walk.blocks.length).store.usedBlocks ↔ _
      rw [cutBlocks, usedBlocks, mem]
    · show satInc (x.cutChain .scan slot r walk.blocks.length).route.scanCut = _
      rw [cutRoute, route]
  · exact ⟨marked, fun k => by rw [usedBlocks, mem], by rw [route]⟩

end Entering

end Sys2Proof.Machine
end

