-- ==== Sys2Proof/Proofs/ScanKeep.lean ====
section
/-! PROOF. What the RECOVERY scan makes of a record that it keeps: one whose check holds as it stands, one whose check
fails as FAULT (R143). -/

namespace Sys2Proof.Machine

variable {s t w : State} {slot : Nat} {y : Scan}

/-! ### What a chain walk depends on (R10) -/

/-- Two memories with the blocks' bytes alike have every chain alike. -/
theorem Memory.walkChain_congr {m m' : Memory} (h : ∀ n, n < 4096 → m'.blockBytes n = m.blockBytes n) (fuel : Nat)
    (claimed : List Nat) (number : Half) (first : Bool) (intervals : Nat) :
    m'.walkChain fuel claimed number first intervals = m.walkChain fuel claimed number first intervals := by
  induction fuel generalizing claimed number first intervals with
  | zero => rfl
  | succ fuel ih =>
    unfold Memory.walkChain
    by_cases far : Config.blocks ≤ number.toNat ∨ number.toNat ∈ claimed
    · simp only [if_pos far]
    · have near : number.toNat < 4096 := by simp only [Config.blocks] at far; omega
      simp only [h number.toNat near, ih]

theorem Memory.blockBytes_of_reads {m m' : Memory}
    (h : ∀ x, Config.extensionBase ≤ x → x < Config.indexBase → m'.read x = m.read x) {n : Nat} (hn : n < 4096) :
    m'.blockBytes n = m.blockBytes n :=
  Memory.blockBytes_congr fun x h1 h2 => by
    unfold blockAddress at h1 h2
    refine h x (by omega) ?_
    simp only [Config.extensionBase, Config.indexBase] at h2 ⊢
    omega

/-- A record's entry into the index and the counters leaves the blocks' bytes. -/
theorem State.enroll_blockBytes (hm : s.mem.wf = true) (serial : Word) (status : Status) (segment : Option Seg) {n : Nat}
    (hn : n < 4096) : (s.enroll slot serial status segment).mem.blockBytes n = s.mem.blockBytes n := by
  obtain ⟨v, hv⟩ : ∃ v, v = (s.withMem (s.mem.insertSerial serial slot)).withDirectory
    (s.directory.set slot ⟨status, segment, [], false⟩) := ⟨_, rfl⟩
  have enrolled : s.enroll slot serial status segment = v.report none (some ⟨segment, status⟩) := by rw [hv]; rfl
  have mem : v.mem = s.mem.insertSerial serial slot := by rw [hv]; rfl
  rw [enrolled]
  refine Memory.blockBytes_of_reads (fun x _ hx => ?_) hn
  have below : x < Config.routeBase := Nat.lt_trans hx (by decide)
  rw [(Told.report v none (some ⟨segment, status⟩)).mem.reads (by rw [mem]; exact Memory.wf_insertSerial hm serial slot)
    x below, mem, Memory.insertSerial_below hm serial slot hx]

theorem State.enroll_frame (serial : Word) (status : Status) (segment : Option Seg) (s : State) :
    (s.enroll slot serial status segment).store = s.store ∧ (s.enroll slot serial status segment).route = s.route := by
  unfold State.enroll
  simp

/-! ### A record kept (R143) -/

/-- R143's changes leave a record's serial and its link, and take out its batch number. -/
theorem State.recovered_fields (r : Record) (s : State) : (s.recovered r).serial = r.serial ∧
    (s.recovered r).firstBlock = r.firstBlock ∧ (s.recovered r).batch = none := by
  unfold State.recovered
  dsimp only
  split
  · split
    · exact ⟨rfl, rfl, rfl⟩
    · unfold Record.flagUnconfirmed Record.commit
      split <;> exact ⟨rfl, rfl, rfl⟩
    · exact ⟨rfl, rfl, rfl⟩
  · exact ⟨rfl, rfl, rfl⟩

theorem State.raise_own (s : State) (e : Event) : (s.raise e).events.pending.getLsbD e.bit = true := by
  show (s.events.pending ||| e.mask).getLsbD e.bit = true
  rw [BitVec.getLsbD_or, Bool.or_eq_true]
  exact .inr (by cases e <;> rfl)

theorem Entered.raise {serial : Word} {place : Place} {chain : List (Nat × BlockKind)} {c : Contents}
    (h : Entered w s slot serial place chain c) (e : Event) : Entered w (s.raise e) slot serial place chain c :=
  h.of_frame (h.ok.raise e) h.cached (fun _ => rfl) rfl rfl rfl rfl (fun _ _ _ => rfl)

section Keeping
variable (hok : y.state.Ok) (hs : slot < 8192) (scan : y.state.route.scanning ≠ none)
  (held : ∃ i, y.state.lineOf slot = some i)
include hok hs scan held

/-- A FAULT record stands, with the segment that the scan gives it. -/
theorem Scan.keep_fault {serial : Word} {named : Option Seg} (hc : y.state.cached slot = .fault serial named) :
    Entered y.state (y.keep slot (.fault serial named)).state slot serial ⟨y.state.faultSegment named, .fault⟩ []
      (.fault serial (y.state.faultSegment named)) ∧
    (y.keep slot (.fault serial named)).failed = y.failed ∧ (y.keep slot (.fault serial named)).flagged = y.flagged := by
  obtain ⟨i, hi⟩ := held
  have put := Put.of_change (p := y.state.faultSegment named = named) (c := .fault serial (y.state.faultSegment named)) hi
    fun same => by rw [hc, same]
  exact ⟨put.enroll (State.ok_ite hok (hok.putContents _ _)) hs scan serial ⟨y.state.faultSegment named, .fault⟩, rfl, rfl⟩

/-- A live record stands with R143's changes, its chain as far as it is good. -/
theorem Scan.keep_live {r : Record} (hc : y.state.cached slot = .live r) {r' : Record} (hr : y.state.recovered r = r')
    {walk : ChainWalk} (hw : y.state.mem.walkChain 4 y.state.store.usedBlocks r.firstBlock true 0 = walk) :
    Entered y.state (y.keep slot (.live r)).state slot r.serial ⟨r'.segment, .live r'.status⟩ walk.blocks
      (.live (if walk.cut then { r' with
        firstBlock := headOf walk.blocks, marks := { r'.marks with extensionLost := true } } else r')) ∧
    (∀ k, k ∈ (y.keep slot (.live r)).state.store.usedBlocks ↔
      k ∈ y.state.store.usedBlocks ∨ ∃ b ∈ walk.blocks, b.1 = k) ∧
    (y.keep slot (.live r)).state.route.scanCut =
      (if walk.cut then satInc y.state.route.scanCut else y.state.route.scanCut) ∧
    (y.keep slot (.live r)).failed = y.failed ∧
    (y.keep slot (.live r)).flagged = if r'.status = .flagged ∧ !r'.marks.acknowledged
      then insertRanked (r'.tamperEntry slot) y.flagged else y.flagged := by
  obtain ⟨i, hi⟩ := held
  obtain ⟨serial, link, batch⟩ := State.recovered_fields r y.state
  rw [hr] at serial link batch
  obtain ⟨p, hp⟩ : ∃ p, p = if r' = r then y.state else y.state.putContents slot (.live r') := ⟨_, rfl⟩
  have put : Put y.state p slot (.live r') := by
    rw [hp]
    exact Put.of_change hi fun same => by rw [hc, same]
  have ok : p.Ok := by
    rw [hp]
    exact State.ok_ite hok (hok.putContents _ _)
  obtain ⟨store, route⟩ := State.enroll_frame (slot := slot) r'.serial (.live r'.status) r'.segment p
  have usedBlocks : p.store.usedBlocks = y.state.store.usedBlocks := by rw [put.same]
  have entered := put.enroll ok hs scan r'.serial ⟨r'.segment, .live r'.status⟩
  have chain : (p.enroll slot r'.serial (.live r'.status) r'.segment).mem.walkChain 4
      (p.enroll slot r'.serial (.live r'.status) r'.segment).store.usedBlocks r'.firstBlock true 0 = walk := by
    rw [store, usedBlocks, link, ← hw]
    refine Memory.walkChain_congr (fun n hn => ?_) _ _ _ _ _
    rw [State.enroll_blockBytes ok.mem _ _ _ hn, put.same]
  obtain ⟨rebuilt, used, cut⟩ := entered.recoverChain ⟨i, hi⟩ batch chain
  have kept : y.keep slot (.live r) = {
      state := (p.enroll slot r'.serial (.live r'.status) r'.segment).recoverChain slot r'
      failed := y.failed
      flagged := if r'.status = .flagged ∧ !r'.marks.acknowledged
        then insertRanked (r'.tamperEntry slot) y.flagged else y.flagged } := by
    rw [hp, ← hr]
    rfl
  rw [kept, ← serial]
  refine ⟨rebuilt, fun k => ?_, ?_, rfl, rfl⟩
  · rw [used, store, usedBlocks]
  · rw [cut, route, put.same]

/-- A record whose check fails becomes FAULT, and its event is raised. -/
theorem Scan.fail_spec (bytes : List Byte) {segment : Option Seg}
    (hg : y.state.faultSegment (segOfParam (byteAt bytes 6)) = segment) :
    Entered y.state (y.fail slot bytes).state slot (wordAt bytes 0) ⟨segment, .fault⟩ []
      (.fault (wordAt bytes 0) segment) ∧
    (y.fail slot bytes).state.events.pending.getLsbD 4 = true ∧
    (y.fail slot bytes).state.route.scanFailures = satInc y.state.route.scanFailures ∧
    (y.fail slot bytes).failed = slot :: y.failed ∧ (y.fail slot bytes).flagged = y.flagged := by
  obtain ⟨i, hi⟩ := held
  obtain ⟨v, hv⟩ : ∃ v, v = (y.state.putContents slot (.fault (wordAt bytes 0) segment)).enroll slot
    (wordAt bytes 0) .fault segment := ⟨_, rfl⟩
  have entered : Entered y.state v slot (wordAt bytes 0) ⟨segment, .fault⟩ [] (.fault (wordAt bytes 0) segment) := by
    rw [hv]
    exact (Put.putContents hi _).enroll (hok.putContents _ _) hs scan (wordAt bytes 0) ⟨segment, .fault⟩
  have route : v.route = y.state.route := by
    rw [hv, (State.enroll_frame _ _ _ _).2]
    simp
  have failed : y.fail slot bytes = { y with
      state := v.countFailure.raise .recordFault, failed := slot :: y.failed } := by
    rw [hv, ← hg]
    rfl
  rw [failed]
  refine ⟨(entered.withRoute (satInc v.route.scanFailures) v.route.scanCut).raise .recordFault,
    State.raise_own _ .recordFault, ?_, rfl, rfl⟩
  show satInc v.route.scanFailures = _
  rw [route]

end Keeping

end Sys2Proof.Machine
end

