-- ==== Sys2Proof/Proofs/ScanSwap.lean ====
section
/-! PROOF. Two slots of one serial: the earlier one of a swap, dismissed, and what the slot that takes its place is
settled from (R143). -/

namespace Sys2Proof.Machine

variable {s t w : State} {slot earlier : Nat} {serial : Word} {m : Memory}

/-! ### Room in the index (R27) -/

/-- The closing of a gap moves the EMPTY entry on, and keeps one. -/
theorem Memory.room_closeGap {fuel hole n : Nat} (hm : m.wf = true) (hh : hole < 16384) (hn : n < 16384)
    (hz : m.entrySerial hole = 0) : ∃ e, e < 16384 ∧ (m.closeGap fuel hole n).entrySerial e = 0 := by
  induction fuel generalizing m hole n with
  | zero => exact ⟨hole, hh, hz⟩
  | succ fuel ih =>
    unfold Memory.closeGap
    split
    · exact ⟨hole, hh, hz⟩
    · split
      · have wf := Memory.wf_writeEntry hm hole (m.entrySerial n) (m.entrySlot n)
        exact ih (Memory.wf_writeEntry wf n 0 0) hn (nextEntry_lt n)
          (by rw [(Memory.entry_writeEntry wf n n 0 0).1, if_pos rfl])
      · exact ih hm hh (nextEntry_lt n) hz

/-- A deletion leaves the index room where it had some. -/
theorem Memory.room_deleteSerial (hm : m.wf = true) (serial : Word) (room : ∃ e, e < 16384 ∧ m.entrySerial e = 0) :
    ∃ e, e < 16384 ∧ (m.deleteSerial serial).entrySerial e = 0 := by
  unfold Memory.deleteSerial
  cases hf : m.findEntry serial Config.indexEntries (homeBucket serial) with
  | none => exact room
  | some n =>
    obtain ⟨d, -, hk, -⟩ := (Memory.findEntry_eq_some (homeBucket_lt serial)).1 hf
    have hn : n < 16384 := hk ▸ Nat.mod_lt _ (by decide)
    exact Memory.room_closeGap (Memory.wf_writeEntry hm n 0 0) hn (nextEntry_lt n)
      (by rw [(Memory.entry_writeEntry hm n n 0 0).1, if_pos rfl])

/-! ### The line of another slot dropped -/

theorem Directory.get_free_self {d : Directory} (h : Rising (d.map (·.1))) (n : Nat) : (d.free n).get n = none := by
  rw [← Option.not_isSome_iff_eq_none, Directory.get_isSome (Directory.rising_free h n), Directory.mem_free]
  exact fun listed => listed.1 rfl

theorem State.Ok.lineOf_of_body (h : s.Ok) {i : Fin 8} {b : Cached} (hb : (s.line i).body = some b) :
    s.lineOf b.slot = some i := by
  cases hl : s.lineOf b.slot with
  | none => exact absurd rfl (State.lineOf_none hl i b hb)
  | some k =>
    obtain ⟨c, hc, hs⟩ := State.lineOf_some hl
    rw [h.store.lines k i c b hc hb hs]

/-- A slot's line stays where it is when another slot's line is dropped. -/
theorem State.Ok.dropLine_other (h : s.Ok) (hne : slot ≠ earlier) {i : Fin 8} (hi : s.lineOf slot = some i) :
    (s.dropLine earlier).lineOf slot = some i ∧ (s.dropLine earlier).cached slot = s.cached slot := by
  obtain ⟨b, hb, rfl⟩ := State.lineOf_some hi
  have body : ((s.dropLine earlier).line i).body = some b := by
    unfold State.dropLine
    split
    next k hk =>
      rw [State.line_set (s := s) (i := k) (l := ⟨none, none⟩) rfl]
      split
      next same =>
        obtain ⟨c, hc, hs⟩ := State.lineOf_some hk
        rw [← same, hb] at hc
        cases hc
        exact absurd hs hne
      · exact hb
    · exact hb
  have line := (h.dropLine earlier).lineOf_of_body body
  exact ⟨line, by rw [State.cached_of_line line body, State.cached_of_line hi hb]⟩

/-- A slot discarded leaves another slot's line as it was. -/
theorem State.Ok.discard_other (h : s.Ok) (hne : slot ≠ earlier) {i : Fin 8} (hi : s.lineOf slot = some i) :
    (s.discard earlier).lineOf slot = some i ∧ (s.discard earlier).cached slot = s.cached slot := by
  obtain ⟨line, cached⟩ := h.dropLine_other hne hi
  have lines : (s.discard earlier).store.lines = (s.dropLine earlier).store.lines := State.enqueue_lines _ _
  exact ⟨(State.lineOf_congr lines slot).trans line, (State.cached_congr lines slot).trans cached⟩

/-! ### The earlier slot dismissed (R143) -/

/-- What a record of `slot` is settled from: of the state `s` in which the scan has read it, all that R143 looks at. -/
structure Settling (s w : State) (slot : Nat) : Prop where
  ok : w.Ok
  line : ∃ i, w.lineOf slot = some i
  cached : w.cached slot = s.cached slot
  route : w.route = { s.route with
    scanOccupied := satInc s.route.scanOccupied, scanDiscarded := w.route.scanDiscarded }
  recounted : Recounted s w
  usedBlocks : w.store.usedBlocks = s.store.usedBlocks
  blocks : ∀ n, n < 4096 → w.mem.blockBytes n = s.mem.blockBytes n

theorem Settling.counted (h : s.Ok) (line : ∃ i, s.lineOf slot = some i) : Settling s s.countOccupied slot where
  ok := h.withRoute _
  line := line
  cached := rfl
  route := rfl
  recounted := .of_segments rfl
  usedBlocks := rfl
  blocks _ _ := rfl

/-- What the dismissal of an earlier slot makes. -/
structure Dismissed (s w : State) (slot earlier : Nat) (serial : Word) : Prop where
  settling : Settling s w slot
  discarded : w.route.scanDiscarded = satInc s.route.scanDiscarded
  queued : w.queued earlier = some .free
  line : w.lineOf earlier = none
  directory : w.directory.get earlier = none
  segments : w.segments = (s.report (s.place earlier) none).segments
  index : ∀ x, Config.indexBase ≤ x → x < Config.routeBase → w.mem.read x = (s.mem.deleteSerial serial).read x

/-- An image queued is written, or writes another, in the record area. -/
theorem State.enqueue_reads (hm : s.mem.wf = true) (hq : ∀ q ∈ s.store.queue, q.slot < 8192) {q : Queued}
    (h : q.slot < 8192) {x : Nat} (hx : Config.extensionBase ≤ x) : (s.enqueue q).mem.read x = s.mem.read x := by
  obtain ⟨written, spilled⟩ := Spilled.enqueue (x + 1) q s
  rw [spilled.reads hm x (Nat.lt_succ_self x)]
  refine Memory.writeQueued_past hm (fun p hp => ?_) hx
  rcases spilled.mem_written hp with old | new
  · exact hq p old
  · rw [List.mem_singleton.1 new]
    exact h

theorem Scan.dismissed {x : Scan} (h : s.Ok) (hx : x.state = s.countOccupied) (scan : s.route.scanning ≠ none)
    (line : ∃ i, s.lineOf slot = some i) (hq : ∀ q ∈ s.store.queue, q.slot < 8192) (he : earlier < slot)
    (hs : slot < 8192) (serial : Word) : Dismissed s (x.dismiss earlier serial).state slot earlier serial := by
  obtain ⟨v, hv⟩ : ∃ v, v = (s.countOccupied.withMem (s.mem.deleteSerial serial)).withDirectory
    (s.directory.free earlier) := ⟨_, rfl⟩
  obtain ⟨u, hu⟩ : ∃ u, u = v.report (s.place earlier) none := ⟨_, rfl⟩
  have run : (x.dismiss earlier serial).state = u.discard earlier := by
    rw [hu, hv]
    unfold Scan.dismiss
    rw [hx]
    rfl
  have vok : v.Ok := by
    rw [hv]
    exact ((h.withRoute _).withMem (Memory.wf_deleteSerial h.mem serial)).withDirectory (h.directory.free earlier)
  have uok : u.Ok := hu ▸ vok.report _ _
  have told := hu ▸ Told.report v (s.place earlier) none
  have vmem : v.mem = s.mem.deleteSerial serial := by rw [hv]; rfl
  have uroute : u.route = s.countOccupied.route := by rw [told.same, hv]; rfl
  have ustore : u.store = s.store := by rw [told.same, hv]; rfl
  have udirectory : u.directory = s.directory.free earlier := by rw [told.same, hv]; rfl
  have usegments : u.segments = (s.report (s.place earlier) none).segments := by
    rw [hu]
    exact State.report_segments_congr scan (by rw [hv]; exact scan) (by rw [hv]; rfl) _ _
  have ureads : ∀ x, x < Config.routeBase → u.mem.read x = (s.mem.deleteSerial serial).read x := fun x hx => by
    rw [← vmem]
    exact told.mem.reads vok.mem x hx
  have reads : ∀ x, Config.extensionBase ≤ x → x < Config.routeBase →
      (u.discard earlier).mem.read x = (s.mem.deleteSerial serial).read x := fun x h1 h2 => by
    rw [← ureads x h2]
    have queued := State.enqueue_reads (s := u.dropLine earlier) (q := ⟨earlier, .free⟩) (x := x)
      (by simpa using uok.mem) (by simpa [ustore] using hq) (Nat.lt_trans he hs) h1
    simpa [State.discard] using queued
  have gone := uok.discarded earlier
  have recounted : Recounted s (u.discard earlier) := by
    refine Recounted.trans ?_ (.of_segments gone.segments)
    exact (Recounted.report scan (s.place earlier) none).trans (.of_segments usegments)
  obtain ⟨i, hi⟩ := line
  have ulines : u.store.lines = s.store.lines := by rw [ustore]
  obtain ⟨held, cached⟩ := uok.discard_other (Nat.ne_of_gt he) ((State.lineOf_congr ulines slot).trans hi)
  rw [run]
  refine ⟨⟨uok.discard earlier, ⟨i, held⟩, cached.trans (State.cached_congr ulines slot), ?_, recounted, ?_,
    fun n hn => ?_⟩, ?_, gone.queued, gone.line, ?_, gone.segments.trans usegments, fun x h1 h2 => ?_⟩
  · rw [gone.route, uroute]
    rfl
  · simp [State.discard, ustore]
  · refine Memory.blockBytes_of_reads (fun x h1 h2 => ?_) hn
    rw [reads x h1 (Nat.lt_trans h2 (by decide))]
    exact Memory.deleteSerial_sameBut h.mem serial x (.inl h2)
  · rw [gone.route, uroute]
    rfl
  · rw [gone.directory, udirectory]
    exact Directory.get_free_self h.directory.rising earlier
  · exact reads x (Nat.le_trans (by decide) h1) h2

end Sys2Proof.Machine
end

