-- ==== Sys2Proof/Proofs/ScanSlot.lean ====
section
/-! PROOF. What becomes of each slot in the RECOVERY scan (R143): the cases of the treatment, and what each leaves. -/

namespace Sys2Proof.Machine

variable {s t w : State} {slot earlier : Nat} {x z : Scan} {read : SlotRead}

/-! ### What a record is settled from -/

/-- The record that R143 settles from one read, with the changes named one by one. -/
theorem State.recovered_eq (r : Record) (s : State) : s.recovered r =
    let placed := { r with
      batch := none, segment := if s.route.state = .loading then none else s.windowOf r.sequence }
    if s.route.state ≠ .closed then placed
    else if r.status = .pending then { placed with status := .missed }
    else if r.status = .held then { placed with
      status := .flagged, flagTime := some s.route.clock
      current := if r.candidate.isSome then r.candidate else r.current, candidate := none
      marks := { r.marks with unconfirmed := true } }
    else placed := by
  unfold State.recovered
  simp only [Record.flagUnconfirmed_eq]
  by_cases closed : s.route.state = .closed
  · cases r.status <;> simp [closed]
  · simp [closed]

theorem State.faultSegment_eq (named : Option Seg) (s : State) : s.faultSegment named =
    if s.route.state = .loading then none else named.filter fun n => (s.segment n).enabled := by
  unfold State.faultSegment
  split
  · rfl
  · cases named with
    | none => rfl
    | some n => simp [Option.filter]

namespace Settling

variable (h : Settling s w slot)
include h

theorem routeState : w.route.state = s.route.state := by rw [h.route]

theorem faultSegment (named : Option Seg) : w.faultSegment named = s.faultSegment named := by
  rw [State.faultSegment_eq, State.faultSegment_eq, h.routeState]
  simp only [h.recounted.enabled]

theorem recovered (r : Record) : w.recovered r = s.recovered r := by
  have clock : w.route.clock = s.route.clock := by rw [h.route]
  rw [State.recovered_eq, State.recovered_eq, h.routeState, clock, h.recounted.windowOf]

theorem walkChain (link : Half) : w.mem.walkChain 4 w.store.usedBlocks link true 0 =
    s.mem.walkChain 4 s.store.usedBlocks link true 0 := by
  rw [h.usedBlocks]
  exact Memory.walkChain_congr h.blocks _ _ _ _ _

end Settling

/-! ### The cases of R143 -/

/-- The serial that a slot shows. -/
def SlotRead.serial (read : SlotRead) : Word := wordAt read.bytes 0

def SlotRead.Listed (read : SlotRead) : Prop := read.serial ≠ 0 ∧ read.serial ≠ 0xFFFFFFFF

/-- The slot shows a serial that the scan has not met. -/
def SlotRead.New (read : SlotRead) (s : State) : Prop :=
  read.Listed ∧ s.route.state ≠ .empty ∧ s.mem.lookup read.serial = none

/-- The slot shows the serial of an earlier one that failed its check, and holds: they change places. -/
def SlotRead.Swapped (read : SlotRead) (s : State) (failed : List Nat) (earlier : Nat) : Prop :=
  read.Listed ∧ s.route.state ≠ .empty ∧ s.mem.lookup read.serial = some earlier ∧ read.good = true ∧
    earlier ∈ failed ∧ ∀ q ∈ s.store.queue, q.slot < 8192

theorem SlotRead.Listed.occupied (h : read.Listed) :
    ¬(wordAt read.bytes 0 = 0 ∨ wordAt read.bytes 0 = 0xFFFFFFFF) := fun e => e.elim h.1 h.2

/-- The scan has read the slot: what it holds then. -/
structure HasRead (x : Scan) (slot : Nat) (read : SlotRead) (s : State) : Prop where
  run : x.state.scanRead slot = (read, s)
  ok : s.Ok
  line : ∃ i, s.lineOf slot = some i
  cached : read.good = true → read.serial ≠ 0 → s.cached slot = Contents.ofBytes read.bytes
  scanning : s.route.scanning ≠ none
  inArea : slot < 8192
  failed : ∀ k ∈ x.failed, k < slot

theorem Scan.hasRead (h : x.state.Ok) (hs : slot < 8192) (scan : x.state.route.scanning ≠ none)
    (failed : ∀ k ∈ x.failed, k < slot) : HasRead x slot (x.state.scanRead slot).1 (x.state.scanRead slot).2 := by
  obtain ⟨ok, line, cached⟩ := h.scanRead_spec (slot := slot) rfl
  exact ⟨rfl, ok, line, cached, (ScanWork.refl (fun _ => False) x.state |>.scanRead slot).scanning ▸ scan, hs, failed⟩

/-- `z` is the scan as it enters the slot's record: the slot read and counted, and the earlier slot of a swap
dismissed. -/
structure Entering (x z : Scan) (slot : Nat) (read : SlotRead) (s : State) : Prop where
  treated : x.slot slot = (z.enter slot read).released slot
  settling : Settling s z.state slot
  scanning : z.state.route.scanning ≠ none
  flagged : z.flagged = x.flagged
  ofNew : read.New s → z.state.segments = s.segments
  ofSwapped : ∀ earlier, read.Swapped s x.failed earlier →
    z.state.segments = (s.report (s.place earlier) none).segments

namespace HasRead

variable (h : HasRead x slot read s)
include h

theorem counted : (x.counted slot).state = s.countOccupied := by
  unfold Scan.counted
  rw [h.run]

theorem entering_new (new : read.New s) : Entering x (x.counted slot) slot read s := by
  have state := h.counted
  obtain ⟨listed, live, unknown⟩ := new
  refine ⟨Scan.slot_new h.run listed.occupied live unknown, ?_, ?_, rfl, fun _ => ?_, fun e other => ?_⟩
  · rw [state]
    exact .counted h.ok h.line
  · rw [state]
    exact h.scanning
  · rw [state]
    rfl
  · exact nomatch unknown.symm.trans other.2.2.1

theorem dismissed (swapped : read.Swapped s x.failed earlier) :
    Dismissed s ((x.counted slot).dismiss earlier read.serial).state slot earlier read.serial :=
  Scan.dismissed h.ok h.counted h.scanning h.line swapped.2.2.2.2.2 (h.failed _ swapped.2.2.2.2.1) h.inArea _

theorem entering_swapped (swapped : read.Swapped s x.failed earlier) :
    Entering x ((x.counted slot).dismiss earlier read.serial) slot read s := by
  have gone := h.dismissed swapped
  obtain ⟨listed, live, known, good, failed, -⟩ := swapped
  refine ⟨Scan.slot_swapped h.run listed.occupied live known good failed, gone.settling, ?_, rfl, fun new => ?_,
    fun e other => ?_⟩
  · rw [gone.settling.route]
    exact h.scanning
  · exact nomatch new.2.2.symm.trans known
  · cases known.symm.trans other.2.2.1
    exact gone.segments

/-- A record kept, in either case. -/
theorem entering (kept : read.New s ∨ ∃ earlier, read.Swapped s x.failed earlier) : ∃ z, Entering x z slot read s := by
  rcases kept with new | ⟨earlier, swapped⟩
  · exact ⟨_, h.entering_new new⟩
  · exact ⟨_, h.entering_swapped swapped⟩

end HasRead

end Sys2Proof.Machine
end

