-- ==== Sys2Proof/Proofs/ScanOutcomes.lean ====
section
/-! PROOF. What each case of the RECOVERY scan's treatment leaves of the slot (R143), as O60 has it. -/

namespace Sys2Proof.Machine

variable {s t w : State} {slot earlier : Nat} {x z : Scan} {read : SlotRead}

/-! ### A slot discarded -/

/-- The slot's newest copy is the free slot, it is in no line and not in the directory, and it is counted. -/
def State.Discards (s t : State) (k : Nat) : Prop :=
  t.queued k = some .free ∧ t.lineOf k = none ∧ t.directory.get k = none ∧
    t.route.scanDiscarded = satInc s.route.scanDiscarded

theorem State.Ok.discard_letGo (h : s.Ok) (slot : Nat) : (s.discard slot).letGo slot = s.discard slot :=
  State.letGo_of_none (h.discarded slot).line

/-- The scan that discards the slot it has counted. -/
structure Discarding (s t : State) (slot : Nat) : Prop where
  occupied : t.route.scanOccupied = satInc s.route.scanOccupied
  discards : s.directory.get slot = none → State.Discards s t slot
  segments : t.segments = s.segments
  mem : t.mem = (s.discard slot).mem

theorem State.Ok.discarding (h : s.Ok) (ht : t = (s.countOccupied.discard slot).letGo slot) : Discarding s t slot := by
  have ok : s.countOccupied.Ok := h.withRoute _
  rw [ok.discard_letGo] at ht
  subst ht
  have gone := ok.discarded slot
  refine ⟨?_, fun absent => ⟨gone.queued, gone.line, ?_, ?_⟩, gone.segments, ?_⟩
  · rw [gone.route]; rfl
  · rw [gone.directory]; exact absent
  · rw [gone.route]; rfl
  · exact State.discard_mem_congr rfl rfl

/-! ### A record entered -/

/-- A slot with a serial reads as a record of that serial. -/
theorem Contents.ofBytes_listed {bytes : List Byte} (h : wordAt bytes 0 ≠ 0) :
    (∃ named, Contents.ofBytes bytes = .fault (wordAt bytes 0) named) ∨
    ∃ r : Record, Contents.ofBytes bytes = .live r ∧ r.serial = wordAt bytes 0 := by
  unfold Contents.ofBytes
  rw [if_neg h]
  split
  · exact .inl ⟨_, rfl⟩
  · exact .inr ⟨_, rfl, rfl⟩

/-- The counters, the directory entry and the counts of a record entered, against the state in which it was read. -/
structure Stands (x : Scan) (s t : State) (slot : Nat) (read : SlotRead) (place : Place)
    (chain : List (Nat × BlockKind)) : Prop where
  entry : t.directory.get slot = some ⟨place.status, place.segment, chain, false⟩
  ofNew : read.New s → t.segments = (s.report none (some place)).segments
  ofSwapped : ∀ earlier, read.Swapped s x.failed earlier →
    t.segments = ((s.report (s.place earlier) none).report none (some place)).segments

theorem Scan.enter_good (z : Scan) (good : read.good = true) : z.enter slot read = z.keep slot (Contents.ofBytes read.bytes) := if_pos good

theorem Scan.enter_bad (z : Scan) (bad : read.good = false) : z.enter slot read = z.fail slot read.bytes := by
  unfold Scan.enter
  rw [bad]
  rfl

namespace Entering

variable (h : Entering x z slot read s)
include h

theorem state : (x.slot slot).state = (z.enter slot read).state.letGo slot := by rw [h.treated]; rfl

theorem failed : (x.slot slot).failed = (z.enter slot read).failed := by rw [h.treated]; rfl

theorem flagged_eq : (x.slot slot).flagged = (z.enter slot read).flagged := by rw [h.treated]; rfl

theorem released {serial : Word} {place : Place} {chain : List (Nat × BlockKind)} {c : Contents}
    (e : Entered z.state (z.enter slot read).state slot serial place chain c) :
    Entered z.state (x.slot slot).state slot serial place chain c := by
  rw [h.state]
  exact e.letGo slot

theorem stands (scan : s.route.scanning ≠ none) {serial : Word} {place : Place} {chain : List (Nat × BlockKind)}
    {c : Contents} (e : Entered z.state t slot serial place chain c) : Stands x s t slot read place chain where
  entry := e.entry
  ofNew new := e.segments.trans (State.report_segments_congr scan h.scanning (h.ofNew new) _ _)
  ofSwapped earlier swapped := by
    have scan' : (s.report (s.place earlier) none).route.scanning ≠ none := by simpa using scan
    exact e.segments.trans (State.report_segments_congr scan' h.scanning (h.ofSwapped earlier swapped) _ _)

end Entering

section Outcomes
variable (hr : HasRead x slot read s)
include hr

namespace HasRead

theorem unlisted (free : ¬read.Listed) : x.slot slot = { x with state := s.letGo slot } :=
  Scan.slot_unlisted hr.run (by
    unfold SlotRead.Listed SlotRead.serial at free
    tauto)

theorem discarding_empty (listed : read.Listed) (empty : s.route.state = .empty) :
    Discarding s (x.slot slot).state slot :=
  hr.ok.discarding (by rw [Scan.slot_of_empty hr.run listed.occupied empty])

theorem repeated (listed : read.Listed) (live : s.route.state ≠ .empty) (known : s.mem.lookup read.serial = some earlier)
    (h : ¬(read.good = true ∧ earlier ∈ x.failed)) : Discarding s (x.slot slot).state slot ∧
      (x.slot slot).failed = x.failed ∧ (x.slot slot).flagged = x.flagged := by
  have run := Scan.slot_repeated hr.run listed.occupied live known h
  exact ⟨hr.ok.discarding (by rw [run]), by rw [run], by rw [run]⟩

variable (he : Entering x z slot read s)
include he

theorem cached_settling (listed : read.Listed) (good : read.good = true) :
    z.state.cached slot = Contents.ofBytes read.bytes := he.settling.cached.trans (hr.cached good listed.1)

/-- A FAULT record kept. -/
theorem keeps_fault (good : read.good = true) {serial : Word} {named : Option Seg} (listed : read.Listed)
    (hc : Contents.ofBytes read.bytes = .fault serial named) :
    Entered z.state (x.slot slot).state slot serial ⟨s.faultSegment named, .fault⟩ []
      (.fault serial (s.faultSegment named)) ∧ (x.slot slot).failed = z.failed ∧ (x.slot slot).flagged = x.flagged := by
  obtain ⟨entered, failed, flagged⟩ := Scan.keep_fault he.settling.ok hr.inArea he.scanning he.settling.line
    ((hr.cached_settling he listed good).trans hc)
  have enter := z.enter_good (slot := slot) good
  rw [hc] at enter
  rw [he.settling.faultSegment, ← enter] at entered
  exact ⟨he.released entered, by rw [he.failed, enter, failed], by rw [he.flagged_eq, enter, flagged, he.flagged]⟩

/-- A live record kept. -/
theorem keeps_live (good : read.good = true) {r : Record} (listed : read.Listed)
    (hc : Contents.ofBytes read.bytes = .live r) {settled : Record} (hs : s.recovered r = settled) {walk : ChainWalk}
    (hw : s.mem.walkChain 4 s.store.usedBlocks r.firstBlock true 0 = walk) :
    Entered z.state (x.slot slot).state slot r.serial ⟨settled.segment, .live settled.status⟩ walk.blocks
      (.live (if walk.cut then { settled with
        firstBlock := headOf walk.blocks, marks := { settled.marks with extensionLost := true } } else settled)) ∧
    (∀ k, k ∈ (x.slot slot).state.store.usedBlocks ↔ k ∈ s.store.usedBlocks ∨ ∃ b ∈ walk.blocks, b.1 = k) ∧
    (x.slot slot).state.route.scanCut = (if walk.cut then satInc s.route.scanCut else s.route.scanCut) ∧
    (x.slot slot).failed = z.failed ∧
    (x.slot slot).flagged = if settled.status = .flagged ∧ !settled.marks.acknowledged
      then insertRanked (settled.tamperEntry slot) x.flagged else x.flagged := by
  obtain ⟨entered, used, cut, failed, flagged⟩ := Scan.keep_live he.settling.ok hr.inArea he.scanning he.settling.line
    ((hr.cached_settling he listed good).trans hc) ((he.settling.recovered r).trans hs)
    ((he.settling.walkChain r.firstBlock).trans hw)
  have enter := z.enter_good (slot := slot) good
  rw [hc] at enter
  rw [← enter] at entered used cut failed flagged
  refine ⟨he.released entered, fun k => ?_, ?_, by rw [he.failed, failed], by rw [he.flagged_eq, flagged, he.flagged]⟩
  · rw [he.state, ← he.settling.usedBlocks, ← used]
    simp
  · have before : z.state.route.scanCut = s.route.scanCut := by rw [he.settling.route]
    rw [he.state, ← before, ← cut]
    simp

/-- A record whose check fails. -/
theorem fails (bad : read.good = false) {segment : Option Seg}
    (hg : s.faultSegment (segOfParam (byteAt read.bytes 6)) = segment) :
    Entered z.state (x.slot slot).state slot read.serial ⟨segment, .fault⟩ [] (.fault read.serial segment) ∧
    (x.slot slot).state.events.pending.getLsbD 4 = true ∧
    (x.slot slot).state.route.scanFailures = satInc s.route.scanFailures ∧
    (x.slot slot).failed = slot :: z.failed ∧ (x.slot slot).flagged = x.flagged := by
  obtain ⟨entered, event, counted, failed, flagged⟩ := Scan.fail_spec he.settling.ok hr.inArea he.scanning
    he.settling.line read.bytes ((he.settling.faultSegment _).trans hg)
  rw [← z.enter_bad (slot := slot) bad] at entered event counted failed flagged
  refine ⟨he.released entered, ?_, ?_, by rw [he.failed, failed], by rw [he.flagged_eq, flagged, he.flagged]⟩
  · rw [he.state]
    simpa using event
  · have before : z.state.route.scanFailures = s.route.scanFailures := by rw [he.settling.route]
    rw [he.state, ← before, ← counted]
    simp

/-- Whatever it is, a record kept is entered with its serial, and joins the failed ones exactly when its check fails. -/
theorem enters (listed : read.Listed) : (∃ place chain c,
    Entered z.state (x.slot slot).state slot read.serial place chain c) ∧
    (read.good = true → (x.slot slot).failed = z.failed) := by
  by_cases good : read.good = true
  · rcases Contents.ofBytes_listed listed.1 with ⟨named, hc⟩ | ⟨r, hc, serial⟩
    · obtain ⟨entered, failed, -⟩ := hr.keeps_fault he good listed hc
      exact ⟨⟨_, _, _, entered⟩, fun _ => failed⟩
    · obtain ⟨entered, -, -, failed, -⟩ := hr.keeps_live he good listed hc rfl rfl
      exact ⟨⟨_, _, _, serial ▸ entered⟩, fun _ => failed⟩
  · obtain ⟨entered, -⟩ := hr.fails he (by simpa using good) rfl
    exact ⟨⟨_, _, _, entered⟩, fun e => absurd e good⟩

end HasRead

end Outcomes

end Sys2Proof.Machine
end

