-- ==== Sys2Proof/Proofs/ScanLookups.lean ====
section
/-! PROOF. Where the serial index and the scan's own lists stand after a record kept, in a slot new to the scan and in one
that takes an earlier slot's place (R27, R143). -/

namespace Sys2Proof.Machine

variable {s t w : State} {slot earlier : Nat} {x z : Scan} {read : SlotRead}

/-- A record entered is found by its serial, and every serial that was found before is (R26). -/
theorem Entered.lookup {serial : Word} {place : Place} {chain : List (Nat × BlockKind)} {c : Contents}
    (h : Entered w t slot serial place chain c) (hm : w.mem.wf = true) (unknown : w.mem.lookup serial = none)
    (h0 : serial ≠ 0) (hs : slot < 8192) (room : ∃ n, n < 16384 ∧ w.mem.entrySerial n = 0) :
    t.mem.lookup serial = some slot ∧ ∀ k found, w.mem.lookup k = some found → t.mem.lookup k = some found := by
  have same := Memory.lookup_congr h.index
  obtain ⟨found, others⟩ := Memory.lookup_insertSerial hm unknown h0 hs room
  exact ⟨(same serial).trans found, fun k f hk => (same k).trans (others k f hk)⟩

theorem Memory.entrySerial_congr {m m' : Memory}
    (h : ∀ a, Config.indexBase ≤ a → a < Config.routeBase → m'.read a = m.read a) {n : Nat} (hn : n < 16384) :
    m'.entrySerial n = m.entrySerial n :=
  (Memory.entry_congr fun a h1 h2 => h a (by have := entryAddress_lt hn; omega)
    (by have := entryAddress_lt hn; omega)).1

/-! ### The count of occupied slots -/

theorem State.cutChain_route (u : Holder) (slot : Nat) (r : Record) (kept : Nat) (s : State) :
    (s.cutChain u slot r kept).route = s.route := ((Quiet.refl s).cutChain u slot r kept).route

theorem State.recoverChain_occupied (slot : Nat) (r : Record) (s : State) :
    (s.recoverChain slot r).route.scanOccupied = s.route.scanOccupied := by
  obtain ⟨used, run, -⟩ := State.useBlocks_spec (s.mem.walkChain 4 s.store.usedBlocks r.firstBlock true 0).blocks s
  unfold State.recoverChain
  dsimp only
  rw [run]
  split
  · simp [State.countCut, State.cutChain_route]
  · simp

theorem Scan.enter_occupied (slot : Nat) (read : SlotRead) (y : Scan) :
    (y.enter slot read).state.route.scanOccupied = y.state.route.scanOccupied := by
  have put : ∀ (p : Prop) [Decidable p] (c : Contents),
      (if p then y.state else y.state.putContents slot c).route = y.state.route := fun p _ c => by split_ifs <;> simp
  unfold Scan.enter
  split
  · unfold Scan.keep
    dsimp only
    split
    · rfl
    · rw [(State.enroll_frame _ _ _ _).2, put]
    · rw [State.recoverChain_occupied, (State.enroll_frame _ _ _ _).2, put]
  · have entered := (State.enroll_frame (slot := slot) (wordAt read.bytes 0) .fault
      (y.state.faultSegment (segOfParam (byteAt read.bytes 6))) (y.state.putContents slot
      (.fault (wordAt read.bytes 0) (y.state.faultSegment (segOfParam (byteAt read.bytes 6)))))).2
    exact (congrArg Route.scanOccupied entered).trans (by simp)

theorem Scan.dismiss_occupied (earlier : Nat) (serial : Word) (y : Scan) :
    (y.dismiss earlier serial).state.route.scanOccupied = y.state.route.scanOccupied := by
  simp [Scan.dismiss, State.discard]

namespace HasRead

variable (hr : HasRead x slot read s)
include hr

/-- Every slot that shows a serial is counted. -/
theorem occupied (listed : read.Listed) :
    (x.slot slot).state.route.scanOccupied = satInc s.route.scanOccupied := by
  have counted : (x.counted slot).state.route.scanOccupied = satInc s.route.scanOccupied := by rw [hr.counted]; rfl
  by_cases empty : s.route.state = .empty
  · exact (hr.discarding_empty listed empty).occupied
  · cases known : s.mem.lookup read.serial with
    | none =>
      rw [Scan.slot_new hr.run listed.occupied empty known]
      simpa [Scan.released, Scan.enter_occupied] using counted
    | some earlier =>
      by_cases swap : read.good = true ∧ earlier ∈ x.failed
      · rw [Scan.slot_swapped hr.run listed.occupied empty known swap.1 swap.2]
        simpa [Scan.released, Scan.enter_occupied, Scan.dismiss_occupied] using counted
      · exact (hr.repeated listed empty known swap).1.occupied

/-- The serial of a slot new to the scan is found at the slot, and every serial found before is found there still. -/
theorem lookup_new (new : read.New s) (room : ∃ n, n < 16384 ∧ s.mem.entrySerial n = 0) :
    (x.slot slot).state.mem.lookup read.serial = some slot ∧
    ∀ k found, s.mem.lookup k = some found → (x.slot slot).state.mem.lookup k = some found := by
  have he := hr.entering_new new
  obtain ⟨⟨_, _, _, entered⟩, -⟩ := hr.enters he new.1
  have mem : (x.counted slot).state.mem = s.mem := by rw [hr.counted]; rfl
  rw [← mem] at room
  obtain ⟨found, others⟩ := entered.lookup (mem ▸ hr.ok.mem) (by rw [mem]; exact new.2.2) new.1.1 hr.inArea room
  rw [mem] at others
  exact ⟨found, others⟩

section Swapped
variable (swapped : read.Swapped s x.failed earlier)
include swapped

/-- The earlier slot of a swap is discarded, and no longer counts as failed. -/
theorem discards_swapped : State.Discards s (x.slot slot).state earlier ∧
    (x.slot slot).failed = x.failed.filter (· ≠ earlier) := by
  have gone := hr.dismissed swapped
  have he := hr.entering_swapped swapped
  obtain ⟨⟨_, _, _, entered⟩, failed⟩ := hr.enters he swapped.1
  have apart : earlier ≠ slot := Nat.ne_of_lt (hr.failed _ swapped.2.2.2.2.1)
  refine ⟨⟨?_, (entered.lines earlier).trans gone.line, (entered.others earlier apart).trans gone.directory, ?_⟩, ?_⟩
  · rw [← gone.queued]
    unfold State.queued
    rw [entered.queue]
  · rw [entered.route]
    exact gone.discarded
  · rw [failed swapped.2.2.2.1]
    exact List.filter_congr fun k _ => by rw [Bool.eq_iff_iff]; simp

/-- The serial of a swap is found at the slot that took the earlier one's place, and every other where it was. -/
theorem lookup_swapped (sound : s.mem.IndexSound) (room : ∃ n, n < 16384 ∧ s.mem.entrySerial n = 0) :
    (x.slot slot).state.mem.lookup read.serial = some slot ∧
    ∀ k found, k ≠ read.serial → s.mem.lookup k = some found → (x.slot slot).state.mem.lookup k = some found := by
  have gone := hr.dismissed swapped
  have he := hr.entering_swapped swapped
  obtain ⟨⟨_, _, _, entered⟩, -⟩ := hr.enters he swapped.1
  obtain ⟨-, absent, kept⟩ := sound.deleteSerial hr.ok.mem read.serial room
  have same := Memory.lookup_congr gone.index
  obtain ⟨n, hn, hz⟩ := Memory.room_deleteSerial hr.ok.mem read.serial room
  obtain ⟨found, others⟩ := entered.lookup he.settling.ok.mem ((same _).trans absent) swapped.1.1 hr.inArea
    ⟨n, hn, (Memory.entrySerial_congr gone.index hn).trans hz⟩
  exact ⟨found, fun k f hk hf => others k f (((same k).trans (kept k hk)).trans hf)⟩

end Swapped

end HasRead

end Sys2Proof.Machine
end

