-- ==== Sys2Proof/Proofs/RecoveredPlan.lean ====
section
/-! PROOF. The plan and the segment states that the RECOVERY scan ends with: the plan made to agree with the states, and
kept so by the leaves and by the settling, which makes the states agree with the counts (R131, R144). -/

namespace Sys2Proof.Machine

variable {a s t u : State} {n : Seg} {e : Segment} {plan : List Seg}

/-! ### A segment and the plan put together -/

/-- From `s` to `t` segment `n` has become `e` and the plan `plan`; the other segments stand. -/
structure Moved (n : Seg) (e : Segment) (plan : List Seg) (s t : State) : Prop where
  segment : ∀ k, t.segment k = if k = n then e else s.segment k
  plan : t.segments.plan = plan
  leaving : t.segments.leaving = s.segments.leaving

theorem State.putPlan_leaving (plan : List Seg) (s : State) :
    (s.putPlan plan).segments.leaving = s.segments.leaving := by
  unfold State.putPlan
  split <;> rfl

theorem Moved.putSegment (n : Seg) (e : Segment) (s : State) : Moved n e s.segments.plan s (s.putSegment n e) := by
  obtain ⟨segments, -⟩ := State.putSegment_fields n e s
  exact ⟨fun k => State.putSegment_segment n e k s, by rw [segments], by rw [segments]⟩

theorem Moved.putPlan (h : Moved n e plan s t) (plan' : List Seg) : Moved n e plan' s (t.putPlan plan') where
  segment k := (State.putPlan_segment plan' k t).trans (h.segment k)
  plan := State.putPlan_plan plan' t
  leaving := (State.putPlan_leaving plan' t).trans h.leaving

theorem Moved.withSegments (h : Moved n e plan s t) {x : Segments} (hx : x.entries = t.segments.entries)
    (hp : x.plan = t.segments.plan) (hl : x.leaving = t.segments.leaving) : Moved n e plan s (t.withSegments x) where
  segment k := (congrArg (·.get k) hx).trans (h.segment k)
  plan := hp.trans h.plan
  leaving := hl.trans h.leaving

theorem Moved.setDwell (h : Moved n e plan s t) (target : Option Nat) : Moved n e plan s (t.setDwell target) :=
  h.withSegments rfl rfl rfl

theorem Moved.putActive (h : Moved n e plan s t) (x : Option Seg) : Moved n e plan s (t.putActive x) := by
  unfold State.putActive
  split
  · exact h
  · exact ⟨h.segment, h.plan, h.leaving⟩

theorem Moved.raise (h : Moved n e plan s t) (v : Event) : Moved n e plan s (t.raise v) :=
  ⟨h.segment, h.plan, h.leaving⟩

/-! ### The plan and the states (R131) -/

/-- No segment is being left, and the plan lists the UNVISITED and the REDRIVE segments. -/
structure State.Planned (s : State) : Prop where
  leaving : s.segments.leaving = none
  plan : ∀ n, n ∈ s.segments.plan ↔ (s.segment n).planned = true

theorem State.Planned.moved (h : s.Planned) (m : Moved n e plan s t) (here : n ∈ plan ↔ e.planned = true)
    (others : ∀ k, k ≠ n → (k ∈ plan ↔ k ∈ s.segments.plan)) : t.Planned where
  leaving := m.leaving.trans h.leaving
  plan k := by
    rw [m.plan, m.segment]
    split
    next same => rw [same, here]
    next apart => rw [others k apart, h.plan]

theorem mem_planWithout {k : Seg} (hk : k ≠ n) : k ∈ planWithout plan n ↔ k ∈ plan := by
  simp [planWithout, hk]

theorem mem_planInsert (plan : List Seg) (p : Nat) (n k : Seg) : k ∈ planInsert plan p n ↔ k = n ∨ k ∈ plan := by
  have perm : (planInsert plan p n).Perm (n :: plan) :=
    List.perm_middle.trans (by rw [List.take_append_drop])
  rw [perm.mem_iff, List.mem_cons]

/-- A segment that leaves the plan with a state that is out of it. -/
theorem State.Planned.unplan (h : s.Planned) (m : Moved n e (planWithout s.segments.plan n) s t)
    (out : e.planned = false) : t.Planned :=
  h.moved m (by rw [out]; exact iff_of_false (not_mem_planWithout _ _) Bool.false_ne_true)
    fun _ hk => mem_planWithout hk

/-- The plan made to agree lists what the states have in it. -/
theorem State.agreePlan_planned (h : s.segments.leaving = none) : s.agreePlan.Planned := by
  unfold State.agreePlan
  refine ⟨(State.putPlan_leaving _ _).trans h, fun n => ?_⟩
  rw [State.putPlan_plan, State.putPlan_segment]
  by_cases planned : (s.segment n).planned = true
  · simp [planned, em]
  · simp [planned]

/-! ### Completion, reopening, and a segment left (R118, R119, R123) -/

theorem Moved.complete (h : s.segments.leaving = none) (hd : (s.segment n).state ≠ .disabled)
    (hc : (s.segment n).state ≠ .complete) :
    Moved n { s.segment n with state := .complete } (planWithout s.segments.plan n) s (s.complete n) := by
  have done := (Moved.putSegment n { s.segment n with state := .complete } s).putPlan (planWithout s.segments.plan n)
  unfold State.complete
  rw [if_neg (by rw [h]; simp), if_neg (by simp [hd, hc])]
  dsimp only
  split
  · exact ((done.putActive none).setDwell none).raise _
  · exact done.raise _

theorem Moved.reopen_opened (hc : (s.segment n).state = .complete) (hr : s.route.state = .opened) :
    Moved n { s.segment n with state := if (s.segment n).visited then .redrive else .unvisited }
      (planWithout s.segments.plan n ++ [n]) s (s.reopen n) := by
  unfold State.reopen
  rw [if_pos hc, hr]
  exact (Moved.putSegment n _ s).putPlan _

theorem Moved.reopen_closed (hc : (s.segment n).state = .complete) (hr : s.route.state = .closed) :
    Moved n { s.segment n with state := .abandoned } s.segments.plan s (s.reopen n) := by
  unfold State.reopen
  rw [if_pos hc, hr]
  exact Moved.putSegment n _ s

/-- A segment left goes out of the plan, or into it as REDRIVE. -/
theorem State.Planned.settleLeft (h : s.Planned) (n : Seg) : (s.settleLeft n).Planned := by
  have put := fun e => Moved.putSegment n e s
  unfold State.settleLeft
  dsimp only
  split
  · exact h.unplan ((((put _).putPlan _).raise _).putActive none |>.setDwell none) rfl
  · split
    · exact h.unplan (((put _).putPlan _).putActive none |>.setDwell none) rfl
    · refine h.moved (((put _).putPlan _).putActive none |>.setDwell none) ?_ fun k hk => ?_
      · exact iff_of_true ((mem_planInsert _ _ _ _).2 (.inl rfl)) rfl
      · rw [mem_planInsert, mem_planWithout hk]
        exact or_iff_right hk

/-! ### The settling of the segments (R131) -/

/-- A segment's state agrees with its outstanding count. -/
def Segment.Agrees (e : Segment) : Prop :=
  (e.state = .complete → e.outstanding = 0) ∧
    (e.state = .unvisited ∨ e.state = .redrive ∨ e.state = .abandoned → e.outstanding ≠ 0)

/-- The plan agrees with the states, and segment `n` with its count; the other segments stand. -/
structure SettledOne (n : Seg) (s t : State) : Prop where
  planned : t.Planned
  agrees : (t.segment n).Agrees
  others : ∀ k, k ≠ n → t.segment k = s.segment k

theorem SettledOne.of_moved (h : s.Planned) (m : Moved n e plan s t) (here : n ∈ plan ↔ e.planned = true)
    (others : ∀ k, k ≠ n → (k ∈ plan ↔ k ∈ s.segments.plan)) (agrees : e.Agrees) : SettledOne n s t where
  planned := h.moved m here others
  agrees := by rw [m.segment, if_pos rfl]; exact agrees
  others k hk := by rw [m.segment, if_neg hk]

theorem SettledOne.complete (h : s.Planned) (hd : (s.segment n).state ≠ .disabled)
    (hc : (s.segment n).state ≠ .complete) (ho : (s.segment n).outstanding = 0) : SettledOne n s (s.complete n) :=
  .of_moved h (.complete h.leaving hd hc) (iff_of_false (not_mem_planWithout _ _) Bool.false_ne_true)
    (fun _ hk => mem_planWithout hk) ⟨fun _ => ho, by simp⟩

theorem SettledOne.reopen (h : s.Planned) (hc : (s.segment n).state = .complete)
    (ho : (s.segment n).outstanding ≠ 0) (hr : s.route.state = .opened ∨ s.route.state = .closed) :
    SettledOne n s (s.reopen n) := by
  rcases hr with opened | closed
  · refine .of_moved h (.reopen_opened hc opened) ?_ (fun k hk => ?_) ⟨fun e => ?_, fun _ => ho⟩
    · refine iff_of_true (by simp) ?_
      dsimp only [Segment.planned]
      split <;> rfl
    · rw [List.mem_append, mem_planWithout hk, List.mem_singleton]
      exact or_iff_left hk
    · dsimp only at e
      split at e <;> exact nomatch e
  · refine .of_moved h (.reopen_closed hc closed) ?_ (fun _ _ => Iff.rfl) ⟨nofun, fun _ => ho⟩
    rw [h.plan]
    unfold Segment.planned
    rw [hc]
    exact Iff.rfl

/-- The settling of a segment makes it agree. -/
theorem State.Planned.settleRecovered (h : s.Planned) (hr : s.route.state = .opened ∨ s.route.state = .closed) (n : Seg) :
    SettledOne n s (s.settleRecovered n) := by
  have stands (agrees : (s.segment n).Agrees) : SettledOne n s s := ⟨h, agrees, fun _ _ => rfl⟩
  have finish (hd : (s.segment n).state ≠ .disabled) (hc : (s.segment n).state ≠ .complete) :
      SettledOne n s (if (s.segment n).outstanding = 0 then s.complete n else s) := by
    split
    next none => exact .complete h hd hc none
    next some => exact stands ⟨fun e => absurd e hc, fun _ => some⟩
  unfold State.settleRecovered
  dsimp only
  cases hs : (s.segment n).state with
  | unvisited => exact finish (by rw [hs]; decide) (by rw [hs]; decide)
  | redrive => exact finish (by rw [hs]; decide) (by rw [hs]; decide)
  | abandoned => exact finish (by rw [hs]; decide) (by rw [hs]; decide)
  | complete =>
    dsimp only
    split
    next some => exact .reopen h hs some hr
    next none => exact stands ⟨fun _ => not_not.1 none, by simp [hs]⟩
  | disabled => exact stands ⟨by simp [hs], by simp [hs]⟩
  | active => exact stands ⟨by simp [hs], by simp [hs]⟩

end Sys2Proof.Machine
end

