-- ==== Sys2Proof/Proofs/RecoveryFinish.lean ====
section
/-! PROOF. What the RECOVERY scan's finish leaves: the leaves of the segments recorded ACTIVE, the active number, and the
settling of the segments (R131, R144). -/

namespace Sys2Proof.Machine

variable {a s t u : State} {n : Seg}

/-! ### The segment unit at work by itself -/

theorem State.putPlan_events (plan : List Seg) (s : State) : (s.putPlan plan).events = s.events := by
  unfold State.putPlan
  split <;> rfl

theorem State.putActive_events (x : Option Seg) (s : State) : (s.putActive x).events = s.events := by
  unfold State.putActive
  split <;> rfl

/-- Work of the segment unit alone: of the rest it writes the route area, and of the events it raises SEGMENT_DONE. -/
structure Judging (s t : State) : Prop where
  told : Told s t
  events : ∀ k, k ≠ 1 → t.events.pending.getLsbD k = s.events.pending.getLsbD k

namespace Judging

theorem refl (s : State) : Judging s s := ⟨.refl s, fun _ _ => rfl⟩

theorem trans (h : Judging a s) (h1 : Judging s t) : Judging a t :=
  ⟨h.told.trans h1.told, fun k hk => (h1.events k hk).trans (h.events k hk)⟩

theorem of_told (h : Told s t) (he : t.events = s.events) : Judging s t := ⟨h, fun _ _ => by rw [he]⟩

theorem ite {c : Prop} [Decidable c] {x y : State} (hx : Judging s x) (hy : Judging s y) :
    Judging s (if c then x else y) := by split_ifs <;> assumption

theorem foldl {f : State → Seg → State} (hf : ∀ x n, Judging x (f x n)) (l : List Seg) (s : State) :
    Judging s (l.foldl f s) := by
  induction l generalizing s with
  | nil => exact .refl s
  | cons n l ih => exact (hf s n).trans (ih (f s n))

theorem putSegment (h : Judging a s) (n : Seg) (e : Segment) : Judging a (s.putSegment n e) :=
  h.trans (.of_told (.putSegment s n e) (State.putSegment_fields n e s).2.2)

theorem putPlan (h : Judging a s) (plan : List Seg) : Judging a (s.putPlan plan) :=
  h.trans (.of_told (.putPlan s plan) (State.putPlan_events plan s))

theorem putActive (h : Judging a s) (x : Option Seg) : Judging a (s.putActive x) :=
  h.trans (.of_told (.putActive s x) (State.putActive_events x s))

theorem setDwell (h : Judging a s) (x : Option Nat) : Judging a (s.setDwell x) :=
  h.trans (.of_told (.withSegments s _) rfl)

theorem done (h : Judging a s) : Judging a (s.raise .segmentDone) :=
  h.trans ⟨.raise s _, fun _ hk => s.raise_bit .segmentDone hk⟩

theorem complete (n : Seg) (s : State) : Judging s (s.complete n) := by
  have put := ((Judging.refl s).putSegment n { s.segment n with state := .complete }).putPlan
    (planWithout s.segments.plan n)
  exact .ite (.refl s) (.ite (.refl s) (.done (.ite ((put.putActive _).setDwell _) put)))

theorem reopen (n : Seg) (s : State) : Judging s (s.reopen n) := by
  unfold State.reopen
  split
  · split
    · exact ((Judging.refl s).putSegment n _).putPlan _
    · exact (Judging.refl s).putSegment n _
    · exact .refl s
  · exact .refl s

theorem settleLeft (n : Seg) (s : State) : Judging s (s.settleLeft n) := by
  have put := fun e plan => ((Judging.refl s).putSegment n e).putPlan plan
  exact setDwell (putActive (.ite (put _ _).done (.ite (put _ _) (put _ _))) _) _

theorem settleRecovered (s : State) (n : Seg) : Judging s (s.settleRecovered n) := by
  unfold State.settleRecovered
  dsimp only
  split
  · exact .ite (.complete n s) (.refl s)
  · exact .ite (.complete n s) (.refl s)
  · exact .ite (.complete n s) (.refl s)
  · exact .ite (.reopen n s) (.refl s)
  · exact .refl s

theorem settleAll (s : State) : Judging s s.settleAll := .ite (.foldl settleRecovered _ s) (.refl s)

theorem agreePlan (s : State) : Judging s s.agreePlan := (Judging.refl s).putPlan _

end Judging

/-! ### The directory's slots -/

/-- The directory lists the slots that it listed. -/
def SameSlots (s t : State) : Prop := t.directory.map (·.1) = s.directory.map (·.1)

namespace SameSlots

theorem of_directory (h : t.directory = s.directory) : SameSlots s t := by
  unfold SameSlots
  rw [h]

theorem of_set {slot : Nat} {d x : DirEntry} (hd : s.directory.get slot = some d)
    (h : t.directory = s.directory.set slot x) : SameSlots s t := by
  unfold SameSlots
  rw [h, Directory.set_keys hd]

theorem becomeFault (slot : Nat) (s : State) : SameSlots s (s.becomeFault slot) := by
  unfold State.becomeFault
  split
  · exact rfl
  next d hd =>
    refine of_set (x := ⟨.fault, d.segment, [], false⟩) hd ?_
    exact (State.report_frame _ _ _).2.1.trans (by simp)

theorem takeLine (u : Holder) (slot : Nat) (s : State) : SameSlots s (s.takeLine u slot).1 := by
  unfold State.takeLine
  split
  · exact rfl
  · dsimp only
    split
    · exact of_directory (by simp)
    · have filled (c : Contents) : SameSlots s
          (((s.evict s.victim).grant u).hold u s.victim (some ⟨slot, false, c⟩)) :=
        of_directory (by simp [State.grant])
      split
      · exact filled _
      · exact (becomeFault slot _).trans (filled .free)

theorem putRecord (slot : Nat) (r : Record) (s : State) : SameSlots s (s.putRecord slot r) := by
  unfold State.putRecord State.fileRecord
  split
  · exact of_directory (by simp)
  next d hd =>
    rw [(State.putContents_frame _ _ _).2.1] at hd
    exact of_set (x := ⟨.live r.status, r.segment, d.chain, r.batch.isSome⟩) hd (by simp)

theorem settleSlot (u : Holder) (slot : Nat) (x : State × WalkCounts) :
    SameSlots x.1 (State.settleSlot u slot x).1 := by
  have taken := takeLine u slot x.1
  have letGo (t : State) : SameSlots t (t.letGo slot) := of_directory (by simp)
  have flagged (t : State) (r : Record) : SameSlots t (t.flaggedReport slot r) :=
    of_directory (by simp [State.flaggedReport])
  unfold State.settleSlot
  dsimp only
  split
  · exact (letGo _).trans taken
  · split
    · split
      · exact (letGo _).trans ((putRecord slot _ _).trans taken)
      · exact (letGo _).trans ((flagged _ _).trans ((putRecord slot _ _).trans taken))
      · exact (letGo _).trans taken
    · exact (letGo _).trans taken

theorem settleSlots (u : Holder) (slots : List Nat) (x : State × WalkCounts) :
    SameSlots x.1 (slots.foldl (fun x slot => State.settleSlot u slot x) x).1 := by
  induction slots generalizing x with
  | nil => exact rfl
  | cons slot slots ih => exact (ih _).trans (settleSlot u slot x)

end SameSlots

/-! ### A walk while the scan runs (R121, R144) -/

section Walk
variable {raises : Nat → Prop} (scan : a.route.scanning ≠ none) (flag : raises 0) (fault : raises 4)
include scan flag fault

theorem ScanWork.settleSlot {x : State × WalkCounts} (h : ScanWork raises a x.1) (u : Holder) (slot : Nat) :
    ScanWork raises a (State.settleSlot u slot x).1 := by
  have taken := h.takeLine scan fault u slot
  unfold State.settleSlot
  dsimp only
  split
  · exact taken.letGo slot
  · split
    · split
      · exact (taken.putRecord scan slot _).letGo slot
      · exact ((taken.putRecord scan slot _).flaggedReport flag slot _).letGo slot
      · exact taken.letGo slot
    · exact taken.letGo slot

theorem ScanWork.settleSlots {x : State × WalkCounts} (h : ScanWork raises a x.1) (u : Holder) (slots : List Nat) :
    ScanWork raises a (slots.foldl (fun x slot => State.settleSlot u slot x) x).1 := by
  induction slots generalizing x with
  | nil => exact h
  | cons slot slots ih => exact ih (h.settleSlot scan flag fault u slot)

end Walk

/-- The finish of the scan from `a` to `t`: it leaves all that work on records leaves, but the scan's count of check
failures; the scan goes on; no event is raised but those of `raises`; and the directory lists its slots. -/
structure FinishWork (raises : Nat → Prop) (a t : State) : Prop where
  quiet : Quiet a { t with route := a.route }
  route : t.route = { a.route with scanFailures := t.route.scanFailures }
  events : ∀ k, ¬raises k → t.events.pending.getLsbD k = a.events.pending.getLsbD k
  slots : SameSlots a t

namespace FinishWork

variable {raises : Nat → Prop}

theorem refl (raises : Nat → Prop) (a : State) : FinishWork raises a a := ⟨Quiet.refl a, rfl, fun _ _ => rfl, rfl⟩

theorem trans (h : FinishWork raises a s) (h1 : FinishWork raises s t) : FinishWork raises a t where
  quiet := h.quiet.trans (h1.quiet.set_route a.route)
  route := by rw [h1.route, h.route]
  events k hk := (h1.events k hk).trans (h.events k hk)
  slots := h1.slots.trans h.slots

theorem of_quiet (q : Quiet s t) (he : ∀ k, ¬raises k → t.events.pending.getLsbD k = s.events.pending.getLsbD k)
    (hd : SameSlots s t) : FinishWork raises s t := ⟨by rw [← q.route]; exact q, by rw [q.route], he, hd⟩

theorem of_judging (q : Quiet s t) (j : Judging s t) (done : raises 1) : FinishWork raises s t :=
  of_quiet q (fun k hk => j.events k fun one => hk (one ▸ done)) (.of_directory (by rw [j.told.same]))

theorem countFailure (s : State) : FinishWork raises s s.countFailure := ⟨Quiet.refl s, rfl, fun _ _ => rfl, rfl⟩

theorem countFailures (l : List Unit) (s : State) :
    FinishWork raises s (l.foldl (fun s _ => s.countFailure) s) := by
  induction l generalizing s with
  | nil => exact .refl raises s
  | cons _ l ih => exact (countFailure s).trans (ih s.countFailure)

theorem scanning (h : FinishWork raises a s) : s.route.scanning = a.route.scanning := by rw [h.route]

end FinishWork

/-- A walk's end: the segments as they were but for their counts, and none being left. -/
structure WalkedOff (s t : State) : Prop where
  plan : t.segments.plan = s.segments.plan
  states : ∀ n, (t.segment n).state = (s.segment n).state
  leaving : t.segments.leaving = none
  events : ∀ k, k ≠ 0 → k ≠ 4 → t.events.pending.getLsbD k = s.events.pending.getLsbD k

theorem State.leaveWalk_off (scan : s.route.scanning ≠ none) (u : Holder) (n : Seg) :
    WalkedOff s (s.leaveWalk u n).1 := by
  obtain ⟨x, hx⟩ : ∃ x, x = (s.withSegments { s.segments with leaving := some n }, WalkCounts.none) := ⟨_, rfl⟩
  have walked := (ScanWork.refl (fun k => k = 0 ∨ k = 4) x.1).settleSlots (x := x) (by rw [hx]; exact scan) (Or.inl rfl)
    (Or.inr rfl) u (s.slotsOf n)
  rw [hx] at walked
  refine ⟨?_, fun k => walked.recounted.state k, rfl, fun k h0 h4 => walked.events k (by simp [h0, h4])⟩
  exact (congrArg Segments.plan walked.recounted.segments).trans rfl

theorem State.Planned.walked (h : s.Planned) (w : WalkedOff s t) : t.Planned where
  leaving := w.leaving
  plan n := by
    unfold Segment.planned
    rw [w.plan, w.states]
    exact h.plan n

/-- A segment recorded ACTIVE left: the plan agrees as before (R131, R144). -/
theorem State.Planned.leaveRecorded (h : s.Planned) (scan : s.route.scanning ≠ none) (n : Seg) :
    (s.leaveRecorded n).Planned := by
  have counted : ∀ (l : List Unit) (x : State), x.Planned → (l.foldl (fun s _ => s.countFailure) x).Planned :=
    fun l => by
      induction l with
      | nil => exact fun _ hx => hx
      | cons _ l ih => exact fun x hx => ih x.countFailure ⟨hx.leaving, hx.plan⟩
  exact counted _ _ ((h.walked (State.leaveWalk_off scan .scan n)).settleLeft n)

theorem FinishWork.leaveRecorded (scan : s.route.scanning ≠ none) (n : Seg) :
    FinishWork (fun k => k = 0 ∨ k = 1 ∨ k = 4) s (s.leaveRecorded n) := by
  have off := State.leaveWalk_off scan .scan n
  have left : Judging (s.leaveWalk .scan n).1 (s.leave .scan n).1 := .settleLeft n _
  refine FinishWork.trans (.of_quiet ((Quiet.refl s).leave .scan n) (fun k hk => ?_) ?_) (.countFailures _ _)
  · rw [not_or, not_or] at hk
    rw [left.events k hk.2.1, off.events k hk.1 hk.2.2]
  · have same : (s.leave .scan n).1.directory = (s.leaveWalk .scan n).1.directory := by rw [left.told.same]
    unfold SameSlots
    rw [same]
    exact SameSlots.settleSlots .scan (s.slotsOf n) (s.withSegments { s.segments with leaving := some n }, WalkCounts.none)

end Sys2Proof.Machine
end

