-- ==== Sys2Proof/Proofs/RecoveryEnd.lean ====
section
/-! PROOF. The RECOVERY scan's beginning, and the finish as a whole (R131, R143, R144). -/

namespace Sys2Proof.Machine

variable {a s t u : State} {n : Seg} {x : Scan} {slot : Nat}

/-! ### The segments recorded ACTIVE left -/

theorem State.Planned.putActive (h : s.Planned) (v : Option Seg) : (s.putActive v).Planned := by
  unfold State.putActive
  split
  · exact h
  · exact ⟨h.leaving, h.plan⟩

/-- The events that the finish in OPEN may raise: NEW_FLAG, SEGMENT_DONE and RECORD_FAULT. -/
def FinishRaises (k : Nat) : Prop := k = 0 ∨ k = 1 ∨ k = 4

theorem FinishWork.leaveAll (scan : s.route.scanning ≠ none) (h : s.Planned) (l : List Seg) :
    FinishWork FinishRaises s (l.foldl State.leaveRecorded s) ∧ (l.foldl State.leaveRecorded s).Planned := by
  induction l generalizing s with
  | nil => exact ⟨.refl _ s, h⟩
  | cons n l ih =>
    have left := FinishWork.leaveRecorded scan n
    obtain ⟨work, planned⟩ := ih (left.scanning ▸ scan) (h.leaveRecorded scan n)
    exact ⟨left.trans work, planned⟩

theorem FinishWork.leaveActive (scan : s.route.scanning ≠ none) (h : s.Planned) :
    FinishWork FinishRaises s s.leaveActive ∧ s.leaveActive.Planned := by
  have put {t : State} (work : FinishWork FinishRaises s t) (planned : t.Planned) :
      FinishWork FinishRaises s (t.putActive none) ∧ (t.putActive none).Planned :=
    ⟨work.trans (.of_judging ((Quiet.refl t).putActive none) ((Judging.refl t).putActive none) (.inr (.inl rfl))),
      planned.putActive none⟩
  unfold State.leaveActive
  dsimp only
  split
  · obtain ⟨work, planned⟩ := FinishWork.leaveAll scan h ((List.finRange 64).filter s.recordedActive)
    exact put work planned
  · exact put (.refl _ s) h

/-- On a route that is not OPEN no segment is left. -/
theorem State.leaveActive_of_not_opened (h : s.route.state ≠ .opened) : s.leaveActive = s.putActive none := by
  unfold State.leaveActive
  rw [if_neg h]

/-! ### The settling of all segments -/

theorem State.Planned.settleRow (h : s.Planned) (hr : s.route.state = .opened ∨ s.route.state = .closed)
    (l : List Seg) : (l.foldl State.settleRecovered s).Planned ∧
      ∀ k, (k ∈ l ∨ (s.segment k).Agrees) → ((l.foldl State.settleRecovered s).segment k).Agrees := by
  induction l generalizing s with
  | nil => exact ⟨h, fun k hk => hk.resolve_left List.not_mem_nil⟩
  | cons n l ih =>
    have settled := h.settleRecovered hr n
    have route : (s.settleRecovered n).route = s.route := by rw [(Judging.settleRecovered s n).told.same]
    obtain ⟨planned, agrees⟩ := ih settled.planned (route ▸ hr)
    refine ⟨planned, fun k hk => agrees k ?_⟩
    by_cases same : k = n
    · exact .inr (same ▸ settled.agrees)
    · rw [settled.others k same]
      exact hk.imp_left fun mem => (List.mem_cons.1 mem).resolve_left same

theorem State.Planned.settleAll (h : s.Planned) : s.settleAll.Planned ∧
    (s.route.state = .opened ∨ s.route.state = .closed → ∀ n, (s.settleAll.segment n).Agrees) := by
  unfold State.settleAll
  split
  next hr =>
    obtain ⟨planned, agrees⟩ := h.settleRow hr (List.finRange 64)
    exact ⟨planned, fun _ n => agrees n (.inl (List.mem_finRange n))⟩
  next hr => exact ⟨h, fun e => absurd e hr⟩

theorem State.Inactive.settleRow (h : s.Inactive) (l : List Seg) : (l.foldl State.settleRecovered s).Inactive := by
  have one (s : State) (h : s.Inactive) (n : Seg) : (s.settleRecovered n).Inactive := by
    have complete := State.Inactive.kept.complete h n
    have reopen := State.Inactive.kept.reopen h n
    unfold State.settleRecovered
    dsimp only
    split <;> (try split) <;> assumption
  induction l generalizing s with
  | nil => exact h
  | cons n l ih => exact ih (one s h n)

theorem State.Inactive.settleAll (h : s.Inactive) : s.settleAll.Inactive := by
  unfold State.settleAll
  split
  · exact h.settleRow _
  · exact h

/-! ### The finish as a whole (R131, R144) -/

/-- What the finish makes of the state that the scan of the slots has left. -/
structure Finished (s t : State) : Prop where
  work : FinishWork FinishRaises s t
  planned : t.Planned
  agrees : s.route.state = .opened ∨ s.route.state = .closed → ∀ n, (t.segment n).Agrees
  inactive : t.Inactive
  judging : s.route.state ≠ .opened → Judging s t
  silent : s.route.state ≠ .opened → s.route.state ≠ .closed → t.events = s.events

theorem State.finished (scan : s.route.scanning ≠ none) (h : s.segments.leaving = none) :
    Finished s s.agreePlan.leaveActive.settleAll := by
  have agreed : FinishWork FinishRaises s s.agreePlan :=
    .of_judging ((Quiet.refl s).agreePlan) (.agreePlan s) (.inr (.inl rfl))
  obtain ⟨left, planned⟩ := FinishWork.leaveActive (agreed.scanning ▸ scan) (State.agreePlan_planned h)
  have settled : FinishWork FinishRaises s.agreePlan.leaveActive s.agreePlan.leaveActive.settleAll :=
    .of_judging ((Quiet.refl _).settleAll) (.settleAll _) (.inr (.inl rfl))
  have before := agreed.trans left
  have state : s.agreePlan.leaveActive.route.state = s.route.state := by rw [before.route]
  have agreedState : s.agreePlan.route.state = s.route.state := by rw [agreed.route]
  have off : s.agreePlan.leaveActive.Inactive := State.putActive_inactive _
  refine ⟨before.trans settled, planned.settleAll.1, state ▸ planned.settleAll.2, off.settleAll, fun hr => ?_,
    fun hr hc => ?_⟩
  · have stays := State.leaveActive_of_not_opened (agreedState ▸ hr)
    exact ((stays ▸ (Judging.agreePlan s).putActive none : Judging s s.agreePlan.leaveActive)).trans (.settleAll _)
  · have stays := State.leaveActive_of_not_opened (agreedState ▸ hr)
    unfold State.settleAll
    rw [if_neg (by rw [state]; tauto), stays, State.putActive_events]
    exact State.putPlan_events _ _

/-! ### The beginning (R143) -/

theorem State.beginRecovery_mem (s : State) : s.beginRecovery.mem = s.mem.clearIndex := by
  simp [State.beginRecovery, State.loadRouteArea]

theorem State.Ok.lookup_beginRecovery (h : s.Ok) (serial : Word) : s.beginRecovery.mem.lookup serial = none := by
  rw [State.beginRecovery_mem]
  exact Memory.lookup_of_empty (fun _ hn => Memory.entrySerial_clearIndex h.mem hn) serial

theorem State.scanRead_directory (slot : Nat) (s : State) : (s.scanRead slot).2.directory = s.directory := by
  unfold State.scanRead
  split
  · rfl
  · dsimp only
    split <;> simp

/-- On an EMPTY route the scan keeps no record. -/
theorem Scan.slot_empty (h : x.state.route.state = .empty) : (x.slot slot).state.directory = x.state.directory := by
  have directory := State.scanRead_directory slot x.state
  have empty := ((ScanWork.refl (fun _ => False) x.state).scanRead slot).routeState.trans h
  obtain ⟨⟨read, v⟩, hread⟩ : ∃ r, x.state.scanRead slot = r := ⟨_, rfl⟩
  rw [hread] at directory empty
  by_cases free : wordAt read.bytes 0 = 0 ∨ wordAt read.bytes 0 = 0xFFFFFFFF
  · rw [Scan.slot_unlisted hread free]
    exact (State.letGo_frame _ _).2.1.trans directory
  · rw [Scan.slot_of_empty hread free empty]
    exact (by simp [State.discard, State.countOccupied] :
      ((v.countOccupied.discard slot).letGo slot).directory = v.directory).trans directory

theorem Scan.slots_empty (scan : x.state.route.scanning ≠ none) (h : x.state.route.state = .empty) (l : List Nat) :
    (l.foldl Scan.slot x).state.directory = x.state.directory := by
  induction l generalizing x with
  | nil => rfl
  | cons n l ih =>
    have work := (ScanWork.refl (· = 4) x.state).slot scan rfl n
    exact (ih (work.scanning ▸ scan) (work.routeState.trans h)).trans (Scan.slot_empty h)

/-! ### From the beginning to the end (R143, R144) -/

/-- The state that the scan's finish starts from: the slots scanned, and the tamper queue filled. -/
def Scan.listed (x : Scan) : State :=
  x.state.withTamper { x.state.tamper with entries := x.flagged.take Config.tamperEntries }

/-- The segments settled. -/
def Scan.finish (x : Scan) : State := x.listed.agreePlan.leaveActive.settleAll

/-- The scan's end: SCANNING clear, and SCAN_DONE raised. -/
def State.endScan (u : State) : State := (u.withRoute { u.route with scanning := none }).raise .scanDone

theorem State.endScan_directory (u : State) : u.endScan.directory = u.directory := rfl

theorem State.endScan_store (u : State) : u.endScan.store = u.store := rfl

theorem State.endScan_tamper (u : State) : u.endScan.tamper = u.tamper := rfl

theorem State.endScan_segment (u : State) (n : Seg) : u.endScan.segment n = u.segment n := rfl

theorem State.endScan_scanning (u : State) : u.endScan.route.scanning = none := rfl

theorem State.endScan_done (u : State) : u.endScan.events.pending.getLsbD 9 = true := State.raise_own _ .scanDone

theorem State.endScan_bit (u : State) {k : Nat} (hk : k ≠ 9) :
    u.endScan.events.pending.getLsbD k = u.events.pending.getLsbD k := State.raise_bit _ .scanDone hk

/-- The scan of the slots below a number. -/
def State.scannedTo (n : Nat) (s : State) : Scan := (List.range n).foldl Scan.slot ⟨s.beginRecovery, [], []⟩

theorem State.recover_eq (s : State) : s.recover = (s.scannedTo 8192).finish.endScan := by
  unfold State.recover State.endScan Scan.finish Scan.listed State.scannedTo Config.slots
  rfl

theorem execRecoveryScan_ready (hp : s.power = .on) (hs : s.route.scanning = some .recovery)
    (hh : s.matching.inHand = none) (hq : s.store.queue = []) : exec .recoveryScan s = .next s.recover := by
  have ready : s.scanReady .recovery = true := by simp [State.scanReady, hp, hs, hh, hq]
  show Host.Outcome.next (if s.scanReady .recovery then s.recover else s) = _
  rw [if_pos ready]

/-- What the scan's beginning takes from the route area, and what it leaves. -/
structure Begun (s b : State) : Prop where
  route : b.route = { s.route with
    state := RouteState.ofByte (byteAt (s.mem.item 2) 0), header := headerOfItem (s.mem.item 1)
    clock := wordAt (s.mem.item 4) 0, scanOccupied := 0, scanFailures := 0, scanCut := 0, scanDiscarded := 0 }
  assessment : b.assessment = (headerOfItem (s.mem.item 1)).map Header.assessment
  leaving : b.segments.leaving = none
  directory : b.directory = []
  events : b.events = s.events
  ports : b.ports = s.ports
  depot : b.depot = s.depot
  power : b.power = s.power
  pending : b.pending = s.pending
  cabMode : b.tamper.cabMode = s.tamper.cabMode
  invert : b.tamper.invert = s.tamper.invert

theorem State.begun (s : State) : Begun s s.beginRecovery := by
  constructor <;> simp [State.beginRecovery, State.loadRouteArea]

/-- The state `u` at the end of a finish, against the state `r` that the slots' scan left and the state `b` at its
beginning. -/
structure ScanEnds (b r : State) (flagged : List TamperEntry) (u : State) : Prop where
  scan : ScanWork (· = 4) b r
  finish : Finished (r.withTamper { r.tamper with entries := flagged.take Config.tamperEntries }) u

theorem State.scanEnds (hs : s.route.scanning ≠ none) (n : Nat) : ScanEnds s.beginRecovery (s.scannedTo n).state
    (s.scannedTo n).flagged (s.scannedTo n).finish := by
  have begun := s.begun
  have scan : s.beginRecovery.route.scanning ≠ none := by rw [begun.route]; exact hs
  have work : ScanWork (· = 4) s.beginRecovery (s.scannedTo n).state :=
    ScanWork.slots (raises := (· = 4)) (x := ⟨s.beginRecovery, [], []⟩) scan (ScanWork.refl _ _) rfl (List.range n)
  refine ⟨work, State.finished (work.scanning ▸ scan) ?_⟩
  exact (congrArg Segments.leaving work.recounted.segments).trans begun.leaving

namespace ScanEnds

variable {b r : State} {flagged : List TamperEntry} (h : ScanEnds b r flagged u)
include h

theorem route : u.route = { r.route with scanFailures := u.route.scanFailures } := h.finish.work.route

theorem state : u.route.state = b.route.state := (congrArg Route.state h.route).trans h.scan.routeState

theorem quiet : Quiet b { u with route := b.route } :=
  Quiet.trans (h.scan.quiet.withTamper (x := { r.tamper with entries := flagged.take Config.tamperEntries }) rfl rfl)
    (h.finish.work.quiet.set_route b.route)

theorem judging (hr : u.route.state ≠ .opened) :
    Judging (r.withTamper { r.tamper with entries := flagged.take Config.tamperEntries }) u :=
  h.finish.judging (by rw [h.state, ← h.scan.routeState] at hr; exact hr)

/-- The route as the beginning took it, but for the scan's counts. -/
theorem routeKept : u.route = { b.route with
    scanOccupied := u.route.scanOccupied, scanFailures := u.route.scanFailures
    scanCut := u.route.scanCut, scanDiscarded := u.route.scanDiscarded } := by
  rw [h.route, h.scan.route]

/-! What the scan has ended with -/

theorem slots : u.endScan.directory.map (·.1) = r.directory.map (·.1) := h.finish.work.slots

theorem endState : u.endScan.route.state = b.route.state := h.state

theorem inactive : u.endScan.segments.active = none := h.finish.inactive

/-- On a route that is not OPEN the finish writes the segment unit alone. -/
theorem unopened (hr : u.endScan.route.state ≠ .opened) : u.endScan.directory = r.directory ∧
    u.endScan.store = r.store ∧ u.endScan.tamper.entries = flagged.take 128 ∧
    u.endScan.route.scanFailures = r.route.scanFailures := by
  have told := (h.judging hr).told.same
  have route : u.route = r.route := by rw [told]; rfl
  exact ⟨by rw [State.endScan_directory, told]; rfl, by rw [State.endScan_store, told]; rfl,
    by rw [State.endScan_tamper, told]; rfl, (congrArg Route.scanFailures route :)⟩

theorem counts : u.endScan.route.scanOccupied = r.route.scanOccupied ∧
    u.endScan.route.scanCut = r.route.scanCut ∧ u.endScan.route.scanDiscarded = r.route.scanDiscarded :=
  ⟨(congrArg Route.scanOccupied h.route :), (congrArg Route.scanCut h.route :), (congrArg Route.scanDiscarded h.route :)⟩

/-- The plan lists the UNVISITED and the REDRIVE segments. -/
theorem plan (n : Seg) : n ∈ u.endScan.segments.plan ↔
    (u.endScan.segment n).state = .unvisited ∨ (u.endScan.segment n).state = .redrive :=
  (h.finish.planned.plan n).trans (by simp [Segment.planned, State.endScan_segment])

theorem agrees (hr : u.endScan.route.state = .opened ∨ u.endScan.route.state = .closed) (n : Seg) :
    (u.endScan.segment n).Agrees :=
  h.finish.agrees (by
    have state : u.endScan.route.state = r.route.state := h.state.trans h.scan.routeState.symm
    rw [state] at hr
    exact hr) n

/-- An event that neither the slots' scan nor the finish raises. -/
theorem bit {k : Nat} (h0 : k ≠ 0) (h1 : k ≠ 1) (h4 : k ≠ 4) (h9 : k ≠ 9) :
    u.endScan.events.pending.getLsbD k = b.events.pending.getLsbD k :=
  (u.endScan_bit h9).trans ((h.finish.work.events k (by simp [FinishRaises, h0, h1, h4])).trans (h.scan.events k h4))

theorem newFlag (hr : u.endScan.route.state ≠ .opened) :
    u.endScan.events.pending.getLsbD 0 = b.events.pending.getLsbD 0 :=
  (u.endScan_bit (by decide)).trans (((h.judging hr).events 0 (by decide)).trans (h.scan.events 0 (by decide)))

theorem segmentDone (hr : u.endScan.route.state ≠ .opened) (hc : u.endScan.route.state ≠ .closed) :
    u.endScan.events.pending.getLsbD 1 = b.events.pending.getLsbD 1 := by
  have state : u.endScan.route.state = r.route.state := h.state.trans h.scan.routeState.symm
  rw [state] at hr hc
  have silent := congrArg (·.pending.getLsbD 1) (h.finish.silent hr hc)
  exact (u.endScan_bit (by decide)).trans (silent.trans (h.scan.events 1 (by decide)))

/-- The route, its header and its clock come from the route area. -/
theorem loaded (begun : Begun s b) : u.endScan.route.header = headerOfItem (s.mem.item 1) ∧
    u.endScan.route.clock = wordAt (s.mem.item 4) 0 ∧
    u.endScan.route.state = RouteState.ofByte (byteAt (s.mem.item 2) 0) ∧
    u.endScan.assessment = u.endScan.route.header.map Header.assessment ∧
    u.endScan.route.lastStart = s.route.lastStart ∧ u.endScan.route.openFailures = s.route.openFailures := by
  have route := h.routeKept
  rw [begun.route] at route
  have header := congrArg Route.header route
  refine ⟨header, (congrArg Route.clock route :), (congrArg Route.state route :), ?_, (congrArg Route.lastStart route :),
    (congrArg Route.openFailures route :)⟩
  exact (h.quiet.assessment.trans begun.assessment).trans (congrArg (Option.map Header.assessment) header.symm)

theorem outside (begun : Begun s b) : u.endScan.ports = s.ports ∧ u.endScan.depot = s.depot ∧
    u.endScan.power = s.power ∧ u.endScan.pending = s.pending ∧ u.endScan.tamper.cabMode = s.tamper.cabMode ∧
    u.endScan.tamper.invert = s.tamper.invert ∧ u.endScan.events.enabled = s.events.enabled := by
  have kept := h.quiet
  exact ⟨kept.ports.trans begun.ports, kept.depot.trans begun.depot, kept.power.trans begun.power,
    kept.pending.trans begun.pending, kept.cabMode.trans begun.cabMode, kept.invert.trans begun.invert,
    kept.enabled.trans (congrArg Events.enabled begun.events)⟩

end ScanEnds

theorem Scan.slots_of_empty (hs : s.route.scanning ≠ none) (h : s.beginRecovery.route.state = .empty) (n : Nat) :
    (s.scannedTo n).state.directory = [] := by
  have begun := s.begun
  have scan : s.beginRecovery.route.scanning ≠ none := by rw [begun.route]; exact hs
  exact (Scan.slots_empty (x := ⟨s.beginRecovery, [], []⟩) scan h _).trans begun.directory

end Sys2Proof.Machine
end

