-- ==== Sys2Proof/Proofs/Recovered.lean ====
section
/-! PROOF. The RECOVERY scan: each slot's outcome, and what the scan ends with (O60). -/

namespace Sys2Proof.Machine

variable {s : State} {slot : Nat} {x : Scan} {read : SlotRead}

theorem HasRead.listed_of_kept (kept : read.New s ∨ ∃ earlier, read.Swapped s x.failed earlier) : read.Listed := by
  rcases kept with new | ⟨_, swapped⟩
  · exact new.1
  · exact swapped.1

/-- Settles O60. The slots: what the scan reads of a slot decides its case, and a record kept is entered from the state
in which it was read, the earlier slot of a swap dismissed first. The whole: the finish leaves what the slots' scan has
left but for the segment unit, in which the plan and the states agree, and in OPEN for the segments that it leaves. -/
theorem routesAreRecovered : Obligations.RoutesAreRecovered := by
  unfold Obligations.RoutesAreRecovered
  refine ⟨fun x slot hok hs scan failed => ?_, ?_⟩
  · have hr := Scan.hasRead (slot := slot) hok hs scan failed
    intro read bytes serial y s t listed new swapped kept stands discarded
    have hr : HasRead x slot read.1 s := hr
    have stand : ∀ {z place chain c serial'}, Entering x z slot read.1 s → Entered z.state t slot serial' place chain c →
        stands place chain := fun he e =>
      have st := he.stands hr.scanning e
      ⟨st.entry, st.ofNew, st.ofSwapped⟩
    refine ⟨hr.unlisted, hr.occupied, fun l empty absent => ?_, fun earlier l live known other absent => ?_,
      fun earlier sw => ?_, fun n room => ?_, fun n good => ?_, ?_, fun named kept good hc => ?_, fun r kept good hc => ?_⟩
    · have gone := hr.discarding_empty l empty
      exact ⟨gone.discards absent, gone.segments⟩
    · obtain ⟨gone, failed, flagged⟩ := hr.repeated l live known other
      exact ⟨gone.discards absent, gone.segments, failed, flagged, gone.mem⟩
    · obtain ⟨gone, failed⟩ := hr.discards_swapped sw
      exact ⟨gone, failed, hr.lookup_swapped sw⟩
    · exact hr.lookup_new n room
    · exact (hr.enters (hr.entering_new n) n.1).2 good
    · intro named segment n bad
      have he := hr.entering_new n
      obtain ⟨entered, event, counted, failed, flagged⟩ := hr.fails he bad (State.faultSegment_eq named s)
      exact ⟨entered.cached, stand he entered, event, counted, failed, flagged⟩
    · intro segment
      obtain ⟨z, he⟩ := hr.entering kept
      obtain ⟨entered, -, flagged⟩ := hr.keeps_fault he good (HasRead.listed_of_kept kept) hc
      rw [State.faultSegment_eq] at entered
      exact ⟨entered.cached, stand he entered, flagged⟩
    · intro placed settled walk
      obtain ⟨z, he⟩ := hr.entering kept
      obtain ⟨entered, used, cut, -, flagged⟩ := hr.keeps_live he good (HasRead.listed_of_kept kept) hc
        (State.recovered_eq r s) (walk := walk) rfl
      have list : y.flagged = if settled.status = .flagged ∧ !settled.marks.acknowledged
          then insertRanked (settled.tamperEntry slot) x.flagged else x.flagged := flagged
      refine ⟨entered.cached, stand he entered, used, cut, fun status fresh => ?_, fun out => ?_⟩
      · rw [list, if_pos ⟨status, by rw [fresh]; rfl⟩]
        exact insertRanked_perm _ _
      · rw [list, if_neg]
        rintro ⟨status, fresh⟩
        rcases out with other | acknowledged
        · exact other status
        · rw [acknowledged] at fresh
          exact nomatch fresh
  · intro s hok hp hs hh hq
    generalize hx : (List.range 8192).foldl Scan.slot ⟨s.beginRecovery, [], []⟩ = x
    have scan : s.route.scanning ≠ none := by rw [hs]; exact nofun
    have begun := s.begun
    have hx : x = s.scannedTo 8192 := by rw [← hx]; unfold State.scannedTo; rfl
    have ends : ScanEnds s.beginRecovery x.state x.flagged x.finish := by
      have ends := State.scanEnds scan 8192
      rw [← hx] at ends
      exact ends
    have run : s.recover = x.finish.endScan := by rw [hx]; exact s.recover_eq
    have ok := hok.recover
    have counted := ok.levels_iff.1 (State.Levels.recover s)
    rw [run] at ok counted
    have empty : s.beginRecovery.route.state = .empty → x.state.directory = [] := fun e => by
      have none := Scan.slots_of_empty scan e 8192
      rw [← hx] at none
      exact none
    dsimp only
    refine ⟨begun.directory, rfl, hok.lookup_beginRecovery, x.finish.endScan, ?_, ok, ?_⟩
    · rw [execRecoveryScan_ready hp hs hh hq, run]
    · obtain ⟨occupied, cut, discarded⟩ := ends.counts
      obtain ⟨header, clock, state, assess, lastStart, failures⟩ := ends.loaded begun
      obtain ⟨ports, depot, power, pending, cabMode, invert, enabled⟩ := ends.outside begun
      have events : s.beginRecovery.events.pending = s.events.pending := by rw [begun.events]
      refine ⟨ends.slots, ends.unopened, counted, occupied, cut, discarded, ends.plan, ends.agrees, State.endScan_scanning _,
        State.endScan_done _, fun i h0 h1 h4 h9 => ?_, fun hr => ?_, fun hr hc => ?_, header, clock, state, assess,
        lastStart, failures, ends.inactive, ok.tamper.size, fun e => ?_, ports, depot, power.trans hp, pending,
        cabMode, invert, enabled⟩
      · rw [ends.bit h0 h1 h4 h9, events]
      · rw [ends.newFlag hr, events]
      · rw [ends.segmentDone hr hc, events]
      · have none := ends.slots
        rw [empty (ends.endState.symm.trans e)] at none
        exact List.map_eq_nil_iff.1 none

end Sys2Proof.Machine
end

