-- ==== Sys2Proof/Proofs/WrittenThrough.lean ====
section
/-! PROOF. The segment unit's write-through: an item of the route area is written where what it holds changes, and only
there (R113, R126); and the commands that set windows and the plan (R114, R127). -/

namespace Sys2Proof.Machine

variable {s t u : State} {n : Seg} {m m1 m2 : Memory}

/-! ### One item written where its contents change -/

/-- From `m` to `m'` item `j` has followed its contents from `x` to `x'`: as it was where these stand, else written. -/
def Memory.Follows {α : Type} [DecidableEq α] (m m' : Memory) (j : Nat) (f : α → List Byte) (x x' : α) : Prop :=
  m'.readItem j = if x' = x then m.readItem j else some (f x')

section Follows
variable {α : Type} [DecidableEq α] {f : α → List Byte} {j : Nat} {x x1 x2 : α}

theorem Memory.Follows.stands (h : m1.readItem j = m.readItem j) (hx : x1 = x) : m.Follows m1 j f x x1 := by
  unfold Memory.Follows
  rw [if_pos hx, h]

/-- Two changes in a row, of which the second does not take back the first. -/
theorem Memory.Follows.trans (h : m.Follows m1 j f x x1) (h1 : m1.Follows m2 j f x1 x2) (back : x2 = x → x1 = x) :
    m.Follows m2 j f x x2 := by
  unfold Memory.Follows at *
  rw [h1, h]
  by_cases same : x2 = x
  · rw [if_pos same, if_pos (back same), if_pos (same.trans (back same).symm)]
  · rw [if_neg same]
    split
    next stood => rw [if_neg (stood ▸ same), stood]
    · rfl

end Follows

/-! ### The changes of the segment unit, each on its own fields -/

theorem State.putSegment_active (n : Seg) (e : Segment) (s : State) :
    (s.putSegment n e).segments.active = s.segments.active := by rw [(State.putSegment_fields n e s).1]

theorem State.putSegment_plan (n : Seg) (e : Segment) (s : State) :
    (s.putSegment n e).segments.plan = s.segments.plan := by rw [(State.putSegment_fields n e s).1]

theorem State.putPlan_fields (plan : List Seg) (s : State) :
    (s.putPlan plan).segments = { s.segments with plan := plan } := by
  unfold State.putPlan
  split
  next same => rw [same]
  · rfl

theorem State.putPlan_active (plan : List Seg) (s : State) :
    (s.putPlan plan).segments.active = s.segments.active := by rw [State.putPlan_fields]

theorem State.putActive_fields (x : Option Seg) (s : State) :
    (s.putActive x).segments = { s.segments with active := x } := by
  unfold State.putActive
  split
  next same => rw [same]
  · rfl

theorem State.putActive_mem {x : Option Seg} (h : x ≠ s.segments.active) :
    (s.putActive x).mem = s.mem.writeItem 2 (stateItem s.route.state x) := by
  unfold State.putActive
  rw [if_neg h]
  rfl

theorem State.putActive_item (hm : s.mem.wf = true) (x : Option Seg) (j : Nat) : (s.putActive x).mem.readItem j =
    if j = 2 ∧ x ≠ s.segments.active then some (stateItem s.route.state x) else s.mem.readItem j := by
  by_cases same : x = s.segments.active
  · unfold State.putActive
    rw [if_pos same, if_neg fun h => h.2 same]
  · rw [State.putActive_mem same, Memory.readItem_writeItem hm (stateItem_length _ _)]
    simp [same]

/-! ### The route area as the segment unit's work leaves it (R113, R126) -/

/-- Work of the segment unit alone from `s` to `t`, with every item of the route area as its write-through leaves it. -/
structure Through (s t : State) : Prop where
  told : Told s t
  segment : s.mem.wf = true → ∀ n : Seg,
    s.mem.Follows t.mem (5 + n.val) id (segmentItem (s.segment n)) (segmentItem (t.segment n))
  plan : s.mem.wf = true → s.mem.Follows t.mem 3 planItem s.segments.plan t.segments.plan
  active : s.mem.wf = true → s.mem.Follows t.mem 2 (stateItem s.route.state) s.segments.active t.segments.active
  others : s.mem.wf = true → ∀ j, j ≠ 2 → j ≠ 3 → (∀ n : Seg, j ≠ 5 + n.val) → t.mem.readItem j = s.mem.readItem j

/-- From `x` to `t` the segment unit's work does not take back what it changed from `s` to `x`. -/
structure Onward (s x t : State) : Prop where
  segment : ∀ n, segmentItem (t.segment n) = segmentItem (s.segment n) →
    segmentItem (x.segment n) = segmentItem (s.segment n)
  plan : t.segments.plan = s.segments.plan → x.segments.plan = s.segments.plan
  active : t.segments.active = s.segments.active → x.segments.active = s.segments.active

namespace Through

theorem route (h : Through s t) : t.route = s.route := by rw [h.told.same]

theorem trans (h : Through s t) (h1 : Through t u) (onward : Onward s t u) : Through s u where
  told := h.told.trans h1.told
  segment hm n := (h.segment hm n).trans (h1.segment (h.told.mem.wf hm) n) (onward.segment n)
  plan hm := (h.plan hm).trans (h1.plan (h.told.mem.wf hm)) onward.plan
  active hm := (h.active hm).trans (by rw [← h.route]; exact h1.active (h.told.mem.wf hm)) onward.active
  others hm j h2 h3 h5 := (h1.others (h.told.mem.wf hm) j h2 h3 h5).trans (h.others hm j h2 h3 h5)

/-- Work that leaves record memory, and what the items hold. -/
theorem of_told (h : Told s t) (hm : t.mem = s.mem) (he : ∀ n, segmentItem (t.segment n) = segmentItem (s.segment n))
    (hp : t.segments.plan = s.segments.plan) (ha : t.segments.active = s.segments.active) : Through s t where
  told := h
  segment _ n := .stands (by rw [hm]) (he n)
  plan _ := .stands (by rw [hm]) hp
  active _ := .stands (by rw [hm]) ha
  others _ _ _ _ _ := by rw [hm]

theorem refl (s : State) : Through s s := .of_told (.refl s) rfl (fun _ => rfl) rfl rfl

theorem raise (s : State) (e : Event) : Through s (s.raise e) := .of_told (.raise s e) rfl (fun _ => rfl) rfl rfl

theorem setDwell (s : State) (x : Option Nat) : Through s (s.setDwell x) :=
  .of_told (.withSegments s _) rfl (fun _ => rfl) rfl rfl

theorem putSegment (s : State) (n : Seg) (e : Segment) : Through s (s.putSegment n e) where
  told := .putSegment s n e
  segment hm k := by
    unfold Memory.Follows
    rw [State.putSegment_item hm, State.putSegment_segment]
    by_cases own : k = n
    · subst own
      by_cases same : segmentItem e = segmentItem (s.segment k) <;> simp [same]
    · rw [if_neg own, if_pos rfl, if_neg fun h => own (Fin.ext (by omega))]
  plan hm := .stands (by rw [State.putSegment_item hm, if_neg (by omega)])
    (State.putSegment_plan n e s)
  active hm := .stands (by rw [State.putSegment_item hm, if_neg (by omega)])
    (State.putSegment_active n e s)
  others hm j _ _ h := by rw [State.putSegment_item hm, if_neg fun own => h n own.1]

theorem putPlan (s : State) (plan : List Seg) : Through s (s.putPlan plan) where
  told := .putPlan s plan
  segment hm k := .stands (by rw [State.putPlan_item hm, if_neg (by omega)]) (by rw [State.putPlan_segment])
  plan hm := by
    unfold Memory.Follows
    rw [State.putPlan_item hm, State.putPlan_plan]
    by_cases same : plan = s.segments.plan <;> simp [same]
  active hm := .stands (by rw [State.putPlan_item hm, if_neg (by omega)]) (s.putPlan_active plan)
  others hm j _ h _ := by rw [State.putPlan_item hm, if_neg fun own => h own.1]

theorem putActive (s : State) (x : Option Seg) : Through s (s.putActive x) where
  told := .putActive s x
  segment hm k := .stands (by rw [State.putActive_item hm, if_neg (by omega)]) (by rw [State.putActive_segment])
  plan hm := .stands (by rw [State.putActive_item hm, if_neg (by omega)]) (by rw [State.putActive_fields])
  active hm := by
    unfold Memory.Follows
    rw [State.putActive_item hm, State.putActive_fields]
    by_cases same : x = s.segments.active <;> simp [same]
  others hm j h _ _ := by rw [State.putActive_item hm, if_neg fun own => h own.1]

theorem raised (h : Through s t) (e : Event) : Through s (t.raise e) :=
  h.trans (raise t e) ⟨fun _ => id, id, id⟩

/-- A segment's entry and the plan put, which change different items. -/
theorem put (s : State) (n : Seg) (e : Segment) (plan : List Seg) : Through s ((s.putSegment n e).putPlan plan) :=
  (putSegment s n e).trans (putPlan _ plan) {
    segment := fun k same => by rwa [State.putPlan_segment] at same
    plan := fun _ => State.putSegment_plan n e s
    active := fun _ => State.putSegment_active n e s }

/-- Where one segment alone changes and the active number stands, memory has what the segment's change and the plan's
leave there. -/
theorem writtenThrough (h : Through s t) (others : ∀ k, k ≠ n → t.segment k = s.segment k)
    (active : t.segments.active = s.segments.active) :
    s.writtenThrough t.mem n (t.segment n) t.segments.plan := fun hm => by
  have item := h.segment hm n
  have plan := h.plan hm
  have state := h.active hm
  unfold Memory.Follows at item plan state
  refine ⟨fun changed => ?_, fun same => ?_, fun changed => ?_, fun same => ?_, fun j hj own h3 => ?_, h.told.mem.reads hm⟩
  · rw [item, if_neg changed]; rfl
  · rw [item, if_pos same]
  · rw [plan, if_neg changed]
  · rw [plan, if_pos same]
  · by_cases h2 : j = 2
    · rw [h2, state, if_pos active]
    by_cases segment : ∃ k : Seg, j = 5 + k.val
    · obtain ⟨k, rfl⟩ := segment
      have apart : k ≠ n := fun e => own (e ▸ rfl)
      have item := h.segment hm k
      unfold Memory.Follows at item
      rw [item, if_pos (by rw [others k apart])]
    · exact h.others hm j h2 h3 fun k e => segment ⟨k, e⟩

end Through

/-! ### Windows defined, and the plan moved (R114, R127) -/

theorem State.put_frame (n : Seg) (e : Segment) (plan : List Seg) (s : State) :
    ((s.putSegment n e).putPlan plan).segments.active = s.segments.active ∧
    ((s.putSegment n e).putPlan plan).events = s.events :=
  ⟨by rw [State.putPlan_active, State.putSegment_active],
    (State.putPlan_events plan _).trans (State.putSegment_fields n e s).2.2⟩

/-- A segment's entry and the plan put: of the 460 they and record memory change, as the write-through has it. -/
theorem State.put_spec (s : State) (n : Seg) (e : Segment) (plan : List Seg) :
    ∃ m, (s.putSegment n e).putPlan plan = { s with
        mem := m, segments := { s.segments with entries := s.segments.entries.set n.val e, plan := plan } } ∧
      s.writtenThrough m n e plan := by
  have through := Through.put s n e plan
  have segments : ((s.putSegment n e).putPlan plan).segments =
      { s.segments with entries := s.segments.entries.set n.val e, plan := plan } := by
    rw [State.putPlan_fields, (State.putSegment_fields n e s).1]
  obtain ⟨active, events⟩ := s.put_frame n e plan
  have own : ((s.putSegment n e).putPlan plan).segment n = e := by
    rw [State.putPlan_segment, State.putSegment_segment, if_pos rfl]
  have written := through.writtenThrough (n := n)
    (fun k apart => by rw [State.putPlan_segment, State.putSegment_segment, if_neg apart]) active
  rw [own, State.putPlan_plan] at written
  refine ⟨_, ?_, written⟩
  have same := through.told.same
  rwa [segments, events] at same

/-- A plan with segment `n` put before the first higher number (R114). -/
theorem planByNumber_eq (n : Seg) (plan : List Seg) : planByNumber n plan =
    plan.takeWhile (fun k => decide (k ≤ n)) ++ n :: plan.dropWhile (fun k => decide (k ≤ n)) := by
  induction plan with
  | nil => rfl
  | cons k ks ih =>
    rw [planByNumber]
    by_cases above : n < k
    · rw [if_pos above, List.takeWhile_cons_of_neg (by simpa using above),
        List.dropWhile_cons_of_neg (by simpa using above), List.nil_append]
    · rw [if_neg above, List.takeWhile_cons_of_pos (by simpa using above),
        List.dropWhile_cons_of_pos (by simpa using above), ih, List.cons_append]

theorem planWithout_eq (plan : List Seg) (n : Seg) : planWithout plan n = plan.filter fun k => k ≠ n :=
  List.filter_congr fun k _ => by simp [bne, beq_eq_decide]

/-- The state that a definition gives a segment: as it was, where it stays enabled or disabled (R114). -/
def Segment.redefined (e : Segment) (base limit dwell : Half) : Segment :=
  let is := decide (base.toNat ≤ limit.toNat)
  { e with
    base := base, limit := limit, dwell := dwell
    state := if e.enabled = is then e.state else if is then .unvisited else .disabled }

/-- The plan that a definition gives: segment `n` in it by its number, or out of it, or the plan as it was (R114). -/
def planRedefined (plan : List Seg) (n : Seg) (was is : Bool) : List Seg :=
  let without := plan.filter fun k => k ≠ n
  if was = is then plan
  else if is then without.takeWhile (fun k => decide (k ≤ n)) ++ n :: without.dropWhile (fun k => decide (k ≤ n))
  else without

theorem State.putPlan_self (s : State) : s.putPlan s.segments.plan = s := if_pos rfl

/-- A definition taken is a change of its segment's entry and of the plan (R114). -/
theorem State.define_eq (n : Seg) (base limit dwell : Half) (s : State) : s.define n base limit dwell =
    (s.putSegment n ((s.segment n).redefined base limit dwell)).putPlan
      (planRedefined s.segments.plan n (s.segment n).enabled (decide (base.toNat ≤ limit.toNat))) := by
  have window : Segment.enabled { s.segment n with base := base, limit := limit, dwell := dwell } =
      decide (base.toNat ≤ limit.toNat) := rfl
  have stands (e : Segment) : s.putSegment n e = (s.putSegment n e).putPlan s.segments.plan := by
    conv_lhs => rw [← State.putPlan_self (s.putSegment n e), State.putSegment_plan]
  unfold State.define Segment.redefined planRedefined
  dsimp only
  rw [window]
  cases (s.segment n).enabled <;> cases decide (base.toNat ≤ limit.toNat) <;> dsimp only
  · exact stands _
  · rw [planByNumber_eq, planWithout_eq]; rfl
  · rw [planWithout_eq]; rfl
  · exact stands _

/-- No enabled window shares a sequence number with the one defined (R114). -/
theorem no_overlap {base limit : Half}
    (apart : ∀ k : Seg, k ≠ n → base.toNat ≤ limit.toNat → (s.segment k).enabled = true →
      limit.toNat < (s.segment k).base.toNat ∨ (s.segment k).limit.toNat < base.toNat) :
    ((List.finRange 64).any fun k =>
      k != n && windowsOverlap { s.segment n with base := base, limit := limit } (s.segment k)) = false := by
  rw [List.any_eq_false]
  intro k _ overlap
  simp only [Bool.and_eq_true, bne_iff_ne, windowsOverlap, Segment.enabled, decide_eq_true_eq] at overlap
  obtain ⟨other, ⟨⟨enabled, its⟩, low⟩, high⟩ := overlap
  rcases apart k other enabled (by simpa [Segment.enabled] using its) with below | above <;> omega

theorem execSegmentDefine_taken {b : Byte} {base limit dwell : Half} (hs : s.serving) (hb : b.toNat = n.val)
    (loading : s.route.state = .loading) (hbase : base.toNat ≤ 4095) (hlimit : limit.toNat ≤ 4095)
    (apart : ∀ k : Seg, k ≠ n → base.toNat ≤ limit.toNat → (s.segment k).enabled = true →
      limit.toNat < (s.segment k).base.toNat ∨ (s.segment k).limit.toNat < base.toNat) :
    exec (.segmentDefine b base limit dwell) s = .next ((s.define n base limit dwell).reply .ok []) := by
  show execSegmentDefine b base limit dwell s = _
  unfold execSegmentDefine
  rw [State.serve_of_serving hs, if_neg (not_not.2 loading), segOfParam_of_toNat hb]
  dsimp only
  rw [if_neg (by omega), no_overlap apart]
  rfl

/-- The place of a segment put in a plan that does not hold it (R127). -/
theorem planPosition_planInsert (plan : List Seg) (p : Nat) (n : Seg) :
    planPosition (planInsert (planWithout plan n) p n) n = natByte (min p (planWithout plan n).length) := by
  have ahead : ∀ k ∈ (planWithout plan n).take p, (k == n) = false := fun k hk =>
    beq_eq_false_iff_ne.2 fun e => not_mem_planWithout plan n (List.mem_of_mem_take (i := p) (by rwa [e] at hk))
  have listed : n ∈ planInsert (planWithout plan n) p n := (mem_planInsert _ _ _ _).2 (.inl rfl)
  unfold planPosition
  rw [if_pos (by simpa using listed)]
  unfold planInsert
  rw [List.findIdx_append, List.findIdx_eq_length_of_false ahead, if_neg (Nat.lt_irrefl _), List.findIdx_cons,
    beq_self_eq_true, List.length_take]
  simp

/-- PLAN_MOVE re-admits an ABANDONED segment as REDRIVE, with a redrive count of 0 (R127). -/
def Segment.readmitted (e : Segment) : Segment :=
  if e.state = .abandoned then { e with state := .redrive, redrive := 0 } else e

theorem State.putSegment_same (s : State) (n : Seg) : s.putSegment n (s.segment n) = s := by
  obtain ⟨mem, segments⟩ := s.putSegment_self n
  have same := (Told.putSegment s n (s.segment n)).same
  rwa [mem, segments, (State.putSegment_fields n _ s).2.2] at same

theorem execPlanMove_taken {b p : Byte} (hs : s.serving) (hb : b.toNat = n.val)
    (route : s.route.state = .loading ∨ s.route.state = .opened)
    (state : (s.segment n).state = .unvisited ∨ (s.segment n).state = .redrive ∨ (s.segment n).state = .abandoned) :
    exec (.planMove b p) s = .next (((s.putSegment n (s.segment n).readmitted).putPlan
      (planInsert (planWithout s.segments.plan n) p.toNat n)).reply .ok
        [natByte (min p.toNat (planWithout s.segments.plan n).length)]) := by
  have allowed : ¬(s.route.state ≠ .loading ∧ s.route.state ≠ .opened) := by tauto
  show execPlanMove b p s = _
  unfold execPlanMove Segment.readmitted
  rw [State.serve_of_serving hs, if_neg allowed, segOfParam_of_toNat hb]
  dsimp only
  rcases state with e | e | e <;> rw [e] <;> dsimp only <;> rw [planPosition_planInsert]
  · rw [if_neg (by decide), State.putSegment_same]
  · rw [if_neg (by decide), State.putSegment_same]
  · rw [if_pos rfl]

/-- Settles O39: both commands are a change of one segment's entry and of the plan, whose write-through `put_spec`
says. -/
theorem windowsAndPlanAreSet : Obligations.WindowsAndPlanAreSet := by
  unfold Obligations.WindowsAndPlanAreSet
  intro s b n hs hb
  refine ⟨fun base limit dwell loading hbase hlimit apart => ?_, fun p route state => ?_⟩
  · intro was is without e plan
    obtain ⟨m, put, written⟩ := s.put_spec n e plan
    refine ⟨m, ?_, written⟩
    rw [execSegmentDefine_taken hs hb loading hbase hlimit apart, State.define_eq, ← put]
    rfl
  · intro e without plan
    obtain ⟨m, put, written⟩ := s.put_spec n e plan
    refine ⟨m, ?_, written⟩
    rw [execPlanMove_taken hs hb route state, planWithout_eq, ← put]
    rfl

end Sys2Proof.Machine
end

