-- ==== Sys2Proof/Proofs/Entering.lean ====
section
/-! PROOF. A segment entered, and a segment left when its walk is over: its entry and the plan put, then the active number
and the dwell compare (R120, R123). -/

namespace Sys2Proof.Machine

variable {s t z u : State} {n : Seg} {e : Segment} {plan : List Seg} {x : Option Seg} {target : Option Nat}

/-! ### A segment's entry and the plan, then the active number -/

/-- From `s` to `u` segment `n` has become `e`, the plan `plan`, the active number `x` and the dwell compare's target
`target`; of the 460 these, the events and the items of the route area that hold them alone may change. -/
structure Turned (s : State) (n : Seg) (e : Segment) (plan : List Seg) (x : Option Seg) (target : Option Nat)
    (u : State) : Prop where
  told : Told s u
  quiet : Quiet s u
  mem : s.segments.active ≠ x → ∃ m, s.writtenThrough m n e plan ∧
    u.mem = m.writeItem 2 (stateItem s.route.state x) ∧
    (s.mem.wf = true → u.mem.readItem 2 = some (stateItem s.route.state x) ∧
      (∀ j, j < 69 → j ≠ 2 → u.mem.readItem j = m.readItem j) ∧
      ∀ a, a < Config.routeBase → u.mem.read a = s.mem.read a)
  segment : ∀ k, u.segment k = if k = n then e else s.segment k
  plan : u.segments.plan = plan
  active : u.segments.active = x
  dwell : u.segments.dwellTarget = target

namespace Turned

theorem own (h : Turned s n e plan x target u) : u.segment n = e := by rw [h.segment, if_pos rfl]

theorem others (h : Turned s n e plan x target u) {k : Seg} (apart : k ≠ n) : u.segment k = s.segment k := by
  rw [h.segment, if_neg apart]

theorem records (h : Turned s n e plan x target u) : u.directory = s.directory ∧ u.store = s.store ∧
    u.tamper = s.tamper ∧ u.matching = s.matching := by
  rw [h.told.same]
  exact ⟨rfl, rfl, rfl, rfl⟩

/-- The active number and the dwell compare set, after the entry and the plan. -/
theorem of_moved (moved : Moved n e plan s z) (through : Through s z) (quiet : Quiet s z)
    (active : z.segments.active = s.segments.active) (x : Option Seg) (target : Option Nat) :
    Turned s n e plan x target ((z.putActive x).setDwell target) where
  told := through.told.trans ((Told.putActive z x).trans (Told.withSegments _ _))
  quiet := (quiet.putActive x).setDwell target
  segment k := (State.putActive_segment x k z).trans (moved.segment k)
  plan := by
    show (z.putActive x).segments.plan = plan
    rw [State.putActive_fields]
    exact moved.plan
  active := by
    show (z.putActive x).segments.active = x
    rw [State.putActive_fields]
  dwell := rfl
  mem changes := by
    have mem : (z.putActive x).mem = z.mem.writeItem 2 (stateItem s.route.state x) := by
      rw [State.putActive_mem (by rw [active]; exact changes.symm), through.route]
    have written := through.writtenThrough (n := n) (fun k apart => by rw [moved.segment, if_neg apart]) active
    have wf : s.mem.wf = true → z.mem.wf = true := through.told.mem.wf
    have item (hm : s.mem.wf = true) (j : Nat) := Memory.readItem_writeItem (wf hm) (i := 2)
      (stateItem_length s.route.state x) j
    rw [moved.segment, if_pos rfl, moved.plan] at written
    refine ⟨z.mem, written, mem, fun hm => ?_⟩
    show (z.putActive x).mem.readItem 2 = _ ∧ (∀ j, j < 69 → j ≠ 2 → (z.putActive x).mem.readItem j = _) ∧
      ∀ a, a < Config.routeBase → (z.putActive x).mem.read a = _
    have reads := (through.told.trans (Told.putActive z x)).mem.reads hm
    refine ⟨?_, fun j _ apart => ?_, reads⟩
    · rw [mem, item hm, if_pos rfl]
    · rw [mem, item hm, if_neg apart]

theorem put (s : State) (n : Seg) (e : Segment) (plan : List Seg) (x : Option Seg) (target : Option Nat) :
    Turned s n e plan x target ((((s.putSegment n e).putPlan plan).putActive x).setDwell target) :=
  .of_moved ((Moved.putSegment n e s).putPlan plan) (.put s n e plan) (((Quiet.refl s).putSegment n e).putPlan plan)
    (s.put_frame n e plan).1 x target

end Turned

theorem State.put_events (n : Seg) (e : Segment) (plan : List Seg) (x : Option Seg) (target : Option Nat) (s : State) :
    ((((s.putSegment n e).putPlan plan).putActive x).setDwell target).events = s.events :=
  (State.putActive_events x _).trans (s.put_frame n e plan).2

/-! ### A segment entered (R120) -/

theorem State.enter_eq (h : (s.segment n).state = .unvisited ∨ (s.segment n).state = .redrive ∨
    (s.segment n).state = .abandoned) : s.enter n = (((s.putSegment n { s.segment n with
      state := .active, visited := true, overrun := false, entryTime := some s.route.clock }).putPlan
        (planWithout s.segments.plan n)).putActive (some n)).setDwell
          (if 0 < (s.segment n).dwell.toNat then some (s.route.clock.toNat + (s.segment n).dwell.toNat) else none) := by
  unfold State.enter
  dsimp only
  rcases h with e | e | e <;> rw [e]

theorem State.enter_entered (h : (s.segment n).state = .unvisited ∨ (s.segment n).state = .redrive ∨
    (s.segment n).state = .abandoned) : s.entered n (s.enter n) := by
  rw [State.enter_eq h]
  have turned := Turned.put s n { s.segment n with
    state := .active, visited := true, overrun := false, entryTime := some s.route.clock }
    (planWithout s.segments.plan n) (some n)
    (if 0 < (s.segment n).dwell.toNat then some (s.route.clock.toNat + (s.segment n).dwell.toNat) else none)
  refine ⟨turned.quiet, State.put_events .., turned.records, turned.own, fun _ => turned.others, ?_, turned.active,
    turned.dwell, fun idle => ?_⟩
  · rw [turned.plan, planWithout_eq]
  · rw [turned.own, turned.plan]
    exact turned.mem idle

theorem State.enter_complete (h : (s.segment n).state = .complete) : s.enter n = s := by
  unfold State.enter
  dsimp only
  rw [h]

/-! ### A segment settled when its walk is over (R123) -/

/-- With nothing outstanding it is COMPLETE, and SEGMENT_DONE is raised. -/
theorem State.settleLeft_done (h : (s.segment n).outstanding = 0) :
    Turned s n { s.segment n with state := .complete } (planWithout s.segments.plan n) none none (s.settleLeft n) ∧
      (s.settleLeft n).events.pending = s.events.pending ||| 0x2 := by
  have moved := (Moved.putSegment n { s.segment n with state := .complete } s).putPlan (planWithout s.segments.plan n)
  have through := Through.put s n { s.segment n with state := .complete } (planWithout s.segments.plan n)
  have quiet := ((Quiet.refl s).putSegment n { s.segment n with state := .complete }).putPlan
    (planWithout s.segments.plan n)
  obtain ⟨active, events⟩ := s.put_frame n { s.segment n with state := .complete } (planWithout s.segments.plan n)
  unfold State.settleLeft
  dsimp only
  rw [if_pos h]
  generalize (s.putSegment n { s.segment n with state := .complete }).putPlan (planWithout s.segments.plan n) = z at *
  refine ⟨.of_moved (moved.raise .segmentDone) (through.raised .segmentDone) (quiet.raise .segmentDone) active none none,
    ?_⟩
  show ((z.raise .segmentDone).putActive none).events.pending = _
  rw [State.putActive_events]
  show z.events.pending ||| _ = _
  rw [events]
  rfl

section Outstanding
variable (h : (s.segment n).outstanding ≠ 0)
include h

/-- Beyond the redrive limit it is ABANDONED. -/
theorem State.settleLeft_abandoned (beyond : s.params.redriveLimit.toNat < min 7 ((s.segment n).redrive + 1)) :
    Turned s n { s.segment n with redrive := min 7 ((s.segment n).redrive + 1), state := .abandoned }
      (planWithout s.segments.plan n) none none (s.settleLeft n) ∧ (s.settleLeft n).events = s.events := by
  unfold State.settleLeft
  dsimp only
  rw [if_neg h, if_pos beyond]
  exact ⟨.put .., State.put_events ..⟩

/-- Within the redrive limit it is REDRIVE, in the plan at the redrive gap or at the tail. -/
theorem State.settleLeft_redrive (within : min 7 ((s.segment n).redrive + 1) ≤ s.params.redriveLimit.toNat) :
    Turned s n { s.segment n with redrive := min 7 ((s.segment n).redrive + 1), state := .redrive }
      (planInsert (planWithout s.segments.plan n)
        (min s.params.redriveGap.toNat (planWithout s.segments.plan n).length) n) none none (s.settleLeft n) ∧
      (s.settleLeft n).events = s.events := by
  unfold State.settleLeft
  dsimp only
  rw [if_neg h, if_neg (Nat.not_lt.2 within)]
  exact ⟨.put .., State.put_events ..⟩

end Outstanding

/-- However it is settled, no segment is active and the dwell compare is disarmed. -/
theorem State.settleLeft_turned (s : State) (n : Seg) : Turned s n ((s.settleLeft n).segment n)
    (s.settleLeft n).segments.plan none none (s.settleLeft n) := by
  have settled : ∃ e plan, Turned s n e plan none none (s.settleLeft n) := by
    by_cases done : (s.segment n).outstanding = 0
    · exact ⟨_, _, (State.settleLeft_done done).1⟩
    · rcases Nat.lt_or_ge s.params.redriveLimit.toNat (min 7 ((s.segment n).redrive + 1)) with beyond | within
      · exact ⟨_, _, (State.settleLeft_abandoned done beyond).1⟩
      · exact ⟨_, _, (State.settleLeft_redrive done within).1⟩
  obtain ⟨e, plan, turned⟩ := settled
  rw [turned.own, turned.plan]
  exact turned

/-! ### SEGMENT_ENTER and SEGMENT_LEAVE, case by case (R120, R124) -/

theorem State.slotsOf_eq (s : State) (n : Seg) :
    s.slotsOf n = (s.directory.filter fun e => e.2.segment = some n).map (·.1) := by
  have same : (s.directory.filter fun e => e.2.segment == some n) = s.directory.filter fun e => e.2.segment = some n :=
    List.filter_congr fun e _ => beq_eq_decide _ _
  unfold State.slotsOf
  rw [← same]

section Enter
variable {b : Byte} (hs : s.serving) (hb : b.toNat = n.val) (opened : s.route.state = .opened)
include hs hb opened

theorem execSegmentEnter_active (h : (s.segment n).state = .active) : exec (.segmentEnter b) s =
    .next (s.reply .ok ([SegState.active.code, 0xFF, 0xFF] ++ WalkCounts.none.bytes)) := by
  show execSegmentEnter b s = _
  unfold execSegmentEnter
  rw [State.serve_of_serving hs, if_neg (not_not.2 opened), segOfParam_of_toNat hb]
  dsimp only
  rw [if_neg (by simp [h]), if_pos h]

variable (enabled : (s.segment n).state ≠ .disabled) (idle : (s.segment n).state ≠ .active)
include enabled idle

theorem execSegmentEnter_alone (h : s.segments.active = none) : exec (.segmentEnter b) s =
    .next ((s.enter n).reply .ok ([((s.enter n).segment n).state.code, 0xFF, 0xFF] ++ WalkCounts.none.bytes)) := by
  show execSegmentEnter b s = _
  unfold execSegmentEnter
  rw [State.serve_of_serving hs, if_neg (not_not.2 opened), segOfParam_of_toNat hb]
  dsimp only
  rw [if_neg enabled, if_neg idle, h]

theorem execSegmentEnter_leaving {left : Seg} (h : s.segments.active = some left) :
    exec (.segmentEnter b) s = .next (s.leaveFrom left (some n)) := by
  show execSegmentEnter b s = _
  unfold execSegmentEnter
  rw [State.serve_of_serving hs, if_neg (not_not.2 opened), segOfParam_of_toNat hb]
  dsimp only
  rw [if_neg enabled, if_neg idle, h]

end Enter

section Leave
variable (hs : s.serving) (opened : s.route.state = .opened)
include hs opened

theorem execSegmentLeave_none (h : s.segments.active = none) :
    exec .segmentLeave s = .next (s.reply .ok ([0xFF, 0xFF, 0] ++ WalkCounts.none.bytes)) := by
  show execSegmentLeave s = _
  unfold execSegmentLeave
  rw [State.serve_of_serving hs, if_neg (not_not.2 opened), h]

theorem execSegmentLeave_leaving (h : s.segments.active = some n) :
    exec .segmentLeave s = .next (s.leaveFrom n none) := by
  show execSegmentLeave s = _
  unfold execSegmentLeave
  rw [State.serve_of_serving hs, if_neg (not_not.2 opened), h]

end Leave

/-! ### The walk with the engines beside it (R36, R122) -/

theorem BesideWalk.withSegments (h : BesideWalk s t) (x : Segments) : BesideWalk s (t.withSegments x) :=
  h.quiet_step ((Quiet.refl t).withSegments x)

/-- The walk is work beside both engines. -/
theorem BesideWalk.drivenWalk (s : State) (n : Seg) : BesideWalk s (s.drivenWalk n).1 := by
  have visits : ∀ (slots : List Nat) (x : State × WalkCounts), BesideWalk s x.1 → BesideWalk s
      (slots.foldl (fun x slot => State.visitBeside slot (State.settleSlot .command slot) x) x).1 := fun slots => by
    induction slots with
    | nil => exact fun _ h => h
    | cons slot slots ih =>
      exact fun x h => ih _ ((BesideWalk.kept s).visitBeside (fun _ h => h.settleSlot .command slot) h)
  exact ((BesideWalk.kept s).beside (visits (s.slotsOf n)
    (s.withSegments { s.segments with leaving := some n }, WalkCounts.none)
    ((BesideWalk.refl s).withSegments _))).withSegments _

theorem State.tenthWaits_iff (s : State) : s.tenthWaits = true ↔
    s.pending.head? = some .routeClockTick ∨ s.pending.head? = some .dwellCompareExpire := by
  unfold State.tenthWaits
  split
  next front => simp [front]
  next front => simp [front]
  next tick expire =>
    refine iff_of_false (by simp) ?_
    cases front : s.pending with
    | nil => simp
    | cons c rest =>
      rintro (e | e)
      · exact tick rest (by rw [front]; cases e; rfl)
      · exact expire rest (by rw [front]; cases e; rfl)

/-- The end of a leave walk answers the command that makes it. -/
theorem State.left_responding (n : Seg) (entering : Option Seg) (x : State × WalkCounts) :
    (State.left n entering x).command.unit = .responding := by
  cases entering <;> simp [State.left, State.reply, State.respond]

/-- Settles O40: the cases of SEGMENT_ENTER, with what a segment entered leaves by `enter_entered`. -/
theorem segmentsAreEntered : Obligations.SegmentsAreEntered := by
  unfold Obligations.SegmentsAreEntered
  intro s b n hs hb opened
  refine ⟨fun none fresh => ?_, fun none complete => ?_, fun active => execSegmentEnter_active hs hb opened active,
    fun left active other idle enabled => ?_⟩
  · have entered := State.enter_entered fresh
    refine ⟨_, entered, ?_⟩
    rw [execSegmentEnter_alone hs hb opened (by rcases fresh with e | e | e <;> simp [e])
      (by rcases fresh with e | e | e <;> simp [e]) none, entered.entry]
    rfl
  · rw [execSegmentEnter_alone hs hb opened (by simp [complete]) (by simp [complete]) none,
      State.enter_complete complete, complete]
    rfl
  · have leaves := execSegmentEnter_leaving hs hb opened enabled idle active
    refine ⟨?_, fun tick expire => ⟨.drivenWalk s left, ?_⟩, fun walked => ?_⟩
    · rw [leaves, ← State.slotsOf_eq]
      rfl
    · have unmet : s.tenthWaits = false := Bool.eq_false_iff.2 fun met =>
        (s.tenthWaits_iff.1 met).elim tick expire
      rw [leaves, State.leaveFrom_whole left (some n) unmet]
    · intro x data
      have answer : State.left left (some n) walked = (x.enter n).reply .ok
          (((x.enter n).segment n).state.code :: data) := by
        simp only [data, List.append_assoc]
        rfl
      refine ⟨State.settleLeft_inactive _ _, fun fresh => ?_, fun complete => ?_⟩
      · have entered := State.enter_entered fresh
        refine ⟨_, entered, ?_⟩
        rw [answer, entered.entry]
        rfl
      · rw [answer, State.enter_complete complete, complete]
        rfl

end Sys2Proof.Machine
end

