-- ==== Sys2Proof/Proofs/Leaving.lean ====
section
/-! PROOF. A leave walk with nothing beside it, and one that a row of time may meet (R121, R122, R125). -/

namespace Sys2Proof.Machine

variable {s t : State} {n : Seg}

/-! ### A walk that no engine works beside (R122) -/

/-- No frame is in hand and none waits, and no batch is in the middle of its forming or about to be formed. -/
structure State.Alone (s : State) : Prop where
  inHand : s.matching.inHand = none
  ports : ∀ p, (s.port p).buffer = []
  forming : s.depot.forming = none
  front : s.pending.head? ≠ some .batchForm

namespace State.Alone

theorem quiet (h : s.Alone) (q : Quiet s t) : t.Alone where
  inHand := (congrArg Matching.inHand q.matching).trans h.inHand
  ports p := by
    unfold State.port
    rw [q.ports]
    exact h.ports p
  forming := by rw [q.depot]; exact h.forming
  front := by rw [q.pending]; exact h.front

theorem engineBusy (h : s.Alone) : s.engineBusy = false := by
  have waiting : s.nextPort = none := List.find?_eq_none.2 fun p _ => by simp [h.ports]
  unfold State.engineBusy
  rw [h.inHand, waiting]
  rfl

theorem uploadBusy (h : s.Alone) : s.uploadBusy = false := by
  have work : s.uploadWork = none := by
    unfold State.uploadWork
    rw [h.forming]
    split
    · split
      next forming => exact nomatch forming
      next front => exact absurd (congrArg List.head? front) h.front
      · rfl
    · rfl
  unfold State.uploadBusy
  rw [work]
  rfl

/-- The engines beside a walk do nothing. -/
theorem besideOn (h : s.Alone) (next : Option Nat) (k : Nat) :
    State.besideOn next (k + 1) Come.none s = (Come.none, s) := by
  have engine : s.engineComes false = (false, s) := by
    unfold State.engineComes
    rw [h.engineBusy]
    rfl
  have upload : s.uploadComes false = (false, s) := by
    unfold State.uploadComes
    rw [h.uploadBusy]
    rfl
  rw [State.besideOn]
  unfold Come.none
  dsimp only
  rw [engine]
  dsimp only
  rw [upload]
  rfl

theorem beside (h : s.Alone) : s.beside = s := congrArg Prod.snd (h.besideOn none _)

theorem visitBeside (h : s.Alone) {α : Type} (slot : Nat) (visit : State × α → State × α) (w : α) :
    State.visitBeside slot visit (s, w) = visit (s, w) := by
  unfold State.visitBeside
  dsimp only
  rw [State.besideSteps, h.besideOn]
  rfl

/-- The walk is its visits. -/
theorem visits (slots : List Nat) {x : State × WalkCounts} (h : x.1.Alone) :
    slots.foldl (fun x slot => State.visitBeside slot (State.settleSlot .command slot) x) x =
        slots.foldl (fun x slot => State.settleSlot .command slot x) x ∧
      (slots.foldl (fun x slot => State.settleSlot .command slot x) x).1.Alone := by
  induction slots generalizing x with
  | nil => exact ⟨rfl, h⟩
  | cons slot slots ih =>
    have visited := h.quiet (Quiet.settleSlot .command slot (Quiet.refl x.1))
    obtain ⟨same, alone⟩ := ih visited
    rw [List.foldl_cons, List.foldl_cons, h.visitBeside slot _ x.2]
    exact ⟨same, alone⟩

theorem drivenWalk (h : s.Alone) (n : Seg) :
    let walked := (s.slotsOf n).foldl (fun x slot => State.settleSlot .command slot x)
      (s.withSegments { s.segments with leaving := some n }, WalkCounts.none)
    s.drivenWalk n = (walked.1.withSegments { walked.1.segments with leaving := none }, walked.2) := by
  have begun : (s.withSegments { s.segments with leaving := some n }).Alone := h.quiet ((Quiet.refl s).withSegments _)
  obtain ⟨same, alone⟩ := visits (s.slotsOf n)
    (x := (s.withSegments { s.segments with leaving := some n }, WalkCounts.none)) begun
  unfold State.drivenWalk
  dsimp only
  rw [same, alone.beside]

end State.Alone

/-- The walk keeps the bounds. -/
theorem State.Ok.drivenWalk (h : s.Ok) (n : Seg) : (s.drivenWalk n).1.Ok := by
  have visits : ∀ (slots : List Nat) (x : State × WalkCounts), x.1.Ok →
      (slots.foldl (fun x slot => State.visitBeside slot (State.settleSlot .command slot) x) x).1.Ok := fun slots => by
    induction slots with
    | nil => exact fun _ h => h
    | cons slot slots ih => exact fun x h => ih _ (State.Ok.kept.visitBeside (fun _ h => h.settleSlot .command slot) h)
  have begun : (s.withSegments { s.segments with leaving := some n }).Ok :=
    h.withSegments ⟨h.segments.redrives, h.segments.plan⟩
  have walked := (visits (s.slotsOf n) (_, WalkCounts.none) begun).beside
  exact walked.withSegments ⟨walked.segments.redrives, walked.segments.plan⟩

/-! ### A walk that a row of time may meet (R125) -/

/-- The rest of a leave walk from its next visit on, no row of time coming first. -/
def State.walkOn (n : Seg) (entering : Option Seg) (counts : WalkCounts) : List Nat → State → State
  | [], s => State.left n entering (s.beside, counts)
  | slot :: rest, s =>
    State.leaveOn n entering rest (State.visitBeside slot (State.settleSlot .command slot) (s, counts))

section Met
variable (n : Seg) (entering : Option Seg) (slots : List Nat) (counts : WalkCounts)

theorem State.leaveOn_unmet (h : s.tenthWaits = false) :
    State.leaveOn n entering slots (s, counts) = State.walkOn n entering counts slots s := by
  have unmet : s.tenthMeets = (false, s) := by
    unfold State.tenthMeets
    rw [h]
    rfl
  cases slots <;> rw [State.leaveOn, unmet] <;> rfl

/-- A row of time that waits comes first, or it does not: a free value says so. -/
theorem State.leaveOn_met (h : s.tenthWaits = true) : State.leaveOn n entering slots (s, counts) =
    if Config.tenthFirst s.draws = true then
      (s.withDraws (s.draws + 1)).holdWalk ⟨n, slots.head?.getD Config.slots, counts, entering⟩
    else State.walkOn n entering counts slots (s.withDraws (s.draws + 1)) := by
  have met : s.tenthMeets = (Config.tenthFirst s.draws, s.withDraws (s.draws + 1)) := by
    unfold State.tenthMeets
    rw [h]
    rfl
  cases slots <;> rw [State.leaveOn, met] <;> rfl

theorem State.left_pending (x : State × WalkCounts) : (State.left n entering x).pending = x.1.pending := by
  have settled : ((x.1.withSegments { x.1.segments with leaving := none }).settleLeft n).pending = x.1.pending :=
    ((Quiet.refl (x.1.withSegments { x.1.segments with leaving := none })).settleLeft n).pending
  unfold State.left
  dsimp only
  generalize (x.1.withSegments { x.1.segments with leaving := none }).settleLeft n = y at settled
  cases entering with
  | none => exact settled
  | some k =>
    have entered : (y.enter k).pending = y.pending := ((Quiet.refl y).enter k).pending
    dsimp only
    generalize y.enter k = z at entered
    exact entered.trans settled

theorem State.leaveOn_pending (x : State × WalkCounts) : (State.leaveOn n entering slots x).pending = x.1.pending := by
  obtain ⟨y, next, met, walk, e⟩ | ⟨y, walk, e⟩ := (BesideWalk.kept x.1).leaveOn_cases (n := n) (entering := entering)
    slots (fun slot _ _ h => h.settleSlot .command slot) (BesideWalk.refl x.1)
  · rw [e]
    exact walk.beside.quiet.pending
  · rw [e, State.left_pending]
    exact walk.beside.quiet.pending

/-- A leave walk ends with its answer, or a row of time holds it and the segment is still ACTIVE. -/
theorem State.leaveOn_ends (walking : Walking n s) :
    (State.leaveOn n entering slots (s, counts)).command.unit = .responding ∨ s.tenthWaits = true ∧
      Walking n (State.leaveOn n entering slots (s, counts)) ∧ ∃ next met,
        (State.leaveOn n entering slots (s, counts)).command.unit = .executing (.leaving ⟨n, next, met, entering⟩) := by
  cases waits : s.tenthWaits with
  | false =>
    rw [State.leaveOn_whole n entering slots (s, counts) waits]
    exact .inl (State.left_responding _ _ _)
  | true =>
    obtain ⟨y, next, met, held, e⟩ | ⟨y, -, e⟩ := (Walking.kept n).leaveOn_cases (n := n) (entering := entering) slots
      (fun slot _ _ h => Walking.settleSlot .command slot h) (x := (s, counts)) walking
    · rw [e]
      exact .inr ⟨rfl, held.of rfl rfl, next, met, rfl⟩
    · rw [e]
      exact .inl (State.left_responding _ _ _)

end Met

end Sys2Proof.Machine
end

