-- ==== Sys2Proof/Proofs/SegmentReports.lean ====
section
/-! PROOF. What a report does to segments: the counters, completion and reopening, and the write-through (R115, R118,
R119). -/

namespace Sys2Proof.Machine

variable {s c x t : State} {n k : Seg} {old new : Option Place} {before : Nat}

/-! ### Counting (R115) -/

/-- Counts are in no item of the route area. -/
theorem Recounted.segmentItem (h : Recounted s t) (n : Seg) :
    segmentItem (t.segment n) = segmentItem (s.segment n) :=
  (congrArg Machine.segmentItem (h.entries n) :)

theorem State.countAt_mem (p : Option Place) (f : Nat → Nat) (s : State) : (s.countAt p f).mem = s.mem := by
  unfold State.countAt
  split
  next n status =>
    unfold State.putSegment
    dsimp only
    rw [if_pos]
    · rfl
    · exact (congrArg segmentItem (Segment.recount_uncounted (s.segment n) status.cls f) :)
  · rfl

theorem Recounted.plan (h : Recounted s t) : t.segments.plan = s.segments.plan := by rw [h.segments]

theorem Recounted.active (h : Recounted s t) : t.segments.active = s.segments.active := by rw [h.segments]

theorem Recounted.leaving (h : Recounted s t) : t.segments.leaving = s.segments.leaving := by rw [h.segments]

/-- The counters with a report's old place taken out and its new one put in. -/
def State.tallied (old new : Option Place) (s : State) : State := (s.countAt old (· - 1)).countAt new (· + 1)

theorem Recounted.tallied (old new : Option Place) (s : State) : Recounted s (s.tallied old new) :=
  (Recounted.countAt s old _).trans (Recounted.countAt _ new _)

theorem Through.tallied (old new : Option Place) (s : State) : Through s (s.tallied old new) :=
  .of_told ((Told.countAt s old _).trans (Told.countAt _ new _))
    ((State.countAt_mem new _ _).trans (State.countAt_mem old _ s)) (Recounted.tallied old new s).segmentItem
    (Recounted.tallied old new s).plan (Recounted.tallied old new s).active

/-! ### A segment completed or reopened (R118, R119) -/

/-- Segment `n` may be completed: no walk is on it, and it is neither DISABLED nor COMPLETE. -/
structure State.Completes (n : Seg) (s : State) : Prop where
  leaving : s.segments.leaving ≠ some n
  enabled : (s.segment n).state ≠ .disabled
  unfinished : (s.segment n).state ≠ .complete

/-- What a completion of segment `n` leaves. -/
structure Completed (n : Seg) (s t : State) : Prop where
  moved : Moved n { s.segment n with state := .complete } (planWithout s.segments.plan n) s t
  active : t.segments.active = if s.segments.active = some n then none else s.segments.active
  event : t.events.pending = s.events.pending ||| 0x2
  through : Through s t

theorem State.complete_stands (h : ¬s.Completes n) : s.complete n = s := by
  unfold State.complete
  split
  · rfl
  next apart =>
    rw [if_pos]
    by_contra other
    rw [not_or] at other
    exact h ⟨apart, other.1, other.2⟩

theorem State.complete_completed (h : s.Completes n) : Completed n s (s.complete n) := by
  have through := Through.put s n { s.segment n with state := .complete } (planWithout s.segments.plan n)
  have moved := (Moved.putSegment n { s.segment n with state := .complete } s).putPlan (planWithout s.segments.plan n)
  obtain ⟨active, events⟩ := s.put_frame n { s.segment n with state := .complete } (planWithout s.segments.plan n)
  unfold State.complete
  rw [if_neg h.leaving, if_neg (not_or.2 ⟨h.enabled, h.unfinished⟩)]
  generalize (s.putSegment n { s.segment n with state := .complete }).putPlan (planWithout s.segments.plan n) = z at *
  dsimp only
  rw [active]
  split
  next own =>
    have dropped : ((z.putActive none).setDwell none).segments.active = none := by
      show (z.putActive none).segments.active = none
      rw [State.putActive_fields]
    have stored : Through s ((z.putActive none).setDwell none) := by
      refine (through.trans (.putActive z none) ⟨fun k same => ?_, fun same => ?_, fun _ => active⟩).trans (.setDwell _ _)
        ⟨fun _ => id, id, id⟩
      · rwa [State.putActive_segment] at same
      · rwa [State.putActive_fields] at same
    refine ⟨((moved.putActive none).setDwell none).raise _, by rw [if_pos own]; exact dropped, ?_, stored.raised _⟩
    show (z.putActive none).events.pending ||| _ = _
    rw [State.putActive_events, events]
    rfl
  next other =>
    refine ⟨moved.raise _, by rw [if_neg other]; exact active, ?_, through.raised _⟩
    show z.events.pending ||| _ = _
    rw [events]
    rfl

/-- Segment `n` may be reopened: it is COMPLETE, on a route OPEN or CLOSED. -/
structure State.Reopens (n : Seg) (s : State) : Prop where
  complete : (s.segment n).state = .complete
  route : s.route.state = .opened ∨ s.route.state = .closed

/-- What a reopening of segment `n` leaves. -/
structure Reopened (n : Seg) (s t : State) : Prop where
  opened : s.route.state = .opened → Moved n { s.segment n with
    state := if (s.segment n).visited then .redrive else .unvisited } (planWithout s.segments.plan n ++ [n]) s t
  closed : s.route.state = .closed → Moved n { s.segment n with state := .abandoned } s.segments.plan s t
  active : t.segments.active = s.segments.active
  events : t.events = s.events
  through : Through s t

theorem State.reopen_stands (h : ¬s.Reopens n) : s.reopen n = s := by
  unfold State.reopen
  split
  next complete =>
    split
    next opened => exact absurd ⟨complete, .inl opened⟩ h
    next closed => exact absurd ⟨complete, .inr closed⟩ h
    · rfl
  · rfl

theorem State.reopen_reopened (h : s.Reopens n) : Reopened n s (s.reopen n) := by
  obtain ⟨complete, route⟩ := h
  have kept : (s.reopen n).segments.active = s.segments.active ∧ (s.reopen n).events = s.events ∧
      Through s (s.reopen n) := by
    unfold State.reopen
    rw [if_pos complete]
    rcases route with e | e <;> rw [e] <;> dsimp only
    · obtain ⟨active, events⟩ := s.put_frame n { s.segment n with
        state := if (s.segment n).visited then .redrive else .unvisited } (planWithout s.segments.plan n ++ [n])
      exact ⟨active, events, .put s n _ _⟩
    · obtain ⟨-, -, events⟩ := State.putSegment_fields n { s.segment n with state := .abandoned } s
      exact ⟨State.putSegment_active n _ s, events, .putSegment s n _⟩
  obtain ⟨active, events, through⟩ := kept
  exact ⟨fun opened => Moved.reopen_opened complete opened, fun closed => Moved.reopen_closed complete closed, active,
    events, through⟩

/-- A segment reopened is COMPLETE no longer, and the other ones are in the plan as they were. -/
theorem Reopened.state (h : Reopened n s t) (hr : s.Reopens n) :
    (t.segment n).state ≠ .complete ∧ ∀ k, k ≠ n → t.segment k = s.segment k ∧
      (k ∈ t.segments.plan ↔ k ∈ s.segments.plan) := by
  rcases hr.route with opened | closed
  · have moved := h.opened opened
    refine ⟨?_, fun k apart => ⟨by rw [moved.segment, if_neg apart], ?_⟩⟩
    · rw [moved.segment, if_pos rfl]
      dsimp only
      split <;> simp
    · rw [moved.plan, List.mem_append, mem_planWithout apart, List.mem_singleton]
      exact or_iff_left apart
  · have moved := h.closed closed
    refine ⟨?_, fun k apart => ⟨by rw [moved.segment, if_neg apart], by rw [moved.plan]⟩⟩
    rw [moved.segment, if_pos rfl]
    simp

/-! ### A judgement (R115) -/

theorem State.judge_done (h : before ≠ 0) (none : (s.segment n).outstanding = 0) :
    s.judge (some n) before = s.complete n := by
  unfold State.judge
  dsimp only
  rw [if_pos ⟨h, none⟩]

theorem State.judge_risen (h : before = 0) (some' : (s.segment n).outstanding ≠ 0) :
    s.judge (some n) before = s.reopen n := by
  unfold State.judge
  dsimp only
  rw [if_neg fun done => some' done.2, if_pos ⟨h, some'⟩]

theorem State.judge_still (h : before = 0 ↔ (s.segment n).outstanding = 0) : s.judge (some n) before = s := by
  unfold State.judge
  dsimp only
  rw [if_neg fun done => done.1 (h.2 done.2), if_neg fun risen => risen.2 (h.1 risen.1)]

/-- A judgement does nothing, or completes its segment, or reopens it. -/
theorem State.judge_cases (n : Seg) (before : Nat) (s : State) : s.judge (some n) before = s ∨
    (before ≠ 0 ∧ (s.segment n).outstanding = 0 ∧ s.Completes n ∧ Completed n s (s.judge (some n) before)) ∨
    (before = 0 ∧ (s.segment n).outstanding ≠ 0 ∧ s.Reopens n ∧ Reopened n s (s.judge (some n) before)) := by
  by_cases was : before = 0 <;> by_cases is : (s.segment n).outstanding = 0
  · exact .inl (State.judge_still (iff_of_true was is))
  · rw [State.judge_risen was is]
    by_cases reopens : s.Reopens n
    · exact .inr (.inr ⟨was, is, reopens, State.reopen_reopened reopens⟩)
    · exact .inl (State.reopen_stands reopens)
  · rw [State.judge_done was is]
    by_cases completes : s.Completes n
    · exact .inr (.inl ⟨was, is, completes, State.complete_completed completes⟩)
    · exact .inl (State.complete_stands completes)
  · exact .inl (State.judge_still (iff_of_false was is))

/-- A segment judged twice is judged once. -/
theorem State.judge_twice (n : Seg) (before : Nat) (s : State) :
    (s.judge (some n) before).judge (some n) before = s.judge (some n) before := by
  have count : ((s.judge (some n) before).segment n).outstanding = (s.segment n).outstanding :=
    State.judge_counts (some n) before n (some .outstanding) s
  rcases State.judge_cases n before s with e | ⟨was, is, -, completed⟩ | ⟨was, is, reopens, reopened⟩
  · rw [e, e]
  · rw [State.judge_done was (count.trans is)]
    refine State.complete_stands fun again => again.unfinished ?_
    rw [completed.moved.segment, if_pos rfl]
  · rw [State.judge_risen was (by rwa [count])]
    exact State.reopen_stands fun again => (reopened.state reopens).1 again.complete

theorem Through.judge (n : Option Seg) (before : Nat) (s : State) : Through s (s.judge n before) := by
  cases n with
  | none => exact .refl s
  | some n =>
    rcases State.judge_cases n before s with e | ⟨-, -, -, completed⟩ | ⟨-, -, -, reopened⟩
    · rw [e]
      exact .refl s
    · exact completed.through
    · exact reopened.through

/-- What a judgement of another segment leaves of segment `k`. -/
structure Spared (k : Seg) (s t : State) : Prop where
  segment : t.segment k = s.segment k
  plan : k ∈ t.segments.plan ↔ k ∈ s.segments.plan
  active : t.segments.active = some k ↔ s.segments.active = some k
  route : t.route = s.route
  raised : ∀ i, s.events.pending.getLsbD i = true → t.events.pending.getLsbD i = true

namespace Spared

theorem refl (k : Seg) (s : State) : Spared k s s := ⟨rfl, Iff.rfl, Iff.rfl, rfl, fun _ => id⟩

theorem trans (h : Spared k s c) (h1 : Spared k c t) : Spared k s t where
  segment := h1.segment.trans h.segment
  plan := h1.plan.trans h.plan
  active := h1.active.trans h.active
  route := h1.route.trans h.route
  raised i hi := h1.raised i (h.raised i hi)

theorem judge {n : Option Seg} (apart : n ≠ some k) (before : Nat) (s : State) : Spared k s (s.judge n before) := by
  cases n with
  | none => exact .refl k s
  | some n =>
    have apart : k ≠ n := fun e => apart (congrArg some e.symm)
    rcases State.judge_cases n before s with e | ⟨-, -, -, completed⟩ | ⟨-, -, reopens, reopened⟩
    · rw [e]
      exact .refl k s
    · refine ⟨by rw [completed.moved.segment, if_neg apart], ?_, ?_, completed.through.route, fun i hi => ?_⟩
      · rw [completed.moved.plan, mem_planWithout apart]
      · rw [completed.active]
        split
        next own => simp [own, Ne.symm apart]
        · rfl
      · rw [completed.event, BitVec.getLsbD_or, hi, Bool.true_or]
    · obtain ⟨segment, plan⟩ := (reopened.state reopens).2 k apart
      exact ⟨segment, plan, by rw [reopened.active], reopened.through.route, by rw [reopened.events]; exact fun _ => id⟩

end Spared

/-! ### The counters (R115) -/

theorem weight_eq (p : Option Place) (n : Seg) (k : Option Class) : weight p n k =
    if p.any (fun q => q.segment = some n ∧ (k.all fun c => q.status.cls == c) = true) then 1 else 0 := by
  unfold weight Place.counts
  simp only [Bool.decide_and, Bool.decide_eq_true, beq_eq_decide]

theorem weight_apart {p : Option Place} (h : p.bind (·.segment) ≠ some n) (k : Option Class) : weight p n k = 0 := by
  cases p with
  | none => rfl
  | some q =>
    have apart : q.segment ≠ some n := h
    unfold weight Place.counts
    simp [apart]

theorem State.report_tallied_count (old new : Option Place) (n : Seg) (k : Option Class) (s : State) :
    ((s.tallied old new).segment n).count k = ((s.report old new).segment n).count k := by
  unfold State.report
  dsimp only
  split
  · rfl
  · rw [State.judge_counts, State.judge_counts]
    rfl

theorem State.tallied_outstanding (old new : Option Place) (n : Seg) (s : State) :
    ((s.tallied old new).segment n).outstanding = ((s.report old new).segment n).outstanding :=
  State.report_tallied_count old new n (some .outstanding) s

/-- Outstanding records of a segment, as a report leaves them. -/
theorem State.report_outstanding (old new : Option Place) (n : Seg) (s : State) :
    ((s.report old new).segment n).outstanding = (s.segment n).outstanding - weight old n (some .outstanding) +
      weight new n (some .outstanding) := State.report_counts old new n (some .outstanding) s

/-! ### A report outside route scans (R115) -/

/-- A report after the counting and the judgement of its old place's segment. -/
def State.halfJudged (old new : Option Place) (s : State) : State :=
  (s.tallied old new).judge (old.bind (·.segment)) (s.outstandingAt (old.bind (·.segment)))

/-- A segment that the old place does not name is judged with the new place's, if with any. -/
theorem Spared.halfJudged (h : old.bind (·.segment) ≠ some n) (s : State) :
    Spared n (s.tallied old new) (s.halfJudged old new) := .judge h _ _

section Judged
variable (still : s.route.scanning = none)
include still

/-- It is the counting, and the judgement of the old place's segment and of the new one's. -/
theorem State.report_judged (old new : Option Place) : s.report old new =
    (s.halfJudged old new).judge (new.bind (·.segment)) (s.outstandingAt (new.bind (·.segment))) := by
  have off : ¬s.isScanning = true := by
    unfold State.isScanning
    simp [still]
  unfold State.report
  dsimp only
  rw [if_neg off]
  rfl

/-- A report between places of one segment judges that segment once. -/
theorem State.report_judged_once (ho : old.bind (·.segment) = some n) (hn : new.bind (·.segment) = some n) :
    s.report old new = s.halfJudged old new := by
  rw [State.report_judged still, hn]
  unfold State.halfJudged
  rw [ho]
  exact State.judge_twice n _ _

/-- A segment that the new place does not name, or the old one too, is judged with the old place's, if with any. -/
theorem Spared.report (h : new.bind (·.segment) = some n → old.bind (·.segment) = some n) :
    Spared n (s.halfJudged old new) (s.report old new) := by
  by_cases hn : new.bind (·.segment) = some n
  · rw [State.report_judged_once still (h hn) hn]
    exact .refl n _
  · rw [State.report_judged still]
    exact .judge hn _ _

/-- The segment of the new place is judged last, the other ones left as they were. -/
theorem State.report_judged_last (hn : new.bind (·.segment) = some n) : ∃ z, Spared n (s.tallied old new) z ∧
    s.report old new = z.judge (some n) (s.segment n).outstanding := by
  by_cases ho : old.bind (·.segment) = some n
  · refine ⟨s.tallied old new, .refl n _, ?_⟩
    rw [State.report_judged_once still ho hn]
    unfold State.halfJudged
    rw [ho]
    rfl
  · refine ⟨s.halfJudged old new, .halfJudged ho s, ?_⟩
    rw [State.report_judged still, hn]
    rfl

/-- A count of outstanding records that reaches 0 completes the segment (R118). -/
theorem State.report_completes (hn : (s.segment n).outstanding ≠ 0)
    (done : ((s.report old new).segment n).outstanding = 0) (completes : s.Completes n) :
    ((s.report old new).segment n).state = .complete ∧ n ∉ (s.report old new).segments.plan ∧
      (s.report old new).segments.active ≠ some n ∧ (s.report old new).events.pending.getLsbD 1 = true := by
  have counted := Recounted.tallied old new s
  have ho : old.bind (·.segment) = some n := by
    by_contra apart
    have left := s.report_outstanding old new n
    rw [weight_apart apart, done] at left
    omega
  have none : ((s.tallied old new).segment n).outstanding = 0 := by rw [State.tallied_outstanding, done]
  have ready : (s.tallied old new).Completes n :=
    ⟨by rw [counted.leaving]; exact completes.leaving, by rw [counted.state]; exact completes.enabled,
      by rw [counted.state]; exact completes.unfinished⟩
  have judged : s.halfJudged old new = (s.tallied old new).complete n := by
    unfold State.halfJudged
    rw [ho]
    exact State.judge_done hn none
  have completed := State.complete_completed ready
  rw [← judged] at completed
  have spared := Spared.report (old := old) (new := new) (n := n) still fun _ => ho
  refine ⟨?_, ?_, ?_, spared.raised 1 ?_⟩
  · rw [spared.segment, completed.moved.segment, if_pos rfl]
  · rw [spared.plan, completed.moved.plan]
    exact not_mem_planWithout _ _
  · rw [Ne, spared.active, completed.active]
    split <;> simp [*]
  · rw [completed.event, BitVec.getLsbD_or]
    simp

/-- A count that rises from 0 reopens a COMPLETE segment (R119). -/
theorem State.report_reopens (hn : (s.segment n).outstanding = 0)
    (risen : ((s.report old new).segment n).outstanding ≠ 0) (complete : (s.segment n).state = .complete) :
    (s.route.state = .opened → ((s.report old new).segment n).state =
        (if (s.segment n).visited then .redrive else .unvisited) ∧
      (s.report old new).segments.plan.getLast? = some n) ∧
    (s.route.state = .closed → ((s.report old new).segment n).state = .abandoned) := by
  have counted := Recounted.tallied old new s
  have named : new.bind (·.segment) = some n := by
    by_contra apart
    have left := s.report_outstanding old new n
    rw [weight_apart apart] at left
    omega
  obtain ⟨z, spared, judged⟩ := State.report_judged_last (old := old) still named
  have some' : (z.segment n).outstanding ≠ 0 := by
    rw [spared.segment]
    rwa [State.tallied_outstanding]
  have route : z.route = s.route := spared.route.trans (Through.tallied old new s).route
  have state : (z.segment n).state = .complete := by rw [spared.segment, counted.state, complete]
  have visited : (z.segment n).visited = (s.segment n).visited := by
    rw [spared.segment]
    exact (congrArg Segment.visited (counted.entries n) :)
  rw [judged, State.judge_risen hn some']
  refine ⟨fun opened => ?_, fun closed => ?_⟩
  · have moved := (State.reopen_reopened ⟨state, .inl (by rw [route, opened])⟩).opened (by rw [route, opened])
    rw [moved.segment, if_pos rfl, moved.plan, visited]
    exact ⟨rfl, List.getLast?_concat⟩
  · have moved := (State.reopen_reopened ⟨state, .inr (by rw [route, closed])⟩).closed (by rw [route, closed])
    rw [moved.segment, if_pos rfl]

/-- A segment whose count neither reaches 0 nor rises from 0 stands, in the plan as it was. -/
theorem State.report_stands (h : (s.segment n).outstanding = 0 ↔ ((s.report old new).segment n).outstanding = 0) :
    ((s.report old new).segment n).state = (s.segment n).state ∧
      (n ∈ (s.report old new).segments.plan ↔ n ∈ s.segments.plan) := by
  have counted := Recounted.tallied old new s
  rw [← State.tallied_outstanding] at h
  have spared : Spared n (s.tallied old new) (s.report old new) := by
    have half : Spared n (s.tallied old new) (s.halfJudged old new) := by
      by_cases ho : old.bind (·.segment) = some n
      · have same : s.halfJudged old new = s.tallied old new := by
          unfold State.halfJudged
          rw [ho]
          exact State.judge_still h
        rw [same]
        exact .refl n _
      · exact .halfJudged ho s
    by_cases hn : new.bind (·.segment) = some n
    · have same : s.report old new = s.halfJudged old new := by
        rw [State.report_judged still, hn]
        exact State.judge_still (by rw [half.segment]; exact h)
      rw [same]
      exact half
    · exact half.trans (.report still fun named => absurd named hn)
  rw [spared.segment, spared.plan, counted.state, counted.plan]
  exact ⟨rfl, Iff.rfl⟩

/-- The judgement of the new place's segment takes nothing back: the old place's segment, if another, can only have been
completed. -/
theorem Onward.report (old new : Option Place) :
    Onward (s.tallied old new) (s.halfJudged old new) (s.report old new) := by
  cases ho : old.bind (·.segment) with
  | none =>
    have same : s.halfJudged old new = s.tallied old new := by
      unfold State.halfJudged
      rw [ho]
      rfl
    rw [same]
    exact ⟨fun _ _ => rfl, fun _ => rfl, fun _ => rfl⟩
  | some n =>
    by_cases hn : new.bind (·.segment) = some n
    · rw [State.report_judged_once still ho hn]
      exact ⟨fun _ => id, id, id⟩
    · have spared := Spared.report (old := old) (new := new) (n := n) still fun _ => ho
      have segment (k : Seg) : segmentItem ((s.report old new).segment k) = segmentItem ((s.tallied old new).segment k) →
          segmentItem ((s.halfJudged old new).segment k) = segmentItem ((s.tallied old new).segment k) := by
        by_cases own : k = n
        · rw [own, spared.segment]
          exact id
        · rw [(Spared.halfJudged (fun e => own (Option.some.inj (e.symm.trans ho))) s).segment]
          exact fun _ => rfl
      have judged : s.halfJudged old new = (s.tallied old new).judge (some n) (s.segment n).outstanding := by
        unfold State.halfJudged
        rw [ho]
        rfl
      have fewer : ((s.tallied old new).segment n).outstanding ≤ (s.segment n).outstanding := by
        rw [State.tallied_outstanding, State.report_outstanding, weight_apart hn]
        omega
      rcases State.judge_cases n (s.segment n).outstanding (s.tallied old new) with
        stands | ⟨-, -, -, completed⟩ | ⟨was, is, -, -⟩
      · rw [judged, stands] at segment ⊢
        exact ⟨segment, fun _ => rfl, fun _ => rfl⟩
      · rw [← judged] at completed
        refine ⟨segment, fun same => ?_, fun same => ?_⟩
        · have absent : n ∉ (s.tallied old new).segments.plan := by
            rw [← same, spared.plan, completed.moved.plan]
            exact not_mem_planWithout _ _
          rw [completed.moved.plan, planWithout_eq, List.filter_eq_self.2 fun k hk => ?_]
          exact decide_eq_true fun e : k = n => absent (e ▸ hk)
        · rw [completed.active, if_neg]
          intro own
          have dropped := spared.active.1 (same.trans own)
          rw [completed.active, if_pos own] at dropped
          cases dropped
      · omega

end Judged

theorem Through.report (s : State) (old new : Option Place) : Through s (s.report old new) := by
  by_cases still : s.route.scanning = none
  · have counted := Recounted.tallied old new s
    have judged : Through (s.tallied old new) (s.report old new) := by
      refine Through.trans (.judge _ _ _) ?_ (Onward.report still old new)
      rw [State.report_judged still]
      exact .judge _ _ _
    exact (Through.tallied old new s).trans judged
      ⟨fun n _ => counted.segmentItem n, fun _ => counted.plan, fun _ => counted.active⟩
  · rw [State.report_scanning still]
    exact .tallied old new s

/-- A report makes no segment active. -/
theorem State.report_active (s : State) (old new : Option Place) :
    (s.report old new).segments.active = s.segments.active ∨ (s.report old new).segments.active = none := by
  have kept : KeptBySegments fun t => t.segments.active = s.segments.active ∨ t.segments.active = none := {
    segments := fun _ _ hx h => hx.elim (fun e => by rwa [← e] at h) .inr
    item := fun _ _ _ _ _ h => h
    raise := fun _ _ h => h }
  exact kept.report (.inl rfl) old new

/-! ### SEGMENT_LEAVE (R121 to R124) -/

/-- The places of a report that count in a segment, by their classes. -/
theorem weight_class (p : Option Place) (n : Seg) (k : Class) : weight p n (some k) =
    if p.any (fun q => q.segment = some n ∧ q.status.cls = k) then 1 else 0 := by
  rw [weight_eq]
  simp only [Option.all_some, beq_iff_eq]

theorem weight_member (p : Option Place) (n : Seg) : weight p n none =
    if p.any (fun q => q.segment = some n ∧ true) then 1 else 0 := by
  rw [weight_eq]
  simp only [Option.all_none]

/-- Settles O42: the walk by `drivenWalk` and `leaveOn_ends`, its settling by `settleLeft_turned`, and a report by its
counters, `Through.report` and the judgements. -/
theorem segmentsAreLeft : Obligations.SegmentsAreLeft := by
  unfold Obligations.SegmentsAreLeft
  refine ⟨fun s hs opened => ⟨fun none => execSegmentLeave_none hs opened none, fun n active => ?_⟩,
    fun s n entering slots counts => ?_, fun walked n active opened => ?_, fun s old new => ?_⟩
  · intro slots begun visits w
    have leaves := execSegmentLeave_leaving hs opened active
    refine ⟨?_, fun tick expire => ?_, fun inHand ports forming front => ?_, .drivenWalk s n, State.drivenWalk_active active,
      fun ok => (ok.drivenWalk n).mem⟩
    · rw [leaves]
      simp only [slots, ← State.slotsOf_eq]
      rfl
    · have unmet : s.tenthWaits = false := Bool.eq_false_iff.2 fun met => (s.tenthWaits_iff.1 met).elim tick expire
      rw [leaves, State.leaveFrom_whole n none unmet]
    · have alone : s.Alone := ⟨inHand, ports, forming, front⟩
      simp only [w, visits, slots, ← State.slotsOf_eq]
      exact alone.drivenWalk n
  · intro waits drew t goesOn
    have rest (u : State) : goesOn u = State.walkOn n entering counts slots u := by
      simp only [goesOn]
      cases slots <;> rfl
    refine ⟨fun unmet => ?_, fun met => ?_, State.leaveOn_pending n entering slots (s, counts), fun active leaving => ?_⟩
    · rw [rest]
      exact State.leaveOn_unmet n entering slots counts (Bool.eq_false_iff.2 fun met => unmet (s.tenthWaits_iff.1 met))
    · rw [rest]
      exact State.leaveOn_met n entering slots counts (s.tenthWaits_iff.2 met)
    · rcases State.leaveOn_ends n entering slots counts ⟨leaving, active⟩ with answered | ⟨met, walking, held⟩
      · exact .inl answered
      · exact .inr ⟨s.tenthWaits_iff.1 met, walking.active, walking.leaving, held⟩
  · intro y e without redrive
    have turned := State.settleLeft_turned y n
    have idle : y.segments.active ≠ none := by
      show walked.1.segments.active ≠ none
      rw [active]
      exact nofun
    have state : stateItem y.route.state none = [0x03, 0xFF] := by
      show stateItem walked.1.route.state none = _
      rw [opened]
      rfl
    obtain ⟨directory, store, tamper, matching⟩ := turned.records
    obtain ⟨m, written, mem, reads⟩ := turned.mem idle
    rw [state] at mem reads
    refine ⟨y.settleLeft n, turned.quiet, turned.active, turned.dwell, fun k => turned.others, directory, store, tamper,
      matching, ⟨m, written, mem, reads⟩, fun none => ?_, fun some' => ?_, ?_⟩
    · obtain ⟨done, event⟩ := State.settleLeft_done none
      exact ⟨done.own, done.plan.trans (planWithout_eq _ _), event⟩
    · refine ⟨?_, fun beyond => ?_, fun within => ?_⟩
      · rcases Nat.lt_or_ge y.params.redriveLimit.toNat redrive with beyond | within
        · exact (State.settleLeft_abandoned some' beyond).2
        · exact (State.settleLeft_redrive some' within).2
      · obtain ⟨abandoned, -⟩ := State.settleLeft_abandoned some' beyond
        exact ⟨abandoned.own, abandoned.plan.trans (planWithout_eq _ _)⟩
      · obtain ⟨again, -⟩ := State.settleLeft_redrive some' within
        refine ⟨again.own, again.plan.trans ?_⟩
        rw [planWithout_eq]
        rfl
    · simp only [List.append_assoc]
      rfl
  · intro t here moved
    have through := Through.report s old new
    refine ⟨fun n => ?_, fun hm => ⟨fun n => through.segment hm n, through.plan hm, ?_, ?_, ?_, through.told.mem.reads hm⟩,
      fun scan => ?_, fun still n => ?_⟩
    · have members : (t.segment n).members = moved n (fun _ => true) (s.segment n).members := by
        rw [show (t.segment n).members = _ from State.report_counts old new n none s, weight_member, weight_member]
        rfl
      have counted (k : Class) : (t.segment n).count (some k) = moved n (· = k) ((s.segment n).count (some k)) := by
        rw [State.report_counts, weight_class, weight_class]
        simp only [moved, here, decide_eq_true_eq]
      exact ⟨members, counted .outstanding, counted .done, counted .faulted⟩
    · refine Eq.trans (through.active hm) ?_
      split
      · rfl
      next changed =>
        rw [(State.report_active s old new).resolve_left changed]
        rfl
    · exact through.others hm 1 (by decide) (by decide) fun n => by omega
    · exact through.others hm 4 (by decide) (by decide) fun n => by omega
    · have recounted := Recounted.report scan old new
      exact ⟨State.report_events scan old new, recounted.plan, recounted.active, recounted.state⟩
    · exact ⟨fun hn done leaving enabled unfinished => State.report_completes still hn done ⟨leaving, enabled, unfinished⟩,
        State.report_reopens still, State.report_stands still⟩

end Sys2Proof.Machine
end

