-- ==== Sys2Proof/Proofs/Opening.lean ====
section
/-! PROOF. ROUTE_OPEN and the OPEN scan: the visits of the occupied slots, the segments settled, and the scan's end (R117,
R138). -/

namespace Sys2Proof.Machine

variable {a s t x : State} {n : Seg} {slot : Nat} {d : DirEntry}

/-! ### What a line taken leaves of the segment unit (R18) -/

/-- Where no record becomes FAULT the segment unit stands; where one does, it has been told of that. -/
theorem State.takeLine_segments (u : Holder) (slot : Nat) (s : State) :
    ((s.takeLine u slot).2 = false ∧ (s.takeLine u slot).1.segments = s.segments) ∨
    ∃ d, s.directory.get slot = some d ∧ (s.takeLine u slot).2 = true ∧ (s.takeLine u slot).1.segments =
      (s.report (some ⟨d.segment, d.status⟩) (some ⟨d.segment, .fault⟩)).segments := by
  cases hi : s.lineOf slot with
  | some i =>
    rw [State.takeLine_held u hi]
    exact .inl ⟨rfl, rfl⟩
  | none =>
    cases hq : (s.evict s.victim).queued slot with
    | some c =>
      rw [State.takeLine_queued u hi hq]
      exact .inl ⟨rfl, by simp⟩
    | none =>
      cases hc : checkHolds 64 ((s.evict s.victim).mem.slotBytes slot) with
      | true =>
        rw [State.takeLine_read u hi hq hc]
        exact .inl ⟨rfl, by simp [State.grant]⟩
      | false =>
        cases hd : s.directory.get slot with
        | none =>
          rw [State.takeLine_failed u hi hq hc, hd]
          refine .inl ⟨rfl, ?_⟩
          unfold State.becomeFault
          simp only [State.hold_frame, State.grant, State.grants_directory, State.evict_rest]
          rw [hd]
          simp
        | some d =>
          have faulted := State.takeLine_faulted u hi hq hc hd
          have alike : Alike s (((s.evict s.victim).grants u 1).hold u s.victim (some ⟨slot, false, .free⟩)) :=
            ⟨by simp, by simp, by simp⟩
          refine .inr ⟨d, rfl, by rw [State.takeLine_failed u hi hq hc, hd]; rfl, ?_⟩
          rw [faulted.segments]
          exact (alike.report _ _).segments

theorem State.takeLine_good_segments {u : Holder} (h : (s.takeLine u slot).2 = false) :
    (s.takeLine u slot).1.segments = s.segments := by
  rcases State.takeLine_segments u slot s with ⟨-, same⟩ | ⟨_, _, failed, _⟩
  · exact same
  · rw [h] at failed
    cases failed

/-- While a scan runs, a record of no segment that becomes FAULT changes nothing of the segment unit. -/
theorem State.takeLine_none_segments {u : Holder} (scan : s.route.scanning ≠ none) (hd : s.directory.get slot = some d)
    (none : d.segment = none) : (s.takeLine u slot).1.segments = s.segments := by
  rcases State.takeLine_segments u slot s with ⟨-, same⟩ | ⟨d', hd', -, told⟩
  · exact same
  · cases hd.symm.trans hd'
    rw [told, none, State.report_scanning scan]
    rfl

/-! ### A slot's visit, case by case (R138) -/

theorem State.openSlot_failed (h : (s.takeLine .scan slot).2 = true) : s.openSlot slot =
    ((s.takeLine .scan slot).1.withRoute { (s.takeLine .scan slot).1.route with
      openFailures := (s.takeLine .scan slot).1.route.openFailures + 1 }).letGo slot := by
  unfold State.openSlot
  dsimp only
  rw [if_pos h]

/-- A record visited is filed with the segment whose window holds its sequence. -/
theorem State.openSlot_live {r : Record} (good : (s.takeLine .scan slot).2 = false)
    (live : (s.takeLine .scan slot).1.cached slot = .live r) (hd : s.directory.get slot = some d) :
    ∃ t, s.openSlot slot = t.letGo slot ∧
      Filed (s.takeLine .scan slot).1 t slot d { r with segment := s.windowOf r.sequence } ∧
      t.cached slot = .live { r with segment := s.windowOf r.sequence } ∧ t.route = s.route := by
  have window : (s.takeLine .scan slot).1.windowOf r.sequence = s.windowOf r.sequence :=
    (Recounted.of_segments (State.takeLine_good_segments good)).windowOf _
  have route : (s.takeLine .scan slot).1.route = s.route := ((Quiet.refl s).takeLine .scan slot).route
  have listed : (s.takeLine .scan slot).1.directory.get slot = some d := by rw [(State.takeLine_live live).2, hd]
  obtain ⟨i, line⟩ := State.lineOf_of_cached (s := (s.takeLine .scan slot).1) (slot := slot) (by rw [live]; simp)
  unfold State.openSlot
  dsimp only
  rw [if_neg (by simp [good]), live]
  dsimp only
  rw [window]
  split
  next same =>
    have stands : { r with segment := s.windowOf r.sequence } = r := by rw [same]
    rw [stands]
    refine ⟨_, rfl, State.fileRecord_filed listed r, ?_, by simp [route]⟩
    rw [← live]
    exact State.cached_congr (by simp) slot
  · exact ⟨_, rfl, State.putRecord_filed listed _, (State.putRecord_line _ line).2, by simp [route]⟩

/-- A segment that the new place alone names counts the record in (R115). -/
theorem State.report_counted (scan : s.route.scanning ≠ none) {old : Option Place} (status : Status)
    (apart : old.bind (·.segment) ≠ some n) :
    (s.report old (some ⟨some n, status⟩)).segment n = (s.segment n).recount status.cls (· + 1) := by
  rw [State.report_scanning scan]
  unfold State.countAt
  dsimp only
  rw [State.putSegment_segment, if_pos rfl]
  exact congrArg (fun e : Segment => e.recount status.cls (· + 1)) (State.countAt_others apart _ s)

/-! ### The visits (R117, R138) -/

/-- Visits of the OPEN scan from `a` to `t`: they leave all that work on records leaves, but the scan's count of check
failures; of the segment unit the counts alone change; no event is raised but RECORD_FAULT; and the directory lists its
slots. -/
structure OpenWork (a t : State) : Prop where
  quiet : Quiet a { t with route := a.route }
  route : t.route = { a.route with openFailures := t.route.openFailures }
  recounted : Recounted a t
  events : ∀ i, i ≠ 4 → t.events.pending.getLsbD i = a.events.pending.getLsbD i
  slots : SameSlots a t

namespace OpenWork

theorem refl (a : State) : OpenWork a a := ⟨Quiet.refl a, rfl, .refl a, fun _ _ => rfl, rfl⟩

theorem trans (h : OpenWork a s) (h1 : OpenWork s t) : OpenWork a t where
  quiet := h.quiet.trans (h1.quiet.set_route a.route)
  route := by rw [h1.route, h.route]
  recounted := h.recounted.trans h1.recounted
  events i hi := (h1.events i hi).trans (h.events i hi)
  slots := h1.slots.trans h.slots

/-- Work that leaves the route controller too. -/
theorem of_scanWork (q : Quiet s t) (h : ScanWork (· = 4) s t) (slots : SameSlots s t) : OpenWork s t :=
  ⟨by rw [← q.route]; exact q, by rw [q.route], h.recounted, h.events, slots⟩

theorem letGo (h : OpenWork a s) (slot : Nat) : OpenWork a (s.letGo slot) :=
  h.trans (.of_scanWork ((Quiet.refl s).letGo slot) ((ScanWork.refl _ s).letGo slot) (.of_directory (by simp)))

section Scanning
variable (scan : s.route.scanning ≠ none)
include scan

theorem takeLine (slot : Nat) : OpenWork s (s.takeLine .scan slot).1 :=
  .of_scanWork ((Quiet.refl s).takeLine .scan slot) ((ScanWork.refl (· = 4) s).takeLine scan rfl .scan slot)
    (.takeLine .scan slot s)

theorem putRecord (slot : Nat) (r : Record) : OpenWork s (s.putRecord slot r) :=
  .of_scanWork ((Quiet.refl s).putRecord slot r) ((ScanWork.refl _ s).putRecord scan slot r) (.putRecord slot r s)

theorem fileRecord (slot : Nat) (r : Record) : OpenWork s (s.fileRecord slot r) := by
  refine .of_scanWork ((Quiet.refl s).fileRecord slot r) ?_ ?_ <;> unfold State.fileRecord <;> split
  · exact .refl _ s
  · exact ((ScanWork.refl _ s).withDirectory _).report scan _ _
  · exact rfl
  next d hd =>
    exact .of_set (x := ⟨.live r.status, r.segment, d.chain, r.batch.isSome⟩) hd (by simp)

theorem openSlot (slot : Nat) : OpenWork s (s.openSlot slot) := by
  have taken := takeLine scan slot
  have scan' : (s.takeLine .scan slot).1.route.scanning ≠ none := by rw [taken.route]; exact scan
  have failed (x : Half) : OpenWork s ((s.takeLine .scan slot).1.withRoute
      { (s.takeLine .scan slot).1.route with openFailures := x }) :=
    taken.trans ⟨Quiet.refl _, rfl, .of_segments rfl, fun _ _ => rfl, rfl⟩
  unfold State.openSlot
  dsimp only
  split
  · exact (failed _).letGo slot
  · split
    · split
      · exact (taken.trans (fileRecord scan' slot _)).letGo slot
      · exact (taken.trans (putRecord scan' slot _)).letGo slot
    · exact taken.letGo slot

theorem openSlots (slots : List Nat) : OpenWork s (slots.foldl State.openSlot s) := by
  induction slots generalizing s with
  | nil => exact .refl s
  | cons slot slots ih =>
    have visited := openSlot scan slot
    exact visited.trans (ih (by rw [visited.route]; exact scan))

end Scanning

end OpenWork

/-! ### The segments settled (R117) -/

/-- An enabled segment with nothing outstanding. -/
def Segment.bare (e : Segment) : Bool := e.enabled && e.outstanding == 0

theorem Segment.bare_iff (e : Segment) : e.bare = true ↔ e.enabled = true ∧ e.outstanding = 0 := by
  simp [Segment.bare]

/-- A segment's entry as the OPEN scan's settling leaves it. -/
def Segment.emptied (e : Segment) : Segment := if e.bare then { e with state := .complete } else e

theorem Segment.emptied_bare (e : Segment) : e.emptied.bare = e.bare := by
  unfold Segment.emptied
  split <;> rfl

theorem Segment.emptied_twice (e : Segment) : e.emptied.emptied = e.emptied := by
  unfold Segment.emptied
  split
  next bare => exact if_pos bare
  · rfl

/-- From `s` to `t` a row of segments has been settled: the bare ones are COMPLETE and out of the plan. -/
structure Emptied (s t : State) (row : List Seg) : Prop where
  through : Through s t
  quiet : Quiet s t
  segment : ∀ n, t.segment n = if n ∈ row then (s.segment n).emptied else s.segment n
  plan : t.segments.plan = s.segments.plan.filter fun n => !(decide (n ∈ row) && (s.segment n).bare)
  active : t.segments.active = s.segments.active
  events : t.events = s.events

theorem State.openSettle_bare (h : (s.segment n).bare = true) : s.openSettle n =
    (s.putSegment n (s.segment n).emptied).putPlan (planWithout s.segments.plan n) := by
  unfold State.openSettle Segment.emptied
  dsimp only
  rw [if_pos h]
  exact if_pos h

theorem State.openSettle_full (h : ¬(s.segment n).bare = true) : s.openSettle n = s := if_neg h

theorem Emptied.openSettle (s : State) (n : Seg) : Emptied s (s.openSettle n) [n] := by
  by_cases bare : (s.segment n).bare = true
  · rw [State.openSettle_bare bare]
    have moved := (Moved.putSegment n (s.segment n).emptied s).putPlan (planWithout s.segments.plan n)
    obtain ⟨active, events⟩ := s.put_frame n (s.segment n).emptied (planWithout s.segments.plan n)
    refine ⟨.put s n _ _, ((Quiet.refl s).putSegment n _).putPlan _, fun k => ?_, ?_, active, events⟩
    · rw [moved.segment]
      simp only [List.mem_singleton]
      split
      next own => rw [own]
      · rfl
    · rw [moved.plan]
      refine List.filter_congr fun k _ => ?_
      by_cases own : k = n
      · simp [own, bare]
      · simp [own]
  · rw [State.openSettle_full bare]
    refine ⟨.refl s, .refl s, fun k => ?_, (List.filter_eq_self.2 fun k _ => ?_).symm, rfl, rfl⟩
    · split
      next own => rw [List.mem_singleton.1 own]; exact (if_neg bare).symm
      · rfl
    · by_cases own : k = n
      · simp [own, bare]
      · simp [own]

theorem Emptied.foldl (row : List Seg) (s : State) : Emptied s (row.foldl State.openSettle s) row := by
  induction row generalizing s with
  | nil => exact ⟨.refl s, .refl s, fun n => by simp, by simp, rfl, rfl⟩
  | cons n row ih =>
    have first := Emptied.openSettle s n
    have rest := ih (s.openSettle n)
    rw [List.foldl_cons]
    generalize row.foldl State.openSettle (s.openSettle n) = t at rest
    generalize s.openSettle n = x at first rest
    have bare (k : Seg) : (x.segment k).bare = (s.segment k).bare := by
      rw [first.segment]
      split
      · exact Segment.emptied_bare _
      · rfl
    have segment (k : Seg) : t.segment k = if k ∈ n :: row then (s.segment k).emptied else s.segment k := by
      rw [rest.segment, first.segment]
      by_cases own : k = n <;> by_cases later : k ∈ row <;> simp [own, later, Segment.emptied_twice]
    have plan : t.segments.plan = s.segments.plan.filter fun k => !(decide (k ∈ n :: row) && (s.segment k).bare) := by
      rw [rest.plan, first.plan, List.filter_filter]
      refine List.filter_congr fun k _ => ?_
      rw [bare]
      cases (s.segment k).bare <;> simp [Bool.and_comm]
    refine ⟨first.through.trans rest.through ⟨fun k same => ?_, fun same => ?_, fun _ => first.active⟩,
      first.quiet.trans rest.quiet, segment, plan, rest.active.trans first.active, rest.events.trans first.events⟩
    · by_cases own : k ∈ [n]
      · rw [segment, if_pos (List.mem_cons.2 (.inl (List.mem_singleton.1 own)))] at same
        rw [first.segment, if_pos own]
        exact same
      · rw [first.segment, if_neg own]
    · have fewer : t.segments.plan.Sublist x.segments.plan := by
        rw [rest.plan]
        exact List.filter_sublist
      have fewer' : x.segments.plan.Sublist s.segments.plan := by
        rw [first.plan]
        exact List.filter_sublist
      exact fewer'.antisymm (same ▸ fewer)

/-! ### The scan as a whole (R138) -/

theorem execRouteOpen_loading (hs : s.serving) (loading : s.route.state = .loading) : exec .routeOpen s =
    .next ((s.withRoute { s.route with scanning := some .opening, openFailures := 0 }).reply .ok []) := by
  show execRouteOpen s = _
  unfold execRouteOpen
  rw [State.serve_of_serving hs, if_neg (not_not.2 loading)]

theorem execOpenScan_ready (hp : s.power = .on) (hs : s.route.scanning = some .opening)
    (hh : s.matching.inHand = none) (hq : s.store.queue = []) : exec .openScan s = .next s.openScan := by
  have ready : s.scanReady .opening = true := by simp [State.scanReady, hp, hs, hh, hq]
  show execOpenScan s = _
  unfold execOpenScan
  rw [if_pos ready]

/-- The scan's end after the visits: the segments settled, the clock started, and the route OPEN. -/
def State.openEnd (v : State) : State :=
  let settled := (List.finRange 64).foldl State.openSettle v
  let started := (settled.setClock 0).enterRouteState .opened
  (started.withRoute { started.route with scanning := none }).raise .scanDone

theorem State.openScan_eq (s : State) : s.openScan = ((s.directory.map (·.1)).foldl State.openSlot s).openEnd := rfl

/-- The clock started at 0 and the route OPEN, with the checkpoint and the state block written (R132, R137). -/
theorem State.started_eq (w : State) : (w.setClock 0).enterRouteState .opened = { w with
    mem := (w.mem.writeItem 4 (wordBytes 0)).writeItem 2 (stateItem .opened w.segments.active)
    route := { w.route with state := .opened, clock := 0, checkpointsDue := [] } } := by
  unfold State.enterRouteState State.writeStateBlock State.setClock State.writeCheckpoint
  simp only [State.withRoute_mem, State.withRoute_route, State.withRoute_segments,
    State.withMem_segments, State.withMem_mem]
  rfl

/-- What the scan's end makes of the state `v` that its visits have left. -/
structure OpenEnded (v t : State) : Prop where
  quiet : Quiet v { t with route := v.route }
  records : t.directory = v.directory ∧ t.store = v.store ∧ t.tamper = v.tamper
  route : t.route = { v.route with state := .opened, scanning := none, clock := 0, checkpointsDue := [] }
  segment : ∀ n, t.segment n = (v.segment n).emptied
  plan : t.segments.plan = v.segments.plan.filter fun n => !(v.segment n).bare
  active : t.segments.active = v.segments.active
  event : t.events.pending = v.events.pending ||| 0x200
  planItem : v.mem.wf = true → v.mem.Follows t.mem 3 planItem v.segments.plan t.segments.plan
  segmentItem : v.mem.wf = true → ∀ n : Seg,
    v.mem.Follows t.mem (5 + n.val) id (segmentItem (v.segment n)) (segmentItem (t.segment n))
  state : v.mem.wf = true → t.mem.readItem 2 = some (stateItem .opened v.segments.active)
  checkpoint : v.mem.wf = true → t.mem.readItem 4 = some (wordBytes 0)
  reads : v.mem.wf = true → ∀ a, a < Config.routeBase → t.mem.read a = v.mem.read a

theorem State.openEnd_ended (v : State) : OpenEnded v v.openEnd := by
  have emptied := Emptied.foldl (List.finRange 64) v
  unfold State.openEnd
  dsimp only
  generalize (List.finRange 64).foldl State.openSettle v = w at emptied
  have told := emptied.through.told
  obtain ⟨m, hm⟩ : ∃ m, m = (w.mem.writeItem 4 (wordBytes 0)).writeItem 2 (stateItem .opened w.segments.active) :=
    ⟨_, rfl⟩
  obtain ⟨t, ht⟩ : ∃ t, t = (((w.setClock 0).enterRouteState .opened).withRoute
      { ((w.setClock 0).enterRouteState .opened).route with scanning := none }).raise .scanDone := ⟨_, rfl⟩
  have same : t = { w with
      mem := m, events := (w.raise .scanDone).events
      route := { w.route with state := .opened, scanning := none, clock := 0, checkpointsDue := [] } } := by
    rw [ht, hm, State.started_eq]
    rfl
  have mem : t.mem = m := by rw [same]
  have segments : t.segments = w.segments := by rw [same]
  have segment (n : Seg) : t.segment n = w.segment n := by rw [same]; rfl
  have written (wf : v.mem.wf = true) (j : Nat) : t.mem.readItem j =
      if j = 2 then some (stateItem .opened w.segments.active)
      else if j = 4 then some (wordBytes 0) else w.mem.readItem j := by
    rw [mem, hm, Memory.readItem_writeItem (Memory.wf_writeItem (told.mem.wf wf) 4 _) (stateItem_length _ _),
      Memory.readItem_writeItem (told.mem.wf wf) (i := 4) rfl]
  rw [← ht]
  clear ht
  refine ⟨?_, ?_, ?_, fun n => ?_, ?_, by rw [segments, emptied.active], ?_, fun wf => ?_, fun wf n => ?_, fun wf => ?_,
    fun wf => ?_, fun wf => ?_⟩
  · rw [same]
    exact ((emptied.quiet.withMem m).raise .scanDone).set_route v.route
  · rw [same]
    show w.directory = _ ∧ w.store = _ ∧ w.tamper = _
    rw [told.same]
    exact ⟨rfl, rfl, rfl⟩
  · rw [same, ← emptied.quiet.route]
  · rw [segment, emptied.segment, if_pos (List.mem_finRange n)]
  · rw [segments, emptied.plan]
    simp only [List.mem_finRange, decide_true, Bool.true_and]
  · rw [same]
    show w.events.pending ||| _ = _
    rw [emptied.events]
    rfl
  · have item := emptied.through.plan wf
    unfold Memory.Follows at item ⊢
    rw [segments, written wf, if_neg (by decide), if_neg (by decide), item]
  · have item := emptied.through.segment wf n
    unfold Memory.Follows at item ⊢
    rw [segment, written wf, if_neg (by omega), if_neg (by omega), item]
  · rw [written wf, if_pos rfl, emptied.active]
  · rw [written wf, if_neg (by decide), if_pos rfl]
  · rw [mem, hm]
    exact (((told.mem.writeItem (Nat.le_refl _) 4 _).writeItem (Nat.le_refl _) 2 _).reads wf)

/-- A segment recounted, by its fields. -/
theorem Segment.eq_of_uncounted {e e' : Segment} (h : e'.uncounted = e.uncounted) : e' = { e with
    members := e'.members, outstanding := e'.outstanding, done := e'.done, faulted := e'.faulted } := by
  have fields := Segment.mk.inj h
  obtain ⟨base, limit, dwell, state, visited, redrive, entryTime, overrun, -⟩ := fields
  rw [← base, ← limit, ← dwell, ← state, ← visited, ← redrive, ← entryTime, ← overrun]

theorem Segment.kept_of_uncounted {e e' : Segment} (h : e'.uncounted = e.uncounted) : e'.base = e.base ∧
    e'.limit = e.limit ∧ e'.dwell = e.dwell ∧ e'.visited = e.visited ∧ e'.redrive = e.redrive := by
  rw [Segment.eq_of_uncounted h]
  exact ⟨rfl, rfl, rfl, rfl, rfl⟩

theorem Segment.emptied_kept (e : Segment) : e.emptied.base = e.base ∧ e.emptied.limit = e.limit ∧
    e.emptied.dwell = e.dwell ∧ e.emptied.visited = e.visited ∧ e.emptied.redrive = e.redrive := by
  unfold Segment.emptied
  split <;> exact ⟨rfl, rfl, rfl, rfl, rfl⟩

/-- Settles O53: the visits by `OpenWork.openSlots` and `openSlot_live`, the scan's end by `openEnd_ended`. -/
theorem routesOpen : Obligations.RoutesOpen := by
  unfold Obligations.RoutesOpen
  refine ⟨fun s hs loading => execRouteOpen_loading hs loading, fun s hok hp hs hh hq => ?_, fun s slot d hs hd => ?_⟩
  · intro visited bare
    have scan : s.route.scanning ≠ none := by rw [hs]; exact nofun
    have work : OpenWork s visited := OpenWork.openSlots scan _
    have ok : visited.Ok := State.ok_foldl (fun _ slot h => State.Ok.openSlot h slot) (s.directory.map (·.1)) hok
    have ended := visited.openEnd_ended
    have run : exec .openScan s = .next visited.openEnd := by
      rw [execOpenScan_ready hp hs hh hq, State.openScan_eq]
    clear_value visited
    generalize visited.openEnd = t at ended run
    have iff (n : Seg) : bare n ↔ (visited.segment n).bare = true := (Segment.bare_iff _).symm
    have settled (n : Seg) (h : bare n) : t.segment n = { visited.segment n with state := .complete } := by
      rw [ended.segment]
      exact if_pos ((iff n).1 h)
    have stands (n : Seg) (h : ¬bare n) : t.segment n = visited.segment n := by
      rw [ended.segment]
      exact if_neg fun e => h ((iff n).2 e)
    obtain ⟨directory, store, tamper⟩ := ended.records
    refine ⟨work.slots, work.recounted.plan, fun n => ⟨_, _, _, _, Segment.eq_of_uncounted (work.recounted.entries n)⟩,
      t, run, ?_, directory, store, tamper, ?_, fun n => ⟨settled n, stands n⟩, ?_, ?_, ended.event, work.events, ?_, ?_,
      fun n => ended.segmentItem ok.mem n, ended.reads ok.mem, ?_, ended.checkpoint ok.mem,
      ended.active.trans work.recounted.active, fun n => ?_⟩
    · rw [ended.route]
      conv_lhs => rw [work.route]
    · rw [ended.plan, work.recounted.plan]
      exact List.filter_congr fun n _ => Bool.eq_iff_iff.2 (by simp [iff])
    · exact work.quiet.trans (ended.quiet.set_route s.route)
    · rw [ended.event]
      simp
    · intro same
      exact Eq.trans (ended.planItem ok.mem) (if_pos same)
    · intro changed
      exact Eq.trans (ended.planItem ok.mem) (if_neg changed)
    · rw [ended.state ok.mem, ended.active]
      rfl
    · obtain ⟨base, limit, dwell, visitedMark, redrive⟩ := Segment.kept_of_uncounted (work.recounted.entries n)
      obtain ⟨base', limit', dwell', visitedMark', redrive'⟩ := (visited.segment n).emptied_kept
      rw [ended.segment]
      refine ⟨base'.trans base, limit'.trans limit, dwell'.trans dwell, visitedMark'.trans visitedMark,
        redrive'.trans redrive, fun enabled none => ?_⟩
      have full : (visited.segment n).bare = true := by
        rw [← Segment.emptied_bare]
        exact (Segment.bare_iff _).2 ⟨enabled, none⟩
      refine ⟨?_, ?_⟩
      · unfold Segment.emptied
        rw [if_pos full]
      · rw [ended.plan]
        simp [full]
  · intro y t
    have scan : s.route.scanning ≠ none := by rw [hs]; exact nofun
    have route : y.1.route = s.route := ((Quiet.refl s).takeLine .scan slot).route
    refine ⟨fun bad => ?_, fun r good live => ?_⟩
    · have failed : t = _ := State.openSlot_failed bad
      obtain ⟨get, serial, cached⟩ := State.takeLine_bad bad hd
      rw [failed]
      refine ⟨?_, ⟨serial, ?_⟩, ?_, fun none => ?_⟩
      · simp only [State.letGo_frame]
        rw [← route]
        rfl
      · rw [State.letGo_cached]
        exact cached
      · simp only [State.letGo_frame]
        exact get
      · simp only [State.letGo_frame]
        exact (State.takeLine_none_segments scan hd none :)
    · intro place
      obtain ⟨u, opened, filed, cached, same⟩ := State.openSlot_live good live hd
      have ht : t = u.letGo slot := opened
      have segments : t.segments = (s.report (some ⟨d.segment, d.status⟩) (some ⟨place, .live r.status⟩)).segments := by
        rw [ht]
        simp only [State.letGo_frame]
        rw [filed.alike.segments]
        exact State.report_segments_congr scan (by rw [route]; exact scan) (State.takeLine_good_segments good) _ _
      have segment (n : Seg) : t.segment n =
          (s.report (some ⟨d.segment, d.status⟩) (some ⟨place, .live r.status⟩)).segment n :=
        congrArg (fun x : Segments => x.entries.get n) segments
      refine ⟨?_, ?_, ?_, ?_, fun n apart own => ?_, fun n apart other => ?_⟩
      · rw [ht, State.letGo_cached, cached]
      · rw [ht]
        simp only [State.letGo_frame]
        exact filed.get
      · rw [ht]
        simp only [State.letGo_frame]
        exact same
      · rw [segments]
        exact (Recounted.report scan _ _).plan
      · rw [segment, own]
        exact State.report_counted scan _ (by simpa using apart)
      · rw [segment]
        exact State.report_others (by simpa using apart) (by simpa using other) s

end Sys2Proof.Machine
end

