-- ==== Sys2Proof/Proofs/RouteTable.lean ====
section
/-! PROOF. The route state changes only by the rows that R132's table names (O8): which rows are steady, and what each of
the others makes of the state. -/

namespace Sys2Proof.Machine

variable {a s t : State}

/-! ### The rows that leave the route state alone -/

/-- The rows that change the route state by no rule (R132). -/
def Instr.leavesRoute : Instr → Bool
  | .routeHeader _ | .openScan | .routeClose | .routeClear | .recordRetire _ | .batchForm | .depotByte _
  | .recoveryScan | .powerUp | .partReset | .powerLoss _ => false
  | _ => true

/-- The rows that clear no event and leave the enable set: all but the two event commands and the restarts. -/
def Instr.onlyRaises : Instr → Bool
  | .eventsRead _ | .eventsEnable _ | .powerUp | .partReset | .powerLoss _ => false
  | _ => true

/-- The laws of the single rows, gathered over the table of rows. -/
theorem exec_steady (s : State) : ∀ c : Instr, Instr.onlyRaises c = true →
    steadyResult (Instr.leavesRoute c) s (exec c s)
  | .routeHeader p, _ => execRouteHeader_steady p s
  | .routeOpen, _ => execRouteOpen_steady s
  | .openScan, _ => execOpenScan_steady s
  | .routeClose, _ => execRouteClose_steady s
  | .routeClear, _ => execRouteClear_steady s
  | .routeStatus, _ => execRouteStatus_steady s
  | .recordLoad p, _ => execRecordLoad_steady p s
  | .recordLookup serial wanted, _ => execRecordLookup_steady serial wanted s
  | .recordAmend p, _ => execRecordAmend_steady p s
  | .recordNote serial text, _ => execRecordNote_steady serial text s
  | .recordRetire serial, _ => execRecordRetire_steady serial s
  | .recordWalk start statuses filter, _ => execRecordWalk_steady start statuses filter s
  | .segmentDefine segment base limit dwell, _ => execSegmentDefine_steady segment base limit dwell s
  | .segmentEnter segment, _ => execSegmentEnter_steady segment s
  | .segmentLeave, _ => execSegmentLeave_steady s
  | .segmentStatus segment, _ => execSegmentStatus_steady segment s
  | .planRead, _ => execPlanRead_steady s
  | .planMove segment position, _ => execPlanMove_steady segment position s
  | .tamperRead, _ => execTamperRead_steady s
  | .tamperAck serial, _ => execTamperAck_steady serial s
  | .cabMode mode invert, _ => execCabMode_steady mode invert s
  | .portMode port mode, _ => execPortMode_steady port mode s
  | .portReset port, _ => execPortReset_steady port s
  | .resetPulseEnd, _ => execResetPulseEnd_steady s
  | .portStatus, _ => execPortStatus_steady s
  | .uploadStart, _ => execUploadStart_steady s
  | .uploadStop, _ => execUploadStop_steady s
  | .uploadStatus, _ => execUploadStatus_steady s
  | .flush, _ => execFlush_steady s
  | .flushDrainDone, _ => execFlushDrainDone_steady s
  | .badCommandBlock direction block, _ => execBadCommandBlock_steady direction block s
  | .commandCollision, _ => execCommandCollision_steady s
  | .responseRead direction clocks, _ => execResponseRead_steady direction clocks s
  | .portByte port byte, _ => execPortByte_steady port byte s
  | .byteGapTimeout port, _ => execByteGapTimeout_steady port s
  | .frameTake, _ => execFrameTake_steady s
  | .frameMatch, _ => execFrameMatch_steady s
  | .writeQueueWrite, _ => execWriteQueueWrite_steady s
  | .routeClockTick, _ => execRouteClockTick_steady s
  | .clockCheckpoint, _ => execClockCheckpoint_steady s
  | .dwellCompareExpire, _ => execDwellCompareExpire_steady s
  | .pulseTimerExpire, _ => execPulseTimerExpire_steady s
  | .powerWarning, _ => execPowerWarning_steady s
  | .recoveryScan, _ => execRecoveryScan_steady s
  | .dockAttach, _ => execDockAttach_steady s
  | .dockRemoval, _ => execDockRemoval_steady s
  | .batchForm, _ => execBatchForm_steady s
  | .offerSent, _ => execOfferSent_steady s
  | .depotByte byte, _ => execDepotByte_steady byte s
  | .depotByteGapTimeout, _ => execDepotByteGapTimeout_steady s
  | .verdictTimeout, _ => execVerdictTimeout_steady s

/-- A block taken leaves the route controller, unless its command's own work is done (R161, R163, R164). -/
theorem State.serve_route (during : Bool) (work : State → State) :
    s.serve during work = work s ∨ (s.serve during work).route = s.route := by
  unfold State.serve
  split_ifs
  · exact .inr rfl
  · exact .inr rfl
  · exact .inr rfl
  · exact .inl rfl

theorem State.serve_sameRoute {during : Bool} {work : State → State} (same : (work s).route = s.route) :
    (s.serve during work).route = s.route := by
  obtain served | kept := State.serve_route (s := s) during work
  · rw [served, same]
  · exact kept

/-- No row outside R132's table changes the route state. -/
theorem exec_leavesRoute {c : Instr} (leaves : Instr.leavesRoute c = true) (ht : exec c s = .next t) :
    t.route.state = s.route.state := by
  have steady (raises : Instr.onlyRaises c = true) : t.route.state = s.route.state :=
    (exec_steady s c raises t ht).route leaves
  cases c with
  | eventsRead clear =>
    cases ht
    exact congrArg Route.state (State.serve_sameRoute rfl)
  | eventsEnable enable =>
    cases ht
    exact congrArg Route.state (State.serve_sameRoute rfl)
  | powerUp | partReset | powerLoss loss => cases leaves
  | _ => exact steady rfl

/-! ### The return to EMPTY (R141) -/

/-- `t` comes from `a` with the route state as it was, or returned from CLOSED to EMPTY (R141). -/
def Returned (a t : State) : Prop :=
  t.route.state = a.route.state ∨ (a.route.state = .closed ∧ t.route.state = .empty)

theorem Returned.refl (s : State) : Returned s s := .inl rfl

theorem Returned.keep (h : Returned a s) (same : t.route.state = s.route.state) : Returned a t := by
  unfold Returned
  rw [same]
  exact h

theorem Returned.steady (h : Returned a s) (q : Steady true s t) : Returned a t := h.keep (q.route rfl)

theorem Returned.quiet (h : Returned a s) (q : Quiet s t) : Returned a t := h.steady ((Steady.refl s).quiet q)

/-- Only a CLOSED route returns to EMPTY, and a route that has returned already stays EMPTY. -/
theorem Returned.returnIfBare (h : Returned a s) : Returned a s.returnIfBare := by
  unfold State.returnIfBare
  split_ifs with bare
  · have closed : a.route.state = .closed := by
      obtain same | ⟨closed, -⟩ := h
      · exact same.symm.trans bare.1
      · exact closed
    exact .inr ⟨closed, by simp⟩
  · exact h

theorem Returned.reply (h : Returned a s) (x : Answer) (data : List Byte) : Returned a (s.reply x data) := h.keep rfl

theorem Returned.serve {during : Bool} {work : State → State} (h : Returned s (work s)) :
    Returned s (s.serve during work) := by
  obtain served | kept := State.serve_route (s := s) during work
  · rwa [served]
  · exact .inl (congrArg Route.state kept)

/-! ### The rows that may return the route to EMPTY -/

/-- RECORD_RETIRE (R22). -/
theorem execRecordRetire_returned {serial : Word} (ht : exec (.recordRetire serial) s = .next t) : Returned s t := by
  cases ht
  refine Returned.serve ?_
  have found : Returned s (s.lookupFor serial).2 := (Returned.refl s).quiet ((Quiet.refl s).lookupFor _)
  split
  next he => rw [he] at found; exact found.reply _ _
  next slot s1 he =>
    rw [he] at found
    split_ifs
    · exact found.reply _ _
    · exact found.reply _ _
    · exact (found.quiet ((Quiet.refl s1).retire _ _ _)).returnIfBare.reply _ _

theorem Returned.finishUpload (h : Returned a s) : Returned a s.finishUpload :=
  Returned.returnIfBare (h.keep rfl)

/-- BATCH_FORM (R158): the upload that finishes returns a route with no live record. -/
theorem execBatchForm_returned (ht : exec .batchForm s = .next t) : Returned s t := by
  change execBatchForm s = .next t at ht
  unfold execBatchForm at ht
  split_ifs at ht <;> cases ht
  · have began : Returned s (s.withDepot { s.depot with forming := none }) := (Returned.refl s).keep rfl
    exact State.formOn_keeps (P := Returned s) (fun _ _ h => h.keep rfl) (fun _ _ h => h.keep rfl)
      (fun c x k h => h.steady ((Steady.refl x.2).surveySlot c k)) (fun _ h => h.finishUpload)
      (fun x k h => h.steady ((Steady.refl x.2).markOne k)) began _
  · exact .refl s

/-- A record accepted is retired, and with the last one the route returns (R155). -/
theorem Returned.judgeOne (h : Returned a s) (accepted : Half) (e : Nat × (Nat × Word)) :
    Returned a (State.judgeOne accepted s e) := by
  have changed : Returned a (s.changeOffered e.2.1 Record.refusedByDepot).1 :=
    h.quiet ((Quiet.refl s).changeOffered e.2.1 _)
  unfold State.judgeOne
  dsimp only
  split_ifs
  · exact h
  · exact Returned.returnIfBare ((h.quiet ((Quiet.refl s).retire .upload e.2.1 e.2.2)).keep rfl)
  · exact changed.keep rfl
  · exact changed

theorem Returned.judgeAll (accepted : Half) (l : List (Nat × (Nat × Word))) (h : Returned a s) :
    Returned a (l.foldl (State.judgeOne accepted) s) := by
  induction l generalizing s with
  | nil => exact h
  | cons e l ih => exact ih (h.judgeOne accepted e)

theorem Returned.verdict (h : Returned a s) (number : Byte) (accepted : Half) :
    Returned a (s.verdict number accepted) := by
  unfold State.verdict
  split_ifs
  · exact (Returned.judgeAll accepted _ (h.keep (t := s.withDepot { s.depot with timer := none }) rfl)).keep rfl
  · exact h.keep rfl

/-- DEPOT_BYTE (R149, R155): only the last byte of a good VERDICT does more than the receiver's own work. -/
theorem execDepotByte_returned {byte : Byte} (ht : exec (.depotByte byte) s = .next t) : Returned s t := by
  have h : Returned s s := .refl s
  cases ht
  dsimp only
  split_ifs
  · exact h
  · exact h.keep rfl
  · exact h
  · exact h.keep rfl
  · exact h.keep rfl
  · exact h.keep rfl
  · exact (h.keep (t := s.gatherDepot []) rfl).verdict _ _
  · exact h.keep rfl

/-! ### The route commands and the OPEN scan -/

/-- ROUTE_HEADER takes the route from EMPTY to LOADING (R134). -/
theorem execRouteHeader_route {p : HeaderParams} (ht : exec (.routeHeader p) s = .next t) :
    t.route.state = s.route.state ∨ (s.route.state = .empty ∧ t.route.state = .loading) := by
  cases ht
  obtain served | kept := State.serve_route (s := s) false _
  · rw [served]
    split_ifs with apart
    · exact .inl rfl
    · have empty : s.route.state = .empty := not_not.1 apart
      split
      · exact .inl rfl
      · split_ifs
        · exact .inr ⟨empty, rfl⟩
        · exact .inl rfl
  · exact .inl (congrArg Route.state kept)

theorem State.openScan_opened (s : State) : s.openScan.route.state = .opened := by
  unfold State.openScan
  generalize (List.finRange 64).foldl State.openSettle _ = settled
  rfl

/-- The OPEN scan ends with the route OPEN (R138). -/
theorem execOpenScan_route (ht : exec .openScan s = .next t) :
    t.route.state = s.route.state ∨ t.route.state = .opened := by
  change execOpenScan s = .next t at ht
  unfold execOpenScan at ht
  split_ifs at ht
  · rw [← Host.Outcome.next.inj ht]
    exact .inr s.openScan_opened
  · rw [← Host.Outcome.next.inj ht]
    exact .inl rfl

/-- ROUTE_CLOSE takes the route from OPEN to CLOSED (R139). -/
theorem execRouteClose_route (ht : exec .routeClose s = .next t) :
    t.route.state = s.route.state ∨ (s.route.state = .opened ∧ t.route.state = .closed) := by
  cases ht
  obtain served | kept := State.serve_route (s := s) false _
  · rw [served]
    split_ifs with apart
    · exact .inl rfl
    · exact .inr ⟨not_not.1 apart, rfl⟩
  · exact .inl (congrArg Route.state kept)

/-- ROUTE_CLEAR takes the route to EMPTY (R140). -/
theorem execRouteClear_route (ht : exec .routeClear s = .next t) :
    t.route.state = s.route.state ∨ t.route.state = .empty := by
  cases ht
  obtain served | kept := State.serve_route (s := s) false _
  · rw [served]
    split_ifs
    · exact .inl rfl
    · exact .inl rfl
    · exact .inr rfl
  · exact .inl (congrArg Route.state kept)

/-- Settles O8: a row outside the table leaves the state, and each row of the table makes its own change. -/
theorem routeStateChangesOnlyByItsTable : Obligations.RouteStateChangesOnlyByItsTable := by
  unfold Obligations.RouteStateChangesOnlyByItsTable
  intro c s t ht moved
  by_cases leaves : Instr.leavesRoute c = true
  · exact absurd (exec_leavesRoute leaves ht) moved
  · cases c with
    | routeHeader p =>
      obtain ⟨empty, loading⟩ := (execRouteHeader_route ht).resolve_left moved
      exact .inl ⟨empty, loading, p, rfl⟩
    | openScan => exact .inr (.inl ⟨(execOpenScan_route ht).resolve_left moved, rfl⟩)
    | routeClose =>
      obtain ⟨opened, closed⟩ := (execRouteClose_route ht).resolve_left moved
      exact .inr (.inr (.inl ⟨opened, closed, rfl⟩))
    | routeClear => exact .inr (.inr (.inr (.inl ⟨(execRouteClear_route ht).resolve_left moved, rfl⟩)))
    | batchForm =>
      obtain ⟨closed, empty⟩ := (execBatchForm_returned ht).resolve_left moved
      exact .inr (.inr (.inr (.inr (.inl ⟨closed, empty, .inl rfl⟩))))
    | recordRetire serial =>
      obtain ⟨closed, empty⟩ := (execRecordRetire_returned ht).resolve_left moved
      exact .inr (.inr (.inr (.inr (.inl ⟨closed, empty, .inr (.inl ⟨serial, rfl⟩)⟩))))
    | depotByte byte =>
      obtain ⟨closed, empty⟩ := (execDepotByte_returned ht).resolve_left moved
      exact .inr (.inr (.inr (.inr (.inl ⟨closed, empty, .inr (.inr ⟨byte, rfl⟩)⟩))))
    | powerUp => simp
    | partReset => simp
    | recoveryScan => simp
    | powerLoss loss => simp
    | _ => exact absurd rfl leaves

end Sys2Proof.Machine
end

