-- ==== Sys2Proof/Proofs/BlocksTaken.lean ====
section
/-! PROOF. Which commands a block carries and how the command port takes them: BUSY during scans (O11), and nothing done
while the 460 is halted or without power (O9). -/

namespace Sys2Proof.Machine

variable {s : State}

/-! ### Blocks taken (R133, R161, R164) -/

/-- Every command that comes as a block is taken by the command port. Only the five of R164 are served during scans too,
and RECORD_NOTE, whose own work looks for a scan once the text's length is judged. -/
theorem exec_block {c : Instr} (block : isBlock c = true) (s : State) : ∃ during work,
    exec c s = .next (s.serve during work) ∧
      (during = servedInScans c ∨ ∃ serial text, c = .recordNote serial text) := by
  cases c with
  | openScan | resetPulseEnd | flushDrainDone | badCommandBlock _ _ | commandCollision | responseRead _ _
  | portByte _ _ | byteGapTimeout _ | frameTake | frameMatch | writeQueueWrite | routeClockTick | clockCheckpoint
  | dwellCompareExpire | pulseTimerExpire | powerWarning | powerUp | recoveryScan | dockAttach | dockRemoval
  | batchForm | offerSent | depotByte _ | depotByteGapTimeout | verdictTimeout | powerLoss _ => cases block
  | recordNote serial text => exact ⟨true, _, rfl, .inr ⟨serial, text, rfl⟩⟩
  | _ => exact ⟨_, _, rfl, .inl rfl⟩

/-- RECORD_NOTE with a text that fits a block is BUSY while a scan runs. -/
theorem execRecordNote_of_scanning (listening : s.listening) (scan : s.route.scanning ≠ none) {serial : Word}
    {text : List Byte} (fits : text.length ≤ 57) : exec (.recordNote serial text) s = .next (s.refuse .busy) := by
  have scanning : s.isScanning = true := Option.isSome_iff_ne_none.2 scan
  show execRecordNote serial text s = _
  unfold execRecordNote
  rw [State.serve_of_listening listening, if_neg (Nat.not_lt.2 fits), if_pos scanning]

/-- Settles O11: the command port answers BUSY, and for RECORD_NOTE its own work does. -/
theorem blocksAreBusyDuringScans : Obligations.BlocksAreBusyDuringScans := by
  unfold Obligations.BlocksAreBusyDuringScans
  intro c s block wf apart listening scan
  have busy : exec c s = .next (s.refuse .busy) := by
    obtain ⟨during, work, taken, own | ⟨serial, text, rfl⟩⟩ := exec_block block s
    · rw [taken, own, apart, State.serve_of_scanning listening scan]
    · exact execRecordNote_of_scanning listening scan (of_decide_eq_true wf)
  rw [busy]
  rfl

/-! ### A 460 that is halted or without power (R145, R161) -/

/-- A halted 460 ignores a block. -/
theorem State.serve_of_halted (off : s.power ≠ .on) (during : Bool) (work : State → State) :
    s.serve during work = s.written := if_pos off

theorem State.scanReady_of_halted (off : s.power ≠ .on) (k : ScanKind) : s.scanReady k = false := by
  simp [State.scanReady, off]

theorem State.clockRuns_of_halted (off : s.power ≠ .on) : s.clockRuns = false := by
  simp [State.clockRuns, off]

theorem State.mayForm_of_halted (off : s.power ≠ .on) : s.mayForm = false := by
  simp [State.mayForm, off]

theorem execResetPulseEnd_of_halted (off : s.power ≠ .on) : execResetPulseEnd s = .next s := by
  unfold execResetPulseEnd
  split
  next on _ => exact absurd on off
  · rfl

theorem execFlushDrainDone_of_halted (off : s.power ≠ .on) : execFlushDrainDone s = .next s := by
  unfold execFlushDrainDone
  split
  next on _ => exact absurd on off
  · rfl

/-- A read selection of a halted 460 clocks out zeros. -/
theorem State.readSelection_of_halted (off : s.power ≠ .on) (clocks : Nat) :
    s.readSelection clocks = s.withCommand { s.command with dataOut := zeros clocks } :=
  if_neg fun h => off h.1

/-- The rows that are no block, no selection, no power event and no change of dock-sense do nothing. -/
theorem exec_of_halted (off : s.power ≠ .on) {c : Instr} (block : isBlock c = false) (up : c ≠ .powerUp)
    (attach : c ≠ .dockAttach) (removal : c ≠ .dockRemoval) (loss : ∀ loss, c ≠ .powerLoss loss)
    (selection : ∀ direction clocks, c ≠ .responseRead direction clocks)
    (bad : ∀ direction bytes, c ≠ .badCommandBlock direction bytes) : exec c s = .next s := by
  cases c with
  | openScan => exact if_neg (by simp [State.scanReady_of_halted off])
  | recoveryScan => exact congrArg Host.Outcome.next (if_neg (by simp [State.scanReady_of_halted off]))
  | resetPulseEnd => exact execResetPulseEnd_of_halted off
  | flushDrainDone => exact execFlushDrainDone_of_halted off
  | commandCollision => exact congrArg Host.Outcome.next (if_neg fun h => off h.1)
  | portByte port byte => exact if_pos off
  | byteGapTimeout port => exact if_pos off
  | frameTake => exact if_pos off
  | frameMatch => exact if_pos off
  | writeQueueWrite => exact congrArg Host.Outcome.next (if_neg off)
  | routeClockTick => exact if_pos off
  | clockCheckpoint => exact congrArg Host.Outcome.next (if_neg (by simp [State.clockRuns_of_halted off]))
  | dwellCompareExpire => exact congrArg Host.Outcome.next (if_pos off)
  | pulseTimerExpire => exact if_neg fun h => off h.1
  | powerWarning => exact congrArg Host.Outcome.next (if_neg off)
  | batchForm => exact if_neg (by simp [State.mayForm_of_halted off])
  | offerSent => exact congrArg Host.Outcome.next (if_neg fun h => off h.1)
  | depotByte byte => exact congrArg Host.Outcome.next (if_pos (.inl off))
  | depotByteGapTimeout => exact congrArg Host.Outcome.next (if_neg fun h => off h.1)
  | verdictTimeout => exact congrArg Host.Outcome.next (if_pos (.inl off))
  | powerUp => exact absurd rfl up
  | dockAttach => exact absurd rfl attach
  | dockRemoval => exact absurd rfl removal
  | powerLoss x => exact absurd rfl (loss x)
  | responseRead direction clocks => exact absurd rfl (selection direction clocks)
  | badCommandBlock direction bytes => exact absurd rfl (bad direction bytes)
  | _ => cases block

theorem execDockAttach_of_halted (off : s.power ≠ .on) :
    exec .dockAttach s = .next (s.withDepot { s.depot with dockSense := true }) :=
  congrArg Host.Outcome.next (if_neg fun h => off h.1)

theorem execDockRemoval_of_halted (off : s.power ≠ .on) :
    exec .dockRemoval s = .next (s.withDepot { s.depot with dockSense := false }) :=
  congrArg Host.Outcome.next (if_neg off)

/-- A malformed block is ignored as every block is, and another direction byte clocks out zeros. -/
theorem execBadCommandBlock_of_halted (off : s.power ≠ .on) (direction : Byte) {block : List Byte} :
    (direction = writeDirection → decodeBlock block = none →
      exec (.badCommandBlock direction block) s = .next s.written) ∧
    (direction ≠ writeDirection → exec (.badCommandBlock direction block) s =
      .next (s.withCommand { s.command with dataOut := zeros block.length })) := by
  refine ⟨fun write malformed => ?_, fun other => ?_⟩
  · have taken : exec (.badCommandBlock direction block) s = .next (s.serve true fun s => s.refuse .badCommand) := by
      show execBadCommandBlock direction block s = _
      unfold execBadCommandBlock
      rw [write, if_neg (by decide), if_neg (by simp), malformed]
      rfl
    rw [taken, State.serve_of_halted off]
  · show execBadCommandBlock direction block s = _
    unfold execBadCommandBlock
    rw [State.readSelection_of_halted off, if_pos other, ite_self]

theorem execResponseRead_of_halted (off : s.power ≠ .on) {direction : Byte} (other : direction ≠ writeDirection)
    (clocks : Nat) : exec (.responseRead direction clocks) s =
      .next (s.withCommand { s.command with dataOut := zeros clocks }) := by
  show execResponseRead direction clocks s = _
  unfold execResponseRead
  rw [State.readSelection_of_halted off, if_neg other, ite_self]

/-- Settles O9: the rows outside the command port, the two changes of dock-sense, blocks, and selections. -/
theorem haltedDoesNothing : Obligations.HaltedDoesNothing := by
  unfold Obligations.HaltedDoesNothing
  intro s off clocked
  refine ⟨fun c _ block up attach removal loss selection bad =>
      exec_of_halted off block up attach removal loss selection bad,
    execDockAttach_of_halted off, execDockRemoval_of_halted off, fun c block => ?_,
    fun block malformed => (execBadCommandBlock_of_halted off _).1 rfl malformed,
    fun direction block other => (execBadCommandBlock_of_halted off direction).2 other,
    fun direction n other => execResponseRead_of_halted off other n⟩
  obtain ⟨during, work, taken, -⟩ := exec_block block s
  rw [taken, State.serve_of_halted off]
  rfl

end Sys2Proof.Machine
end

