-- ==== Sys2Proof/Proofs/RouteHeader.lean ====
section
/-! PROOF. Items of the route area written and read back (O16), and ROUTE_HEADER's beginning of a route (O32). -/

namespace Sys2Proof.Machine

variable {s : State} {m : Memory}

/-! ### A write of an item cut short (R135) -/

/-- The next write of an item spares the copy that holds its newest generation. -/
theorem Memory.nextCopy_of_newer {i : Nat} {b : Bool} (newest : m.newerCopy i = some b) : (m.nextCopy i).1 = !b := by
  unfold Memory.nextCopy
  rw [newest]
  rfl

/-- A write of one copy, cut short anywhere, leaves the other copy. -/
theorem Memory.copyBytes_writeCut (h : m.wf = true) {i : Nat} {a b : Bool} (apart : a ≠ b) {w : Nat}
    (arrived : BitVec w) {image : List Byte} (size : image.length ≤ 256) :
    (m.writeCut (copyAddress i a) arrived image).copyBytes i b = m.copyBytes i b := by
  refine Memory.copyBytes_other h i a _ ?_ i b fun same => apart (congrArg Prod.snd same)
  rw [mixBytes_length]
  omega

/-- Settles O16: the item and the others by `readItem_writeItem`, the spared copy by `copyBytes_writeCut`. -/
theorem routeItemsReadBack : Obligations.RouteItemsReadBack := by
  unfold Obligations.RouteItemsReadBack
  intro m i contents h _ size
  refine ⟨?_, fun j _ apart => ?_, fun b arrived newest => ?_⟩
  · rw [Memory.readItem_writeItem h size, if_pos rfl]
  · rw [Memory.readItem_writeItem h size, if_neg apart]
  · rw [Memory.nextCopy_of_newer newest]
    refine Memory.copyBytes_writeCut h (Bool.not_ne_self b) arrived ?_
    have := itemSize_add_two_le i
    rw [copyImage_length]
    omega

/-! ### The header taken (R134) -/

/-- The route area as ROUTE_HEADER leaves it: the header, the checkpoint and the state block written in turn. -/
def Memory.begun (m : Memory) (h : Header) (active : Option Seg) : Memory :=
  ((m.writeItem 1 (headerItem (some h))).writeItem 4 [0, 0, 0, 0]).writeItem 2 (stateItem .loading active)

/-- What every item of the route area reads once a route has begun. -/
theorem Memory.readItem_begun (wf : m.wf = true) (h : Header) (active : Option Seg) (j : Nat) :
    (m.begun h active).readItem j = if j = 2 then some (stateItem .loading active)
      else if j = 4 then some [0, 0, 0, 0] else if j = 1 then some (headerItem (some h)) else m.readItem j := by
  have wf1 := Memory.wf_writeItem wf 1 (headerItem (some h))
  have wf4 := Memory.wf_writeItem wf1 4 [0, 0, 0, 0]
  unfold Memory.begun
  rw [Memory.readItem_writeItem wf4 (stateItem_length .loading active), Memory.readItem_writeItem wf1 rfl,
    Memory.readItem_writeItem wf (headerItem_length (some h))]

theorem wordBytes_zero : wordBytes 0 = [0, 0, 0, 0] := by decide

/-- What beginning a route makes of the machine, block by block. -/
theorem State.beginRoute_eq (h : Header) (s : State) : s.beginRoute h = { s with
    mem := s.mem.begun h s.segments.active
    route := { s.route with state := .loading, header := some h, clock := 0, checkpointsDue := [] }
    assessment := some h.assessment
    matching := { s.matching with taken := 0, duplicates := 0, strangers := 0, faultHits := 0, drops := 0 } } := by
  simp only [State.beginRoute, State.setClock, State.writeCheckpoint, State.enterRouteState, State.writeStateBlock,
    Memory.begun, State.withMem, State.withRoute, State.withAssessment, State.withMatching, wordBytes_zero]

/-- The answer OK without data (R164). -/
theorem State.reply_ok (s : State) : s.reply .ok [] =
    s.withCommand { s.command with unit := .responding, response := [0x01, 0x00], dataOut := [] } := rfl

/-- A header in range taken on an EMPTY route begins it, and is answered OK. -/
theorem execRouteHeader_begins {p : HeaderParams} {h : Header} (serving : s.serving) (empty : s.route.state = .empty)
    (given : p.header = some h) (range : h.inRange = true) : exec (.routeHeader p) s = .next { s with
      mem := s.mem.begun h s.segments.active
      route := { s.route with state := .loading, header := some h, clock := 0, checkpointsDue := [] }
      assessment := some ⟨h.date, h.backstep, h.lowRatio, h.rollover, h.stopDays⟩
      matching := { s.matching with taken := 0, duplicates := 0, strangers := 0, faultHits := 0, drops := 0 }
      command := { s.command with unit := .responding, response := [0x01, 0x00], dataOut := [] } } := by
  have begun : exec (.routeHeader p) s = .next ((s.beginRoute h).reply .ok []) := by
    show execRouteHeader p s = _
    unfold execRouteHeader
    rw [State.serve_of_serving serving, if_neg (not_not.2 empty), given]
    exact congrArg Host.Outcome.next (if_pos range)
  simp only [begun, State.reply_ok, State.beginRoute_eq, State.withCommand, Header.assessment]

/-- Settles O32: the row is `beginRoute`, whose writes `readItem_begun` reads back. -/
theorem headersBeginRoutes : Obligations.HeadersBeginRoutes := by
  unfold Obligations.HeadersBeginRoutes
  intro s p h serving empty given range m
  refine ⟨execRouteHeader_begins serving empty given range, fun wf => ?_⟩
  have read (j : Nat) : m.readItem j = _ := Memory.readItem_begun wf h s.segments.active j
  refine ⟨read 1, read 2, read 4, fun j _ header state clock => ?_⟩
  rw [read, if_neg state, if_neg clock, if_neg header]

end Sys2Proof.Machine
end

