-- ==== Sys2Proof/Proofs/DepotApart.lean ====
section
/-! PROOF. The work on the records of a batch neither looks at the depot link and upload engine's block nor changes it:
each shared operation commutes with a change of that block, and with it the return of a whole batch (R156). -/

namespace Sys2Proof.Machine

/-! ### Reports to the segment unit (R115) -/

/-- A choice whose two sides are those of another with the depot block changed. -/
theorem State.ite_withDepot {c : Prop} [Decidable c] {x x' y y' : State} {d : Depot} (hx : x' = x.withDepot d)
    (hy : y' = y.withDepot d) : (if c then x' else y') = (if c then x else y).withDepot d := by
  split
  · exact hx
  · exact hy

theorem State.raise_withDepot (e : Event) (s : State) (d : Depot) :
    (s.withDepot d).raise e = (s.raise e).withDepot d := rfl

theorem State.withDirectory_withDepot (x : Directory) (s : State) (d : Depot) :
    (s.withDepot d).withDirectory x = (s.withDirectory x).withDepot d := rfl

theorem State.putSegment_withDepot (n : Seg) (e : Segment) (s : State) (d : Depot) :
    (s.withDepot d).putSegment n e = (s.putSegment n e).withDepot d := by
  unfold State.putSegment
  exact State.ite_withDepot rfl rfl

theorem State.putPlan_withDepot (plan : List Seg) (s : State) (d : Depot) :
    (s.withDepot d).putPlan plan = (s.putPlan plan).withDepot d := by
  unfold State.putPlan
  exact State.ite_withDepot rfl rfl

theorem State.putActive_withDepot (active : Option Seg) (s : State) (d : Depot) :
    (s.withDepot d).putActive active = (s.putActive active).withDepot d := by
  unfold State.putActive
  exact State.ite_withDepot rfl rfl

theorem State.countAt_withDepot (p : Option Place) (f : Nat → Nat) (s : State) (d : Depot) :
    (s.withDepot d).countAt p f = (s.countAt p f).withDepot d := by
  unfold State.countAt
  split
  · exact State.putSegment_withDepot _ _ s d
  · rfl

theorem State.complete_withDepot (n : Seg) (s : State) (d : Depot) :
    (s.withDepot d).complete n = (s.complete n).withDepot d := by
  have left (x : State) : (if (x.withDepot d).segments.active = some n then
      ((x.withDepot d).putActive none).setDwell none else x.withDepot d) =
      (if x.segments.active = some n then (x.putActive none).setDwell none else x).withDepot d := by
    rw [State.putActive_withDepot]
    exact State.ite_withDepot rfl rfl
  unfold State.complete
  dsimp only
  refine State.ite_withDepot rfl (State.ite_withDepot rfl ?_)
  rw [State.putSegment_withDepot, State.putPlan_withDepot, ← State.raise_withDepot]
  exact congrArg (State.raise .segmentDone) (left _)

theorem State.reopen_withDepot (n : Seg) (s : State) (d : Depot) :
    (s.withDepot d).reopen n = (s.reopen n).withDepot d := by
  unfold State.reopen
  refine State.ite_withDepot ?_ rfl
  rw [State.putSegment_withDepot, State.putSegment_withDepot, State.putPlan_withDepot, State.withDepot_route]
  cases s.route.state <;> rfl

theorem State.judge_withDepot (n : Option Seg) (before : Nat) (s : State) (d : Depot) :
    (s.withDepot d).judge n before = (s.judge n before).withDepot d := by
  unfold State.judge
  split
  · rfl
  · exact State.ite_withDepot (State.complete_withDepot _ s d)
      (State.ite_withDepot (State.reopen_withDepot _ s d) rfl)

theorem State.report_withDepot (old new : Option Place) (s : State) (d : Depot) :
    (s.withDepot d).report old new = (s.report old new).withDepot d := by
  unfold State.report
  rw [State.countAt_withDepot, State.countAt_withDepot]
  refine State.ite_withDepot rfl ?_
  dsimp only
  rw [State.judge_withDepot, State.judge_withDepot]
  rfl

/-! ### The write queue and the lines (R32 to R36) -/

theorem State.writeOldest_withDepot (s : State) (d : Depot) :
    (s.withDepot d).writeOldest = s.writeOldest.withDepot d := by
  unfold State.writeOldest
  rw [State.withDepot_store]
  cases s.store.queue <;> rfl

theorem State.enqueue_withDepot (q : Queued) (s : State) (d : Depot) :
    (s.withDepot d).enqueue q = (s.enqueue q).withDepot d := by
  unfold State.enqueue
  rw [State.writeOldest_withDepot]
  exact congrArg (fun x : State => x.withStore { x.store with queue := x.store.queue ++ [q] })
    (State.ite_withDepot rfl rfl)

theorem State.drain_withDepot (n : Nat) (s : State) (d : Depot) :
    State.drain n (s.withDepot d) = (State.drain n s).withDepot d := by
  induction n generalizing s with
  | zero => rfl
  | succ n ih =>
    unfold State.drain
    rw [State.writeOldest_withDepot, ih]

theorem State.grants_withDepot (u : Holder) (n : Nat) (s : State) (d : Depot) :
    (s.withDepot d).grants u n = (s.grants u n).withDepot d := by
  unfold State.grants
  split
  · rfl
  next unit _ =>
    exact State.ite_withDepot rfl (State.drain_withDepot _ (s.withStore { s.store with granted := unit }) d)

theorem State.evict_withDepot (i : Fin 8) (s : State) (d : Depot) :
    (s.withDepot d).evict i = (s.evict i).withDepot d := by
  have line : (s.withDepot d).line i = s.line i := rfl
  unfold State.evict
  rw [line]
  split
  · exact State.ite_withDepot (State.enqueue_withDepot _ s d) rfl
  · rfl

theorem State.putContents_withDepot (slot : Nat) (c : Contents) (s : State) (d : Depot) :
    (s.withDepot d).putContents slot c = (s.putContents slot c).withDepot d := by
  have line : (s.withDepot d).lineOf slot = s.lineOf slot := rfl
  unfold State.putContents
  rw [line]
  split <;> rfl

theorem State.letGo_withDepot (slot : Nat) (s : State) (d : Depot) :
    (s.withDepot d).letGo slot = (s.letGo slot).withDepot d := by
  have line : (s.withDepot d).lineOf slot = s.lineOf slot := rfl
  unfold State.letGo
  rw [line]
  split <;> rfl

/-- A record becoming FAULT (R18). -/
theorem State.becomeFault_withDepot (slot : Nat) (s : State) (d : Depot) :
    (s.withDepot d).becomeFault slot = (s.becomeFault slot).withDepot d := by
  have released (x : State) (chain : List (Nat × BlockKind)) :
      (((x.withDepot d).freeChain chain).removedReport slot).forget slot =
        (((x.freeChain chain).removedReport slot).forget slot).withDepot d := rfl
  unfold State.becomeFault
  rw [State.withDepot_directory]
  split
  · rfl
  · dsimp only
    rw [State.putContents_withDepot, released, State.withDirectory_withDepot, State.report_withDepot,
      State.raise_withDepot]
    rfl

/-- A line taken, with its fill (R32, R35). -/
theorem State.takeLine_withDepot (u : Holder) (slot : Nat) (s : State) (d : Depot) :
    (s.withDepot d).takeLine u slot = ((s.takeLine u slot).1.withDepot d, (s.takeLine u slot).2) := by
  have line : (s.withDepot d).lineOf slot = s.lineOf slot := rfl
  have victim : (s.withDepot d).victim = s.victim := rfl
  have queued (x : State) : (x.withDepot d).queued slot = x.queued slot := rfl
  have grant (x : State) : (x.withDepot d).grant u = (x.grant u).withDepot d := State.grants_withDepot u 1 x d
  have hold (x : State) (i : Fin 8) (b : Option Cached) :
      (x.withDepot d).hold u i b = (x.hold u i b).withDepot d := rfl
  unfold State.takeLine
  rw [line]
  split
  · rfl
  · dsimp only
    rw [victim, State.evict_withDepot, queued]
    split
    · rfl
    · rw [grant, hold, hold, State.becomeFault_withDepot, State.withDepot_mem, State.withDepot_directory]
      split <;> rfl

/-- A record put in its line, and filed (R13, R33, R37). -/
theorem State.putRecord_withDepot (slot : Nat) (r : Record) (s : State) (d : Depot) :
    (s.withDepot d).putRecord slot r = (s.putRecord slot r).withDepot d := by
  unfold State.putRecord State.fileRecord
  rw [State.putContents_withDepot, State.withDepot_directory]
  split
  · rfl
  · rw [State.withDirectory_withDepot, State.report_withDepot]

/-! ### A batch returned (R156) -/

theorem State.changeOffered_withDepot (slot : Nat) (f : Record → Record) (s : State) (d : Depot) :
    ((s.withDepot d).changeOffered slot f).1 = (s.changeOffered slot f).1.withDepot d := by
  have cached (x : State) : (x.withDepot d).cached slot = x.cached slot := rfl
  unfold State.changeOffered
  rw [State.takeLine_withDepot]
  dsimp only
  rw [cached]
  split
  · rw [State.putRecord_withDepot, State.letGo_withDepot]
  · exact State.letGo_withDepot slot _ d

theorem State.returnOne_withDepot (s : State) (e : Nat × Word) (d : Depot) :
    (s.withDepot d).returnOne e = (s.returnOne e).withDepot d := by
  unfold State.returnOne
  exact State.ite_withDepot (State.changeOffered_withDepot _ _ s d) rfl

/-- Records returned one after another, whatever the depot block holds meanwhile. -/
theorem State.returnAll_withDepot (l : List (Nat × Word)) (s : State) (d : Depot) :
    l.foldl State.returnOne (s.withDepot d) = (l.foldl State.returnOne s).withDepot d := by
  induction l generalizing s with
  | nil => rfl
  | cons e l ih => rw [List.foldl_cons, List.foldl_cons, State.returnOne_withDepot, ih]

end Sys2Proof.Machine
end

