-- ==== Sys2Proof/Proofs/UploadLink.lean ====
section
/-! PROOF. The upload commands, docking, removal and the OFFER's end (O38). -/

namespace Sys2Proof.Machine

variable {s : State}

/-! ### Commands (R150, R157) -/

/-- UPLOAD_START runs the engine from a CLOSED route with the link ATTACHED or FAULTED. -/
theorem execUploadStart_runs (serving : s.serving) (closed : s.route.state = .closed) (idle : s.depot.engine = .idle)
    (docked : s.depot.link = .attached ∨ s.depot.link = .faulted) : exec .uploadStart s =
      .next ((s.withDepot { s.depot with link := .attached, failures := 0, cursor := none, engine := .running }).reply
        .ok []) := by
  show execUploadStart s = _
  unfold execUploadStart
  rw [State.serve_of_serving serving, if_neg (by simp [closed, idle])]
  rcases docked with attached | faulted
  · rw [attached]
  · rw [faulted]

/-- UPLOAD_STOP acts on a RUNNING engine alone, and waits for a batch that is outstanding. -/
theorem execUploadStop_eq (serving : s.serving) : exec .uploadStop s =
    .next ((if s.depot.engine = .running then
        if s.depot.outstanding = [] then s.withDepot { s.depot with engine := .idle, forming := none }
        else s.withDepot { s.depot with engine := .stopping }
      else s).reply .ok []) := by
  show execUploadStop s = _
  unfold execUploadStop
  rw [State.serve_of_serving serving]
  cases s.depot.engine <;> simp

/-! ### Docking and removal (R148, R157) -/

/-- The depot block with the van gone from the bay, its batch not yet returned. -/
def Depot.removed (d : Depot) : Depot :=
  { d with dockSense := false, link := .detached, timer := none, forming := none }

/-- DOCK_REMOVAL returns an outstanding batch, and leaves the engine IDLE. -/
theorem execDockRemoval_eq (on : s.power = .on) {x : State} (hx : x = if s.depot.outstanding.isEmpty = true then
      s.withDepot s.depot.removed else (s.withDepot s.depot.removed).returnBatch) :
    exec .dockRemoval s = .next (x.withDepot { x.depot with engine := .idle }) := by
  rw [hx]
  exact congrArg Host.Outcome.next (if_pos on)

/-- DOCK_REMOVAL with nothing outstanding. -/
theorem execDockRemoval_bare (on : s.power = .on) (bare : s.depot.outstanding = []) :
    exec .dockRemoval s = .next (s.withDepot { s.depot.removed with engine := .idle }) :=
  execDockRemoval_eq on (if_pos (List.isEmpty_iff.2 bare)).symm

/-- DOCK_REMOVAL with a batch outstanding returns it: the records become what the return makes of them in the state
before, since what is done to records does not look at the depot block (R156). -/
theorem execDockRemoval_returns (on : s.power = .on) (out : s.depot.outstanding ≠ []) :
    exec .dockRemoval s = .next ((s.depot.outstanding.foldl State.returnOne s).withDepot { s.depot.removed with
      engine := .idle, outstanding := [], cursor := none, batchNumber := s.depot.batchNumber + 1 }) := by
  have batch (x : Depot) : (s.withDepot s.depot.removed).returnBatch.withDepot x =
      (s.depot.outstanding.foldl State.returnOne s).withDepot x := by
    unfold State.returnBatch
    rw [State.withDepot_twice, State.withDepot_depot, State.returnAll_withDepot, State.withDepot_twice]
    rfl
  rw [execDockRemoval_eq on (if_neg (by simpa using out)).symm, batch, State.returnBatch_depot]
  rfl

/-! ### The OFFER's end (R152) -/

theorem satInc_half (x : Half) : satInc x = BitVec.ofNat 16 (min 65535 (x.toNat + 1)) := by
  unfold satInc
  split
  next top => rw [top]; rfl
  next below =>
    have bound : x.toNat ≠ 65535 := fun e => below (BitVec.eq_of_toNat_eq e)
    apply BitVec.eq_of_toNat_eq
    rw [BitVec.toNat_add, BitVec.toNat_ofNat]
    have one : (1 : Half).toNat = 1 := rfl
    omega

/-- OFFER_SENT in SENDING starts the verdict timer. -/
theorem execOfferSent_awaits (on : s.power = .on) (sending : s.depot.link = .sending) : exec .offerSent s =
    .next (s.withDepot { s.depot with
      link := .awaiting, timer := some s.params.verdictTimeout
      sent := BitVec.ofNat 16 (min 65535 (s.depot.sent.toNat + 1)) }) := by
  show execOfferSent s = _
  unfold execOfferSent
  rw [if_pos ⟨on, sending⟩, satInc_half]

/-- Settles O38: each row's own lemma; a removal's return of the batch is `execDockRemoval_returns`. -/
theorem uploadsStartAndStop : Obligations.UploadsStartAndStop := by
  unfold Obligations.UploadsStartAndStop
  refine ⟨fun s serving closed idle docked => execUploadStart_runs serving closed idle docked, fun s serving => ?_,
    fun s on => ⟨fun detached => ?_, fun apart => ?_, execDockRemoval_bare on, fun out =>
      ⟨(Quiet.refl s).returnAll _, execDockRemoval_returns on out⟩, execOfferSent_awaits on⟩⟩
  · have stopped := execUploadStop_eq serving
    refine ⟨fun running empty => ?_, fun running out => ?_, fun resting => ?_⟩
    · rw [stopped, if_pos running, if_pos empty]
      rfl
    · rw [stopped, if_pos running, if_neg out]
      rfl
    · rw [stopped, if_neg resting]
  · exact congrArg Host.Outcome.next (if_pos ⟨on, detached⟩)
  · exact congrArg Host.Outcome.next (if_neg fun h => apart h.2)

end Sys2Proof.Machine
end

