-- ==== Sys2Proof/Proofs/Verdicts.lean ====
section
/-! PROOF. The depot receiver takes the bytes of a VERDICT (O57). -/

namespace Sys2Proof.Machine

variable {s t : State}

/-! ### What judging positions leaves alone (R155) -/

/-- What a verdict's work on records, and the return to EMPTY after the last one, leave as they were. -/
structure Untouched (s t : State) : Prop where
  ports : t.ports = s.ports
  power : t.power = s.power
  draws : t.draws = s.draws
  enabled : t.events.enabled = s.events.enabled

theorem Untouched.refl (s : State) : Untouched s s := ⟨rfl, rfl, rfl, rfl⟩

theorem Untouched.trans {u : State} (h : Untouched s t) (h1 : Untouched t u) : Untouched s u :=
  ⟨h1.ports.trans h.ports, h1.power.trans h.power, h1.draws.trans h.draws, h1.enabled.trans h.enabled⟩

theorem Untouched.of_quiet (h : Quiet s t) : Untouched s t := ⟨h.ports, h.power, h.draws, h.enabled⟩

theorem Untouched.withDepot (s : State) (d : Depot) : Untouched s (s.withDepot d) := ⟨rfl, rfl, rfl, rfl⟩

theorem State.emptyRoute_draws (s : State) : s.emptyRoute.draws = s.draws := by
  simp [State.emptyRoute, State.enterRouteState, State.writeStateBlock, State.setClock, State.writeCheckpoint,
    State.writeSegmentArea]

theorem Untouched.returnIfBare (s : State) : Untouched s s.returnIfBare := by
  obtain ⟨events, ports, power, -⟩ := s.emptyRoute_kept_blocks
  unfold State.returnIfBare
  split
  · exact ⟨ports, power, s.emptyRoute_draws, congrArg Events.enabled events⟩
  · exact .refl s

theorem Untouched.judgeOne (accepted : Half) (s : State) (e : Nat × (Nat × Word)) :
    Untouched s (State.judgeOne accepted s e) := by
  have retired := Untouched.of_quiet ((Quiet.refl s).retire .upload e.2.1 e.2.2)
  have changed := Untouched.of_quiet ((Quiet.refl s).changeOffered e.2.1 Record.refusedByDepot)
  unfold State.judgeOne
  dsimp only
  split_ifs
  · exact .refl s
  · exact (retired.trans (.withDepot _ _)).trans (.returnIfBare _)
  · exact changed.trans (.withDepot _ _)
  · exact changed

theorem Untouched.judgeAll (accepted : Half) (l : List (Nat × (Nat × Word))) (s : State) :
    Untouched s (l.foldl (State.judgeOne accepted) s) := by
  induction l generalizing s with
  | nil => exact .refl s
  | cons e l ih => exact (Untouched.judgeOne accepted s e).trans (ih _)

/-! ### Bytes gathered (R149) -/

/-- The depot receiver listens: the 460 works, and the link is one in which frames are assembled. -/
def State.receiving (s : State) : Prop := s.power = .on ∧ s.depot.link.receives = true

theorem State.receiving_of_link (on : s.power = .on)
    (link : s.depot.link = .attached ∨ s.depot.link = .awaiting ∨ s.depot.link = .faulted) : s.receiving := by
  refine ⟨on, ?_⟩
  rcases link with h | h | h <;> rw [h] <;> rfl

/-- A frame given up leaves a receiver that hunted before it as it was, but for the count. -/
theorem State.damageDepot_gathered (hunting : s.depot.rx = []) (bs : List Byte) : (s.gatherDepot bs).damageDepot =
    { s with depot := { s.depot with damaged := satInc s.depot.damaged } } := by
  unfold State.damageDepot
  rw [← hunting]
  rfl

section Receiving
variable {bs : List Byte} (h : s.receiving) (gathered : s.depot.rx = bs)
include h gathered

/-- What the receiver makes of a byte, by the bytes that it has gathered. -/
theorem execDepotByte_receiving (b : Byte) : exec (.depotByte b) s = .next (
    if bs = [] then (if b = 0xA6 then s.gatherDepot (bs ++ [b]) else s)
    else if bs.length = 1 then (if b = 8 then s.gatherDepot (bs ++ [b]) else s.damageDepot)
    else if (bs ++ [b]).length < 8 then s.gatherDepot (bs ++ [b])
    else if verdictGood (bs ++ [b]) then (s.gatherDepot []).verdict (byteAt (bs ++ [b]) 3) (halfAt (bs ++ [b]) 4)
    else s.damageDepot) := by
  obtain ⟨on, receives⟩ := h
  rw [← gathered]
  exact congrArg Host.Outcome.next (if_neg (by simp [on, receives]))

/-- The first byte: hunting passes over all but the one that begins a frame. -/
theorem execDepotByte_first (hunting : bs = []) (b : Byte) :
    exec (.depotByte b) s = .next (if b = 0xA6 then s.gatherDepot [b] else s) := by
  rw [execDepotByte_receiving h gathered, if_pos hunting, hunting]
  rfl

/-- The second byte, the length: only a VERDICT's is gathered. -/
theorem execDepotByte_second (one : bs.length = 1) (b : Byte) :
    exec (.depotByte b) s = .next (if b = 8 then s.gatherDepot (bs ++ [b]) else s.damageDepot) := by
  rw [execDepotByte_receiving h gathered, if_neg (List.ne_nil_of_length_pos (by omega)), if_pos one]

/-- The third to the seventh byte are gathered. -/
theorem execDepotByte_middle (two : 2 ≤ bs.length) (fits : bs.length < 7) (b : Byte) :
    exec (.depotByte b) s = .next (s.gatherDepot (bs ++ [b])) := by
  rw [execDepotByte_receiving h gathered, if_neg (List.ne_nil_of_length_pos (by omega)), if_neg (by omega),
    if_pos (by rw [List.length_append, List.length_singleton]; omega)]

/-- The eighth byte has the frame judged. -/
theorem execDepotByte_eighth (seven : bs.length = 7) {b : Byte} {frame : List Byte} (hf : bs ++ [b] = frame) :
    exec (.depotByte b) s = .next (if verdictGood frame then
      (s.gatherDepot []).verdict (byteAt frame 3) (halfAt frame 4) else s.damageDepot) := by
  have eight : frame.length = 8 := by rw [← hf, List.length_append, seven]; rfl
  rw [execDepotByte_receiving h gathered, hf, if_neg (List.ne_nil_of_length_pos (by omega)), if_neg (by omega),
    if_neg (by omega)]

end Receiving

/-- Bytes behind the length are gathered one after another, up to the seventh of a frame. -/
theorem execAll_gather {bs more : List Byte} (h : s.receiving) (gathered : s.depot.rx = bs) (two : 2 ≤ bs.length)
    (fits : bs.length + more.length < 8) (rest : List Byte) :
    execAll ((more ++ rest).map Instr.depotByte) s =
      execAll (rest.map Instr.depotByte) (s.gatherDepot (bs ++ more)) := by
  induction more generalizing s bs with
  | nil =>
    rw [List.append_nil, ← gathered]
    rfl
  | cons b more ih =>
    rw [List.length_cons] at fits
    have longer : (bs ++ [b]).length = bs.length + 1 := List.length_append
    have later := ih (s := s.gatherDepot (bs ++ [b])) (bs := bs ++ [b]) h rfl (by omega) (by omega)
    rw [List.append_assoc] at later
    exact (execAll_cons (execDepotByte_middle h gathered two (by omega) b) _).trans later

/-- A frame of eight bytes that comes to a hunting receiver is judged with its last byte; one that is no good VERDICT is
counted damaged. -/
theorem execAll_frame (h : s.receiving) (hunting : s.depot.rx = []) {middle : List Byte} (five : middle.length = 5)
    {last : Byte} {frame : List Byte} (hf : frame = 0xA6 :: 0x08 :: (middle ++ [last])) :
    execAll (frame.map Instr.depotByte) s = .next (if verdictGood frame then
      s.verdict (byteAt frame 3) (halfAt frame 4)
      else { s with depot := { s.depot with damaged := satInc s.depot.damaged } }) := by
  have emptied : s.gatherDepot [] = s := by
    rw [← hunting]
    rfl
  have first := execDepotByte_first h hunting rfl 0xA6
  have second := execDepotByte_second (s := s.gatherDepot [0xA6]) (bs := [0xA6]) h rfl rfl 0x08
  have middles := execAll_gather (s := s.gatherDepot [0xA6, 0x08]) (bs := [0xA6, 0x08]) (more := middle) h rfl
    (Nat.le_refl 2) (by rw [five]; decide) [last]
  have eighth := execDepotByte_eighth (s := s.gatherDepot ([0xA6, 0x08] ++ middle)) (bs := [0xA6, 0x08] ++ middle) h rfl
    (by rw [List.length_append, five]; rfl) (b := last) rfl
  calc execAll (frame.map Instr.depotByte) s
      = execAll ((0x08 :: (middle ++ [last])).map Instr.depotByte) (s.gatherDepot [0xA6]) := by
        rw [hf]; exact execAll_cons first _
    _ = execAll ((middle ++ [last]).map Instr.depotByte) (s.gatherDepot [0xA6, 0x08]) := execAll_cons second _
    _ = execAll [Instr.depotByte last] (s.gatherDepot ([0xA6, 0x08] ++ middle)) := middles
    _ = .next (if verdictGood frame then (s.gatherDepot []).verdict (byteAt frame 3) (halfAt frame 4)
          else (s.gatherDepot ([0xA6, 0x08] ++ middle)).damageDepot) := by rw [hf]; exact execAll_cons eighth _
    _ = _ := by rw [emptied, State.damageDepot_gathered hunting]

/-! ### Which frames are good VERDICTs (R149, R174) -/

/-- Of the frames of eight bytes, those of kind 02h whose CRC holds are good. -/
theorem verdictGood_iff {kind number : Byte} {accepted check : Half} :
    verdictGood ([0xA6, 0x08, kind, number] ++ halfBytes accepted ++ halfBytes check) = true ↔
      kind = 2 ∧ check = crc16 ([0x08, kind, number] ++ halfBytes accepted) := by
  have joined : halfAt ([0xA6, 0x08, kind, number] ++ halfBytes accepted ++ halfBytes check) 6 = check :=
    halfBytes_join check
  unfold verdictGood
  rw [joined, Bool.and_eq_true, beq_iff_eq, beq_iff_eq]
  exact and_congr Iff.rfl eq_comm

/-! ### A good VERDICT (R154, R155) -/

/-- The depot block once its batch is disposed of by a verdict (R155). -/
def Depot.disposed (d : Depot) : Depot :=
  { d with
    outstanding := [], forming := none, failures := 0, batchNumber := d.batchNumber + 1, link := .attached
    engine := d.engine.afterBatch }

/-- The verdict for the outstanding batch: what it makes of the depot block, and what it leaves. -/
theorem State.verdict_taken (out : s.depot.outstanding ≠ []) {number : Byte} (ours : s.depot.batchNumber = number)
    (accepted : Half) {judged : State} (hj : judged = (positions 0 s.depot.outstanding).foldl
      (State.judgeOne accepted) { s with depot := { s.depot with timer := none } })
    (ht : t = s.verdict number accepted) :
    t = { judged with depot := t.depot } ∧
    t.depot.accepted = judged.depot.accepted ∧ t.depot.refused = judged.depot.refused ∧
    t.depot = { s.depot with
      outstanding := [], forming := none, failures := 0, batchNumber := number + 1, link := .attached
      timer := none, accepted := t.depot.accepted, refused := t.depot.refused
      engine := if s.depot.engine = .stopping then .idle else s.depot.engine } ∧
    Untouched s t := by
  have taken : t = judged.withDepot judged.depot.disposed := by
    rw [ht, hj]
    exact if_pos (by simp [out, ours])
  have fixed : { judged.depot with accepted := s.depot.accepted, refused := s.depot.refused } =
      { s.depot with timer := none } :=
    hj ▸ State.judgeAll_depot accepted (positions 0 s.depot.outstanding) (s.withDepot { s.depot with timer := none })
  have untouched : Untouched s judged := hj ▸ (Untouched.withDepot s { s.depot with timer := none }).trans
    (.judgeAll accepted (positions 0 s.depot.outstanding) _)
  rw [taken]
  refine ⟨rfl, rfl, rfl, ?_, untouched.trans (.withDepot _ _)⟩
  rw [← ours, ← EngineState.afterBatch_eq]
  exact congrArg (fun d : Depot => { d.disposed with
    accepted := judged.depot.accepted, refused := judged.depot.refused }) fixed

/-- Settles O57: a frame of eight bytes is judged by `execAll_frame` and `verdictGood_iff`, a good one by
`State.verdict_taken`; the others by the byte that ends them. -/
theorem verdictsAreTaken : Obligations.VerdictsAreTaken := by
  unfold Obligations.VerdictsAreTaken
  intro s number accepted on hunting link frame good
  have h := State.receiving_of_link on link
  have judged (kind : Byte) (check : Half) : execAll
      (([0xA6, 0x08, kind, number] ++ halfBytes accepted ++ halfBytes check).map Instr.depotByte) s = .next
        (if kind = 2 ∧ check = crc16 ([0x08, kind, number] ++ halfBytes accepted) then s.verdict number accepted
        else { s with depot := { s.depot with damaged := satInc s.depot.damaged } }) := by
    have run := execAll_frame h hunting (middle := [kind, number] ++ halfBytes accepted ++ (halfBytes check).take 1)
      rfl (last := byteAt (halfBytes check) 1) rfl
    have mask : halfAt ([0xA6, 0x08, kind, number] ++ halfBytes accepted ++ halfBytes check) 4 = accepted :=
      halfBytes_join accepted
    refine run.trans (congrArg Host.Outcome.next ?_)
    exact if_congr verdictGood_iff (congrArg (State.verdict number · s) mask) rfl
  have taken : execAll ((frame good).map Instr.depotByte) s = .next (s.verdict number accepted) :=
    (judged 2 good).trans (congrArg Host.Outcome.next (if_pos ⟨rfl, rfl⟩))
  refine ⟨fun out ours => ?_, fun other => ?_, fun check wrong => ?_, fun kind wrong => ?_, fun b wrong => ?_,
    fun b wrong => ?_⟩
  · obtain ⟨same, counted, refused, depot, untouched⟩ := State.verdict_taken out ours accepted rfl rfl
    exact ⟨_, taken, same, counted, refused, depot, untouched.ports, untouched.power, untouched.draws,
      untouched.enabled⟩
  · rw [taken]
    refine congrArg Host.Outcome.next (if_neg ?_)
    rcases other with bare | later
    · simp [bare]
    · simp [later]
  · exact (judged 2 check).trans (congrArg Host.Outcome.next (if_neg fun e => wrong e.2))
  · exact (judged kind _).trans (congrArg Host.Outcome.next (if_neg fun e => wrong e.1))
  · have first := execDepotByte_first h hunting rfl 0xA6
    have second := execDepotByte_second (s := s.gatherDepot [0xA6]) (bs := [0xA6]) h rfl rfl b
    rw [if_neg wrong, State.damageDepot_gathered hunting] at second
    exact (execAll_cons first _).trans (execAll_cons second _)
  · exact (execDepotByte_first h hunting rfl b).trans (congrArg Host.Outcome.next (if_neg wrong))

end Sys2Proof.Machine
end

