-- ==== Sys2Proof/Proofs/CommandPort.lean ====
section
/-! PROOF. The command port: events that only their own commands take or enable (O7, O34), selections and collisions
(O10, O35), and the command at the front of the queue, which is carried out (O1, O4). -/

namespace Sys2Proof.Machine

variable {s t : State}

/-! ### Events (R168 to R170) -/

/-- What holds of each way in which the command port may meet a block holds of the block taken (R161, R163, R164). -/
theorem State.serve_cases {P : State → Prop} {during : Bool} {work : State → State} (ignored : P s.written)
    (collided : P s.collide) (busy : P (s.refuse .busy)) (served : P (work s)) : P (s.serve during work) := by
  unfold State.serve
  split_ifs
  · exact ignored
  · exact collided
  · exact busy
  · exact served

/-- EVENTS_READ leaves the enable set (R169). -/
theorem execEventsRead_enabled {clear : Half} (ht : exec (.eventsRead clear) s = .next t) :
    t.events.enabled = s.events.enabled := by
  cases ht
  exact State.serve_cases (P := fun t => t.events.enabled = s.events.enabled) rfl rfl rfl rfl

/-- EVENTS_ENABLE takes no event out of the pending set (R170). -/
theorem execEventsEnable_raised {enable : Half} (ht : exec (.eventsEnable enable) s = .next t) :
    s.events.pending ||| t.events.pending = t.events.pending := by
  cases ht
  exact State.serve_cases (P := fun t => s.events.pending ||| t.events.pending = t.events.pending)
    BitVec.or_self (Steady.refl (b := true) s).collide.raised BitVec.or_self BitVec.or_self

/-- Settles O7: every row but the two event commands and the restarts is steady, and each event command changes its own
set alone. -/
theorem eventsLeaveOnlyByTheirRules : Obligations.EventsLeaveOnlyByTheirRules := by
  unfold Obligations.EventsLeaveOnlyByTheirRules
  intro c s t ht up reset loss
  have steady (raises : Instr.onlyRaises c = true) : Steady (Instr.leavesRoute c) s t := exec_steady s c raises t ht
  cases c with
  | eventsRead clear => exact ⟨fun apart => absurd rfl (apart clear), fun _ => execEventsRead_enabled ht⟩
  | eventsEnable enable => exact ⟨fun _ => execEventsEnable_raised ht, fun apart => absurd rfl (apart enable)⟩
  | powerUp => exact absurd rfl up
  | partReset => exact absurd rfl reset
  | powerLoss x => exact absurd rfl (loss x)
  | _ => exact ⟨fun _ => (steady rfl).raised, fun _ => (steady rfl).enabled⟩

theorem bitVec_ne_zero_iff {w : Nat} (x : BitVec w) : x ≠ 0 ↔ ∃ i, i < w ∧ x.getLsbD i = true := by
  have zero : x = 0 ↔ ∀ i, x.getLsbD i = false := BitVec.zero_iff_eq_false
  rw [ne_eq, zero]
  simp only [not_forall, Bool.not_eq_false]
  exact exists_congr fun i => ⟨fun set => ⟨BitVec.lt_of_getLsbD set, set⟩, And.right⟩

/-- ATTENTION of a 460 that works is an event both pending and enabled (R168). -/
theorem State.attention_iff (on : s.power = .on) : s.attention = true ↔
    ∃ i, i < 10 ∧ s.events.pending.getLsbD i = true ∧ s.events.enabled.getLsbD i = true := by
  have active : s.attention = true ↔ s.events.pending &&& s.events.enabled ≠ 0 := by simp [State.attention, on]
  rw [active, bitVec_ne_zero_iff]
  simp only [BitVec.getLsbD_and, Bool.and_eq_true]

/-- Settles O34: a listening unit serves both event commands, during scans too. -/
theorem eventCommandsTakeEffect : Obligations.EventCommandsTakeEffect := by
  unfold Obligations.EventCommandsTakeEffect
  intro s listening
  refine ⟨fun enable => ⟨congrArg Host.Outcome.next (State.serve_of_listening listening), ?_⟩,
    fun clear => congrArg Host.Outcome.next (State.serve_of_listening listening)⟩
  obtain ⟨on, -⟩ := listening
  refine (State.attention_iff ?_).trans (exists_congr fun i => and_congr_right fun below => ?_)
  · exact on
  · simp [below]

/-! ### Collisions (R163) -/

/-- A collision as R163 counts it. -/
theorem State.collide_eq (s : State) : s.collide = { s with
    command := { s.command with
      collisions := BitVec.ofNat 16 (min 65535 (s.command.collisions.toNat + 1)), dataOut := [] }
    events := { s.events with pending := s.events.pending ||| 0x100 } } := by
  unfold State.collide
  rw [satInc_half]
  rfl

theorem State.serve_of_busy {during : Bool} {work : State → State} (on : s.power = .on)
    (busy : s.command.unit ≠ .idle) : s.serve during work = s.collide := by
  unfold State.serve
  rw [if_neg (not_not.2 on), if_pos busy]

/-- Settles O10: whatever command a block carries, the command port meets it with a collision. -/
theorem blocksCollide : Obligations.BlocksCollide := by
  unfold Obligations.BlocksCollide
  intro c s block on busy
  obtain ⟨during, work, taken, -⟩ := exec_block block s
  rw [taken, State.serve_of_busy on busy, State.collide_eq]

/-! ### Selections (R162, R172) -/

theorem clockedOut_eq (response : List Byte) (n : Nat) :
    clockedOut response n = response.take n ++ List.replicate (n - response.length) 0x00 := by
  unfold clockedOut zeros
  rw [List.take_append, List.take_replicate, Nat.min_eq_left (Nat.sub_le _ _)]

/-- A read selection takes the response that waits (R162). -/
theorem State.readSelection_of_responding (on : s.power = .on) (waits : s.command.unit = .responding) (n : Nat) :
    s.readSelection n = s.withCommand { s.command with
      unit := .idle, response := []
      dataOut := s.command.response.take n ++ List.replicate (n - s.command.response.length) 0x00 } := by
  unfold State.readSelection
  rw [if_pos ⟨on, waits⟩, clockedOut_eq]

/-- With no response waiting a read selection clocks out zeros (R162). -/
theorem State.readSelection_of_empty (empty : s.command.unit ≠ .responding) (n : Nat) :
    s.readSelection n = s.withCommand { s.command with dataOut := zeros n } :=
  if_neg fun h => empty h.2

/-- A read direction makes RESPONSE_READ a read selection (R172). -/
theorem execResponseRead_read (s : State) (n : Nat) :
    exec (.responseRead readDirection n) s = .next (s.readSelection n) :=
  congrArg Host.Outcome.next (if_pos rfl)

theorem execResponseRead_other {direction : Byte} (read : direction ≠ readDirection)
    (write : direction ≠ writeDirection) (s : State) (n : Nat) :
    exec (.responseRead direction n) s = .next (s.withCommand { s.command with dataOut := zeros n }) :=
  congrArg Host.Outcome.next ((if_neg read).trans (if_neg write))

theorem execBadCommandBlock_other {direction : Byte} (read : direction ≠ readDirection)
    (write : direction ≠ writeDirection) (s : State) (block : List Byte) :
    exec (.badCommandBlock direction block) s =
      .next (s.withCommand { s.command with dataOut := zeros block.length }) :=
  congrArg Host.Outcome.next ((if_neg read).trans (if_pos write))

/-- A malformed block is taken by the command port, during scans too (R164). -/
theorem execBadCommandBlock_malformed {block : List Byte} (malformed : decodeBlock block = none) (s : State) :
    exec (.badCommandBlock writeDirection block) s = .next (s.serve true fun s => s.refuse .badCommand) := by
  have undecoded : ¬ (decodeBlock block).isSome = true := by simp [malformed]
  exact congrArg Host.Outcome.next
    ((if_neg (by decide)).trans ((if_neg (not_not.2 rfl)).trans (if_neg undecoded)))

theorem execCommandCollision_busy (on : s.power = .on) (busy : s.command.unit ≠ .idle) :
    exec .commandCollision s = .next s.collide :=
  congrArg Host.Outcome.next (if_pos ⟨on, busy⟩)

/-- Settles O35: the selections by their direction byte, a malformed block, and a collision. -/
theorem selectionsTakeEffect : Obligations.SelectionsTakeEffect := by
  unfold Obligations.SelectionsTakeEffect
  intro s on
  refine ⟨fun n waits => ?_, fun n empty => ?_, fun direction n read write => execResponseRead_other read write s n,
    fun block malformed idle => ?_,
    fun direction block read write => execBadCommandBlock_other read write s block, fun busy => ?_⟩
  · exact (execResponseRead_read s n).trans (congrArg _ (State.readSelection_of_responding on waits n))
  · exact (execResponseRead_read s n).trans (congrArg _ (State.readSelection_of_empty empty n))
  · exact (execBadCommandBlock_malformed malformed s).trans (congrArg _ (State.serve_of_listening ⟨on, idle⟩))
  · rw [execCommandCollision_busy on busy, State.collide_eq]

/-! ### The queue's front -/

/-- Settles O1: a step is the command's meaning by the definition of `step`. -/
theorem stepRunsTheFrontCommand : Obligations.StepRunsTheFrontCommand := by
  unfold Obligations.StepRunsTheFrontCommand
  intro s c rest front
  unfold step
  rw [front]

/-- A result that is a next state. -/
def CarriedOut (r : Result) : Prop := ∃ t, r = .next t

theorem CarriedOut.next (t : State) : CarriedOut (.next t) := ⟨t, rfl⟩

theorem CarriedOut.ite {p : Prop} [Decidable p] {x y : Result} (hx : CarriedOut x) (hy : CarriedOut y) :
    CarriedOut (if p then x else y) := by
  split_ifs <;> assumption

theorem execResetPulseEnd_carriedOut (s : State) : CarriedOut (execResetPulseEnd s) := by
  unfold execResetPulseEnd
  split
  · exact .next _
  · exact .next _

theorem execFlushDrainDone_carriedOut (s : State) : CarriedOut (execFlushDrainDone s) := by
  unfold execFlushDrainDone
  split
  · exact .next _
  · exact .next _

/-- A supply failure that catches a place of record memory is carried out (R23). -/
theorem execPowerLoss_carriedOut {loss : Loss} (wf : loss.wellFormed = true) (s : State) :
    CarriedOut (execPowerLoss loss s) := ⟨_, if_pos wf⟩

/-- A row that comes as a block is taken by the command port; some of the others may find nothing to do. -/
theorem exec_carriedOut {c : Instr} (wf : c.wellFormed = true) (s : State) : CarriedOut (exec c s) := by
  cases block : isBlock c with
  | true =>
    obtain ⟨during, work, taken, -⟩ := exec_block block s
    exact ⟨_, taken⟩
  | false =>
    cases c with
    | openScan | portByte _ _ | byteGapTimeout _ | frameTake | frameMatch | routeClockTick | pulseTimerExpire
    | batchForm => exact CarriedOut.ite (.next _) (.next _)
    | resetPulseEnd => exact execResetPulseEnd_carriedOut s
    | flushDrainDone => exact execFlushDrainDone_carriedOut s
    | badCommandBlock _ _ | commandCollision | responseRead _ _ | writeQueueWrite | clockCheckpoint
    | dwellCompareExpire | powerWarning | powerUp | recoveryScan | dockAttach | dockRemoval | offerSent | depotByte _
    | depotByteGapTimeout | verdictTimeout => exact .next _
    | powerLoss loss => exact execPowerLoss_carriedOut wf s
    | _ => cases block

/-- Settles O4: no row's meaning stops but a supply failure's, and that one only on operands that are no occurrence. -/
theorem everyCommandIsCarriedOut : Obligations.EveryCommandIsCarriedOut :=
  fun _ s wf => exec_carriedOut wf s

end Sys2Proof.Machine
end

