-- ==== Sys2Proof/Proofs/CheckCodes.lean ====
section
/-! PROOF. The check codes: their check values, and what they leave of checked bytes with their check bytes (O18). -/

namespace Sys2Proof.Machine

theorem crc8Byte_self (c : Byte) : crc8Byte c c = 0 := by
  rw [crc8Byte, BitVec.xor_self]
  rfl

theorem crc8_withCheck (bs : List Byte) : crc8 (withCheck bs) = 0 := by
  rw [crc8, withCheck, List.foldl_append]
  exact crc8Byte_self (crc8 bs)

/-- A remainder whose first byte is 0 takes no generator in within eight bits: each bit only moves it up. -/
theorem crc16Bit_shiftLeft (b : Byte) {n : Nat} (hn : n < 8) :
    crc16Bit (((0 : Byte) ++ b) <<< n) = ((0 : Byte) ++ b) <<< (n + 1) := by
  have high : (((0 : Byte) ++ b) <<< n).msb = false := by
    rw [BitVec.msb_eq_getLsbD_last, BitVec.getLsbD_shiftLeft, BitVec.getLsbD_append, if_neg (by omega)]
    simp
  rw [crc16Bit, high, if_neg Bool.false_ne_true, ← BitVec.shiftLeft_add]

theorem zero_append_shiftLeft (b : Byte) : ((0 : Byte) ++ b) <<< 8 = b ++ (0 : Byte) := by
  ext i hi
  rw [BitVec.getElem_shiftLeft, BitVec.getElem_append, BitVec.getElem_append]
  by_cases low : i < 8
  · simp [low]
  · have high : i - 8 < 8 := by omega
    simp [low, high]

/-- A byte that meets itself in the remainder's high byte leaves the low byte, moved up. -/
theorem crc16Byte_self (high low : Byte) : crc16Byte (high ++ low) high = low ++ (0 : Byte) := by
  have met : (high ++ low : Half) ^^^ (high ++ (0 : Byte)) = ((0 : Byte) ++ low) <<< 0 := by
    rw [BitVec.xor_append, BitVec.xor_self, BitVec.shiftLeft_zero]
    exact congrArg _ BitVec.xor_zero
  rw [crc16Byte, met, crc16Bit_shiftLeft _ (by decide), crc16Bit_shiftLeft _ (by decide),
    crc16Bit_shiftLeft _ (by decide), crc16Bit_shiftLeft _ (by decide), crc16Bit_shiftLeft _ (by decide),
    crc16Bit_shiftLeft _ (by decide), crc16Bit_shiftLeft _ (by decide), crc16Bit_shiftLeft _ (by decide),
    zero_append_shiftLeft]

theorem crc16_append_halfBytes (bs : List Byte) : crc16 (bs ++ halfBytes (crc16 bs)) = 0 := by
  have two : ∀ c : Half, (halfBytes c).foldl crc16Byte c = 0 := fun c => by
    have first := crc16Byte_self (c.extractLsb' 8 8) (c.extractLsb' 0 8)
    rw [halfBytes_join] at first
    calc
      (halfBytes c).foldl crc16Byte c = crc16Byte (crc16Byte c (c.extractLsb' 8 8)) (c.extractLsb' 0 8) := rfl
      _ = 0 := by rw [first, crc16Byte_self]; rfl
  rw [crc16, List.foldl_append]
  exact two (crc16 bs)

/-- Settles O18: the check values evaluated, and each code's last bytes taken from its own remainder. -/
theorem checkCodesLeaveNoResidue : Obligations.CheckCodesLeaveNoResidue := by
  unfold Obligations.CheckCodesLeaveNoResidue
  refine ⟨?_, ?_, fun bs => ⟨crc16_append_halfBytes bs, crc8_withCheck bs⟩⟩
  · simp [crc8, crc8Byte, crc8Bit, BitVec.msb_eq_decide]
  · simp [crc16, crc16Byte, crc16Bit, BitVec.msb_eq_decide]

end Sys2Proof.Machine
end

