-- ==== Sys2Proof/Proofs/CommandBlocks.lean ====
section
/-! PROOF. Command blocks: the block of a command carries that command (O12), and only a block that begins with a
command's own block carries it (O13). -/

namespace Sys2Proof.Machine

/-! ### Fields written are the bytes they were read from -/

/-- `n` bytes from offset `i`. -/
def bytesAt (bs : List Byte) (i n : Nat) : List Byte := (bs.drop i).take n

variable {bs : List Byte} {i j n k : Nat}

theorem bytesAt_all (h : bs.length = n) : bytesAt bs 0 n = bs := by
  rw [bytesAt, List.drop_zero, List.take_of_length_le h.le]

theorem bytesAt_append (next : j = i + n) : bytesAt bs i n ++ bytesAt bs j k = bytesAt bs i (n + k) := by
  rw [bytesAt, bytesAt, bytesAt, next, List.take_add, List.drop_drop]

theorem byteAt_singleton (h : i + 1 ≤ bs.length) : [byteAt bs i] = bytesAt bs i 1 := by
  rw [bytesAt, List.drop_eq_getElem_cons h, byteAt, List.getD_eq_getElem _ _ h]
  rfl

theorem byteAt_cons (h : i + 1 ≤ bs.length) (next : j = i + 1) :
    byteAt bs i :: bytesAt bs j n = bytesAt bs i (1 + n) := by
  rw [← bytesAt_append next, ← byteAt_singleton h]
  rfl

theorem halfBytes_append (a b : Byte) : halfBytes (a ++ b) = [a, b] :=
  congrArg₂ (fun x y => [x, y]) BitVec.extractLsb'_append_eq_left BitVec.extractLsb'_append_eq_right

theorem wordBytes_append (a b : Half) : wordBytes (a ++ b) = halfBytes a ++ halfBytes b := by
  have high : ∀ k, 16 ≤ k → (a ++ b).extractLsb' k 8 = a.extractLsb' (k - 16) 8 := fun _ le =>
    BitVec.extractLsb'_append_eq_of_le le
  have low : ∀ k, k + 8 ≤ 16 → (a ++ b).extractLsb' k 8 = b.extractLsb' k 8 := fun _ le =>
    BitVec.extractLsb'_append_eq_of_add_le le
  have bytes : wordBytes (a ++ b) = [(a ++ b).extractLsb' 24 8, (a ++ b).extractLsb' 16 8,
    (a ++ b).extractLsb' 8 8, (a ++ b).extractLsb' 0 8] := rfl
  rw [bytes, high 24 (by decide), high 16 (by decide), low 8 (by decide), low 0 (by decide)]
  rfl

theorem halfBytes_halfAt (h : i + 2 ≤ bs.length) : halfBytes (halfAt bs i) = bytesAt bs i 2 := by
  rw [halfAt, halfBytes_append, byteAt_singleton h, byteAt_cons (by omega) rfl]

theorem wordBytes_wordAt (h : i + 4 ≤ bs.length) : wordBytes (wordAt bs i) = bytesAt bs i 4 := by
  rw [wordAt, wordBytes_append, halfBytes_halfAt (by omega), halfBytes_halfAt h, bytesAt_append rfl]

theorem byteField_sentByteAt (h : i + 2 ≤ bs.length) : (sentByteAt bs i).byteField = bytesAt bs i 2 := by
  rw [sentByteAt, Sent.byteField, byteAt_singleton h, byteAt_cons (by omega) rfl]

theorem halfField_sentHalfAt (h : i + 3 ≤ bs.length) : (sentHalfAt bs i).halfField = bytesAt bs i 3 := by
  rw [sentHalfAt, Sent.halfField, halfBytes_halfAt h, byteAt_cons (by omega) rfl]

theorem wordField_sentWordAt (h : i + 5 ≤ bs.length) : (sentWordAt bs i).wordField = bytesAt bs i 5 := by
  rw [sentWordAt, Sent.wordField, wordBytes_wordAt h, byteAt_cons (by omega) rfl]

theorem HeaderParams.bytes_ofBytes (h : bs.length = 55) : (HeaderParams.ofBytes bs).bytes = bs := by
  unfold HeaderParams.bytes HeaderParams.ofBytes
  simp [wordField_sentWordAt, halfField_sentHalfAt, byteField_sentByteAt, h,
    bytesAt_append, bytesAt_all, -List.append_assoc]

theorem LoadParams.bytes_ofBytes (h : bs.length = 19) : (LoadParams.ofBytes bs).bytes = bs := by
  simp [LoadParams.bytes, LoadParams.ofBytes, wordBytes_wordAt, halfBytes_halfAt, byteField_sentByteAt, byteAt_singleton,
    byteAt_cons, h, bytesAt_append, bytesAt_all, -List.append_assoc]

theorem AmendParams.bytes_ofBytes (h : bs.length = 27) : (AmendParams.ofBytes bs).bytes = bs := by
  simp [AmendParams.bytes, AmendParams.ofBytes, wordBytes_wordAt, wordField_sentWordAt, halfField_sentHalfAt,
    byteField_sentByteAt, byteAt_singleton, h, bytesAt_append, bytesAt_all, -List.append_assoc]

/-! ### The command decoded is the command encoded (R173) -/

/-- What a decoding answers is a command with this code and these parameter bytes. -/
def EncodedAs (code : Byte) (ps : List Byte) (decoded : Option Instr) : Prop :=
  ∀ c, decoded = some c → c.codeAndParams = some (code, ps)

variable {code code' : Byte} {ps own : List Byte} {c : Instr} {decoded others : Option Instr} {m : Nat}

theorem EncodedAs.none : EncodedAs code ps none := fun _ h => nomatch h

theorem EncodedAs.sized (encoded : c.codeAndParams = some (code, own)) (same : ps.length = m → own = ps) :
    EncodedAs code ps (sized m ps c) := by
  intro x h
  unfold Sys2Proof.sized at h
  split at h
  · next length =>
    cases h
    rw [encoded, same length]
  · cases h

theorem EncodedAs.ite (row : EncodedAs code' ps decoded) (rows : EncodedAs code ps others) :
    EncodedAs code ps (if code = code' then decoded else others) := by
  split
  · next same => exact same ▸ row
  · exact rows

/-- A row of the decoder's table with a fixed number of parameter bytes. -/
theorem EncodedAs.row (encoded : c.codeAndParams = some (code', own)) (same : ps.length = m → own = ps)
    (rows : EncodedAs code ps others) : EncodedAs code ps (if code = code' then Sys2Proof.sized m ps c else others) :=
  .ite (.sized encoded same) rows

theorem nil_of_length (h : ps.length = 0) : [] = ps := (List.eq_nil_of_length_eq_zero h).symm

theorem singleton_byteAt (h : ps.length = 1) : [byteAt ps 0] = ps := by
  rw [byteAt_singleton h.ge, bytesAt_all h]

theorem pair_byteAt (h : ps.length = 2) : [byteAt ps 0, byteAt ps 1] = ps := by
  rw [byteAt_singleton h.ge, byteAt_cons (by omega) rfl, bytesAt_all h]

theorem halfBytes_of_length (h : ps.length = 2) : halfBytes (halfAt ps 0) = ps := by
  rw [halfBytes_halfAt h.ge, bytesAt_all h]

theorem wordBytes_of_length (h : ps.length = 4) : wordBytes (wordAt ps 0) = ps := by
  rw [wordBytes_wordAt h.ge, bytesAt_all h]

theorem lookupParams_of_length (h : ps.length = 5) : wordBytes (wordAt ps 0) ++ [byteAt ps 4] = ps := by
  rw [wordBytes_wordAt (by omega), byteAt_singleton h.ge, bytesAt_append rfl, bytesAt_all h]

theorem walkParams_of_length (h : ps.length = 4) : halfBytes (halfAt ps 0) ++ [byteAt ps 2, byteAt ps 3] = ps := by
  rw [halfBytes_halfAt (by omega), byteAt_singleton h.ge, byteAt_cons (by omega) rfl, bytesAt_append rfl, bytesAt_all h]

theorem defineParams_of_length (h : ps.length = 7) :
    byteAt ps 0 :: (halfBytes (halfAt ps 1) ++ halfBytes (halfAt ps 3) ++ halfBytes (halfAt ps 5)) = ps := by
  rw [halfBytes_halfAt (by omega), halfBytes_halfAt (by omega), halfBytes_halfAt h.ge, bytesAt_append rfl,
    bytesAt_append rfl, byteAt_cons (by omega) rfl, bytesAt_all h]

theorem natByte_toNat (b : Byte) : natByte b.toNat = b := (BitVec.ofNat_toNat 8 b).trans (BitVec.setWidth_eq b)

/-- The parameters of RECORD_NOTE: the fifth byte is the length of the text behind it. -/
theorem noteParams_of_length (long : 5 ≤ ps.length) (h : ps.length = 5 + (byteAt ps 4).toNat) :
    wordBytes (wordAt ps 0) ++ natByte (ps.drop 5).length :: ps.drop 5 = ps := by
  have length : natByte (ps.drop 5).length = byteAt ps 4 := by
    rw [List.length_drop, h, Nat.add_sub_cancel_left, natByte_toNat]
  calc
    _ = wordBytes (wordAt ps 0) ++ [byteAt ps 4] ++ ps.drop 5 := by rw [length, List.append_assoc]; rfl
    _ = ps.take 5 ++ ps.drop 5 := by
      rw [wordBytes_wordAt (by omega), byteAt_singleton long, bytesAt_append rfl]
      rfl
    _ = ps := List.take_append_drop 5 ps

theorem EncodedAs.note : EncodedAs 0x23 ps
    (if 5 ≤ ps.length then Sys2Proof.sized (5 + (byteAt ps 4).toNat) ps (.recordNote (wordAt ps 0) (ps.drop 5))
     else .none) := by
  split
  · next long => exact .sized rfl (noteParams_of_length long)
  · exact .none

/-- The decoder's table row by row, each family of codes beginning a line. -/
theorem decodeParams_encodedAs (code : Byte) (ps : List Byte) : EncodedAs code ps (decodeParams code ps) := by
  unfold decodeParams
  exact .row rfl HeaderParams.bytes_ofBytes <| .row rfl nil_of_length <| .row rfl nil_of_length <|
      .row rfl nil_of_length <| .row rfl nil_of_length <|
    .row rfl LoadParams.bytes_ofBytes <| .row rfl lookupParams_of_length <| .row rfl AmendParams.bytes_ofBytes <|
      .ite .note <| .row rfl wordBytes_of_length <| .row rfl walkParams_of_length <|
    .row rfl defineParams_of_length <| .row rfl singleton_byteAt <| .row rfl nil_of_length <|
      .row rfl singleton_byteAt <| .row rfl nil_of_length <| .row rfl pair_byteAt <|
    .row rfl nil_of_length <| .row rfl wordBytes_of_length <| .row rfl pair_byteAt <|
    .row rfl pair_byteAt <| .row rfl singleton_byteAt <| .row rfl nil_of_length <|
    .row rfl nil_of_length <| .row rfl nil_of_length <| .row rfl nil_of_length <|
    .row rfl halfBytes_of_length <| .row rfl halfBytes_of_length <| .row rfl nil_of_length <|
      .row rfl nil_of_length .none

/-- A block that carries a command: its code, the number of its parameter bytes, those bytes, and any others. -/
theorem decodeBlock_eq_some {bs : List Byte} (h : decodeBlock bs = some c) : ∃ code ps extra,
    bs = code :: natByte ps.length :: ps ++ extra ∧ decodeParams code ps = some c := by
  unfold decodeBlock at h
  split at h
  · next code m rest =>
    split at h
    · cases h
    · next fits =>
      have length : natByte (rest.take m.toNat).length = m := by
        rw [List.length_take, Nat.min_eq_left (by omega), natByte_toNat]
      refine ⟨code, rest.take m.toNat, rest.drop m.toNat, ?_, h⟩
      rw [length, List.cons_append, List.cons_append, List.take_append_drop]
  · cases h

/-- Settles O13: the command that the decoder's table answers is encoded with the block's code and parameter bytes. -/
theorem decodedBlocksAreEncoded : Obligations.DecodedBlocksAreEncoded := by
  unfold Obligations.DecodedBlocksAreEncoded
  intro c bs h
  obtain ⟨code, ps, extra, whole, decoded⟩ := decodeBlock_eq_some h
  have encoded : c.codeAndParams = some (code, ps) := decodeParams_encodedAs code ps c decoded
  refine ⟨_, extra, ?_, whole⟩
  rw [Instr.block, encoded]
  rfl

/-! ### The command encoded is the command decoded (R172, R173) -/

/-- The longest parameters are a note's: 5 bytes and a text of at most 57. -/
theorem params_length_le (wf : c.wellFormed = true) (h : c.codeAndParams = some (code, ps)) : ps.length ≤ 62 := by
  cases c with
  | routeHeader p =>
    cases h
    exact (HeaderParams.bytes_length p).le.trans (by decide)
  | recordNote serial text =>
    cases h
    have fits : text.length ≤ 57 := of_decide_eq_true wf
    simp only [wordBytes, List.length_append, List.length_cons, List.length_nil]
    omega
  | _ => cases h <;> exact Nat.le_of_ble_eq_true rfl

/-- Each row of the decoder's table reads back the parameters of its own command. A row whose parameters are single bytes
reads them as they stand. -/
theorem decodeParams_codeAndParams (wf : c.wellFormed = true) (h : c.codeAndParams = some (code, ps)) :
    decodeParams code ps = some c := by
  cases c with
  | routeHeader p =>
    cases h
    rw [decodeParams_header, sized, if_pos (HeaderParams.bytes_length p), HeaderParams.ofBytes_bytes]
  | recordLoad p =>
    cases h
    exact congrArg (some ∘ Instr.recordLoad) (LoadParams.ofBytes_bytes p)
  | recordAmend p =>
    cases h
    exact congrArg (some ∘ Instr.recordAmend) (AmendParams.ofBytes_bytes p)
  | recordNote serial text =>
    cases h
    exact decodeParams_note serial text (of_decide_eq_true wf)
  | recordLookup serial wanted =>
    cases h
    exact congrArg (fun x => some (Instr.recordLookup x wanted)) (wordBytes_join serial)
  | recordRetire serial =>
    cases h
    exact congrArg (some ∘ Instr.recordRetire) (wordBytes_join serial)
  | recordWalk start statuses filter =>
    cases h
    exact congrArg (fun x => some (Instr.recordWalk x statuses filter)) (halfBytes_join start)
  | segmentDefine segment base limit dwell =>
    cases h
    exact congr (congr (congrArg (fun x y z => some (Instr.segmentDefine segment x y z)) (halfBytes_join base))
      (halfBytes_join limit)) (halfBytes_join dwell)
  | tamperAck serial =>
    cases h
    exact congrArg (some ∘ Instr.tamperAck) (wordBytes_join serial)
  | eventsRead clear =>
    cases h
    exact congrArg (some ∘ Instr.eventsRead) (halfBytes_join clear)
  | eventsEnable enable =>
    cases h
    exact congrArg (some ∘ Instr.eventsEnable) (halfBytes_join enable)
  | _ => cases h <;> rfl

/-- Settles O12: the block's parameters are found whole, whatever follows them, and decoded. -/
theorem blocksDecode : Obligations.BlocksDecode := by
  unfold Obligations.BlocksDecode
  intro c bs extra wf block
  obtain ⟨⟨code, ps⟩, encoded, rfl⟩ := Option.map_eq_some_iff.1 block
  have fits : ps.length ≤ 62 := params_length_le wf encoded
  exact (decodeBlock_own code ps extra fits).trans (decodeParams_codeAndParams wf encoded)

end Sys2Proof.Machine
end

