-- ==== Sys2Proof/Proofs/WaitingCommands.lean ====
section
/-! PROOF. The queue of waiting commands: an idle step changes nothing (O2), and no command's meaning touches the queue
(O3). -/

namespace Sys2Proof.Machine

variable {s t : State}

/-- Settles O2: `step` with an empty queue is its first branch. -/
theorem stepIdlesOnAnEmptyQueue : Obligations.StepIdlesOnAnEmptyQueue := by
  unfold Obligations.StepIdlesOnAnEmptyQueue
  intro s empty
  unfold step
  rw [empty]

/-! ### The rows that `Steady` does not cover -/

/-- EVENTS_READ clears events, not what waits (R169). -/
theorem execEventsRead_pending {clear : Half} (ht : execEventsRead clear s = .next t) : t.pending = s.pending := by
  cases ht
  exact State.serve_pending rfl

/-- EVENTS_ENABLE replaces the enable set, not what waits (R170). -/
theorem execEventsEnable_pending {enable : Half} (ht : execEventsEnable enable s = .next t) :
    t.pending = s.pending := by
  cases ht
  exact State.serve_pending rfl

/-- What waits outside is not on chip: a start leaves it (R142). -/
theorem execPowerUp_pending (ht : execPowerUp s = .next t) : t.pending = s.pending := by
  cases ht
  split_ifs
  · rfl
  · exact State.restart_pending .recovered s

/-- What waits outside is not on chip: a supply failure leaves it (R23). -/
theorem execPowerLoss_pending {loss : Loss} (ht : execPowerLoss loss s = .next t) : t.pending = s.pending := by
  unfold execPowerLoss at ht
  split_ifs at ht
  · cases ht
    rfl

/-- Settles O3: every row but the two event commands and the restarts is steady, and each of those keeps the queue by
its own lemma. -/
theorem commandsLeaveTheQueueAlone : Obligations.CommandsLeaveTheQueueAlone := by
  unfold Obligations.CommandsLeaveTheQueueAlone
  intro c s t ht
  have steady (raises : Instr.onlyRaises c = true) : t.pending = s.pending := (exec_steady s c raises t ht).pending
  cases c with
  | eventsRead clear => exact execEventsRead_pending ht
  | eventsEnable enable => exact execEventsEnable_pending ht
  | partReset => exact execPartReset_pending ht
  | powerUp => exact execPowerUp_pending ht
  | powerLoss loss => exact execPowerLoss_pending ht
  | _ => exact steady rfl

end Sys2Proof.Machine
end
